-- ==== Sys2Proof/Word.lean ====
section
/-! DEFINITION. The word type of the part and the index types of its numbered things
(spec/00_scope.md section 5: nodes, channels, slots, plans and levels are numbered from 0). -/

namespace Sys2Proof

/-- One byte of the exchange memory, of a register or of the serial port. -/
abbrev Byte := BitVec 8

/-- A measuring channel, 0 to 3. -/
abbrev Chan := Fin 4

/-- A network node, 0 to 7. -/
abbrev NodeId := Fin 8

/-- A measuring group, named by its leader (R6). -/
abbrev GroupId := Fin 8

/-- An order slot, 0 to 7. -/
abbrev SlotId := Fin 8

/-- A plan, 0 to 15. -/
abbrev PlanId := Fin 16

/-- An entry of the link table, 0 to 15. -/
abbrev LinkId := Fin 16

/-- An attention level, 0 (highest priority) to 7 (R169). -/
abbrev Level := Fin 8

/-- The four channels in ascending order. -/
def allChans : List Chan := [0, 1, 2, 3]

/-- The eight nodes (also leaders, slots and levels) in ascending order. -/
def allNodes : List NodeId := [0, 1, 2, 3, 4, 5, 6, 7]

/-- The sixteen plans (also link entries) in ascending order. -/
def allPlans : List PlanId := [0, 1, 2, 3, 4, 5, 6, 7, 8, 9, 10, 11, 12, 13, 14, 15]

end Sys2Proof
end

