-- ==== Sys2Proof/Config.lean ====
section
/-! DEFINITION. What one implementation of the part fixes: identity bytes, fixed times and fixed figures.
The spec leaves no value to an implementation and no result undefined, so no constant here is free. -/

namespace Sys2Proof.Config

/-- IDENT part code (R165). -/
def identPart : Byte := 0x48
/-- IDENT revision (R165). -/
def identRevision : Byte := 0x01
/-- Bytes of the exchange memory, addresses 0x000 to 0x9FF (R156). -/
def memorySize : Nat := 0xA00
/-- Detach verify, milliseconds (R144). -/
def verifyTime : Nat := 5
/-- Limit of a hold of node images, milliseconds (R71). -/
def holdLimit : Nat := 250
/-- Length of a SELFCHECK half-period, milliseconds (R40). -/
def selfcheckHalf : Nat := 200
/-- Network voltage below which a network counts as de-energised, volts (R52). -/
def energisedUb : Nat := 50
/-- Highest measured resistance, kilohms (R51). -/
def maxMeasured : Nat := 65000
/-- The above-range mark (R51, R179). -/
def aboveRangeMark : Nat := 65535
/-- Pass window of the self-check, kilohms, bounds included (R148). -/
def passLow : Nat := 950
/-- Upper bound of the self-check's pass window, kilohms (R148). -/
def passHigh : Nat := 1050

end Sys2Proof.Config
end

