-- ==== Sys2Proof/Syntax.lean ====
section
/-! DEFINITION. The commands and events of the part, one constructor per row of spec/opcode_table.json.

Serial-port transactions carry what the host clocks in.  An address operand is `none` where CSN rises before
the second address byte is complete (R158); the bytes that follow are then the whole address bytes, none or one.  A
byte clocked in that CSN's rise cuts short is discarded (R158).  A data byte of a read acts at its first bit (R158, R165,
R172), so a read's count has the byte that CSN's rise cuts short after its first bit; what such a byte does is DEDUCED,
log entry 23.  Events carry what the part senses at the event: samples, line states and coupling readbacks. -/

namespace Sys2Proof

/-- The commands of the part (spec/opcode_table.json, in the table's order). -/
inductive Instr where
  /-- HARD_RESET: RESETN low, or power-on (R167). -/
  | hardReset
  /-- STARTUP_VERIFY_EXPIRY: the readbacks (bit c set: channel c's switch still closed) and the sampled lines
  (bits DIS0, DIS1, DIS2, STOP; set for asserted) (R150). -/
  | startupVerifyExpiry (closed : BitVec 4) (lines : BitVec 4)
  /-- MEMORY_READ: command 0xA1, the address field, and the count of data bytes whose first bit is shifted out (R158;
  DEDUCED, log entry 23). -/
  | memoryRead (addr : Option (BitVec 16)) (count : Nat)
  /-- MEMORY_WRITE: command 0xA2, the address field, and the data bytes that arrived whole (R158). -/
  | memoryWrite (addr : Option (BitVec 16)) (data : List Byte)
  /-- REGISTER_READ: command 0xA5, the count as in MEMORY_READ (R158, R165, R172; DEDUCED, log entry 23). -/
  | registerRead (addr : Option (BitVec 16)) (count : Nat)
  /-- REGISTER_WRITE: command 0xA6 (R158, R165). -/
  | registerWrite (addr : Option (BitVec 16)) (data : List Byte)
  /-- UNKNOWN_COMMAND: a command byte that is none of the four, and how many bytes follow it (R158). -/
  | unknownCommand (code : Byte) (rest : Nat)
  /-- WRITE_TRANSACTION_END: CSN rises after a memory write (R162). -/
  | writeTransactionEnd
  /-- SPOT offered in one slot by one write transaction (R131). -/
  | spot (slot : SlotId) (node : Byte) (plan : Byte)
  /-- SELFCHECK offered in one slot by one write transaction (R135). -/
  | selfcheck (slot : SlotId) (chan : Byte)
  /-- SNAPSHOT offered in one slot by one write transaction (R91). -/
  | snapshot (slot : SlotId) (chan : Byte)
  /-- RESTORE offered in one slot by one write transaction (R94). -/
  | restore (slot : SlotId) (chan : Byte)
  /-- RELEASE offered in one slot by one write transaction (R93). -/
  | release (slot : SlotId) (chan : Byte)
  /-- ACK offered in one slot by one write transaction (R76). -/
  | ack (slot : SlotId) (node : Byte) (count : BitVec 16) (mask : Byte)
  /-- YIELD offered in one slot by one write transaction (R17). -/
  | yieldNode (slot : SlotId) (node : Byte)
  /-- RESUME offered in one slot by one write transaction (R18). -/
  | resumeNode (slot : SlotId) (node : Byte)
  /-- CLEAR_DISCONNECT offered in one slot by one write transaction (R143). -/
  | clearDisconnect (slot : SlotId) (chan : Byte)
  /-- MODE_REQUEST: a CONTROL write, SOFT_RESET clear, with its mode field and HOLD bit (R100, R166). -/
  | modeRequest (mode : BitVec 2) (hold : Bool)
  /-- HOLD_START: a CONTROL write with HOLD set, SOFT_RESET clear (R71). -/
  | holdStart (mode : BitVec 2)
  /-- HOST_RELEASE: a CONTROL write with HOLD clear, SOFT_RESET clear (R73). -/
  | hostRelease (mode : BitVec 2)
  /-- SOFT_RESET: a CONTROL write with SOFT_RESET set (R166). -/
  | softReset (mode : BitVec 2) (hold : Bool)
  /-- ATTN_MASK: a write of that register (R171). -/
  | attnMask (mask : Byte)
  /-- POLL: a read of that register alone, which acts at its byte's first bit (R172; DEDUCED, log entry 23). -/
  | poll
  /-- SPECIFIC_END: a write of 0x00 to 0x07 to POLL (R173). -/
  | specificEnd (level : Byte)
  /-- NON_SPECIFIC_END: a write of 0x08 to POLL (R173). -/
  | nonSpecificEnd
  /-- SAMPLE: one channel's 1 ms sample, the Um code and the Ub reading in volts (R25). -/
  | sample (chan : Chan) (um : BitVec 16) (ub : Int)
  /-- WINDOW_END of one channel (R26). -/
  | windowEnd (chan : Chan)
  /-- HALF_MAX of one channel (R30). -/
  | halfMax (chan : Chan)
  /-- SYNC_EDGE: SYNC rises (R29). -/
  | syncEdge
  /-- SYNC_TIMEOUT of one channel (R29). -/
  | syncTimeout (chan : Chan)
  /-- SELFCHECK_HALF_END of one channel (R40). -/
  | selfcheckHalfEnd (chan : Chan)
  /-- COMPUTATION_START (R45). -/
  | computationStart
  /-- COMPUTATION_COMPLETE (R57). -/
  | computationComplete
  /-- CONDITION_RESULT (R82). -/
  | conditionResult
  /-- STALENESS_CHECK (R69). -/
  | stalenessCheck
  /-- HOLD_LIMIT_EXPIRY (R74). -/
  | holdLimitExpiry
  /-- SETTLE_EXPIRY of the group with this leader (R12). -/
  | settleExpiry (leader : GroupId)
  /-- PARK_TIMER_EXPIRY (R113). -/
  | parkTimerExpiry
  /-- DETACH_VERIFY_EXPIRY of one channel, with its coupling readback (true: still closed) (R144). -/
  | detachVerifyExpiry (chan : Chan) (closed : Bool)
  /-- DISCONNECT_LINE_CHANGE: DIS0, DIS1 or DIS2 becomes asserted or inactive (R139). -/
  | disconnectLineChange (line : Fin 3) (asserted : Bool)
  /-- STOP_LINE: STOP asserts (R151). -/
  | stopLine
  /-- STOP_LINE_RELEASE: STOP releases (R151). -/
  | stopLineRelease
deriving DecidableEq, Repr

end Sys2Proof
end

