-- ==== Sys2Proof/WellFormed.lean ====
section
/-! DEFINITION. Which terms of `Instr` stand for a command of the table.  Every operand is a field of its own
width, so three checks remain; `exec` is total all the same. -/

namespace Sys2Proof

/-- The four command codes of the serial port (R158). -/
def knownCommand (code : Byte) : Bool :=
  code == 0xA1 || code == 0xA2 || code == 0xA5 || code == 0xA6

/-- The bytes after the command fit the address: of an incomplete one at most one byte is whole (R158). -/
def fitsAddress (addr : Option (BitVec 16)) (count : Nat) : Bool := addr.isSome || decide (count ≤ 1)

/-- UNKNOWN_COMMAND carries none of the four codes (R158), SPECIFIC_END a value of 0x00 to 0x07 (R173), and a
transaction cut before its address was complete at most one byte of it (R158). -/
def Instr.wellFormed : Instr → Bool
  | .memoryRead addr count | .registerRead addr count => fitsAddress addr count
  | .memoryWrite addr data | .registerWrite addr data => fitsAddress addr data.length
  | .unknownCommand code _ => !knownCommand code
  | .specificEnd level => decide (level.toNat ≤ 7)
  | _ => true

end Sys2Proof
end

