-- ==== Sys2Proof/Decode.lean ====
section
/-! DEFINITION. Decoding: by the table's bits, and the serial port's reading of a transaction's bytes (R158).  No row
of spec/opcode_table.json gives bits ("fields" is empty in all 42 rows), so no word spells a command. -/

namespace Sys2Proof

/-- The command that a word spells by the table's bits: none, since no row of the table gives bits. -/
def decodeTableWord (_nbits _w : Nat) : Option Instr := none

/-- The address field of a transaction, high byte first, and the bytes after it; where the second address byte never
came, no address, and the bytes that did come (R158). -/
def splitAddress : List Byte → Option (BitVec 16) × List Byte
  | high :: low :: data => (some (high ++ low), data)
  | short => (none, short)

/-- The command that the bytes of one transaction spell, where CSN rises between two bytes; none where not even the
command byte came whole (R158).  A read's data bytes are the bytes the host clocks while the part shifts out.  A transaction
whose command byte CSN's rise cuts short is no command, so ERR stands after it, and SDO's bytes stay those of the
transaction before: R160 does not say whether a status byte cut short clears ERR.  DESIGN CHOICE, log entry 26. -/
def decodeTransaction : List Byte → Option Instr
  | [] => none
  | code :: rest =>
    let (addr, data) := splitAddress rest
    some (if code = 0xA1 then .memoryRead addr data.length
      else if code = 0xA2 then .memoryWrite addr data
      else if code = 0xA5 then .registerRead addr data.length
      else if code = 0xA6 then .registerWrite addr data
      else .unknownCommand code rest.length)

/-- The command of a transaction that CSN's rise ends within a byte, from the whole bytes before that byte.  A byte
clocked in is discarded (R158); a read's data byte has acted at its first bit and counts (R158, R165, R172).  DEDUCED, log
entry 23.  None where the byte cut short is the command byte: ERR stands (DESIGN CHOICE, log entry 26). -/
def decodeCut (whole : List Byte) : Option Instr :=
  match decodeTransaction whole with
  | some (.memoryRead (some a) count) => some (.memoryRead (some a) (count + 1))
  | some (.registerRead (some a) count) => some (.registerRead (some a) (count + 1))
  | other => other

end Sys2Proof
end

