-- ==== Sys2Proof/Machine/State.lean ====
section
/-! DEFINITION. The state of the part as plain data: every piece of state spec/ gives a block, with its value
after hard reset.

What the host reads of the header, the group table and the registers is a VIEW computed from this state
(Sys2Proof/Machine/Flags.lean): those areas are part-owned and always show their owner's present state
(R7, R156, R165), so nothing is stored twice. -/

namespace Sys2Proof.Machine

/-- No rule of spec/ stops the part: a wrong access sets ERR (R160), a failed check enters SAFE_STOP (R152).
So a step has no fault. -/
inductive Fault where
deriving DecidableEq, Repr

/-- Why a step has no meaning. -/
inductive Refusal where
  /-- Raised by an arm of `exec` that has no meaning yet; safe (no claim can be made through it). No arm raises
  it now. -/
  | notModelled (mnemonic : String)
deriving DecidableEq, Repr

/-! ### Enumerations (spec/11_record_layouts.md section 11.2) -/

/-- The four modes (R99). -/
inductive Mode where
  | idle | run | parked | safeStop
deriving DecidableEq, Repr

/-- Causes of SAFE_STOP (section 8.1). -/
inductive Cause where
  | none | detachFailed | stopLine | startupFailed
deriving DecidableEq, Repr

/-- A channel's self-check standing (R146). -/
inductive Health where
  | good | suspect | offline
deriving DecidableEq, Repr

/-- Disconnect modes (R142). -/
inductive DiscMode where
  | latched | follow
deriving DecidableEq, Repr

/-- Link states (R2). -/
inductive LinkState where
  | open_ | closed | unknown
deriving DecidableEq, Repr

/-- Polarity of a half-period (R24). -/
inductive Polarity where
  | pos | neg
deriving DecidableEq, Repr

/-- Sync modes (R28, R29). -/
inductive SyncMode where
  | free | triggered
deriving DecidableEq, Repr

/-- Injector policies (R10, R107). -/
inductive Policy where
  | lowest | rotate
deriving DecidableEq, Repr

/-- Condition actions, weakest first (R81). -/
inductive Action where
  | ignore | report | hold
deriving DecidableEq, Repr

/-- The seven conditions, in the order of their priority (R80). -/
inductive Cond where
  | saturated | unsettled | drift | reversed | belowZero | aboveRange | syncMissed
deriving DecidableEq, Repr

/-- Slot states at rest (R117). -/
inductive SlotState where
  | free | taken | done | refused
deriving DecidableEq, Repr

/-- The nine order kinds (R135). -/
inductive OrderKind where
  | spot | selfcheck | snapshot | restore | release | ack | yieldNode | resumeNode | clearDisconnect
deriving DecidableEq, Repr

/-- Refusal reasons of an order (section 7.6). -/
inductive Reason where
  | badKind | badNode | badChannel | badPlan | noChannel | passive | held | offline | disconnected
  | lineActive | stale | format | topology | reset | safeStop
deriving DecidableEq, Repr

/-- Node states (section 4.1). -/
inductive NodeState where
  | unknown | ok | warn | fault | stale
deriving DecidableEq, Repr

/-- Target bands and confirmation candidates (R66). -/
inductive Band where
  | ok | warn | fault
deriving DecidableEq, Repr

/-- Sources of a result (R44). -/
inductive Source where
  | continuous | spot | parked | selfcheck
deriving DecidableEq, Repr

/-- The eight group states (R13). -/
inductive GroupState where
  | passive | held | noChannel | noPlan | settling | quiet | waitingTurn | measuring
deriving DecidableEq, Repr

/-- Position of a coupling switch as commanded (R11). -/
inductive Coupling where
  | detached | attached
deriving DecidableEq, Repr

/-- Kinds of run (R22). -/
inductive RunKind where
  | none | series | triple | selfcheck
deriving DecidableEq, Repr

/-- Phases of a run (section 2.1). -/
inductive Phase where
  | none | waitAttach | blanking | settleTest | waitSync
deriving DecidableEq, Repr

/-- Context kinds (R85). -/
inductive CtxKind where
  | none | idle | held
deriving DecidableEq, Repr

/-- Who holds a group's measurement (R103). -/
inductive SeriesState where
  | none | series | stopping | turn | order
deriving DecidableEq, Repr

/-- Where a TAKEN measurement order stands (R124, R125). -/
inductive OrderPhase where
  | waiting | running | finishing
deriving DecidableEq, Repr

/-- The park timer (section 6.1): stopped, running with the milliseconds left, or expired with a turn due. -/
inductive ParkTimer where
  | stopped
  | running (left : Nat)
  | due
deriving DecidableEq, Repr

/-- A condition set, one bit per condition; bit 7 is never set by the part (R178). -/
abbrev CondSet := BitVec 8

/-! ### Working copies of the topology unit (chapter 1) -/

/-- A link entry's working copy (R2). -/
structure LinkCopy where
  nodeA : Byte
  nodeB : Byte
  state : LinkState
deriving DecidableEq, Repr

/-- A wiring record's working copy; `rm` and `rs` in ohms, clamped (R4). -/
structure WiringCopy where
  enabled : Bool
  node : Byte
  rm : Nat
  rs : Nat
deriving DecidableEq, Repr

/-- A plan's working copy, every field clamped (R5, section 11.5). -/
structure PlanCopy where
  ready : Bool
  up : Nat
  startPol : Polarity
  k : Nat
  blank : Nat
  halfMin : Nat
  halfMax : Nat
  tolerance : Nat
  settleCount : Nat
  daMin : Nat
  drift : Nat
  sync : SyncMode
  policy : Policy
  syncTimeout : Nat
  warnK : Nat
  faultK : Nat
  hysteresis : Nat
  confirm : Nat
  maxAge : Nat
  settle : Nat
  rotate : Nat
  actions : Vector Action 7
deriving DecidableEq, Repr

/-- The lower limits of every field, the default of a working copy (R5, section 11.5). DEDUCED, log entry 4. -/
def PlanCopy.lowest : PlanCopy where
  ready := false
  up := 10
  startPol := .pos
  k := 2
  blank := 0
  halfMin := 100
  halfMax := 100
  tolerance := 1
  settleCount := 1
  daMin := 1
  drift := 1
  sync := .free
  policy := .lowest
  syncTimeout := 10
  warnK := 1
  faultK := 1
  hysteresis := 0
  confirm := 1
  maxAge := 1
  settle := 0
  rotate := 1
  actions := Vector.replicate 7 .ignore

/-- One measuring group: its row of the group table (R7), its settle timer (R12) and what the scheduler keeps
for it (section 6.1).  The group state is a view (`groupState`, R13). -/
structure Group where
  members : BitVec 8
  injector : Option Chan
  /-- Milliseconds left, while the settle timer runs. -/
  settle : Option Nat
  /-- The settle timer waits for the leader's plan (R12). -/
  waitPlan : Bool
  seriesCount : BitVec 16
  measurable : Bool
  series : SeriesState
  policy : Policy
  rotateCount : Nat
  rotation : Nat
deriving DecidableEq, Repr

/-- A group at its formation (R7, R103). DESIGN CHOICE, log entry 5. -/
def Group.formed (members : BitVec 8) : Group where
  members := members
  injector := none
  settle := none
  waitPlan := false
  seriesCount := 0
  measurable := false
  series := .none
  policy := .lowest
  rotateCount := 1
  rotation := 0

/-! ### Channel sequencers (chapters 2 and 5) -/

/-- Plan copy and calibration copy taken at a run's start (R22). -/
structure RunCopy where
  plan : PlanCopy
  planId : Option PlanId
  rm : Nat
  rs : Nat
deriving DecidableEq, Repr

/-- The averages of one completed window and its full-scale mark (R26). -/
structure Window where
  um : Int
  ub : Nat
  fullScale : Bool
deriving DecidableEq, Repr

/-- A plateau record (R32). -/
structure Plateau where
  polarity : Polarity
  value : Int
  ub : Nat
  settleTime : Nat
  flags : CondSet
deriving DecidableEq, Repr

/-- A context record, the pending condition record of a HELD channel (R88). -/
structure CtxRecord where
  conds : CondSet
  /-- Priority number of the highest condition, 0 for none (R178). -/
  highest : Nat
  p1 : Int
  p2 : Int
  p3 : Int
  dA : Int
  off2 : Int
  ub : Nat
  planId : Option PlanId
deriving DecidableEq, Repr

/-- The record of a NONE context (R85). -/
def CtxRecord.zero : CtxRecord where
  conds := 0
  highest := 0
  p1 := 0
  p2 := 0
  p3 := 0
  dA := 0
  off2 := 0
  ub := 0
  planId := none

/-- One channel sequencer (section 2.1) with its context (R85). -/
structure Seq where
  coupling : Coupling
  run : RunKind
  /-- The slot whose order started the run; none where the scheduler did (R44). -/
  owner : Option SlotId
  phase : Phase
  copy : RunCopy
  polarity : Polarity
  /-- 1 to 3 in a TRIPLE or SELFCHECK run. -/
  half : Nat
  elapsed : Nat
  accUm : Int
  accUb : Nat
  accCount : Nat
  accFullScale : Bool
  /-- Windows completed in the half-period, newest first. -/
  windows : List Window
  ready : Option Nat
  /-- At most three plateaus, oldest first (R34). -/
  history : List Plateau
  latestUb : Nat
  /-- Milliseconds left, while the sync timer runs (R29). -/
  syncTimer : Option Nat
  stopRequest : Bool
  /-- Um average of the last window completed in the run (R41). -/
  lastAverage : Int
  viewLatched : Bool
  ctx : CtxKind
  record : CtxRecord
deriving DecidableEq, Repr

/-- What the safety unit keeps of a channel (section 8.1). -/
structure ChanSafety where
  health : Health
  disconnected : Bool
  discMask : BitVec 3
  discMode : DiscMode
  /-- Milliseconds left, while a detach verify runs (R144). -/
  verify : Option Nat
  /-- The reference switch is connected (R147). -/
  reference : Bool
deriving DecidableEq, Repr

/-! ### Arithmetic and condition units (chapters 3 and 5) -/

/-- The group a triple was measured on (R44). -/
structure Stamp where
  members : BitVec 8
  leader : GroupId
  injector : Chan
deriving DecidableEq, Repr

/-- The whole input of one computation (R44).  `slot` is the slot of the order that started the run. -/
structure Triple where
  p1 : Plateau
  p2 : Plateau
  p3 : Plateau
  up : Nat
  daMin : Nat
  drift : Nat
  rm : Nat
  rs : Nat
  planId : Option PlanId
  actions : Vector Action 7
  chan : Chan
  source : Source
  stamp : Option Stamp
  slot : Option SlotId
deriving DecidableEq, Repr

/-- A rail split, kilohms and thousandths (R53, R54). -/
structure RailSplit where
  rp : Nat
  rn : Nat
  apm : Int
deriving DecidableEq, Repr

/-- The result of one computation (R56).  `actions` and `slot` ride along from the triple (R81, R82). -/
structure Result where
  source : Source
  chan : Chan
  planId : Option PlanId
  stamp : Option Stamp
  pol1 : Polarity
  p1 : Int
  p2 : Int
  p3 : Int
  t1 : Nat
  t2 : Nat
  t3 : Nat
  dA : Int
  off2 : Int
  ub : Nat
  conds : CondSet
  valid : Bool
  rf : Option Nat
  split : Option RailSplit
  actions : Vector Action 7
  slot : Option SlotId
deriving DecidableEq, Repr

/-! ### Node status unit (chapter 4) -/

/-- One node's figures (section 4.1). The origin is kept as the bytes the record shows. -/
structure NodeStatus where
  state : NodeState
  candidate : Option Band
  count : Nat
  stamp : BitVec 32
  rf : Nat
  split : Option RailSplit
  ub : Nat
  last : CondSet
  accrued : CondSet
  source : Source
  originMask : BitVec 8
  originLeader : Byte
  originInjector : Byte
  originPlan : Byte
  updateCount : BitVec 16
  deferred : Bool
deriving DecidableEq, Repr

/-- A node after hard reset (R78). -/
def NodeStatus.initial : NodeStatus where
  state := .unknown
  candidate := none
  count := 0
  stamp := 0
  rf := 0
  split := none
  ub := 0
  last := 0
  accrued := 0
  source := .continuous
  originMask := 0
  originLeader := 0
  originInjector := 0
  originPlan := 0
  updateCount := 0
  deferred := false

/-! ### Order unit (chapter 7) -/

/-- What a measurement order measures. -/
inductive Job where
  | spot (node : NodeId) (plan : PlanId)
  | selfcheck (chan : Chan)
deriving DecidableEq, Repr

/-- A TAKEN measurement order (R124). -/
structure Order where
  slot : SlotId
  job : Job
  phase : OrderPhase
  /-- The group in which the order stands. -/
  group : GroupId
  abandons : Nat
deriving DecidableEq, Repr

/-! ### Host port and attention controller (chapters 9 and 10) -/

/-- The five news masks of the header (R163). -/
structure News where
  done : BitVec 8
  nodeState : BitVec 8
  nodeStale : BitVec 8
  chanCond : BitVec 8
  chanSafety : BitVec 8
deriving DecidableEq, Repr

/-- What the write-watch unit keeps of the present write transaction (R161). -/
structure Watch where
  nodes : BitVec 8
  links : BitVec 16
  wiring : BitVec 4
  plans : Vector (Option Byte) 16
  slots : Vector (Option Byte) 8
  views : Vector (Option Byte) 4
  news : News
deriving DecidableEq, Repr

/-- Nothing watched was written. DESIGN CHOICE, log entry 8. -/
def Watch.empty : Watch where
  nodes := 0
  links := 0
  wiring := 0
  plans := Vector.replicate 16 none
  slots := Vector.replicate 8 none
  views := Vector.replicate 4 none
  news := ⟨0, 0, 0, 0, 0⟩

/-- The attention controller: three sets of levels and the two facts (R169, section 10.2). -/
structure Attn where
  pending : BitVec 8
  inService : BitVec 8
  mask : BitVec 8
  safeStopFact : Bool
  faultFact : Bool
deriving DecidableEq, Repr

/-- The exchange memory: (address, byte) pairs in one canonical form. -/
abbrev Memory := List Host.Cell

/-- The state of the part. -/
structure State where
  /-- Commands waiting, first in first out (the model's own field). -/
  pending : List Instr
  /-- For each result that a CONDITION_RESULT will take, in turn: whether the commands behind it fall between the update
  of the context record and the steps after it; an empty list says no (the model's own field, R92). -/
  cuts : List Bool
  /-- STATUS.STARTING (R168). -/
  starting : Bool
  /-- Mode in force (R99). -/
  mode : Mode
  /-- CONTROL's mode field: the last request taken (R100). -/
  request : Mode
  /-- A request for PARKED waits for in-flight orders (R102). -/
  parkedPending : Bool
  park : ParkTimer
  /-- PARKED rotation list, oldest turn first (R109). -/
  rotation : List GroupId
  uptime : BitVec 32
  uptimeLatch : Option (BitVec 32)
  /-- Exchange memory but for the header and the group table, which are views. -/
  mem : Memory
  /-- The transfer-error latch ERR (R160). -/
  err : Bool
  /-- A memory write transaction's end is not handled yet (R159). -/
  endPending : Bool
  watch : Watch
  /-- SDO of the last transaction: the status byte, then one byte per address and data byte; a read byte that CSN's rise
  cuts short is kept whole (R158; DESIGN CHOICE, log entry 8). -/
  sdo : List Byte
  /-- Milliseconds left, while a hold of node images is in force (R71). -/
  hold : Option Nat
  holdExpired : Bool
  nodePlan : Vector (Option PlanId) 8
  links : Vector LinkCopy 16
  wiring : Vector WiringCopy 4
  plans : Vector PlanCopy 16
  /-- Yield flags, bit n for node n (R17). -/
  yields : BitVec 8
  /-- The groups by leader (R6, R7). -/
  groups : Vector (Option Group) 8
  seqs : Vector Seq 4
  safety : Vector ChanSafety 4
  /-- Line states, set for asserted: DIS0, DIS1, DIS2, STOP (section 11.3). -/
  lines : BitVec 4
  cause : Cause
  causeChan : Option Chan
  failMask : BitVec 4
  nodes : Vector NodeStatus 8
  news : News
  attn : Attn
  slots : Vector SlotState 8
  intakeSeq : BitVec 16
  /-- TAKEN measurement orders in intake order (R124). -/
  intake : List Order
  /-- Triples waiting for the arithmetic unit, oldest first (R45). -/
  triples : List Triple
  computing : Option Triple
  /-- Results waiting for the condition unit, oldest first (R82). -/
  results : List Result
  /-- The result the condition unit has taken and not finished (R82, R98). -/
  taken : Option Result
deriving DecidableEq, Repr

/-- A sequencer after hard reset (R43, R85). DESIGN CHOICE, log entry 5. -/
def Seq.initial : Seq where
  coupling := .detached
  run := .none
  owner := none
  phase := .none
  copy := ⟨PlanCopy.lowest, none, 9000, 180000⟩
  polarity := .pos
  half := 0
  elapsed := 0
  accUm := 0
  accUb := 0
  accCount := 0
  accFullScale := false
  windows := []
  ready := none
  history := []
  latestUb := 0
  syncTimer := none
  stopRequest := false
  lastAverage := 0
  viewLatched := false
  ctx := .none
  record := CtxRecord.zero

/-- A channel in the safety unit after hard reset; its start-up verify runs (section 8.1, R150). -/
def ChanSafety.initial : ChanSafety where
  health := .good
  disconnected := false
  discMask := 0
  discMode := .latched
  verify := some Config.verifyTime
  reference := false

/-- The part right after hard reset, at the start of start-up (R167, R168 and the defaults of each chapter).
DESIGN CHOICE, log entries 1, 3, 8 and 24. -/
def State.reset : State where
  pending := []
  cuts := []
  starting := true
  mode := .idle
  request := .idle
  parkedPending := false
  park := .stopped
  rotation := []
  uptime := 0
  uptimeLatch := none
  mem := []
  err := false
  endPending := false
  watch := Watch.empty
  sdo := []
  hold := none
  holdExpired := false
  nodePlan := Vector.replicate 8 (some 0)
  links := Vector.replicate 16 ⟨0, 0, .open_⟩
  wiring := Vector.replicate 4 ⟨false, 0, 9000, 180000⟩
  plans := Vector.replicate 16 PlanCopy.lowest
  yields := 0
  groups := #v[some (Group.formed 0x01), some (Group.formed 0x02), some (Group.formed 0x04),
    some (Group.formed 0x08), some (Group.formed 0x10), some (Group.formed 0x20), some (Group.formed 0x40),
    some (Group.formed 0x80)]
  seqs := Vector.replicate 4 Seq.initial
  safety := Vector.replicate 4 ChanSafety.initial
  lines := 0
  cause := .none
  causeChan := none
  failMask := 0
  nodes := Vector.replicate 8 NodeStatus.initial
  news := ⟨0, 0, 0, 0, 0⟩
  attn := ⟨0, 0, 0, false, false⟩
  slots := Vector.replicate 8 .free
  intakeSeq := 0
  intake := []
  triples := []
  computing := none
  results := []
  taken := none

end Sys2Proof.Machine
end

