-- ==== Sys2Proof/Machine/Ops.lean ====
section
/-! DEFINITION. Named operations: bytes and bits, the exchange memory, and single-entry updates of the state's
tables.  Every other file of the machine changes memory and tables through these. -/

namespace Sys2Proof.Machine

/-! ### Bits and bytes -/

/-- The set with the one member `n` (news masks, node masks, level sets: bit n for member n). -/
def bit8 (n : Nat) : BitVec 8 := 1#8 <<< n

/-- Membership of `n` in a set of bits. -/
def has8 (v : BitVec 8) (n : Nat) : Bool := v.getLsbD n

/-- A two-byte field, least significant byte first (R177). -/
def le16 (v : BitVec 16) : List Byte := [v.extractLsb' 0 8, v.extractLsb' 8 8]

/-- A four-byte field, least significant byte first (R177). -/
def le32 (v : BitVec 32) : List Byte :=
  [v.extractLsb' 0 8, v.extractLsb' 8 8, v.extractLsb' 16 8, v.extractLsb' 24 8]

/-- An unsigned two-byte field. -/
def leNat (n : Nat) : List Byte := le16 (BitVec.ofNat 16 n)

/-- A signed two-byte field, two's complement (R177). -/
def leInt (i : Int) : List Byte := le16 (BitVec.ofInt 16 i)

/-- A signed four-byte field, two's complement (R177). -/
def leInt32 (i : Int) : List Byte := le32 (BitVec.ofInt 32 i)

/-- A byte that holds a small number. -/
def byteOf (n : Nat) : Byte := BitVec.ofNat 8 n

/-- A flag byte: 1 set, 0 clear. -/
def flagByte (b : Bool) : Byte := if b then 1 else 0

/-- A node, channel, leader or plan field, 0xFF for none (R177). -/
def optByte {n : Nat} : Option (Fin n) → Byte
  | some i => byteOf i.val
  | none => 0xFF

/-- A byte read as an index below `n`; none outside. -/
def indexOf (n : Nat) (b : Byte) : Option (Fin n) :=
  if h : b.toNat < n then some ⟨b.toNat, h⟩ else none

/-- The number whose bit i is the i-th entry. -/
def bitsOf : List Bool → Nat
  | [] => 0
  | b :: rest => (if b then 1 else 0) + 2 * bitsOf rest

/-! ### Memory -/

/-- The byte at an address; an unlisted address reads 0x00, since hard reset zeroes the memory (R156, R167). -/
def Memory.read : Memory → Nat → Byte
  | [], _ => 0
  | (k, v) :: rest, a => if k = a then v else Memory.read rest a

/-- Puts an entry before the first greater address. -/
def Memory.insert : Memory → Nat → Byte → Memory
  | [], a, v => [(a, v)]
  | (k, w) :: rest, a, v => if a < k then (a, v) :: (k, w) :: rest else (k, w) :: Memory.insert rest a v

/-- Writes one byte and keeps the canonical form: a byte 0x00 is not listed. -/
def Memory.write (m : Memory) (a : Nat) (v : Byte) : Memory :=
  let cleared := m.filter (fun c => c.1 ≠ a)
  if v = 0 then cleared else Memory.insert cleared a v

/-- Writes consecutive bytes from an address upwards. -/
def Memory.writeBytes : Memory → Nat → List Byte → Memory
  | m, _, [] => m
  | m, a, b :: rest => Memory.writeBytes (m.write a b) (a + 1) rest

/-- Addresses strictly rise, and no entry holds what an unlisted address reads as. -/
def Memory.wf : Memory → Bool
  | [] => true
  | [c] => c.2 != 0
  | c :: d :: rest => c.2 != 0 && decide (c.1 < d.1) && Memory.wf (d :: rest)

/-- A two-byte unsigned field (R177). -/
def Memory.read16 (m : Memory) (a : Nat) : Nat := (m.read a).toNat + 256 * (m.read (a + 1)).toNat

/-- A four-byte unsigned field (R177). -/
def Memory.read32 (m : Memory) (a : Nat) : Nat := m.read16 a + 65536 * m.read16 (a + 2)

/-- A two-byte signed field (R177). -/
def Memory.readInt16 (m : Memory) (a : Nat) : Int := (BitVec.ofNat 16 (m.read16 a)).toInt

/-- A four-byte signed field (R177). -/
def Memory.readInt32 (m : Memory) (a : Nat) : Int := (BitVec.ofNat 32 (m.read32 a)).toInt

/-! ### Tables -/

/-- Replaces one entry of a table. -/
def upd {α : Type} {n : Nat} (v : Vector α n) (i : Fin n) (x : α) : Vector α n := v.set i x

/-- Writes bytes of the exchange memory from an address upwards. -/
def State.pokes (s : State) (a : Nat) (bs : List Byte) : State := { s with mem := s.mem.writeBytes a bs }

/-- Writes one byte of the exchange memory. -/
def State.poke (s : State) (a : Nat) (b : Byte) : State := { s with mem := s.mem.write a b }

/-- Replaces one channel sequencer. -/
def State.setSeq (s : State) (c : Chan) (q : Seq) : State := { s with seqs := upd s.seqs c q }

/-- Replaces what the safety unit keeps of one channel. -/
def State.setSafety (s : State) (c : Chan) (x : ChanSafety) : State := { s with safety := upd s.safety c x }

/-- Replaces one node's figures. -/
def State.setNode (s : State) (n : NodeId) (x : NodeStatus) : State := { s with nodes := upd s.nodes n x }

/-- Replaces the group entry of one leader. -/
def State.setGroup (s : State) (l : GroupId) (g : Option Group) : State := { s with groups := upd s.groups l g }

/-- Changes the group of one leader, if there is one. -/
def State.modGroup (s : State) (l : GroupId) (f : Group → Group) : State :=
  match s.groups[l] with
  | some g => s.setGroup l (some (f g))
  | none => s

/-- Replaces the internal state of one slot (R117). -/
def State.setSlot (s : State) (n : SlotId) (x : SlotState) : State := { s with slots := upd s.slots n x }

/-- Applies a change for every entry of a list, in the list's order. -/
def forEach {α : Type} (l : List α) (f : α → State → State) (s : State) : State :=
  l.foldl (fun t a => f a t) s

end Sys2Proof.Machine
end

