-- ==== Sys2Proof/Machine/Operands.lean ====
section
/-! DEFINITION. Operand forms: where each record of the exchange memory lies (R156, chapter 11), the codes of
the enumerated fields, and the reading of every host-written record into the form its owner uses. -/

namespace Sys2Proof.Machine

/-! ### Addresses (R156, chapter 11) -/

/-- First address of the global settings. -/
def globalBase : Nat := 0x040
/-- Node-settings entry n. -/
def nodeSettingAddr (n : NodeId) : Nat := 0x060 + 4 * n.val
/-- Link entry n. -/
def linkAddr (n : LinkId) : Nat := 0x080 + 4 * n.val
/-- Wiring record of a channel. -/
def wiringAddr (c : Chan) : Nat := 0x0C0 + 16 * c.val
/-- Plan record. -/
def planAddr (p : PlanId) : Nat := 0x100 + 64 * p.val
/-- Order slot. -/
def slotAddr (n : SlotId) : Nat := 0x500 + 64 * n.val
/-- Node record. -/
def recordAddr (n : NodeId) : Nat := 0x700 + 32 * n.val
/-- Group entry. -/
def groupAddr (l : GroupId) : Nat := 0x800 + 16 * l.val
/-- Live view. -/
def viewAddr (c : Chan) : Nat := 0x880 + 32 * c.val
/-- Context frame. -/
def frameAddr (c : Chan) : Nat := 0x900 + 64 * c.val

/-! ### Codes (section 11.2) -/

def Mode.code : Mode → Nat
  | .idle => 0 | .run => 1 | .parked => 2 | .safeStop => 3

def Cause.code : Cause → Nat
  | .none => 0 | .detachFailed => 1 | .stopLine => 2 | .startupFailed => 3

def Health.code : Health → Nat
  | .good => 0 | .suspect => 1 | .offline => 2

def Polarity.code : Polarity → Nat
  | .pos => 0 | .neg => 1

def SlotState.code : SlotState → Nat
  | .free => 0 | .taken => 2 | .done => 3 | .refused => 4

/-- The code of OFFERED, a value only the host writes (R117). -/
def offeredCode : Byte := 1

def OrderPhase.code : OrderPhase → Nat
  | .waiting => 1 | .running => 2 | .finishing => 3

/-- Progress ENDED (section 11.2). -/
def endedCode : Byte := 4

def OrderKind.code : OrderKind → Nat
  | .spot => 1 | .selfcheck => 2 | .snapshot => 3 | .restore => 4 | .release => 5 | .ack => 6
  | .yieldNode => 7 | .resumeNode => 8 | .clearDisconnect => 9

/-- The kind a kind byte names, if any (R121). -/
def OrderKind.ofByte (b : Byte) : Option OrderKind :=
  match b.toNat with
  | 1 => some .spot | 2 => some .selfcheck | 3 => some .snapshot | 4 => some .restore | 5 => some .release
  | 6 => some .ack | 7 => some .yieldNode | 8 => some .resumeNode | 9 => some .clearDisconnect
  | _ => none

def Reason.code : Reason → Nat
  | .badKind => 1 | .badNode => 2 | .badChannel => 3 | .badPlan => 4 | .noChannel => 5 | .passive => 6
  | .held => 7 | .offline => 8 | .disconnected => 9 | .lineActive => 10 | .stale => 11 | .format => 12
  | .topology => 13 | .reset => 14 | .safeStop => 15

def NodeState.code : NodeState → Nat
  | .unknown => 0 | .ok => 1 | .warn => 2 | .fault => 3 | .stale => 4

def Band.code : Band → Nat
  | .ok => 1 | .warn => 2 | .fault => 3

/-- The code of a result source in a node record. A SELFCHECK result reaches no record (R60), so its code is
never written. -/
def Source.code : Source → Nat
  | .continuous => 0 | .spot => 1 | .parked => 2 | .selfcheck => 0

def GroupState.code : GroupState → Nat
  | .passive => 1 | .held => 2 | .noChannel => 3 | .noPlan => 4 | .settling => 5 | .quiet => 6
  | .waitingTurn => 7 | .measuring => 8

def Coupling.code : Coupling → Nat
  | .detached => 0 | .attached => 1

def RunKind.code : RunKind → Nat
  | .none => 0 | .series => 1 | .triple => 2 | .selfcheck => 3

def Phase.code : Phase → Nat
  | .none => 0 | .waitAttach => 1 | .blanking => 2 | .settleTest => 3 | .waitSync => 4

def CtxKind.code : CtxKind → Nat
  | .none => 0 | .idle => 1 | .held => 2

/-- The context kind a frame's kind byte names, if any (R94). -/
def CtxKind.ofByte (b : Byte) : Option CtxKind :=
  match b.toNat with
  | 0 => some .none | 1 => some .idle | 2 => some .held | _ => Option.none

/-- Bit position of a condition (R178). -/
def Cond.bit : Cond → Nat
  | .saturated => 0 | .unsettled => 1 | .drift => 2 | .reversed => 3 | .belowZero => 4 | .aboveRange => 5
  | .syncMissed => 6

/-! ### Host-written records -/

/-- A value clamped to a range, and whether it lay outside (chapter 00 section 5.3, R5). -/
def clampTo (lo hi v : Nat) : Nat × Bool :=
  if v < lo then (lo, true) else if hi < v then (hi, true) else (v, false)

/-- A node-settings entry: any plan id above 15 is no plan (R1). -/
def readNodePlan (m : Memory) (n : NodeId) : Option PlanId := indexOf 16 (m.read (nodeSettingAddr n))

/-- A link state byte: any value but 0 and 1 is UNKNOWN (R2). -/
def LinkState.ofByte (b : Byte) : LinkState :=
  if b = 0 then .open_ else if b = 1 then .closed else .unknown

/-- A link entry (R2). -/
def readLink (m : Memory) (n : LinkId) : LinkCopy :=
  ⟨m.read (linkAddr n), m.read (linkAddr n + 1), LinkState.ofByte (m.read (linkAddr n + 2))⟩

/-- A wiring record with its calibration clamped (R4). -/
def readWiring (m : Memory) (c : Chan) : WiringCopy :=
  { enabled := m.read (wiringAddr c) == 1
    node := m.read (wiringAddr c + 1)
    rm := (clampTo 9000 11000 (m.read16 (wiringAddr c + 2))).1
    rs := (clampTo 180000 220000 (m.read32 (wiringAddr c + 4))).1 }

/-- The disconnect enable mask of a wiring record: its three low bits (R139). -/
def readDiscMask (m : Memory) (c : Chan) : BitVec 3 := (m.read (wiringAddr c + 8)).setWidth 3

/-- The disconnect mode of a wiring record: anything but FOLLOW is LATCHED (R139). -/
def readDiscMode (m : Memory) (c : Chan) : DiscMode :=
  if m.read (wiringAddr c + 9) = 1 then .follow else .latched

/-- An enumerated byte with codes 0 and 1; any other takes the first and is marked (R5). -/
def readTwo {α : Type} (zero one : α) (b : Byte) : α × Bool :=
  if b = 0 then (zero, false) else if b = 1 then (one, false) else (zero, true)

/-- A condition action byte; an undefined encoding takes REPORT and is marked (R5). -/
def readAction (b : Byte) : Action × Bool :=
  if b = 0 then (.ignore, false) else if b = 1 then (.report, false) else if b = 2 then (.hold, false)
  else (.report, true)

/-- The seven action bytes of a plan, in priority order (R178, section 11.5). -/
def readActions (m : Memory) (p : PlanId) : Vector (Action × Bool) 7 :=
  Vector.ofFn fun i => readAction (m.read (planAddr p + 0x20 + i.val))

/-- The working copy and the check field of a publication (R5, R180). -/
def readPlan (m : Memory) (p : PlanId) : PlanCopy × BitVec 32 :=
  let a := planAddr p
  let up := clampTo 10 50 (m.read (a + 0x01)).toNat
  let pol := readTwo Polarity.pos Polarity.neg (m.read (a + 0x02))
  let k := clampTo 2 6 (m.read (a + 0x03)).toNat
  let blank := clampTo 0 2000 (m.read16 (a + 0x04))
  let halfMin := clampTo 100 20000 (m.read16 (a + 0x06))
  let halfMax := clampTo halfMin.1 60000 (m.read16 (a + 0x08))
  let tol := clampTo 1 500 (m.read16 (a + 0x0A))
  let count := clampTo 1 8 (m.read (a + 0x0C)).toNat
  let daMin := clampTo 1 100 (m.read (a + 0x0D)).toNat
  let drift := clampTo 1 5000 (m.read16 (a + 0x0E))
  let sync := readTwo SyncMode.free SyncMode.triggered (m.read (a + 0x10))
  let policy := readTwo Policy.lowest Policy.rotate (m.read (a + 0x11))
  let timeout := clampTo 10 5000 (m.read16 (a + 0x12))
  let warn := clampTo 1 65000 (m.read16 (a + 0x14))
  let fault := clampTo 1 warn.1 (m.read16 (a + 0x16))
  let hyst := clampTo 0 50 (m.read (a + 0x18)).toNat
  let confirm := clampTo 1 8 (m.read (a + 0x19)).toNat
  let age := clampTo 1 600 (m.read16 (a + 0x1A))
  let settle := clampTo 0 5000 (m.read16 (a + 0x1C))
  let rotate := clampTo 1 255 (m.read (a + 0x1E)).toNat
  let acts := readActions m p
  let check := bitsOf [up.2, pol.2, blank.2, halfMin.2, halfMax.2, k.2, tol.2, count.2, drift.2, daMin.2, sync.2,
    timeout.2, warn.2, fault.2, hyst.2, confirm.2, age.2, settle.2, policy.2, rotate.2, acts[0].2, acts[1].2,
    acts[2].2, acts[3].2, acts[4].2, acts[5].2, acts[6].2]
  ({ ready := true, up := up.1, startPol := pol.1, k := k.1, blank := blank.1, halfMin := halfMin.1
     halfMax := halfMax.1, tolerance := tol.1, settleCount := count.1, daMin := daMin.1, drift := drift.1
     sync := sync.1, policy := policy.1, syncTimeout := timeout.1, warnK := warn.1, faultK := fault.1
     hysteresis := hyst.1, confirm := confirm.1, maxAge := age.1, settle := settle.1, rotate := rotate.1
     actions := Vector.ofFn fun i => acts[i].1 }, BitVec.ofNat 32 check)

/-- The park interval in seconds, clamped when read (R113). -/
def parkInterval (m : Memory) : Nat := (clampTo 10 3600 (m.read16 globalBase)).1

/-- The parked maximum age in seconds, clamped when read (R113). -/
def parkedMaxAge (m : Memory) : Nat := (clampTo 60 7200 (m.read16 (globalBase + 2))).1

/-- A parameter byte of a slot (section 11.6). -/
def slotParam (m : Memory) (n : SlotId) (offset : Nat) : Byte := m.read (slotAddr n + offset)

end Sys2Proof.Machine
end

