-- ==== Sys2Proof/Machine/Flags.lean ====
section
/-! DEFINITION. Flag computations: condition sets (R80, R178), the attention controller (chapter 10), ALERT
(R154), STATUS and CONTROL (R165), the status byte (R159) and the news masks (R163). -/

namespace Sys2Proof.Machine

/-! ### Condition sets -/

/-- Membership of a condition in a set (R178). -/
def CondSet.has (v : CondSet) (c : Cond) : Bool := has8 v c.bit

/-- The set with a condition added (R46). -/
def CondSet.add (v : CondSet) (c : Cond) : CondSet := v ||| bit8 c.bit

/-- The seven conditions in priority order (R80). -/
def allConds : List Cond := [.saturated, .unsettled, .drift, .reversed, .belowZero, .aboveRange, .syncMissed]

/-- The priority number of the highest condition, 1 for SATURATED to 7 for SYNC_MISSED, 0 for none (R80, R178). -/
def highestOf (v : CondSet) : Nat :=
  match allConds.find? (fun c => v.has c) with
  | some c => c.bit + 1
  | none => 0

/-- The action class of a set under seven actions: the strongest action any member asks for (R81). -/
def actionClass (v : CondSet) (acts : Vector Action 7) : Action :=
  let asks (a : Action) : Bool :=
    [(0 : Fin 7), 1, 2, 3, 4, 5, 6].any fun i => has8 v i.val && decide (acts[i] = a)
  if asks .hold then .hold else if asks .report then .report else .ignore

/-! ### Attention controller -/

/-- The level of highest priority in a set (R169: the smallest number). -/
def topLevel (v : BitVec 8) : Option Level := allNodes.find? fun n => has8 v n.val

/-- ATTN: an unmasked pending level of higher priority than every level in service (R171). -/
def attnAsserted (a : Attn) : Bool :=
  match topLevel (a.pending &&& ~~~a.mask), topLevel a.inService with
  | none, _ => false
  | some _, none => true
  | some p, some q => decide (p < q)

/-- A latched level joins the pending set (R170). -/
def Attn.raise (a : Attn) (n : Nat) : Attn := { a with pending := a.pending ||| bit8 n }

/-- A level of type level follows a change of its fact, unless it is in service (R170). -/
def Attn.follow (a : Attn) (n : Nat) (fact : Bool) : Attn :=
  if has8 a.inService n then a
  else if fact then a.raise n else { a with pending := a.pending &&& ~~~bit8 n }

/-- The FAULT fact as the node status unit hands it: level 1 (R68, R169). -/
def Attn.setFault (a : Attn) (fact : Bool) : Attn :=
  if a.faultFact = fact then a else { a with faultFact := fact }.follow 1 fact

/-- The SAFE_STOP fact as the safety unit hands it: level 0 (R152, R176). -/
def Attn.setSafeStop (a : Attn) (fact : Bool) : Attn :=
  if a.safeStopFact = fact then a else { a with safeStopFact := fact }.follow 0 fact

/-- A POLL read: the level returned, 0x0F for none, and the sets after it (R172). -/
def Attn.poll (a : Attn) : Byte × Attn :=
  match topLevel (a.pending &&& ~~~a.mask) with
  | some n => (byteOf n.val, { a with pending := a.pending &&& ~~~bit8 n.val, inService := a.inService ||| bit8 n.val })
  | none => (0x0F, a)

/-- The fact behind a level of type level; a latched level has none (R169). -/
def Attn.fact (a : Attn) (n : Level) : Bool :=
  if n = 0 then a.safeStopFact else if n = 1 then a.faultFact else false

/-- An END of one level: it leaves service, and a level of type level pends again by its fact (R173). -/
def Attn.endLevel (a : Attn) (n : Level) : Attn :=
  if has8 a.inService n.val then
    let b := { a with inService := a.inService &&& ~~~bit8 n.val }
    if a.fact n then b.raise n.val else b
  else a

/-- A POLL write: specific END, non-specific END, or no effect (R165, R173). -/
def Attn.pollWrite (a : Attn) (v : Byte) : Attn :=
  match indexOf 8 v with
  | some n => a.endLevel n
  | none =>
    if v = 8 then
      match topLevel a.inService with
      | some n => a.endLevel n
      | none => a
    else a

/-- Raises one attention level (R169). -/
def State.raise (s : State) (n : Nat) : State := { s with attn := s.attn.raise n }

/-- Some node is in FAULT, by the internal states (R68). -/
def anyFault (nodes : Vector NodeStatus 8) : Bool := allNodes.any fun n => decide (nodes[n].state = .fault)

/-- Hands the FAULT fact to the attention controller (R68). -/
def State.updateFault (s : State) : State := { s with attn := s.attn.setFault (anyFault s.nodes) }

/-- The ALERT output (R154). -/
def alertAsserted (s : State) : Bool := decide (s.mode = .safeStop) || anyFault s.nodes

/-! ### Status and control -/

/-- STATUS (R165). -/
def statusRegister (s : State) : Byte :=
  byteOf (s.mode.code + (if s.starting then 4 else 0) + (if s.hold.isSome then 8 else 0)
    + (if s.holdExpired then 16 else 0) + (if s.mode = .safeStop then 32 else 0))

/-- CONTROL as it reads (R165, R166). -/
def controlRegister (s : State) : Byte := byteOf (s.request.code + if s.hold.isSome then 4 else 0)

/-- The status byte a transaction shifts out first (R159). -/
def statusByte (s : State) : Byte :=
  byteOf ((if !s.starting && !s.endPending then 1 else 0) + (if s.err then 2 else 0)
    + (if alertAsserted s then 4 else 0) + (if attnAsserted s.attn then 8 else 0))

/-- The line states as the header shows them (section 11.3). -/
def lineByte (s : State) : Byte := s.lines.setWidth 8

/-- A channel status byte of the header (section 11.3). -/
def chanStatusByte (x : ChanSafety) : Byte := byteOf (x.health.code + if x.disconnected then 4 else 0)

/-! ### News masks -/

/-- Sets a bit of the done news mask (R123). -/
def State.newsDone (s : State) (n : Nat) : State := { s with news := { s.news with done := s.news.done ||| bit8 n } }

/-- Sets a bit of the node-state news mask (R68). -/
def State.newsNodeState (s : State) (n : Nat) : State :=
  { s with news := { s.news with nodeState := s.news.nodeState ||| bit8 n } }

/-- Sets a bit of the node-stale news mask (R70). -/
def State.newsNodeStale (s : State) (n : Nat) : State :=
  { s with news := { s.news with nodeStale := s.news.nodeStale ||| bit8 n } }

/-- Sets a bit of the channel-condition news mask (R83). -/
def State.newsChanCond (s : State) (n : Nat) : State :=
  { s with news := { s.news with chanCond := s.news.chanCond ||| bit8 n } }

/-- Sets a bit of the channel-safety news mask (R140, R142, R146). -/
def State.newsChanSafety (s : State) (n : Nat) : State :=
  { s with news := { s.news with chanSafety := s.news.chanSafety ||| bit8 n } }

end Sys2Proof.Machine
end

