-- ==== Sys2Proof/Machine/Arithmetic.lean ====
section
/-! DEFINITION. The arithmetic unit's eight stages (chapter 3): one plateau triple to one result, in exact
integers. -/

namespace Sys2Proof.Machine

/-- Stage 3, the outer value: the mean of P1 and P3 rounded half up (R48). -/
def outerValue (p1 p3 : Int) : Int := (p1 + p3 + 1) / 2

/-- Stage 3: the positive and the negative plateau value, by the polarity of P1 (R48). -/
def pairValues (pol : Polarity) (p1 p2 p3 : Int) : Int × Int :=
  match pol with
  | .pos => (outerValue p1 p3, p2)
  | .neg => (p2, outerValue p1 p3)

/-- Stage 5, the fault resistance in ohms before the clamp at 0 (R50). -/
def loopMinusSeries (up rm rs : Nat) (dA : Int) : Int := 20000 * (up : Int) * rm / dA - rs

/-- Stage 6 (R52). -/
def networkVoltage (u1 u2 u3 : Nat) : Nat := (u1 + u2 + u3 + 1) / 3

/-- A quotient rounded half up (chapter 00 section 5.3). -/
def roundHalfUp (n d : Nat) : Nat := (2 * n + d) / (2 * d)

/-- A quotient rounded half away from zero (chapter 00 section 5.3). -/
def roundHalfAway (n : Int) (d : Nat) : Int :=
  if n < 0 then -(roundHalfUp n.natAbs d : Int) else (roundHalfUp n.natAbs d : Int)

/-- Stage 7, the asymmetry in thousandths (R53). -/
def asymmetry (off2 : Int) (rfOhm rm rs ub : Nat) : Int :=
  max (-990) (min 990 (roundHalfAway (-(off2 * (rs + rfOhm))) (10 * rm * ub)))

/-- A rail resistance in kilohms, or the above-range mark (R54). -/
def railValue (rfOhm : Nat) (den : Int) : Nat :=
  let r := roundHalfUp (2 * rfOhm) den.toNat
  if Config.maxMeasured < r then Config.aboveRangeMark else r

/-- Stage 7, the rail split (R53, R54). -/
def railSplit (off2 : Int) (rfOhm rm rs ub : Nat) : RailSplit :=
  let a := asymmetry off2 rfOhm rm rs ub
  ⟨railValue rfOhm (1000 + a), railValue rfOhm (1000 - a), a⟩

/-- What stages 4 and 5 leave: the conditions they raise, Rf_k where they give one, and Rf_ohm where the rail
split may follow (R49, R50, R51). -/
structure Response where
  conds : CondSet
  rfK : Option Nat
  rfOhm : Option Nat
deriving DecidableEq, Repr

/-- Stages 4 and 5 (R49, R50, R51). -/
def respond (up daMin rm rs : Nat) (dA : Int) (conds : CondSet) : Response :=
  if dA ≤ 0 then ⟨conds.add .reversed, none, none⟩
  else if dA < daMin then ⟨conds.add .aboveRange, some Config.aboveRangeMark, none⟩
  else
    let raw := loopMinusSeries up rm rs dA
    let conds := if raw < 0 then conds.add .belowZero else conds
    let ohm := raw.toNat
    let k := (ohm + 500) / 1000
    if Config.maxMeasured < k then ⟨conds.add .aboveRange, some Config.aboveRangeMark, none⟩
    else ⟨conds, some k, some ohm⟩

/-- Stage 8: none of SATURATED, UNSETTLED, DRIFT and REVERSED (R55). -/
def validSet (v : CondSet) : Bool := !(v.has .saturated || v.has .unsettled || v.has .drift || v.has .reversed)

/-- One whole computation (R46 to R56, R58). -/
def compute (t : Triple) : Result :=
  let conds1 := t.p1.flags ||| t.p2.flags ||| t.p3.flags
  let conds2 := if (t.drift : Int) < (t.p1.value - t.p3.value).natAbs then conds1.add .drift else conds1
  let pair := pairValues t.p1.polarity t.p1.value t.p2.value t.p3.value
  let dA := pair.1 - pair.2
  let off2 := pair.1 + pair.2
  let r := respond t.up t.daMin t.rm t.rs dA conds2
  let ub := networkVoltage t.p1.ub t.p2.ub t.p3.ub
  let valid := validSet r.conds
  let split :=
    match r.rfOhm with
    | some ohm =>
      if valid && decide (Config.energisedUb ≤ ub) && decide (t.source ≠ .selfcheck) then
        some (railSplit off2 ohm t.rm t.rs ub)
      else none
    | none => none
  { source := t.source, chan := t.chan, planId := t.planId, stamp := t.stamp, pol1 := t.p1.polarity
    p1 := t.p1.value, p2 := t.p2.value, p3 := t.p3.value
    t1 := t.p1.settleTime, t2 := t.p2.settleTime, t3 := t.p3.settleTime
    dA := dA, off2 := off2, ub := ub, conds := r.conds, valid := valid
    rf := if valid then r.rfK else none, split := split, actions := t.actions, slot := t.slot }

end Sys2Proof.Machine
end

