-- ==== Sys2Proof/Machine/Sequencer.lean ====
section
/-! DEFINITION. Channel sequencers (chapter 2): run start and end, coupling, half-periods, samples and windows,
the settle test and the plateau.  What an edge means for the schedule stands in Machine/Schedule.lean. -/

namespace Sys2Proof.Machine

/-! ### Half-periods and runs -/

/-- A half-period is being driven (R24). -/
def Seq.inHalf (q : Seq) : Bool :=
  decide (q.phase = .blanking) || decide (q.phase = .settleTest) || decide (q.phase = .waitSync)

/-- The injected voltage: +Up or −Up within a half-period, else 0 V (R24). -/
def Seq.injection (q : Seq) : Int :=
  if q.inHalf then (match q.polarity with | .pos => (q.copy.plan.up : Int) | .neg => -(q.copy.plan.up : Int)) else 0

/-- The opposite polarity (R31). -/
def Polarity.flip : Polarity → Polarity
  | .pos => .neg
  | .neg => .pos

/-- The window under way is discarded (R26, R31). -/
def Seq.clearWindow (q : Seq) : Seq := { q with accUm := 0, accUb := 0, accCount := 0, accFullScale := false }

/-- A half-period begins at a polarity: BLANKING, or SETTLE_TEST where blank is 0 (R25, R31). -/
def Seq.beginHalf (q : Seq) (pol : Polarity) : Seq :=
  { q.clearWindow with
    phase := if q.copy.plan.blank = 0 then .settleTest else .blanking
    polarity := pol
    elapsed := 0
    windows := []
    ready := none
    syncTimer := none }

/-- The run is over: source at 0 V, run and phase NONE, history empty (R36, R37, R38). -/
def Seq.endRun (q : Seq) : Seq :=
  { q.clearWindow with
    run := .none
    owner := none
    phase := .none
    half := 0
    elapsed := 0
    windows := []
    ready := none
    history := []
    syncTimer := none
    stopRequest := false
    lastAverage := 0 }

/-- A run is set up in WAIT_ATTACH, with its copy and an empty history (R23); a SERIES or TRIPLE run makes a NONE
context IDLE (R85). -/
def Seq.setUp (q : Seq) (kind : RunKind) (owner : Option SlotId) (copy : RunCopy) : Seq :=
  { q.endRun with
    run := kind
    owner := owner
    phase := .waitAttach
    copy := copy
    half := if kind = .series then 0 else 1
    ctx := if kind ≠ .selfcheck ∧ q.ctx = .none then .idle else q.ctx }

/-- An abandon of a SERIES or TRIPLE run; it does not reach a SELFCHECK run (R38). -/
def State.abandonRun (s : State) (c : Chan) : State :=
  let q := s.seqs[c]
  if q.run = .series ∨ q.run = .triple then s.setSeq c q.endRun else s

/-- A detach command: on the change from ATTACHED the verify starts and a SERIES or TRIPLE run is abandoned
(R11, R38, R144).  A DETACHED channel is given no command. -/
def State.detach (s : State) (c : Chan) : State :=
  if s.seqs[c].coupling = .attached then
    let s1 := s.abandonRun c
    let s2 := s1.setSeq c { s1.seqs[c] with coupling := .detached }
    s2.setSafety c { s2.safety[c] with verify := some Config.verifyTime }
  else s

/-- The run of a channel is abandoned and the channel is commanded detached (R14, R15). -/
def State.stopChannel (s : State) (c : Chan) : State := (s.abandonRun c).detach c

/-- The reference switch opens (R148, R149). -/
def State.openReference (s : State) (c : Chan) : State := s.setSafety c { s.safety[c] with reference := false }

/-- A run of any kind ends at once; a SELFCHECK run's reference opens (R23, R43, R149). -/
def State.dropRun (s : State) (c : Chan) : State := (s.setSeq c s.seqs[c].endRun).openReference c

/-! ### Wiring and injectors -/

/-- The node a wiring copy names, if the channel is wired (R4). -/
def WiringCopy.wiredNode (w : WiringCopy) : Option NodeId := if w.enabled then indexOf 8 w.node else none

/-- A channel is wired to a member of a set of nodes (R4). -/
def wiredInto (s : State) (c : Chan) (members : BitVec 8) : Bool :=
  match s.wiring[c].wiredNode with
  | some n => has8 members n.val
  | none => false

/-- The group whose injector a channel is, if any (R10). -/
def groupOfInjector (s : State) (c : Chan) : Option GroupId :=
  allNodes.find? fun l =>
    match s.groups[l] with
    | some g => decide (g.injector = some c)
    | none => false

/-- Nothing holds back the channel's attach: its own verify and that of every channel wired to a member of its
group have ended (R11, R144); in SAFE_STOP no channel is commanded attached (R153). -/
def mayAttach (s : State) (c : Chan) : Bool :=
  match groupOfInjector s c with
  | none => false
  | some l =>
    match s.groups[l] with
    | none => false
    | some g =>
      decide (s.mode ≠ .safeStop) && s.safety[c].verify.isNone
        && allChans.all fun d => !(wiredInto s d g.members && s.safety[d].verify.isSome)

/-- The attach of a SERIES or TRIPLE run in WAIT_ATTACH, where nothing holds it back; the first half-period then
begins at the start polarity (R11, R23). -/
def State.tryAttach (s : State) (c : Chan) : State :=
  let q := s.seqs[c]
  if (q.run = .series ∨ q.run = .triple) ∧ q.phase = .waitAttach ∧ mayAttach s c = true then
    s.setSeq c { q.beginHalf q.copy.plan.startPol with coupling := .attached }
  else s

/-- The reference connects to a waiting SELFCHECK run once its channel is DETACHED with no verify running, and
the first half-period begins at POS (R147). -/
def State.tryReference (s : State) (c : Chan) : State :=
  let q := s.seqs[c]
  if q.run = .selfcheck ∧ q.phase = .waitAttach ∧ q.coupling = .detached ∧ s.safety[c].verify = none then
    (s.setSeq c (q.beginHalf .pos)).setSafety c { s.safety[c] with reference := true }
  else s

/-- A SERIES or TRIPLE run starts on a channel: a run in flight is abandoned first; on an ATTACHED channel the
first half-period begins at once, else at the attach (R23). -/
def State.startRun (s : State) (c : Chan) (kind : RunKind) (owner : Option SlotId) (copy : RunCopy) : State :=
  let s1 := if s.seqs[c].run = .none then s else s.dropRun c
  let q := s1.seqs[c].setUp kind owner copy
  if q.coupling = .attached then s1.setSeq c (q.beginHalf copy.plan.startPol)
  else (s1.setSeq c q).tryAttach c

/-- The fixed figures of a SELFCHECK run (R40, R58).  With settle count 11 a plateau looks at all twelve windows
for SATURATED. DEDUCED, log entry 19. -/
def selfcheckPlan : PlanCopy :=
  { PlanCopy.lowest with
    ready := true
    up := 24
    k := 4
    blank := 0
    halfMin := Config.selfcheckHalf
    halfMax := Config.selfcheckHalf
    settleCount := 11
    daMin := 100
    drift := 100 }

/-! ### Samples and windows -/

/-- A Ub reading as taken: 0 to 1200 V (R25). -/
def clampUb (ub : Int) : Nat := (min ub 1200).toNat

/-- The converter reached full scale (R25). -/
def fullScaleCode (um : BitVec 16) : Bool := um == 0x7FFF || um == 0x8000

/-- One sample: Ub is always taken; within a half-period the elapsed time rises, and after blanking Um and Ub
enter the window accumulator (R25, R26). -/
def Seq.takeSample (q : Seq) (um : BitVec 16) (ub : Int) : Seq :=
  let u := clampUb ub
  if q.inHalf then
    let e := q.elapsed + 1
    if e ≤ q.copy.plan.blank then
      { q with latestUb := u, elapsed := e
               phase := if e = q.copy.plan.blank then .settleTest else q.phase }
    else
      { q with latestUb := u, elapsed := e, accUm := q.accUm + um.toInt, accUb := q.accUb + u
               accCount := q.accCount + 1, accFullScale := q.accFullScale || fullScaleCode um }
  else { q with latestUb := u }

/-- The window under way holds its 2^k samples (R26). -/
def Seq.windowFull (q : Seq) : Bool := q.inHalf && decide (2 ^ q.copy.plan.k ≤ q.accCount)

/-- A Um window average (R26). -/
def windowAverage (sum : Int) (k : Nat) : Int := (sum + 2 ^ (k - 1)) / 2 ^ k

/-- The last S differences lie within the tolerance; windows newest first (R27). -/
def settledBy (tolerance : Nat) : Nat → List Window → Bool
  | 0, _ => true
  | n + 1, a :: b :: rest => decide ((a.um - b.um).natAbs ≤ tolerance) && settledBy tolerance n (b :: rest)
  | _ + 1, _ => false

/-- A window ends: its averages and full-scale mark are formed and appended (R26). -/
def Seq.closeWindow (q : Seq) : Seq :=
  let k := q.copy.plan.k
  let w : Window := ⟨windowAverage q.accUm k, (windowAverage q.accUb k).toNat, q.accFullScale⟩
  { q.clearWindow with windows := w :: q.windows, lastAverage := w.um }

/-- The three tests of the ready point, at a window end (R27); a SELFCHECK run has none (R40). -/
def Seq.readyNow (q : Seq) : Bool :=
  decide (q.run ≠ .selfcheck) && q.ready.isNone && decide (q.copy.plan.halfMin ≤ q.elapsed)
    && settledBy q.copy.plan.tolerance q.copy.plan.settleCount q.windows

/-! ### The plateau -/

/-- The plateau record of the ending half-period (R32, R33, R40). -/
def Seq.plateau (q : Seq) (flag : Option Cond) (settleTime : Nat) : Plateau :=
  let flags0 : CondSet := match flag with | some c => CondSet.add 0 c | none => 0
  let flags := if (q.windows.take (q.copy.plan.settleCount + 1)).any (·.fullScale) then flags0.add .saturated else flags0
  match q.windows with
  | w :: _ => ⟨q.polarity, w.um, w.ub, settleTime, flags⟩
  | [] => ⟨q.polarity, 0, 0, settleTime, flags⟩

/-- The history with a plateau appended, at most three, oldest first (R34). -/
def appendPlateau (h : List Plateau) (p : Plateau) : List Plateau := (h ++ [p]).drop ((h.length + 1) - 3)

/-- The source of a triple (R44). -/
def Seq.source (q : Seq) : Source :=
  match q.run, q.owner with
  | .selfcheck, _ => .selfcheck
  | .triple, some _ => .spot
  | .triple, none => .parked
  | _, _ => .continuous

/-- The group stamp of a triple, as the group table shows the group at the hand-off (R44). DEDUCED, log entry 16. -/
def stampOf (s : State) (c : Chan) : Option Stamp :=
  match groupOfInjector s c with
  | none => none
  | some l => (s.groups[l]).map fun g => ⟨g.members, l, c⟩

/-- The triple handed to the arithmetic unit, where the history holds three plateaus (R34, R44). -/
def tripleOf (s : State) (c : Chan) (q : Seq) (history : List Plateau) : Option Triple :=
  match history with
  | [p1, p2, p3] =>
    some { p1 := p1, p2 := p2, p3 := p3, up := q.copy.plan.up, daMin := q.copy.plan.daMin
           drift := q.copy.plan.drift, rm := q.copy.rm, rs := q.copy.rs, planId := q.copy.planId
           actions := q.copy.plan.actions, chan := c, source := q.source
           stamp := if q.run = .selfcheck then none else stampOf s c, slot := q.owner }
  | _ => none

/-- The triple's slot in the arithmetic unit's input queue, if one is due at this edge (R34, R45). -/
def State.handTriple (s : State) (t : Option Triple) : State :=
  match t with
  | some t => { s with triples := s.triples ++ [t] }
  | none => s

end Sys2Proof.Machine
end

