-- ==== Sys2Proof/Machine/Nodes.lean ====
section
/-! DEFINITION. The node status unit (chapter 4): record images, thresholds and confirmation, staleness, the hold
of node images and acknowledgement. -/

namespace Sys2Proof.Machine

/-! ### Record images -/

/-- The bytes 0x00 to 0x1B of a node record as one image leaves them: marker clear, the count given, every
image field (R63, R179, section 11.7). -/
def imageBytes (x : NodeStatus) (count : BitVec 16) : List Byte :=
  let split := x.split.getD ⟨0, 0, 0⟩
  [0, byteOf x.state.code] ++ le16 count
    ++ [byteOf x.source.code, byteOf ((x.candidate.map Band.code).getD 0), byteOf x.count, flagByte x.split.isSome]
    ++ leNat x.rf ++ leNat split.rp ++ leNat split.rn ++ leInt split.apm ++ leNat x.ub ++ [x.last, x.accrued]
    ++ le32 x.stamp ++ [x.originMask, x.originLeader, x.originInjector, x.originPlan]

/-- Writes one image of a node, the update count raised by one (R63). DESIGN CHOICE, log entry 10. -/
def State.writeImage (s : State) (n : NodeId) : State :=
  let x := s.nodes[n]
  let y := { x with updateCount := x.updateCount + 1, deferred := false }
  (s.setNode n y).pokes (recordAddr n) (imageBytes y y.updateCount)

/-- An event of R64: an image, or under a hold a deferred image (R72). -/
def State.imageEvent (s : State) (n : NodeId) : State :=
  if s.hold.isSome then s.setNode n { s.nodes[n] with deferred := true } else s.writeImage n

/-- The end of a hold: each deferred image is written once, in ascending node number (R73). -/
def State.endHold (s : State) : State :=
  forEach allNodes (fun n t => if t.nodes[n].deferred then t.writeImage n else t) { s with hold := none }

/-! ### Thresholds and confirmation -/

/-- The node state a band names. -/
def Band.state : Band → NodeState
  | .ok => .ok
  | .warn => .warn
  | .fault => .fault

/-- The fault limit, by the node's present state (R66). -/
def faultLimit (p : PlanCopy) (st : NodeState) : Nat :=
  if st = .fault then p.faultK * (100 + p.hysteresis) / 100 else p.faultK

/-- The warn limit, by the node's present state (R66). -/
def warnLimit (p : PlanCopy) (st : NodeState) : Nat :=
  if st = .fault ∨ st = .warn then p.warnK * (100 + p.hysteresis) / 100 else p.warnK

/-- The target band of a reading (R66). -/
def targetBand (p : PlanCopy) (st : NodeState) (rf : Nat) : Band :=
  if rf < faultLimit p st then .fault else if rf < warnLimit p st then .warn else .ok

/-- State, candidate and count after a target band (R67). -/
def moveToward (confirm : Nat) (target : Band) (st : NodeState) (candidate : Option Band) (count : Nat) :
    NodeState × Option Band × Nat :=
  if st = .unknown ∨ st = .stale then (target.state, none, 0)
  else if target.state = st then (st, none, 0)
  else
    let n := if candidate = some target then count + 1 else 1
    if confirm ≤ n then (target.state, none, 0) else (st, some target, n)

/-- The threshold evaluation of a node on a valid result (R62, R65, R66, R67). -/
def evaluateNode (plan : Option PlanCopy) (x : NodeStatus) (rf : Nat) : NodeStatus :=
  match plan with
  | none =>
    if x.state = .unknown then x else { x with state := .unknown, candidate := none, count := 0 }
  | some p =>
    let r := moveToward p.confirm (targetBand p x.state rf) x.state x.candidate x.count
    { x with state := r.1, candidate := r.2.1, count := r.2.2 }

/-- The plan working copy that judges a node, READY or withdrawn (R1, R65). -/
def nodePlanCopy (s : State) (n : NodeId) : Option PlanCopy := s.nodePlan[n].map fun p => s.plans[p]

/-- A node's figures after a result of its group (R61). -/
def applyTo (plan : Option PlanCopy) (now : BitVec 32) (r : Result) (x : NodeStatus) : NodeStatus :=
  let x1 := { x with
    last := r.conds
    accrued := x.accrued ||| r.conds
    source := r.source
    originMask := match r.stamp with | some t => t.members | none => 0
    originLeader := optByte (r.stamp.map (·.leader))
    originInjector := optByte (r.stamp.map (·.injector))
    originPlan := optByte r.planId }
  match r.valid, r.rf with
  | true, some rf =>
    let x2 := { x1 with rf := rf, split := r.split, ub := r.ub, stamp := now }
    evaluateNode plan x2 rf
  | _, _ => x1

/-- A result applied to one node: figures, image or deferred image, FAULT fact, and news with level 2 on a
change of state (R61, R68). -/
def State.applyNode (r : Result) (n : NodeId) (s : State) : State :=
  let x := s.nodes[n]
  let y := applyTo (nodePlanCopy s n) s.uptime r x
  let s1 := ((s.setNode n y).imageEvent n).updateFault
  if x.state = y.state then s1 else (s1.newsNodeState n.val).raise 2

/-- A result applied to every node of its group stamp, in ascending node number (R60). -/
def State.applyResult (s : State) (r : Result) : State :=
  let members := match r.stamp with | some t => t.members | none => 0
  forEach (allNodes.filter fun n => has8 members n.val) (State.applyNode r) s

/-! ### Staleness -/

/-- The maximum age of a node at a check, milliseconds; none where the node is not checked (R69). -/
def maxAgeOf (s : State) (n : NodeId) : Option Nat :=
  match s.mode with
  | .safeStop => none
  | .parked => some (parkedMaxAge s.mem * 1000)
  | .idle | .run => (nodePlanCopy s n).map fun p => p.maxAge * 1000

/-- The node is over its maximum age (R69, R70). -/
def overAge (s : State) (n : NodeId) : Bool :=
  let st := s.nodes[n].state
  (decide (st = .ok) || decide (st = .warn) || decide (st = .fault))
    && match maxAgeOf s n with
      | some m => decide (m < (s.uptime - s.nodes[n].stamp).toNat)
      | none => false

/-- A node goes STALE (R70). -/
def State.goStale (n : NodeId) (s : State) : State :=
  let x := { s.nodes[n] with state := .stale, candidate := none, count := 0 }
  (((s.setNode n x).imageEvent n).updateFault).newsNodeStale n.val

/-- One staleness check; level 5 is raised once for the check (R69, R70). -/
def State.stalenessCheck (s : State) : State :=
  let aged := allNodes.filter fun n => overAge s n
  let s1 := forEach aged State.goStale s
  if aged.isEmpty then s1 else s1.raise 5

/-! ### Acknowledgement and resets -/

/-- The update count a node's record shows (R76). -/
def recordCount (s : State) (n : NodeId) : BitVec 16 := BitVec.ofNat 16 (s.mem.read16 (recordAddr n + 2))

/-- The seven condition bits of a host-written set (R178). -/
def hostConds (b : Byte) : CondSet := b &&& 0x7F

/-- An ACK is accepted: equal counts and no deferred image (R76). -/
def ackAccepted (s : State) (n : NodeId) (count : BitVec 16) : Bool :=
  decide (recordCount s n = count) && !s.nodes[n].deferred

/-- The change an accepted ACK makes: the named conditions leave accrued, with an image where one did (R76). -/
def State.acknowledge (s : State) (n : NodeId) (mask : Byte) : State :=
  let x := s.nodes[n]
  let y := { x with accrued := x.accrued &&& ~~~hostConds mask }
  if y.accrued = x.accrued then s else (s.setNode n y).imageEvent n

/-- The node part of a soft reset: every state UNKNOWN, one image for a node it changes or that held a deferred
image, the hold over, the FAULT fact false (R79). -/
def State.softResetNodes (s : State) : State :=
  let one (n : NodeId) (t : State) : State :=
    let x := t.nodes[n]
    let y := { x with state := .unknown, candidate := none, count := 0 }
    if x.deferred ∨ x.state ≠ y.state ∨ x.candidate ≠ y.candidate then (t.setNode n y).writeImage n
    else t.setNode n y
  (forEach allNodes one { s with hold := none }).updateFault

end Sys2Proof.Machine
end

