-- ==== Sys2Proof/Machine/Topology.lean ====
section
/-! DEFINITION. The topology unit's view of the system (chapter 1): the group partition, eligibility, injector
choice, group states, settle timers, and the views the host reads (group table and header). -/

namespace Sys2Proof.Machine

/-! ### The partition (R2, R6) -/

/-- The two nodes a link entry joins: in use, and CLOSED or UNKNOWN (R2). -/
def LinkCopy.joins (e : LinkCopy) : Option (NodeId × NodeId) :=
  match indexOf 8 e.nodeA, indexOf 8 e.nodeB with
  | some a, some b => if a ≠ b ∧ e.state ≠ .open_ then some (a, b) else none
  | _, _ => none

/-- Node labels; two nodes stand in one group when their labels are equal. -/
abbrev Labels := Vector NodeId 8

/-- One link joins two classes: the greater label gives way to the smaller, so a label is always the lowest node
of its class. -/
def Labels.join (lab : Labels) (a b : NodeId) : Labels :=
  let lo := min lab[a] lab[b]
  let hi := max lab[a] lab[b]
  Vector.ofFn fun n => if lab[n] = hi then lo else lab[n]

/-- One link entry taken into the labels. -/
def Labels.link (lab : Labels) (e : LinkCopy) : Labels :=
  match e.joins with
  | some (a, b) => lab.join a b
  | none => lab

/-- The leader of every node's group, from the link working copies alone (R6). -/
def partition (links : Vector LinkCopy 16) : Labels :=
  allPlans.foldl (fun lab i => lab.link links[i]) (Vector.ofFn fun n => n)

/-- The member mask of a leader under given labels. -/
def memberMask (lab : Labels) (l : GroupId) : BitVec 8 :=
  allNodes.foldl (fun m n => if lab[n] = l then m ||| bit8 n.val else m) 0

/-- The leader of a node's group, as the group table stands. -/
def leaderOf (s : State) (n : NodeId) : GroupId :=
  (allNodes.find? fun l => match s.groups[l] with | some g => has8 g.members n.val | none => false).getD n

/-! ### Eligibility and injectors (R8, R10) -/

/-- A SELFCHECK order of the channel runs, or waits for its evaluation (R8, R148). -/
def checking (s : State) (c : Chan) : Bool :=
  s.intake.any fun o => decide (o.job = .selfcheck c) && decide (o.phase ≠ .waiting)

/-- A SELFCHECK order stands in flight in the group, until its evaluation completes it (R10, R13, R148).
DEDUCED, log entry 12. -/
def checkInProgress (s : State) (l : GroupId) : Bool :=
  s.intake.any fun o =>
    decide (o.group = l) && decide (o.phase ≠ .waiting)
      && match o.job with | .selfcheck _ => true | .spot _ _ => false

/-- Health, disconnect and check leave the channel in service (R8). -/
def serviceable (s : State) (c : Chan) : Bool :=
  decide (s.safety[c].health = .good) && !s.safety[c].disconnected && !checking s c

/-- A member carries a yield flag (R19). -/
def groupPassive (s : State) (g : Group) : Bool := decide (g.members &&& s.yields ≠ 0)

/-- A channel may be chosen as the group's injector (R8). -/
def eligible (s : State) (g : Group) (c : Chan) : Bool :=
  wiredInto s c g.members && serviceable s c && decide (s.seqs[c].ctx ≠ .held) && !groupPassive s g

/-- A channel wired to a member is ineligible only because its context is HELD (R13). -/
def heldOnly (s : State) (g : Group) (c : Chan) : Bool :=
  wiredInto s c g.members && serviceable s c && decide (s.seqs[c].ctx = .held)

/-- The lowest-numbered eligible channel (R10). -/
def lowestEligible (s : State) (g : Group) : Option Chan := allChans.find? fun c => eligible s g c

/-- The injector a regroup gives a group: none while a check is in progress; an eligible injector is kept; else
the lowest eligible channel (R10, R13). -/
def chooseInjector (s : State) (l : GroupId) (g : Group) : Option Chan :=
  if checkInProgress s l then none
  else
    match g.injector with
    | some c => if eligible s g c then some c else lowestEligible s g
    | none => lowestEligible s g

/-- The rotation's choice: the lowest eligible channel above the present one, wrapping round (R107). -/
def nextInjector (s : State) (g : Group) (c : Chan) : Chan :=
  match allChans.find? fun d => decide (c < d) && eligible s g d with
  | some d => d
  | none => (lowestEligible s g).getD c

/-! ### Group states (R13) -/

/-- The leader's plan working copy, if it has a plan and the copy is READY (R1). -/
def readyPlan (s : State) (l : GroupId) : Option PlanCopy :=
  match nodePlanCopy s l with
  | some p => if p.ready then some p else none
  | none => none

/-- The state of a group: of those that apply, the one nearest the top of R13's table.  So it is too while a SELFCHECK
runs in the group: what R13 says of such a group after its table settles NO_CHANNEL against MEASURING alone, and HELD and
NO_PLAN, which stand above them, still come first.  A settled group in RUN with a READY plan in which nothing runs (its
series stopped for a SELFCHECK that waits for the channel's check in another group) has no row of the table, and reads
MEASURING.  DEDUCED, log entry 25.  While an order holds the group's measurement, a settle timer that runs does not make it
SETTLING (R14, R103, R132).  DEDUCED, log entry 14. -/
def groupStateOf (s : State) (l : GroupId) (g : Group) : GroupState :=
  if groupPassive s g then .passive
  else if (lowestEligible s g).isNone then
    if allChans.any (fun c => heldOnly s g c) then .held else .noChannel
  else if (readyPlan s l).isNone then .noPlan
  else if g.settle.isSome && decide (g.series ≠ .order) then .settling
  else if checkInProgress s l then .measuring
  else
    match s.mode, g.series with
    | .idle, .order | .safeStop, .order => .measuring
    | .idle, _ | .safeStop, _ => .quiet
    | .parked, .order | .parked, .turn => .measuring
    | .parked, _ => .waitingTurn
    | .run, _ => .measuring

/-- The state of the group with a leader; PASSIVE is never read of a leader without a group. -/
def groupState (s : State) (l : GroupId) : GroupState :=
  match s.groups[l] with
  | some g => groupStateOf s l g
  | none => .noChannel

/-! ### Settle timers (R12) -/

/-- The settle timer starts with the leader's topology settle time: it waits where the plan is not READY, and a
time of 0 ms expires at once (R12). -/
def State.startSettle (s : State) (l : GroupId) : State :=
  match readyPlan s l with
  | none => s.modGroup l fun g => { g with settle := none, waitPlan := true, measurable := false }
  | some p =>
    if p.settle = 0 then s.modGroup l fun g => { g with settle := none, waitPlan := false, measurable := true }
    else s.modGroup l fun g => { g with settle := some p.settle, waitPlan := false, measurable := false }

/-! ### Views the host reads (R7, R156, section 11.3, section 11.8) -/

/-- The sixteen bytes of a group entry (R7). -/
def groupEntry (s : State) (l : GroupId) : List Byte :=
  match s.groups[l] with
  | some g =>
    [1, g.members, optByte g.injector, byteOf (groupStateOf s l g).code, optByte s.nodePlan[l], 0]
      ++ le16 g.seriesCount ++ [0, 0, 0, 0, 0, 0, 0, 0]
  | none => [0, 0, 0xFF, 0, 0, 0, 0, 0, 0, 0, 0, 0, 0, 0, 0, 0]

/-- The uptime the header shows: the latched count, or the live one (R164). -/
def shownUptime (s : State) : BitVec 32 := s.uptimeLatch.getD s.uptime

/-- The used bytes 0x00 to 0x14 of the header (section 11.3). -/
def headerBytes (s : State) : List Byte :=
  [statusRegister s, byteOf s.mode.code, 0, 0] ++ le32 (shownUptime s)
    ++ [byteOf s.cause.code, optByte s.causeChan, s.failMask.setWidth 8, lineByte s,
      chanStatusByte s.safety[0], chanStatusByte s.safety[1], chanStatusByte s.safety[2],
      chanStatusByte s.safety[3],
      s.news.done, s.news.nodeState, s.news.nodeStale, s.news.chanCond, s.news.chanSafety]

/-- The byte the exchange memory shows at an address below 0xA00: views for the header and the group table, the
stored byte elsewhere. DEDUCED, log entry 9. -/
def exchangeByte (s : State) (a : Nat) : Byte :=
  if a < 0x040 then (headerBytes s).getD a 0
  else if 0x800 ≤ a ∧ a < 0x880 then
    match indexOf 8 (byteOf ((a - 0x800) / 16)) with
    | some l => (groupEntry s l).getD ((a - 0x800) % 16) 0
    | none => 0
  else s.mem.read a

end Sys2Proof.Machine
end

