-- ==== Sys2Proof/Machine/Orders.lean ====
section
/-! DEFINITION. The order unit (chapter 7): slot completion and kind results, refusals, the intake list, the
abandonment of SPOTs and the placing of orders at a regroup. -/

namespace Sys2Proof.Machine

/-! ### Kind results (R134, section 11.6) -/

/-- A kind result filled up with unused bytes 0x00 to the 40 bytes of its area. -/
def padKind (bs : List Byte) : List Byte := (bs ++ List.replicate 40 0).take 40

/-- The kind result of a refused SPOT: the plan as the order named it, figures zero, stamp absent (R134, R179). -/
def spotRefused (plan : Byte) : List Byte :=
  List.replicate 13 0 ++ [plan] ++ List.replicate 12 0 ++ [0, 0xFF, 0xFF]

/-- The kind result of a completed SPOT (R134). -/
def spotDone (r : Result) (plan : PlanId) : List Byte :=
  let split := r.split.getD ⟨0, 0, 0⟩
  [flagByte r.valid, flagByte r.split.isSome] ++ leNat (r.rf.getD 0) ++ leNat split.rp ++ leNat split.rn
    ++ leInt split.apm ++ leNat r.ub ++ [r.conds, byteOf plan.val] ++ leInt r.p1 ++ leInt r.p2 ++ leInt r.p3
    ++ leNat r.t1 ++ leNat r.t2 ++ leNat r.t3
    ++ [match r.stamp with | some t => t.members | none => 0, optByte (r.stamp.map (·.injector)),
      optByte (r.stamp.map (·.leader))]

/-- The kind result of a SELFCHECK: outcome, measured value, condition set, health before and after (R148). -/
def selfcheckResult (outcome : Nat) (measured : Nat) (conds : CondSet) (before after : Health) : List Byte :=
  [byteOf outcome] ++ leNat measured ++ [conds, byteOf before.code, byteOf after.code]

/-- The kind result of a CLEAR_DISCONNECT (R143). -/
def clearResult (s : State) (before after : Bool) : List Byte := [flagByte before, flagByte after, lineByte s]

/-- The kind result a refused order writes, by the slot's kind and parameters as they stand (R17, R76, R90, R134,
R135, R143). DEDUCED, log entry 15. -/
def refusedResult (s : State) (n : SlotId) : List Byte :=
  let target := slotParam s.mem n 2
  match OrderKind.ofByte (slotParam s.mem n 1) with
  | none => []
  | some .spot => spotRefused (slotParam s.mem n 3)
  | some .selfcheck =>
    match indexOf 4 target with
    | some c => selfcheckResult 0 0 0 s.safety[c].health s.safety[c].health
    | none => [0, 0, 0, 0, 0xFF, 0xFF]
  | some .snapshot | some .restore | some .release =>
    match indexOf 4 target with
    | some c => [byteOf s.seqs[c].ctx.code, byteOf s.seqs[c].ctx.code]
    | none => []
  | some .ack =>
    match indexOf 8 target with
    | some d => le16 (recordCount s d)
    | none => []
  | some .yieldNode | some .resumeNode =>
    match indexOf 8 target with
    | some d => [flagByte (has8 s.yields d.val), byteOf (leaderOf s d).val]
    | none => [0, 0xFF]
  | some .clearDisconnect =>
    match indexOf 4 target with
    | some c => clearResult s s.safety[c].disconnected s.safety[c].disconnected
    | none => clearResult s false false

/-! ### Completion (R123) -/

/-- Completes a slot: result area, state byte, done news bit, level 4; the order leaves the intake list (R123,
R124). -/
def State.completeSlot (s : State) (n : SlotId) (final : SlotState) (reason : Byte) (kind : List Byte) : State :=
  let a := slotAddr n
  let s1 := ((s.pokes (a + 0x18) (padKind kind)).poke (a + 0x15) reason).poke (a + 0x12) endedCode
  let s2 := (s1.poke a (byteOf final.code)).setSlot n final
  let s3 := { s2 with intake := s2.intake.filter fun o => o.slot ≠ n }
  (s3.newsDone n.val).raise 4

/-- Completes a slot DONE (R123). -/
def State.completeDone (s : State) (n : SlotId) (kind : List Byte) : State := s.completeSlot n .done 0 kind

/-- Completes a slot REFUSED, with the kind result a refused order of its kind writes (R123). -/
def State.refuseSlot (s : State) (n : SlotId) (reason : Reason) : State :=
  s.completeSlot n .refused (byteOf reason.code) (refusedResult s n)

/-- Every TAKEN slot completes REFUSED, in ascending slot number (R137, R138). -/
def State.refuseTaken (s : State) (reason : Reason) : State :=
  forEach allNodes (fun n t => if t.slots[n] = .taken then t.refuseSlot n reason else t) s

/-! ### The intake list (R124, R125) -/

/-- Changes the order of a slot in the intake list; its place stays. -/
def State.modOrder (s : State) (n : SlotId) (f : Order → Order) : State :=
  { s with intake := s.intake.map fun o => if o.slot = n then f o else o }

/-- The order moves to a phase, and its progress byte with it (R125). -/
def State.setPhase (s : State) (n : SlotId) (ph : OrderPhase) : State :=
  (s.modOrder n fun o => { o with phase := ph }).poke (slotAddr n + 0x12) (byteOf ph.code)

/-- The order stands in a group, and its slot's group field shows it (R124). -/
def State.setOrderGroup (s : State) (n : SlotId) (l : GroupId) : State :=
  (s.modOrder n fun o => { o with group := l }).poke (slotAddr n + 0x13) (byteOf l.val)

/-- The front of a group's wait list (R124). -/
def frontOf (s : State) (l : GroupId) : Option Order :=
  s.intake.find? fun o => decide (o.phase = .waiting) && decide (o.group = l)

/-- Measurement orders that are RUNNING. -/
def runningCount (s : State) : Nat := (s.intake.filter fun o => o.phase = .running).length

/-- A group takes a series state (R103). -/
def State.setSeries (s : State) (l : GroupId) (x : SeriesState) : State := s.modGroup l fun g => { g with series := x }

/-- The group's measurement is free again, unless another RUNNING order stands in the group (R114, R130). -/
def State.freeMeasurement (s : State) (l : GroupId) : State :=
  if s.intake.any fun o => decide (o.phase = .running) && decide (o.group = l) then s
  else s.setSeries l .none

/-! ### Abandoned measurements (R14, R15, R112, R128) -/

/-- The order unit takes the notice that a RUNNING SPOT's run was abandoned (R128). -/
def State.spotAbandoned (s : State) (o : Order) : State :=
  let k := o.abandons + 1
  let s1 := (s.poke (slotAddr o.slot + 0x14) (byteOf k)).modOrder o.slot fun x => { x with abandons := k }
  let s2 := s1.setSeries o.group .none
  if k < 3 then s2.setPhase o.slot .waiting else s2.refuseSlot o.slot .topology

/-- The injector of a leader's group; none where the node leads no group. -/
def injectorOf (s : State) (l : GroupId) : Option Chan :=
  match s.groups[l] with
  | some g => g.injector
  | none => none

/-- The injector's run is abandoned and it is commanded detached. -/
def State.stopInjector (s : State) (l : GroupId) : State :=
  match injectorOf s l with
  | some c => s.stopChannel c
  | none => s

/-- The series is gone: series state NONE, rotation counter cleared (R101, R103). -/
def State.seriesOver (s : State) (l : GroupId) : State := s.modGroup l fun g => { g with series := .none, rotation := 0 }

/-- Abandons the group's own series or PARKED turn; a lost turn is due again at once (R14, R112). -/
def State.abandonOwn (s : State) (l : GroupId) : State :=
  match s.groups[l] with
  | none => s
  | some g =>
    match g.series with
    | .series | .stopping => (s.stopInjector l).seriesOver l
    | .turn => { (s.stopInjector l).seriesOver l with park := .due }
    | .none | .order => s

/-- The RUNNING SPOT of a group, if any. -/
def runningSpot (s : State) (l : GroupId) : Option Order :=
  s.intake.find? fun o =>
    decide (o.phase = .running) && decide (o.group = l) && match o.job with | .spot _ _ => true | .selfcheck _ => false

/-- Abandons a group's in-flight measurement, a running SELFCHECK apart (R14, R15, R16). -/
def State.abandonGroup (s : State) (l : GroupId) : State :=
  let s1 := s.abandonOwn l
  match runningSpot s1 l with
  | some o => (s1.stopInjector l).spotAbandoned o
  | none => s1

/-! ### Orders across a regroup (R127, R130) -/

/-- A RUNNING or FINISHING order passes to the group that now contains its former group's leader node. -/
def State.placeInFlight (s : State) : State :=
  forEach s.intake (fun o t => if o.phase = .waiting then t else t.setOrderGroup o.slot (leaderOf s o.group)) s

/-- A waiting order stands in the group that now contains its target; a SELFCHECK whose channel is wired to no
node is refused BAD_CHANNEL. -/
def State.placeWaiting (s : State) : State :=
  forEach s.intake
    (fun o t =>
      if o.phase = .waiting then
        match o.job with
        | .spot node _ => t.setOrderGroup o.slot (leaderOf s node)
        | .selfcheck c =>
          match s.wiring[c].wiredNode with
          | some node => t.setOrderGroup o.slot (leaderOf s node)
          | none => t.refuseSlot o.slot .badChannel
      else t) s

end Sys2Proof.Machine
end

