-- ==== Sys2Proof/Machine/Regroup.lean ====
section
/-! DEFINITION. The regroup (R6, R9, R12, R14, R15, R16): partition, abandonments, injectors, settle timers, the
rotation list and the placing of orders, as one operation. -/

namespace Sys2Proof.Machine

/-- A leader keeps its group: the same member set stood under it before (R6); at a soft reset none does (R21). -/
def keepsGroup (fresh : Bool) (lab : Labels) (old : Vector (Option Group) 8) (l : GroupId) : Bool :=
  !fresh && decide (lab[l] = l)
    && match old[l] with
      | some g => decide (g.members = memberMask lab l)
      | none => false

/-- The measurements of every group that vanishes or changes its member set are abandoned (R15). -/
def State.abandonChanged (fresh : Bool) (lab : Labels) (s : State) : State :=
  forEach (allNodes.filter fun l => s.groups[l].isSome && !keepsGroup fresh lab s.groups l)
    (fun l t => t.abandonGroup l) s

/-- The group table of a new partition: a kept group goes on, any other is newly formed (R6, R7). -/
def newGroups (fresh : Bool) (lab : Labels) (old : Vector (Option Group) 8) : Vector (Option Group) 8 :=
  Vector.ofFn fun l =>
    if lab[l] = l then
      if keepsGroup fresh lab old l then old[l] else some (Group.formed (memberMask lab l))
    else none

/-- A newly formed group that takes over a running SELFCHECK has series state ORDER (R103, R130). -/
def State.inheritCheck (s : State) (l : GroupId) : State :=
  if s.intake.any fun o => decide (o.phase = .running) && decide (o.group = l) then
    s.setSeries l .order
  else s

/-- The settle timer and the measurable flag after the injector choice (R12, R14, R103): stopped without an
injector; waiting, with the group's own measurement abandoned, without a READY plan; started where the group is
newly formed, its injector is new or it leaves NO_PLAN; else untouched. DEDUCED, log entry 14. -/
def State.settleAfter (s : State) (l : GroupId) (formed changed : Bool) : State :=
  match s.groups[l] with
  | none => s
  | some g =>
    if g.injector = none then s.modGroup l fun g => { g with settle := none, waitPlan := false, measurable := false }
    else if (readyPlan s l).isNone then (s.abandonOwn l).startSettle l
    else if formed || changed || g.waitPlan then s.startSettle l
    else s

/-- One group at a regroup: a lost injector takes its measurement with it, then the choice and the timer (R10,
R14, R16). -/
def State.evaluateGroup (s : State) (formed : Bool) (l : GroupId) : State :=
  match s.groups[l] with
  | none => s
  | some g =>
    let inj := chooseInjector s l g
    let changed := decide (inj ≠ g.injector)
    let s1 := if changed && g.injector.isSome then s.abandonGroup l else s
    (s1.modGroup l fun g => { g with injector := inj }).settleAfter l formed changed

/-- Every attached channel that is no group's injector is commanded detached (R8, R11). -/
def State.detachOthers (s : State) : State :=
  forEach allChans (fun c t => if (groupOfInjector t c).isNone then t.detach c else t) s

/-- The rotation list at a regroup: kept groups keep their places, newly formed ones join the tail in ascending
leader order (R109). -/
def rotationAfter (keeps : GroupId → Bool) (groups : Vector (Option Group) 8) (list : List GroupId) : List GroupId :=
  list.filter keeps ++ allNodes.filter fun l => groups[l].isSome && !keeps l

/-- What level 7 watches of the group table: member masks and injectors (R7). -/
def tableSignature (groups : Vector (Option Group) 8) : List (Option (BitVec 8 × Option Chan)) :=
  allNodes.map fun l => groups[l].map fun g => (g.members, g.injector)

/-- The partition is taken: changed groups lose their measurements, and the table shows the new groups (R6, R15). -/
def State.formGroups (s : State) (fresh : Bool) : State :=
  let s1 := s.abandonChanged fresh (partition s.links)
  { s1 with groups := newGroups fresh (partition s.links) s1.groups }

/-- Orders in flight find their groups, then every group has its injector and its timer chosen, and what injects no
longer is detached (R10, R12, R130). -/
def State.evaluateAll (s : State) (keeps : GroupId → Bool) : State :=
  (forEach allNodes (fun l t => t.evaluateGroup (!keeps l) l)
    (forEach (allNodes.filter fun l => !keeps l) (fun l t => t.inheritCheck l) s.placeInFlight)).detachOthers

/-- In PARKED the rotation list follows the groups (R109). -/
def State.reorderRotation (s : State) (keeps : GroupId → Bool) : State :=
  if s.mode = .parked then { s with rotation := rotationAfter keeps s.groups s.rotation } else s

/-- Level 7, where the table's watched part changed (R7); at a soft reset always (R21). -/
def State.noticeTable (s : State) (fresh : Bool) (before : Vector (Option Group) 8) : State :=
  if fresh || decide (tableSignature before ≠ tableSignature s.groups) then s.raise 7 else s

/-- One regroup, up to the requests of the fronts (R6, R9 to R16, R127). -/
def State.regroupCore (s : State) (fresh : Bool) : State :=
  let keeps := keepsGroup fresh (partition s.links) s.groups
  ((((s.formGroups fresh).evaluateAll keeps).reorderRotation keeps).noticeTable fresh s.groups).placeWaiting

end Sys2Proof.Machine
end

