-- ==== Sys2Proof/Machine/Schedule.lean ====
section
/-! DEFINITION. The scheduler (chapter 6): grants and dispatch checks, series, PARKED turns, rotation, mode
changes, and the polarity edge with all that follows from it. -/

namespace Sys2Proof.Machine

/-! ### Requests and grants (R104, R110, R125, R126) -/

/-- The series state of a group; a leader without a group has none. -/
def seriesOf (s : State) (l : GroupId) : SeriesState :=
  match s.groups[l] with
  | some g => g.series
  | none => .none

/-- In PARKED the one permission is free: no group has series state TURN or ORDER (R110). -/
def permissionFree (s : State) : Bool :=
  allNodes.all fun l => decide (seriesOf s l ≠ .turn) && decide (seriesOf s l ≠ .order)

/-- A FINISHING self-check stands before the order: a SPOT waits for its group's check to give back an injector, a
SELFCHECK for the evaluation of its own channel (R10, R131 note, R135, R148). DEDUCED, log entry 12. -/
def awaitsCheck (s : State) (o : Order) : Bool :=
  match o.job with
  | .spot _ _ => checkInProgress s o.group
  | .selfcheck c => checking s c

/-- The scheduler grants this order now: it is the front of its group, the group's measurement is free, no check
stands before it, the group is not SETTLING, no PARKED request pends and in PARKED nothing else measures (R104,
R110). -/
def grantable (s : State) (o : Order) : Bool :=
  decide (frontOf s o.group = some o)
    && match s.groups[o.group] with
      | none => false
      | some g =>
        decide (g.series = .none) && g.settle.isNone && !awaitsCheck s o && !s.parkedPending
          && decide (s.mode ≠ .safeStop) && (decide (s.mode ≠ .parked) || permissionFree s)

/-- A series asked to stop for a waiting order: at its next edge, or at once in WAIT_ATTACH (R37, R104, R105). -/
def State.requestStop (s : State) (l : GroupId) : State :=
  match s.groups[l] with
  | none => s
  | some g =>
    match g.injector with
    | none => s
    | some c =>
      if g.series = .series ∧ (frontOf s l).isSome = true then
        if s.seqs[c].phase = .waitAttach then (s.abandonRun c).seriesOver l
        else (s.setSeq c { s.seqs[c] with stopRequest := true }).setSeries l .stopping
      else s

/-- The dispatch check of a SPOT (R126). A group without an injector counts as NO_CHANNEL. -/
def spotCheck (s : State) (l : GroupId) (plan : PlanId) : Option Reason :=
  if s.plans[plan].ready = false then some .badPlan
  else
    match groupState s l with
    | .passive => some .passive
    | .held => some .held
    | .noChannel => some .noChannel
    | _ => none

/-- The dispatch check of a SELFCHECK (R126). -/
def selfcheckCheck (s : State) (c : Chan) : Option Reason :=
  if s.safety[c].health = .offline then some .offline
  else if s.safety[c].disconnected then some .disconnected
  else none

/-- Every channel left ATTACHED without a run is commanded detached (R36). -/
def State.detachIdle (s : State) : State :=
  forEach allChans (fun c t => if t.seqs[c].run = .none then t.detach c else t) s

/-- The injector of a group, where it is left ATTACHED without a run, is commanded detached (R36, R105). -/
def State.detachInjector (s : State) (l : GroupId) : State :=
  match injectorOf s l with
  | some c => if s.seqs[c].run = .none then s.detach c else s
  | none => s

/-- A refusal at the dispatch check: the slot completes, the measurement is given back, and the group's channel, if
an ended run left it ATTACHED, is commanded detached (R36, R104, R105).  So a further SPOT of the group that is granted
at the same event starts from a detached channel.  DEDUCED, log entry 21. -/
def State.refuseDispatch (s : State) (o : Order) (why : Reason) : State :=
  ((s.refuseSlot o.slot why).setSeries o.group .none).detachInjector o.group

/-- The series count rises at the start of a SERIES or TRIPLE run (R7, R23). -/
def State.countSeries (s : State) (l : GroupId) : State :=
  s.modGroup l fun g => { g with seriesCount := g.seriesCount + 1 }

/-- The run copy of a plan on a channel (R4, R22). -/
def runCopy (s : State) (c : Chan) (plan : PlanId) : RunCopy :=
  ⟨s.plans[plan], some plan, s.wiring[c].rm, s.wiring[c].rs⟩

/-- A granted SPOT that passes its check becomes RUNNING on the group's injector (R132). DEDUCED, log entry 16. -/
def State.startSpot (s : State) (o : Order) (plan : PlanId) : State :=
  match s.groups[o.group] with
  | some g =>
    match g.injector with
    | some c =>
      (((s.setPhase o.slot .running).countSeries o.group).startRun c .triple (some o.slot) (runCopy s c plan))
    | none => s.refuseDispatch o .noChannel
  | none => s.refuseDispatch o .noChannel

/-- A granted SELFCHECK that passes its check becomes RUNNING: regroup, detach, and the reference when the
channel is open (R147). -/
def State.startCheck (s : State) (o : Order) (c : Chan) : State :=
  let s0 := if s.seqs[c].run = .none then s else s.dropRun c
  let s1 := s0.setPhase o.slot .running
  let s2 := s1.setSeq c
    (s1.seqs[c].setUp .selfcheck (some o.slot) ⟨selfcheckPlan, none, s1.wiring[c].rm, s1.wiring[c].rs⟩)
  let s3 := (s2.regroupCore false).detach c
  s3.tryReference c

/-- The grant of an order: series state ORDER, the dispatch check, and its start or refusal (R104, R126). -/
def State.grant (s : State) (o : Order) : State :=
  let s1 := s.setSeries o.group .order
  match o.job with
  | .spot _ plan =>
    match spotCheck s1 o.group plan with
    | some why => s1.refuseDispatch o why
    | none => s1.startSpot o plan
  | .selfcheck c =>
    match selfcheckCheck s1 c with
    | some why => s1.refuseDispatch o why
    | none => s1.startCheck o c

/-! ### Series and turns (R106, R110) -/

/-- The group's measurement is free and the group measurable, and no order waits at its front. -/
def startable (s : State) (l : GroupId) : Bool :=
  (match s.groups[l] with
    | some g => g.measurable && decide (g.series = .none) && g.injector.isSome
    | none => false)
    && (frontOf s l).isNone && (readyPlan s l).isSome && !checkInProgress s l

/-- The group's series state for a run of the scheduler's own, with the plan's policy and rotate count copied and the
rotation counter cleared (R106, R110). -/
def State.setOwn (s : State) (l : GroupId) (state : SeriesState) (p : PlanId) : State :=
  s.modGroup l fun g =>
    { g with series := state, policy := s.plans[p].policy, rotateCount := s.plans[p].rotate, rotation := 0 }

/-- A turn starts from a DETACHED channel (R36, R114). -/
def State.detachForTurn (s : State) (c : Chan) (kind : RunKind) : State := if kind = .triple then s.detach c else s

/-- The scheduler's own run on a group: series count raised, and the run started on the injector with the leader's
plan (R106, R110). -/
def State.startOwn (s : State) (l : GroupId) (state : SeriesState) (kind : RunKind) : State :=
  match s.groups[l], s.nodePlan[l] with
  | some g, some p =>
    match g.injector with
    | some c =>
      (((s.setOwn l state p).detachForTurn c kind).countSeries l).startRun c kind none (runCopy s c p)
    | none => s
  | _, _ => s

/-- One PARKED turn for a group: the park timer stops and marks no turn due (R110). -/
def State.startTurn (s : State) (l : GroupId) : State := { s.startOwn l .turn .triple with park := .stopped }

/-- One decision of the scheduler: the earliest grantable order; else in PARKED a due turn for the first group
that qualifies, and in RUN a series for the first group that qualifies; else nothing. DEDUCED, log entry 18. -/
def scheduleOne (s : State) : Option State :=
  match s.intake.find? fun o => grantable s o with
  | some o => some (s.grant o)
  | none =>
    match s.mode with
    | .parked =>
      if s.park = .due ∧ permissionFree s = true then
        (s.rotation.find? fun l => startable s l).map fun l => s.startTurn l
      else none
    | .run => (allNodes.find? fun l => startable s l).map fun l => s.startOwn l .series .series
    | .idle | .safeStop => none

/-- The scheduler's decisions, one after the other, with stop requests before each. -/
def scheduleAll : Nat → State → State
  | 0, s => s
  | n + 1, s =>
    let t := forEach allNodes (fun l t => t.requestStop l) s
    match scheduleOne t with
    | some u => scheduleAll n u
    | none => t

/-- More decisions than one event can call for: at most eight orders granted and eight series or turns started.
DEDUCED, log entry 16. -/
def scheduleFuel : Nat := 20

/-- The scheduler acts: grants, turns and series; a channel left ATTACHED without a run is then commanded detached
(R36, R104, R105, R114). -/
def State.schedule (s : State) : State := (scheduleAll scheduleFuel s).detachIdle

/-! ### Modes (R100 to R102) -/

/-- The mode changes: every series and turn is abandoned; PARKED forms its list and marks a turn due, any other
mode discards them (R101, R109, R110). -/
def State.changeMode (s : State) (m : Mode) : State :=
  let s1 := forEach allNodes (fun l t => t.abandonOwn l) s
  if m = .parked then
    { s1 with mode := m, parkedPending := false, park := .due
              rotation := allNodes.filter fun l => s1.groups[l].isSome }
  else { s1 with mode := m, parkedPending := false, park := .stopped, rotation := [] }

/-- How many groups have an order that holds their measurement (R102, R103). DEDUCED, log entry 13. -/
def orderGroups (s : State) : Nat := (allNodes.filter fun l => decide (seriesOf s l = .order)).length

/-- At each completion or abandonment of an in-flight order a pending PARKED request is met once at most one group
still has one (R102). -/
def State.recount (s : State) : State :=
  if s.parkedPending ∧ s.mode = .idle ∧ orderGroups s ≤ 1 then s.changeMode .parked else s

/-- A mode request of CONTROL (R100, R102); during STARTING it is only kept (R166). -/
def State.requestMode (s : State) (f : BitVec 2) : State :=
  let want : Option Mode := if f = 0 then some .idle else if f = 1 then some .run else if f = 2 then some .parked else none
  if s.mode = .safeStop then s
  else
    match want with
    | none => s
    | some m =>
      let s0 := { s with request := m }
      if s.starting then s0
      else if m = .parked then
        if s.mode = .parked ∨ s.parkedPending then s0
        else if 2 ≤ orderGroups s then
          let s1 := if s.mode = .idle then s0 else s0.changeMode .idle
          { s1 with parkedPending := true }.schedule
        else (s0.changeMode .parked).schedule
      else if m = s.mode then
        if s.parkedPending then { s0 with parkedPending := false }.schedule else s0
      else (s0.changeMode m).schedule

/-! ### The regroup with what follows it -/

/-- A regroup, the recount of a pending PARKED request where an order in flight was lost since `running` orders
ran, and the requests of every front (R102, R125, R127). -/
def State.regroupFrom (s : State) (running : Nat) (fresh : Bool) : State :=
  let s1 := s.regroupCore fresh
  (if runningCount s1 < running then s1.recount else s1).schedule

/-- A regroup caused by an event of its own (R9). -/
def State.regroup (s : State) : State := s.regroupFrom (runningCount s) false

/-! ### Rotation (R107, R108, R111) -/

/-- The group's injector becomes another channel; its own measurement is over (R107, R111). -/
def State.moveInjector (s : State) (l : GroupId) (d : Chan) : State :=
  s.modGroup l fun g => { g with injector := some d, series := .none, rotation := 0 }

/-- The injector moves to the next eligible channel: detach, new injector, settle timer; no level is raised. Where
the choice is the present injector nothing moves. -/
def State.rotate (s : State) (l : GroupId) : State :=
  match s.groups[l] with
  | none => s
  | some g =>
    match g.injector with
    | none => s
    | some c =>
      let d := nextInjector s g c
      if d = c then s else ((s.stopChannel c).moveInjector l d).startSettle l

/-! ### The polarity edge (R31, R36, R37, R107, R111, R133) -/

/-- The rotation counter after an edge of a series: it counts handed triples under ROTATE (R107). -/
def counterAfter (g : Group) (handed : Bool) : Nat :=
  if handed ∧ g.policy = .rotate then g.rotation + 1 else g.rotation

/-- The counter has reached the rotate count at this edge (R107). -/
def rotationDue (g : Group) (handed : Bool) : Bool :=
  handed && decide (g.policy = .rotate) && decide (g.rotateCount ≤ g.rotation + 1)

/-- The rotation counter is cleared (R107). -/
def State.clearCounter (s : State) (l : GroupId) : State := s.modGroup l fun g => { g with rotation := 0 }

/-- The group's counter after an edge, or its series state where the run stopped (R105, R107). -/
def State.countEdge (s : State) (l : GroupId) (g : Group) (handed stopped : Bool) : State :=
  if stopped then s.seriesOver l else s.modGroup l fun x => { x with rotation := counterAfter g handed }

/-- The rotation an edge brings, if it is due (R107, R108). -/
def State.rotateDue (s : State) (l : GroupId) (due : Bool) : State := if due then (s.rotate l).clearCounter l else s

/-- At a stopping edge at which no order waits any more (it left the wait list at a regroup), no order starts on the
channel, so it is commanded detached before anything else starts on it (R105).  DEDUCED, log entry 21. -/
def State.detachUnclaimed (s : State) (l : GroupId) (stopped : Bool) : State :=
  if stopped && (frontOf s l).isNone then s.detachInjector l else s

/-- What an edge of a SERIES run does to its group (R37, R105, R107, R108).  A stop request stands to its edge, though
the order it was made for may have left the wait list by then (log entry 21). -/
def State.seriesEdge (s : State) (l : GroupId) (handed stopped : Bool) : State :=
  match s.groups[l] with
  | none => s
  | some g =>
    let t := ((s.countEdge l g handed stopped).rotateDue l (rotationDue g handed)).detachUnclaimed l stopped
    if rotationDue g handed || stopped then t.schedule else t

/-- A turn of a group under ROTATE moves its injector (R111). -/
def State.rotateTurn (s : State) (l : GroupId) : State :=
  match s.groups[l] with
  | some g => if g.policy = Policy.rotate then s.rotate l else s
  | none => s

/-- The group goes to the tail of the rotation list and the park timer starts (R111, R113). -/
def State.afterTurn (s : State) (l : GroupId) : State :=
  { s with
    rotation := (s.rotation.filter fun x => x ≠ l) ++ [l]
    park := .running (parkInterval s.mem * 1000) }

/-- A PARKED turn completes (R111). -/
def State.turnDone (s : State) (c : Chan) (l : GroupId) : State :=
  let s1 := (s.setSeries l .none).detach c
  ((s1.rotateTurn l).afterTurn l).schedule

/-- A SPOT or SELFCHECK run completes: the order becomes FINISHING and the group's measurement is free (R133,
R135, R148). -/
def State.orderRunDone (s : State) (n : SlotId) : State :=
  match s.intake.find? fun o => decide (o.slot = n) && decide (o.phase = .running) with
  | some o => ((s.setPhase n .finishing).freeMeasurement o.group).recount.schedule
  | none => s.schedule

/-- A polarity edge: the plateau is formed and appended, a triple is handed on where due, and the next half-period
begins or the run ends (R31, R34, R36, R37). -/
def State.edge (s : State) (c : Chan) (flag : Option Cond) (settleTime : Nat) : State :=
  let q := s.seqs[c]
  let history := appendPlateau q.history (q.plateau flag settleTime)
  let t := tripleOf s c q history
  let s1 := s.handTriple t
  let next := { q.beginHalf q.polarity.flip with history := history, half := if q.run = .series then q.half else q.half + 1 }
  match q.run with
  | .none => s
  | .series =>
    let s2 := s1.setSeq c (if q.stopRequest then q.endRun else next)
    match groupOfInjector s c with
    | some l => s2.seriesEdge l t.isSome q.stopRequest
    | none => s2
  | .triple =>
    if q.half < 3 then s1.setSeq c next
    else
      let s2 := s1.setSeq c q.endRun
      match q.owner with
      | some n => s2.orderRunDone n
      | none =>
        match groupOfInjector s c with
        | some l => s2.turnDone c l
        | none => s2.schedule
  | .selfcheck =>
    if q.half < 3 then s1.setSeq c next
    else
      let s2 := (s1.setSeq c q.endRun).openReference c
      match q.owner with
      | some n => s2.orderRunDone n
      | none => s2.schedule

/-! ### Ends of windows and half-periods (R26 to R30, R40) -/

/-- A full window ends; at the ready point the edge comes in FREE, WAIT_SYNC begins in TRIGGERED (R26 to R29). -/
def State.windowEnd (s : State) (c : Chan) : State :=
  let q := s.seqs[c]
  if q.windowFull then
    let w := q.closeWindow
    if w.readyNow then
      let r := { w with ready := some w.elapsed }
      match r.copy.plan.sync with
      | .free => (s.setSeq c r).edge c none r.elapsed
      | .triggered =>
        s.setSeq c { r with phase := .waitSync, syncTimer := some r.copy.plan.syncTimeout }
    else s.setSeq c w
  else s

/-- The elapsed time has reached half_max: an unready half-period ends with UNSETTLED, a waiting one with
SYNC_MISSED (R29, R30). -/
def State.halfMax (s : State) (c : Chan) : State :=
  let q := s.seqs[c]
  if q.inHalf ∧ q.run ≠ .selfcheck ∧ q.copy.plan.halfMax ≤ q.elapsed then
    match q.ready with
    | some r => s.edge c (some .syncMissed) r
    | none => s.edge c (some .unsettled) q.copy.plan.halfMax
  else s

/-- A SELFCHECK half-period has lasted 200 ms (R40). -/
def State.selfcheckHalfEnd (s : State) (c : Chan) : State :=
  let q := s.seqs[c]
  if q.inHalf ∧ q.run = .selfcheck ∧ Config.selfcheckHalf ≤ q.elapsed then s.edge c none Config.selfcheckHalf else s

/-- What falls due at the sample last taken, in R30's order. DEDUCED, log entry 7. -/
def State.settleDue (s : State) (c : Chan) : State := ((s.windowEnd c).halfMax c).selfcheckHalfEnd c

/-- A half-period in WAIT_SYNC ends: at a SYNC edge without a flag, else with SYNC_MISSED (R29).  R29 does not say whether
a SYNC edge or an expiry that comes with the sample that fills a window finds that window completed: taken before its
WINDOW_END, either ends the half-period at once, and the full window is discarded with the window under way.  DEDUCED, log
entry 7. -/
def State.endWait (s : State) (c : Chan) (flag : Option Cond) : State :=
  let q := s.seqs[c]
  if q.phase = .waitSync then s.edge c flag (q.ready.getD q.elapsed) else s

end Sys2Proof.Machine
end

