-- ==== Sys2Proof/Machine/SafeStop.lean ====
section
/-! DEFINITION. The safety unit (chapter 8) and the soft reset: disconnects, the ends of self-checks, SAFE_STOP
entry, detach verify, and what a soft reset does to every unit. -/

namespace Sys2Proof.Machine

/-! ### Entry into SAFE_STOP (R152) -/

/-- A channel at the entry into SAFE_STOP and at a soft reset: any run abandoned, reference open, commanded
detached (R43, R152, R155). -/
def State.silence (s : State) (c : Chan) : State := (s.dropRun c).detach c

/-- The arithmetic unit's queue and computation and the condition unit's queue and result in progress are dropped
(R59, R98). -/
def State.dropResults (s : State) : State := { s with triples := [], computing := none, results := [], taken := none }

/-- Every group's series state NONE and rotation counter cleared (R116). -/
def State.clearSeries (s : State) : State := forEach allNodes (fun l t => t.seriesOver l) s

/-- Cause and cause channel of an entry into SAFE_STOP (R152). -/
def State.setCause (s : State) (cause : Cause) (chan : Option Chan) : State := { s with cause := cause, causeChan := chan }

/-- The scheduler and the attention controller at the entry: every series gone, mode SAFE_STOP, level 0 (R116, R176). -/
def State.stopMode (s : State) : State :=
  { s.clearSeries with
    mode := .safeStop, parkedPending := false, rotation := [], park := .stopped
    attn := s.attn.setSafeStop true }

/-- Entry into SAFE_STOP, unless the part is already in it (R116, R138, R152, R176). DEDUCED, log entry 17. -/
def State.enterSafeStop (s : State) (cause : Cause) (chan : Option Chan) : State :=
  if s.mode = .safeStop then s
  else
    let s1 := (forEach allChans (fun c t => t.silence c) (s.setCause cause chan)).dropResults
    (s1.endHold.stopMode.refuseTaken .safeStop).regroupCore false

/-! ### Disconnects (R139 to R142, R149) -/

/-- One of the channel's enabled lines is asserted (R140). -/
def lineAsserted (s : State) (c : Chan) : Bool := decide (s.safety[c].discMask &&& s.lines.setWidth 3 ≠ 0)

/-- A channel's disconnect begins at a re-evaluation (R140). -/
def disconnectBegins (s : State) (c : Chan) : Bool := !s.safety[c].disconnected && lineAsserted s c

/-- A FOLLOW channel's disconnect ends at a re-evaluation (R142). -/
def disconnectEnds (s : State) (c : Chan) : Bool :=
  s.safety[c].disconnected && decide (s.safety[c].discMode = .follow) && !lineAsserted s c

/-- The safety unit ends a RUNNING check of a channel: the order completes DONE with outcome ABORTED (R149). -/
def State.abortCheck (s : State) (c : Chan) : State :=
  match s.intake.find? fun o => decide (o.job = .selfcheck c) && decide (o.phase = .running) with
  | some o =>
    let s1 := if s.seqs[c].run = .selfcheck then s.dropRun c else s
    let h := s1.safety[c].health
    (s1.completeDone o.slot (selfcheckResult 3 0 0 h h)).freeMeasurement o.group
  | none => s

/-- The beginning of one channel's disconnect, up to the regroup (R140, steps 1 to 3). -/
def State.beginDisconnect (s : State) (c : Chan) : State :=
  let s1 := s.setSafety c { s.safety[c] with disconnected := true }
  (if s1.seqs[c].coupling = .attached then s1.stopChannel c else s1).abortCheck c

/-- The disconnect flag of one channel clears (R142, R143). -/
def State.clearDisconnect (s : State) (c : Chan) : State := s.setSafety c { s.safety[c] with disconnected := false }

/-- Re-evaluates channels against the lines, up to the regroup: disconnects begin and end, each with its news bit,
and level 6 once (R139, R140, R142). DEDUCED, log entry 18. -/
def State.reevaluate (s : State) (chans : List Chan) : State :=
  let begins := chans.filter fun c => disconnectBegins s c
  let ends := chans.filter fun c => disconnectEnds s c
  let s1 := forEach begins (fun c t => t.beginDisconnect c) s
  let s2 := forEach ends (fun c t => t.clearDisconnect c) s1
  let s3 := forEach (begins ++ ends) (fun c t => t.newsChanSafety c.val) s2
  if (begins ++ ends).isEmpty then s3 else s3.raise 6

/-- A disconnect of some channel of the list begins or ends at a re-evaluation. -/
def disconnectChange (s : State) (chans : List Chan) : Bool :=
  chans.any fun c => disconnectBegins s c || disconnectEnds s c

/-- One disconnect line's state, as the header shows it (section 11.3). -/
def State.setLine (s : State) (line : Fin 3) (asserted : Bool) : State :=
  let bit : BitVec 4 := 1#4 <<< line.val
  { s with lines := if asserted then s.lines ||| bit else s.lines &&& ~~~bit }

/-- A change of one disconnect line (R139). DEDUCED, log entry 20. -/
def State.lineChange (s : State) (line : Fin 3) (asserted : Bool) : State :=
  if s.starting ∨ s.lines.getLsbD line.val = asserted then s
  else
    let s1 := s.setLine line asserted
    let chans := allChans.filter fun c => s1.safety[c].discMask.getLsbD line.val
    let s2 := s1.reevaluate chans
    if disconnectChange s1 chans then s2.regroupFrom (runningCount s) false else s2

/-! ### Detach verify (R144, R145) -/

/-- A channel joins the failed-verify mask (R145, R150). -/
def State.failVerify (s : State) (c : Chan) : State := { s with failMask := s.failMask ||| (1#4 <<< c.val) }

/-- A channel's verify timer ends (R144). -/
def State.endVerify (s : State) (c : Chan) : State := s.setSafety c { s.safety[c] with verify := none }

/-- A detach verify expires and its readback is judged: a pass lets held-back attaches and references go ahead; a
failure enters SAFE_STOP (R144, R145, R147).  R11 does not say when an attach goes ahead that was held back by the verify
of a channel which a wiring write then takes out of the group: it does so here, at the next pass of any channel's verify
(its own at the latest), and not at the write.  DESIGN CHOICE, log entry 27. -/
def State.verifyExpiry (s : State) (c : Chan) (closed : Bool) : State :=
  if s.starting ∨ s.safety[c].verify = none then s
  else
    let s1 := s.endVerify c
    if closed then (s1.failVerify c).enterSafeStop .detachFailed (some c)
    else forEach allChans (fun d t => t.tryAttach d) (s1.tryReference c)

/-! ### Self-check evaluation (R146, R148) -/

/-- The check is passed: a valid result within the window (R148). -/
def checkPassed (r : Result) : Bool :=
  match r.valid, r.rf with
  | true, some k => decide (Config.passLow ≤ k) && decide (k ≤ Config.passHigh)
  | _, _ => false

/-- The health after an evaluation (R148). -/
def healthAfter (h : Health) (passed : Bool) : Health :=
  match h, passed with
  | .good, true => .good
  | .good, false => .suspect
  | .suspect, true => .good
  | .suspect, false => .offline
  | .offline, _ => .offline

/-- The evaluation of a self-check result: health with its news, the order's completion, and the regroup that gives
the channel its eligibility back (R146, R148). DEDUCED, log entry 18. -/
def State.evaluateCheck (s : State) (r : Result) : State :=
  let before := s.safety[r.chan].health
  let after := healthAfter before (checkPassed r)
  let s1 := s.setSafety r.chan { s.safety[r.chan] with health := after }
  let s2 := if before = after then s1 else (s1.newsChanSafety r.chan.val).raise 6
  let outcome := if checkPassed r then 1 else 2
  let s3 := match r.slot with
    | some n =>
      if s2.intake.any fun o => decide (o.slot = n) && decide (o.phase = OrderPhase.finishing) then
        s2.completeDone n (selfcheckResult outcome (r.rf.getD 0) r.conds before after)
      else s2
    | none => s2
  s3.regroup

/-! ### Soft reset (R21, R43, R59, R79, R98, R115, R137, R155, R175) -/

/-- A live view unlatches and its request byte reads 0 (R42, R43). -/
def State.unlatch (s : State) (c : Chan) : State :=
  (s.setSeq c { s.seqs[c] with viewLatched := false }).poke (viewAddr c) 0

/-- Every live view unlatches (R43). -/
def State.resetViews (s : State) : State := forEach allChans (fun c t => t.unlatch c) s

/-- Every context becomes NONE with a zero record (R98). -/
def State.resetContexts (s : State) : State :=
  forEach allChans (fun c t => t.setSeq c { t.seqs[c] with ctx := .none, record := CtxRecord.zero }) s

/-- The scheduler and CONTROL at a soft reset: mode IDLE, nothing pending, no list, no park timer (R115). -/
def State.resetSchedule (s : State) : State :=
  { s.clearSeries with mode := .idle, request := .idle, parkedPending := false, rotation := [], park := .stopped }

/-- No level pends or is in service; mask and facts stay (R175). -/
def State.resetAttn (s : State) : State := { s with attn := { s.attn with pending := 0, inService := 0 } }

/-- A soft reset as every unit takes it. -/
def State.doSoftReset (s : State) : State :=
  let s1 := (forEach allChans (fun c t => t.silence c) s).dropResults.resetViews
  (s1.resetAttn.softResetNodes.resetContexts.resetSchedule.refuseTaken .reset).regroupFrom 0 true

/-! ### Contexts (R84) -/

/-- A HOLD result holds its channel, unless it is already held: its figures are the pending condition record (R84,
R86). -/
def State.holdChannel (s : State) (c : Chan) (figures : CtxRecord) : State :=
  if s.seqs[c].ctx = .held then s
  else ((s.setSeq c { s.seqs[c] with ctx := .held, record := figures }).abandonRun c).regroup

end Sys2Proof.Machine
end

