-- ==== Sys2Proof/Machine/Intake.lean ====
section
/-! DEFINITION. Intake of an offered slot (R120, R121) and the nine order kinds as they are carried out (R17, R18,
R76, R91 to R97, R131, R135, R143). -/

namespace Sys2Proof.Machine

/-- How an order ends at intake: accepted as a measurement order (the slot stays TAKEN), completed DONE with a kind
result, or refused. -/
inductive Ending where
  | waits
  | done (kind : List Byte)
  | refused (why : Reason)
deriving DecidableEq, Repr

/-! ### Measurement orders (R124, R131, R135) -/

/-- An accepted measurement order joins the intake list, with progress WAITING and its group (R120, R124). -/
def State.enlist (s : State) (n : SlotId) (job : Job) (node : NodeId) : State :=
  let l := leaderOf s node
  let s1 := { s with intake := s.intake ++ [Order.mk n job .waiting l 0] }
  (s1.poke (slotAddr n + 0x12) (byteOf OrderPhase.waiting.code)).poke (slotAddr n + 0x13) (byteOf l.val)

/-- SPOT at intake (R131). -/
def State.takeSpot (s : State) (n : SlotId) : State × Ending :=
  match indexOf 8 (slotParam s.mem n 2) with
  | none => (s, .refused .badNode)
  | some node =>
    match indexOf 16 (slotParam s.mem n 3) with
    | none => (s, .refused .badPlan)
    | some plan =>
      match spotCheck s (leaderOf s node) plan with
      | some why => (s, .refused why)
      | none => ((s.enlist n (.spot node plan) node).schedule, .waits)

/-- SELFCHECK at intake (R135). -/
def State.takeSelfcheck (s : State) (n : SlotId) : State × Ending :=
  match indexOf 4 (slotParam s.mem n 2) with
  | none => (s, .refused .badChannel)
  | some c =>
    match s.wiring[c].wiredNode with
    | none => (s, .refused .badChannel)
    | some node =>
      match selfcheckCheck s c with
      | some why => (s, .refused why)
      | none => ((s.enlist n (.selfcheck c) node).schedule, .waits)

/-! ### Contexts and frames (R88 to R97) -/

/-- The 64 bytes a SNAPSHOT writes (R91, section 11.8). -/
def frameBytes (c : Chan) (kind : CtxKind) (r : CtxRecord) : List Byte :=
  [byteOf kind.code, byteOf c.val, optByte r.planId, byteOf r.highest, r.conds, 0, 0, 0]
    ++ leInt r.p1 ++ leInt r.p2 ++ leInt r.p3 ++ leNat r.ub ++ leInt32 r.dA ++ leInt32 r.off2
    ++ List.replicate 40 0

/-- The figures a RESTORE takes from a frame (R94). -/
def frameRecord (m : Memory) (c : Chan) : CtxRecord :=
  let a := frameAddr c
  let conds := hostConds (m.read (a + 4))
  { conds := conds, highest := highestOf conds, planId := indexOf 16 (m.read (a + 2))
    p1 := m.readInt16 (a + 0x08), p2 := m.readInt16 (a + 0x0A), p3 := m.readInt16 (a + 0x0C)
    ub := m.read16 (a + 0x0E), dA := m.readInt32 (a + 0x10), off2 := m.readInt32 (a + 0x14) }

/-- The kind result of SNAPSHOT, RESTORE and RELEASE (R90). -/
def ctxResult (before after : CtxKind) : List Byte := [byteOf before.code, byteOf after.code]

/-- A HELD context becomes IDLE, its record kept, and the topology unit regroups; any other is left (R91, R93). -/
def State.unhold (s : State) (c : Chan) : State :=
  if s.seqs[c].ctx = .held then (s.setSeq c { s.seqs[c] with ctx := .idle }).regroup else s

/-- SNAPSHOT of a channel (R91). -/
def State.doSnapshot (s : State) (c : Chan) : State :=
  (s.pokes (frameAddr c) (frameBytes c s.seqs[c].ctx s.seqs[c].record)).unhold c

/-- RESTORE abandons an ATTACHED channel's run and has the channel detached; its group's measurement is lost with
it (R95). -/
def State.restoreAbandon (s : State) (c : Chan) : State :=
  let q := s.seqs[c]
  if q.coupling = .attached ∧ (q.run = .series ∨ q.run = .triple) then
    match groupOfInjector s c with
    | some l => (s.abandonGroup l).stopChannel c
    | none => s.stopChannel c
  else s

/-- The context a RESTORE sets (R95, R96, R97). -/
def Seq.restored (q : Seq) (kind : CtxKind) (r : CtxRecord) : Seq :=
  let keep := if q.run = .selfcheck then q.history else []
  match kind with
  | .none => { q with ctx := .none, record := CtxRecord.zero, history := keep }
  | .idle => { q with ctx := .idle, record := r, history := keep }
  | .held => { q with ctx := .held, record := r }

/-- RESTORE of a channel from a frame that passed R94's checks (R95, R96): the topology unit regroups where the
hold begins or ends.  What the abandon freed starts again after the context is set, so a run that starts on the channel
then leaves a NONE context IDLE.  DEDUCED, log entry 22. -/
def State.doRestore (s : State) (c : Chan) (kind : CtxKind) : State :=
  let running := runningCount s
  let was := s.seqs[c].ctx
  let s1 := s.restoreAbandon c
  let s2 := s1.setSeq c (s1.seqs[c].restored kind (frameRecord s.mem c))
  if decide (was = .held) = decide (kind = .held) then
    (if runningCount s2 < running then s2.recount else s2).schedule
  else s2.regroupFrom running false

/-- SNAPSHOT, RESTORE and RELEASE at intake (R90).  After a RESTORE the result records the kind that the order set, the
frame's, though a run that starts again may have made a NONE context IDLE.  DEDUCED, log entry 22. -/
def State.takeContext (s : State) (n : SlotId) (kind : OrderKind) : State × Ending :=
  match indexOf 4 (slotParam s.mem n 2) with
  | none => (s, .refused .badChannel)
  | some c =>
    let before := s.seqs[c].ctx
    match kind with
    | .snapshot =>
      let t := s.doSnapshot c
      (t, .done (ctxResult before t.seqs[c].ctx))
    | .release =>
      let t := s.unhold c
      (t, .done (ctxResult before t.seqs[c].ctx))
    | _ =>
      match CtxKind.ofByte (s.mem.read (frameAddr c)) with
      | none => (s, .refused .format)
      | some k =>
        if s.mem.read (frameAddr c + 1) = byteOf c.val then
          let t := s.doRestore c k
          (t, .done (ctxResult before k))
        else (s, .refused .format)

/-! ### ACK, YIELD, RESUME, CLEAR_DISCONNECT (R17, R18, R76, R143) -/

/-- ACK at intake (R75, R76). -/
def State.takeAck (s : State) (n : SlotId) : State × Ending :=
  match indexOf 8 (slotParam s.mem n 2) with
  | none => (s, .refused .badNode)
  | some node =>
    if ackAccepted s node (BitVec.ofNat 16 (s.mem.read16 (slotAddr n + 4))) then
      let t := s.acknowledge node (slotParam s.mem n 6)
      (t, .done (le16 (recordCount t node) ++ [t.nodes[node].accrued]))
    else (s, .refused .stale)

/-- The yield flag of a node is set or cleared, in the topology unit and in the yield-flag byte of the record
alone; then the topology unit regroups (R17, R18). -/
def State.setYield (s : State) (node : NodeId) (flag : Bool) : State :=
  let s1 := { s with yields := if flag then s.yields ||| bit8 node.val else s.yields &&& ~~~bit8 node.val }
  (s1.poke (recordAddr node + 0x1C) (flagByte flag)).regroup

/-- YIELD and RESUME at intake (R17, R18). -/
def State.takeYield (s : State) (n : SlotId) (flag : Bool) : State × Ending :=
  match indexOf 8 (slotParam s.mem n 2) with
  | none => (s, .refused .badNode)
  | some node =>
    let before := has8 s.yields node.val
    let t := s.setYield node flag
    (t, .done [flagByte before, byteOf (leaderOf t node).val])

/-- CLEAR_DISCONNECT at intake (R143). -/
def State.takeClear (s : State) (n : SlotId) : State × Ending :=
  match indexOf 4 (slotParam s.mem n 2) with
  | none => (s, .refused .badChannel)
  | some c =>
    if s.safety[c].disconnected = false then (s, .done (clearResult s false false))
    else if lineAsserted s c then (s, .refused .lineActive)
    else
      let t := (s.clearDisconnect c).regroup
      (t, .done (clearResult t true false))

/-! ### Intake (R120, R121) -/

/-- Steps 1 and 2 of an intake: the slot is TAKEN, stamped, and its result area made ready (R120). -/
def State.stampSlot (s : State) (n : SlotId) : State :=
  let a := slotAddr n
  let s1 := (s.setSlot n .taken).poke a (byteOf SlotState.taken.code)
  let s2 := (s1.pokes (a + 0x10) (le16 s.intakeSeq)).pokes (a + 0x13) ([0xFF, 0, 0, 0, 0] ++ List.replicate 40 0)
  { s2 with intakeSeq := s2.intakeSeq + 1 }

/-- Steps 3 and 4: validation, and the order carried out, placed or refused (R121, R122). -/
def State.carryOut (s : State) (n : SlotId) : State × Ending :=
  if s.mode = .safeStop then (s, .refused .safeStop)
  else
    match OrderKind.ofByte (slotParam s.mem n 1) with
    | none => (s, .refused .badKind)
    | some .spot => s.takeSpot n
    | some .selfcheck => s.takeSelfcheck n
    | some .snapshot => s.takeContext n .snapshot
    | some .restore => s.takeContext n .restore
    | some .release => s.takeContext n .release
    | some .ack => s.takeAck n
    | some .yieldNode => s.takeYield n true
    | some .resumeNode => s.takeYield n false
    | some .clearDisconnect => s.takeClear n

/-- The end of an intake: the slot completes unless the order waits (R123). -/
def State.conclude (r : State × Ending) (n : SlotId) : State :=
  match r.2 with
  | .waits => r.1
  | .done kind => r.1.completeDone n kind
  | .refused why => r.1.refuseSlot n why

/-- The intake of one offered slot (R120). -/
def State.intakeSlot (s : State) (n : SlotId) : State := State.conclude ((s.stampSlot n).carryOut n) n

end Sys2Proof.Machine
end

