-- ==== Sys2Proof/Machine/Port.lean ====
section
/-! DEFINITION. The host port and the write-watch unit (chapter 9): transactions, reads and writes of the exchange
memory and of the registers, and the handling of a write transaction's end. -/

namespace Sys2Proof.Machine

/-! ### Transactions (R158, R159, R160) -/

/-- The status byte is shifted out, and ERR is clear after it (R159, R160). DESIGN CHOICE, log entry 8. -/
def State.beginTransaction (s : State) : State := { s with sdo := [statusByte s], err := false }

/-- A transaction is dropped whole while the last write transaction's end is not handled (R159); during STARTING
transactions are served. DEDUCED, log entry 6. -/
def dropped (s : State) : Bool := s.endPending && !s.starting

/-- A transaction of `count` bytes after its command: dropped, it shifts out 0x00 after the status byte; else `serve`
acts. -/
def State.transact (s : State) (count : Nat) (serve : State → State) : State :=
  if dropped s then { s.beginTransaction with sdo := s.beginTransaction.sdo ++ List.replicate count 0 } else serve s.beginTransaction

/-- 0x00 is shifted out `n` times (R158). -/
def State.shiftZeros (s : State) (n : Nat) : State := { s with sdo := s.sdo ++ List.replicate n 0 }

/-- A transaction whose two address bytes are complete, with `count` data bytes after them (R158). -/
def State.transactFrom (s : State) (count : Nat) (serve : State → State) : State :=
  s.transact (count + 2) fun t => serve (t.shiftZeros 2)

/-- A transaction that ends before its address is complete, with `count` whole address bytes: nothing but its shifting
out (R158). -/
def State.transactCut (s : State) (count : Nat) : State := s.transact count fun t => t.shiftZeros count

/-- ERR is set (R160). -/
def State.setErr (s : State) : State := { s with err := true }

/-- One byte shifted out. -/
def State.shift (s : State) (b : Byte) : State := { s with sdo := s.sdo ++ [b] }

/-- The starting address of an address field: its low 12 bits (R158). -/
def startAddress (a : BitVec 16) : Nat := a.toNat % 4096

/-! ### Memory reads (R42, R156, R164) -/

/-- The channel whose live view ends at an address (R42). -/
def viewEnd (a : Nat) : Option Chan := allChans.find? fun c => decide (viewAddr c + 0x1F = a)

/-- The uptime latch before a read byte: a read of the first byte latches the present count (R164). -/
def State.latchUptime (s : State) (a : Nat) : State := if a = 0x04 then { s with uptimeLatch := some s.uptime } else s

/-- What a read byte does after it is shifted: the last uptime byte releases the latch, the last byte of a latched
view unlatches it and clears its request byte (R42, R164). -/
def State.afterRead (s : State) (a : Nat) : State :=
  if a = 0x07 then { s with uptimeLatch := none }
  else
    match viewEnd a with
    | some c =>
      if s.seqs[c].viewLatched then s.unlatch c else s
    | none => s

/-- One byte of a memory read (R156, R160, R168). -/
def State.readByte (s : State) (a : Nat) : State :=
  if s.starting ∨ Config.memorySize ≤ a then (s.shift 0).setErr
  else
    let s1 := s.latchUptime a
    (s1.shift (exchangeByte s1 a)).afterRead a

/-- The data phase of a memory read: addresses rise and do not wrap, and each byte acts at its first bit (R158).
DEDUCED, log entry 23. -/
def State.readBytes : Nat → Nat → State → State
  | 0, _, s => s
  | n + 1, a, s => State.readBytes n (a + 1) (s.readByte a)

/-! ### Memory writes (R118, R156, R161) -/

/-- The slot a byte of the slot area lies in, and its offset (section 11.6). -/
def slotOf (a : Nat) : SlotId := ⟨(a - 0x500) / 64 % 8, Nat.mod_lt _ (by decide)⟩

/-- The host may write the byte at an address (R118, R156). -/
def hostWritable (s : State) (a : Nat) : Bool :=
  if a < 0x040 then decide (0x10 ≤ a) && decide (a ≤ 0x14)
  else if a < 0x100 then true
  else if a < 0x500 then !(decide (0x28 ≤ a % 64) && decide (a % 64 ≤ 0x2B))
  else if a < 0x700 then decide (a % 64 < 0x10) && decide (s.slots[slotOf a] ≠ .taken)
  else if a < 0x880 then false
  else if a < 0x900 then decide (a % 32 = 0)
  else decide (a < Config.memorySize)

/-- The write-watch unit records a written byte (R161). -/
def Watch.record (w : Watch) (a : Nat) (b : Byte) : Watch :=
  if a < 0x040 then
    { w with news :=
      { done := if a = 0x10 then w.news.done ||| b else w.news.done
        nodeState := if a = 0x11 then w.news.nodeState ||| b else w.news.nodeState
        nodeStale := if a = 0x12 then w.news.nodeStale ||| b else w.news.nodeStale
        chanCond := if a = 0x13 then w.news.chanCond ||| b else w.news.chanCond
        chanSafety := if a = 0x14 then w.news.chanSafety ||| b else w.news.chanSafety } }
  else if a < 0x060 then w
  else if a < 0x080 then { w with nodes := w.nodes ||| bit8 ((a - 0x060) / 4) }
  else if a < 0x0C0 then { w with links := w.links ||| (1#16 <<< ((a - 0x080) / 4)) }
  else if a < 0x100 then { w with wiring := w.wiring ||| (1#4 <<< ((a - 0x0C0) / 16)) }
  else if a < 0x500 then
    if a % 64 = 0 then { w with plans := upd w.plans ⟨(a - 0x100) / 64 % 16, Nat.mod_lt _ (by decide)⟩ (some b) } else w
  else if a < 0x700 then
    if a % 64 = 0 then { w with slots := upd w.slots (slotOf a) (some b) } else w
  else if a < 0x880 then w
  else if a < 0x900 then
    if a % 32 = 0 then { w with views := upd w.views ⟨(a - 0x880) / 32 % 4, Nat.mod_lt _ (by decide)⟩ (some b) } else w
  else w

/-- One byte of a memory write: discarded with ERR, or stored and watched; a news-mask byte is watched only, since
its ones clear (R156, R160, R161, R163). -/
def State.writeByte (s : State) (a : Nat) (b : Byte) : State :=
  if s.starting = true ∨ hostWritable s a = false then s.setErr
  else
    let s1 := if a < 0x040 then s else s.poke a b
    { s1 with watch := s1.watch.record a b }

/-- The data phase of a memory write (R158). -/
def State.writeBytes : List Byte → Nat → State → State
  | [], _, s => s
  | b :: rest, a, s => State.writeBytes rest (a + 1) ((s.writeByte a b).shift 0)

/-- A memory write up to CSN's rise; its end then waits to be handled, but during STARTING it has no effect (R158,
R159, R168). -/
def State.memoryWriteBody (s : State) (a : Nat) (data : List Byte) : State :=
  let t := State.writeBytes data a { s with watch := Watch.empty }
  { t with endPending := !t.starting }

/-! ### The end of a write transaction (R162) -/

/-- Step 1: the news-mask bits written as ones are cleared (R163). -/
def State.clearNews (s : State) (w : News) : State :=
  { s with news :=
    { done := s.news.done &&& ~~~w.done
      nodeState := s.news.nodeState &&& ~~~w.nodeState
      nodeStale := s.news.nodeStale &&& ~~~w.nodeStale
      chanCond := s.news.chanCond &&& ~~~w.chanCond
      chanSafety := s.news.chanSafety &&& ~~~w.chanSafety } }

/-- One plan status write: READY publishes the plan and writes its check field, any other value withdraws it (R5,
R180). -/
def State.takePlan (s : State) (p : PlanId) (status : Byte) : State :=
  if status = 1 then
    let r := readPlan s.mem p
    ({ s with plans := upd s.plans p r.1 }).pokes (planAddr p + 0x28) (le32 r.2)
  else { s with plans := upd s.plans p { s.plans[p] with ready := false } }

/-- Step 2: every plan status write (R162). -/
def State.takePlans (s : State) (w : Watch) : State :=
  forEach allPlans (fun p t => match w.plans[p] with | some b => t.takePlan p b | none => t) s

/-- Step 3: the disconnect settings of each wiring record written, re-evaluated (R139, R162).
DEDUCED, log entry 20. -/
def State.takeDisconnect (s : State) (w : Watch) : State :=
  let chans := allChans.filter fun c => w.wiring.getLsbD c.val
  let s1 := forEach chans
    (fun c t => t.setSafety c { t.safety[c] with discMask := readDiscMask t.mem c, discMode := readDiscMode t.mem c }) s
  s1.reevaluate chans

/-- Step 4: the working copies of the entries written (R1, R3, R4). -/
def State.takeTopology (s : State) (w : Watch) : State :=
  { s with
    nodePlan := Vector.ofFn fun n => if has8 w.nodes n.val then readNodePlan s.mem n else s.nodePlan[n]
    links := Vector.ofFn fun i => if w.links.getLsbD i.val then readLink s.mem i else s.links[i]
    wiring := Vector.ofFn fun c => if w.wiring.getLsbD c.val then readWiring s.mem c else s.wiring[c] }

/-- The transaction wrote a field of steps 2 to 4, so one regroup follows (R3, R162). -/
def Watch.regroups (w : Watch) : Bool :=
  decide (w.nodes ≠ 0) || decide (w.links ≠ 0) || decide (w.wiring ≠ 0) || allPlans.any fun p => w.plans[p].isSome

/-- One slot state write (R119). -/
def State.takeSlotState (s : State) (n : SlotId) (b : Byte) : State :=
  match s.slots[n] with
  | .taken => s
  | st =>
    if b = offeredCode then s.intakeSlot n
    else if b = 0 then s.setSlot n .free
    else s.poke (slotAddr n) (byteOf st.code)

/-- Step 5: every slot state write, in ascending slot number (R119, R120). -/
def State.takeSlots (s : State) (w : Watch) : State :=
  forEach allNodes (fun n t => match w.slots[n] with | some b => t.takeSlotState n b | none => t) s

/-- The bytes 0x01 to 0x1F of a live view (R41, section 11.8). -/
def viewBytes (s : State) (c : Chan) : List Byte :=
  let q := s.seqs[c]
  let series : BitVec 16 :=
    match groupOfInjector s c with
    | some l => match s.groups[l] with | some g => g.seriesCount | none => 0
    | none => 0
  [byteOf q.coupling.code, byteOf q.run.code, byteOf q.phase.code, byteOf q.polarity.code, 0]
    ++ leNat q.windows.length ++ leNat q.elapsed ++ leInt q.lastAverage ++ leNat q.latestUb ++ le16 series
    ++ List.replicate 16 0

/-- A live-view request: an unlatched view takes the present values and latches (R41). -/
def State.takeView (s : State) (c : Chan) : State :=
  if s.seqs[c].viewLatched then s
  else (s.pokes (viewAddr c + 1) (viewBytes s c)).setSeq c { s.seqs[c] with viewLatched := true }

/-- Step 6: every request byte whose last written value is 1 (R41, R162). -/
def State.takeViews (s : State) (w : Watch) : State :=
  forEach allChans (fun c t => if w.views[c] = some 1 then t.takeView c else t) s

/-- The handling of a memory write transaction's end, in R162's order. DESIGN CHOICE, log entry 10. -/
def State.handleEnd (s : State) : State :=
  let w := s.watch
  let running := runningCount s
  let s1 := { s with endPending := false, watch := Watch.empty }
  let s2 := ((s1.clearNews w.news).takePlans w).takeDisconnect w
  let s3 := s2.takeTopology w
  let s4 := if w.regroups then s3.regroupFrom running false else s3
  (s4.takeSlots w).takeViews w

/-! ### Registers (R165, R166) -/

/-- HOLD of a CONTROL write: set starts a hold or continues one; clear ends one by host release (R71, R73). -/
def State.takeHold (s : State) (hold : Bool) : State :=
  if hold then (if s.hold.isSome then s else { s with hold := some Config.holdLimit })
  else if s.hold.isSome then s.endHold
  else s

/-- A CONTROL write (R74, R100, R166). -/
def State.writeControl (s : State) (v : Byte) : State :=
  let s1 := { s with holdExpired := false }
  if v.getLsbD 7 ∧ s.mode ≠ .safeStop ∧ s.starting = false then s1.doSoftReset
  else (s1.takeHold (v.getLsbD 2)).requestMode (v.setWidth 2)

/-- One byte of a register read: its value, and the effect of a POLL read (R160, R165, R172). -/
def State.readRegister (s : State) (a : Nat) : State :=
  match a with
  | 0 => s.shift Config.identPart
  | 1 => s.shift Config.identRevision
  | 2 => s.shift (statusRegister s)
  | 3 => s.shift (controlRegister s)
  | 4 => s.shift s.attn.mask
  | 5 => s.shift s.attn.pending
  | 6 => s.shift s.attn.inService
  | 7 => { s with attn := s.attn.poll.2 }.shift s.attn.poll.1
  | _ => (s.shift 0).setErr

/-- The data phase of a register read: each byte, POLL among them, acts at its first bit (R165, R172).  DEDUCED, log entry
23. -/
def State.readRegisters : Nat → Nat → State → State
  | 0, _, s => s
  | n + 1, a, s => State.readRegisters n (a + 1) (s.readRegister a)

/-- One byte of a register write (R160, R165, R171, R173). -/
def State.writeRegister (s : State) (a : Nat) (b : Byte) : State :=
  match a with
  | 3 => s.writeControl b
  | 4 => { s with attn := { s.attn with mask := b } }
  | 7 => { s with attn := s.attn.pollWrite b }
  | _ => s.setErr

/-- The data phase of a register write: each byte is taken as it arrives, against the state then (R165, R167). -/
def State.writeRegisters : List Byte → Nat → State → State
  | [], _, s => s
  | b :: rest, a, s => State.writeRegisters rest (a + 1) ((s.writeRegister a b).shift 0)

/-! ### Whole transactions -/

/-- A memory write transaction of given bytes, its end handled where it was served: an order offered by the host
(R118, R120, R162). DESIGN CHOICE, log entry 8. -/
def State.offer (s : State) (n : SlotId) (bytes : List Byte) : State :=
  if dropped s then s.transactFrom bytes.length id
  else
    let t := s.transactFrom bytes.length fun u => u.memoryWriteBody (slotAddr n) bytes
    if t.starting then t else t.handleEnd

/-- The host part of a slot that offers an order with its target and the parameter bytes after it (section 11.6). -/
def offerBytes (kind : OrderKind) (target : Byte) (more : List Byte) : List Byte :=
  [offeredCode, byteOf kind.code, target] ++ more

end Sys2Proof.Machine
end

