-- ==== Sys2Proof/Machine/HostPort.lean ====
section
/-! DEFINITION. Meanings of the serial-port commands: memory and register transactions, and the end of a memory
write transaction (chapter 9). -/

namespace Sys2Proof.Machine

/-- The answer of a step. -/
abbrev Answer := Host.Outcome State Fault Refusal

/-- MEMORY_READ (R158, R160, R164, R42). -/
def execMemoryRead (addr : Option (BitVec 16)) (count : Nat) (s : State) : Answer :=
  match addr with
  | some a => .next (s.transactFrom count fun t => State.readBytes count (startAddress a) t)
  | none => .next (s.transactCut count)

/-- MEMORY_WRITE (R118, R156, R158, R161). -/
def execMemoryWrite (addr : Option (BitVec 16)) (data : List Byte) (s : State) : Answer :=
  match addr with
  | some a => .next (s.transactFrom data.length fun t => t.memoryWriteBody (startAddress a) data)
  | none => .next (s.transactCut data.length)

/-- REGISTER_READ (R158, R165, R172). -/
def execRegisterRead (addr : Option (BitVec 16)) (count : Nat) (s : State) : Answer :=
  match addr with
  | some a => .next (s.transactFrom count fun t => State.readRegisters count (startAddress a) t)
  | none => .next (s.transactCut count)

/-- REGISTER_WRITE (R158, R160, R165). -/
def execRegisterWrite (addr : Option (BitVec 16)) (data : List Byte) (s : State) : Answer :=
  match addr with
  | some a => .next (s.transactFrom data.length fun t => State.writeRegisters data (startAddress a) t)
  | none => .next (s.transactCut data.length)

/-- UNKNOWN_COMMAND: ERR, and 0x00 for every further byte (R158, R160).  A code that is one of the four is a
transaction that ended before its address. DEDUCED, log entry 20. -/
def execUnknownCommand (code : Byte) (rest : Nat) (s : State) : Answer :=
  if knownCommand code then .next (s.transactCut rest)
  else .next (s.transact rest fun t => t.setErr.shiftZeros rest)

/-- WRITE_TRANSACTION_END (R162): nothing is waiting where no memory write came before. -/
def execWriteTransactionEnd (s : State) : Answer := .next (if s.endPending then s.handleEnd else s)

end Sys2Proof.Machine
end

