-- ==== Sys2Proof/Machine/LineCommands.lean ====
section
/-! DEFINITION. Meanings of the hardware inputs: hard reset, the end of start-up, the disconnect lines and STOP
(R139, R150, R151, R167, R168). -/

namespace Sys2Proof.Machine

/-- HARD_RESET: every field as at reset; the queue of commands and the order of their steps are not the part's (R167).
DESIGN CHOICE, log entries 1 and 24. -/
def execHardReset (s : State) : Answer := .next { State.reset with pending := s.pending, cuts := s.cuts }

/-- The start-up verifies are judged together: a closed switch makes its channel OFFLINE and stands in the mask; all
four closed enter SAFE_STOP (R150). -/
def State.judgeStartup (s : State) (closed : BitVec 4) : State :=
  let s1 := forEach allChans
    (fun c t =>
      let x := { t.safety[c] with verify := none }
      if closed.getLsbD c.val then (t.setSafety c { x with health := .offline }).failVerify c else t.setSafety c x) s
  if closed = 0xF then s1.enterSafeStop .startupFailed none else s1

/-- The lines are sampled; an asserted STOP enters SAFE_STOP (R150). -/
def State.sampleLines (s : State) (lines : BitVec 4) : State :=
  let s1 := { s with lines := lines }
  if lines.getLsbD 3 then s1.enterSafeStop .stopLine none else s1

/-- A mode request taken during STARTING stands as the mode once start-up is over (R166); CONTROL never holds a
request for SAFE_STOP (R100). DEDUCED, log entry 20. -/
def State.adoptRequest (s : State) : State :=
  if s.mode = .safeStop ∨ s.request = .safeStop ∨ s.request = s.mode then s else (s.changeMode s.request).schedule

/-- News and level 6 of each channel that start-up made OFFLINE, when STARTING clears (R150). -/
def State.startupNews (s : State) (closed : BitVec 4) : State :=
  forEach (allChans.filter fun c => closed.getLsbD c.val) (fun c t => (t.newsChanSafety c.val).raise 6) s

/-- STARTUP_VERIFY_EXPIRY (R150, R168). -/
def execStartupVerifyExpiry (closed lines : BitVec 4) (s : State) : Answer :=
  if s.starting then
    let t := (s.judgeStartup closed).sampleLines lines
    .next (({ t with starting := false }.adoptRequest).startupNews closed)
  else .next s

/-- DISCONNECT_LINE_CHANGE (R139, R140, R142). -/
def execDisconnectLineChange (line : Fin 3) (asserted : Bool) (s : State) : Answer :=
  .next (s.lineChange line asserted)

/-- STOP_LINE: an assertion, from the end of start-up on (R151). -/
def execStopLine (s : State) : Answer :=
  .next (if s.starting ∨ s.lines.getLsbD 3 = true then s
    else ({ s with lines := s.lines ||| 8 }).enterSafeStop .stopLine none)

/-- STOP_LINE_RELEASE: the header's line states change, SAFE_STOP stays (R151). -/
def execStopLineRelease (s : State) : Answer :=
  .next (if s.starting then s else { s with lines := s.lines &&& 7 })

end Sys2Proof.Machine
end

