-- ==== Sys2Proof/Machine/MeasureCommands.lean ====
section
/-! DEFINITION. Meanings of the events of a measurement: samples, window ends, polarity edges, computations and
results (chapters 2, 3 and 5). -/

namespace Sys2Proof.Machine

/-- SAMPLE (R25, R26), from the end of start-up on. What fell due at the sample before and has not been taken yet
comes first, in R30's order. -/
def execSample (c : Chan) (um : BitVec 16) (ub : Int) (s : State) : Answer :=
  if s.starting then .next s
  else
    let t := s.settleDue c
    .next (t.setSeq c (t.seqs[c].takeSample um ub))

/-- WINDOW_END (R26 to R29). -/
def execWindowEnd (c : Chan) (s : State) : Answer := .next (s.windowEnd c)

/-- HALF_MAX: the window this sample ends is completed first (R30). -/
def execHalfMax (c : Chan) (s : State) : Answer := .next ((s.windowEnd c).halfMax c)

/-- SYNC_EDGE: the wait of every channel in WAIT_SYNC ends, without a flag (R29). -/
def execSyncEdge (s : State) : Answer :=
  .next (forEach (allChans.filter fun c => s.seqs[c].phase = .waitSync) (fun c t => t.endWait c none) s)

/-- SYNC_TIMEOUT (R29). -/
def execSyncTimeout (c : Chan) (s : State) : Answer :=
  .next (if s.seqs[c].syncTimer.isSome then s.endWait c (some .syncMissed) else s)

/-- SELFCHECK_HALF_END (R40). -/
def execSelfcheckHalfEnd (c : Chan) (s : State) : Answer := .next (s.selfcheckHalfEnd c)

/-- The arithmetic unit, if idle, takes up the oldest waiting triple (R45). -/
def State.takeUp (s : State) : State :=
  match s.computing, s.triples with
  | none, t :: rest => { s with computing := some t, triples := rest }
  | _, _ => s

/-- COMPUTATION_START (R45). -/
def execComputationStart (s : State) : Answer := .next s.takeUp

/-- A result handed on: to the self-check evaluation or to the condition unit's queue (R57). -/
def State.handResult (s : State) (r : Result) : State :=
  if r.source = .selfcheck then s.evaluateCheck r else { s with results := s.results ++ [r] }

/-- COMPUTATION_COMPLETE: the result is handed on and the oldest waiting triple is taken up (R45, R57).
DEDUCED, log entry 11. -/
def execComputationComplete (s : State) : Answer :=
  let s1 := s.takeUp
  match s1.computing with
  | some t => .next (({ s1 with computing := none }).handResult (compute t)).takeUp
  | none => .next s1

/-- The context record a result gives (R86, R88). -/
def recordOf (r : Result) : CtxRecord :=
  { conds := r.conds, highest := highestOf r.conds, p1 := r.p1, p2 := r.p2, p3 := r.p3, dA := r.dA
    off2 := r.off2, ub := r.ub, planId := r.planId }

/-- Step 2: the channel's context takes the result, unless it is HELD (R86). -/
def State.updateContext (s : State) (r : Result) : State :=
  let q := s.seqs[r.chan]
  if q.ctx = .held then s else s.setSeq r.chan { q with ctx := .idle, record := recordOf r }

/-- Step 4: the REPORT effects (R83). -/
def State.reportResult (s : State) (r : Result) : State := (s.newsChanCond r.chan.val).raise 3

/-- Step 6: a SPOT's result completes its FINISHING order (R134). -/
def State.completeSpot (s : State) (r : Result) : State :=
  match r.slot with
  | none => s
  | some n =>
    match s.intake.find? fun o => decide (o.slot = n) && decide (o.phase = OrderPhase.finishing) with
    | some ⟨_, .spot _ plan, _, _, _⟩ => s.completeDone n (spotDone r plan)
    | _ => s

/-- Steps 3 to 6 of a result whose context record is updated: the node records, then at the notice of that write the
REPORT and HOLD effects, and last a SPOT's completion (R82). -/
def State.finishResult (s : State) (r : Result) : State :=
  let cls := actionClass r.conds r.actions
  let s1 := s.applyResult r
  let s2 := if cls = .ignore then s1 else s1.reportResult r
  let s3 := if cls = .hold then s2.holdChannel r.chan (recordOf r) else s2
  if r.source = .spot then s3.completeSpot r else s3

/-- The oldest waiting result is taken and the context updated (steps 1 and 2); the rest follows at once, or, where other
commands fall between (the next entry of `cuts`), at the next CONDITION_RESULT (R82, R92). -/
def State.takeResult (s : State) (r : Result) (rest : List Result) : State :=
  let t := { s with results := rest, cuts := s.cuts.tail }.updateContext r
  if s.cuts.head? = some true then { t with taken := some r } else t.finishResult r

/-- CONDITION_RESULT: the result in progress is finished; where none is, the oldest waiting one is taken (R82).
DEDUCED, log entry 24. -/
def execConditionResult (s : State) : Answer :=
  match s.taken, s.results with
  | some r, _ => .next ({ s with taken := none }.finishResult r)
  | none, r :: rest => .next (s.takeResult r rest)
  | none, [] => .next s

end Sys2Proof.Machine
end

