-- ==== Sys2Proof/Machine/OrderCommands.lean ====
section
/-! DEFINITION. Meanings of the nine order kinds: each command is the write transaction by which the host offers
the order in a slot, with its end and so its intake (R118 to R122). -/

namespace Sys2Proof.Machine

/-- SPOT (R131, R132). -/
def execSpot (slot : SlotId) (node plan : Byte) (s : State) : Answer :=
  .next (s.offer slot (offerBytes .spot node [plan]))

/-- SELFCHECK (R135, R147). -/
def execSelfcheck (slot : SlotId) (chan : Byte) (s : State) : Answer :=
  .next (s.offer slot (offerBytes .selfcheck chan []))

/-- SNAPSHOT (R91). -/
def execSnapshot (slot : SlotId) (chan : Byte) (s : State) : Answer :=
  .next (s.offer slot (offerBytes .snapshot chan []))

/-- RESTORE (R94, R95, R96). -/
def execRestore (slot : SlotId) (chan : Byte) (s : State) : Answer :=
  .next (s.offer slot (offerBytes .restore chan []))

/-- RELEASE (R93). -/
def execRelease (slot : SlotId) (chan : Byte) (s : State) : Answer :=
  .next (s.offer slot (offerBytes .release chan []))

/-- ACK (R75, R76). -/
def execAck (slot : SlotId) (node : Byte) (count : BitVec 16) (mask : Byte) (s : State) : Answer :=
  .next (s.offer slot (offerBytes .ack node ([0] ++ le16 count ++ [mask])))

/-- YIELD (R17). -/
def execYield (slot : SlotId) (node : Byte) (s : State) : Answer :=
  .next (s.offer slot (offerBytes .yieldNode node []))

/-- RESUME (R18). -/
def execResume (slot : SlotId) (node : Byte) (s : State) : Answer :=
  .next (s.offer slot (offerBytes .resumeNode node []))

/-- CLEAR_DISCONNECT (R143). -/
def execClearDisconnect (slot : SlotId) (chan : Byte) (s : State) : Answer :=
  .next (s.offer slot (offerBytes .clearDisconnect chan []))

end Sys2Proof.Machine
end

