-- ==== Sys2Proof/Machine/RegisterCommands.lean ====
section
/-! DEFINITION. Meanings of the register writes and reads that have a behaviour of their own: CONTROL, ATTN_MASK
and POLL (R165, R166, R171 to R173). Each is a register transaction of one byte. -/

namespace Sys2Proof.Machine

/-- A CONTROL byte: mode field, HOLD and SOFT_RESET (R165). -/
def controlByte (mode : BitVec 2) (hold reset : Bool) : Byte :=
  mode.setWidth 8 ||| (if hold then 4 else 0) ||| (if reset then 0x80 else 0)

/-- MODE_REQUEST (R100). -/
def execModeRequest (mode : BitVec 2) (hold : Bool) (s : State) : Answer :=
  .next (s.transactFrom 1 fun t => (t.writeControl (controlByte mode hold false)).shift 0)

/-- HOLD_START (R71). -/
def execHoldStart (mode : BitVec 2) (s : State) : Answer :=
  .next (s.transactFrom 1 fun t => (t.writeControl (controlByte mode true false)).shift 0)

/-- HOST_RELEASE (R73). -/
def execHostRelease (mode : BitVec 2) (s : State) : Answer :=
  .next (s.transactFrom 1 fun t => (t.writeControl (controlByte mode false false)).shift 0)

/-- SOFT_RESET (R166). -/
def execSoftReset (mode : BitVec 2) (hold : Bool) (s : State) : Answer :=
  .next (s.transactFrom 1 fun t => (t.writeControl (controlByte mode hold true)).shift 0)

/-- ATTN_MASK (R171). -/
def execAttnMask (mask : Byte) (s : State) : Answer :=
  .next (s.transactFrom 1 fun t => (t.writeRegister 4 mask).shift 0)

/-- POLL: the level is acknowledged at the byte's first bit (R172). DEDUCED, log entry 23. -/
def execPoll (s : State) : Answer := .next (s.transactFrom 1 fun t => t.readRegister 7)

/-- SPECIFIC_END (R173). -/
def execSpecificEnd (level : Byte) (s : State) : Answer :=
  .next (s.transactFrom 1 fun t => (t.writeRegister 7 level).shift 0)

/-- NON_SPECIFIC_END (R173). -/
def execNonSpecificEnd (s : State) : Answer :=
  .next (s.transactFrom 1 fun t => (t.writeRegister 7 8).shift 0)

end Sys2Proof.Machine
end

