-- ==== Sys2Proof/Machine/TimerCommands.lean ====
section
/-! DEFINITION. Meanings of the timer events: staleness check, hold limit, settle, park and detach-verify timers.
An expiry finds its timer running, or has no effect. -/

namespace Sys2Proof.Machine

/-- STALENESS_CHECK, from the end of start-up on (R69, R70). -/
def execStalenessCheck (s : State) : Answer := .next (if s.starting then s else s.stalenessCheck)

/-- HOLD_LIMIT_EXPIRY (R74). -/
def execHoldLimitExpiry (s : State) : Answer :=
  .next (if s.hold.isSome then { s.endHold with holdExpired := true } else s)

/-- SETTLE_EXPIRY: the group becomes measurable and the scheduler acts (R12, R103, R106). -/
def execSettleExpiry (l : GroupId) (s : State) : Answer :=
  match s.groups[l] with
  | some g =>
    .next (if g.settle.isSome then (s.modGroup l fun g => { g with settle := none, measurable := true }).schedule else s)
  | none => .next s

/-- PARK_TIMER_EXPIRY: a turn is due (R113). -/
def execParkTimerExpiry (s : State) : Answer :=
  match s.park with
  | .running _ => .next ({ s with park := .due }.schedule)
  | .stopped => .next s
  | .due => .next s

/-- DETACH_VERIFY_EXPIRY (R144, R145). -/
def execDetachVerifyExpiry (c : Chan) (closed : Bool) (s : State) : Answer := .next (s.verifyExpiry c closed)

end Sys2Proof.Machine
end

