-- ==== Sys2Proof/Machine/Dispatch.lean ====
section
/-! DEFINITION. One arm per constructor of Instr: the effect of a command on everything but the queue. -/

namespace Sys2Proof.Machine

def exec (i : Instr) (s : State) : Host.Outcome State Fault Refusal :=
  match i with
  | .hardReset => Sys2Proof.Machine.execHardReset s
  | .startupVerifyExpiry closed lines => Sys2Proof.Machine.execStartupVerifyExpiry closed lines s
  | .memoryRead addr count => Sys2Proof.Machine.execMemoryRead addr count s
  | .memoryWrite addr data => Sys2Proof.Machine.execMemoryWrite addr data s
  | .registerRead addr count => Sys2Proof.Machine.execRegisterRead addr count s
  | .registerWrite addr data => Sys2Proof.Machine.execRegisterWrite addr data s
  | .unknownCommand code rest => Sys2Proof.Machine.execUnknownCommand code rest s
  | .writeTransactionEnd => Sys2Proof.Machine.execWriteTransactionEnd s
  | .spot slot node plan => Sys2Proof.Machine.execSpot slot node plan s
  | .selfcheck slot chan => Sys2Proof.Machine.execSelfcheck slot chan s
  | .snapshot slot chan => Sys2Proof.Machine.execSnapshot slot chan s
  | .restore slot chan => Sys2Proof.Machine.execRestore slot chan s
  | .release slot chan => Sys2Proof.Machine.execRelease slot chan s
  | .ack slot node count mask => Sys2Proof.Machine.execAck slot node count mask s
  | .yieldNode slot node => Sys2Proof.Machine.execYield slot node s
  | .resumeNode slot node => Sys2Proof.Machine.execResume slot node s
  | .clearDisconnect slot chan => Sys2Proof.Machine.execClearDisconnect slot chan s
  | .modeRequest mode hold => Sys2Proof.Machine.execModeRequest mode hold s
  | .holdStart mode => Sys2Proof.Machine.execHoldStart mode s
  | .hostRelease mode => Sys2Proof.Machine.execHostRelease mode s
  | .softReset mode hold => Sys2Proof.Machine.execSoftReset mode hold s
  | .attnMask mask => Sys2Proof.Machine.execAttnMask mask s
  | .poll => Sys2Proof.Machine.execPoll s
  | .specificEnd level => Sys2Proof.Machine.execSpecificEnd level s
  | .nonSpecificEnd => Sys2Proof.Machine.execNonSpecificEnd s
  | .sample chan um ub => Sys2Proof.Machine.execSample chan um ub s
  | .windowEnd chan => Sys2Proof.Machine.execWindowEnd chan s
  | .halfMax chan => Sys2Proof.Machine.execHalfMax chan s
  | .syncEdge => Sys2Proof.Machine.execSyncEdge s
  | .syncTimeout chan => Sys2Proof.Machine.execSyncTimeout chan s
  | .selfcheckHalfEnd chan => Sys2Proof.Machine.execSelfcheckHalfEnd chan s
  | .computationStart => Sys2Proof.Machine.execComputationStart s
  | .computationComplete => Sys2Proof.Machine.execComputationComplete s
  | .conditionResult => Sys2Proof.Machine.execConditionResult s
  | .stalenessCheck => Sys2Proof.Machine.execStalenessCheck s
  | .holdLimitExpiry => Sys2Proof.Machine.execHoldLimitExpiry s
  | .settleExpiry leader => Sys2Proof.Machine.execSettleExpiry leader s
  | .parkTimerExpiry => Sys2Proof.Machine.execParkTimerExpiry s
  | .detachVerifyExpiry chan closed => Sys2Proof.Machine.execDetachVerifyExpiry chan closed s
  | .disconnectLineChange line asserted => Sys2Proof.Machine.execDisconnectLineChange line asserted s
  | .stopLine => Sys2Proof.Machine.execStopLine s
  | .stopLineRelease => Sys2Proof.Machine.execStopLineRelease s

end Sys2Proof.Machine
end

