-- ==== Sys2Proof/Machine/Ticks.lean ====
section
/-! DEFINITION. One millisecond with no command waiting: the uptime counter and the running timers (R164, R12, R29,
R71, R113, R144).  An expiry itself is a command of the table. -/

namespace Sys2Proof.Machine

/-- One millisecond of a running timer; at 0 its expiry is due. -/
def countDown (t : Option Nat) : Option Nat := t.map fun n => n - 1

/-- One millisecond of the park timer (R113). -/
def ParkTimer.countDown : ParkTimer → ParkTimer
  | .running n => .running (n - 1)
  | .stopped => .stopped
  | .due => .due

/-- One millisecond of the part without a command. DESIGN CHOICE, log entry 2. -/
def State.tick (s : State) : State :=
  { s with
    uptime := s.uptime + 1
    hold := Machine.countDown s.hold
    park := s.park.countDown
    groups := Vector.ofFn fun l => s.groups[l].map fun g => { g with settle := Machine.countDown g.settle }
    seqs := Vector.ofFn fun c => { s.seqs[c] with syncTimer := Machine.countDown s.seqs[c].syncTimer }
    safety := Vector.ofFn fun c => { s.safety[c] with verify := Machine.countDown s.safety[c].verify } }

end Sys2Proof.Machine
end

