-- ==== Sys2Proof/Safety.lean ====
section
/-! DEFINITION. What a safe state of the part is: the rules of spec/ that speak of every moment, as predicates of
one state.  Each is decidable, so a concrete state can be judged. -/

namespace Sys2Proof.Machine

/-- The member mask of a leader's group; empty where the node leads no group. -/
def membersOf (s : State) (l : GroupId) : BitVec 8 :=
  match s.groups[l] with
  | some g => g.members
  | none => 0

/-- The exchange memory stands in its canonical form. -/
def memoryCanonical (s : State) : Prop := s.mem.wf = true

/-- The reference switch and the coupling switch are not both closed, and the reference serves a SELFCHECK run
alone (R147). -/
def referenceApart (s : State) : Prop :=
  ∀ c : Chan, s.safety[c].reference = true → s.seqs[c].coupling = .detached ∧ s.seqs[c].run = .selfcheck

/-- In SAFE_STOP every channel is detached and drives no run (R43, R152, R153). -/
def safeStopQuiet (s : State) : Prop :=
  s.mode = .safeStop → ∀ c : Chan, s.seqs[c].coupling = .detached ∧ s.seqs[c].run = .none

/-- The group table shows the partition of the link working copies (R6, R7). -/
def tableAgrees (s : State) : Prop :=
  ∀ l : GroupId, (s.groups[l].map fun g => g.members) =
    if (partition s.links)[l] = l then some (memberMask (partition s.links) l) else none

/-- R8's list, for a channel and the group of a leader: wired to a member, GOOD, not disconnected, not checked,
not HELD, and the group not PASSIVE. -/
def mayInject (s : State) (l : GroupId) (c : Chan) : Prop :=
  wiredInto s c (membersOf s l) = true ∧ s.safety[c].health = .good ∧ s.safety[c].disconnected = false
    ∧ checking s c = false ∧ s.seqs[c].ctx ≠ .held ∧ membersOf s l &&& s.yields = 0

/-- Every injector is eligible (R8, R87, R141, R146). -/
def injectorsEligible (s : State) : Prop := ∀ (l : GroupId) (c : Chan), injectorOf s l = some c → mayInject s l c

/-- An attached channel is the injector of a group (R11). -/
def attachedInject (s : State) : Prop :=
  ∀ c : Chan, s.seqs[c].coupling = .attached → ∃ l : GroupId, injectorOf s l = some c

/-- The intake list holds each slot at most once, and only TAKEN slots (R117, R124). -/
def intakeSound (s : State) : Prop := (s.intake.map (·.slot)).Nodup ∧ ∀ o ∈ s.intake, s.slots[o.slot] = .taken

/-- During start-up nothing is wired and no transaction end waits (R20, R168). -/
def startupUnwired (s : State) : Prop :=
  s.starting = true → s.endPending = false ∧ ∀ c : Chan, s.wiring[c].wiredNode = none

/-- A safe state. -/
def Safe (s : State) : Prop :=
  memoryCanonical s ∧ referenceApart s ∧ safeStopQuiet s ∧ tableAgrees s ∧ injectorsEligible s ∧ attachedInject s
    ∧ intakeSound s ∧ startupUnwired s

/-! ### Limits of the working copies (R4, R5, section 11.5) -/

/-- A plan copy within its limits. -/
def planWithinLimits (p : PlanCopy) : Prop :=
  (10 ≤ p.up ∧ p.up ≤ 50) ∧ (2 ≤ p.k ∧ p.k ≤ 6) ∧ p.blank ≤ 2000 ∧ (100 ≤ p.halfMin ∧ p.halfMin ≤ 20000)
    ∧ (p.halfMin ≤ p.halfMax ∧ p.halfMax ≤ 60000) ∧ (1 ≤ p.tolerance ∧ p.tolerance ≤ 500)
    ∧ (1 ≤ p.settleCount ∧ p.settleCount ≤ 8) ∧ (1 ≤ p.daMin ∧ p.daMin ≤ 100) ∧ (1 ≤ p.drift ∧ p.drift ≤ 5000)
    ∧ (10 ≤ p.syncTimeout ∧ p.syncTimeout ≤ 5000) ∧ (1 ≤ p.warnK ∧ p.warnK ≤ 65000)
    ∧ (1 ≤ p.faultK ∧ p.faultK ≤ p.warnK) ∧ p.hysteresis ≤ 50 ∧ (1 ≤ p.confirm ∧ p.confirm ≤ 8)
    ∧ (1 ≤ p.maxAge ∧ p.maxAge ≤ 600) ∧ p.settle ≤ 5000 ∧ (1 ≤ p.rotate ∧ p.rotate ≤ 255)

/-- Every plan copy and every calibration copy stands within its limits, and no plateau history holds more than three
records (R34). -/
def withinLimits (s : State) : Prop :=
  (∀ p : PlanId, planWithinLimits s.plans[p])
    ∧ (∀ c : Chan, (9000 ≤ s.wiring[c].rm ∧ s.wiring[c].rm ≤ 11000)
        ∧ (180000 ≤ s.wiring[c].rs ∧ s.wiring[c].rs ≤ 220000))
    ∧ ∀ c : Chan, s.seqs[c].history.length ≤ 3

/-- A numeric plan field: the copy is the value clamped to its range, and the mark says that it lay outside (R5,
R180). -/
def clamps (value lo hi copy : Nat) (mark : Bool) : Prop :=
  copy = max lo (min hi value) ∧ (mark = true ↔ value < lo ∨ hi < value)

/-- An enumerated plan field of two codes: any other takes the first, and the mark says so (R5, R180). -/
def picks {α : Type} (value : Byte) (zero one copy : α) (mark : Bool) : Prop :=
  (value = 1 → copy = one) ∧ (value ≠ 1 → copy = zero) ∧ (mark = true ↔ 2 ≤ value.toNat)

/-! ### Frames -/

/-- The state with everything blanked that measuring may change. -/
def State.fixed (s : State) : State :=
  { s with
    mode := .idle, parkedPending := false, park := .stopped, rotation := [], mem := []
    groups := Vector.replicate 8 none, seqs := Vector.replicate 4 Seq.initial
    safety := Vector.replicate 4 ChanSafety.initial
    news := { s.news with done := 0 }, attn := { s.attn with pending := 0 }
    slots := Vector.replicate 8 .free, intake := [] }

/-- What measuring does to one channel: its record, latest Ub and view latch stay, a NONE context may become IDLE,
its standings stay, the two switches stay apart, in SAFE_STOP it stays detached without a run, and while its
verify runs it stays detached. -/
structure ChanStep (stop : Prop) (q q' : Seq) (x x' : ChanSafety) : Prop where
  record : q'.record = q.record
  viewLatched : q'.viewLatched = q.viewLatched
  latestUb : q'.latestUb = q.latestUb
  ctx : q'.ctx = q.ctx ∨ (q.ctx = .none ∧ q'.ctx = .idle)
  health : x'.health = x.health
  disconnected : x'.disconnected = x.disconnected
  discMask : x'.discMask = x.discMask
  discMode : x'.discMode = x.discMode
  apart : (x.reference = true → q.coupling = .detached ∧ q.run = .selfcheck) →
    x'.reference = true → q'.coupling = .detached ∧ q'.run = .selfcheck
  quiet : stop → q.coupling = .detached ∧ q.run = .none → q'.coupling = .detached ∧ q'.run = .none
  resting : q.coupling = .detached ∧ x.verify.isSome = true → q'.coupling = .detached ∧ x'.verify.isSome = true

/-- Bytes of the order slots. -/
def inSlots (a : Nat) : Prop := 0x500 ≤ a ∧ a < 0x700

/-- What measuring can do: it changes modes but never into or out of SAFE_STOP, slot bytes alone of the memory,
channels by `ChanStep`, and it adds to the pending levels and the done
news. Without a waiting PARKED request the mode stands (R102). -/
structure Measuring (s t : State) : Prop where
  fixed : t.fixed = s.fixed
  mode : t.mode = .safeStop ↔ s.mode = .safeStop
  pending : ∀ n, has8 s.attn.pending n = true → has8 t.attn.pending n = true
  done : ∀ n, has8 s.news.done n = true → has8 t.news.done n = true
  calm : s.parkedPending = false → t.mode = s.mode ∧ t.parkedPending = false
  memory : ∀ a, ¬ inSlots a → t.mem.read a = s.mem.read a
  canonical : s.mem.wf = true → t.mem.wf = true
  chan : ∀ c : Chan, ChanStep (s.mode = .safeStop) s.seqs[c] t.seqs[c] s.safety[c] t.safety[c]

/-- Bytes of the node records. -/
def inRecords (a : Nat) : Prop := 0x700 ≤ a ∧ a < 0x800

/-! ## What claims say of commands -/

/-! ### The serial port (chapter 9) -/

/-- The port serves a transaction: start-up is over and no write transaction's end waits (R159, R168). -/
def served (s : State) : Prop := s.starting = false ∧ s.endPending = false

/-- A transaction that did nothing but shift out the status byte and these bytes after it, which clears ERR
(R159, R160). -/
def afterShift (s : State) (bytes : List Byte) : State := { s with sdo := statusByte s :: bytes, err := false }

/-- The same of a transaction with its address: 0x00 at each of the two address bytes, then these bytes (R158). -/
def afterAddress (s : State) (bytes : List Byte) : State := afterShift s ([0, 0] ++ bytes)

/-- The end of a memory write that wrote these watched fields leaves this state (R162). -/
def endsAs (s : State) (w : Watch) (t : State) : Prop :=
  exec .writeTransactionEnd { s with endPending := true, watch := w } = .next t

/-- R156's table: the host owns the byte at an address, by the slots' states (R118). -/
def hostOwns (s : State) (a : Nat) : Prop :=
  (0x010 ≤ a ∧ a ≤ 0x014) ∨ (0x040 ≤ a ∧ a < 0x100)
    ∨ (∃ (p : PlanId) (k : Nat), k < 64 ∧ ¬ (0x28 ≤ k ∧ k ≤ 0x2B) ∧ a = planAddr p + k)
    ∨ (∃ (n : SlotId) (k : Nat), k < 0x10 ∧ a = slotAddr n + k ∧ s.slots[n] ≠ .taken)
    ∨ (∃ c : Chan, a = viewAddr c) ∨ (0x900 ≤ a ∧ a < 0xA00)

/-- The byte a transaction of data from an address on writes at an address: none where it carries none, or where the
host does not own the byte (R156, R158, R160). -/
def wroteByte (s : State) (start : Nat) (data : List Byte) (a : Nat) (b : Byte) : Prop :=
  start ≤ a ∧ data[a - start]? = some b ∧ hostOwns s a

/-- What a register shows; at POLL the level the read acknowledges, above 0x007 zero (R160, R165, R172). -/
def registerByte (s : State) (r : Nat) : Byte :=
  match r with
  | 0 => 0x48
  | 1 => 0x01
  | 2 => statusRegister s
  | 3 => controlRegister s
  | 4 => s.attn.mask
  | 5 => s.attn.pending
  | 6 => s.attn.inService
  | 7 => s.attn.poll.1
  | _ => 0

/-! ### Orders (chapter 7) -/

/-- What an order command offers: its slot, kind, first parameter byte and the parameter bytes after it
(section 11.6). -/
structure Offer where
  slot : SlotId
  kind : OrderKind
  target : Byte
  more : List Byte
deriving DecidableEq, Repr

/-- The offer an order command makes; none for any other command. -/
def offerOf : Instr → Option Offer
  | .spot n node plan => some ⟨n, .spot, node, [plan]⟩
  | .selfcheck n chan => some ⟨n, .selfcheck, chan, []⟩
  | .snapshot n chan => some ⟨n, .snapshot, chan, []⟩
  | .restore n chan => some ⟨n, .restore, chan, []⟩
  | .release n chan => some ⟨n, .release, chan, []⟩
  | .ack n node count mask => some ⟨n, .ack, node, [0] ++ le16 count ++ [mask]⟩
  | .yieldNode n node => some ⟨n, .yieldNode, node, []⟩
  | .resumeNode n node => some ⟨n, .resumeNode, node, []⟩
  | .clearDisconnect n chan => some ⟨n, .clearDisconnect, chan, []⟩
  | .hardReset | .startupVerifyExpiry .. | .memoryRead .. | .memoryWrite .. | .registerRead .. | .registerWrite ..
  | .unknownCommand .. | .writeTransactionEnd | .modeRequest .. | .holdStart _ | .hostRelease _ | .softReset ..
  | .attnMask _ | .poll | .specificEnd _ | .nonSpecificEnd | .sample .. | .windowEnd _ | .halfMax _ | .syncEdge
  | .syncTimeout _ | .selfcheckHalfEnd _ | .computationStart | .computationComplete | .conditionResult
  | .stalenessCheck | .holdLimitExpiry | .settleExpiry _ | .parkTimerExpiry | .detachVerifyExpiry ..
  | .disconnectLineChange .. | .stopLine | .stopLineRelease => none

/-- The bytes of the write transaction that makes an offer (section 11.6). -/
def Offer.bytes (o : Offer) : List Byte := offerBytes o.kind o.target o.more

/-- How many bytes a command shifts after its command byte on the serial port: the two of the address where they are
complete, and those after them; none for an event that is no transaction (R158). -/
def bytesAfter : Instr → Option Nat
  | .memoryRead addr count | .registerRead addr count => some (if addr.isSome then count + 2 else count)
  | .memoryWrite addr data | .registerWrite addr data => some (if addr.isSome then data.length + 2 else data.length)
  | .unknownCommand _ rest => some rest
  | .modeRequest .. | .holdStart _ | .hostRelease _ | .softReset .. | .attnMask _ | .poll | .specificEnd _
  | .nonSpecificEnd => some 3
  | .spot .. => some 6
  | .ack .. => some 9
  | .selfcheck .. | .snapshot .. | .restore .. | .release .. | .yieldNode .. | .resumeNode ..
  | .clearDisconnect .. => some 5
  | .hardReset | .startupVerifyExpiry .. | .writeTransactionEnd | .sample .. | .windowEnd _ | .halfMax _
  | .syncEdge | .syncTimeout _ | .selfcheckHalfEnd _ | .computationStart | .computationComplete | .conditionResult
  | .stalenessCheck | .holdLimitExpiry | .settleExpiry _ | .parkTimerExpiry | .detachVerifyExpiry ..
  | .disconnectLineChange .. | .stopLine | .stopLineRelease => none

/-- The group that contains an order's target: its node, or the node its channel is wired to (R127). -/
def targetGroup (s : State) (o : Order) : Option GroupId :=
  match o.job with
  | .spot node _ => some (leaderOf s node)
  | .selfcheck c => (s.wiring[c].wiredNode).map fun node => leaderOf s node

/-- An offer can be taken in: the port serves it, and its slot is not TAKEN and so holds no order (R118, R119,
R124). -/
def offerable (s : State) (o : Offer) : Prop :=
  served s ∧ s.slots[o.slot] ≠ .taken ∧ ∀ x ∈ s.intake, x.slot ≠ o.slot

/-- What the port and the intake counter keep of an offer taken in (R120, R158). -/
def afterOffer (s : State) (o : Offer) : State :=
  { s with
    sdo := statusByte s :: List.replicate (o.bytes.length + 2) 0, err := false, endPending := false, watch := Watch.empty
    intakeSeq := s.intakeSeq + 1 }

/-- The host part of a slot after an offer: the state byte given, the offer's kind and parameters, and what stood
in the bytes it did not write (section 11.6). -/
def hostPart (s t : State) (o : Offer) (state : Byte) : Prop :=
  t.mem.read (slotAddr o.slot) = state
    ∧ ∀ k, 1 ≤ k → k < 0x10 → t.mem.read (slotAddr o.slot + k) = o.bytes.getD k (s.mem.read (slotAddr o.slot + k))

/-- An order that completed at its intake: its slot, its host part and its whole result area, and its done news bit
and level 4 (R120, R123, section 11.6). -/
def completedAtIntake (s t : State) (o : Offer) (final : SlotState) (reason : Byte) (kind : List Byte) : Prop :=
  t.slots[o.slot] = final ∧ hostPart s t o (byteOf final.code)
    ∧ (∀ k, k < 48 → t.mem.read (slotAddr o.slot + 0x10 + k)
        = (le16 s.intakeSeq ++ [4, 0xFF, 0, reason, 0, 0] ++ kind).getD k 0)
    ∧ has8 t.news.done o.slot.val = true ∧ has8 t.attn.pending 4 = true

/-- Nothing but an offer's slot, its news and level 4 changed, as against a given state. -/
def onlySlot (u t : State) (n : SlotId) : Prop :=
  t = { u with
      mem := t.mem, slots := upd u.slots n t.slots[n]
      news := { u.news with done := u.news.done ||| bit8 n.val }, attn := u.attn.raise 4 }
    ∧ ∀ a, ¬ (slotAddr n ≤ a ∧ a < slotAddr n + 64) → t.mem.read a = u.mem.read a

/-- R121 with R131, R135, R143, R76 and R94: why an offer is refused at its intake.  Outside SAFE_STOP the checks
stand in their order. -/
inductive RefusedAtIntake (s : State) : Instr → Reason → Prop
  | safeStop (i : Instr) (o : Offer) : offerOf i = some o → s.mode = .safeStop → RefusedAtIntake s i .safeStop
  | spotNode (n : SlotId) (node plan : Byte) : s.mode ≠ .safeStop → 8 ≤ node.toNat →
      RefusedAtIntake s (.spot n node plan) .badNode
  | ackNode (n : SlotId) (node : Byte) (count : BitVec 16) (mask : Byte) : s.mode ≠ .safeStop → 8 ≤ node.toNat →
      RefusedAtIntake s (.ack n node count mask) .badNode
  | yieldNode (n : SlotId) (node : Byte) : s.mode ≠ .safeStop → 8 ≤ node.toNat →
      RefusedAtIntake s (.yieldNode n node) .badNode
  | resumeNode (n : SlotId) (node : Byte) : s.mode ≠ .safeStop → 8 ≤ node.toNat →
      RefusedAtIntake s (.resumeNode n node) .badNode
  | selfcheckChan (n : SlotId) (chan : Byte) : s.mode ≠ .safeStop → 4 ≤ chan.toNat →
      RefusedAtIntake s (.selfcheck n chan) .badChannel
  | snapshotChan (n : SlotId) (chan : Byte) : s.mode ≠ .safeStop → 4 ≤ chan.toNat →
      RefusedAtIntake s (.snapshot n chan) .badChannel
  | restoreChan (n : SlotId) (chan : Byte) : s.mode ≠ .safeStop → 4 ≤ chan.toNat →
      RefusedAtIntake s (.restore n chan) .badChannel
  | releaseChan (n : SlotId) (chan : Byte) : s.mode ≠ .safeStop → 4 ≤ chan.toNat →
      RefusedAtIntake s (.release n chan) .badChannel
  | clearChan (n : SlotId) (chan : Byte) : s.mode ≠ .safeStop → 4 ≤ chan.toNat →
      RefusedAtIntake s (.clearDisconnect n chan) .badChannel
  | spotPlan (n : SlotId) (node : NodeId) (plan : Byte) : s.mode ≠ .safeStop →
      (∀ p : PlanId, byteOf p.val = plan → s.plans[p].ready = false) →
      RefusedAtIntake s (.spot n (byteOf node.val) plan) .badPlan
  | spotPassive (n : SlotId) (node : NodeId) (p : PlanId) : s.mode ≠ .safeStop → s.plans[p].ready = true →
      groupState s (leaderOf s node) = .passive →
      RefusedAtIntake s (.spot n (byteOf node.val) (byteOf p.val)) .passive
  | spotHeld (n : SlotId) (node : NodeId) (p : PlanId) : s.mode ≠ .safeStop → s.plans[p].ready = true →
      groupState s (leaderOf s node) = .held →
      RefusedAtIntake s (.spot n (byteOf node.val) (byteOf p.val)) .held
  | spotNoChannel (n : SlotId) (node : NodeId) (p : PlanId) : s.mode ≠ .safeStop → s.plans[p].ready = true →
      groupState s (leaderOf s node) = .noChannel →
      RefusedAtIntake s (.spot n (byteOf node.val) (byteOf p.val)) .noChannel
  | selfcheckUnwired (n : SlotId) (c : Chan) : s.mode ≠ .safeStop → s.wiring[c].wiredNode = none →
      RefusedAtIntake s (.selfcheck n (byteOf c.val)) .badChannel
  | selfcheckOffline (n : SlotId) (c : Chan) (node : NodeId) : s.mode ≠ .safeStop →
      s.wiring[c].wiredNode = some node → s.safety[c].health = .offline →
      RefusedAtIntake s (.selfcheck n (byteOf c.val)) .offline
  | selfcheckDisconnected (n : SlotId) (c : Chan) (node : NodeId) : s.mode ≠ .safeStop →
      s.wiring[c].wiredNode = some node → s.safety[c].health ≠ .offline → s.safety[c].disconnected = true →
      RefusedAtIntake s (.selfcheck n (byteOf c.val)) .disconnected
  | ackStale (n : SlotId) (node : NodeId) (count : BitVec 16) (mask : Byte) : s.mode ≠ .safeStop →
      (recordCount s node ≠ count ∨ s.nodes[node].deferred = true) →
      RefusedAtIntake s (.ack n (byteOf node.val) count mask) .stale
  | restoreFormat (n : SlotId) (c : Chan) : s.mode ≠ .safeStop →
      (3 ≤ (s.mem.read (frameAddr c)).toNat ∨ s.mem.read (frameAddr c + 1) ≠ byteOf c.val) →
      RefusedAtIntake s (.restore n (byteOf c.val)) .format
  | lineActive (n : SlotId) (c : Chan) : s.mode ≠ .safeStop → s.safety[c].disconnected = true →
      (∃ i, i < 3 ∧ s.safety[c].discMask.getLsbD i = true ∧ s.lines.getLsbD i = true) →
      RefusedAtIntake s (.clearDisconnect n (byteOf c.val)) .lineActive

/-- The kind result of an order refused at its intake, from the state it was offered in (R17, R76, R90, R134, R135,
R143, R179). -/
def refusedFigures (s : State) : Instr → List Byte
  | .spot _ _ plan => List.replicate 13 0 ++ [plan] ++ List.replicate 12 0 ++ [0, 0xFF, 0xFF]
  | .selfcheck _ chan =>
    match indexOf 4 chan with
    | some c => [0, 0, 0, 0, byteOf s.safety[c].health.code, byteOf s.safety[c].health.code]
    | none => [0, 0, 0, 0, 0xFF, 0xFF]
  | .snapshot _ chan | .restore _ chan | .release _ chan =>
    match indexOf 4 chan with
    | some c => [byteOf s.seqs[c].ctx.code, byteOf s.seqs[c].ctx.code]
    | none => []
  | .ack _ node _ _ =>
    match indexOf 8 node with
    | some n => le16 (recordCount s n)
    | none => []
  | .yieldNode _ node | .resumeNode _ node =>
    match indexOf 8 node with
    | some n => [flagByte (has8 s.yields n.val), byteOf (leaderOf s n).val]
    | none => [0, 0xFF]
  | .clearDisconnect _ chan =>
    match indexOf 4 chan with
    | some c => [flagByte s.safety[c].disconnected, flagByte s.safety[c].disconnected, lineByte s]
    | none => [0, 0, lineByte s]
  | .hardReset | .startupVerifyExpiry .. | .memoryRead .. | .memoryWrite .. | .registerRead .. | .registerWrite ..
  | .unknownCommand .. | .writeTransactionEnd | .modeRequest .. | .holdStart _ | .hostRelease _ | .softReset ..
  | .attnMask _ | .poll | .specificEnd _ | .nonSpecificEnd | .sample .. | .windowEnd _ | .halfMax _ | .syncEdge
  | .syncTimeout _ | .selfcheckHalfEnd _ | .computationStart | .computationComplete | .conditionResult
  | .stalenessCheck | .holdLimitExpiry | .settleExpiry _ | .parkTimerExpiry | .detachVerifyExpiry ..
  | .disconnectLineChange .. | .stopLine | .stopLineRelease => []

/-- The result area of a measurement order that has just been taken in, at a progress and in a group (R120, R124,
section 11.6). -/
def takenAtIntake (s t : State) (o : Offer) (progress : OrderPhase) (l : GroupId) : Prop :=
  t.slots[o.slot] = .taken ∧ hostPart s t o 2
    ∧ ∀ k, k < 48 → t.mem.read (slotAddr o.slot + 0x10 + k)
        = (le16 s.intakeSeq ++ [byteOf progress.code, byteOf l.val]).getD k 0

/-- A SPOT abandoned for the third time: its slot is REFUSED TOPOLOGY, its host part kept, its done news bit set and
level 4 pending; where its kind byte says SPOT, it shows the kind result of a refused SPOT (R123, R128, R134). -/
def spotRefusedTopology (s t : State) (n : SlotId) : Prop :=
  t.slots[n] = .refused ∧ t.mem.read (slotAddr n) = 4 ∧ t.mem.read (slotAddr n + 0x12) = 4
    ∧ t.mem.read (slotAddr n + 0x15) = byteOf Reason.topology.code
    ∧ (s.mem.read (slotAddr n + 1) = 1 → ∀ j, j < 40 → t.mem.read (slotAddr n + 0x18 + j) =
        (List.replicate 13 0 ++ [s.mem.read (slotAddr n + 3)] ++ List.replicate 12 0 ++ [0, 0xFF, 0xFF]).getD j 0)
    ∧ (∀ k, 1 ≤ k → k < 0x10 → t.mem.read (slotAddr n + k) = s.mem.read (slotAddr n + k))
    ∧ has8 t.news.done n.val = true ∧ has8 t.attn.pending 4 = true

/-! ### Records (chapter 11) -/

/-- The image of a node record (section 11.7). -/
def recordShows (m : Memory) (n : NodeId) (x : NodeStatus) : Prop :=
  let r := recordAddr n
  let split := x.split.getD ⟨0, 0, 0⟩
  m.read r = 0 ∧ m.read (r + 0x01) = byteOf x.state.code ∧ m.read16 (r + 0x02) = x.updateCount.toNat
    ∧ m.read (r + 0x04) = byteOf x.source.code
    ∧ m.read (r + 0x05) = (match x.candidate with | some b => byteOf b.code | none => 0)
    ∧ m.read (r + 0x06) = byteOf x.count ∧ m.read (r + 0x07) = (if x.split.isSome then 1 else 0)
    ∧ m.read16 (r + 0x08) = x.rf % 65536 ∧ m.read16 (r + 0x0A) = split.rp % 65536
    ∧ m.read16 (r + 0x0C) = split.rn % 65536 ∧ m.read16 (r + 0x0E) = (BitVec.ofInt 16 split.apm).toNat
    ∧ m.read16 (r + 0x10) = x.ub % 65536 ∧ m.read (r + 0x12) = x.last ∧ m.read (r + 0x13) = x.accrued
    ∧ m.read32 (r + 0x14) = x.stamp.toNat ∧ m.read (r + 0x18) = x.originMask
    ∧ m.read (r + 0x19) = x.originLeader ∧ m.read (r + 0x1A) = x.originInjector ∧ m.read (r + 0x1B) = x.originPlan

/-- The part's bytes of a live view that takes a channel's present values (R41, section 11.8). -/
def viewShows (s : State) (m : Memory) (c : Chan) : Prop :=
  let v := viewAddr c
  let q := s.seqs[c]
  m.read (v + 0x01) = byteOf q.coupling.code ∧ m.read (v + 0x02) = byteOf q.run.code
    ∧ m.read (v + 0x03) = byteOf q.phase.code ∧ m.read (v + 0x04) = byteOf q.polarity.code
    ∧ m.read16 (v + 0x06) = q.windows.length % 65536 ∧ m.read16 (v + 0x08) = q.elapsed % 65536
    ∧ m.read16 (v + 0x0A) = (BitVec.ofInt 16 q.lastAverage).toNat ∧ m.read16 (v + 0x0C) = q.latestUb % 65536
    ∧ (∀ (l : GroupId) (g : Group), groupOfInjector s c = some l → s.groups[l] = some g →
        m.read16 (v + 0x0E) = g.seriesCount.toNat)
    ∧ (groupOfInjector s c = none → m.read16 (v + 0x0E) = 0)
    ∧ ∀ k, (k = 5 ∨ (0x10 ≤ k ∧ k < 0x20)) → m.read (v + k) = 0

/-- A context frame as a SNAPSHOT writes it (R91, section 11.8). -/
def frameShows (m : Memory) (c : Chan) (kind : CtxKind) (r : CtxRecord) : Prop :=
  let f := frameAddr c
  m.read f = byteOf kind.code ∧ m.read (f + 0x01) = byteOf c.val
    ∧ m.read (f + 0x02) = (match r.planId with | some p => byteOf p.val | none => 0xFF)
    ∧ m.read (f + 0x03) = byteOf r.highest ∧ m.read (f + 0x04) = r.conds
    ∧ m.read16 (f + 0x08) = (BitVec.ofInt 16 r.p1).toNat ∧ m.read16 (f + 0x0A) = (BitVec.ofInt 16 r.p2).toNat
    ∧ m.read16 (f + 0x0C) = (BitVec.ofInt 16 r.p3).toNat ∧ m.read16 (f + 0x0E) = r.ub % 65536
    ∧ m.read32 (f + 0x10) = (BitVec.ofInt 32 r.dA).toNat ∧ m.read32 (f + 0x14) = (BitVec.ofInt 32 r.off2).toNat
    ∧ ∀ k, ((5 ≤ k ∧ k < 8) ∨ (0x18 ≤ k ∧ k < 0x40)) → m.read (f + k) = 0

/-- The figures a RESTORE takes from a frame (R94). -/
def frameGives (m : Memory) (c : Chan) (r : CtxRecord) : Prop :=
  let f := frameAddr c
  r.conds = m.read (f + 4) &&& 0x7F ∧ r.highest = highestOf r.conds ∧ r.planId = indexOf 16 (m.read (f + 2))
    ∧ r.p1 = m.readInt16 (f + 0x08) ∧ r.p2 = m.readInt16 (f + 0x0A) ∧ r.p3 = m.readInt16 (f + 0x0C)
    ∧ r.ub = m.read16 (f + 0x0E) ∧ r.dA = m.readInt32 (f + 0x10) ∧ r.off2 = m.readInt32 (f + 0x14)

/-! ### Measuring (chapters 1, 2 and 6) -/

/-- IDLE with no order taken and every channel without a run detached: the scheduler has nothing to do (R36, R99,
R101). -/
def restful (s : State) : Prop :=
  s.mode = .idle ∧ s.intake = [] ∧ ∀ c : Chan, s.seqs[c].run = .none → s.seqs[c].coupling = .detached

/-- The settle timer and the measurable flag of a group whose timer has just started, by the leader's plan
(R12, R103). -/
def settleStarted (s : State) (l : GroupId) (g : Group) : Prop :=
  (g.injector = none → g.settle = none ∧ g.measurable = false)
    ∧ (g.injector ≠ none → readyPlan s l = none → g.settle = none ∧ g.measurable = false ∧ g.waitPlan = true)
    ∧ ∀ p : PlanCopy, g.injector ≠ none → readyPlan s l = some p →
        (p.settle = 0 → g.settle = none ∧ g.measurable = true)
        ∧ (p.settle ≠ 0 → g.settle = some p.settle ∧ g.measurable = false)

/-- The group's injector is the lowest-numbered eligible channel, or none where no channel is eligible (R10). -/
def lowestInjects (s : State) (l : GroupId) (g : Group) : Prop :=
  (∀ c : Chan, g.injector = some c → mayInject s l c ∧ ∀ d : Chan, d < c → ¬ mayInject s l d)
    ∧ (g.injector = none → ∀ c : Chan, ¬ mayInject s l c)

/-- The group table as a regroup leaves it: it agrees with the links, every injector is eligible, an attached channel
injects, and a group that had no injector has the lowest eligible channel where there is one, with its settle timer
started, unless a SELFCHECK stands in flight in it (R6, R8, R10 to R13). -/
def regrouped (s t : State) : Prop :=
  tableAgrees t ∧ injectorsEligible t ∧ attachedInject t
    ∧ ∀ (l : GroupId) (g : Group), t.groups[l] = some g → injectorOf s l = none →
        (∀ o ∈ t.intake, o.group = l → o.phase ≠ .waiting → ∀ d : Chan, o.job ≠ .selfcheck d) →
        lowestInjects t l g ∧ settleStarted t l g

/-- A channel that stands in the first half-period of a run, just begun (R23 to R26, R31). -/
def firstHalf (q : Seq) (kind : RunKind) (owner : Option SlotId) (copy : RunCopy) (pol : Polarity) : Seq :=
  { q with
    run := kind, owner := owner, copy := copy, polarity := pol
    phase := if copy.plan.blank = 0 then .settleTest else .blanking
    half := if kind = .series then 0 else 1
    elapsed := 0, accUm := 0, accUb := 0, accCount := 0, accFullScale := false, windows := [], ready := none
    history := [], syncTimer := none, stopRequest := false, lastAverage := 0
    ctx := if kind ≠ .selfcheck ∧ q.ctx = .none then .idle else q.ctx }

/-- A channel whose run waits for its attach (R23). -/
def waitingRun (q : Seq) (kind : RunKind) (owner : Option SlotId) (copy : RunCopy) : Seq :=
  { firstHalf q kind owner copy q.polarity with phase := .waitAttach }

/-- No group has an order that holds its measurement but at most one (R102). -/
def fewOrders (s : State) : Prop := ∀ l m : GroupId, seriesOf s l = .order → seriesOf s m = .order → l = m

/-- The group is measurable and its measurement is free, with an injector and a READY plan (R103, R106, R110). -/
def readyToMeasure (s : State) (l : GroupId) (g : Group) (c : Chan) (p : PlanId) : Prop :=
  s.groups[l] = some g ∧ g.measurable = true ∧ g.series = .none ∧ g.injector = some c ∧ s.nodePlan[l] = some p
    ∧ s.plans[p].ready = true

/-- A node's image at the end of a hold: a deferred image is written once, the update count raised by one; any other
record stays (R73). -/
def imagesWritten (s t : State) : Prop :=
  (∀ n : NodeId, t.nodes[n] = if s.nodes[n].deferred then
      { s.nodes[n] with updateCount := s.nodes[n].updateCount + 1, deferred := false } else s.nodes[n])
    ∧ (∀ n : NodeId, s.nodes[n].deferred = true → recordShows t.mem n t.nodes[n])
    ∧ (∀ n : NodeId, s.nodes[n].deferred = false → ∀ k, k < 32 → t.mem.read (recordAddr n + k) = s.mem.read (recordAddr n + k))
    ∧ (∀ n : NodeId, t.mem.read (recordAddr n + 0x1C) = s.mem.read (recordAddr n + 0x1C))
    ∧ ∀ a, ¬ inRecords a → t.mem.read a = s.mem.read a

/-- The sets after an END of one level: it leaves service, and a level of type level pends again by its fact (R173). -/
def levelEnded (a b : Attn) (n : Level) : Prop :=
  (∀ m : Level, has8 b.inService m.val = (has8 a.inService m.val && decide (m ≠ n)))
    ∧ (∀ m : Level, has8 b.pending m.val = (has8 a.pending m.val
        || decide (m = n) && has8 a.inService n.val && (decide (n = 0) && a.safeStopFact || decide (n = 1) && a.faultFact)))
    ∧ b.mask = a.mask ∧ b.safeStopFact = a.safeStopFact ∧ b.faultFact = a.faultFact

/-- The channel the injector of a group moves to from a channel: the lowest eligible one above it, else the lowest
eligible one (R107). -/
def nextInLine (s : State) (l : GroupId) (c d : Chan) : Prop :=
  mayInject s l d ∧ ((c < d ∧ ∀ e : Chan, c < e → e < d → ¬ mayInject s l e)
    ∨ ((∀ e : Chan, c < e → ¬ mayInject s l e) ∧ ∀ e : Chan, e < d → ¬ mayInject s l e))

/-- No other group has the channel as its injector. -/
def ownInjector (s : State) (l : GroupId) (c : Chan) : Prop := ∀ m : GroupId, injectorOf s m = some c → m = l

/-- Every channel that does not run is detached, but for one (R36). -/
def othersRest (s : State) (c : Chan) : Prop :=
  ∀ d : Chan, d ≠ c → s.seqs[d].run = .none → s.seqs[d].coupling = .detached

/-! ### Half-periods (chapter 2) -/

/-- A sequencer after one 1 ms sample: Ub is clamped to 0 to 1200 V; within a half-period the elapsed time rises, and
after blanking both readings enter the window under way (R25, R26). -/
def sampled (q : Seq) (um : BitVec 16) (ub : Int) : Seq :=
  let u := (max 0 (min 1200 ub)).toNat
  if q.inHalf = true ∧ q.copy.plan.blank ≤ q.elapsed then
    { q with
      latestUb := u, elapsed := q.elapsed + 1, accUm := q.accUm + um.toInt, accUb := q.accUb + u
      accCount := q.accCount + 1, accFullScale := q.accFullScale || decide (um = 0x7FFF ∨ um = 0x8000) }
  else if q.inHalf = true then
    { q with
      latestUb := u, elapsed := q.elapsed + 1
      phase := if q.elapsed + 1 = q.copy.plan.blank then .settleTest else q.phase }
  else { q with latestUb := u }

/-- A sequencer whose half-period begins at a polarity, nothing else of its run touched (R23, R25, R31). -/
def halfBegun (q : Seq) (pol : Polarity) : Seq :=
  { q with
    phase := if q.copy.plan.blank = 0 then .settleTest else .blanking
    polarity := pol, elapsed := 0, accUm := 0, accUb := 0, accCount := 0, accFullScale := false, windows := []
    ready := none, syncTimer := none }

/-- A SERIES or TRIPLE run that waits for its attach, which nothing but the verify of one channel holds back (R11, R144). -/
def waitsForVerifyOf (s : State) (c d : Chan) : Prop :=
  (s.seqs[d].run = .series ∨ s.seqs[d].run = .triple) ∧ s.seqs[d].phase = .waitAttach ∧ s.mode ≠ .safeStop
    ∧ ∃ l : GroupId, groupOfInjector s d = some l
      ∧ ∀ e : Chan, e = d ∨ wiredInto s e (membersOf s l) = true → e ≠ c → s.safety[e].verify = none

/-- A SELFCHECK run that waits for its reference (R147). -/
def waitsForReference (s : State) (c : Chan) : Prop :=
  s.seqs[c].run = .selfcheck ∧ s.seqs[c].phase = .waitAttach ∧ s.seqs[c].coupling = .detached

/-- No window end and no half-period end is due on a channel (R26, R30, R40). -/
def nothingDue (s : State) (c : Chan) : Prop :=
  s.seqs[c].windowFull = false
    ∧ (s.seqs[c].inHalf = true → s.seqs[c].run ≠ .selfcheck → s.seqs[c].elapsed < s.seqs[c].copy.plan.halfMax)
    ∧ (s.seqs[c].inHalf = true → s.seqs[c].run = .selfcheck → s.seqs[c].elapsed < 200)

/-- The averages and the full-scale mark of the window under way (R26). -/
def windowOf (q : Seq) : Window :=
  ⟨(q.accUm + 2 ^ (q.copy.plan.k - 1)) / 2 ^ q.copy.plan.k,
    (((q.accUb : Int) + 2 ^ (q.copy.plan.k - 1)) / 2 ^ q.copy.plan.k).toNat, q.accFullScale⟩

/-- A sequencer with the window under way completed (R26). -/
def withWindow (q : Seq) : Seq :=
  { q with
    windows := windowOf q :: q.windows, lastAverage := (windowOf q).um
    accUm := 0, accUb := 0, accCount := 0, accFullScale := false }

/-- The three tests of the ready point at the end of the window under way (R27). -/
def readyPoint (q : Seq) : Prop :=
  q.run ≠ .selfcheck ∧ q.ready = none ∧ q.copy.plan.halfMin ≤ q.elapsed
    ∧ ∀ i, i < q.copy.plan.settleCount → ∃ a b : Window,
        (windowOf q :: q.windows)[i]? = some a ∧ (windowOf q :: q.windows)[i + 1]? = some b
        ∧ (a.um - b.um).natAbs ≤ q.copy.plan.tolerance

/-- A sequencer with the window this sample ends, if any, completed (R30). -/
def lastWindow (q : Seq) : Seq := if q.windowFull then withWindow q else q

/-- Which command ends a channel's half-period, with the sequencer as the edge finds it, the flag its end gives the
plateau and the plateau's settle time (R28, R29, R30, R40). -/
inductive EndsHalf (s : State) (c : Chan) : Instr → Seq → Option Cond → Nat → Prop
  | ready : s.seqs[c].windowFull = true → readyPoint s.seqs[c] → s.seqs[c].copy.plan.sync = .free →
      EndsHalf s c (.windowEnd c) { withWindow s.seqs[c] with ready := some s.seqs[c].elapsed } none s.seqs[c].elapsed
  | unready : s.seqs[c].inHalf = true → s.seqs[c].run ≠ .selfcheck →
      s.seqs[c].copy.plan.halfMax ≤ s.seqs[c].elapsed → s.seqs[c].ready = none →
      (s.seqs[c].windowFull = true → ¬ readyPoint s.seqs[c]) →
      EndsHalf s c (.halfMax c) (lastWindow s.seqs[c]) (some .unsettled) s.seqs[c].copy.plan.halfMax
  | missedAtMax (r : Nat) : s.seqs[c].inHalf = true → s.seqs[c].run ≠ .selfcheck →
      s.seqs[c].copy.plan.halfMax ≤ s.seqs[c].elapsed → s.seqs[c].ready = some r →
      EndsHalf s c (.halfMax c) (lastWindow s.seqs[c]) (some .syncMissed) r
  | sync (r : Nat) : s.seqs[c].phase = .waitSync → s.seqs[c].ready = some r →
      (∀ d : Chan, d ≠ c → s.seqs[d].phase ≠ .waitSync) → EndsHalf s c .syncEdge s.seqs[c] none r
  | timeout (r : Nat) : s.seqs[c].phase = .waitSync → s.seqs[c].ready = some r → s.seqs[c].syncTimer ≠ none →
      EndsHalf s c (.syncTimeout c) s.seqs[c] (some .syncMissed) r
  | selfcheck : s.seqs[c].inHalf = true → s.seqs[c].run = .selfcheck → 200 ≤ s.seqs[c].elapsed →
      EndsHalf s c (.selfcheckHalfEnd c) s.seqs[c] none 200

/-- The plateau record of an ending half-period (R32, R33). -/
def isPlateau (q : Seq) (flag : Option Cond) (settleTime : Nat) (p : Plateau) : Prop :=
  p.polarity = q.polarity ∧ p.settleTime = settleTime
    ∧ p.value = (match q.windows with | w :: _ => w.um | [] => 0)
    ∧ p.ub = (match q.windows with | w :: _ => w.ub | [] => 0)
    ∧ ∀ b, has8 p.flags b = true ↔
        (b = 0 ∧ ∃ i w, i ≤ q.copy.plan.settleCount ∧ q.windows[i]? = some w ∧ w.fullScale = true)
        ∨ (b = 1 ∧ flag = some .unsettled) ∨ (b = 6 ∧ flag = some .syncMissed)

/-- The last three of a history and a plateau after it (R34). -/
def historyAfter (h : List Plateau) (p : Plateau) : List Plateau :=
  match h with
  | [] => [p]
  | [a] => [a, p]
  | [a, b] => [a, b, p]
  | _ :: rest => rest ++ [p]

/-- The triple handed at an edge: from a history of three records, with the run's figures (R34, R44). -/
def handedAt (s : State) (c : Chan) (q : Seq) : List Plateau → List Triple
  | [p1, p2, p3] =>
    [{ p1 := p1, p2 := p2, p3 := p3, up := q.copy.plan.up, daMin := q.copy.plan.daMin, drift := q.copy.plan.drift
       rm := q.copy.rm, rs := q.copy.rs, planId := q.copy.planId, actions := q.copy.plan.actions, chan := c
       source := match q.run, q.owner with
         | .selfcheck, _ => .selfcheck
         | .triple, some _ => .spot
         | .triple, none => .parked
         | .series, _ => .continuous
         | .none, _ => .continuous
       stamp := if q.run = .selfcheck then none else stampOf s c, slot := q.owner }]
  | _ => []

/-- The half-period that begins at an edge within a run (R31). -/
def nextHalf (q : Seq) (history : List Plateau) : Seq :=
  { q with
    phase := if q.copy.plan.blank = 0 then .settleTest else .blanking
    polarity := match q.polarity with | .pos => .neg | .neg => .pos
    half := if q.run = .series then q.half else q.half + 1
    elapsed := 0, accUm := 0, accUb := 0, accCount := 0, accFullScale := false, windows := [], ready := none
    syncTimer := none, history := history }

/-- The run goes on at an edge: a SERIES without a stop request whose rotation is not due, or a TRIPLE or SELFCHECK
before its third half-period (R31, R107). -/
def goesOn (s : State) (c : Chan) (q : Seq) (handed : List Triple) : Prop :=
  (q.run = .series ∧ q.stopRequest = false ∧ ∀ (l : GroupId) (g : Group), groupOfInjector s c = some l →
      s.groups[l] = some g → g.policy = .rotate → handed ≠ [] → g.rotation + 1 < g.rotateCount)
    ∨ ((q.run = .triple ∨ q.run = .selfcheck) ∧ q.half < 3)

/-- At an edge of its series at which these triples are handed, the group's counter reaches its rotate count (R107). -/
def rotates (g : Group) (handed : List Triple) : Prop :=
  g.policy = .rotate ∧ handed ≠ [] ∧ g.rotateCount ≤ g.rotation + 1

/-- Every channel in WAIT_SYNC drives a SERIES or TRIPLE run for its group, whose measurement is not free, and has its
ready point, the plateau of its ending half-period and the history after it; an order that owns the run stands in the
group (R29, R32 to R34, R103). -/
def waitsForEdge (s : State) (m : Chan → Nat) (p : Chan → Plateau) (h : Chan → List Plateau) : Prop :=
  ∀ c : Chan, s.seqs[c].phase = .waitSync →
    (s.seqs[c].run = .series ∨ s.seqs[c].run = .triple) ∧ s.seqs[c].ready = some (m c) ∧ s.seqs[c].history.length ≤ 3
      ∧ isPlateau s.seqs[c] none (m c) (p c) ∧ h c = historyAfter s.seqs[c].history (p c)
      ∧ ∃ l : GroupId, groupOfInjector s c = some l ∧ seriesOf s l ≠ .none
          ∧ ∀ o ∈ s.intake, s.seqs[c].owner = some o.slot → o.phase = .running → o.group = l

/-- The triples handed at a SYNC edge, in channel order. -/
def handedTogether (s : State) (h : Chan → List Plateau) : List Triple :=
  ((allChans.filter fun c => decide (s.seqs[c].phase = .waitSync)).map fun c => handedAt s c s.seqs[c] (h c)).flatten

/-- Every order of a group but that in one slot is a FINISHING SPOT. -/
def othersFinish (s : State) (l : GroupId) (n : SlotId) : Prop :=
  ∀ o ∈ s.intake, o.group = l → o.slot ≠ n → o.phase = .finishing ∧ ∀ d : Chan, o.job ≠ .selfcheck d

/-- A channel whose run is over (R36, R37, R38). -/
def runOver (q : Seq) : Seq :=
  { q with
    run := .none, owner := none, phase := .none, half := 0, elapsed := 0, accUm := 0, accUb := 0, accCount := 0
    accFullScale := false, windows := [], ready := none, history := [], syncTimer := none, stopRequest := false
    lastAverage := 0 }

/-- An edge that a command brings: the half-period it ends, its plateau, and the history after it. -/
def edgeAt (s : State) (c : Chan) (i : Instr) (q : Seq) (h : List Plateau) : Prop :=
  ∃ (flag : Option Cond) (time : Nat) (p : Plateau),
    EndsHalf s c i q flag time ∧ isPlateau q flag time p ∧ q.history.length ≤ 3 ∧ h = historyAfter q.history p

/-! ### Arithmetic (chapter 3) -/

/-- The fault resistance in ohms of a response, before the clamp at 0 (R50). -/
def faultOhms (x : Triple) (dA : Int) : Int := 20000 * (x.up : Int) * (x.rm : Int) / dA - (x.rs : Int)

/-- The fault resistance in kilohms after the clamp, before the range test (R50, R51). -/
def faultKilohms (x : Triple) (dA : Int) : Nat := ((max 0 (faultOhms x dA)).toNat + 500) / 1000

/-- A rail resistance in kilohms, rounded half up, or the mark where it is above range (R54). -/
def railOf (ohm : Nat) (den : Int) : Nat :=
  let v := (2 * (2 * ohm) + den.toNat) / (2 * den.toNat)
  if 65000 < v then 65535 else v

/-! ### Results (chapters 4 and 5) -/

/-- The strongest action a condition of the set asks for (R81): the class of a result. -/
def classIs (conds : CondSet) (acts : Vector Action 7) : Action → Prop
  | .hold => ∃ i : Fin 7, has8 conds i.val = true ∧ acts[i] = .hold
  | .report => (∀ i : Fin 7, has8 conds i.val = true → acts[i] ≠ .hold)
      ∧ ∃ i : Fin 7, has8 conds i.val = true ∧ acts[i] = .report
  | .ignore => ∀ i : Fin 7, has8 conds i.val = true → acts[i] = .ignore

/-- The context record of a result (R86, R88). -/
def recordFrom (r : Result) (x : CtxRecord) : Prop :=
  x.conds = r.conds ∧ x.highest = highestOf r.conds ∧ x.p1 = r.p1 ∧ x.p2 = r.p2 ∧ x.p3 = r.p3 ∧ x.dA = r.dA
    ∧ x.off2 = r.off2 ∧ x.ub = r.ub ∧ x.planId = r.planId

/-- The result that a CONDITION_RESULT finishes, the results that wait after it, and the state in which steps 3 to 6 of
R82 begin: the result in progress as it stands, or the oldest waiting one with its channel's context updated, unless that
is HELD (R82, R86). -/
def resultTaken (s : State) (r : Result) (rest : List Result) (u : State) : Prop :=
  (s.taken = some r ∧ s.results = rest ∧ u = { s with taken := none })
    ∨ (s.taken = none ∧ s.results = r :: rest
        ∧ (s.seqs[r.chan].ctx = .held → u = { s with results := rest, cuts := s.cuts.tail })
        ∧ (s.seqs[r.chan].ctx ≠ .held → ∃ x : CtxRecord, recordFrom r x
            ∧ u = { s with
                results := rest, cuts := s.cuts.tail
                seqs := upd s.seqs r.chan { s.seqs[r.chan] with ctx := .idle, record := x } }))

/-- A node's figures after a result of its group, apart from its image (R61 to R67). -/
def tookResult (s : State) (r : Result) (stamp : Stamp) (n : NodeId) (x : NodeStatus) : Prop :=
  let old := s.nodes[n]
  x.last = r.conds ∧ x.accrued = old.accrued ||| r.conds ∧ x.source = r.source ∧ x.originMask = stamp.members
    ∧ x.originLeader = byteOf stamp.leader.val ∧ x.originInjector = byteOf stamp.injector.val
    ∧ x.originPlan = (match r.planId with | some p => byteOf p.val | none => 0xFF)
    ∧ (∀ rf, r.valid = true → r.rf = some rf →
        x.rf = rf ∧ x.split = r.split ∧ x.ub = r.ub ∧ x.stamp = s.uptime
        ∧ (s.nodePlan[n] = none → x.state = .unknown
            ∧ (old.state ≠ .unknown → x.candidate = none ∧ x.count = 0)
            ∧ (old.state = .unknown → x.candidate = old.candidate ∧ x.count = old.count))
        ∧ (∀ p : PlanId, s.nodePlan[n] = some p → (x.state, x.candidate, x.count) =
            moveToward s.plans[p].confirm (targetBand s.plans[p] old.state rf) old.state old.candidate old.count))
    ∧ (r.valid = false ∨ r.rf = none → x.rf = old.rf ∧ x.split = old.split ∧ x.ub = old.ub ∧ x.stamp = old.stamp
        ∧ x.state = old.state ∧ x.candidate = old.candidate ∧ x.count = old.count)

/-- A node's image after an event of R64: written with the count raised, or deferred under a hold (R63, R64, R72). -/
def imaged (s t : State) (n : NodeId) : Prop :=
  (s.hold = none → t.nodes[n].deferred = false ∧ t.nodes[n].updateCount = s.nodes[n].updateCount + 1
      ∧ recordShows t.mem n t.nodes[n])
    ∧ (s.hold ≠ none → t.nodes[n].deferred = true ∧ t.nodes[n].updateCount = s.nodes[n].updateCount
      ∧ ∀ k, k < 32 → t.mem.read (recordAddr n + k) = s.mem.read (recordAddr n + k))

/-- The kind result of a completed SPOT (R134, section 11.6). -/
def spotShows (m : Memory) (n : SlotId) (r : Result) (p : PlanId) : Prop :=
  let k := slotAddr n
  let split := r.split.getD ⟨0, 0, 0⟩
  m.read (k + 0x18) = (if r.valid then 1 else 0) ∧ m.read (k + 0x19) = (if r.split.isSome then 1 else 0)
    ∧ m.read16 (k + 0x1A) = r.rf.getD 0 % 65536 ∧ m.read16 (k + 0x1C) = split.rp % 65536
    ∧ m.read16 (k + 0x1E) = split.rn % 65536 ∧ m.read16 (k + 0x20) = (BitVec.ofInt 16 split.apm).toNat
    ∧ m.read16 (k + 0x22) = r.ub % 65536 ∧ m.read (k + 0x24) = r.conds ∧ m.read (k + 0x25) = byteOf p.val
    ∧ m.read16 (k + 0x26) = (BitVec.ofInt 16 r.p1).toNat ∧ m.read16 (k + 0x28) = (BitVec.ofInt 16 r.p2).toNat
    ∧ m.read16 (k + 0x2A) = (BitVec.ofInt 16 r.p3).toNat ∧ m.read16 (k + 0x2C) = r.t1 % 65536
    ∧ m.read16 (k + 0x2E) = r.t2 % 65536 ∧ m.read16 (k + 0x30) = r.t3 % 65536
    ∧ m.read (k + 0x32) = (match r.stamp with | some x => x.members | none => 0)
    ∧ m.read (k + 0x33) = (match r.stamp with | some x => byteOf x.injector.val | none => 0xFF)
    ∧ m.read (k + 0x34) = (match r.stamp with | some x => byteOf x.leader.val | none => 0xFF)
    ∧ ∀ j, 0x35 ≤ j → j < 0x40 → m.read (k + j) = 0

/-- The node is over its maximum age at a staleness check (R69, R70). -/
def isOverAge (s : State) (n : NodeId) : Prop :=
  (s.nodes[n].state = .ok ∨ s.nodes[n].state = .warn ∨ s.nodes[n].state = .fault)
    ∧ ((s.mode = .parked ∧ max 60 (min 7200 (s.mem.read16 0x042)) * 1000 < (s.uptime - s.nodes[n].stamp).toNat)
      ∨ ((s.mode = .run ∨ s.mode = .idle) ∧ ∃ p : PlanId, s.nodePlan[n] = some p
          ∧ s.plans[p].maxAge * 1000 < (s.uptime - s.nodes[n].stamp).toNat))

/-- The rounding of a quotient half away from zero (section 5.3 of the scope). -/
def awayRounded (num : Int) (den : Nat) : Int := num.sign * (((2 * num.natAbs + den) / (2 * den) : Nat) : Int)

end Sys2Proof.Machine
end

