-- ==== Sys2Proof/Certificates/Slice0/Obligations.lean ====
section
/-! DEFINITION. The statements for the provers.  Each docstring names the rules of spec/ it formalises; where a
statement rests on a choice of the model, it says so and names the log entry. -/

section Statements

open Sys2Proof Sys2Proof.Machine

/-! ### The machine -/

/-- The command at the front of the queue is taken, and its effect is the step (the model's queue: log entry 1). -/
def Obligations.StepRunsFrontCommand : Prop :=
  ∀ (c : Instr) (rest : List Instr) (s : State), step { s with pending := c :: rest } = exec c { s with pending := rest }

/-- With no command waiting a step is one millisecond: uptime rises, and every running timer counts down to 0; nothing
else changes (the model's tick: log entry 2). -/
def Obligations.IdleStepIsOneMillisecond : Prop :=
  ∀ s : State, s.pending = [] → ∃ t : State, step s = .next t ∧ t.uptime = s.uptime + 1
    ∧ t.hold = s.hold.map (· - 1)
    ∧ (∀ l : GroupId, t.groups[l] = (s.groups[l]).map fun g => { g with settle := g.settle.map (· - 1) })
    ∧ (∀ c : Chan, t.seqs[c] = { s.seqs[c] with syncTimer := s.seqs[c].syncTimer.map (· - 1) })
    ∧ (∀ c : Chan, t.safety[c] = { s.safety[c] with verify := s.safety[c].verify.map (· - 1) })
    ∧ (∀ n, s.park = .running n → t.park = .running (n - 1)) ∧ ((∀ n, s.park ≠ .running n) → t.park = s.park)
    ∧ { t with uptime := s.uptime, hold := s.hold, park := s.park, groups := s.groups, seqs := s.seqs,
               safety := s.safety } = s

/-- No command stops the part: every command, in every state, answers a next state and takes nothing from the queue
but itself (no rule of spec/ stops the part). -/
def Obligations.NoCommandStops : Prop :=
  ∀ (i : Instr) (s : State), ∃ t : State, exec i s = .next t ∧ t.pending = s.pending

/-- R20, R43, R78, R85, R99, R117, R136, R156, R167, R168, R174 and section 8.1: what hard reset leaves; the commands
that wait are not the part's and stay. The waiting commands and the order of their steps, the enumerated fields of the plan
copies and the scheduling figures of a new group are the model's readings (log entries 1, 4, 5 and 24). -/
def Obligations.HardResetRestoresDefaults : Prop :=
  ∀ s : State, ∃ t : State, exec .hardReset s = .next t ∧ t.pending = s.pending
    ∧ t.starting = true ∧ t.mode = .idle ∧ t.parkedPending = false ∧ t.park = .stopped ∧ t.rotation = []
    ∧ (∀ a, t.mem.read a = 0) ∧ t.err = false ∧ t.uptimeLatch = none ∧ t.uptime = 0
    ∧ controlRegister t = 0 ∧ t.attn = ⟨0, 0, 0, false, false⟩ ∧ attnAsserted t.attn = false ∧ alertAsserted t = false
    ∧ t.hold = none ∧ t.holdExpired = false ∧ t.news = ⟨0, 0, 0, 0, 0⟩
    ∧ t.intakeSeq = 0 ∧ t.intake = [] ∧ t.triples = [] ∧ t.computing = none ∧ t.results = []
    ∧ t.taken = none ∧ t.cause = .none ∧ t.causeChan = none ∧ t.failMask = 0 ∧ t.yields = 0 ∧ t.cuts = s.cuts
    ∧ (∀ n : NodeId, t.slots[n] = .free ∧ t.nodePlan[n] = some 0 ∧ t.nodes[n] = NodeStatus.initial
        ∧ t.groups[n] = some (Group.formed (bit8 n.val)) ∧ groupState t n = .noChannel)
    ∧ (∀ p : PlanId, t.plans[p] = PlanCopy.lowest ∧ t.links[p].joins = none)
    ∧ (∀ c : Chan, t.wiring[c] = ⟨false, 0, 9000, 180000⟩
        ∧ t.safety[c] = ⟨.good, false, 0, .latched, some 5, false⟩
        ∧ t.seqs[c].coupling = .detached ∧ t.seqs[c].run = .none ∧ t.seqs[c].phase = .none
        ∧ t.seqs[c].polarity = .pos ∧ t.seqs[c].elapsed = 0 ∧ t.seqs[c].windows = [] ∧ t.seqs[c].ready = none
        ∧ t.seqs[c].history = [] ∧ t.seqs[c].latestUb = 0 ∧ t.seqs[c].viewLatched = false
        ∧ t.seqs[c].injection = 0 ∧ t.seqs[c].ctx = .none ∧ t.seqs[c].record = CtxRecord.zero)

/-- Reset is a safe state whose memory is canonical and whose working copies stand within their limits. -/
def Obligations.ResetMeetsInvariants : Prop :=
  Safe State.reset ∧ State.reset.mem.wf = true ∧ withinLimits State.reset

/-- Every step keeps a safe state safe: the table shows the partition of the links, every injector is eligible, an
attached channel injects, the reference and the coupling switch are never both closed, SAFE_STOP is quiet, and the
intake list holds TAKEN slots once each (R6, R7, R8, R11, R117, R124, R147, R152). -/
def Obligations.SafeKeptByEveryStep : Prop := ∀ s t : State, Safe s → step s = .next t → Safe t

/-- Every step keeps every plan copy and every calibration copy within its limits, and every plateau history at three
records at most (R4, R5, R34, section 11.5); and it keeps the exchange memory in its canonical form, from any state of
any kind. -/
def Obligations.LimitsAndMemoryFormKeptByEveryStep : Prop :=
  (∀ s t : State, withinLimits s → step s = .next t → withinLimits t)
  ∧ (∀ s t : State, s.mem.wf = true → step s = .next t → t.mem.wf = true)

/-- Only hard reset leaves SAFE_STOP: any other command keeps the mode, the cause, the cause channel and the mode
request, and ALERT stays asserted (R100, R145, R151, R152, R153). -/
def Obligations.SafeStopLeftByHardResetAlone : Prop :=
  ∀ s t : State, s.mode = .safeStop → s.pending.head? ≠ some .hardReset → step s = .next t →
    t.mode = .safeStop ∧ t.cause = s.cause ∧ t.causeChan = s.causeChan ∧ t.request = s.request
      ∧ alertAsserted t = true

/-- R11: in a safe state at most one channel wired into a group is attached, and it is the group's injector. -/
def Obligations.OneAttachedPerGroup : Prop :=
  ∀ s : State, Safe s → ∀ (l : GroupId) (c d : Chan), wiredInto s c (membersOf s l) = true →
    wiredInto s d (membersOf s l) = true → s.seqs[c].coupling = .attached → s.seqs[d].coupling = .attached →
    c = d ∧ injectorOf s l = some c

/-! ### Start-up (R150, R168) -/

/-- R150, R166, R168: the start-up verifies judged together.  In a part that has had no mode request: a closed switch
makes its channel OFFLINE and stands in the mask, with news and level 6 once STARTING clears; the lines are sampled, and
disconnect lines reach no channel; four closed switches, or else an asserted STOP, enter SAFE_STOP.  A mode request taken
during STARTING stands as the mode once start-up is over (no group being measurable then), unless start-up ends in
SAFE_STOP. The early mode request is taken as a mode change (log entry 20). -/
def Obligations.StartupJudged : Prop :=
  (∀ (closed lines : BitVec 4) (s : State), s.starting = true → s.mode = .idle → s.request = .idle →
    ∃ t : State, exec (.startupVerifyExpiry closed lines) s = .next t
      ∧ t.starting = false ∧ t.lines = lines ∧ t.failMask = s.failMask ||| closed
      ∧ (∀ c : Chan, t.safety[c].health = (if closed.getLsbD c.val then .offline else s.safety[c].health)
          ∧ t.safety[c].disconnected = s.safety[c].disconnected)
      ∧ t.news.chanSafety = s.news.chanSafety ||| closed.setWidth 8
      ∧ (has8 t.attn.pending 6 = true ↔ has8 s.attn.pending 6 = true ∨ closed ≠ 0)
      ∧ (closed = 0xF → t.mode = .safeStop ∧ t.cause = .startupFailed ∧ t.causeChan = none)
      ∧ (closed ≠ 0xF → lines.getLsbD 3 = true → t.mode = .safeStop ∧ t.cause = .stopLine ∧ t.causeChan = none)
      ∧ (closed ≠ 0xF → lines.getLsbD 3 = false →
          { t with starting := true, lines := s.lines, failMask := s.failMask, safety := s.safety,
                   news := s.news, attn := s.attn } = s
          ∧ ∀ c : Chan, t.safety[c] = { s.safety[c] with
              verify := none, health := if closed.getLsbD c.val then .offline else s.safety[c].health }))
  ∧ (∀ (closed lines : BitVec 4) (s : State), s.starting = true → s.mode = .idle → s.request ≠ .safeStop →
    s.intake = [] → (∀ (l : GroupId) (g : Group), s.groups[l] = some g → g.measurable = false) →
    closed ≠ 0xF → lines.getLsbD 3 = false →
    ∃ t : State, exec (.startupVerifyExpiry closed lines) s = .next t ∧ t.starting = false ∧ t.mode = s.request
      ∧ (s.request = .parked → t.park = .due ∧ t.rotation = allNodes.filter fun l => (s.groups[l]).isSome))

/-! ### The serial port (chapter 9) -/

/-- R42, R156, R158, R160, R164: a memory read that meets no latch shifts out the status byte, then the byte of every
address in turn, 0x00 with ERR from 0xA00 on; addresses do not wrap, the upper four address bits are ignored, and nothing
else changes.  A read of the first uptime byte latches the count, a read of all four returns one count and releases the
latch, and a read of a view's last byte unlatches a latched view and clears its request byte. A read is one step, and
SDO is kept as log entries 8 and 10 say. -/
def Obligations.MemoryReads : Prop :=
  (∀ (s : State) (a : BitVec 16) (count : Nat), served s →
    (∀ k, k < count → ∀ x, x = a.toNat % 4096 + k → x ≠ 0x04 ∧ x ≠ 0x07 ∧ ∀ c : Chan, x ≠ viewAddr c + 0x1F) →
    exec (.memoryRead (some a) count) s = .next
      { afterAddress s ((List.range count).map fun k =>
          if a.toNat % 4096 + k < 0xA00 then exchangeByte s (a.toNat % 4096 + k) else 0) with
        err := decide (0 < count ∧ 0xA00 < a.toNat % 4096 + count) })
  ∧ (∀ s : State, served s →
    exec (.memoryRead (some 0x004) 4) s = .next { afterAddress s (le32 s.uptime) with uptimeLatch := none }
    ∧ exec (.memoryRead (some 0x004) 1) s =
        .next { afterAddress s [s.uptime.extractLsb' 0 8] with uptimeLatch := some s.uptime }
    ∧ exec (.memoryRead (some 0x007) 1) s =
        .next { afterAddress s [(s.uptimeLatch.getD s.uptime).extractLsb' 24 8] with uptimeLatch := none }
    ∧ ∀ c : Chan, ∃ t : State, exec (.memoryRead (some (BitVec.ofNat 16 (viewAddr c + 0x1F))) 1) s = .next t
        ∧ (s.seqs[c].viewLatched = false → t = afterAddress s [s.mem.read (viewAddr c + 0x1F)])
        ∧ (s.seqs[c].viewLatched = true →
            t = { afterAddress s [s.mem.read (viewAddr c + 0x1F)] with mem := t.mem, seqs := t.seqs }
            ∧ t.mem.read (viewAddr c) = 0 ∧ (∀ x, x ≠ viewAddr c → t.mem.read x = s.mem.read x)
            ∧ t.seqs[c] = { s.seqs[c] with viewLatched := false } ∧ ∀ d : Chan, d ≠ c → t.seqs[d] = s.seqs[d]))

/-- R7, R156, R159, R164, R165, R166, with sections 11.3 and 11.8: the header, the group table, STATUS, CONTROL and the
status byte show their owners' present state. The header and the group table are views (log entry 9). -/
def Obligations.ViewsAndRegistersShowTheirOwners : Prop :=
  (∀ s : State,
    exchangeByte s 0x00 = statusRegister s ∧ exchangeByte s 0x01 = byteOf s.mode.code
    ∧ (∀ k, k < 4 → exchangeByte s (0x04 + k) = (le32 (s.uptimeLatch.getD s.uptime)).getD k 0)
    ∧ exchangeByte s 0x08 = byteOf s.cause.code
    ∧ exchangeByte s 0x09 = (match s.causeChan with | some c => byteOf c.val | none => 0xFF)
    ∧ exchangeByte s 0x0A = s.failMask.setWidth 8 ∧ exchangeByte s 0x0B = s.lines.setWidth 8
    ∧ (∀ c : Chan, exchangeByte s (0x0C + c.val) =
        byteOf (s.safety[c].health.code + if s.safety[c].disconnected then 4 else 0))
    ∧ exchangeByte s 0x10 = s.news.done ∧ exchangeByte s 0x11 = s.news.nodeState
    ∧ exchangeByte s 0x12 = s.news.nodeStale ∧ exchangeByte s 0x13 = s.news.chanCond
    ∧ exchangeByte s 0x14 = s.news.chanSafety
    ∧ (∀ a, (a = 0x02 ∨ a = 0x03 ∨ (0x15 ≤ a ∧ a < 0x40)) → exchangeByte s a = 0)
    ∧ (∀ l : GroupId, s.groups[l] = none → ∀ k, k < 16 → exchangeByte s (groupAddr l + k) = if k = 2 then 0xFF else 0)
    ∧ ∀ (l : GroupId) (g : Group), s.groups[l] = some g →
        exchangeByte s (groupAddr l) = 1 ∧ exchangeByte s (groupAddr l + 1) = g.members
        ∧ exchangeByte s (groupAddr l + 2) = (match g.injector with | some c => byteOf c.val | none => 0xFF)
        ∧ exchangeByte s (groupAddr l + 3) = byteOf (groupState s l).code
        ∧ exchangeByte s (groupAddr l + 4) = (match s.nodePlan[l] with | some p => byteOf p.val | none => 0xFF)
        ∧ exchangeByte s (groupAddr l + 6) = g.seriesCount.extractLsb' 0 8
        ∧ exchangeByte s (groupAddr l + 7) = g.seriesCount.extractLsb' 8 8
        ∧ ∀ k, (k = 5 ∨ (8 ≤ k ∧ k < 16)) → exchangeByte s (groupAddr l + k) = 0)
  ∧ (∀ s : State, ((statusRegister s).toNat % 4 = s.mode.code ∧ (statusRegister s).getLsbD 2 = s.starting
      ∧ (statusRegister s).getLsbD 3 = s.hold.isSome ∧ (statusRegister s).getLsbD 4 = s.holdExpired
      ∧ (statusRegister s).getLsbD 5 = decide (s.mode = .safeStop)
      ∧ (statusRegister s).getLsbD 6 = false ∧ (statusRegister s).getLsbD 7 = false)
    ∧ (controlRegister s).toNat = s.request.code + (if s.hold.isSome then 4 else 0)
    ∧ ((statusByte s).getLsbD 0 = (!s.starting && !s.endPending) ∧ (statusByte s).getLsbD 1 = s.err
      ∧ ((statusByte s).getLsbD 2 = true ↔ s.mode = .safeStop ∨ ∃ n : NodeId, s.nodes[n].state = .fault)
      ∧ (statusByte s).getLsbD 3 = attnAsserted s.attn ∧ (statusByte s).toNat < 16))

/-- R118, R156, R158, R160, R161: a memory write stores exactly the bytes the host owns, sets ERR for every other
byte, and keeps for its end which watched fields it wrote, 0 for a news mask it did not write; nothing else changes.  It
shifts out 0x00 at its two address bytes and at every data byte. -/
def Obligations.MemoryWriteEffect : Prop :=
  ∀ (s : State) (a : BitVec 16) (data : List Byte), served s →
    ∃ t : State, exec (.memoryWrite (some a) data) s = .next t
      ∧ (∀ (x : Nat) (b : Byte), 0x40 ≤ x → wroteByte s (a.toNat % 4096) data x b → t.mem.read x = b)
      ∧ (∀ x : Nat, (x < 0x40 ∨ ∀ b, ¬ wroteByte s (a.toNat % 4096) data x b) → t.mem.read x = s.mem.read x)
      ∧ (t.err = true ↔ ∃ k, k < data.length ∧ ¬ hostOwns s (a.toNat % 4096 + k))
      ∧ t = { afterAddress s (List.replicate data.length 0) with
              mem := t.mem, err := t.err, watch := t.watch, endPending := true }
      ∧ (∀ n : NodeId, has8 t.watch.nodes n.val = true ↔
          ∃ k b, k < 4 ∧ wroteByte s (a.toNat % 4096) data (nodeSettingAddr n + k) b)
      ∧ (∀ n : LinkId, t.watch.links.getLsbD n.val = true ↔
          ∃ k b, k < 4 ∧ wroteByte s (a.toNat % 4096) data (linkAddr n + k) b)
      ∧ (∀ c : Chan, t.watch.wiring.getLsbD c.val = true ↔
          ∃ k b, k < 16 ∧ wroteByte s (a.toNat % 4096) data (wiringAddr c + k) b)
      ∧ (∀ (p : PlanId) (b : Byte), t.watch.plans[p] = some b ↔ wroteByte s (a.toNat % 4096) data (planAddr p) b)
      ∧ (∀ (n : SlotId) (b : Byte), t.watch.slots[n] = some b ↔ wroteByte s (a.toNat % 4096) data (slotAddr n) b)
      ∧ (∀ (c : Chan) (b : Byte), t.watch.views[c] = some b ↔ wroteByte s (a.toNat % 4096) data (viewAddr c) b)
      ∧ ∀ b : Byte, (wroteByte s (a.toNat % 4096) data 0x10 b → t.watch.news.done = b)
          ∧ (wroteByte s (a.toNat % 4096) data 0x11 b → t.watch.news.nodeState = b)
          ∧ (wroteByte s (a.toNat % 4096) data 0x12 b → t.watch.news.nodeStale = b)
          ∧ (wroteByte s (a.toNat % 4096) data 0x13 b → t.watch.news.chanCond = b)
          ∧ (wroteByte s (a.toNat % 4096) data 0x14 b → t.watch.news.chanSafety = b)
          ∧ ((∀ v, ¬ wroteByte s (a.toNat % 4096) data 0x10 v) → t.watch.news.done = 0)
          ∧ ((∀ v, ¬ wroteByte s (a.toNat % 4096) data 0x11 v) → t.watch.news.nodeState = 0)
          ∧ ((∀ v, ¬ wroteByte s (a.toNat % 4096) data 0x12 v) → t.watch.news.nodeStale = 0)
          ∧ ((∀ v, ¬ wroteByte s (a.toNat % 4096) data 0x13 v) → t.watch.news.chanCond = 0)
          ∧ ((∀ v, ¬ wroteByte s (a.toNat % 4096) data 0x14 v) → t.watch.news.chanSafety = 0)

/-- R118, R158, R159, R160, R168: the bytes of a transaction spell its command: a code, then two address bytes, high byte
first, then data.  During STARTING a memory access sets ERR, a read returns 0x00, a write and an offered order are
discarded, and the end of a write has no effect; an order offered in a TAKEN slot is discarded with ERR.  While a write
transaction's end is not handled, every transaction is dropped whole: it shifts out the status byte and 0x00, clears ERR,
and does nothing else.  A transaction that ends before its address is complete does nothing beyond shifting out the status
byte and 0x00; an unknown command sets ERR, and the rest of its transaction is ignored. The end is an event of its own
(log entry 6), and a transaction of no whole byte is no command (log entry 26). -/
def Obligations.TransactionsNotServed : Prop :=
  (∀ (high low : Byte) (data : List Byte) (a : BitVec 16), a.toNat = 256 * high.toNat + low.toNat →
    decodeTransaction (0xA1 :: high :: low :: data) = some (.memoryRead (some a) data.length)
    ∧ decodeTransaction (0xA2 :: high :: low :: data) = some (.memoryWrite (some a) data)
    ∧ decodeTransaction (0xA5 :: high :: low :: data) = some (.registerRead (some a) data.length)
    ∧ decodeTransaction (0xA6 :: high :: low :: data) = some (.registerWrite (some a) data))
  ∧ (∀ part : List Byte, part.length ≤ 1 →
    decodeTransaction (0xA1 :: part) = some (.memoryRead none part.length)
    ∧ decodeTransaction (0xA2 :: part) = some (.memoryWrite none part)
    ∧ decodeTransaction (0xA5 :: part) = some (.registerRead none part.length)
    ∧ decodeTransaction (0xA6 :: part) = some (.registerWrite none part))
  ∧ (∀ (code : Byte) (rest : List Byte), code ≠ 0xA1 → code ≠ 0xA2 → code ≠ 0xA5 → code ≠ 0xA6 →
    decodeTransaction (code :: rest) = some (.unknownCommand code rest.length))
  ∧ decodeTransaction [] = none
  ∧ (∀ s : State, s.starting = true →
    (∀ (a : BitVec 16) (count : Nat), exec (.memoryRead (some a) count) s = .next
      { afterAddress s (List.replicate count 0) with err := decide (0 < count) })
    ∧ (∀ (a : BitVec 16) (data : List Byte), exec (.memoryWrite (some a) data) s = .next
      { afterAddress s (List.replicate data.length 0) with
        err := decide (0 < data.length), endPending := false, watch := Watch.empty })
    ∧ ∀ (i : Instr) (o : Offer), offerOf i = some o → exec i s = .next
      { afterAddress s (List.replicate o.bytes.length 0) with err := true, endPending := false, watch := Watch.empty })
  ∧ (∀ (i : Instr) (o : Offer) (s : State), offerOf i = some o → served s → s.slots[o.slot] = .taken →
    exec i s = .next { afterAddress s (List.replicate o.bytes.length 0) with err := true, watch := Watch.empty })
  ∧ (∀ (i : Instr) (count : Nat) (s : State), bytesAfter i = some count → s.starting = false → s.endPending = true →
    exec i s = .next (afterShift s (List.replicate count 0)))
  ∧ (∀ s : State, s.endPending = false ∨ s.starting = true →
    (∀ count, exec (.memoryRead none count) s = .next (afterShift s (List.replicate count 0)))
    ∧ (∀ data, exec (.memoryWrite none data) s = .next (afterShift s (List.replicate data.length 0)))
    ∧ (∀ count, exec (.registerRead none count) s = .next (afterShift s (List.replicate count 0)))
    ∧ (∀ data, exec (.registerWrite none data) s = .next (afterShift s (List.replicate data.length 0)))
    ∧ ∀ (code : Byte) (rest : Nat), code ≠ 0xA1 → code ≠ 0xA2 → code ≠ 0xA5 → code ≠ 0xA6 →
        exec (.unknownCommand code rest) s = .next { afterShift s (List.replicate rest 0) with err := true })

/-- R158, R160, R165, R172: a register read returns the registers in turn, 0x00 with ERR above 0x007, and a read that
runs over POLL acknowledges a level; nothing else changes. -/
def Obligations.RegisterReadReturnsRegisters : Prop :=
  ∀ (s : State) (a : BitVec 16) (count : Nat), s.endPending = false ∨ s.starting = true →
    exec (.registerRead (some a) count) s = .next
      { afterAddress s ((List.range count).map fun k => registerByte s (a.toNat % 4096 + k)) with
        err := decide (0 < count ∧ 8 < a.toNat % 4096 + count)
        attn := if a.toNat % 4096 ≤ 7 ∧ 7 < a.toNat % 4096 + count then s.attn.poll.2 else s.attn }

/-- R160, R165, R166, R173: a register write of one byte is the command its address names, an END value at POLL above
0x08 has no effect, and a write to a read-only register or above 0x007 is discarded with ERR.  A write of several bytes
takes them in turn, each at the next register and against the state that the bytes before it left. -/
def Obligations.RegisterWriteActs : Prop :=
  ∀ (s : State) (a : BitVec 16) (v : Byte), s.endPending = false ∨ s.starting = true →
    (a.toNat % 4096 = 3 → exec (.registerWrite (some a) [v]) s =
      if v.getLsbD 7 then exec (.softReset (v.setWidth 2) (v.getLsbD 2)) s
      else exec (.modeRequest (v.setWidth 2) (v.getLsbD 2)) s)
    ∧ (a.toNat % 4096 = 4 → exec (.registerWrite (some a) [v]) s = exec (.attnMask v) s)
    ∧ (a.toNat % 4096 = 7 → v.toNat ≤ 7 → exec (.registerWrite (some a) [v]) s = exec (.specificEnd v) s)
    ∧ (a.toNat % 4096 = 7 → v = 8 → exec (.registerWrite (some a) [v]) s = exec .nonSpecificEnd s)
    ∧ (a.toNat % 4096 = 7 → 9 ≤ v.toNat → exec (.registerWrite (some a) [v]) s = .next (afterAddress s [0]))
    ∧ ((a.toNat % 4096 ≤ 2 ∨ a.toNat % 4096 = 5 ∨ a.toNat % 4096 = 6 ∨ 8 ≤ a.toNat % 4096) →
        exec (.registerWrite (some a) [v]) s = .next { afterAddress s [0] with err := true })
    ∧ (∀ m : BitVec 2, exec (.holdStart m) s = exec (.modeRequest m true) s
        ∧ exec (.hostRelease m) s = exec (.modeRequest m false) s)
    ∧ exec (.registerWrite (some a) []) s = .next (afterAddress s [])
    ∧ ∀ (data : List Byte) (x : Nat) (u : State), x = a.toNat % 4096 + data.length →
        exec (.registerWrite (some a) data) s = .next u →
        ∃ t : State, exec (.registerWrite (some a) (data ++ [v])) s = .next t
          ∧ (x = 3 → t = { u.writeControl v with sdo := u.sdo ++ [0] })
          ∧ (x = 4 → t = { u with sdo := u.sdo ++ [0], attn := { u.attn with mask := v } })
          ∧ (x = 7 → t = { u with sdo := u.sdo ++ [0], attn := t.attn }
              ∧ (∀ n : Level, v = byteOf n.val → levelEnded u.attn t.attn n)
              ∧ (v = 8 → (∀ n : Level, has8 u.attn.inService n.val = true →
                    (∀ m : Level, m < n → has8 u.attn.inService m.val = false) → levelEnded u.attn t.attn n)
                  ∧ (u.attn.inService = 0 → t.attn = u.attn))
              ∧ (9 ≤ v.toNat → t.attn = u.attn))
          ∧ ((x ≤ 2 ∨ x = 5 ∨ x = 6 ∨ 8 ≤ x) → t = { u with sdo := u.sdo ++ [0], err := true })

/-! ### Write transaction ends (R162) -/

/-- R41, R119 to R121, R161 to R163: the end of a memory write that wrote nothing watched but news masks clears the bits
written as ones, and nothing else; where no end waits, nothing happens (log entry 6).  Where its one watched byte is the
state of a slot that is not TAKEN, FREE gives the slot back, a value that is neither FREE nor OFFERED is ignored and the
slot's state written back, and OFFERED with a kind that names none of the nine is refused BAD_KIND.  Where it is the request
byte of a live view, 1 copies the channel's present values into an unlatched view and latches it, and any other value, or
a latched view, changes nothing.  An end is handled kind by kind: news masks, then plans, disconnect settings and topology
with their one regroup, then slots in ascending number, then views.  So intake numbers ascend with the slots, a SPOT sees the
plan published and the YIELD carried out by the same write. -/
def Obligations.NewsAndSlotWritesTaken : Prop :=
  ((∀ (s : State) (w : News), s.endPending = true → s.watch = { Watch.empty with news := w } →
    exec .writeTransactionEnd s = .next
      { s with
        endPending := false, watch := Watch.empty
        news := ⟨s.news.done &&& ~~~w.done, s.news.nodeState &&& ~~~w.nodeState, s.news.nodeStale &&& ~~~w.nodeStale,
          s.news.chanCond &&& ~~~w.chanCond, s.news.chanSafety &&& ~~~w.chanSafety⟩ })
  ∧ ∀ s : State, s.endPending = false → exec .writeTransactionEnd s = .next s)
  ∧ (∀ (s : State) (n : SlotId) (b : Byte), s.endPending = true → s.slots[n] ≠ .taken → (∀ x ∈ s.intake, x.slot ≠ n) →
    s.watch = { Watch.empty with slots := upd Watch.empty.slots n (some b) } →
    ∃ t : State, exec .writeTransactionEnd s = .next t
      ∧ (b = 0 → t = { s with endPending := false, watch := Watch.empty, slots := upd s.slots n .free })
      ∧ (2 ≤ b.toNat → t = { s with endPending := false, watch := Watch.empty, mem := t.mem }
          ∧ t.mem.read (slotAddr n) = byteOf s.slots[n].code
          ∧ ∀ a, a ≠ slotAddr n → t.mem.read a = s.mem.read a)
      ∧ (b = 1 → s.mode ≠ .safeStop →
          (s.mem.read (slotAddr n + 1)).toNat = 0 ∨ 10 ≤ (s.mem.read (slotAddr n + 1)).toNat →
          onlySlot { s with endPending := false, watch := Watch.empty, intakeSeq := s.intakeSeq + 1 } t n
          ∧ t.slots[n] = .refused ∧ t.mem.read (slotAddr n) = 4
          ∧ (∀ k, 1 ≤ k → k < 0x10 → t.mem.read (slotAddr n + k) = s.mem.read (slotAddr n + k))
          ∧ ∀ k, k < 48 → t.mem.read (slotAddr n + 0x10 + k) =
              (le16 s.intakeSeq ++ [4, 0xFF, 0, byteOf Reason.badKind.code]).getD k 0))
  ∧ (∀ (s : State) (c : Chan) (b : Byte), s.endPending = true →
    s.watch = { Watch.empty with views := upd Watch.empty.views c (some b) } →
    ∃ t : State, exec .writeTransactionEnd s = .next t
      ∧ (b ≠ 1 ∨ s.seqs[c].viewLatched = true → t = { s with endPending := false, watch := Watch.empty })
      ∧ (b = 1 → s.seqs[c].viewLatched = false →
          t = { s with
            endPending := false, watch := Watch.empty, mem := t.mem
            seqs := upd s.seqs c { s.seqs[c] with viewLatched := true } }
          ∧ viewShows s t.mem c ∧ ∀ a, ¬ (viewAddr c < a ∧ a < viewAddr c + 32) → t.mem.read a = s.mem.read a))
  ∧ (∀ (s t0 t1 t2 t3 t : State) (w : Watch) (n : SlotId),
    endsAs s { Watch.empty with news := w.news } t0 →
    endsAs t0 { w with news := Watch.empty.news, slots := Watch.empty.slots, views := Watch.empty.views } t1 →
    endsAs t1 { Watch.empty with slots := Vector.ofFn fun k => if k < n then w.slots[k] else none } t2 →
    endsAs t2 { Watch.empty with slots := Vector.ofFn fun k => if k < n then none else w.slots[k] } t3 →
    endsAs t3 { Watch.empty with views := w.views } t → endsAs s w t)
  ∧ (∀ (s : State) (n m : SlotId), n < m → s.mode ≠ .safeStop → s.slots[n] ≠ .taken → s.slots[m] ≠ .taken →
    (∀ x ∈ s.intake, x.slot ≠ n ∧ x.slot ≠ m) →
    (OrderKind.ofByte (s.mem.read (slotAddr n + 1)) = none ∧ OrderKind.ofByte (s.mem.read (slotAddr m + 1)) = none) →
    ∃ t : State, endsAs s { Watch.empty with slots := upd (upd Watch.empty.slots n (some 1)) m (some 1) } t
      ∧ t.mem.read16 (slotAddr n + 0x10) = s.intakeSeq.toNat
      ∧ t.mem.read16 (slotAddr m + 0x10) = (s.intakeSeq + 1).toNat ∧ t.intakeSeq = s.intakeSeq + 2
      ∧ t.slots[n] = .refused ∧ t.slots[m] = .refused)
  ∧ ∀ (s : State) (m : SlotId) (p : PlanId) (node : NodeId) (g : Group), s.mode ≠ .safeStop → tableAgrees s →
    intakeSound s → s.slots[m] ≠ .taken → (∀ x ∈ s.intake, x.slot ≠ m) →
    s.groups[leaderOf s node] = some g → s.mem.read (slotAddr m + 1) = 1 → s.mem.read (slotAddr m + 2) = byteOf node.val →
    s.mem.read (slotAddr m + 3) = byteOf p.val →
    (g.members &&& s.yields ≠ 0 → ∃ t : State,
      endsAs s { Watch.empty with
        plans := upd Watch.empty.plans p (some 1), slots := upd Watch.empty.slots m (some 1) } t
      ∧ t.plans[p].ready = true ∧ t.slots[m] = .refused ∧ t.mem.read (slotAddr m + 0x15) = byteOf Reason.passive.code)
    ∧ ∀ (n : SlotId) (y : NodeId), n < m → s.plans[p].ready = true → s.slots[n] ≠ .taken → (∀ x ∈ s.intake, x.slot ≠ n) →
      s.mem.read (slotAddr n + 1) = 7 → s.mem.read (slotAddr n + 2) = byteOf y.val → has8 g.members y.val = true →
      ∃ t : State, endsAs s { Watch.empty with slots := upd (upd Watch.empty.slots n (some 1)) m (some 1) } t
        ∧ t.slots[n] = .done ∧ t.slots[m] = .refused ∧ t.mem.read (slotAddr m + 0x15) = byteOf Reason.passive.code

/-- R5, R180, section 11.5: at the end of a memory write whose one watched byte is a plan's status, READY publishes the plan
from the memory and writes its check field, and any other value withdraws the copy, settings and check field kept.  A
publication clamps every numeric field, substitutes every undefined code, and marks exactly those fields. -/
def Obligations.PlanPublication : Prop :=
  (∀ (s : State) (p : PlanId) (b : Byte), s.endPending = true →
    s.watch = { Watch.empty with plans := upd Watch.empty.plans p (some b) } →
    ∃ t : State, exec .writeTransactionEnd s = .next t
      ∧ (∀ q : PlanId, q ≠ p → t.plans[q] = s.plans[q])
      ∧ t.plans[p] = (if b = 1 then (readPlan s.mem p).1 else { s.plans[p] with ready := false })
      ∧ (∀ k, k < 4 → t.mem.read (planAddr p + 0x28 + k) =
          if b = 1 then (le32 (readPlan s.mem p).2).getD k 0 else s.mem.read (planAddr p + 0x28 + k))
      ∧ (∀ a, ¬ inSlots a → ¬ (planAddr p + 0x28 ≤ a ∧ a < planAddr p + 0x2C) → t.mem.read a = s.mem.read a)
      ∧ Measuring { s with endPending := false, watch := Watch.empty, plans := t.plans, mem := t.mem } t)
  ∧ (∀ (m : Memory) (p : PlanId) (a : Nat) (c : PlanCopy) (marks : BitVec 32), a = planAddr p → (c, marks) = readPlan m p →
    c.ready = true ∧ planWithinLimits c
    ∧ clamps (m.read (a + 0x01)).toNat 10 50 c.up (marks.getLsbD 0)
    ∧ picks (m.read (a + 0x02)) .pos .neg c.startPol (marks.getLsbD 1)
    ∧ clamps (m.read16 (a + 0x04)) 0 2000 c.blank (marks.getLsbD 2)
    ∧ clamps (m.read16 (a + 0x06)) 100 20000 c.halfMin (marks.getLsbD 3)
    ∧ clamps (m.read16 (a + 0x08)) c.halfMin 60000 c.halfMax (marks.getLsbD 4)
    ∧ clamps (m.read (a + 0x03)).toNat 2 6 c.k (marks.getLsbD 5)
    ∧ clamps (m.read16 (a + 0x0A)) 1 500 c.tolerance (marks.getLsbD 6)
    ∧ clamps (m.read (a + 0x0C)).toNat 1 8 c.settleCount (marks.getLsbD 7)
    ∧ clamps (m.read16 (a + 0x0E)) 1 5000 c.drift (marks.getLsbD 8)
    ∧ clamps (m.read (a + 0x0D)).toNat 1 100 c.daMin (marks.getLsbD 9)
    ∧ picks (m.read (a + 0x10)) .free .triggered c.sync (marks.getLsbD 10)
    ∧ clamps (m.read16 (a + 0x12)) 10 5000 c.syncTimeout (marks.getLsbD 11)
    ∧ clamps (m.read16 (a + 0x14)) 1 65000 c.warnK (marks.getLsbD 12)
    ∧ clamps (m.read16 (a + 0x16)) 1 c.warnK c.faultK (marks.getLsbD 13)
    ∧ clamps (m.read (a + 0x18)).toNat 0 50 c.hysteresis (marks.getLsbD 14)
    ∧ clamps (m.read (a + 0x19)).toNat 1 8 c.confirm (marks.getLsbD 15)
    ∧ clamps (m.read16 (a + 0x1A)) 1 600 c.maxAge (marks.getLsbD 16)
    ∧ clamps (m.read16 (a + 0x1C)) 0 5000 c.settle (marks.getLsbD 17)
    ∧ picks (m.read (a + 0x11)) .lowest .rotate c.policy (marks.getLsbD 18)
    ∧ clamps (m.read (a + 0x1E)).toNat 1 255 c.rotate (marks.getLsbD 19)
    ∧ (∀ i : Fin 7, c.actions[i] = (match (m.read (a + 0x20 + i.val)).toNat with
          | 0 => .ignore | 2 => .hold | _ => .report)
        ∧ (marks.getLsbD (20 + i.val) = true ↔ 3 ≤ (m.read (a + 0x20 + i.val)).toNat))
    ∧ ∀ k, 27 ≤ k → marks.getLsbD k = false)

/-- R2, R6: two nodes stand in one group exactly where a chain of link entries that join connects them, and a group's
leader is its lowest-numbered member. -/
def Obligations.PartitionIsConnectivity : Prop :=
  (∀ (e : LinkCopy) (x y : NodeId), e.joins = some (x, y) ↔
    e.nodeA = byteOf x.val ∧ e.nodeB = byteOf y.val ∧ x ≠ y ∧ (e.state = .closed ∨ e.state = .unknown))
  ∧ ∀ (links : Vector LinkCopy 16) (a b : NodeId),
    ((partition links)[a] = (partition links)[b] ↔
      Relation.EqvGen (fun x y => ∃ i : LinkId, links[i].joins = some (x, y)) a b)
    ∧ (partition links)[a] ≤ a ∧ (partition links)[(partition links)[a]] = (partition links)[a]

/-- R1 to R5, R127, R139, R140, R142, R162: the end of a memory write that wrote nothing watched but plan statuses, node
settings, links and wiring takes the working copies of what it wrote and of nothing else; a channel whose wiring record was
written is disconnected where an enabled line is asserted, and a disconnected FOLLOW channel comes back where none is, each
with channel-safety news and level 6; one regroup then leaves the table agreeing with the links and every injector eligible.
Every waiting order stands in the group that contains its target, a FINISHING order in the group that contains its former
leader, in their places in the list and with their slots' group fields; a waiting SELFCHECK whose channel is now wired to no
node is refused BAD_CHANNEL.  News and level 6 come in step 3 (log entry 18). -/
def Obligations.WorkingCopiesTaken : Prop :=
  ∀ (s : State) (nodes : BitVec 8) (links : BitVec 16) (wiring : BitVec 4) (plans : Vector (Option Byte) 16)
    (mask : Chan → BitVec 3) (follow : Chan → Prop) (begins ends : Chan → Prop), s.endPending = true → intakeSound s →
    s.watch = { Watch.empty with nodes := nodes, links := links, wiring := wiring, plans := plans } →
    nodes ≠ 0 ∨ links ≠ 0 ∨ wiring ≠ 0 ∨ (∃ p : PlanId, plans[p] ≠ none) →
    (∀ c : Chan, mask c = (s.mem.read (wiringAddr c + 8)).setWidth 3 ∧ (follow c ↔ s.mem.read (wiringAddr c + 9) = 1)) →
    (∀ c : Chan, begins c ↔ wiring.getLsbD c.val = true ∧ s.safety[c].disconnected = false
      ∧ ∃ i, i < 3 ∧ (mask c).getLsbD i = true ∧ s.lines.getLsbD i = true) →
    (∀ c : Chan, ends c ↔ wiring.getLsbD c.val = true ∧ s.safety[c].disconnected = true ∧ follow c
      ∧ ∀ i, i < 3 → (mask c).getLsbD i = true → s.lines.getLsbD i = false) →
    ∃ t : State, exec .writeTransactionEnd s = .next t
      ∧ (∀ n : NodeId, t.nodePlan[n] = if has8 nodes n.val then indexOf 16 (s.mem.read (nodeSettingAddr n))
          else s.nodePlan[n])
      ∧ (∀ i : LinkId, t.links[i] = if links.getLsbD i.val then
            ⟨s.mem.read (linkAddr i), s.mem.read (linkAddr i + 1),
              match (s.mem.read (linkAddr i + 2)).toNat with | 0 => .open_ | 1 => .closed | _ => .unknown⟩
          else s.links[i])
      ∧ (∀ c : Chan, t.wiring[c] = if wiring.getLsbD c.val then
            ⟨decide (s.mem.read (wiringAddr c) = 1), s.mem.read (wiringAddr c + 1),
              max 9000 (min 11000 (s.mem.read16 (wiringAddr c + 2))),
              max 180000 (min 220000 (s.mem.read32 (wiringAddr c + 4)))⟩
          else s.wiring[c])
      ∧ (∀ p : PlanId, t.plans[p] = (match plans[p] with
            | some b => if b = 1 then (readPlan s.mem p).1 else { s.plans[p] with ready := false }
            | none => s.plans[p])
          ∧ ∀ k, k < 4 → t.mem.read (planAddr p + 0x28 + k) =
              if plans[p] = some 1 then (le32 (readPlan s.mem p).2).getD k 0 else s.mem.read (planAddr p + 0x28 + k))
      ∧ (∀ c : Chan, wiring.getLsbD c.val = true →
          t.safety[c].discMask = mask c ∧ (t.safety[c].discMode = .follow ↔ follow c))
      ∧ (∀ c : Chan, (begins c → t.safety[c].disconnected = true ∧ t.seqs[c].coupling = .detached
            ∧ (s.seqs[c].coupling = .attached → t.safety[c].verify = some 5))
          ∧ (ends c → t.safety[c].disconnected = false)
          ∧ (¬ begins c → ¬ ends c → t.safety[c].disconnected = s.safety[c].disconnected)
          ∧ t.safety[c].health = s.safety[c].health
          ∧ (has8 t.news.chanSafety c.val = true ↔ has8 s.news.chanSafety c.val = true ∨ begins c ∨ ends c))
      ∧ (has8 t.attn.pending 6 = true ↔ has8 s.attn.pending 6 = true ∨ ∃ c : Chan, begins c ∨ ends c)
      ∧ tableAgrees t ∧ injectorsEligible t ∧ attachedInject t
      ∧ (∀ o ∈ t.intake, (o.phase = .waiting → targetGroup t o = some o.group)
          ∧ t.mem.read (slotAddr o.slot + 0x13) = byteOf o.group.val)
      ∧ (∀ o ∈ s.intake, (o.phase = .finishing → { o with group := leaderOf t o.group } ∈ t.intake)
          ∧ (o.phase = .waiting → targetGroup t o = none → t.slots[o.slot] = .refused
              ∧ t.mem.read (slotAddr o.slot) = 4 ∧ t.mem.read (slotAddr o.slot + 0x15) = byteOf Reason.badChannel.code
              ∧ has8 t.news.done o.slot.val = true ∧ has8 t.attn.pending 4 = true))
      ∧ (t.intake.map (·.slot)).Sublist (s.intake.map (·.slot))
      ∧ (∀ a, ¬ inSlots a → (∀ p : PlanId, ¬ (planAddr p + 0x28 ≤ a ∧ a < planAddr p + 0x2C)) →
          t.mem.read a = s.mem.read a)
      ∧ { t.fixed with news := s.fixed.news } = { s.fixed with
          endPending := false, watch := Watch.empty, nodePlan := t.nodePlan, links := t.links, wiring := t.wiring
          plans := t.plans }
      ∧ t.news.nodeState = s.news.nodeState ∧ t.news.nodeStale = s.news.nodeStale ∧ t.news.chanCond = s.news.chanCond

/-- R6, R7, R10, R12, R15, R16: a regroup by node settings and links, with no order taken.  In IDLE a group whose members
are those it had and whose injector stays eligible goes on undisturbed; any other group is newly formed, with the lowest
eligible channel, its series count at 0 and its settle timer started; level 7 is raised exactly where a member mask or an
injector changed.  In RUN a newly formed group has no series, but one whose settle time is 0 starts its first at once (R106);
the series of a group that is gone or changed is over, its channel detached with a verify; the series of a kept group goes
on undisturbed. -/
def Obligations.RegroupFormsGroups : Prop :=
  (∀ (s : State) (nodes : BitVec 8) (links : BitVec 16), s.endPending = true → Safe s → restful s →
    s.watch = { Watch.empty with nodes := nodes, links := links } → nodes ≠ 0 ∨ links ≠ 0 →
    ∃ t : State, exec .writeTransactionEnd s = .next t
      ∧ (∀ (l : GroupId) (g : Group) (c : Chan), s.groups[l] = some g →
          (t.groups[l]).map (·.members) = some g.members → g.injector = some c → mayInject t l c →
          readyPlan t l ≠ none → g.waitPlan = false → t.groups[l] = some g)
      ∧ (∀ (l : GroupId) (g : Group), t.groups[l] = some g → (s.groups[l]).map (·.members) ≠ some g.members →
          g.seriesCount = 0 ∧ g.series = .none ∧ lowestInjects t l g ∧ settleStarted t l g)
      ∧ (has8 t.attn.pending 7 = true ↔ has8 s.attn.pending 7 = true ∨ ∃ l : GroupId,
          (t.groups[l]).map (·.members) ≠ (s.groups[l]).map (·.members) ∨ injectorOf t l ≠ injectorOf s l))
  ∧ ∀ (s : State) (nodes : BitVec 8) (links : BitVec 16), s.endPending = true → Safe s → s.mode = .run → s.intake = [] →
    s.parkedPending = false → (∀ c : Chan, s.seqs[c].run = .none → s.seqs[c].coupling = .detached) →
    s.watch = { Watch.empty with nodes := nodes, links := links } → nodes ≠ 0 ∨ links ≠ 0 →
    ∃ t : State, exec .writeTransactionEnd s = .next t ∧ t.mode = .run
      ∧ (∀ (l : GroupId) (g : Group), t.groups[l] = some g → (s.groups[l]).map (·.members) ≠ some g.members →
          lowestInjects t l g ∧ settleStarted t l g
          ∧ (g.measurable = false → g.series = .none ∧ g.seriesCount = 0)
          ∧ (g.measurable = true → g.series = .series ∧ g.seriesCount = 1))
      ∧ (∀ (l : GroupId) (g : Group) (c : Chan), s.groups[l] = some g → g.injector = some c →
          (t.groups[l]).map (·.members) ≠ some g.members → g.series = .series ∨ g.series = .stopping →
          s.seqs[c].run = .series →
          (s.seqs[c].coupling = .attached → t.safety[c] = { s.safety[c] with verify := some 5 })
          ∧ ((∀ (m : GroupId) (x : Group), t.groups[m] = some x → x.injector = some c → x.measurable = false) →
              t.seqs[c] = { runOver s.seqs[c] with coupling := .detached })
          ∧ ∀ (m : GroupId) (x : Group) (p : PlanId), t.groups[m] = some x → x.injector = some c → x.measurable = true →
              t.nodePlan[m] = some p → s.seqs[c].coupling = .attached →
              t.seqs[c] = { waitingRun s.seqs[c] .series none ⟨t.plans[p], some p, s.wiring[c].rm, s.wiring[c].rs⟩ with
                coupling := .detached })
      ∧ ∀ (l : GroupId) (g : Group) (c : Chan), s.groups[l] = some g →
          (t.groups[l]).map (·.members) = some g.members → g.injector = some c → mayInject t l c →
          readyPlan t l ≠ none → g.waitPlan = false → g.series = .series ∨ g.series = .stopping →
          s.seqs[c].run = .series →
          t.groups[l] = some g ∧ t.seqs[c] = s.seqs[c] ∧ t.safety[c] = s.safety[c]

/-! ### Orders (chapter 7) -/

/-- An order command is the memory write that offers the order in its slot, and the handling of that write's end (the
model's reading of the table's order rows: log entry 8). -/
def Obligations.OrderIsOneWriteTransaction : Prop :=
  ∀ (i : Instr) (o : Offer) (s : State), offerOf i = some o → served s →
    ∃ u : State, exec (.memoryWrite (some (BitVec.ofNat 16 (slotAddr o.slot))) o.bytes) s = .next u
      ∧ u.endPending = true ∧ exec i s = exec .writeTransactionEnd u

/-- R120, R121, R123, R131, R135, R143, R76, R94: an order that fails a check at its intake completes REFUSED with the
reason of that check and the kind result of a refused order, and changes nothing but its slot. The kind results are as
log entry 15 reads the rules. -/
def Obligations.OrdersRefusedAtIntake : Prop :=
  ∀ (i : Instr) (o : Offer) (why : Reason) (s : State), offerOf i = some o → offerable s o → RefusedAtIntake s i why →
    ∃ t : State, exec i s = .next t
      ∧ completedAtIntake s t o .refused (byteOf why.code) (refusedFigures s i) ∧ onlySlot (afterOffer s o) t o.slot

/-- R10, R12, R17, R18, R19: YIELD sets and RESUME clears the node's yield flag and its byte in the record, outside the
image; the regroup leaves a yielded node's group PASSIVE without an injector and every injector eligible.  After a RESUME
the node's group is PASSIVE exactly where another member's flag stands; where none does, the group takes the lowest eligible
channel and starts its settle timer.  The slot goes DONE with the flag before and the leader after. -/
def Obligations.YieldAndResumeFlagTheNode : Prop :=
  ∀ (n : SlotId) (node : NodeId) (flag : Bool) (i : Instr) (o : Offer) (s : State), Safe s → s.mode ≠ .safeStop →
    i = (if flag then .yieldNode n (byteOf node.val) else .resumeNode n (byteOf node.val)) → offerOf i = some o →
    offerable s o →
    ∃ t : State, exec i s = .next t
      ∧ (∀ m : NodeId, has8 t.yields m.val = if m = node then flag else has8 s.yields m.val)
      ∧ t.mem.read (recordAddr node + 0x1C) = (if flag then 1 else 0)
      ∧ completedAtIntake s t o .done 0
          [if has8 s.yields node.val then 1 else 0, byteOf (leaderOf t node).val]
      ∧ (flag = true → groupState t (leaderOf t node) = .passive ∧ injectorOf t (leaderOf t node) = none)
      ∧ (flag = false → (groupState t (leaderOf t node) = .passive ↔ membersOf t (leaderOf t node) &&& t.yields ≠ 0))
      ∧ regrouped s t
      ∧ Measuring { afterOffer s o with
          yields := t.yields, mem := s.mem.write (recordAddr node + 0x1C) (if flag then 1 else 0) } t

/-- R91, R92, R93: SNAPSHOT writes the channel's context into its frame, SNAPSHOT and RELEASE take a HELD context to
IDLE with its record kept and a regroup, which gives a group without an injector the lowest channel now eligible and starts
its settle timer; they leave any other context, and every run, as it stands. -/
def Obligations.SnapshotAndRelease : Prop :=
  ∀ (n : SlotId) (c : Chan) (i : Instr) (o : Offer) (s : State) (mem : Memory), s.mode ≠ .safeStop →
    (i = .snapshot n (byteOf c.val) ∧ mem = s.mem.writeBytes (frameAddr c) (frameBytes c s.seqs[c].ctx s.seqs[c].record)
      ∨ i = .release n (byteOf c.val) ∧ mem = s.mem) →
    offerOf i = some o → offerable s o →
    ∃ t : State, exec i s = .next t
      ∧ (i = .snapshot n (byteOf c.val) → frameShows t.mem c s.seqs[c].ctx s.seqs[c].record)
      ∧ t.seqs[c].record = s.seqs[c].record
      ∧ (s.seqs[c].ctx ≠ .held →
          completedAtIntake s t o .done 0 [byteOf s.seqs[c].ctx.code, byteOf s.seqs[c].ctx.code]
          ∧ onlySlot { afterOffer s o with mem := mem } t n)
      ∧ (s.seqs[c].ctx = .held →
          completedAtIntake s t o .done 0 [2, 1] ∧ t.seqs[c].ctx = .idle ∧ (intakeSound s → regrouped s t)
          ∧ Measuring { afterOffer s o with mem := mem, seqs := upd s.seqs c { s.seqs[c] with ctx := .idle } } t)

/-- R94 to R97, R128: RESTORE of a well-formed frame sets the channel's kind and record from it.  A HELD frame leaves the
channel no group's injector.  A NONE or IDLE frame on an attached channel ends its SERIES or TRIPLE run and detaches it with
a verify: a series of a group that may measure starts again on the same channel, which stays the injector, with the settle
timer untouched; a SPOT's abandon count rises, and it is granted again, or refused TOPOLOGY at the third.  A SELFCHECK run
goes on with its history, and its order in its group (an order of a group that no node leads, which no run reaches, passes as
R130 says); without one the history is emptied.  The context is set before what was abandoned starts again, so a NONE frame
then leaves kind IDLE (log entry 22). -/
def Obligations.RestoreSetsTheContext : Prop :=
  ∀ (n : SlotId) (c : Chan) (kind : CtxKind) (o : Offer) (s : State), Safe s → s.mode ≠ .safeStop →
    offerOf (.restore n (byteOf c.val)) = some o → offerable s o →
    s.mem.read (frameAddr c) = byteOf kind.code → s.mem.read (frameAddr c + 1) = byteOf c.val →
    ∃ t : State, exec (.restore n (byteOf c.val)) s = .next t
      ∧ completedAtIntake s t o .done 0 [byteOf s.seqs[c].ctx.code, byteOf kind.code]
      ∧ (t.seqs[c].ctx = kind ∨ kind = .none ∧ t.seqs[c].ctx = .idle)
      ∧ (kind = .none → t.seqs[c].record = CtxRecord.zero) ∧ (kind ≠ .none → frameGives s.mem c t.seqs[c].record)
      ∧ (kind = .held → t.seqs[c].coupling = .detached ∧ ∀ l : GroupId, injectorOf t l ≠ some c)
      ∧ (∀ a, ¬ inSlots a → t.mem.read a = s.mem.read a) ∧ t.fixed = (afterOffer s o).fixed
      ∧ (∀ d : Chan, d ≠ c → t.seqs[d].record = s.seqs[d].record)
      ∧ (kind ≠ .held → s.seqs[c].ctx ≠ .held → s.mode = .idle → s.intake = [] →
          t.seqs[c].ctx = kind ∧ injectorOf t = injectorOf s ∧ (s.seqs[c].run = .none → t.seqs[c].history = []))
      ∧ (∀ (m : SlotId) (l : GroupId) (k : Nat), s.mode = .idle → s.parkedPending = false →
          s.intake = [⟨m, .selfcheck c, .running, l, k⟩] → s.seqs[c].run = .selfcheck → s.seqs[c].coupling = .detached →
          t.seqs[c] = { s.seqs[c] with ctx := kind, record := t.seqs[c].record }
          ∧ (t.intake = s.intake ∨ s.groups[l] = none ∧ t.intake = [⟨m, .selfcheck c, .running, leaderOf t l, k⟩]))
      ∧ ∀ (l : GroupId) (g : Group) (q : Seq), kind ≠ .held → s.seqs[c].ctx ≠ .held → s.seqs[c].coupling = .attached →
          s.groups[l] = some g → g.injector = some c → ownInjector s l c →
          q = { s.seqs[c] with coupling := .detached, ctx := kind, record := t.seqs[c].record } →
          (∀ p : PlanId, s.mode = .run → s.intake = [] → s.seqs[c].run = .series → g.series = .series ∨ g.series = .stopping →
            g.measurable = true → s.nodePlan[l] = some p → s.plans[p].ready = true →
            t.groups[l] = some { g with
              series := .series, policy := s.plans[p].policy, rotateCount := s.plans[p].rotate, rotation := 0
              seriesCount := g.seriesCount + 1 }
            ∧ t.safety[c] = { s.safety[c] with verify := some 5 }
            ∧ t.seqs[c] = waitingRun q .series none ⟨s.plans[p], some p, s.wiring[c].rm, s.wiring[c].rs⟩)
          ∧ ∀ (m : SlotId) (node : NodeId) (p : PlanId) (k : Nat), s.mode = .idle → s.parkedPending = false →
            s.intake = [⟨m, .spot node p, .running, l, k⟩] → s.seqs[c].run = .triple → g.series = .order → g.settle = none →
            s.plans[p].ready = true →
            t.safety[c] = { s.safety[c] with verify := some 5 } ∧ t.mem.read (slotAddr m + 0x14) = byteOf (k + 1)
            ∧ (k + 1 < 3 → t.intake = [⟨m, .spot node p, .running, l, k + 1⟩]
                ∧ t.groups[l] = some { g with seriesCount := g.seriesCount + 1 }
                ∧ t.seqs[c] = waitingRun q .triple (some m) ⟨s.plans[p], some p, s.wiring[c].rm, s.wiring[c].rs⟩)
            ∧ (3 ≤ k + 1 → t.intake = [] ∧ t.groups[l] = some { g with series := .none }
                ∧ t.seqs[c] = runOver q ∧ spotRefusedTopology s t m)

/-- R75, R76, R64: an ACK that names the record's update count of a node without a deferred image removes the named
conditions from accrued; an image is written where one was removed, or deferred under a hold; last conditions stay. -/
def Obligations.AckRemovesConditions : Prop :=
  ∀ (n : SlotId) (node : NodeId) (count : BitVec 16) (mask : Byte) (o : Offer) (s : State) (x : NodeStatus) (acc : Byte),
    s.mode ≠ .safeStop → offerOf (.ack n (byteOf node.val) count mask) = some o → offerable s o →
    recordCount s node = count → s.nodes[node] = x → x.deferred = false → acc = x.accrued &&& ~~~(mask &&& 0x7F) →
    ∃ t : State, exec (.ack n (byteOf node.val) count mask) s = .next t
      ∧ (acc = x.accrued → completedAtIntake s t o .done 0 (le16 count ++ [acc]) ∧ onlySlot (afterOffer s o) t n)
      ∧ (acc ≠ x.accrued → s.hold = none →
          t.nodes[node] = { x with accrued := acc, updateCount := x.updateCount + 1 }
          ∧ recordShows t.mem node t.nodes[node]
          ∧ completedAtIntake s t o .done 0 (le16 (x.updateCount + 1) ++ [acc])
          ∧ onlySlot { afterOffer s o with
              nodes := upd s.nodes node t.nodes[node]
              mem := s.mem.writeBytes (recordAddr node) (imageBytes t.nodes[node] (x.updateCount + 1)) } t n)
      ∧ (acc ≠ x.accrued → s.hold ≠ none →
          t.nodes[node] = { x with accrued := acc, deferred := true }
          ∧ completedAtIntake s t o .done 0 (le16 count ++ [acc])
          ∧ onlySlot { afterOffer s o with nodes := upd s.nodes node t.nodes[node] } t n)

/-- R143: CLEAR_DISCONNECT of a channel that is not disconnected changes nothing but its slot; with no enabled line
asserted it ends the disconnect, with a regroup, which gives a group without an injector the lowest channel now eligible and
starts its settle timer, and without channel-safety news or level 6. -/
def Obligations.ClearDisconnectEndsDisconnect : Prop :=
  ∀ (n : SlotId) (c : Chan) (o : Offer) (s : State), s.mode ≠ .safeStop →
    offerOf (.clearDisconnect n (byteOf c.val)) = some o → offerable s o →
    ∃ t : State, exec (.clearDisconnect n (byteOf c.val)) s = .next t
      ∧ (s.safety[c].disconnected = false →
          completedAtIntake s t o .done 0 [0, 0, s.lines.setWidth 8] ∧ onlySlot (afterOffer s o) t n)
      ∧ (s.safety[c].disconnected = true → (∀ i, i < 3 → ¬ (s.safety[c].discMask.getLsbD i = true ∧ s.lines.getLsbD i = true)) →
          completedAtIntake s t o .done 0 [1, 0, s.lines.setWidth 8] ∧ t.safety[c].disconnected = false
          ∧ (intakeSound s → regrouped s t)
          ∧ (has8 t.attn.pending 6 = true → has8 s.attn.pending 6 = true)
          ∧ Measuring { afterOffer s o with
              safety := upd s.safety c { s.safety[c] with disconnected := false } } t)

/-- R37, R104, R105, R120, R124, R131, R132: a SPOT with no other order.  In IDLE, its group's measurement being free, it is
granted at its intake and runs as a TRIPLE on the group's injector with the named plan, at once where nothing holds the attach
back and else from the attach on; in a SETTLING group it waits.  In RUN it asks its group's series to stop and waits for the
edge; a series in WAIT_ATTACH ends at once, and the SPOT is granted. -/
def Obligations.SpotIsTakenIn : Prop :=
  (∀ (n : SlotId) (node : NodeId) (p : PlanId) (l : GroupId) (g : Group) (c : Chan) (o : Offer) (s : State),
    offerOf (.spot n (byteOf node.val) (byteOf p.val)) = some o → offerable s o → restful s → s.parkedPending = false →
    leaderOf s node = l → s.groups[l] = some g → g.series = .none → g.injector = some c →
    (∀ m : GroupId, injectorOf s m = some c → m = l) → s.seqs[c].run = .none → s.plans[p].ready = true →
    groupState s l ≠ .passive → groupState s l ≠ .held → groupState s l ≠ .noChannel →
    ∃ t : State, exec (.spot n (byteOf node.val) (byteOf p.val)) s = .next t
      ∧ (∀ a, ¬ (slotAddr n ≤ a ∧ a < slotAddr n + 64) → t.mem.read a = s.mem.read a)
      ∧ (g.settle ≠ none → takenAtIntake s t o .waiting l
          ∧ t = { afterOffer s o with
              mem := t.mem, slots := upd s.slots n .taken, intake := [⟨n, .spot node p, .waiting, l, 0⟩] })
      ∧ (g.settle = none → takenAtIntake s t o .running l
          ∧ t = { afterOffer s o with
              mem := t.mem, slots := upd s.slots n .taken, intake := [⟨n, .spot node p, .running, l, 0⟩]
              groups := upd s.groups l (some { g with series := .order, seriesCount := g.seriesCount + 1 })
              seqs := upd s.seqs c t.seqs[c] }
          ∧ (s.safety[c].verify = none →
              (∀ d : Chan, wiredInto s d g.members = true → s.safety[d].verify = none) →
              t.seqs[c] = { firstHalf s.seqs[c] .triple (some n)
                  ⟨s.plans[p], some p, s.wiring[c].rm, s.wiring[c].rs⟩ s.plans[p].startPol with coupling := .attached })
          ∧ ((s.safety[c].verify ≠ none ∨ ∃ d : Chan, wiredInto s d g.members = true ∧ s.safety[d].verify ≠ none) →
              t.seqs[c] = waitingRun s.seqs[c] .triple (some n)
                ⟨s.plans[p], some p, s.wiring[c].rm, s.wiring[c].rs⟩)))
  ∧ ∀ (n : SlotId) (node : NodeId) (p : PlanId) (l : GroupId) (g : Group) (c : Chan) (o : Offer) (s : State),
    offerOf (.spot n (byteOf node.val) (byteOf p.val)) = some o → offerable s o → s.mode = .run →
    s.parkedPending = false → s.intake = [] → leaderOf s node = l → s.groups[l] = some g → g.series = .series →
    g.injector = some c → ownInjector s l c → s.seqs[c].run = .series → s.plans[p].ready = true →
    groupState s l ≠ .passive → groupState s l ≠ .held → groupState s l ≠ .noChannel →
    ∃ t : State, exec (.spot n (byteOf node.val) (byteOf p.val)) s = .next t
      ∧ (∀ a, ¬ (slotAddr n ≤ a ∧ a < slotAddr n + 64) → t.mem.read a = s.mem.read a)
      ∧ t.attn = s.attn ∧ t.news = s.news
      ∧ (s.seqs[c].phase ≠ .waitAttach → takenAtIntake s t o .waiting l
          ∧ t.intake = [⟨n, .spot node p, .waiting, l, 0⟩] ∧ t.groups[l] = some { g with series := .stopping }
          ∧ t.seqs[c] = { s.seqs[c] with stopRequest := true } ∧ t.safety[c] = s.safety[c])
      ∧ (s.seqs[c].phase = .waitAttach → s.seqs[c].coupling = .detached → g.settle = none →
          takenAtIntake s t o .running l ∧ t.intake = [⟨n, .spot node p, .running, l, 0⟩]
          ∧ t.groups[l] = some { g with series := .order, rotation := 0, seriesCount := g.seriesCount + 1 }
          ∧ t.safety[c] = s.safety[c]
          ∧ ((∀ d : Chan, d = c ∨ wiredInto s d g.members = true → s.safety[d].verify = none) →
              t.seqs[c] = { firstHalf s.seqs[c] .triple (some n)
                ⟨s.plans[p], some p, s.wiring[c].rm, s.wiring[c].rs⟩ s.plans[p].startPol with coupling := .attached })
          ∧ ((∃ d : Chan, (d = c ∨ wiredInto s d g.members = true) ∧ s.safety[d].verify ≠ none) →
              t.seqs[c] = waitingRun s.seqs[c] .triple (some n)
                ⟨s.plans[p], some p, s.wiring[c].rm, s.wiring[c].rs⟩))

/-- R23, R37, R40, R104, R105, R135, R147: a SELFCHECK with no other order.  In IDLE one of a detached channel is granted at
its intake, its group has no injector, and the run drives the reference at POS with the fixed figures, at once where no verify
of the channel runs and else from the verify's pass on; the group's series count stays.  In RUN it asks its group's series to
stop and waits for the edge; a series in WAIT_ATTACH ends at once, and the check is granted. The run copy that stands for the
fixed figures is the model's (log entry 19). -/
def Obligations.SelfcheckIsTakenIn : Prop :=
  (∀ (n : SlotId) (c : Chan) (node : NodeId) (l : GroupId) (g : Group) (o : Offer) (s : State),
    offerOf (.selfcheck n (byteOf c.val)) = some o → offerable s o → Safe s → restful s → s.parkedPending = false →
    s.wiring[c].wiredNode = some node → leaderOf s node = l → s.groups[l] = some g → g.series = .none →
    g.settle = none → s.seqs[c].run = .none → s.safety[c].health ≠ .offline → s.safety[c].disconnected = false →
    ∃ t : State, exec (.selfcheck n (byteOf c.val)) s = .next t
      ∧ takenAtIntake s t o .running l ∧ t.intake = [⟨n, .selfcheck c, .running, l, 0⟩]
      ∧ injectorOf t l = none ∧ (t.groups[l]).map (·.series) = some .order
      ∧ (t.groups[l]).map (·.seriesCount) = some g.seriesCount
      ∧ (s.safety[c].verify = none → t.safety[c].reference = true
          ∧ t.seqs[c] = firstHalf s.seqs[c] .selfcheck (some n)
              ⟨selfcheckPlan, none, s.wiring[c].rm, s.wiring[c].rs⟩ .pos)
      ∧ (s.safety[c].verify ≠ none → t.safety[c] = s.safety[c]
          ∧ t.seqs[c] = waitingRun s.seqs[c] .selfcheck (some n)
              ⟨selfcheckPlan, none, s.wiring[c].rm, s.wiring[c].rs⟩)
      ∧ selfcheckPlan.up = 24 ∧ selfcheckPlan.blank = 0 ∧ selfcheckPlan.k = 4 ∧ selfcheckPlan.daMin = 100
      ∧ selfcheckPlan.drift = 100
      ∧ Measuring (afterOffer s o) t)
  ∧ ∀ (n : SlotId) (c d : Chan) (node : NodeId) (l : GroupId) (g : Group) (o : Offer) (s : State),
    offerOf (.selfcheck n (byteOf c.val)) = some o → offerable s o → Safe s → s.mode = .run → s.parkedPending = false →
    s.intake = [] → s.wiring[c].wiredNode = some node → leaderOf s node = l → s.groups[l] = some g →
    g.series = .series → g.injector = some d → s.seqs[d].run = .series → s.safety[c].health ≠ .offline →
    s.safety[c].disconnected = false →
    ∃ t : State, exec (.selfcheck n (byteOf c.val)) s = .next t ∧ Measuring (afterOffer s o) t
      ∧ (s.seqs[d].phase ≠ .waitAttach → takenAtIntake s t o .waiting l
          ∧ t.intake = [⟨n, .selfcheck c, .waiting, l, 0⟩] ∧ t.groups[l] = some { g with series := .stopping }
          ∧ t.seqs[d] = { s.seqs[d] with stopRequest := true } ∧ t.safety[d] = s.safety[d]
          ∧ t.safety[c] = s.safety[c])
      ∧ (s.seqs[d].phase = .waitAttach → s.seqs[d].coupling = .detached → g.settle = none →
          c = d ∨ s.seqs[c].run = .none →
          takenAtIntake s t o .running l ∧ t.intake = [⟨n, .selfcheck c, .running, l, 0⟩]
          ∧ injectorOf t l = none ∧ (t.groups[l]).map (·.series) = some .order
          ∧ (t.groups[l]).map (·.seriesCount) = some g.seriesCount
          ∧ (d ≠ c → t.seqs[d] = runOver s.seqs[d] ∧ t.safety[d] = s.safety[d])
          ∧ (s.safety[c].verify = none → t.safety[c].reference = true
              ∧ t.seqs[c] = firstHalf s.seqs[c] .selfcheck (some n)
                  ⟨selfcheckPlan, none, s.wiring[c].rm, s.wiring[c].rs⟩ .pos)
          ∧ (s.safety[c].verify ≠ none → t.safety[c] = s.safety[c]
              ∧ t.seqs[c] = waitingRun s.seqs[c] .selfcheck (some n)
                  ⟨selfcheckPlan, none, s.wiring[c].rm, s.wiring[c].rs⟩))

/-! ### Modes and holds (chapters 4 and 6) -/

/-- R71, R100, R166: a mode request, with HOLD as it stands, that names the mode in force, or PARKED while PARKED is
pending, only shows as the last request taken; one that names no mode, or comes in SAFE_STOP, is ignored; one taken
during STARTING only shows; each CONTROL write clears HOLD_EXPIRED.  A write with HOLD set, in the mode it names, starts a
hold of 250 ms where none is in force, and continues one in force without restarting its timer. -/
def Obligations.ControlWritesWithoutModeChange : Prop :=
  (∀ (s : State) (f : BitVec 2) (m : Mode), s.endPending = false → m.code = f.toNat →
    (m = .safeStop ∨ s.mode = .safeStop → exec (.modeRequest f s.hold.isSome) s =
        .next { afterAddress s [0] with holdExpired := false })
    ∧ (m ≠ .safeStop → s.mode ≠ .safeStop →
        s.starting = true ∨ (m = s.mode ∧ s.parkedPending = false) ∨ (m = .parked ∧ s.parkedPending = true) →
        exec (.modeRequest f s.hold.isSome) s = .next { afterAddress s [0] with holdExpired := false, request := m }))
  ∧ (∀ s : State, served s → s.mode ≠ .safeStop → s.parkedPending = false →
    exec (.holdStart (BitVec.ofNat 2 s.mode.code)) s = .next
      { afterAddress s [0] with
        holdExpired := false, request := s.mode, hold := match s.hold with | some n => some n | none => some 250 })

/-- R101, R100: a request for IDLE with no order taken ends every series and turn at once: the groups' measurements are
free, the channels that drove them detached with a verify, the rotation list discarded; triples handed stand. -/
def Obligations.IdleRequestEndsSeries : Prop :=
  ∀ s : State, served s → s.mode = .run ∨ s.mode = .parked → s.intake = [] →
    ∃ t : State, exec (.modeRequest 0 s.hold.isSome) s = .next t
      ∧ t.mode = .idle ∧ t.request = .idle ∧ t.parkedPending = false ∧ t.rotation = [] ∧ t.park = .stopped
      ∧ t.triples = s.triples ∧ t.computing = s.computing
      ∧ (∀ (l : GroupId) (g : Group), s.groups[l] = some g → t.groups[l] = some
          (if g.series = .series ∨ g.series = .stopping ∨ g.series = .turn then { g with series := .none, rotation := 0 }
           else g))
      ∧ (∀ (l : GroupId) (c : Chan), injectorOf s l = some c →
          seriesOf s l = .series ∨ seriesOf s l = .stopping ∨ seriesOf s l = .turn →
          s.seqs[c].run = .series ∨ s.seqs[c].run = .triple →
          t.seqs[c] = { runOver s.seqs[c] with coupling := .detached }
          ∧ (s.seqs[c].coupling = .attached → t.safety[c].verify = some 5))
      ∧ Measuring { afterAddress s [0] with holdExpired := false, request := .idle, mode := .idle, parkedPending := false } t

/-- R101, R106, R22, R23: a request for RUN in IDLE with no order taken starts a series in every measurable group with
an injector of its own: policy and rotate count copied, counter 0, series count raised, and the run begun with the
leader's plan, at once where no verify holds the attach back. -/
def Obligations.RunRequestStartsSeries : Prop :=
  ∀ s : State, served s → Safe s → restful s →
    ∃ t : State, exec (.modeRequest 1 s.hold.isSome) s = .next t ∧ t.mode = .run ∧ t.request = .run
      ∧ t.parkedPending = false
      ∧ ∀ (l : GroupId) (g : Group) (c : Chan) (p : PlanId), readyToMeasure s l g c p →
          (∀ m : GroupId, injectorOf s m = some c → m = l) → s.seqs[c].run = .none →
          t.groups[l] = some { g with
            series := .series, policy := s.plans[p].policy, rotateCount := s.plans[p].rotate, rotation := 0
            seriesCount := g.seriesCount + 1 }
          ∧ ((∀ d : Chan, d = c ∨ wiredInto s d g.members = true → s.safety[d].verify = none) →
              t.seqs[c] = { firstHalf s.seqs[c] .series none ⟨s.plans[p], some p, s.wiring[c].rm, s.wiring[c].rs⟩
                s.plans[p].startPol with coupling := .attached })
          ∧ ((∃ d : Chan, (d = c ∨ wiredInto s d g.members = true) ∧ s.safety[d].verify ≠ none) →
              t.seqs[c] = waitingRun s.seqs[c] .series none ⟨s.plans[p], some p, s.wiring[c].rm, s.wiring[c].rs⟩)

/-- R102, R109, R110: a request for PARKED in IDLE.  With no order taken, and no two groups' measurements held by orders,
the rotation list holds every group in leader order and a turn is due: the first group that qualifies takes it as a TRIPLE,
and where none does it stays due.  With orders of two groups in flight the request is pending, and IDLE stays; a request for
IDLE then drops it. Orders in flight are those that hold a group's measurement (log entry 13). -/
def Obligations.ParkedRequestTakesTurns : Prop :=
  (∀ s : State, served s → restful s → fewOrders s → s.parkedPending = false →
    ∃ t : State, exec (.modeRequest 2 s.hold.isSome) s = .next t ∧ t.mode = .parked ∧ t.request = .parked
      ∧ t.rotation = allNodes.filter (fun l => (s.groups[l]).isSome)
      ∧ ((∀ (l : GroupId) (g : Group) (c : Chan) (p : PlanId), ¬ readyToMeasure s l g c p) →
          ((∀ l : GroupId, seriesOf s l = .none) → t.park = .due ∧ t.groups = s.groups ∧ t.seqs = s.seqs))
      ∧ ∀ (l : GroupId) (g : Group) (c : Chan) (p : PlanId), readyToMeasure s l g c p → (∀ m : GroupId, seriesOf s m = .none) →
          (∀ (m : GroupId) (g' : Group) (d : Chan) (q : PlanId), m < l → ¬ readyToMeasure s m g' d q) →
          s.seqs[c].run = .none →
          t.park = .stopped
          ∧ t.groups[l] = some { g with
              series := .turn, policy := s.plans[p].policy, rotateCount := s.plans[p].rotate, rotation := 0
              seriesCount := g.seriesCount + 1 }
          ∧ (∀ m : GroupId, m ≠ l → t.groups[m] = s.groups[m])
          ∧ t.seqs[c].run = .triple ∧ t.seqs[c].owner = none
          ∧ t.seqs[c].copy = ⟨s.plans[p], some p, s.wiring[c].rm, s.wiring[c].rs⟩)
  ∧ (∀ s : State, served s → s.mode = .idle → s.parkedPending = false → ¬ fewOrders s →
      (∀ l : GroupId, seriesOf s l ≠ .series) → (∀ c : Chan, s.seqs[c].run = .none → s.seqs[c].coupling = .detached) →
      exec (.modeRequest 2 s.hold.isSome) s = .next
        { afterAddress s [0] with holdExpired := false, request := .parked, parkedPending := true })
  ∧ ∀ s : State, served s → s.mode = .idle → s.parkedPending = true → (∀ o ∈ s.intake, o.phase ≠ .waiting) →
      (∀ l : GroupId, seriesOf s l ≠ .series) → (∀ c : Chan, s.seqs[c].run = .none → s.seqs[c].coupling = .detached) →
      exec (.modeRequest 0 s.hold.isSome) s = .next
        { afterAddress s [0] with holdExpired := false, request := .idle, parkedPending := false }

/-- R73, R74: a hold ends by host release or by its limit: each deferred image is written once, with the count raised
by one, and no other record changes; the limit alone sets HOLD_EXPIRED; with no hold the expiry has no effect. The
expiry is an event of its own (log entry 2). -/
def Obligations.HoldEndsWithDeferredImages : Prop :=
  (∀ s : State, served s → s.mode ≠ .safeStop → s.parkedPending = false → s.hold ≠ none →
    ∃ t : State, exec (.hostRelease (BitVec.ofNat 2 s.mode.code)) s = .next t ∧ imagesWritten s t
      ∧ t = { afterAddress s [0] with
          holdExpired := false, request := s.mode, hold := none, nodes := t.nodes, mem := t.mem })
  ∧ (∀ s : State, s.hold ≠ none → ∃ t : State, exec .holdLimitExpiry s = .next t ∧ imagesWritten s t
      ∧ t = { s with holdExpired := true, hold := none, nodes := t.nodes, mem := t.mem })
  ∧ ∀ s : State, s.hold = none → exec .holdLimitExpiry s = .next s

/-- R21, R43, R59, R79, R98, R115, R137, R155, R166, R167, R175: a soft reset as every unit takes it; of the memory it
changes the views' request bytes, the node images it writes and the result areas of TAKEN slots with their state bytes,
and nothing else; in SAFE_STOP and during STARTING it is a mode request alone. -/
def Obligations.SoftResetResets : Prop :=
  (∀ (s : State) (m : BitVec 2) (h : Bool), s.mode = .safeStop ∨ s.starting = true →
    exec (.softReset m h) s = exec (.modeRequest m h) s)
  ∧ ∀ (s : State) (m : BitVec 2) (h : Bool), served s → s.mode ≠ .safeStop → intakeSound s →
    ∃ t : State, exec (.softReset m h) s = .next t
      ∧ t.mode = .idle ∧ t.request = .idle ∧ t.parkedPending = false ∧ t.park = .stopped ∧ t.rotation = []
      ∧ t.hold = none ∧ t.holdExpired = false ∧ t.triples = [] ∧ t.computing = none ∧ t.results = [] ∧ t.intake = []
      ∧ t.taken = none
      ∧ (∀ a, ¬ inSlots a → ¬ inRecords a → (∀ c : Chan, a ≠ viewAddr c) → t.mem.read a = s.mem.read a)
      ∧ (∀ c : Chan, t.mem.read (viewAddr c) = 0
          ∧ t.seqs[c] = { runOver s.seqs[c] with
              coupling := .detached, viewLatched := false, ctx := .none, record := CtxRecord.zero }
          ∧ t.safety[c] = { s.safety[c] with
              reference := false
              verify := if s.seqs[c].coupling = .attached then some 5 else s.safety[c].verify })
      ∧ (∀ n : NodeId, t.nodes[n] = { s.nodes[n] with
            state := .unknown, candidate := none, count := 0, deferred := false
            updateCount := if s.nodes[n].state ≠ .unknown ∨ s.nodes[n].candidate ≠ none ∨ s.nodes[n].deferred = true then
              s.nodes[n].updateCount + 1 else s.nodes[n].updateCount }
          ∧ (s.nodes[n].state ≠ .unknown ∨ s.nodes[n].candidate ≠ none ∨ s.nodes[n].deferred = true →
              recordShows t.mem n t.nodes[n] ∧ ∀ k, 0x1C ≤ k → k < 32 →
                t.mem.read (recordAddr n + k) = s.mem.read (recordAddr n + k))
          ∧ (s.nodes[n].state = .unknown → s.nodes[n].candidate = none → s.nodes[n].deferred = false →
              ∀ k, k < 32 → t.mem.read (recordAddr n + k) = s.mem.read (recordAddr n + k)))
      ∧ (∀ n : SlotId, (s.slots[n] ≠ .taken → t.slots[n] = s.slots[n] ∧
            ∀ k, k < 64 → t.mem.read (slotAddr n + k) = s.mem.read (slotAddr n + k))
          ∧ (s.slots[n] = .taken → t.slots[n] = .refused ∧ t.mem.read (slotAddr n) = 4
              ∧ t.mem.read (slotAddr n + 0x12) = 4 ∧ t.mem.read (slotAddr n + 0x15) = 14
              ∧ ∀ k, 1 ≤ k → k < 0x12 → t.mem.read (slotAddr n + k) = s.mem.read (slotAddr n + k))
          ∧ has8 t.news.done n.val = (has8 s.news.done n.val || decide (s.slots[n] = .taken)))
      ∧ (∀ k : Level, has8 t.attn.pending k.val = true ↔ k = 7 ∨ k = 4 ∧ ∃ n : SlotId, s.slots[n] = .taken)
      ∧ t.attn.inService = 0 ∧ t.attn.mask = s.attn.mask ∧ t.attn.faultFact = false
      ∧ tableAgrees t ∧ (∀ (l : GroupId) (g : Group), t.groups[l] = some g →
          g.seriesCount = 0 ∧ g.series = .none ∧ lowestInjects t l g ∧ settleStarted t l g)
      ∧ t.uptime = s.uptime ∧ t.uptimeLatch = s.uptimeLatch ∧ t.nodePlan = s.nodePlan ∧ t.links = s.links
      ∧ t.wiring = s.wiring ∧ t.plans = s.plans ∧ t.yields = s.yields ∧ t.lines = s.lines ∧ t.cause = s.cause
      ∧ t.causeChan = s.causeChan ∧ t.failMask = s.failMask ∧ t.intakeSeq = s.intakeSeq
      ∧ t.news.nodeState = s.news.nodeState ∧ t.news.nodeStale = s.news.nodeStale
      ∧ t.news.chanCond = s.news.chanCond ∧ t.news.chanSafety = s.news.chanSafety

/-! ### Half-periods (chapter 2) -/

/-- R25, R26, R27, R29: a sample with nothing due takes Ub and enters the window after blanking; a full window is
averaged and appended; at the ready point of a TRIGGERED half-period the wait for SYNC and its timer begin; a window that
is not full does not end, and during STARTING no sample is taken. Window ends and samples are events of their own (log
entry 7). -/
def Obligations.SamplesAndWindows : Prop :=
  ∀ (s : State) (c : Chan),
    (∀ (um : BitVec 16) (ub : Int), s.starting = false → nothingDue s c →
      exec (.sample c um ub) s = .next { s with seqs := upd s.seqs c (sampled s.seqs[c] um ub) })
    ∧ (∀ (um : BitVec 16) (ub : Int), s.starting = true → exec (.sample c um ub) s = .next s)
    ∧ (s.seqs[c].windowFull = false → exec (.windowEnd c) s = .next s)
    ∧ (s.seqs[c].windowFull = true → ¬ readyPoint s.seqs[c] →
        exec (.windowEnd c) s = .next { s with seqs := upd s.seqs c (withWindow s.seqs[c]) })
    ∧ (s.seqs[c].windowFull = true → readyPoint s.seqs[c] → s.seqs[c].copy.plan.sync = .triggered →
        exec (.windowEnd c) s = .next { s with seqs := upd s.seqs c { withWindow s.seqs[c] with
          ready := some s.seqs[c].elapsed, phase := .waitSync
          syncTimer := some s.seqs[c].copy.plan.syncTimeout } })

/-- R28 to R34, R40, R44, R45, R107: an edge within a run forms the plateau of the ending half-period, appends it to the
history, hands a triple where the history then holds three, and begins the next half-period at the opposite polarity; it
counts a handed triple under ROTATE, and nothing else changes.  An edge event that finds nothing due has no effect (log
entry 7). -/
def Obligations.EdgeWithinRun : Prop :=
  (∀ (i : Instr) (s : State) (c : Chan) (q : Seq) (h : List Plateau), edgeAt s c i q h →
    goesOn s c q (handedAt s c q h) →
    ∃ t : State, exec i s = .next t
      ∧ t = { s with
          triples := s.triples ++ handedAt s c q h, seqs := upd s.seqs c (nextHalf q h), groups := t.groups }
      ∧ ∀ l : GroupId,
          (q.run = .series → groupOfInjector s c = some l → handedAt s c q h ≠ [] →
            t.groups[l] = (s.groups[l]).map fun g =>
              if g.policy = .rotate then { g with rotation := g.rotation + 1 } else g)
          ∧ (q.run ≠ .series ∨ groupOfInjector s c ≠ some l ∨ handedAt s c q h = [] → t.groups[l] = s.groups[l]))
  ∧ ∀ (s : State) (c : Chan),
      (nothingDue s c → exec (.halfMax c) s = .next s ∧ exec (.selfcheckHalfEnd c) s = .next s)
      ∧ ((∀ d : Chan, s.seqs[d].phase ≠ .waitSync) → exec .syncEdge s = .next s)
      ∧ (s.seqs[c].syncTimer = none ∨ s.seqs[c].phase ≠ .waitSync → exec (.syncTimeout c) s = .next s)

/-- R29, R36, R37, R105, R107: one SYNC edge ends the wait of every channel in WAIT_SYNC, each without a flag.  Where the
runs of all of them go on, each gains its plateau and its next half-period and hands its triple, and nothing else changes.
Where one run ends or an injector moves at the edge, every other channel still has its own edge, as if alone: a run that goes
on has its next half-period; a TRIPLE's third half-period ends its run, its order FINISHING, and in RUN the series follows; a
stopped series gives way to the SPOT that waits, or starts again detached where none does; a ROTATE series at its count moves
its injector; and a channel that does not wait is undisturbed.  The triples of one edge stand in channel order (log entry 18),
a full window not yet ended is discarded (log entry 7), and a series whose order left starts as log entry 21 says. -/
def Obligations.SyncEdgeEndsEveryWait : Prop :=
  (∀ (s : State) (m : Chan → Nat) (p : Chan → Plateau) (h : Chan → List Plateau),
    (∀ c : Chan, s.seqs[c].phase = .waitSync → s.seqs[c].ready = some (m c) ∧ s.seqs[c].history.length ≤ 3
      ∧ isPlateau s.seqs[c] none (m c) (p c) ∧ h c = historyAfter s.seqs[c].history (p c)
      ∧ (s.seqs[c].run = .triple ∧ s.seqs[c].half < 3
        ∨ s.seqs[c].run = .series ∧ s.seqs[c].stopRequest = false ∧ ∀ (l : GroupId) (g : Group),
            groupOfInjector s c = some l → s.groups[l] = some g → g.policy = .lowest)) →
    exec .syncEdge s = .next { s with
      triples := s.triples ++ handedTogether s h
      seqs := Vector.ofFn fun c =>
        if s.seqs[c].phase = .waitSync then nextHalf s.seqs[c] (h c) else s.seqs[c] })
  ∧ ∀ (s : State) (m : Chan → Nat) (p : Chan → Plateau) (h : Chan → List Plateau), Safe s → s.parkedPending = false →
    waitsForEdge s m p h →
    (∀ o ∈ s.intake, o.phase = .waiting → seriesOf s o.group ≠ .series ∧ ∀ d : Chan, o.job ≠ .selfcheck d) →
    ∃ t : State, exec .syncEdge s = .next t ∧ t.triples = s.triples ++ handedTogether s h
      ∧ (∀ c : Chan, t.seqs[c].phase ≠ .waitSync)
      ∧ (∀ (c : Chan) (l : GroupId), s.seqs[c].phase ≠ .waitSync → s.seqs[c].run ≠ .none →
          groupOfInjector s c = some l → seriesOf s l ≠ .none →
          t.seqs[c] = s.seqs[c] ∧ t.safety[c] = s.safety[c] ∧ t.groups[l] = s.groups[l])
      ∧ ∀ (c : Chan) (l : GroupId) (g : Group) (q : Seq) (x : List Triple), s.seqs[c].phase = .waitSync →
          groupOfInjector s c = some l → s.groups[l] = some g → q = s.seqs[c] → x = handedAt s c q (h c) →
          (goesOn s c q x → t.seqs[c] = nextHalf q (h c) ∧ t.safety[c] = s.safety[c]
            ∧ t.groups[l] = some (if q.run = .series ∧ g.policy = .rotate ∧ x ≠ [] then
                { g with rotation := g.rotation + 1 } else g))
          ∧ (q.run = .triple → q.half = 3 → (∀ o ∈ s.intake, o.phase = .waiting → o.group ≠ l) →
              s.mode = .idle ∨ s.mode = .parked ∧ s.park ≠ .due →
              t.seqs[c] = { runOver q with coupling := .detached }
              ∧ t.safety[c] = { s.safety[c] with
                  verify := if q.coupling = .attached then some 5 else s.safety[c].verify }
              ∧ (∀ o ∈ s.intake, q.owner = some o.slot → o.phase = .running → { o with phase := .finishing } ∈ t.intake)
              ∧ (q.owner = none → t.park = .running (max 10 (min 3600 (s.mem.read16 0x040)) * 1000)))
          ∧ (∀ (o : Order) (r p : PlanId) (node : NodeId), q.run = .triple → q.half = 3 → s.mode = .run → o ∈ s.intake →
              q.owner = some o.slot → o.phase = .running → o.job = .spot node r → othersFinish s l o.slot →
              g.measurable = true → s.nodePlan[l] = some p → s.plans[p].ready = true → q.coupling = .attached →
              { o with phase := .finishing } ∈ t.intake ∧ t.safety[c] = s.safety[c]
              ∧ t.groups[l] = some { g with
                  series := .series, policy := s.plans[p].policy, rotateCount := s.plans[p].rotate, rotation := 0
                  seriesCount := g.seriesCount + 1 }
              ∧ t.seqs[c] = { firstHalf q .series none ⟨s.plans[p], some p, s.wiring[c].rm, s.wiring[c].rs⟩
                  s.plans[p].startPol with coupling := .attached })
          ∧ (∀ (o : Order) (r : PlanId) (node : NodeId), q.run = .series → q.stopRequest = true → s.mode = .run →
              o ∈ s.intake → o.group = l → o.phase = .waiting → o.job = .spot node r → othersFinish s l o.slot →
              g.settle = none → ¬ rotates g x → q.coupling = .attached → s.plans[r].ready = true →
              groupState s l ≠ .passive → groupState s l ≠ .held → groupState s l ≠ .noChannel →
              { o with phase := .running } ∈ t.intake ∧ t.safety[c] = s.safety[c]
              ∧ t.groups[l] = some { g with series := .order, rotation := 0, seriesCount := g.seriesCount + 1 }
              ∧ t.seqs[c] = { firstHalf q .triple (some o.slot)
                  ⟨s.plans[r], some r, s.wiring[c].rm, s.wiring[c].rs⟩ s.plans[r].startPol with coupling := .attached })
          ∧ (∀ p : PlanId, q.run = .series → q.stopRequest = true → s.mode = .run →
              (∀ o ∈ s.intake, o.group = l → o.phase = .finishing ∧ ∀ d : Chan, o.job ≠ .selfcheck d) →
              g.measurable = true → ¬ rotates g x → q.coupling = .attached → s.nodePlan[l] = some p →
              s.plans[p].ready = true →
              t.safety[c] = { s.safety[c] with verify := some 5 }
              ∧ t.groups[l] = some { g with
                  series := .series, policy := s.plans[p].policy, rotateCount := s.plans[p].rotate, rotation := 0
                  seriesCount := g.seriesCount + 1 }
              ∧ t.seqs[c] = { waitingRun q .series none ⟨s.plans[p], some p, s.wiring[c].rm, s.wiring[c].rs⟩ with
                  coupling := .detached })
          ∧ ∀ d : Chan, q.run = .series → q.stopRequest = false → s.mode = .run → g.series = .series → rotates g x →
              nextInLine s l c d →
              (∀ p : PlanCopy, d ≠ c → readyPlan s l = some p → p.settle ≠ 0 → q.coupling = .attached →
                t.groups[l] = some { g with
                  injector := some d, settle := some p.settle, waitPlan := false, measurable := false, series := .none
                  rotation := 0 }
                ∧ t.seqs[c] = { runOver (nextHalf q (h c)) with coupling := .detached }
                ∧ t.safety[c] = { s.safety[c] with verify := some 5 })
              ∧ (d = c → t.groups[l] = some { g with rotation := 0 } ∧ t.seqs[c] = nextHalf q (h c))

/-- R107, R108: at the edge at which a ROTATE series in RUN reaches its rotate count, with no order taken, the injector
moves to the next eligible channel: the old one is detached with a verify, the half-period just begun is lost, the settle
timer starts, the series is over, and no level is raised.  Where the present injector is the only eligible channel the series
goes on and the counter is cleared.  Where the edge is also the one at which the series stops for a SPOT, the move is made at
it too, and the SPOT waits on for the settle time. -/
def Obligations.RotationMovesTheInjector : Prop :=
  (∀ (i : Instr) (s : State) (c d : Chan) (q : Seq) (h : List Plateau) (l : GroupId) (g : Group), edgeAt s c i q h →
    q.run = .series → q.stopRequest = false → s.mode = .run → s.intake = [] → groupOfInjector s c = some l →
    s.groups[l] = some g → ownInjector s l c → g.series = .series → g.policy = .rotate → handedAt s c q h ≠ [] →
    g.rotateCount ≤ g.rotation + 1 → nextInLine s l c d →
    ∃ t : State, exec i s = .next t ∧ t.triples = s.triples ++ handedAt s c q h ∧ t.attn = s.attn ∧ t.mem = s.mem
      ∧ (∀ p : PlanCopy, d ≠ c → readyPlan s l = some p → p.settle ≠ 0 → s.seqs[c].coupling = .attached →
          t.groups[l] = some { g with
            injector := some d, settle := some p.settle, waitPlan := false, measurable := false, series := .none
            rotation := 0 }
          ∧ t.seqs[c] = { runOver (nextHalf q h) with coupling := .detached } ∧ t.safety[c].verify = some 5)
      ∧ (d = c → t.groups[l] = some { g with rotation := 0 } ∧ t.seqs[c] = nextHalf q h))
  ∧ ∀ (i : Instr) (s : State) (c d : Chan) (q : Seq) (h : List Plateau) (l : GroupId) (g : Group) (n : SlotId)
    (node : NodeId) (p : PlanId) (k : Nat) (x : PlanCopy), edgeAt s c i q h → q.run = .series → q.stopRequest = true →
    s.mode = .run → s.intake = [⟨n, .spot node p, .waiting, l, k⟩] → groupOfInjector s c = some l → s.groups[l] = some g →
    ownInjector s l c → rotates g (handedAt s c q h) → nextInLine s l c d → d ≠ c → readyPlan s l = some x →
    x.settle ≠ 0 → s.seqs[c].coupling = .attached →
    ∃ t : State, exec i s = .next t ∧ t.triples = s.triples ++ handedAt s c q h ∧ t.attn = s.attn ∧ t.mem = s.mem
      ∧ t.intake = s.intake ∧ t.slots = s.slots
      ∧ t.groups[l] = some { g with
          injector := some d, settle := some x.settle, waitPlan := false, measurable := false, series := .none
          rotation := 0 }
      ∧ t.seqs[c] = { runOver q with coupling := .detached } ∧ t.safety[c] = { s.safety[c] with verify := some 5 }

/-- R37, R104, R105, R132: a series in RUN that was asked to stop ends at its edge, with its triple handed, and the SPOT
that waits at the front of the group is granted and starts its TRIPLE run at once on the same channel, which stays
ATTACHED.  Where no order waits any more, the channel is detached with a verify, and the series starts again on it
(log entry 21). -/
def Obligations.StoppedSeriesGivesWayToSpot : Prop :=
  (∀ (i : Instr) (s : State) (c : Chan) (q : Seq) (h : List Plateau) (l : GroupId) (g : Group) (n : SlotId)
    (node : NodeId) (p : PlanId) (k : Nat), edgeAt s c i q h →
    q.run = .series → q.stopRequest = true → s.mode = .run → s.parkedPending = false →
    s.intake = [⟨n, .spot node p, .waiting, l, k⟩] → groupOfInjector s c = some l → s.groups[l] = some g →
    ownInjector s l c → g.settle = none → ¬ rotates g (handedAt s c q h) →
    s.seqs[c].coupling = .attached → s.plans[p].ready = true →
    groupState s l ≠ .passive → groupState s l ≠ .held → groupState s l ≠ .noChannel →
    ∃ t : State, exec i s = .next t ∧ t.triples = s.triples ++ handedAt s c q h
      ∧ t.intake = [⟨n, .spot node p, .running, l, k⟩] ∧ t.mem = s.mem.write (slotAddr n + 0x12) 2
      ∧ t.groups[l] = some { g with series := .order, rotation := 0, seriesCount := g.seriesCount + 1 }
      ∧ t.seqs[c] = { firstHalf s.seqs[c] .triple (some n)
          ⟨s.plans[p], some p, s.wiring[c].rm, s.wiring[c].rs⟩ s.plans[p].startPol with coupling := .attached }
      ∧ t.slots = s.slots ∧ t.attn = s.attn)
  ∧ ∀ (i : Instr) (s : State) (c : Chan) (q : Seq) (h : List Plateau) (l : GroupId) (g : Group) (p : PlanId),
    edgeAt s c i q h → q.run = .series → q.stopRequest = true → s.mode = .run → s.intake = [] →
    groupOfInjector s c = some l → s.groups[l] = some g → ownInjector s l c → g.measurable = true →
    ¬ rotates g (handedAt s c q h) → s.seqs[c].coupling = .attached → s.nodePlan[l] = some p →
    s.plans[p].ready = true →
    ∃ t : State, exec i s = .next t ∧ t.triples = s.triples ++ handedAt s c q h ∧ t.mem = s.mem ∧ t.attn = s.attn
      ∧ t.groups[l] = some { g with
          series := .series, policy := s.plans[p].policy, rotateCount := s.plans[p].rotate, rotation := 0
          seriesCount := g.seriesCount + 1 }
      ∧ t.seqs[c] = { waitingRun s.seqs[c] .series none ⟨s.plans[p], some p, s.wiring[c].rm, s.wiring[c].rs⟩ with
          coupling := .detached }
      ∧ t.safety[c] = { s.safety[c] with verify := some 5 }

/-- R36, R102, R104, R106, R110, R114, R125, R132, R133, R135, R148: at the third edge of an order's run, the run is over,
its triple handed, the order FINISHING, the group's measurement free and the reference of a SELFCHECK open.  In IDLE, and
in PARKED with no turn due, with no other order the channel is detached with a verify where it was ATTACHED, and nothing
else changes.  A SPOT that waits behind a SPOT starts at once on the channel, which stays ATTACHED, and in RUN, where none
waits, so does the series of a group that may measure.  In PARKED with a turn due the first group in list order that
qualifies takes it.  A pending PARKED request is met at the completion where at most one group's measurement is then held
by an order, and else pends on; which orders count is log entry 13. -/
def Obligations.OrderRunCompletes : Prop :=
  ∀ (i : Instr) (s u : State) (c : Chan) (q : Seq) (h : List Plateau) (l : GroupId) (n : SlotId) (job : Job) (k : Nat)
    (rest : List Order), edgeAt s c i q h → q.run = .triple ∨ q.run = .selfcheck → q.half = 3 → q.owner = some n →
    s.intake = ⟨n, job, .running, l, k⟩ :: rest →
    u = { s with
      triples := s.triples ++ handedAt s c q h
      intake := ⟨n, job, .finishing, l, k⟩ :: rest
      mem := s.mem.write (slotAddr n + 0x12) 3
      groups := match s.groups[l] with
        | some g => upd s.groups l (some { g with series := .none })
        | none => s.groups
      seqs := upd s.seqs c { runOver q with coupling := .detached }
      safety := upd s.safety c { s.safety[c] with
        reference := s.safety[c].reference && decide (q.run ≠ .selfcheck)
        verify := if s.seqs[c].coupling = .attached then some 5 else s.safety[c].verify } } →
    (rest = [] → s.parkedPending = false → othersRest s c → s.mode = .idle ∨ (s.mode = .parked ∧ s.park ≠ .due) →
      exec i s = .next u)
    ∧ (∀ (node : NodeId) (r p : PlanId) (g : Group), rest = [] → job = .spot node r → q.run = .triple → s.mode = .run →
      s.parkedPending = false → groupOfInjector s c = some l → ownInjector s l c → s.groups[l] = some g →
      g.measurable = true → s.nodePlan[l] = some p → s.plans[p].ready = true → s.seqs[c].coupling = .attached →
      ∃ t : State, exec i s = .next t ∧ t.triples = u.triples ∧ t.intake = u.intake ∧ t.mem = u.mem
        ∧ t.groups[l] = some { g with
            series := .series, policy := s.plans[p].policy, rotateCount := s.plans[p].rotate, rotation := 0
            seriesCount := g.seriesCount + 1 }
        ∧ t.seqs[c] = { firstHalf s.seqs[c] .series none ⟨s.plans[p], some p, s.wiring[c].rm, s.wiring[c].rs⟩
            s.plans[p].startPol with coupling := .attached }
        ∧ t.safety[c] = s.safety[c])
    ∧ (∀ (node : NodeId) (r p : PlanId) (m : GroupId) (g : Group) (d : Chan) (ahead behind : List GroupId), rest = [] →
      job = .spot node r → q.run = .triple → s.mode = .parked → s.parkedPending = false → s.park = .due →
      othersRest s c → (∀ x : GroupId, seriesOf u x = .none) → s.rotation = ahead ++ m :: behind →
      (∀ x ∈ ahead, ∀ (g' : Group) (e : Chan) (r' : PlanId), ¬ readyToMeasure u x g' e r') → readyToMeasure u m g d p →
      u.seqs[d].run = .none → (d = c → m = l) →
      ∃ t : State, exec i s = .next t ∧ t.park = .stopped ∧ t.rotation = s.rotation ∧ t.intake = u.intake
        ∧ t.groups = upd u.groups m (some { g with
            series := .turn, policy := s.plans[p].policy, rotateCount := s.plans[p].rotate, rotation := 0
            seriesCount := g.seriesCount + 1 })
        ∧ t.seqs[d].run = .triple ∧ t.seqs[d].owner = none
        ∧ t.seqs[d].copy = ⟨s.plans[p], some p, s.wiring[d].rm, s.wiring[d].rs⟩
        ∧ (d ≠ c → t.seqs[c] = u.seqs[c] ∧ t.safety[c] = u.safety[c])
        ∧ (d = c → s.seqs[c].coupling = .attached → t.seqs[c].phase = .waitAttach ∧ t.safety[c].verify = some 5))
    ∧ (s.mode = .idle → s.parkedPending = true →
      (∀ o ∈ rest, o.phase = .running ∧ o.group ≠ l ∧ o.slot ≠ n) →
      (∀ m : GroupId, seriesOf s m = .none ∨ seriesOf s m = .order) →
      ∃ t : State, exec i s = .next t ∧ t.triples = u.triples ∧ t.intake = u.intake
        ∧ (¬ fewOrders u → t.mode = .idle ∧ t.parkedPending = true ∧ t.park = s.park ∧ t.rotation = s.rotation
            ∧ t.groups = u.groups)
        ∧ (fewOrders u → t.mode = .parked ∧ t.parkedPending = false
            ∧ t.rotation = allNodes.filter (fun m => (s.groups[m]).isSome)
            ∧ ((∃ m : GroupId, seriesOf u m = .order)
                ∨ (∀ (m : GroupId) (g : Group) (d : Chan) (p : PlanId), ¬ readyToMeasure u m g d p) →
              t.park = .due ∧ t.groups = u.groups)))
    ∧ (∀ (o : Order) (x y : NodeId) (r p : PlanId) (g : Group), rest = [o] → job = .spot x r → q.run = .triple →
      o.job = .spot y p → o.phase = .waiting → o.group = l → o.slot ≠ n → s.mode ≠ .safeStop → s.parkedPending = false →
      (s.mode = .parked → ∀ m : GroupId, m ≠ l → seriesOf s m = .none) → groupOfInjector s c = some l →
      ownInjector s l c → s.groups[l] = some g → g.settle = none → s.plans[p].ready = true →
      groupState s l ≠ .passive → groupState s l ≠ .held → groupState s l ≠ .noChannel → s.seqs[c].coupling = .attached →
      ∃ t : State, exec i s = .next t ∧ t.triples = u.triples
        ∧ t.intake = [⟨n, job, .finishing, l, k⟩, { o with phase := .running }]
        ∧ t.mem = u.mem.write (slotAddr o.slot + 0x12) 2
        ∧ t.groups[l] = some { g with series := .order, seriesCount := g.seriesCount + 1 }
        ∧ t.seqs[c] = { firstHalf s.seqs[c] .triple (some o.slot)
            ⟨s.plans[p], some p, s.wiring[c].rm, s.wiring[c].rs⟩ s.plans[p].startPol with coupling := .attached }
        ∧ t.safety[c] = s.safety[c])

/-- R36, R111, R113: at the third edge of a PARKED turn, with no order taken, the turn is over, its triple handed, the
channel detached with a verify; the group goes to the tail of the rotation list and the park timer starts with the clamped
park interval; under ROTATE the injector moves to the next eligible channel where that is another. -/
def Obligations.TurnCompletes : Prop :=
  ∀ (i : Instr) (s : State) (c d : Chan) (q : Seq) (h : List Plateau) (l : GroupId) (g : Group), edgeAt s c i q h →
    q.run = .triple → q.half = 3 → q.owner = none → s.mode = .parked → s.intake = [] →
    groupOfInjector s c = some l → s.groups[l] = some g → s.seqs[c].coupling = .attached →
    ∃ t : State, exec i s = .next t ∧ t.triples = s.triples ++ handedAt s c q h
      ∧ t.seqs[c] = { runOver q with coupling := .detached } ∧ t.safety[c] = { s.safety[c] with verify := some 5 }
      ∧ t.rotation = (s.rotation.filter fun x => x ≠ l) ++ [l]
      ∧ t.park = .running (max 10 (min 3600 (s.mem.read16 0x040)) * 1000)
      ∧ (∀ m : GroupId, m ≠ l → t.groups[m] = s.groups[m])
      ∧ (g.policy = .lowest ∨ nextInLine s l c c → t.groups[l] = some { g with series := .none })
      ∧ (g.policy = .rotate → nextInLine s l c d → d ≠ c → ∀ p : PlanCopy, readyPlan s l = some p → p.settle ≠ 0 →
          t.groups[l] = some { g with
            injector := some d, settle := some p.settle, waitPlan := false, measurable := false, series := .none
            rotation := 0 })

/-! ### The arithmetic unit (chapter 3) -/

/-- R45, R57: the unit, if idle, takes up the oldest waiting triple; at a completion the result of a triple that is no
SELFCHECK's joins the condition unit's queue, and the oldest waiting triple is taken up. The two events are read as
log entry 11 says. -/
def Obligations.ComputationUnitServesInOrder : Prop :=
  ∀ s : State,
    (∀ (x : Triple) (rest : List Triple), s.computing = none → s.triples = x :: rest →
      exec .computationStart s = .next { s with computing := some x, triples := rest })
    ∧ (s.computing ≠ none ∨ s.triples = [] → exec .computationStart s = .next s)
    ∧ (∀ x : Triple, s.computing = some x → x.source ≠ .selfcheck →
        exec .computationComplete s = .next { s with
          results := s.results ++ [compute x], computing := s.triples.head?, triples := s.triples.tail })
    ∧ (s.computing = none → s.triples = [] → exec .computationComplete s = .next s)

/-- R48: the outer value, the pair, the response and twice the offset, with their ranges. -/
def Obligations.PairOfPlateaus : Prop :=
  ∀ (x : Triple) (aOut aPos aNeg : Int), aOut = (x.p1.value + x.p3.value + 1) / 2 →
    (x.p1.polarity = .pos → aPos = aOut ∧ aNeg = x.p2.value) → (x.p1.polarity = .neg → aPos = x.p2.value ∧ aNeg = aOut) →
    (compute x).dA = aPos - aNeg ∧ (compute x).off2 = aPos + aNeg
    ∧ ((∀ v, v = x.p1.value ∨ v = x.p2.value ∨ v = x.p3.value → -32768 ≤ v ∧ v ≤ 32767) →
        (∀ v, v = aOut ∨ v = aPos ∨ v = aNeg → -32768 ≤ v ∧ v ≤ 32767)
        ∧ -65535 ≤ (compute x).dA ∧ (compute x).dA ≤ 65535
        ∧ -65536 ≤ (compute x).off2 ∧ (compute x).off2 ≤ 65534)

/-- R46, R47, R49 to R52, R55, R56, R58: which conditions stand in a result, when it is valid, its resistance and network
voltage, when it has a rail split, and what it carries from its triple. -/
def Obligations.ConditionsAndResistance : Prop :=
  ∀ (x : Triple) (r : Result), r = compute x →
    (∀ b : Nat, has8 r.conds b = true ↔
      has8 x.p1.flags b = true ∨ has8 x.p2.flags b = true ∨ has8 x.p3.flags b = true
      ∨ (b = 2 ∧ x.drift < (x.p1.value - x.p3.value).natAbs) ∨ (b = 3 ∧ r.dA ≤ 0)
      ∨ (b = 4 ∧ 0 < r.dA ∧ (x.daMin : Int) ≤ r.dA ∧ faultOhms x r.dA < 0)
      ∨ (b = 5 ∧ 0 < r.dA ∧ (r.dA < x.daMin ∨ 65000 < faultKilohms x r.dA)))
    ∧ (r.valid = true ↔ ∀ b, b < 4 → has8 r.conds b = false)
    ∧ (r.valid = false → r.rf = none ∧ r.split = none)
    ∧ (r.valid = true → r.dA < x.daMin → r.rf = some 65535 ∧ r.split = none)
    ∧ (r.valid = true → (x.daMin : Int) ≤ r.dA →
        r.rf = some (if 65000 < faultKilohms x r.dA then 65535 else faultKilohms x r.dA)
        ∧ (r.split.isSome = true ↔ faultKilohms x r.dA ≤ 65000 ∧ 50 ≤ r.ub ∧ x.source ≠ .selfcheck))
    ∧ r.ub = (x.p1.ub + x.p2.ub + x.p3.ub + 1) / 3
    ∧ (x.p1.ub ≤ 1200 → x.p2.ub ≤ 1200 → x.p3.ub ≤ 1200 → r.ub ≤ 1200)
    ∧ r.p1 = x.p1.value ∧ r.p2 = x.p2.value ∧ r.p3 = x.p3.value ∧ r.pol1 = x.p1.polarity
    ∧ r.t1 = x.p1.settleTime ∧ r.t2 = x.p2.settleTime ∧ r.t3 = x.p3.settleTime
    ∧ r.source = x.source ∧ r.chan = x.chan ∧ r.planId = x.planId ∧ r.stamp = x.stamp ∧ r.actions = x.actions
    ∧ r.slot = x.slot

/-- R53, R54: a rail split has the asymmetry of the offset, rounded half away from zero and clamped to 990, and the two
rails it gives, each rounded half up and marked above range. -/
def Obligations.RailSplitFigures : Prop :=
  ∀ (x : Triple) (r : Result) (split : RailSplit) (ohm : Nat), r = compute x → r.split = some split →
    ohm = (max 0 (faultOhms x r.dA)).toNat →
    split.apm = max (-990) (min 990 (awayRounded (-(r.off2 * ((x.rs : Int) + ohm))) (10 * x.rm * r.ub)))
    ∧ split.rp = railOf ohm (1000 + split.apm) ∧ split.rn = railOf ohm (1000 - split.apm)
    ∧ (r.off2 = 0 → split.apm = 0) ∧ (ohm = 0 → split.rp = 0 ∧ split.rn = 0)

/-- R57, R146, R148: the completion of a SELFCHECK computation evaluates the check.  It passes where the result is valid
with 950 to 1,050 kΩ; GOOD and SUSPECT go to GOOD on a pass, to SUSPECT and OFFLINE on a failure; a change sets the news
bit and raises level 6; the slot goes DONE with the outcome, and the group reselects, its settle timer started. The check counts as running
until then (log entry 12). -/
def Obligations.SelfcheckEvaluated : Prop :=
  ∀ (s : State) (x : Triple) (n : SlotId) (l : GroupId) (k : Nat) (r : Result) (before after : Health) (passed : Bool),
    s.computing = some x → r = compute x → x.source = .selfcheck → x.slot = some n →
    s.intake = [⟨n, .selfcheck x.chan, .finishing, l, k⟩] → s.safety[x.chan].health = before → before ≠ .offline →
    (passed = true ↔ r.valid = true ∧ ∃ v : Nat, r.rf = some v ∧ 950 ≤ v ∧ v ≤ 1050) →
    after = (if passed then .good else if before = .good then .suspect else .offline) →
    ∃ t : State, exec .computationComplete s = .next t ∧ t.safety[x.chan].health = after
      ∧ (∀ c : Chan, c ≠ x.chan → t.safety[c].health = s.safety[c].health)
      ∧ t.news.chanSafety = s.news.chanSafety ||| (if after = before then 0 else bit8 x.chan.val)
      ∧ (has8 t.attn.pending 6 = true ↔ has8 s.attn.pending 6 = true ∨ after ≠ before)
      ∧ t.intake = [] ∧ t.slots[n] = .done ∧ t.mem.read (slotAddr n) = 3 ∧ t.mem.read (slotAddr n + 0x12) = 4
      ∧ t.mem.read (slotAddr n + 0x15) = 0
      ∧ (∀ j, j < 40 → t.mem.read (slotAddr n + 0x18 + j) =
          ([if passed then 1 else 2] ++ le16 (BitVec.ofNat 16 (r.rf.getD 0)) ++ [r.conds, byteOf before.code,
            byteOf after.code]).getD j 0)
      ∧ has8 t.news.done n.val = true ∧ has8 t.attn.pending 4 = true ∧ t.results = s.results
      ∧ t.computing = s.triples.head? ∧ t.triples = s.triples.tail ∧ t.nodes = s.nodes
      ∧ tableAgrees t ∧ injectorsEligible t
      ∧ ∀ (m : GroupId) (g : Group), t.groups[m] = some g → injectorOf s m = none →
          lowestInjects t m g ∧ settleStarted t m g

/-! ### Results (chapters 4 and 5) -/

/-- R60, R61, R63 to R65, R68, R72, R80 to R83, R86: a result taken by the condition unit updates its channel's context
record unless it is HELD, reaches every node of its stamp and no other, sets node-state news with level 2 for each change
of state, and sets channel-condition news with level 3 unless its class is IGNORE.  A result that holds no channel and is
no SPOT's changes nothing else but level 1 and its fact: a level in service stays, one that shows its fact still does.  Other commands may fall after the context record's update; the next CONDITION_RESULT then
finishes the result, whatever came between (log entry 24).  With no result it has no effect (log entry 20). -/
def Obligations.ResultReachesContextAndNodes : Prop :=
  (∀ (s u : State) (r : Result) (rest : List Result) (stamp : Stamp), resultTaken s r rest u →
    (s.taken = none → s.cuts.head? ≠ some true) → r.stamp = some stamp →
    ∃ t : State, exec .conditionResult s = .next t ∧ t.results = rest ∧ t.taken = none
      ∧ (s.taken = none → s.seqs[r.chan].ctx ≠ .held → recordFrom r t.seqs[r.chan].record)
      ∧ (s.seqs[r.chan].ctx = .held → t.seqs[r.chan].record = s.seqs[r.chan].record ∧ t.seqs[r.chan].ctx = .held)
      ∧ (∀ n : NodeId, has8 stamp.members n.val = true → tookResult s r stamp n t.nodes[n] ∧ imaged s t n)
      ∧ (∀ n : NodeId, has8 stamp.members n.val = false →
          t.nodes[n] = s.nodes[n] ∧ ∀ k, k < 32 → t.mem.read (recordAddr n + k) = s.mem.read (recordAddr n + k))
      ∧ (∀ (n : NodeId) (k : Nat), 0x1C ≤ k → k < 32 → t.mem.read (recordAddr n + k) = s.mem.read (recordAddr n + k))
      ∧ (∀ n : NodeId, has8 t.news.nodeState n.val = true ↔
          has8 s.news.nodeState n.val = true ∨ t.nodes[n].state ≠ s.nodes[n].state)
      ∧ (has8 t.attn.pending 2 = true ↔ has8 s.attn.pending 2 = true ∨ ∃ n : NodeId, t.nodes[n].state ≠ s.nodes[n].state)
      ∧ ((∃ n : NodeId, has8 stamp.members n.val = true) →
          (t.attn.faultFact = true ↔ ∃ n : NodeId, t.nodes[n].state = .fault))
      ∧ t.news.chanCond = s.news.chanCond ||| (if actionClass r.conds r.actions = .ignore then 0 else bit8 r.chan.val)
      ∧ (has8 t.attn.pending 3 = true ↔ has8 s.attn.pending 3 = true ∨ actionClass r.conds r.actions ≠ .ignore)
      ∧ (actionClass r.conds r.actions ≠ .hold ∨ s.seqs[r.chan].ctx = .held → r.source ≠ .spot →
          t = { u with
              nodes := t.nodes, mem := t.mem
              news := { u.news with nodeState := t.news.nodeState, chanCond := t.news.chanCond }
              attn := { u.attn with pending := t.attn.pending, faultFact := t.attn.faultFact } }
          ∧ (∀ k : Level, k ≠ 1 → k ≠ 2 → k ≠ 3 → has8 t.attn.pending k.val = has8 s.attn.pending k.val)
          ∧ (has8 s.attn.inService 1 = true ∨ (∀ n : NodeId, has8 stamp.members n.val = false) →
              has8 t.attn.pending 1 = has8 s.attn.pending 1)
          ∧ (has8 s.attn.inService 1 = false →
              has8 s.attn.pending 1 = s.attn.faultFact ∨ t.attn.faultFact ≠ s.attn.faultFact →
              has8 t.attn.pending 1 = t.attn.faultFact)
          ∧ ((∀ n : NodeId, has8 stamp.members n.val = false) → t.attn.faultFact = s.attn.faultFact)
          ∧ ∀ a, ¬ inRecords a → t.mem.read a = s.mem.read a))
  ∧ (∀ (s : State) (r : Result) (rest : List Result) (cuts : List Bool), s.taken = none → s.results = r :: rest →
      s.cuts = true :: cuts →
      ∃ u : State, resultTaken s r rest u ∧ exec .conditionResult s = .next { u with taken := some r }
        ∧ exec .conditionResult { u with taken := some r } = exec .conditionResult { s with cuts := false :: cuts })
  ∧ (∀ s : State, s.taken = none → s.results = [] → exec .conditionResult s = .next s)
  ∧ (∀ (v : CondSet) (acts : Vector Action 7), classIs v acts (actionClass v acts))
  ∧ ∀ (v : CondSet) (b : Fin 8), (∀ a : Fin 7, a.val < b.val → has8 v a.val = false) →
      (b.val < 7 → has8 v b.val = true → highestOf v = b.val + 1) ∧ (b.val = 7 → highestOf v = 0)

/-- R84, R87, R92, R93: a result of class HOLD holds a channel that is not held when its HOLD effects are taken, be it
after a SNAPSHOT or RELEASE that came once its context record was updated: the context becomes HELD with the result's
figures, its SERIES or TRIPLE run is over, it is detached and injects in no group, and every injector left is eligible. That
these fall after the update, and that the figures are the result's whatever came between, is log entry 24. -/
def Obligations.HoldTakesTheChannel : Prop :=
  ∀ (s u : State) (r : Result) (rest : List Result), resultTaken s r rest u →
    (s.taken = none → s.cuts.head? ≠ some true) → r.source ≠ .selfcheck → intakeSound s →
    classIs r.conds r.actions .hold → s.seqs[r.chan].ctx ≠ .held →
    ∃ t : State, exec .conditionResult s = .next t ∧ t.results = rest ∧ t.taken = none ∧ t.seqs[r.chan].ctx = .held
      ∧ recordFrom r t.seqs[r.chan].record ∧ t.seqs[r.chan].coupling = .detached
      ∧ t.seqs[r.chan].run ≠ .series ∧ t.seqs[r.chan].run ≠ .triple
      ∧ (s.seqs[r.chan].coupling = .attached → t.safety[r.chan].verify = some 5)
      ∧ (∀ l : GroupId, injectorOf t l ≠ some r.chan) ∧ tableAgrees t ∧ injectorsEligible t ∧ attachedInject t
      ∧ has8 t.news.chanCond r.chan.val = true ∧ has8 t.attn.pending 3 = true

/-- R82, R123, R134: a SPOT's result that holds no channel completes its FINISHING order DONE with the result's figures. -/
def Obligations.SpotCompletesWithItsResult : Prop :=
  ∀ (s u : State) (r : Result) (rest : List Result) (n : SlotId) (node : NodeId) (p : PlanId) (l : GroupId)
    (k : Nat), resultTaken s r rest u → (s.taken = none → s.cuts.head? ≠ some true) →
    r.source = .spot → r.slot = some n → s.intake = [⟨n, .spot node p, .finishing, l, k⟩] →
    actionClass r.conds r.actions ≠ .hold →
    ∃ t : State, exec .conditionResult s = .next t ∧ t.results = rest ∧ t.intake = []
      ∧ t.slots = upd s.slots n .done
      ∧ spotShows t.mem n r p ∧ t.mem.read (slotAddr n) = 3 ∧ t.mem.read (slotAddr n + 0x12) = 4
      ∧ t.mem.read (slotAddr n + 0x15) = 0 ∧ t.news.done = s.news.done ||| bit8 n.val ∧ has8 t.attn.pending 4 = true
      ∧ ∀ a, ¬ inRecords a → ¬ (slotAddr n ≤ a ∧ a < slotAddr n + 64) → t.mem.read a = s.mem.read a

/-- R66, R67: the target band of a reading under the limits of the node's present state; and the move of state,
candidate and count toward it. -/
def Obligations.TargetBandAndConfirmation : Prop :=
  (∀ (p : PlanCopy) (st : NodeState) (rf fault warn : Nat),
    fault = (if st = .fault then p.faultK * (100 + p.hysteresis) / 100 else p.faultK) →
    warn = (if st = .fault ∨ st = .warn then p.warnK * (100 + p.hysteresis) / 100 else p.warnK) →
    (targetBand p st rf = .fault ↔ rf < fault) ∧ (targetBand p st rf = .warn ↔ fault ≤ rf ∧ rf < warn)
    ∧ (targetBand p st rf = .ok ↔ fault ≤ rf ∧ warn ≤ rf))
  ∧ ∀ (confirm : Nat) (target : Band) (st : NodeState) (cand : Option Band) (count n : Nat),
      n = (if cand = some target then count + 1 else 1) →
      (st = .unknown ∨ st = .stale → moveToward confirm target st cand count = (target.state, none, 0))
      ∧ (st = target.state → moveToward confirm target st cand count = (st, none, 0))
      ∧ (st ≠ .unknown → st ≠ .stale → st ≠ target.state →
          moveToward confirm target st cand count =
            if confirm ≤ n then (target.state, none, 0) else (st, some target, n))

/-- R63, R68, R69, R70, R72: a staleness check makes each node over its maximum age STALE, with its image, its news bit
and one level 5, and leaves every other node; during STARTING no check is made. -/
def Obligations.StalenessCheckAgesNodes : Prop :=
  (∀ s : State, s.starting = true → exec .stalenessCheck s = .next s)
  ∧ ∀ s : State, s.starting = false →
    ∃ t : State, exec .stalenessCheck s = .next t
      ∧ (∀ n : NodeId, isOverAge s n →
          t.nodes[n] = { s.nodes[n] with
            state := .stale, candidate := none, count := 0, updateCount := t.nodes[n].updateCount
            deferred := t.nodes[n].deferred }
          ∧ imaged s t n)
      ∧ (∀ n : NodeId, ¬ isOverAge s n →
          t.nodes[n] = s.nodes[n] ∧ ∀ k, k < 32 → t.mem.read (recordAddr n + k) = s.mem.read (recordAddr n + k))
      ∧ (∀ n : NodeId, has8 t.news.nodeStale n.val = true ↔ has8 s.news.nodeStale n.val = true ∨ isOverAge s n)
      ∧ (has8 t.attn.pending 5 = true ↔ has8 s.attn.pending 5 = true ∨ ∃ n : NodeId, isOverAge s n)
      ∧ ((∃ n : NodeId, isOverAge s n) → (t.attn.faultFact = true ↔ ∃ n : NodeId, t.nodes[n].state = .fault))
      ∧ ((∀ n : NodeId, ¬ isOverAge s n) → t = s)
      ∧ (∀ a, ¬ inRecords a → t.mem.read a = s.mem.read a)
      ∧ t = { s with
          nodes := t.nodes, mem := t.mem, news := { s.news with nodeStale := t.news.nodeStale }, attn := t.attn }

/-! ### Timers and lines (chapters 1, 6 and 8) -/

/-- R12, R103, R106, R110, R113: a settle expiry makes its group measurable, and in RUN with no order taken its series
starts; a park timer's expiry marks a turn due, which the first group in list order that qualifies takes at once.  An
expiry that finds no timer running has no effect. The expiries are events of their own (log entry 2). -/
def Obligations.SettleAndParkTimersExpire : Prop :=
  (∀ (s : State) (l : GroupId) (g : Group), s.groups[l] = some g → g.settle ≠ none →
    (restful s → exec (.settleExpiry l) s = .next
      { s with groups := upd s.groups l (some { g with settle := none, measurable := true }) })
    ∧ ∀ (c : Chan) (p : PlanId), s.mode = .run → s.intake = [] → g.series = .none → g.injector = some c →
        ownInjector s l c → s.nodePlan[l] = some p → s.plans[p].ready = true → s.seqs[c].run = .none →
        s.seqs[c].coupling = .detached →
        ∃ t : State, exec (.settleExpiry l) s = .next t
          ∧ t.groups[l] = some { g with
              settle := none, measurable := true, series := .series, policy := s.plans[p].policy
              rotateCount := s.plans[p].rotate, rotation := 0, seriesCount := g.seriesCount + 1 }
          ∧ ((∀ d : Chan, d = c ∨ wiredInto s d g.members = true → s.safety[d].verify = none) →
              t.seqs[c] = { firstHalf s.seqs[c] .series none ⟨s.plans[p], some p, s.wiring[c].rm, s.wiring[c].rs⟩
                s.plans[p].startPol with coupling := .attached })
          ∧ ((∃ d : Chan, (d = c ∨ wiredInto s d g.members = true) ∧ s.safety[d].verify ≠ none) →
              t.seqs[c] = waitingRun s.seqs[c] .series none
                ⟨s.plans[p], some p, s.wiring[c].rm, s.wiring[c].rs⟩))
  ∧ (∀ (s : State) (l : GroupId), (∀ g : Group, s.groups[l] = some g → g.settle = none) →
      exec (.settleExpiry l) s = .next s)
  ∧ (∀ s : State, (∀ n, s.park ≠ .running n) → exec .parkTimerExpiry s = .next s)
  ∧ ∀ (s : State) (n : Nat), s.park = .running n → s.mode = .parked → s.intake = [] →
      (∀ c : Chan, s.seqs[c].run = .none → s.seqs[c].coupling = .detached) → (∀ m : GroupId, seriesOf s m = .none) →
      ((∀ (l : GroupId) (g : Group) (c : Chan) (p : PlanId), ¬ readyToMeasure s l g c p) →
          exec .parkTimerExpiry s = .next { s with park := .due })
      ∧ ∀ (l : GroupId) (g : Group) (c : Chan) (p : PlanId) (ahead behind : List GroupId),
          s.rotation = ahead ++ l :: behind → readyToMeasure s l g c p → s.seqs[c].run = .none →
          (∀ m ∈ ahead, ∀ (g' : Group) (d : Chan) (q : PlanId), ¬ readyToMeasure s m g' d q) →
          ∃ t : State, exec .parkTimerExpiry s = .next t ∧ t.park = .stopped ∧ t.rotation = s.rotation
            ∧ t.groups = upd s.groups l (some { g with
                series := .turn, policy := s.plans[p].policy, rotateCount := s.plans[p].rotate, rotation := 0
                seriesCount := g.seriesCount + 1 })
            ∧ t.seqs[c].run = .triple ∧ t.seqs[c].owner = none
            ∧ t.seqs[c].copy = ⟨s.plans[p], some p, s.wiring[c].rm, s.wiring[c].rs⟩
            ∧ ∀ d : Chan, d ≠ c → t.seqs[d] = s.seqs[d]

/-- R11, R23, R144, R147: a detach verify that passes ends its timer and lets go ahead what it alone held back: the
attach of waiting runs, which begin their half-period, and the reference of a waiting SELFCHECK run of the channel.  An
expiry with no verify running, or during STARTING, has no effect. The expiry is an event of its own (log entry 2), and an
attach that a wiring write freed goes ahead at it (the model's choice: log entry 27). -/
def Obligations.DetachVerifyPasses : Prop :=
  ∀ (s : State) (c : Chan),
    (∀ closed : Bool, s.starting = true ∨ s.safety[c].verify = none →
      exec (.detachVerifyExpiry c closed) s = .next s)
    ∧ (s.starting = false → s.safety[c].verify ≠ none →
      ∃ t : State, exec (.detachVerifyExpiry c false) s = .next t ∧ t = { s with seqs := t.seqs, safety := t.safety }
        ∧ (∀ d : Chan, d ≠ c → t.safety[d] = s.safety[d])
        ∧ (waitsForReference s c → t.safety[c] = { s.safety[c] with verify := none, reference := true }
            ∧ t.seqs[c] = halfBegun s.seqs[c] .pos)
        ∧ (¬ waitsForReference s c → t.safety[c] = { s.safety[c] with verify := none })
        ∧ (∀ d : Chan, waitsForVerifyOf s c d → t.seqs[d] =
            { halfBegun s.seqs[d] s.seqs[d].copy.plan.startPol with coupling := .attached })
        ∧ ∀ d : Chan, ¬ waitsForVerifyOf s c d → (d = c → ¬ waitsForReference s c) → t.seqs[d] = s.seqs[d])

/-- R43, R59, R73, R79, R98, R116, R138, R145, R151, R152, R154: STOP asserted, or a detach verify that fails, enters
SAFE_STOP: every run over and every switch open, results dropped, a hold ended, TAKEN slots refused, series and requests
gone, level 0 pending; in SAFE_STOP already, only the line or the mask changes.  STOP released changes its line state.  An
assertion of a line already asserted has no effect (log entry 20). -/
def Obligations.SafeStopEntered : Prop :=
  (∀ (i : Instr) (s u : State) (cause : Cause) (chan : Option Chan), s.starting = false →
    (i = .stopLine ∧ s.lines.getLsbD 3 = false ∧ cause = .stopLine ∧ chan = none ∧ u = { s with lines := s.lines ||| 8 }
      ∨ ∃ c : Chan, i = .detachVerifyExpiry c true ∧ s.safety[c].verify ≠ none ∧ cause = .detachFailed
        ∧ chan = some c ∧ u = { s with
            failMask := s.failMask ||| (1#4 <<< c.val)
            safety := upd s.safety c { s.safety[c] with verify := none } }) →
    (s.mode = .safeStop → exec i s = .next u)
    ∧ (s.mode ≠ .safeStop → intakeSound s →
      ∃ t : State, exec i s = .next t ∧ t.mode = .safeStop ∧ t.cause = cause ∧ t.causeChan = chan
        ∧ t.parkedPending = false ∧ t.park = .stopped ∧ t.rotation = [] ∧ t.hold = none ∧ t.triples = []
        ∧ t.computing = none ∧ t.results = [] ∧ t.taken = none ∧ t.intake = [] ∧ alertAsserted t = true
        ∧ t.attn.safeStopFact = true
        ∧ (u.attn.safeStopFact = false → has8 u.attn.inService 0 = false → has8 t.attn.pending 0 = true)
        ∧ (∀ c : Chan, t.seqs[c] = { runOver u.seqs[c] with coupling := .detached }
            ∧ t.safety[c] = { u.safety[c] with
                reference := false
                verify := if u.seqs[c].coupling = .attached then some 5 else u.safety[c].verify })
        ∧ (∀ n : NodeId, t.nodes[n] = (if u.nodes[n].deferred then
              { u.nodes[n] with updateCount := u.nodes[n].updateCount + 1, deferred := false } else u.nodes[n])
            ∧ (u.nodes[n].deferred = true → recordShows t.mem n t.nodes[n])
            ∧ (u.nodes[n].deferred = false → ∀ k, k < 32 →
                t.mem.read (recordAddr n + k) = u.mem.read (recordAddr n + k)))
        ∧ (∀ n : SlotId, (u.slots[n] = .taken → t.slots[n] = .refused ∧ t.mem.read (slotAddr n) = 4
              ∧ t.mem.read (slotAddr n + 0x12) = 4 ∧ t.mem.read (slotAddr n + 0x15) = 15)
            ∧ (u.slots[n] ≠ .taken → t.slots[n] = u.slots[n] ∧ ∀ k, k < 64 →
                t.mem.read (slotAddr n + k) = u.mem.read (slotAddr n + k))
            ∧ has8 t.news.done n.val = (has8 u.news.done n.val || decide (u.slots[n] = .taken)))
        ∧ (∀ (l : GroupId) (g : Group), t.groups[l] = some g → g.series = .none ∧ g.rotation = 0)
        ∧ (∀ a, ¬ inRecords a → ¬ inSlots a → t.mem.read a = u.mem.read a)
        ∧ { t.fixed with
            cause := u.cause, causeChan := u.causeChan, hold := u.hold, nodes := u.nodes, triples := u.triples
            computing := u.computing, results := u.results, taken := u.taken, attn := u.fixed.attn } = u.fixed
        ∧ t.attn.mask = u.attn.mask ∧ t.attn.inService = u.attn.inService ∧ t.attn.faultFact = u.attn.faultFact))
  ∧ ∀ s : State, (s.starting = false → exec .stopLineRelease s = .next { s with lines := s.lines &&& 7 })
      ∧ (s.starting = true → exec .stopLineRelease s = .next s)
      ∧ (s.starting = true ∨ s.lines.getLsbD 3 = true → exec .stopLine s = .next s)

/-- R128, R139 to R142, R149: a change of a disconnect line reaches the channels that enable it: one of them that is not
disconnected is disconnected where an enabled line is asserted, with its coupling switch open, and a disconnected FOLLOW
channel comes back where none is; each change sets its news bit, with level 6; a RUNNING check of a channel so
disconnected completes DONE with outcome ABORTED; a RUNNING SPOT of a group whose injector is so disconnected has its abandon
count raised, and goes back to waiting while its group settles on another injector, is refused NO_CHANNEL where no channel
is left, and TOPOLOGY at the third abandonment.  A change that moves no channel changes the line state alone. An
event that names the state the line already has is ignored (log entry 20). -/
def Obligations.DisconnectLineReachesChannels : Prop :=
  ∀ (s u : State) (line : Fin 3) (asserted : Bool) (begins ends : Chan → Prop),
    (∀ c : Chan, begins c ↔ s.safety[c].discMask.getLsbD line.val = true ∧ s.safety[c].disconnected = false
      ∧ ∃ i, i < 3 ∧ s.safety[c].discMask.getLsbD i = true ∧ u.lines.getLsbD i = true) →
    (∀ c : Chan, ends c ↔ s.safety[c].discMask.getLsbD line.val = true ∧ s.safety[c].disconnected = true
      ∧ s.safety[c].discMode = .follow ∧ ∀ i, i < 3 → s.safety[c].discMask.getLsbD i = true → u.lines.getLsbD i = false) →
    u = { s with lines := u.lines } → (∀ i, u.lines.getLsbD i = if i = line.val then asserted else s.lines.getLsbD i) →
    (s.starting = true ∨ s.lines.getLsbD line.val = asserted → exec (.disconnectLineChange line asserted) s = .next s)
    ∧ (s.starting = false → s.lines.getLsbD line.val ≠ asserted → intakeSound s →
      ∃ t : State, exec (.disconnectLineChange line asserted) s = .next t ∧ t.lines = u.lines
        ∧ ((∀ c : Chan, ¬ begins c ∧ ¬ ends c) → t = u)
        ∧ (∀ c : Chan, (begins c → t.safety[c].disconnected = true ∧ t.seqs[c].coupling = .detached
              ∧ (s.seqs[c].coupling = .attached → t.safety[c].verify = some 5)
              ∧ (s.seqs[c].coupling = .attached
                  ∨ (s.intake = [] ∧ Safe s ∧ ∃ l : GroupId, injectorOf s l = some c ∧ seriesOf s l = .series) →
                  t.seqs[c].run ≠ .series ∧ t.seqs[c].run ≠ .triple))
            ∧ (ends c → t.safety[c].disconnected = false)
            ∧ (¬ begins c → ¬ ends c → t.safety[c].disconnected = s.safety[c].disconnected)
            ∧ t.safety[c].health = s.safety[c].health
            ∧ (has8 t.news.chanSafety c.val = true ↔ has8 s.news.chanSafety c.val = true ∨ begins c ∨ ends c))
        ∧ (has8 t.attn.pending 6 = true ↔ has8 s.attn.pending 6 = true ∨ ∃ c : Chan, begins c ∨ ends c)
        ∧ ((∃ c : Chan, begins c ∨ ends c) → tableAgrees t ∧ injectorsEligible t ∧ attachedInject t)
        ∧ (∀ (c : Chan) (n : SlotId) (l : GroupId) (k : Nat), begins c → s.intake = [⟨n, .selfcheck c, .running, l, k⟩] →
            t.intake = [] ∧ t.slots[n] = .done ∧ t.mem.read (slotAddr n) = 3
            ∧ (s.seqs[c].run = .selfcheck → t.seqs[c].run = .none ∧ t.safety[c].reference = false)
            ∧ ∀ j, j < 40 → t.mem.read (slotAddr n + 0x18 + j) =
                [3, 0, 0, 0, byteOf s.safety[c].health.code, byteOf s.safety[c].health.code].getD j 0)
        ∧ ∀ (c : Chan) (n : SlotId) (node : NodeId) (p : PlanId) (l : GroupId) (k : Nat), begins c → Safe s →
            s.mode = .idle ∨ s.mode = .run → s.parkedPending = false → injectorOf s l = some c → leaderOf s node = l →
            s.intake = [⟨n, .spot node p, .running, l, k⟩] → s.plans[p].ready = true →
            t.mem.read (slotAddr n + 0x14) = byteOf (k + 1)
            ∧ (3 ≤ k + 1 → t.intake = [] ∧ spotRefusedTopology s t n)
            ∧ (k + 1 < 3 → (t.groups[l]).bind (·.settle) ≠ none →
                t.intake = [⟨n, .spot node p, .waiting, l, k + 1⟩] ∧ t.slots[n] = .taken
                ∧ t.mem.read (slotAddr n + 0x12) = 1 ∧ t.mem.read (slotAddr n + 0x13) = byteOf l.val)
            ∧ (k + 1 < 3 → groupState t l = .noChannel →
                t.intake = [] ∧ t.slots[n] = .refused ∧ t.mem.read (slotAddr n + 0x15) = byteOf Reason.noChannel.code))

/-! ### Attention (chapter 10) -/

/-- R170, R171: a write of ATTN_MASK replaces the mask and nothing else; ATTN is asserted exactly while some unmasked
pending level has higher priority than every level in service; a latched level joins the pending set when it is raised; a
level of type level follows a change of its fact, unless it is in service. -/
def Obligations.MaskAttnAndPendingLevels : Prop :=
  (∀ (s : State) (mask : Byte), s.endPending = false ∨ s.starting = true →
    exec (.attnMask mask) s = .next { afterAddress s [0] with attn := { s.attn with mask := mask } })
  ∧ (∀ a : Attn, attnAsserted a = true ↔ ∃ p : Level, has8 a.pending p.val = true ∧ has8 a.mask p.val = false
      ∧ ∀ q : Level, has8 a.inService q.val = true → p < q)
  ∧ (∀ (a : Attn) (n m : Level), has8 (a.raise n.val).pending m.val = (has8 a.pending m.val || decide (n = m))
    ∧ (a.raise n.val).inService = a.inService)
  ∧ ∀ (a : Attn) (fact : Bool), a.faultFact ≠ fact → (a.setFault fact).faultFact = fact
    ∧ (a.setFault fact).inService = a.inService ∧ (a.setFault fact).mask = a.mask
    ∧ ∀ m : Level, has8 (a.setFault fact).pending m.val =
        if m = 1 ∧ has8 a.inService 1 = false then fact else has8 a.pending m.val

/-- R172: a read of POLL takes the unmasked pending level of highest priority into service and returns it, or returns
0x0F and changes nothing. -/
def Obligations.PollTakesHighestLevel : Prop :=
  ∀ s : State, s.endPending = false ∨ s.starting = true →
    ∃ (t : State) (b : Byte), exec .poll s = .next t ∧ t = { afterAddress s [b] with attn := t.attn }
      ∧ exec (.registerRead (some 7) 1) s = .next t
      ∧ (∀ n : Level, has8 s.attn.pending n.val = true → has8 s.attn.mask n.val = false →
          (∀ m : Level, m < n → ¬ (has8 s.attn.pending m.val = true ∧ has8 s.attn.mask m.val = false)) →
          b = byteOf n.val ∧ (∀ m : Level, has8 t.attn.pending m.val = (has8 s.attn.pending m.val && decide (m ≠ n)))
          ∧ (∀ m : Level, has8 t.attn.inService m.val = (has8 s.attn.inService m.val || decide (m = n)))
          ∧ t.attn.mask = s.attn.mask ∧ t.attn.safeStopFact = s.attn.safeStopFact ∧ t.attn.faultFact = s.attn.faultFact)
      ∧ ((∀ n : Level, has8 s.attn.pending n.val = true → has8 s.attn.mask n.val = true) →
          b = 0x0F ∧ t.attn = s.attn)

/-- R173: a specific END removes its level from service, a non-specific END the level of highest priority in service,
and a level of type level pends again by its fact; any other value written to POLL has no effect. -/
def Obligations.EndsRemoveLevels : Prop :=
  ∀ s : State, s.endPending = false ∨ s.starting = true →
    (∀ n : Level, ∃ t : State, exec (.specificEnd (byteOf n.val)) s = .next t
      ∧ t = { afterAddress s [0] with attn := t.attn } ∧ levelEnded s.attn t.attn n)
    ∧ (∃ t : State, exec .nonSpecificEnd s = .next t ∧ t = { afterAddress s [0] with attn := t.attn }
      ∧ (∀ n : Level, has8 s.attn.inService n.val = true → (∀ m : Level, m < n → has8 s.attn.inService m.val = false) →
          levelEnded s.attn t.attn n)
      ∧ (s.attn.inService = 0 → t.attn = s.attn))
    ∧ ∀ v : Byte, 9 ≤ v.toNat → exec (.registerWrite (some 7) [v]) s = .next (afterAddress s [0])

end Statements
end

