-- ==== Sys2Proof/Laws/State.lean ====
section
/-! SUPPORT. The small lemmas of every update of the state and of a sequencer: one per field per update, true by
rfl (by one case split where the update has a condition), so that no proof unfolds a record update. -/

namespace Sys2Proof.Machine

/-! ### One entry of a table -/

theorem upd_same {α : Type} {n : Nat} (v : Vector α n) (i : Fin n) (x : α) : (upd v i x)[i] = x := by
  simp [upd]

theorem upd_get {α : Type} {n : Nat} (v : Vector α n) (i j : Fin n) (x : α) :
    (upd v i x)[j] = if i = j then x else v[j] := by
  simp [upd, Vector.getElem_set, Fin.ext_iff]

theorem upd_other {α : Type} {n : Nat} (v : Vector α n) (i j : Fin n) (x : α) (h : i ≠ j) :
    (upd v i x)[j] = v[j] := by
  rw [upd_get, if_neg h]

/-- An entry rewritten with itself leaves the table. -/
theorem upd_self {α : Type} {n : Nat} (v : Vector α n) (i : Fin n) : upd v i v[i] = v := by
  simp [upd]

/-! The same with the index as a number, the form `simp` brings them to. -/

@[simp] theorem upd_same_val {α : Type} {n : Nat} (v : Vector α n) (i : Fin n) (x : α) : (upd v i x)[i.val] = x :=
  upd_same v i x

@[simp] theorem upd_other_val {α : Type} {n : Nat} (v : Vector α n) (i j : Fin n) (x : α) (h : i ≠ j) :
    (upd v i x)[j.val] = v[j.val] := upd_other v i j x h

@[simp] theorem upd_self_val {α : Type} {n : Nat} (v : Vector α n) (i : Fin n) : upd v i v[i.val] = v := upd_self v i

/-! ### `State.setSeq` -/

@[simp] theorem State.setSeq_pending (s : State) (c : Chan) (q : Seq) : (s.setSeq c q).pending = s.pending := rfl
@[simp] theorem State.setSeq_starting (s : State) (c : Chan) (q : Seq) : (s.setSeq c q).starting = s.starting := rfl
@[simp] theorem State.setSeq_mode (s : State) (c : Chan) (q : Seq) : (s.setSeq c q).mode = s.mode := rfl
@[simp] theorem State.setSeq_request (s : State) (c : Chan) (q : Seq) : (s.setSeq c q).request = s.request := rfl
@[simp] theorem State.setSeq_parkedPending (s : State) (c : Chan) (q : Seq) :
    (s.setSeq c q).parkedPending = s.parkedPending := rfl
@[simp] theorem State.setSeq_park (s : State) (c : Chan) (q : Seq) : (s.setSeq c q).park = s.park := rfl
@[simp] theorem State.setSeq_rotation (s : State) (c : Chan) (q : Seq) : (s.setSeq c q).rotation = s.rotation := rfl
@[simp] theorem State.setSeq_uptime (s : State) (c : Chan) (q : Seq) : (s.setSeq c q).uptime = s.uptime := rfl
@[simp] theorem State.setSeq_uptimeLatch (s : State) (c : Chan) (q : Seq) :
    (s.setSeq c q).uptimeLatch = s.uptimeLatch := rfl
@[simp] theorem State.setSeq_mem (s : State) (c : Chan) (q : Seq) : (s.setSeq c q).mem = s.mem := rfl
@[simp] theorem State.setSeq_err (s : State) (c : Chan) (q : Seq) : (s.setSeq c q).err = s.err := rfl
@[simp] theorem State.setSeq_endPending (s : State) (c : Chan) (q : Seq) :
    (s.setSeq c q).endPending = s.endPending := rfl
@[simp] theorem State.setSeq_watch (s : State) (c : Chan) (q : Seq) : (s.setSeq c q).watch = s.watch := rfl
@[simp] theorem State.setSeq_sdo (s : State) (c : Chan) (q : Seq) : (s.setSeq c q).sdo = s.sdo := rfl
@[simp] theorem State.setSeq_hold (s : State) (c : Chan) (q : Seq) : (s.setSeq c q).hold = s.hold := rfl
@[simp] theorem State.setSeq_holdExpired (s : State) (c : Chan) (q : Seq) :
    (s.setSeq c q).holdExpired = s.holdExpired := rfl
@[simp] theorem State.setSeq_nodePlan (s : State) (c : Chan) (q : Seq) : (s.setSeq c q).nodePlan = s.nodePlan := rfl
@[simp] theorem State.setSeq_links (s : State) (c : Chan) (q : Seq) : (s.setSeq c q).links = s.links := rfl
@[simp] theorem State.setSeq_wiring (s : State) (c : Chan) (q : Seq) : (s.setSeq c q).wiring = s.wiring := rfl
@[simp] theorem State.setSeq_plans (s : State) (c : Chan) (q : Seq) : (s.setSeq c q).plans = s.plans := rfl
@[simp] theorem State.setSeq_yields (s : State) (c : Chan) (q : Seq) : (s.setSeq c q).yields = s.yields := rfl
@[simp] theorem State.setSeq_groups (s : State) (c : Chan) (q : Seq) : (s.setSeq c q).groups = s.groups := rfl
@[simp] theorem State.setSeq_seqs (s : State) (c : Chan) (q : Seq) : (s.setSeq c q).seqs = upd s.seqs c q := rfl
@[simp] theorem State.setSeq_safety (s : State) (c : Chan) (q : Seq) : (s.setSeq c q).safety = s.safety := rfl
@[simp] theorem State.setSeq_lines (s : State) (c : Chan) (q : Seq) : (s.setSeq c q).lines = s.lines := rfl
@[simp] theorem State.setSeq_cause (s : State) (c : Chan) (q : Seq) : (s.setSeq c q).cause = s.cause := rfl
@[simp] theorem State.setSeq_causeChan (s : State) (c : Chan) (q : Seq) :
    (s.setSeq c q).causeChan = s.causeChan := rfl
@[simp] theorem State.setSeq_failMask (s : State) (c : Chan) (q : Seq) : (s.setSeq c q).failMask = s.failMask := rfl
@[simp] theorem State.setSeq_nodes (s : State) (c : Chan) (q : Seq) : (s.setSeq c q).nodes = s.nodes := rfl
@[simp] theorem State.setSeq_news (s : State) (c : Chan) (q : Seq) : (s.setSeq c q).news = s.news := rfl
@[simp] theorem State.setSeq_attn (s : State) (c : Chan) (q : Seq) : (s.setSeq c q).attn = s.attn := rfl
@[simp] theorem State.setSeq_slots (s : State) (c : Chan) (q : Seq) : (s.setSeq c q).slots = s.slots := rfl
@[simp] theorem State.setSeq_intakeSeq (s : State) (c : Chan) (q : Seq) :
    (s.setSeq c q).intakeSeq = s.intakeSeq := rfl
@[simp] theorem State.setSeq_intake (s : State) (c : Chan) (q : Seq) : (s.setSeq c q).intake = s.intake := rfl
@[simp] theorem State.setSeq_triples (s : State) (c : Chan) (q : Seq) : (s.setSeq c q).triples = s.triples := rfl
@[simp] theorem State.setSeq_computing (s : State) (c : Chan) (q : Seq) :
    (s.setSeq c q).computing = s.computing := rfl
@[simp] theorem State.setSeq_results (s : State) (c : Chan) (q : Seq) : (s.setSeq c q).results = s.results := rfl
@[simp] theorem State.setSeq_taken (s : State) (c : Chan) (q : Seq) : (s.setSeq c q).taken = s.taken := rfl
@[simp] theorem State.setSeq_cuts (s : State) (c : Chan) (q : Seq) : (s.setSeq c q).cuts = s.cuts := rfl

/-! ### `State.setSafety` -/

@[simp] theorem State.setSafety_pending (s : State) (c : Chan) (x : ChanSafety) :
    (s.setSafety c x).pending = s.pending := rfl
@[simp] theorem State.setSafety_starting (s : State) (c : Chan) (x : ChanSafety) :
    (s.setSafety c x).starting = s.starting := rfl
@[simp] theorem State.setSafety_mode (s : State) (c : Chan) (x : ChanSafety) : (s.setSafety c x).mode = s.mode := rfl
@[simp] theorem State.setSafety_request (s : State) (c : Chan) (x : ChanSafety) :
    (s.setSafety c x).request = s.request := rfl
@[simp] theorem State.setSafety_parkedPending (s : State) (c : Chan) (x : ChanSafety) :
    (s.setSafety c x).parkedPending = s.parkedPending := rfl
@[simp] theorem State.setSafety_park (s : State) (c : Chan) (x : ChanSafety) : (s.setSafety c x).park = s.park := rfl
@[simp] theorem State.setSafety_rotation (s : State) (c : Chan) (x : ChanSafety) :
    (s.setSafety c x).rotation = s.rotation := rfl
@[simp] theorem State.setSafety_uptime (s : State) (c : Chan) (x : ChanSafety) :
    (s.setSafety c x).uptime = s.uptime := rfl
@[simp] theorem State.setSafety_uptimeLatch (s : State) (c : Chan) (x : ChanSafety) :
    (s.setSafety c x).uptimeLatch = s.uptimeLatch := rfl
@[simp] theorem State.setSafety_mem (s : State) (c : Chan) (x : ChanSafety) : (s.setSafety c x).mem = s.mem := rfl
@[simp] theorem State.setSafety_err (s : State) (c : Chan) (x : ChanSafety) : (s.setSafety c x).err = s.err := rfl
@[simp] theorem State.setSafety_endPending (s : State) (c : Chan) (x : ChanSafety) :
    (s.setSafety c x).endPending = s.endPending := rfl
@[simp] theorem State.setSafety_watch (s : State) (c : Chan) (x : ChanSafety) :
    (s.setSafety c x).watch = s.watch := rfl
@[simp] theorem State.setSafety_sdo (s : State) (c : Chan) (x : ChanSafety) : (s.setSafety c x).sdo = s.sdo := rfl
@[simp] theorem State.setSafety_hold (s : State) (c : Chan) (x : ChanSafety) : (s.setSafety c x).hold = s.hold := rfl
@[simp] theorem State.setSafety_holdExpired (s : State) (c : Chan) (x : ChanSafety) :
    (s.setSafety c x).holdExpired = s.holdExpired := rfl
@[simp] theorem State.setSafety_nodePlan (s : State) (c : Chan) (x : ChanSafety) :
    (s.setSafety c x).nodePlan = s.nodePlan := rfl
@[simp] theorem State.setSafety_links (s : State) (c : Chan) (x : ChanSafety) :
    (s.setSafety c x).links = s.links := rfl
@[simp] theorem State.setSafety_wiring (s : State) (c : Chan) (x : ChanSafety) :
    (s.setSafety c x).wiring = s.wiring := rfl
@[simp] theorem State.setSafety_plans (s : State) (c : Chan) (x : ChanSafety) :
    (s.setSafety c x).plans = s.plans := rfl
@[simp] theorem State.setSafety_yields (s : State) (c : Chan) (x : ChanSafety) :
    (s.setSafety c x).yields = s.yields := rfl
@[simp] theorem State.setSafety_groups (s : State) (c : Chan) (x : ChanSafety) :
    (s.setSafety c x).groups = s.groups := rfl
@[simp] theorem State.setSafety_seqs (s : State) (c : Chan) (x : ChanSafety) : (s.setSafety c x).seqs = s.seqs := rfl
@[simp] theorem State.setSafety_safety (s : State) (c : Chan) (x : ChanSafety) :
    (s.setSafety c x).safety = upd s.safety c x := rfl
@[simp] theorem State.setSafety_lines (s : State) (c : Chan) (x : ChanSafety) :
    (s.setSafety c x).lines = s.lines := rfl
@[simp] theorem State.setSafety_cause (s : State) (c : Chan) (x : ChanSafety) :
    (s.setSafety c x).cause = s.cause := rfl
@[simp] theorem State.setSafety_causeChan (s : State) (c : Chan) (x : ChanSafety) :
    (s.setSafety c x).causeChan = s.causeChan := rfl
@[simp] theorem State.setSafety_failMask (s : State) (c : Chan) (x : ChanSafety) :
    (s.setSafety c x).failMask = s.failMask := rfl
@[simp] theorem State.setSafety_nodes (s : State) (c : Chan) (x : ChanSafety) :
    (s.setSafety c x).nodes = s.nodes := rfl
@[simp] theorem State.setSafety_news (s : State) (c : Chan) (x : ChanSafety) : (s.setSafety c x).news = s.news := rfl
@[simp] theorem State.setSafety_attn (s : State) (c : Chan) (x : ChanSafety) : (s.setSafety c x).attn = s.attn := rfl
@[simp] theorem State.setSafety_slots (s : State) (c : Chan) (x : ChanSafety) :
    (s.setSafety c x).slots = s.slots := rfl
@[simp] theorem State.setSafety_intakeSeq (s : State) (c : Chan) (x : ChanSafety) :
    (s.setSafety c x).intakeSeq = s.intakeSeq := rfl
@[simp] theorem State.setSafety_intake (s : State) (c : Chan) (x : ChanSafety) :
    (s.setSafety c x).intake = s.intake := rfl
@[simp] theorem State.setSafety_triples (s : State) (c : Chan) (x : ChanSafety) :
    (s.setSafety c x).triples = s.triples := rfl
@[simp] theorem State.setSafety_computing (s : State) (c : Chan) (x : ChanSafety) :
    (s.setSafety c x).computing = s.computing := rfl
@[simp] theorem State.setSafety_results (s : State) (c : Chan) (x : ChanSafety) :
    (s.setSafety c x).results = s.results := rfl
@[simp] theorem State.setSafety_taken (s : State) (c : Chan) (x : ChanSafety) :
    (s.setSafety c x).taken = s.taken := rfl
@[simp] theorem State.setSafety_cuts (s : State) (c : Chan) (x : ChanSafety) :
    (s.setSafety c x).cuts = s.cuts := rfl

/-! ### `State.setNode` -/

@[simp] theorem State.setNode_pending (s : State) (n : NodeId) (x : NodeStatus) :
    (s.setNode n x).pending = s.pending := rfl
@[simp] theorem State.setNode_starting (s : State) (n : NodeId) (x : NodeStatus) :
    (s.setNode n x).starting = s.starting := rfl
@[simp] theorem State.setNode_mode (s : State) (n : NodeId) (x : NodeStatus) : (s.setNode n x).mode = s.mode := rfl
@[simp] theorem State.setNode_request (s : State) (n : NodeId) (x : NodeStatus) :
    (s.setNode n x).request = s.request := rfl
@[simp] theorem State.setNode_parkedPending (s : State) (n : NodeId) (x : NodeStatus) :
    (s.setNode n x).parkedPending = s.parkedPending := rfl
@[simp] theorem State.setNode_park (s : State) (n : NodeId) (x : NodeStatus) : (s.setNode n x).park = s.park := rfl
@[simp] theorem State.setNode_rotation (s : State) (n : NodeId) (x : NodeStatus) :
    (s.setNode n x).rotation = s.rotation := rfl
@[simp] theorem State.setNode_uptime (s : State) (n : NodeId) (x : NodeStatus) :
    (s.setNode n x).uptime = s.uptime := rfl
@[simp] theorem State.setNode_uptimeLatch (s : State) (n : NodeId) (x : NodeStatus) :
    (s.setNode n x).uptimeLatch = s.uptimeLatch := rfl
@[simp] theorem State.setNode_mem (s : State) (n : NodeId) (x : NodeStatus) : (s.setNode n x).mem = s.mem := rfl
@[simp] theorem State.setNode_err (s : State) (n : NodeId) (x : NodeStatus) : (s.setNode n x).err = s.err := rfl
@[simp] theorem State.setNode_endPending (s : State) (n : NodeId) (x : NodeStatus) :
    (s.setNode n x).endPending = s.endPending := rfl
@[simp] theorem State.setNode_watch (s : State) (n : NodeId) (x : NodeStatus) : (s.setNode n x).watch = s.watch := rfl
@[simp] theorem State.setNode_sdo (s : State) (n : NodeId) (x : NodeStatus) : (s.setNode n x).sdo = s.sdo := rfl
@[simp] theorem State.setNode_hold (s : State) (n : NodeId) (x : NodeStatus) : (s.setNode n x).hold = s.hold := rfl
@[simp] theorem State.setNode_holdExpired (s : State) (n : NodeId) (x : NodeStatus) :
    (s.setNode n x).holdExpired = s.holdExpired := rfl
@[simp] theorem State.setNode_nodePlan (s : State) (n : NodeId) (x : NodeStatus) :
    (s.setNode n x).nodePlan = s.nodePlan := rfl
@[simp] theorem State.setNode_links (s : State) (n : NodeId) (x : NodeStatus) : (s.setNode n x).links = s.links := rfl
@[simp] theorem State.setNode_wiring (s : State) (n : NodeId) (x : NodeStatus) :
    (s.setNode n x).wiring = s.wiring := rfl
@[simp] theorem State.setNode_plans (s : State) (n : NodeId) (x : NodeStatus) : (s.setNode n x).plans = s.plans := rfl
@[simp] theorem State.setNode_yields (s : State) (n : NodeId) (x : NodeStatus) :
    (s.setNode n x).yields = s.yields := rfl
@[simp] theorem State.setNode_groups (s : State) (n : NodeId) (x : NodeStatus) :
    (s.setNode n x).groups = s.groups := rfl
@[simp] theorem State.setNode_seqs (s : State) (n : NodeId) (x : NodeStatus) : (s.setNode n x).seqs = s.seqs := rfl
@[simp] theorem State.setNode_safety (s : State) (n : NodeId) (x : NodeStatus) :
    (s.setNode n x).safety = s.safety := rfl
@[simp] theorem State.setNode_lines (s : State) (n : NodeId) (x : NodeStatus) : (s.setNode n x).lines = s.lines := rfl
@[simp] theorem State.setNode_cause (s : State) (n : NodeId) (x : NodeStatus) : (s.setNode n x).cause = s.cause := rfl
@[simp] theorem State.setNode_causeChan (s : State) (n : NodeId) (x : NodeStatus) :
    (s.setNode n x).causeChan = s.causeChan := rfl
@[simp] theorem State.setNode_failMask (s : State) (n : NodeId) (x : NodeStatus) :
    (s.setNode n x).failMask = s.failMask := rfl
@[simp] theorem State.setNode_nodes (s : State) (n : NodeId) (x : NodeStatus) :
    (s.setNode n x).nodes = upd s.nodes n x := rfl
@[simp] theorem State.setNode_news (s : State) (n : NodeId) (x : NodeStatus) : (s.setNode n x).news = s.news := rfl
@[simp] theorem State.setNode_attn (s : State) (n : NodeId) (x : NodeStatus) : (s.setNode n x).attn = s.attn := rfl
@[simp] theorem State.setNode_slots (s : State) (n : NodeId) (x : NodeStatus) : (s.setNode n x).slots = s.slots := rfl
@[simp] theorem State.setNode_intakeSeq (s : State) (n : NodeId) (x : NodeStatus) :
    (s.setNode n x).intakeSeq = s.intakeSeq := rfl
@[simp] theorem State.setNode_intake (s : State) (n : NodeId) (x : NodeStatus) :
    (s.setNode n x).intake = s.intake := rfl
@[simp] theorem State.setNode_triples (s : State) (n : NodeId) (x : NodeStatus) :
    (s.setNode n x).triples = s.triples := rfl
@[simp] theorem State.setNode_computing (s : State) (n : NodeId) (x : NodeStatus) :
    (s.setNode n x).computing = s.computing := rfl
@[simp] theorem State.setNode_results (s : State) (n : NodeId) (x : NodeStatus) :
    (s.setNode n x).results = s.results := rfl
@[simp] theorem State.setNode_taken (s : State) (n : NodeId) (x : NodeStatus) :
    (s.setNode n x).taken = s.taken := rfl
@[simp] theorem State.setNode_cuts (s : State) (n : NodeId) (x : NodeStatus) :
    (s.setNode n x).cuts = s.cuts := rfl

/-! ### `State.setGroup` -/

@[simp] theorem State.setGroup_pending (s : State) (l : GroupId) (g : Option Group) :
    (s.setGroup l g).pending = s.pending := rfl
@[simp] theorem State.setGroup_starting (s : State) (l : GroupId) (g : Option Group) :
    (s.setGroup l g).starting = s.starting := rfl
@[simp] theorem State.setGroup_mode (s : State) (l : GroupId) (g : Option Group) :
    (s.setGroup l g).mode = s.mode := rfl
@[simp] theorem State.setGroup_request (s : State) (l : GroupId) (g : Option Group) :
    (s.setGroup l g).request = s.request := rfl
@[simp] theorem State.setGroup_parkedPending (s : State) (l : GroupId) (g : Option Group) :
    (s.setGroup l g).parkedPending = s.parkedPending := rfl
@[simp] theorem State.setGroup_park (s : State) (l : GroupId) (g : Option Group) :
    (s.setGroup l g).park = s.park := rfl
@[simp] theorem State.setGroup_rotation (s : State) (l : GroupId) (g : Option Group) :
    (s.setGroup l g).rotation = s.rotation := rfl
@[simp] theorem State.setGroup_uptime (s : State) (l : GroupId) (g : Option Group) :
    (s.setGroup l g).uptime = s.uptime := rfl
@[simp] theorem State.setGroup_uptimeLatch (s : State) (l : GroupId) (g : Option Group) :
    (s.setGroup l g).uptimeLatch = s.uptimeLatch := rfl
@[simp] theorem State.setGroup_mem (s : State) (l : GroupId) (g : Option Group) : (s.setGroup l g).mem = s.mem := rfl
@[simp] theorem State.setGroup_err (s : State) (l : GroupId) (g : Option Group) : (s.setGroup l g).err = s.err := rfl
@[simp] theorem State.setGroup_endPending (s : State) (l : GroupId) (g : Option Group) :
    (s.setGroup l g).endPending = s.endPending := rfl
@[simp] theorem State.setGroup_watch (s : State) (l : GroupId) (g : Option Group) :
    (s.setGroup l g).watch = s.watch := rfl
@[simp] theorem State.setGroup_sdo (s : State) (l : GroupId) (g : Option Group) : (s.setGroup l g).sdo = s.sdo := rfl
@[simp] theorem State.setGroup_hold (s : State) (l : GroupId) (g : Option Group) :
    (s.setGroup l g).hold = s.hold := rfl
@[simp] theorem State.setGroup_holdExpired (s : State) (l : GroupId) (g : Option Group) :
    (s.setGroup l g).holdExpired = s.holdExpired := rfl
@[simp] theorem State.setGroup_nodePlan (s : State) (l : GroupId) (g : Option Group) :
    (s.setGroup l g).nodePlan = s.nodePlan := rfl
@[simp] theorem State.setGroup_links (s : State) (l : GroupId) (g : Option Group) :
    (s.setGroup l g).links = s.links := rfl
@[simp] theorem State.setGroup_wiring (s : State) (l : GroupId) (g : Option Group) :
    (s.setGroup l g).wiring = s.wiring := rfl
@[simp] theorem State.setGroup_plans (s : State) (l : GroupId) (g : Option Group) :
    (s.setGroup l g).plans = s.plans := rfl
@[simp] theorem State.setGroup_yields (s : State) (l : GroupId) (g : Option Group) :
    (s.setGroup l g).yields = s.yields := rfl
@[simp] theorem State.setGroup_groups (s : State) (l : GroupId) (g : Option Group) :
    (s.setGroup l g).groups = upd s.groups l g := rfl
@[simp] theorem State.setGroup_seqs (s : State) (l : GroupId) (g : Option Group) :
    (s.setGroup l g).seqs = s.seqs := rfl
@[simp] theorem State.setGroup_safety (s : State) (l : GroupId) (g : Option Group) :
    (s.setGroup l g).safety = s.safety := rfl
@[simp] theorem State.setGroup_lines (s : State) (l : GroupId) (g : Option Group) :
    (s.setGroup l g).lines = s.lines := rfl
@[simp] theorem State.setGroup_cause (s : State) (l : GroupId) (g : Option Group) :
    (s.setGroup l g).cause = s.cause := rfl
@[simp] theorem State.setGroup_causeChan (s : State) (l : GroupId) (g : Option Group) :
    (s.setGroup l g).causeChan = s.causeChan := rfl
@[simp] theorem State.setGroup_failMask (s : State) (l : GroupId) (g : Option Group) :
    (s.setGroup l g).failMask = s.failMask := rfl
@[simp] theorem State.setGroup_nodes (s : State) (l : GroupId) (g : Option Group) :
    (s.setGroup l g).nodes = s.nodes := rfl
@[simp] theorem State.setGroup_news (s : State) (l : GroupId) (g : Option Group) :
    (s.setGroup l g).news = s.news := rfl
@[simp] theorem State.setGroup_attn (s : State) (l : GroupId) (g : Option Group) :
    (s.setGroup l g).attn = s.attn := rfl
@[simp] theorem State.setGroup_slots (s : State) (l : GroupId) (g : Option Group) :
    (s.setGroup l g).slots = s.slots := rfl
@[simp] theorem State.setGroup_intakeSeq (s : State) (l : GroupId) (g : Option Group) :
    (s.setGroup l g).intakeSeq = s.intakeSeq := rfl
@[simp] theorem State.setGroup_intake (s : State) (l : GroupId) (g : Option Group) :
    (s.setGroup l g).intake = s.intake := rfl
@[simp] theorem State.setGroup_triples (s : State) (l : GroupId) (g : Option Group) :
    (s.setGroup l g).triples = s.triples := rfl
@[simp] theorem State.setGroup_computing (s : State) (l : GroupId) (g : Option Group) :
    (s.setGroup l g).computing = s.computing := rfl
@[simp] theorem State.setGroup_results (s : State) (l : GroupId) (g : Option Group) :
    (s.setGroup l g).results = s.results := rfl
@[simp] theorem State.setGroup_taken (s : State) (l : GroupId) (g : Option Group) :
    (s.setGroup l g).taken = s.taken := rfl
@[simp] theorem State.setGroup_cuts (s : State) (l : GroupId) (g : Option Group) :
    (s.setGroup l g).cuts = s.cuts := rfl

/-! ### `State.setSlot` -/

@[simp] theorem State.setSlot_pending (s : State) (n : SlotId) (x : SlotState) :
    (s.setSlot n x).pending = s.pending := rfl
@[simp] theorem State.setSlot_starting (s : State) (n : SlotId) (x : SlotState) :
    (s.setSlot n x).starting = s.starting := rfl
@[simp] theorem State.setSlot_mode (s : State) (n : SlotId) (x : SlotState) : (s.setSlot n x).mode = s.mode := rfl
@[simp] theorem State.setSlot_request (s : State) (n : SlotId) (x : SlotState) :
    (s.setSlot n x).request = s.request := rfl
@[simp] theorem State.setSlot_parkedPending (s : State) (n : SlotId) (x : SlotState) :
    (s.setSlot n x).parkedPending = s.parkedPending := rfl
@[simp] theorem State.setSlot_park (s : State) (n : SlotId) (x : SlotState) : (s.setSlot n x).park = s.park := rfl
@[simp] theorem State.setSlot_rotation (s : State) (n : SlotId) (x : SlotState) :
    (s.setSlot n x).rotation = s.rotation := rfl
@[simp] theorem State.setSlot_uptime (s : State) (n : SlotId) (x : SlotState) :
    (s.setSlot n x).uptime = s.uptime := rfl
@[simp] theorem State.setSlot_uptimeLatch (s : State) (n : SlotId) (x : SlotState) :
    (s.setSlot n x).uptimeLatch = s.uptimeLatch := rfl
@[simp] theorem State.setSlot_mem (s : State) (n : SlotId) (x : SlotState) : (s.setSlot n x).mem = s.mem := rfl
@[simp] theorem State.setSlot_err (s : State) (n : SlotId) (x : SlotState) : (s.setSlot n x).err = s.err := rfl
@[simp] theorem State.setSlot_endPending (s : State) (n : SlotId) (x : SlotState) :
    (s.setSlot n x).endPending = s.endPending := rfl
@[simp] theorem State.setSlot_watch (s : State) (n : SlotId) (x : SlotState) : (s.setSlot n x).watch = s.watch := rfl
@[simp] theorem State.setSlot_sdo (s : State) (n : SlotId) (x : SlotState) : (s.setSlot n x).sdo = s.sdo := rfl
@[simp] theorem State.setSlot_hold (s : State) (n : SlotId) (x : SlotState) : (s.setSlot n x).hold = s.hold := rfl
@[simp] theorem State.setSlot_holdExpired (s : State) (n : SlotId) (x : SlotState) :
    (s.setSlot n x).holdExpired = s.holdExpired := rfl
@[simp] theorem State.setSlot_nodePlan (s : State) (n : SlotId) (x : SlotState) :
    (s.setSlot n x).nodePlan = s.nodePlan := rfl
@[simp] theorem State.setSlot_links (s : State) (n : SlotId) (x : SlotState) : (s.setSlot n x).links = s.links := rfl
@[simp] theorem State.setSlot_wiring (s : State) (n : SlotId) (x : SlotState) :
    (s.setSlot n x).wiring = s.wiring := rfl
@[simp] theorem State.setSlot_plans (s : State) (n : SlotId) (x : SlotState) : (s.setSlot n x).plans = s.plans := rfl
@[simp] theorem State.setSlot_yields (s : State) (n : SlotId) (x : SlotState) :
    (s.setSlot n x).yields = s.yields := rfl
@[simp] theorem State.setSlot_groups (s : State) (n : SlotId) (x : SlotState) :
    (s.setSlot n x).groups = s.groups := rfl
@[simp] theorem State.setSlot_seqs (s : State) (n : SlotId) (x : SlotState) : (s.setSlot n x).seqs = s.seqs := rfl
@[simp] theorem State.setSlot_safety (s : State) (n : SlotId) (x : SlotState) :
    (s.setSlot n x).safety = s.safety := rfl
@[simp] theorem State.setSlot_lines (s : State) (n : SlotId) (x : SlotState) : (s.setSlot n x).lines = s.lines := rfl
@[simp] theorem State.setSlot_cause (s : State) (n : SlotId) (x : SlotState) : (s.setSlot n x).cause = s.cause := rfl
@[simp] theorem State.setSlot_causeChan (s : State) (n : SlotId) (x : SlotState) :
    (s.setSlot n x).causeChan = s.causeChan := rfl
@[simp] theorem State.setSlot_failMask (s : State) (n : SlotId) (x : SlotState) :
    (s.setSlot n x).failMask = s.failMask := rfl
@[simp] theorem State.setSlot_nodes (s : State) (n : SlotId) (x : SlotState) : (s.setSlot n x).nodes = s.nodes := rfl
@[simp] theorem State.setSlot_news (s : State) (n : SlotId) (x : SlotState) : (s.setSlot n x).news = s.news := rfl
@[simp] theorem State.setSlot_attn (s : State) (n : SlotId) (x : SlotState) : (s.setSlot n x).attn = s.attn := rfl
@[simp] theorem State.setSlot_slots (s : State) (n : SlotId) (x : SlotState) :
    (s.setSlot n x).slots = upd s.slots n x := rfl
@[simp] theorem State.setSlot_intakeSeq (s : State) (n : SlotId) (x : SlotState) :
    (s.setSlot n x).intakeSeq = s.intakeSeq := rfl
@[simp] theorem State.setSlot_intake (s : State) (n : SlotId) (x : SlotState) :
    (s.setSlot n x).intake = s.intake := rfl
@[simp] theorem State.setSlot_triples (s : State) (n : SlotId) (x : SlotState) :
    (s.setSlot n x).triples = s.triples := rfl
@[simp] theorem State.setSlot_computing (s : State) (n : SlotId) (x : SlotState) :
    (s.setSlot n x).computing = s.computing := rfl
@[simp] theorem State.setSlot_results (s : State) (n : SlotId) (x : SlotState) :
    (s.setSlot n x).results = s.results := rfl
@[simp] theorem State.setSlot_taken (s : State) (n : SlotId) (x : SlotState) :
    (s.setSlot n x).taken = s.taken := rfl
@[simp] theorem State.setSlot_cuts (s : State) (n : SlotId) (x : SlotState) :
    (s.setSlot n x).cuts = s.cuts := rfl

/-! ### `State.poke` -/

@[simp] theorem State.poke_pending (s : State) (a : Nat) (b : Byte) : (s.poke a b).pending = s.pending := rfl
@[simp] theorem State.poke_starting (s : State) (a : Nat) (b : Byte) : (s.poke a b).starting = s.starting := rfl
@[simp] theorem State.poke_mode (s : State) (a : Nat) (b : Byte) : (s.poke a b).mode = s.mode := rfl
@[simp] theorem State.poke_request (s : State) (a : Nat) (b : Byte) : (s.poke a b).request = s.request := rfl
@[simp] theorem State.poke_parkedPending (s : State) (a : Nat) (b : Byte) :
    (s.poke a b).parkedPending = s.parkedPending := rfl
@[simp] theorem State.poke_park (s : State) (a : Nat) (b : Byte) : (s.poke a b).park = s.park := rfl
@[simp] theorem State.poke_rotation (s : State) (a : Nat) (b : Byte) : (s.poke a b).rotation = s.rotation := rfl
@[simp] theorem State.poke_uptime (s : State) (a : Nat) (b : Byte) : (s.poke a b).uptime = s.uptime := rfl
@[simp] theorem State.poke_uptimeLatch (s : State) (a : Nat) (b : Byte) :
    (s.poke a b).uptimeLatch = s.uptimeLatch := rfl
@[simp] theorem State.poke_mem (s : State) (a : Nat) (b : Byte) : (s.poke a b).mem = s.mem.write a b := rfl
@[simp] theorem State.poke_err (s : State) (a : Nat) (b : Byte) : (s.poke a b).err = s.err := rfl
@[simp] theorem State.poke_endPending (s : State) (a : Nat) (b : Byte) : (s.poke a b).endPending = s.endPending := rfl
@[simp] theorem State.poke_watch (s : State) (a : Nat) (b : Byte) : (s.poke a b).watch = s.watch := rfl
@[simp] theorem State.poke_sdo (s : State) (a : Nat) (b : Byte) : (s.poke a b).sdo = s.sdo := rfl
@[simp] theorem State.poke_hold (s : State) (a : Nat) (b : Byte) : (s.poke a b).hold = s.hold := rfl
@[simp] theorem State.poke_holdExpired (s : State) (a : Nat) (b : Byte) :
    (s.poke a b).holdExpired = s.holdExpired := rfl
@[simp] theorem State.poke_nodePlan (s : State) (a : Nat) (b : Byte) : (s.poke a b).nodePlan = s.nodePlan := rfl
@[simp] theorem State.poke_links (s : State) (a : Nat) (b : Byte) : (s.poke a b).links = s.links := rfl
@[simp] theorem State.poke_wiring (s : State) (a : Nat) (b : Byte) : (s.poke a b).wiring = s.wiring := rfl
@[simp] theorem State.poke_plans (s : State) (a : Nat) (b : Byte) : (s.poke a b).plans = s.plans := rfl
@[simp] theorem State.poke_yields (s : State) (a : Nat) (b : Byte) : (s.poke a b).yields = s.yields := rfl
@[simp] theorem State.poke_groups (s : State) (a : Nat) (b : Byte) : (s.poke a b).groups = s.groups := rfl
@[simp] theorem State.poke_seqs (s : State) (a : Nat) (b : Byte) : (s.poke a b).seqs = s.seqs := rfl
@[simp] theorem State.poke_safety (s : State) (a : Nat) (b : Byte) : (s.poke a b).safety = s.safety := rfl
@[simp] theorem State.poke_lines (s : State) (a : Nat) (b : Byte) : (s.poke a b).lines = s.lines := rfl
@[simp] theorem State.poke_cause (s : State) (a : Nat) (b : Byte) : (s.poke a b).cause = s.cause := rfl
@[simp] theorem State.poke_causeChan (s : State) (a : Nat) (b : Byte) : (s.poke a b).causeChan = s.causeChan := rfl
@[simp] theorem State.poke_failMask (s : State) (a : Nat) (b : Byte) : (s.poke a b).failMask = s.failMask := rfl
@[simp] theorem State.poke_nodes (s : State) (a : Nat) (b : Byte) : (s.poke a b).nodes = s.nodes := rfl
@[simp] theorem State.poke_news (s : State) (a : Nat) (b : Byte) : (s.poke a b).news = s.news := rfl
@[simp] theorem State.poke_attn (s : State) (a : Nat) (b : Byte) : (s.poke a b).attn = s.attn := rfl
@[simp] theorem State.poke_slots (s : State) (a : Nat) (b : Byte) : (s.poke a b).slots = s.slots := rfl
@[simp] theorem State.poke_intakeSeq (s : State) (a : Nat) (b : Byte) : (s.poke a b).intakeSeq = s.intakeSeq := rfl
@[simp] theorem State.poke_intake (s : State) (a : Nat) (b : Byte) : (s.poke a b).intake = s.intake := rfl
@[simp] theorem State.poke_triples (s : State) (a : Nat) (b : Byte) : (s.poke a b).triples = s.triples := rfl
@[simp] theorem State.poke_computing (s : State) (a : Nat) (b : Byte) : (s.poke a b).computing = s.computing := rfl
@[simp] theorem State.poke_results (s : State) (a : Nat) (b : Byte) : (s.poke a b).results = s.results := rfl
@[simp] theorem State.poke_taken (s : State) (a : Nat) (b : Byte) : (s.poke a b).taken = s.taken := rfl
@[simp] theorem State.poke_cuts (s : State) (a : Nat) (b : Byte) : (s.poke a b).cuts = s.cuts := rfl

/-! ### `State.pokes` -/

@[simp] theorem State.pokes_pending (s : State) (a : Nat) (bs : List Byte) : (s.pokes a bs).pending = s.pending := rfl
@[simp] theorem State.pokes_starting (s : State) (a : Nat) (bs : List Byte) :
    (s.pokes a bs).starting = s.starting := rfl
@[simp] theorem State.pokes_mode (s : State) (a : Nat) (bs : List Byte) : (s.pokes a bs).mode = s.mode := rfl
@[simp] theorem State.pokes_request (s : State) (a : Nat) (bs : List Byte) : (s.pokes a bs).request = s.request := rfl
@[simp] theorem State.pokes_parkedPending (s : State) (a : Nat) (bs : List Byte) :
    (s.pokes a bs).parkedPending = s.parkedPending := rfl
@[simp] theorem State.pokes_park (s : State) (a : Nat) (bs : List Byte) : (s.pokes a bs).park = s.park := rfl
@[simp] theorem State.pokes_rotation (s : State) (a : Nat) (bs : List Byte) :
    (s.pokes a bs).rotation = s.rotation := rfl
@[simp] theorem State.pokes_uptime (s : State) (a : Nat) (bs : List Byte) : (s.pokes a bs).uptime = s.uptime := rfl
@[simp] theorem State.pokes_uptimeLatch (s : State) (a : Nat) (bs : List Byte) :
    (s.pokes a bs).uptimeLatch = s.uptimeLatch := rfl
@[simp] theorem State.pokes_mem (s : State) (a : Nat) (bs : List Byte) :
    (s.pokes a bs).mem = s.mem.writeBytes a bs := rfl
@[simp] theorem State.pokes_err (s : State) (a : Nat) (bs : List Byte) : (s.pokes a bs).err = s.err := rfl
@[simp] theorem State.pokes_endPending (s : State) (a : Nat) (bs : List Byte) :
    (s.pokes a bs).endPending = s.endPending := rfl
@[simp] theorem State.pokes_watch (s : State) (a : Nat) (bs : List Byte) : (s.pokes a bs).watch = s.watch := rfl
@[simp] theorem State.pokes_sdo (s : State) (a : Nat) (bs : List Byte) : (s.pokes a bs).sdo = s.sdo := rfl
@[simp] theorem State.pokes_hold (s : State) (a : Nat) (bs : List Byte) : (s.pokes a bs).hold = s.hold := rfl
@[simp] theorem State.pokes_holdExpired (s : State) (a : Nat) (bs : List Byte) :
    (s.pokes a bs).holdExpired = s.holdExpired := rfl
@[simp] theorem State.pokes_nodePlan (s : State) (a : Nat) (bs : List Byte) :
    (s.pokes a bs).nodePlan = s.nodePlan := rfl
@[simp] theorem State.pokes_links (s : State) (a : Nat) (bs : List Byte) : (s.pokes a bs).links = s.links := rfl
@[simp] theorem State.pokes_wiring (s : State) (a : Nat) (bs : List Byte) : (s.pokes a bs).wiring = s.wiring := rfl
@[simp] theorem State.pokes_plans (s : State) (a : Nat) (bs : List Byte) : (s.pokes a bs).plans = s.plans := rfl
@[simp] theorem State.pokes_yields (s : State) (a : Nat) (bs : List Byte) : (s.pokes a bs).yields = s.yields := rfl
@[simp] theorem State.pokes_groups (s : State) (a : Nat) (bs : List Byte) : (s.pokes a bs).groups = s.groups := rfl
@[simp] theorem State.pokes_seqs (s : State) (a : Nat) (bs : List Byte) : (s.pokes a bs).seqs = s.seqs := rfl
@[simp] theorem State.pokes_safety (s : State) (a : Nat) (bs : List Byte) : (s.pokes a bs).safety = s.safety := rfl
@[simp] theorem State.pokes_lines (s : State) (a : Nat) (bs : List Byte) : (s.pokes a bs).lines = s.lines := rfl
@[simp] theorem State.pokes_cause (s : State) (a : Nat) (bs : List Byte) : (s.pokes a bs).cause = s.cause := rfl
@[simp] theorem State.pokes_causeChan (s : State) (a : Nat) (bs : List Byte) :
    (s.pokes a bs).causeChan = s.causeChan := rfl
@[simp] theorem State.pokes_failMask (s : State) (a : Nat) (bs : List Byte) :
    (s.pokes a bs).failMask = s.failMask := rfl
@[simp] theorem State.pokes_nodes (s : State) (a : Nat) (bs : List Byte) : (s.pokes a bs).nodes = s.nodes := rfl
@[simp] theorem State.pokes_news (s : State) (a : Nat) (bs : List Byte) : (s.pokes a bs).news = s.news := rfl
@[simp] theorem State.pokes_attn (s : State) (a : Nat) (bs : List Byte) : (s.pokes a bs).attn = s.attn := rfl
@[simp] theorem State.pokes_slots (s : State) (a : Nat) (bs : List Byte) : (s.pokes a bs).slots = s.slots := rfl
@[simp] theorem State.pokes_intakeSeq (s : State) (a : Nat) (bs : List Byte) :
    (s.pokes a bs).intakeSeq = s.intakeSeq := rfl
@[simp] theorem State.pokes_intake (s : State) (a : Nat) (bs : List Byte) : (s.pokes a bs).intake = s.intake := rfl
@[simp] theorem State.pokes_triples (s : State) (a : Nat) (bs : List Byte) : (s.pokes a bs).triples = s.triples := rfl
@[simp] theorem State.pokes_computing (s : State) (a : Nat) (bs : List Byte) :
    (s.pokes a bs).computing = s.computing := rfl
@[simp] theorem State.pokes_results (s : State) (a : Nat) (bs : List Byte) : (s.pokes a bs).results = s.results := rfl
@[simp] theorem State.pokes_taken (s : State) (a : Nat) (bs : List Byte) : (s.pokes a bs).taken = s.taken := rfl
@[simp] theorem State.pokes_cuts (s : State) (a : Nat) (bs : List Byte) : (s.pokes a bs).cuts = s.cuts := rfl

/-! ### `State.raise` -/

@[simp] theorem State.raise_pending (s : State) (n : Nat) : (s.raise n).pending = s.pending := rfl
@[simp] theorem State.raise_starting (s : State) (n : Nat) : (s.raise n).starting = s.starting := rfl
@[simp] theorem State.raise_mode (s : State) (n : Nat) : (s.raise n).mode = s.mode := rfl
@[simp] theorem State.raise_request (s : State) (n : Nat) : (s.raise n).request = s.request := rfl
@[simp] theorem State.raise_parkedPending (s : State) (n : Nat) : (s.raise n).parkedPending = s.parkedPending := rfl
@[simp] theorem State.raise_park (s : State) (n : Nat) : (s.raise n).park = s.park := rfl
@[simp] theorem State.raise_rotation (s : State) (n : Nat) : (s.raise n).rotation = s.rotation := rfl
@[simp] theorem State.raise_uptime (s : State) (n : Nat) : (s.raise n).uptime = s.uptime := rfl
@[simp] theorem State.raise_uptimeLatch (s : State) (n : Nat) : (s.raise n).uptimeLatch = s.uptimeLatch := rfl
@[simp] theorem State.raise_mem (s : State) (n : Nat) : (s.raise n).mem = s.mem := rfl
@[simp] theorem State.raise_err (s : State) (n : Nat) : (s.raise n).err = s.err := rfl
@[simp] theorem State.raise_endPending (s : State) (n : Nat) : (s.raise n).endPending = s.endPending := rfl
@[simp] theorem State.raise_watch (s : State) (n : Nat) : (s.raise n).watch = s.watch := rfl
@[simp] theorem State.raise_sdo (s : State) (n : Nat) : (s.raise n).sdo = s.sdo := rfl
@[simp] theorem State.raise_hold (s : State) (n : Nat) : (s.raise n).hold = s.hold := rfl
@[simp] theorem State.raise_holdExpired (s : State) (n : Nat) : (s.raise n).holdExpired = s.holdExpired := rfl
@[simp] theorem State.raise_nodePlan (s : State) (n : Nat) : (s.raise n).nodePlan = s.nodePlan := rfl
@[simp] theorem State.raise_links (s : State) (n : Nat) : (s.raise n).links = s.links := rfl
@[simp] theorem State.raise_wiring (s : State) (n : Nat) : (s.raise n).wiring = s.wiring := rfl
@[simp] theorem State.raise_plans (s : State) (n : Nat) : (s.raise n).plans = s.plans := rfl
@[simp] theorem State.raise_yields (s : State) (n : Nat) : (s.raise n).yields = s.yields := rfl
@[simp] theorem State.raise_groups (s : State) (n : Nat) : (s.raise n).groups = s.groups := rfl
@[simp] theorem State.raise_seqs (s : State) (n : Nat) : (s.raise n).seqs = s.seqs := rfl
@[simp] theorem State.raise_safety (s : State) (n : Nat) : (s.raise n).safety = s.safety := rfl
@[simp] theorem State.raise_lines (s : State) (n : Nat) : (s.raise n).lines = s.lines := rfl
@[simp] theorem State.raise_cause (s : State) (n : Nat) : (s.raise n).cause = s.cause := rfl
@[simp] theorem State.raise_causeChan (s : State) (n : Nat) : (s.raise n).causeChan = s.causeChan := rfl
@[simp] theorem State.raise_failMask (s : State) (n : Nat) : (s.raise n).failMask = s.failMask := rfl
@[simp] theorem State.raise_nodes (s : State) (n : Nat) : (s.raise n).nodes = s.nodes := rfl
@[simp] theorem State.raise_news (s : State) (n : Nat) : (s.raise n).news = s.news := rfl
@[simp] theorem State.raise_attn (s : State) (n : Nat) : (s.raise n).attn = s.attn.raise n := rfl
@[simp] theorem State.raise_slots (s : State) (n : Nat) : (s.raise n).slots = s.slots := rfl
@[simp] theorem State.raise_intakeSeq (s : State) (n : Nat) : (s.raise n).intakeSeq = s.intakeSeq := rfl
@[simp] theorem State.raise_intake (s : State) (n : Nat) : (s.raise n).intake = s.intake := rfl
@[simp] theorem State.raise_triples (s : State) (n : Nat) : (s.raise n).triples = s.triples := rfl
@[simp] theorem State.raise_computing (s : State) (n : Nat) : (s.raise n).computing = s.computing := rfl
@[simp] theorem State.raise_results (s : State) (n : Nat) : (s.raise n).results = s.results := rfl
@[simp] theorem State.raise_taken (s : State) (n : Nat) : (s.raise n).taken = s.taken := rfl
@[simp] theorem State.raise_cuts (s : State) (n : Nat) : (s.raise n).cuts = s.cuts := rfl

/-! ### `State.updateFault` -/

@[simp] theorem State.updateFault_pending (s : State) : s.updateFault.pending = s.pending := rfl
@[simp] theorem State.updateFault_starting (s : State) : s.updateFault.starting = s.starting := rfl
@[simp] theorem State.updateFault_mode (s : State) : s.updateFault.mode = s.mode := rfl
@[simp] theorem State.updateFault_request (s : State) : s.updateFault.request = s.request := rfl
@[simp] theorem State.updateFault_parkedPending (s : State) : s.updateFault.parkedPending = s.parkedPending := rfl
@[simp] theorem State.updateFault_park (s : State) : s.updateFault.park = s.park := rfl
@[simp] theorem State.updateFault_rotation (s : State) : s.updateFault.rotation = s.rotation := rfl
@[simp] theorem State.updateFault_uptime (s : State) : s.updateFault.uptime = s.uptime := rfl
@[simp] theorem State.updateFault_uptimeLatch (s : State) : s.updateFault.uptimeLatch = s.uptimeLatch := rfl
@[simp] theorem State.updateFault_mem (s : State) : s.updateFault.mem = s.mem := rfl
@[simp] theorem State.updateFault_err (s : State) : s.updateFault.err = s.err := rfl
@[simp] theorem State.updateFault_endPending (s : State) : s.updateFault.endPending = s.endPending := rfl
@[simp] theorem State.updateFault_watch (s : State) : s.updateFault.watch = s.watch := rfl
@[simp] theorem State.updateFault_sdo (s : State) : s.updateFault.sdo = s.sdo := rfl
@[simp] theorem State.updateFault_hold (s : State) : s.updateFault.hold = s.hold := rfl
@[simp] theorem State.updateFault_holdExpired (s : State) : s.updateFault.holdExpired = s.holdExpired := rfl
@[simp] theorem State.updateFault_nodePlan (s : State) : s.updateFault.nodePlan = s.nodePlan := rfl
@[simp] theorem State.updateFault_links (s : State) : s.updateFault.links = s.links := rfl
@[simp] theorem State.updateFault_wiring (s : State) : s.updateFault.wiring = s.wiring := rfl
@[simp] theorem State.updateFault_plans (s : State) : s.updateFault.plans = s.plans := rfl
@[simp] theorem State.updateFault_yields (s : State) : s.updateFault.yields = s.yields := rfl
@[simp] theorem State.updateFault_groups (s : State) : s.updateFault.groups = s.groups := rfl
@[simp] theorem State.updateFault_seqs (s : State) : s.updateFault.seqs = s.seqs := rfl
@[simp] theorem State.updateFault_safety (s : State) : s.updateFault.safety = s.safety := rfl
@[simp] theorem State.updateFault_lines (s : State) : s.updateFault.lines = s.lines := rfl
@[simp] theorem State.updateFault_cause (s : State) : s.updateFault.cause = s.cause := rfl
@[simp] theorem State.updateFault_causeChan (s : State) : s.updateFault.causeChan = s.causeChan := rfl
@[simp] theorem State.updateFault_failMask (s : State) : s.updateFault.failMask = s.failMask := rfl
@[simp] theorem State.updateFault_nodes (s : State) : s.updateFault.nodes = s.nodes := rfl
@[simp] theorem State.updateFault_news (s : State) : s.updateFault.news = s.news := rfl
@[simp] theorem State.updateFault_attn (s : State) : s.updateFault.attn = s.attn.setFault (anyFault s.nodes) := rfl
@[simp] theorem State.updateFault_slots (s : State) : s.updateFault.slots = s.slots := rfl
@[simp] theorem State.updateFault_intakeSeq (s : State) : s.updateFault.intakeSeq = s.intakeSeq := rfl
@[simp] theorem State.updateFault_intake (s : State) : s.updateFault.intake = s.intake := rfl
@[simp] theorem State.updateFault_triples (s : State) : s.updateFault.triples = s.triples := rfl
@[simp] theorem State.updateFault_computing (s : State) : s.updateFault.computing = s.computing := rfl
@[simp] theorem State.updateFault_results (s : State) : s.updateFault.results = s.results := rfl
@[simp] theorem State.updateFault_taken (s : State) : s.updateFault.taken = s.taken := rfl
@[simp] theorem State.updateFault_cuts (s : State) : s.updateFault.cuts = s.cuts := rfl

/-! ### `State.setErr` -/

@[simp] theorem State.setErr_pending (s : State) : s.setErr.pending = s.pending := rfl
@[simp] theorem State.setErr_starting (s : State) : s.setErr.starting = s.starting := rfl
@[simp] theorem State.setErr_mode (s : State) : s.setErr.mode = s.mode := rfl
@[simp] theorem State.setErr_request (s : State) : s.setErr.request = s.request := rfl
@[simp] theorem State.setErr_parkedPending (s : State) : s.setErr.parkedPending = s.parkedPending := rfl
@[simp] theorem State.setErr_park (s : State) : s.setErr.park = s.park := rfl
@[simp] theorem State.setErr_rotation (s : State) : s.setErr.rotation = s.rotation := rfl
@[simp] theorem State.setErr_uptime (s : State) : s.setErr.uptime = s.uptime := rfl
@[simp] theorem State.setErr_uptimeLatch (s : State) : s.setErr.uptimeLatch = s.uptimeLatch := rfl
@[simp] theorem State.setErr_mem (s : State) : s.setErr.mem = s.mem := rfl
@[simp] theorem State.setErr_err (s : State) : s.setErr.err = true := rfl
@[simp] theorem State.setErr_endPending (s : State) : s.setErr.endPending = s.endPending := rfl
@[simp] theorem State.setErr_watch (s : State) : s.setErr.watch = s.watch := rfl
@[simp] theorem State.setErr_sdo (s : State) : s.setErr.sdo = s.sdo := rfl
@[simp] theorem State.setErr_hold (s : State) : s.setErr.hold = s.hold := rfl
@[simp] theorem State.setErr_holdExpired (s : State) : s.setErr.holdExpired = s.holdExpired := rfl
@[simp] theorem State.setErr_nodePlan (s : State) : s.setErr.nodePlan = s.nodePlan := rfl
@[simp] theorem State.setErr_links (s : State) : s.setErr.links = s.links := rfl
@[simp] theorem State.setErr_wiring (s : State) : s.setErr.wiring = s.wiring := rfl
@[simp] theorem State.setErr_plans (s : State) : s.setErr.plans = s.plans := rfl
@[simp] theorem State.setErr_yields (s : State) : s.setErr.yields = s.yields := rfl
@[simp] theorem State.setErr_groups (s : State) : s.setErr.groups = s.groups := rfl
@[simp] theorem State.setErr_seqs (s : State) : s.setErr.seqs = s.seqs := rfl
@[simp] theorem State.setErr_safety (s : State) : s.setErr.safety = s.safety := rfl
@[simp] theorem State.setErr_lines (s : State) : s.setErr.lines = s.lines := rfl
@[simp] theorem State.setErr_cause (s : State) : s.setErr.cause = s.cause := rfl
@[simp] theorem State.setErr_causeChan (s : State) : s.setErr.causeChan = s.causeChan := rfl
@[simp] theorem State.setErr_failMask (s : State) : s.setErr.failMask = s.failMask := rfl
@[simp] theorem State.setErr_nodes (s : State) : s.setErr.nodes = s.nodes := rfl
@[simp] theorem State.setErr_news (s : State) : s.setErr.news = s.news := rfl
@[simp] theorem State.setErr_attn (s : State) : s.setErr.attn = s.attn := rfl
@[simp] theorem State.setErr_slots (s : State) : s.setErr.slots = s.slots := rfl
@[simp] theorem State.setErr_intakeSeq (s : State) : s.setErr.intakeSeq = s.intakeSeq := rfl
@[simp] theorem State.setErr_intake (s : State) : s.setErr.intake = s.intake := rfl
@[simp] theorem State.setErr_triples (s : State) : s.setErr.triples = s.triples := rfl
@[simp] theorem State.setErr_computing (s : State) : s.setErr.computing = s.computing := rfl
@[simp] theorem State.setErr_results (s : State) : s.setErr.results = s.results := rfl
@[simp] theorem State.setErr_taken (s : State) : s.setErr.taken = s.taken := rfl
@[simp] theorem State.setErr_cuts (s : State) : s.setErr.cuts = s.cuts := rfl

/-! ### `State.shift` -/

@[simp] theorem State.shift_pending (s : State) (b : Byte) : (s.shift b).pending = s.pending := rfl
@[simp] theorem State.shift_starting (s : State) (b : Byte) : (s.shift b).starting = s.starting := rfl
@[simp] theorem State.shift_mode (s : State) (b : Byte) : (s.shift b).mode = s.mode := rfl
@[simp] theorem State.shift_request (s : State) (b : Byte) : (s.shift b).request = s.request := rfl
@[simp] theorem State.shift_parkedPending (s : State) (b : Byte) : (s.shift b).parkedPending = s.parkedPending := rfl
@[simp] theorem State.shift_park (s : State) (b : Byte) : (s.shift b).park = s.park := rfl
@[simp] theorem State.shift_rotation (s : State) (b : Byte) : (s.shift b).rotation = s.rotation := rfl
@[simp] theorem State.shift_uptime (s : State) (b : Byte) : (s.shift b).uptime = s.uptime := rfl
@[simp] theorem State.shift_uptimeLatch (s : State) (b : Byte) : (s.shift b).uptimeLatch = s.uptimeLatch := rfl
@[simp] theorem State.shift_mem (s : State) (b : Byte) : (s.shift b).mem = s.mem := rfl
@[simp] theorem State.shift_err (s : State) (b : Byte) : (s.shift b).err = s.err := rfl
@[simp] theorem State.shift_endPending (s : State) (b : Byte) : (s.shift b).endPending = s.endPending := rfl
@[simp] theorem State.shift_watch (s : State) (b : Byte) : (s.shift b).watch = s.watch := rfl
@[simp] theorem State.shift_sdo (s : State) (b : Byte) : (s.shift b).sdo = s.sdo ++ [b] := rfl
@[simp] theorem State.shift_hold (s : State) (b : Byte) : (s.shift b).hold = s.hold := rfl
@[simp] theorem State.shift_holdExpired (s : State) (b : Byte) : (s.shift b).holdExpired = s.holdExpired := rfl
@[simp] theorem State.shift_nodePlan (s : State) (b : Byte) : (s.shift b).nodePlan = s.nodePlan := rfl
@[simp] theorem State.shift_links (s : State) (b : Byte) : (s.shift b).links = s.links := rfl
@[simp] theorem State.shift_wiring (s : State) (b : Byte) : (s.shift b).wiring = s.wiring := rfl
@[simp] theorem State.shift_plans (s : State) (b : Byte) : (s.shift b).plans = s.plans := rfl
@[simp] theorem State.shift_yields (s : State) (b : Byte) : (s.shift b).yields = s.yields := rfl
@[simp] theorem State.shift_groups (s : State) (b : Byte) : (s.shift b).groups = s.groups := rfl
@[simp] theorem State.shift_seqs (s : State) (b : Byte) : (s.shift b).seqs = s.seqs := rfl
@[simp] theorem State.shift_safety (s : State) (b : Byte) : (s.shift b).safety = s.safety := rfl
@[simp] theorem State.shift_lines (s : State) (b : Byte) : (s.shift b).lines = s.lines := rfl
@[simp] theorem State.shift_cause (s : State) (b : Byte) : (s.shift b).cause = s.cause := rfl
@[simp] theorem State.shift_causeChan (s : State) (b : Byte) : (s.shift b).causeChan = s.causeChan := rfl
@[simp] theorem State.shift_failMask (s : State) (b : Byte) : (s.shift b).failMask = s.failMask := rfl
@[simp] theorem State.shift_nodes (s : State) (b : Byte) : (s.shift b).nodes = s.nodes := rfl
@[simp] theorem State.shift_news (s : State) (b : Byte) : (s.shift b).news = s.news := rfl
@[simp] theorem State.shift_attn (s : State) (b : Byte) : (s.shift b).attn = s.attn := rfl
@[simp] theorem State.shift_slots (s : State) (b : Byte) : (s.shift b).slots = s.slots := rfl
@[simp] theorem State.shift_intakeSeq (s : State) (b : Byte) : (s.shift b).intakeSeq = s.intakeSeq := rfl
@[simp] theorem State.shift_intake (s : State) (b : Byte) : (s.shift b).intake = s.intake := rfl
@[simp] theorem State.shift_triples (s : State) (b : Byte) : (s.shift b).triples = s.triples := rfl
@[simp] theorem State.shift_computing (s : State) (b : Byte) : (s.shift b).computing = s.computing := rfl
@[simp] theorem State.shift_results (s : State) (b : Byte) : (s.shift b).results = s.results := rfl
@[simp] theorem State.shift_taken (s : State) (b : Byte) : (s.shift b).taken = s.taken := rfl
@[simp] theorem State.shift_cuts (s : State) (b : Byte) : (s.shift b).cuts = s.cuts := rfl

/-! ### `State.shiftZeros` -/

@[simp] theorem State.shiftZeros_pending (s : State) (n : Nat) : (s.shiftZeros n).pending = s.pending := rfl
@[simp] theorem State.shiftZeros_starting (s : State) (n : Nat) : (s.shiftZeros n).starting = s.starting := rfl
@[simp] theorem State.shiftZeros_mode (s : State) (n : Nat) : (s.shiftZeros n).mode = s.mode := rfl
@[simp] theorem State.shiftZeros_request (s : State) (n : Nat) : (s.shiftZeros n).request = s.request := rfl
@[simp] theorem State.shiftZeros_parkedPending (s : State) (n : Nat) :
    (s.shiftZeros n).parkedPending = s.parkedPending := rfl
@[simp] theorem State.shiftZeros_park (s : State) (n : Nat) : (s.shiftZeros n).park = s.park := rfl
@[simp] theorem State.shiftZeros_rotation (s : State) (n : Nat) : (s.shiftZeros n).rotation = s.rotation := rfl
@[simp] theorem State.shiftZeros_uptime (s : State) (n : Nat) : (s.shiftZeros n).uptime = s.uptime := rfl
@[simp] theorem State.shiftZeros_uptimeLatch (s : State) (n : Nat) : (s.shiftZeros n).uptimeLatch = s.uptimeLatch := rfl
@[simp] theorem State.shiftZeros_mem (s : State) (n : Nat) : (s.shiftZeros n).mem = s.mem := rfl
@[simp] theorem State.shiftZeros_err (s : State) (n : Nat) : (s.shiftZeros n).err = s.err := rfl
@[simp] theorem State.shiftZeros_endPending (s : State) (n : Nat) : (s.shiftZeros n).endPending = s.endPending := rfl
@[simp] theorem State.shiftZeros_watch (s : State) (n : Nat) : (s.shiftZeros n).watch = s.watch := rfl
@[simp] theorem State.shiftZeros_sdo (s : State) (n : Nat) : (s.shiftZeros n).sdo = s.sdo ++ List.replicate n 0 := rfl
@[simp] theorem State.shiftZeros_hold (s : State) (n : Nat) : (s.shiftZeros n).hold = s.hold := rfl
@[simp] theorem State.shiftZeros_holdExpired (s : State) (n : Nat) : (s.shiftZeros n).holdExpired = s.holdExpired := rfl
@[simp] theorem State.shiftZeros_nodePlan (s : State) (n : Nat) : (s.shiftZeros n).nodePlan = s.nodePlan := rfl
@[simp] theorem State.shiftZeros_links (s : State) (n : Nat) : (s.shiftZeros n).links = s.links := rfl
@[simp] theorem State.shiftZeros_wiring (s : State) (n : Nat) : (s.shiftZeros n).wiring = s.wiring := rfl
@[simp] theorem State.shiftZeros_plans (s : State) (n : Nat) : (s.shiftZeros n).plans = s.plans := rfl
@[simp] theorem State.shiftZeros_yields (s : State) (n : Nat) : (s.shiftZeros n).yields = s.yields := rfl
@[simp] theorem State.shiftZeros_groups (s : State) (n : Nat) : (s.shiftZeros n).groups = s.groups := rfl
@[simp] theorem State.shiftZeros_seqs (s : State) (n : Nat) : (s.shiftZeros n).seqs = s.seqs := rfl
@[simp] theorem State.shiftZeros_safety (s : State) (n : Nat) : (s.shiftZeros n).safety = s.safety := rfl
@[simp] theorem State.shiftZeros_lines (s : State) (n : Nat) : (s.shiftZeros n).lines = s.lines := rfl
@[simp] theorem State.shiftZeros_cause (s : State) (n : Nat) : (s.shiftZeros n).cause = s.cause := rfl
@[simp] theorem State.shiftZeros_causeChan (s : State) (n : Nat) : (s.shiftZeros n).causeChan = s.causeChan := rfl
@[simp] theorem State.shiftZeros_failMask (s : State) (n : Nat) : (s.shiftZeros n).failMask = s.failMask := rfl
@[simp] theorem State.shiftZeros_nodes (s : State) (n : Nat) : (s.shiftZeros n).nodes = s.nodes := rfl
@[simp] theorem State.shiftZeros_news (s : State) (n : Nat) : (s.shiftZeros n).news = s.news := rfl
@[simp] theorem State.shiftZeros_attn (s : State) (n : Nat) : (s.shiftZeros n).attn = s.attn := rfl
@[simp] theorem State.shiftZeros_slots (s : State) (n : Nat) : (s.shiftZeros n).slots = s.slots := rfl
@[simp] theorem State.shiftZeros_intakeSeq (s : State) (n : Nat) : (s.shiftZeros n).intakeSeq = s.intakeSeq := rfl
@[simp] theorem State.shiftZeros_intake (s : State) (n : Nat) : (s.shiftZeros n).intake = s.intake := rfl
@[simp] theorem State.shiftZeros_triples (s : State) (n : Nat) : (s.shiftZeros n).triples = s.triples := rfl
@[simp] theorem State.shiftZeros_computing (s : State) (n : Nat) : (s.shiftZeros n).computing = s.computing := rfl
@[simp] theorem State.shiftZeros_results (s : State) (n : Nat) : (s.shiftZeros n).results = s.results := rfl
@[simp] theorem State.shiftZeros_taken (s : State) (n : Nat) : (s.shiftZeros n).taken = s.taken := rfl
@[simp] theorem State.shiftZeros_cuts (s : State) (n : Nat) : (s.shiftZeros n).cuts = s.cuts := rfl

/-! ### `State.beginTransaction` -/

@[simp] theorem State.beginTransaction_pending (s : State) : s.beginTransaction.pending = s.pending := rfl
@[simp] theorem State.beginTransaction_starting (s : State) : s.beginTransaction.starting = s.starting := rfl
@[simp] theorem State.beginTransaction_mode (s : State) : s.beginTransaction.mode = s.mode := rfl
@[simp] theorem State.beginTransaction_request (s : State) : s.beginTransaction.request = s.request := rfl
@[simp] theorem State.beginTransaction_parkedPending (s : State) :
    s.beginTransaction.parkedPending = s.parkedPending := rfl
@[simp] theorem State.beginTransaction_park (s : State) : s.beginTransaction.park = s.park := rfl
@[simp] theorem State.beginTransaction_rotation (s : State) : s.beginTransaction.rotation = s.rotation := rfl
@[simp] theorem State.beginTransaction_uptime (s : State) : s.beginTransaction.uptime = s.uptime := rfl
@[simp] theorem State.beginTransaction_uptimeLatch (s : State) : s.beginTransaction.uptimeLatch = s.uptimeLatch := rfl
@[simp] theorem State.beginTransaction_mem (s : State) : s.beginTransaction.mem = s.mem := rfl
@[simp] theorem State.beginTransaction_err (s : State) : s.beginTransaction.err = false := rfl
@[simp] theorem State.beginTransaction_endPending (s : State) : s.beginTransaction.endPending = s.endPending := rfl
@[simp] theorem State.beginTransaction_watch (s : State) : s.beginTransaction.watch = s.watch := rfl
@[simp] theorem State.beginTransaction_sdo (s : State) : s.beginTransaction.sdo = [statusByte s] := rfl
@[simp] theorem State.beginTransaction_hold (s : State) : s.beginTransaction.hold = s.hold := rfl
@[simp] theorem State.beginTransaction_holdExpired (s : State) : s.beginTransaction.holdExpired = s.holdExpired := rfl
@[simp] theorem State.beginTransaction_nodePlan (s : State) : s.beginTransaction.nodePlan = s.nodePlan := rfl
@[simp] theorem State.beginTransaction_links (s : State) : s.beginTransaction.links = s.links := rfl
@[simp] theorem State.beginTransaction_wiring (s : State) : s.beginTransaction.wiring = s.wiring := rfl
@[simp] theorem State.beginTransaction_plans (s : State) : s.beginTransaction.plans = s.plans := rfl
@[simp] theorem State.beginTransaction_yields (s : State) : s.beginTransaction.yields = s.yields := rfl
@[simp] theorem State.beginTransaction_groups (s : State) : s.beginTransaction.groups = s.groups := rfl
@[simp] theorem State.beginTransaction_seqs (s : State) : s.beginTransaction.seqs = s.seqs := rfl
@[simp] theorem State.beginTransaction_safety (s : State) : s.beginTransaction.safety = s.safety := rfl
@[simp] theorem State.beginTransaction_lines (s : State) : s.beginTransaction.lines = s.lines := rfl
@[simp] theorem State.beginTransaction_cause (s : State) : s.beginTransaction.cause = s.cause := rfl
@[simp] theorem State.beginTransaction_causeChan (s : State) : s.beginTransaction.causeChan = s.causeChan := rfl
@[simp] theorem State.beginTransaction_failMask (s : State) : s.beginTransaction.failMask = s.failMask := rfl
@[simp] theorem State.beginTransaction_nodes (s : State) : s.beginTransaction.nodes = s.nodes := rfl
@[simp] theorem State.beginTransaction_news (s : State) : s.beginTransaction.news = s.news := rfl
@[simp] theorem State.beginTransaction_attn (s : State) : s.beginTransaction.attn = s.attn := rfl
@[simp] theorem State.beginTransaction_slots (s : State) : s.beginTransaction.slots = s.slots := rfl
@[simp] theorem State.beginTransaction_intakeSeq (s : State) : s.beginTransaction.intakeSeq = s.intakeSeq := rfl
@[simp] theorem State.beginTransaction_intake (s : State) : s.beginTransaction.intake = s.intake := rfl
@[simp] theorem State.beginTransaction_triples (s : State) : s.beginTransaction.triples = s.triples := rfl
@[simp] theorem State.beginTransaction_computing (s : State) : s.beginTransaction.computing = s.computing := rfl
@[simp] theorem State.beginTransaction_results (s : State) : s.beginTransaction.results = s.results := rfl
@[simp] theorem State.beginTransaction_taken (s : State) : s.beginTransaction.taken = s.taken := rfl
@[simp] theorem State.beginTransaction_cuts (s : State) : s.beginTransaction.cuts = s.cuts := rfl

/-! ### `State.openReference` -/

@[simp] theorem State.openReference_pending (s : State) (c : Chan) : (s.openReference c).pending = s.pending := rfl
@[simp] theorem State.openReference_starting (s : State) (c : Chan) : (s.openReference c).starting = s.starting := rfl
@[simp] theorem State.openReference_mode (s : State) (c : Chan) : (s.openReference c).mode = s.mode := rfl
@[simp] theorem State.openReference_request (s : State) (c : Chan) : (s.openReference c).request = s.request := rfl
@[simp] theorem State.openReference_parkedPending (s : State) (c : Chan) :
    (s.openReference c).parkedPending = s.parkedPending := rfl
@[simp] theorem State.openReference_park (s : State) (c : Chan) : (s.openReference c).park = s.park := rfl
@[simp] theorem State.openReference_rotation (s : State) (c : Chan) : (s.openReference c).rotation = s.rotation := rfl
@[simp] theorem State.openReference_uptime (s : State) (c : Chan) : (s.openReference c).uptime = s.uptime := rfl
@[simp] theorem State.openReference_uptimeLatch (s : State) (c : Chan) :
    (s.openReference c).uptimeLatch = s.uptimeLatch := rfl
@[simp] theorem State.openReference_mem (s : State) (c : Chan) : (s.openReference c).mem = s.mem := rfl
@[simp] theorem State.openReference_err (s : State) (c : Chan) : (s.openReference c).err = s.err := rfl
@[simp] theorem State.openReference_endPending (s : State) (c : Chan) :
    (s.openReference c).endPending = s.endPending := rfl
@[simp] theorem State.openReference_watch (s : State) (c : Chan) : (s.openReference c).watch = s.watch := rfl
@[simp] theorem State.openReference_sdo (s : State) (c : Chan) : (s.openReference c).sdo = s.sdo := rfl
@[simp] theorem State.openReference_hold (s : State) (c : Chan) : (s.openReference c).hold = s.hold := rfl
@[simp] theorem State.openReference_holdExpired (s : State) (c : Chan) :
    (s.openReference c).holdExpired = s.holdExpired := rfl
@[simp] theorem State.openReference_nodePlan (s : State) (c : Chan) : (s.openReference c).nodePlan = s.nodePlan := rfl
@[simp] theorem State.openReference_links (s : State) (c : Chan) : (s.openReference c).links = s.links := rfl
@[simp] theorem State.openReference_wiring (s : State) (c : Chan) : (s.openReference c).wiring = s.wiring := rfl
@[simp] theorem State.openReference_plans (s : State) (c : Chan) : (s.openReference c).plans = s.plans := rfl
@[simp] theorem State.openReference_yields (s : State) (c : Chan) : (s.openReference c).yields = s.yields := rfl
@[simp] theorem State.openReference_groups (s : State) (c : Chan) : (s.openReference c).groups = s.groups := rfl
@[simp] theorem State.openReference_seqs (s : State) (c : Chan) : (s.openReference c).seqs = s.seqs := rfl
@[simp] theorem State.openReference_safety (s : State) (c : Chan) :
    (s.openReference c).safety = upd s.safety c { s.safety[c] with reference := false } := rfl
@[simp] theorem State.openReference_lines (s : State) (c : Chan) : (s.openReference c).lines = s.lines := rfl
@[simp] theorem State.openReference_cause (s : State) (c : Chan) : (s.openReference c).cause = s.cause := rfl
@[simp] theorem State.openReference_causeChan (s : State) (c : Chan) :
    (s.openReference c).causeChan = s.causeChan := rfl
@[simp] theorem State.openReference_failMask (s : State) (c : Chan) : (s.openReference c).failMask = s.failMask := rfl
@[simp] theorem State.openReference_nodes (s : State) (c : Chan) : (s.openReference c).nodes = s.nodes := rfl
@[simp] theorem State.openReference_news (s : State) (c : Chan) : (s.openReference c).news = s.news := rfl
@[simp] theorem State.openReference_attn (s : State) (c : Chan) : (s.openReference c).attn = s.attn := rfl
@[simp] theorem State.openReference_slots (s : State) (c : Chan) : (s.openReference c).slots = s.slots := rfl
@[simp] theorem State.openReference_intakeSeq (s : State) (c : Chan) :
    (s.openReference c).intakeSeq = s.intakeSeq := rfl
@[simp] theorem State.openReference_intake (s : State) (c : Chan) : (s.openReference c).intake = s.intake := rfl
@[simp] theorem State.openReference_triples (s : State) (c : Chan) : (s.openReference c).triples = s.triples := rfl
@[simp] theorem State.openReference_computing (s : State) (c : Chan) :
    (s.openReference c).computing = s.computing := rfl
@[simp] theorem State.openReference_results (s : State) (c : Chan) : (s.openReference c).results = s.results := rfl
@[simp] theorem State.openReference_taken (s : State) (c : Chan) : (s.openReference c).taken = s.taken := rfl
@[simp] theorem State.openReference_cuts (s : State) (c : Chan) : (s.openReference c).cuts = s.cuts := rfl

/-! ### `State.clearDisconnect` -/

@[simp] theorem State.clearDisconnect_pending (s : State) (c : Chan) :
    (s.clearDisconnect c).pending = s.pending := rfl
@[simp] theorem State.clearDisconnect_starting (s : State) (c : Chan) :
    (s.clearDisconnect c).starting = s.starting := rfl
@[simp] theorem State.clearDisconnect_mode (s : State) (c : Chan) : (s.clearDisconnect c).mode = s.mode := rfl
@[simp] theorem State.clearDisconnect_request (s : State) (c : Chan) :
    (s.clearDisconnect c).request = s.request := rfl
@[simp] theorem State.clearDisconnect_parkedPending (s : State) (c : Chan) :
    (s.clearDisconnect c).parkedPending = s.parkedPending := rfl
@[simp] theorem State.clearDisconnect_park (s : State) (c : Chan) : (s.clearDisconnect c).park = s.park := rfl
@[simp] theorem State.clearDisconnect_rotation (s : State) (c : Chan) :
    (s.clearDisconnect c).rotation = s.rotation := rfl
@[simp] theorem State.clearDisconnect_uptime (s : State) (c : Chan) : (s.clearDisconnect c).uptime = s.uptime := rfl
@[simp] theorem State.clearDisconnect_uptimeLatch (s : State) (c : Chan) :
    (s.clearDisconnect c).uptimeLatch = s.uptimeLatch := rfl
@[simp] theorem State.clearDisconnect_mem (s : State) (c : Chan) : (s.clearDisconnect c).mem = s.mem := rfl
@[simp] theorem State.clearDisconnect_err (s : State) (c : Chan) : (s.clearDisconnect c).err = s.err := rfl
@[simp] theorem State.clearDisconnect_endPending (s : State) (c : Chan) :
    (s.clearDisconnect c).endPending = s.endPending := rfl
@[simp] theorem State.clearDisconnect_watch (s : State) (c : Chan) : (s.clearDisconnect c).watch = s.watch := rfl
@[simp] theorem State.clearDisconnect_sdo (s : State) (c : Chan) : (s.clearDisconnect c).sdo = s.sdo := rfl
@[simp] theorem State.clearDisconnect_hold (s : State) (c : Chan) : (s.clearDisconnect c).hold = s.hold := rfl
@[simp] theorem State.clearDisconnect_holdExpired (s : State) (c : Chan) :
    (s.clearDisconnect c).holdExpired = s.holdExpired := rfl
@[simp] theorem State.clearDisconnect_nodePlan (s : State) (c : Chan) :
    (s.clearDisconnect c).nodePlan = s.nodePlan := rfl
@[simp] theorem State.clearDisconnect_links (s : State) (c : Chan) : (s.clearDisconnect c).links = s.links := rfl
@[simp] theorem State.clearDisconnect_wiring (s : State) (c : Chan) : (s.clearDisconnect c).wiring = s.wiring := rfl
@[simp] theorem State.clearDisconnect_plans (s : State) (c : Chan) : (s.clearDisconnect c).plans = s.plans := rfl
@[simp] theorem State.clearDisconnect_yields (s : State) (c : Chan) : (s.clearDisconnect c).yields = s.yields := rfl
@[simp] theorem State.clearDisconnect_groups (s : State) (c : Chan) : (s.clearDisconnect c).groups = s.groups := rfl
@[simp] theorem State.clearDisconnect_seqs (s : State) (c : Chan) : (s.clearDisconnect c).seqs = s.seqs := rfl
@[simp] theorem State.clearDisconnect_safety (s : State) (c : Chan) :
    (s.clearDisconnect c).safety = upd s.safety c { s.safety[c] with disconnected := false } := rfl
@[simp] theorem State.clearDisconnect_lines (s : State) (c : Chan) : (s.clearDisconnect c).lines = s.lines := rfl
@[simp] theorem State.clearDisconnect_cause (s : State) (c : Chan) : (s.clearDisconnect c).cause = s.cause := rfl
@[simp] theorem State.clearDisconnect_causeChan (s : State) (c : Chan) :
    (s.clearDisconnect c).causeChan = s.causeChan := rfl
@[simp] theorem State.clearDisconnect_failMask (s : State) (c : Chan) :
    (s.clearDisconnect c).failMask = s.failMask := rfl
@[simp] theorem State.clearDisconnect_nodes (s : State) (c : Chan) : (s.clearDisconnect c).nodes = s.nodes := rfl
@[simp] theorem State.clearDisconnect_news (s : State) (c : Chan) : (s.clearDisconnect c).news = s.news := rfl
@[simp] theorem State.clearDisconnect_attn (s : State) (c : Chan) : (s.clearDisconnect c).attn = s.attn := rfl
@[simp] theorem State.clearDisconnect_slots (s : State) (c : Chan) : (s.clearDisconnect c).slots = s.slots := rfl
@[simp] theorem State.clearDisconnect_intakeSeq (s : State) (c : Chan) :
    (s.clearDisconnect c).intakeSeq = s.intakeSeq := rfl
@[simp] theorem State.clearDisconnect_intake (s : State) (c : Chan) : (s.clearDisconnect c).intake = s.intake := rfl
@[simp] theorem State.clearDisconnect_triples (s : State) (c : Chan) :
    (s.clearDisconnect c).triples = s.triples := rfl
@[simp] theorem State.clearDisconnect_computing (s : State) (c : Chan) :
    (s.clearDisconnect c).computing = s.computing := rfl
@[simp] theorem State.clearDisconnect_results (s : State) (c : Chan) :
    (s.clearDisconnect c).results = s.results := rfl
@[simp] theorem State.clearDisconnect_taken (s : State) (c : Chan) :
    (s.clearDisconnect c).taken = s.taken := rfl
@[simp] theorem State.clearDisconnect_cuts (s : State) (c : Chan) :
    (s.clearDisconnect c).cuts = s.cuts := rfl

/-! ### `State.failVerify` -/

@[simp] theorem State.failVerify_pending (s : State) (c : Chan) : (s.failVerify c).pending = s.pending := rfl
@[simp] theorem State.failVerify_starting (s : State) (c : Chan) : (s.failVerify c).starting = s.starting := rfl
@[simp] theorem State.failVerify_mode (s : State) (c : Chan) : (s.failVerify c).mode = s.mode := rfl
@[simp] theorem State.failVerify_request (s : State) (c : Chan) : (s.failVerify c).request = s.request := rfl
@[simp] theorem State.failVerify_parkedPending (s : State) (c : Chan) :
    (s.failVerify c).parkedPending = s.parkedPending := rfl
@[simp] theorem State.failVerify_park (s : State) (c : Chan) : (s.failVerify c).park = s.park := rfl
@[simp] theorem State.failVerify_rotation (s : State) (c : Chan) : (s.failVerify c).rotation = s.rotation := rfl
@[simp] theorem State.failVerify_uptime (s : State) (c : Chan) : (s.failVerify c).uptime = s.uptime := rfl
@[simp] theorem State.failVerify_uptimeLatch (s : State) (c : Chan) :
    (s.failVerify c).uptimeLatch = s.uptimeLatch := rfl
@[simp] theorem State.failVerify_mem (s : State) (c : Chan) : (s.failVerify c).mem = s.mem := rfl
@[simp] theorem State.failVerify_err (s : State) (c : Chan) : (s.failVerify c).err = s.err := rfl
@[simp] theorem State.failVerify_endPending (s : State) (c : Chan) : (s.failVerify c).endPending = s.endPending := rfl
@[simp] theorem State.failVerify_watch (s : State) (c : Chan) : (s.failVerify c).watch = s.watch := rfl
@[simp] theorem State.failVerify_sdo (s : State) (c : Chan) : (s.failVerify c).sdo = s.sdo := rfl
@[simp] theorem State.failVerify_hold (s : State) (c : Chan) : (s.failVerify c).hold = s.hold := rfl
@[simp] theorem State.failVerify_holdExpired (s : State) (c : Chan) :
    (s.failVerify c).holdExpired = s.holdExpired := rfl
@[simp] theorem State.failVerify_nodePlan (s : State) (c : Chan) : (s.failVerify c).nodePlan = s.nodePlan := rfl
@[simp] theorem State.failVerify_links (s : State) (c : Chan) : (s.failVerify c).links = s.links := rfl
@[simp] theorem State.failVerify_wiring (s : State) (c : Chan) : (s.failVerify c).wiring = s.wiring := rfl
@[simp] theorem State.failVerify_plans (s : State) (c : Chan) : (s.failVerify c).plans = s.plans := rfl
@[simp] theorem State.failVerify_yields (s : State) (c : Chan) : (s.failVerify c).yields = s.yields := rfl
@[simp] theorem State.failVerify_groups (s : State) (c : Chan) : (s.failVerify c).groups = s.groups := rfl
@[simp] theorem State.failVerify_seqs (s : State) (c : Chan) : (s.failVerify c).seqs = s.seqs := rfl
@[simp] theorem State.failVerify_safety (s : State) (c : Chan) : (s.failVerify c).safety = s.safety := rfl
@[simp] theorem State.failVerify_lines (s : State) (c : Chan) : (s.failVerify c).lines = s.lines := rfl
@[simp] theorem State.failVerify_cause (s : State) (c : Chan) : (s.failVerify c).cause = s.cause := rfl
@[simp] theorem State.failVerify_causeChan (s : State) (c : Chan) : (s.failVerify c).causeChan = s.causeChan := rfl
@[simp] theorem State.failVerify_failMask (s : State) (c : Chan) :
    (s.failVerify c).failMask = s.failMask ||| (1#4 <<< c.val) := rfl
@[simp] theorem State.failVerify_nodes (s : State) (c : Chan) : (s.failVerify c).nodes = s.nodes := rfl
@[simp] theorem State.failVerify_news (s : State) (c : Chan) : (s.failVerify c).news = s.news := rfl
@[simp] theorem State.failVerify_attn (s : State) (c : Chan) : (s.failVerify c).attn = s.attn := rfl
@[simp] theorem State.failVerify_slots (s : State) (c : Chan) : (s.failVerify c).slots = s.slots := rfl
@[simp] theorem State.failVerify_intakeSeq (s : State) (c : Chan) : (s.failVerify c).intakeSeq = s.intakeSeq := rfl
@[simp] theorem State.failVerify_intake (s : State) (c : Chan) : (s.failVerify c).intake = s.intake := rfl
@[simp] theorem State.failVerify_triples (s : State) (c : Chan) : (s.failVerify c).triples = s.triples := rfl
@[simp] theorem State.failVerify_computing (s : State) (c : Chan) : (s.failVerify c).computing = s.computing := rfl
@[simp] theorem State.failVerify_results (s : State) (c : Chan) : (s.failVerify c).results = s.results := rfl
@[simp] theorem State.failVerify_taken (s : State) (c : Chan) : (s.failVerify c).taken = s.taken := rfl
@[simp] theorem State.failVerify_cuts (s : State) (c : Chan) : (s.failVerify c).cuts = s.cuts := rfl

/-! ### `State.modOrder` -/

@[simp] theorem State.modOrder_pending (s : State) (n : SlotId) (f : Order → Order) :
    (s.modOrder n f).pending = s.pending := rfl
@[simp] theorem State.modOrder_starting (s : State) (n : SlotId) (f : Order → Order) :
    (s.modOrder n f).starting = s.starting := rfl
@[simp] theorem State.modOrder_mode (s : State) (n : SlotId) (f : Order → Order) :
    (s.modOrder n f).mode = s.mode := rfl
@[simp] theorem State.modOrder_request (s : State) (n : SlotId) (f : Order → Order) :
    (s.modOrder n f).request = s.request := rfl
@[simp] theorem State.modOrder_parkedPending (s : State) (n : SlotId) (f : Order → Order) :
    (s.modOrder n f).parkedPending = s.parkedPending := rfl
@[simp] theorem State.modOrder_park (s : State) (n : SlotId) (f : Order → Order) :
    (s.modOrder n f).park = s.park := rfl
@[simp] theorem State.modOrder_rotation (s : State) (n : SlotId) (f : Order → Order) :
    (s.modOrder n f).rotation = s.rotation := rfl
@[simp] theorem State.modOrder_uptime (s : State) (n : SlotId) (f : Order → Order) :
    (s.modOrder n f).uptime = s.uptime := rfl
@[simp] theorem State.modOrder_uptimeLatch (s : State) (n : SlotId) (f : Order → Order) :
    (s.modOrder n f).uptimeLatch = s.uptimeLatch := rfl
@[simp] theorem State.modOrder_mem (s : State) (n : SlotId) (f : Order → Order) : (s.modOrder n f).mem = s.mem := rfl
@[simp] theorem State.modOrder_err (s : State) (n : SlotId) (f : Order → Order) : (s.modOrder n f).err = s.err := rfl
@[simp] theorem State.modOrder_endPending (s : State) (n : SlotId) (f : Order → Order) :
    (s.modOrder n f).endPending = s.endPending := rfl
@[simp] theorem State.modOrder_watch (s : State) (n : SlotId) (f : Order → Order) :
    (s.modOrder n f).watch = s.watch := rfl
@[simp] theorem State.modOrder_sdo (s : State) (n : SlotId) (f : Order → Order) : (s.modOrder n f).sdo = s.sdo := rfl
@[simp] theorem State.modOrder_hold (s : State) (n : SlotId) (f : Order → Order) :
    (s.modOrder n f).hold = s.hold := rfl
@[simp] theorem State.modOrder_holdExpired (s : State) (n : SlotId) (f : Order → Order) :
    (s.modOrder n f).holdExpired = s.holdExpired := rfl
@[simp] theorem State.modOrder_nodePlan (s : State) (n : SlotId) (f : Order → Order) :
    (s.modOrder n f).nodePlan = s.nodePlan := rfl
@[simp] theorem State.modOrder_links (s : State) (n : SlotId) (f : Order → Order) :
    (s.modOrder n f).links = s.links := rfl
@[simp] theorem State.modOrder_wiring (s : State) (n : SlotId) (f : Order → Order) :
    (s.modOrder n f).wiring = s.wiring := rfl
@[simp] theorem State.modOrder_plans (s : State) (n : SlotId) (f : Order → Order) :
    (s.modOrder n f).plans = s.plans := rfl
@[simp] theorem State.modOrder_yields (s : State) (n : SlotId) (f : Order → Order) :
    (s.modOrder n f).yields = s.yields := rfl
@[simp] theorem State.modOrder_groups (s : State) (n : SlotId) (f : Order → Order) :
    (s.modOrder n f).groups = s.groups := rfl
@[simp] theorem State.modOrder_seqs (s : State) (n : SlotId) (f : Order → Order) :
    (s.modOrder n f).seqs = s.seqs := rfl
@[simp] theorem State.modOrder_safety (s : State) (n : SlotId) (f : Order → Order) :
    (s.modOrder n f).safety = s.safety := rfl
@[simp] theorem State.modOrder_lines (s : State) (n : SlotId) (f : Order → Order) :
    (s.modOrder n f).lines = s.lines := rfl
@[simp] theorem State.modOrder_cause (s : State) (n : SlotId) (f : Order → Order) :
    (s.modOrder n f).cause = s.cause := rfl
@[simp] theorem State.modOrder_causeChan (s : State) (n : SlotId) (f : Order → Order) :
    (s.modOrder n f).causeChan = s.causeChan := rfl
@[simp] theorem State.modOrder_failMask (s : State) (n : SlotId) (f : Order → Order) :
    (s.modOrder n f).failMask = s.failMask := rfl
@[simp] theorem State.modOrder_nodes (s : State) (n : SlotId) (f : Order → Order) :
    (s.modOrder n f).nodes = s.nodes := rfl
@[simp] theorem State.modOrder_news (s : State) (n : SlotId) (f : Order → Order) :
    (s.modOrder n f).news = s.news := rfl
@[simp] theorem State.modOrder_attn (s : State) (n : SlotId) (f : Order → Order) :
    (s.modOrder n f).attn = s.attn := rfl
@[simp] theorem State.modOrder_slots (s : State) (n : SlotId) (f : Order → Order) :
    (s.modOrder n f).slots = s.slots := rfl
@[simp] theorem State.modOrder_intakeSeq (s : State) (n : SlotId) (f : Order → Order) :
    (s.modOrder n f).intakeSeq = s.intakeSeq := rfl
@[simp] theorem State.modOrder_intake (s : State) (n : SlotId) (f : Order → Order) :
    (s.modOrder n f).intake = s.intake.map fun o => if o.slot = n then f o else o := rfl
@[simp] theorem State.modOrder_triples (s : State) (n : SlotId) (f : Order → Order) :
    (s.modOrder n f).triples = s.triples := rfl
@[simp] theorem State.modOrder_computing (s : State) (n : SlotId) (f : Order → Order) :
    (s.modOrder n f).computing = s.computing := rfl
@[simp] theorem State.modOrder_results (s : State) (n : SlotId) (f : Order → Order) :
    (s.modOrder n f).results = s.results := rfl
@[simp] theorem State.modOrder_taken (s : State) (n : SlotId) (f : Order → Order) :
    (s.modOrder n f).taken = s.taken := rfl
@[simp] theorem State.modOrder_cuts (s : State) (n : SlotId) (f : Order → Order) :
    (s.modOrder n f).cuts = s.cuts := rfl

/-! ### `State.clearNews` -/

@[simp] theorem State.clearNews_pending (s : State) (w : News) : (s.clearNews w).pending = s.pending := rfl
@[simp] theorem State.clearNews_starting (s : State) (w : News) : (s.clearNews w).starting = s.starting := rfl
@[simp] theorem State.clearNews_mode (s : State) (w : News) : (s.clearNews w).mode = s.mode := rfl
@[simp] theorem State.clearNews_request (s : State) (w : News) : (s.clearNews w).request = s.request := rfl
@[simp] theorem State.clearNews_parkedPending (s : State) (w : News) :
    (s.clearNews w).parkedPending = s.parkedPending := rfl
@[simp] theorem State.clearNews_park (s : State) (w : News) : (s.clearNews w).park = s.park := rfl
@[simp] theorem State.clearNews_rotation (s : State) (w : News) : (s.clearNews w).rotation = s.rotation := rfl
@[simp] theorem State.clearNews_uptime (s : State) (w : News) : (s.clearNews w).uptime = s.uptime := rfl
@[simp] theorem State.clearNews_uptimeLatch (s : State) (w : News) :
    (s.clearNews w).uptimeLatch = s.uptimeLatch := rfl
@[simp] theorem State.clearNews_mem (s : State) (w : News) : (s.clearNews w).mem = s.mem := rfl
@[simp] theorem State.clearNews_err (s : State) (w : News) : (s.clearNews w).err = s.err := rfl
@[simp] theorem State.clearNews_endPending (s : State) (w : News) : (s.clearNews w).endPending = s.endPending := rfl
@[simp] theorem State.clearNews_watch (s : State) (w : News) : (s.clearNews w).watch = s.watch := rfl
@[simp] theorem State.clearNews_sdo (s : State) (w : News) : (s.clearNews w).sdo = s.sdo := rfl
@[simp] theorem State.clearNews_hold (s : State) (w : News) : (s.clearNews w).hold = s.hold := rfl
@[simp] theorem State.clearNews_holdExpired (s : State) (w : News) :
    (s.clearNews w).holdExpired = s.holdExpired := rfl
@[simp] theorem State.clearNews_nodePlan (s : State) (w : News) : (s.clearNews w).nodePlan = s.nodePlan := rfl
@[simp] theorem State.clearNews_links (s : State) (w : News) : (s.clearNews w).links = s.links := rfl
@[simp] theorem State.clearNews_wiring (s : State) (w : News) : (s.clearNews w).wiring = s.wiring := rfl
@[simp] theorem State.clearNews_plans (s : State) (w : News) : (s.clearNews w).plans = s.plans := rfl
@[simp] theorem State.clearNews_yields (s : State) (w : News) : (s.clearNews w).yields = s.yields := rfl
@[simp] theorem State.clearNews_groups (s : State) (w : News) : (s.clearNews w).groups = s.groups := rfl
@[simp] theorem State.clearNews_seqs (s : State) (w : News) : (s.clearNews w).seqs = s.seqs := rfl
@[simp] theorem State.clearNews_safety (s : State) (w : News) : (s.clearNews w).safety = s.safety := rfl
@[simp] theorem State.clearNews_lines (s : State) (w : News) : (s.clearNews w).lines = s.lines := rfl
@[simp] theorem State.clearNews_cause (s : State) (w : News) : (s.clearNews w).cause = s.cause := rfl
@[simp] theorem State.clearNews_causeChan (s : State) (w : News) : (s.clearNews w).causeChan = s.causeChan := rfl
@[simp] theorem State.clearNews_failMask (s : State) (w : News) : (s.clearNews w).failMask = s.failMask := rfl
@[simp] theorem State.clearNews_nodes (s : State) (w : News) : (s.clearNews w).nodes = s.nodes := rfl
@[simp] theorem State.clearNews_attn (s : State) (w : News) : (s.clearNews w).attn = s.attn := rfl
@[simp] theorem State.clearNews_slots (s : State) (w : News) : (s.clearNews w).slots = s.slots := rfl
@[simp] theorem State.clearNews_intakeSeq (s : State) (w : News) : (s.clearNews w).intakeSeq = s.intakeSeq := rfl
@[simp] theorem State.clearNews_intake (s : State) (w : News) : (s.clearNews w).intake = s.intake := rfl
@[simp] theorem State.clearNews_triples (s : State) (w : News) : (s.clearNews w).triples = s.triples := rfl
@[simp] theorem State.clearNews_computing (s : State) (w : News) : (s.clearNews w).computing = s.computing := rfl
@[simp] theorem State.clearNews_results (s : State) (w : News) : (s.clearNews w).results = s.results := rfl
@[simp] theorem State.clearNews_taken (s : State) (w : News) : (s.clearNews w).taken = s.taken := rfl
@[simp] theorem State.clearNews_cuts (s : State) (w : News) : (s.clearNews w).cuts = s.cuts := rfl

/-! ### `State.dropResults` -/

@[simp] theorem State.dropResults_pending (s : State) : s.dropResults.pending = s.pending := rfl
@[simp] theorem State.dropResults_starting (s : State) : s.dropResults.starting = s.starting := rfl
@[simp] theorem State.dropResults_mode (s : State) : s.dropResults.mode = s.mode := rfl
@[simp] theorem State.dropResults_request (s : State) : s.dropResults.request = s.request := rfl
@[simp] theorem State.dropResults_parkedPending (s : State) : s.dropResults.parkedPending = s.parkedPending := rfl
@[simp] theorem State.dropResults_park (s : State) : s.dropResults.park = s.park := rfl
@[simp] theorem State.dropResults_rotation (s : State) : s.dropResults.rotation = s.rotation := rfl
@[simp] theorem State.dropResults_uptime (s : State) : s.dropResults.uptime = s.uptime := rfl
@[simp] theorem State.dropResults_uptimeLatch (s : State) : s.dropResults.uptimeLatch = s.uptimeLatch := rfl
@[simp] theorem State.dropResults_mem (s : State) : s.dropResults.mem = s.mem := rfl
@[simp] theorem State.dropResults_err (s : State) : s.dropResults.err = s.err := rfl
@[simp] theorem State.dropResults_endPending (s : State) : s.dropResults.endPending = s.endPending := rfl
@[simp] theorem State.dropResults_watch (s : State) : s.dropResults.watch = s.watch := rfl
@[simp] theorem State.dropResults_sdo (s : State) : s.dropResults.sdo = s.sdo := rfl
@[simp] theorem State.dropResults_hold (s : State) : s.dropResults.hold = s.hold := rfl
@[simp] theorem State.dropResults_holdExpired (s : State) : s.dropResults.holdExpired = s.holdExpired := rfl
@[simp] theorem State.dropResults_nodePlan (s : State) : s.dropResults.nodePlan = s.nodePlan := rfl
@[simp] theorem State.dropResults_links (s : State) : s.dropResults.links = s.links := rfl
@[simp] theorem State.dropResults_wiring (s : State) : s.dropResults.wiring = s.wiring := rfl
@[simp] theorem State.dropResults_plans (s : State) : s.dropResults.plans = s.plans := rfl
@[simp] theorem State.dropResults_yields (s : State) : s.dropResults.yields = s.yields := rfl
@[simp] theorem State.dropResults_groups (s : State) : s.dropResults.groups = s.groups := rfl
@[simp] theorem State.dropResults_seqs (s : State) : s.dropResults.seqs = s.seqs := rfl
@[simp] theorem State.dropResults_safety (s : State) : s.dropResults.safety = s.safety := rfl
@[simp] theorem State.dropResults_lines (s : State) : s.dropResults.lines = s.lines := rfl
@[simp] theorem State.dropResults_cause (s : State) : s.dropResults.cause = s.cause := rfl
@[simp] theorem State.dropResults_causeChan (s : State) : s.dropResults.causeChan = s.causeChan := rfl
@[simp] theorem State.dropResults_failMask (s : State) : s.dropResults.failMask = s.failMask := rfl
@[simp] theorem State.dropResults_nodes (s : State) : s.dropResults.nodes = s.nodes := rfl
@[simp] theorem State.dropResults_news (s : State) : s.dropResults.news = s.news := rfl
@[simp] theorem State.dropResults_attn (s : State) : s.dropResults.attn = s.attn := rfl
@[simp] theorem State.dropResults_slots (s : State) : s.dropResults.slots = s.slots := rfl
@[simp] theorem State.dropResults_intakeSeq (s : State) : s.dropResults.intakeSeq = s.intakeSeq := rfl
@[simp] theorem State.dropResults_intake (s : State) : s.dropResults.intake = s.intake := rfl
@[simp] theorem State.dropResults_triples (s : State) : s.dropResults.triples = [] := rfl
@[simp] theorem State.dropResults_computing (s : State) : s.dropResults.computing = none := rfl
@[simp] theorem State.dropResults_results (s : State) : s.dropResults.results = [] := rfl
@[simp] theorem State.dropResults_taken (s : State) : s.dropResults.taken = none := rfl
@[simp] theorem State.dropResults_cuts (s : State) : s.dropResults.cuts = s.cuts := rfl

/-! ### `State.newsDone` -/

@[simp] theorem State.newsDone_pending (s : State) (n : Nat) : (s.newsDone n).pending = s.pending := rfl
@[simp] theorem State.newsDone_starting (s : State) (n : Nat) : (s.newsDone n).starting = s.starting := rfl
@[simp] theorem State.newsDone_mode (s : State) (n : Nat) : (s.newsDone n).mode = s.mode := rfl
@[simp] theorem State.newsDone_request (s : State) (n : Nat) : (s.newsDone n).request = s.request := rfl
@[simp] theorem State.newsDone_parkedPending (s : State) (n : Nat) :
    (s.newsDone n).parkedPending = s.parkedPending := rfl
@[simp] theorem State.newsDone_park (s : State) (n : Nat) : (s.newsDone n).park = s.park := rfl
@[simp] theorem State.newsDone_rotation (s : State) (n : Nat) : (s.newsDone n).rotation = s.rotation := rfl
@[simp] theorem State.newsDone_uptime (s : State) (n : Nat) : (s.newsDone n).uptime = s.uptime := rfl
@[simp] theorem State.newsDone_uptimeLatch (s : State) (n : Nat) : (s.newsDone n).uptimeLatch = s.uptimeLatch := rfl
@[simp] theorem State.newsDone_mem (s : State) (n : Nat) : (s.newsDone n).mem = s.mem := rfl
@[simp] theorem State.newsDone_err (s : State) (n : Nat) : (s.newsDone n).err = s.err := rfl
@[simp] theorem State.newsDone_endPending (s : State) (n : Nat) : (s.newsDone n).endPending = s.endPending := rfl
@[simp] theorem State.newsDone_watch (s : State) (n : Nat) : (s.newsDone n).watch = s.watch := rfl
@[simp] theorem State.newsDone_sdo (s : State) (n : Nat) : (s.newsDone n).sdo = s.sdo := rfl
@[simp] theorem State.newsDone_hold (s : State) (n : Nat) : (s.newsDone n).hold = s.hold := rfl
@[simp] theorem State.newsDone_holdExpired (s : State) (n : Nat) : (s.newsDone n).holdExpired = s.holdExpired := rfl
@[simp] theorem State.newsDone_nodePlan (s : State) (n : Nat) : (s.newsDone n).nodePlan = s.nodePlan := rfl
@[simp] theorem State.newsDone_links (s : State) (n : Nat) : (s.newsDone n).links = s.links := rfl
@[simp] theorem State.newsDone_wiring (s : State) (n : Nat) : (s.newsDone n).wiring = s.wiring := rfl
@[simp] theorem State.newsDone_plans (s : State) (n : Nat) : (s.newsDone n).plans = s.plans := rfl
@[simp] theorem State.newsDone_yields (s : State) (n : Nat) : (s.newsDone n).yields = s.yields := rfl
@[simp] theorem State.newsDone_groups (s : State) (n : Nat) : (s.newsDone n).groups = s.groups := rfl
@[simp] theorem State.newsDone_seqs (s : State) (n : Nat) : (s.newsDone n).seqs = s.seqs := rfl
@[simp] theorem State.newsDone_safety (s : State) (n : Nat) : (s.newsDone n).safety = s.safety := rfl
@[simp] theorem State.newsDone_lines (s : State) (n : Nat) : (s.newsDone n).lines = s.lines := rfl
@[simp] theorem State.newsDone_cause (s : State) (n : Nat) : (s.newsDone n).cause = s.cause := rfl
@[simp] theorem State.newsDone_causeChan (s : State) (n : Nat) : (s.newsDone n).causeChan = s.causeChan := rfl
@[simp] theorem State.newsDone_failMask (s : State) (n : Nat) : (s.newsDone n).failMask = s.failMask := rfl
@[simp] theorem State.newsDone_nodes (s : State) (n : Nat) : (s.newsDone n).nodes = s.nodes := rfl
@[simp] theorem State.newsDone_news (s : State) (n : Nat) :
    (s.newsDone n).news = { s.news with done := s.news.done ||| bit8 n } := rfl
@[simp] theorem State.newsDone_attn (s : State) (n : Nat) : (s.newsDone n).attn = s.attn := rfl
@[simp] theorem State.newsDone_slots (s : State) (n : Nat) : (s.newsDone n).slots = s.slots := rfl
@[simp] theorem State.newsDone_intakeSeq (s : State) (n : Nat) : (s.newsDone n).intakeSeq = s.intakeSeq := rfl
@[simp] theorem State.newsDone_intake (s : State) (n : Nat) : (s.newsDone n).intake = s.intake := rfl
@[simp] theorem State.newsDone_triples (s : State) (n : Nat) : (s.newsDone n).triples = s.triples := rfl
@[simp] theorem State.newsDone_computing (s : State) (n : Nat) : (s.newsDone n).computing = s.computing := rfl
@[simp] theorem State.newsDone_results (s : State) (n : Nat) : (s.newsDone n).results = s.results := rfl
@[simp] theorem State.newsDone_taken (s : State) (n : Nat) : (s.newsDone n).taken = s.taken := rfl
@[simp] theorem State.newsDone_cuts (s : State) (n : Nat) : (s.newsDone n).cuts = s.cuts := rfl

/-! ### `State.newsNodeState` -/

@[simp] theorem State.newsNodeState_pending (s : State) (n : Nat) : (s.newsNodeState n).pending = s.pending := rfl
@[simp] theorem State.newsNodeState_starting (s : State) (n : Nat) : (s.newsNodeState n).starting = s.starting := rfl
@[simp] theorem State.newsNodeState_mode (s : State) (n : Nat) : (s.newsNodeState n).mode = s.mode := rfl
@[simp] theorem State.newsNodeState_request (s : State) (n : Nat) : (s.newsNodeState n).request = s.request := rfl
@[simp] theorem State.newsNodeState_parkedPending (s : State) (n : Nat) :
    (s.newsNodeState n).parkedPending = s.parkedPending := rfl
@[simp] theorem State.newsNodeState_park (s : State) (n : Nat) : (s.newsNodeState n).park = s.park := rfl
@[simp] theorem State.newsNodeState_rotation (s : State) (n : Nat) : (s.newsNodeState n).rotation = s.rotation := rfl
@[simp] theorem State.newsNodeState_uptime (s : State) (n : Nat) : (s.newsNodeState n).uptime = s.uptime := rfl
@[simp] theorem State.newsNodeState_uptimeLatch (s : State) (n : Nat) :
    (s.newsNodeState n).uptimeLatch = s.uptimeLatch := rfl
@[simp] theorem State.newsNodeState_mem (s : State) (n : Nat) : (s.newsNodeState n).mem = s.mem := rfl
@[simp] theorem State.newsNodeState_err (s : State) (n : Nat) : (s.newsNodeState n).err = s.err := rfl
@[simp] theorem State.newsNodeState_endPending (s : State) (n : Nat) :
    (s.newsNodeState n).endPending = s.endPending := rfl
@[simp] theorem State.newsNodeState_watch (s : State) (n : Nat) : (s.newsNodeState n).watch = s.watch := rfl
@[simp] theorem State.newsNodeState_sdo (s : State) (n : Nat) : (s.newsNodeState n).sdo = s.sdo := rfl
@[simp] theorem State.newsNodeState_hold (s : State) (n : Nat) : (s.newsNodeState n).hold = s.hold := rfl
@[simp] theorem State.newsNodeState_holdExpired (s : State) (n : Nat) :
    (s.newsNodeState n).holdExpired = s.holdExpired := rfl
@[simp] theorem State.newsNodeState_nodePlan (s : State) (n : Nat) : (s.newsNodeState n).nodePlan = s.nodePlan := rfl
@[simp] theorem State.newsNodeState_links (s : State) (n : Nat) : (s.newsNodeState n).links = s.links := rfl
@[simp] theorem State.newsNodeState_wiring (s : State) (n : Nat) : (s.newsNodeState n).wiring = s.wiring := rfl
@[simp] theorem State.newsNodeState_plans (s : State) (n : Nat) : (s.newsNodeState n).plans = s.plans := rfl
@[simp] theorem State.newsNodeState_yields (s : State) (n : Nat) : (s.newsNodeState n).yields = s.yields := rfl
@[simp] theorem State.newsNodeState_groups (s : State) (n : Nat) : (s.newsNodeState n).groups = s.groups := rfl
@[simp] theorem State.newsNodeState_seqs (s : State) (n : Nat) : (s.newsNodeState n).seqs = s.seqs := rfl
@[simp] theorem State.newsNodeState_safety (s : State) (n : Nat) : (s.newsNodeState n).safety = s.safety := rfl
@[simp] theorem State.newsNodeState_lines (s : State) (n : Nat) : (s.newsNodeState n).lines = s.lines := rfl
@[simp] theorem State.newsNodeState_cause (s : State) (n : Nat) : (s.newsNodeState n).cause = s.cause := rfl
@[simp] theorem State.newsNodeState_causeChan (s : State) (n : Nat) :
    (s.newsNodeState n).causeChan = s.causeChan := rfl
@[simp] theorem State.newsNodeState_failMask (s : State) (n : Nat) : (s.newsNodeState n).failMask = s.failMask := rfl
@[simp] theorem State.newsNodeState_nodes (s : State) (n : Nat) : (s.newsNodeState n).nodes = s.nodes := rfl
@[simp] theorem State.newsNodeState_news (s : State) (n : Nat) :
    (s.newsNodeState n).news = { s.news with nodeState := s.news.nodeState ||| bit8 n } := rfl
@[simp] theorem State.newsNodeState_attn (s : State) (n : Nat) : (s.newsNodeState n).attn = s.attn := rfl
@[simp] theorem State.newsNodeState_slots (s : State) (n : Nat) : (s.newsNodeState n).slots = s.slots := rfl
@[simp] theorem State.newsNodeState_intakeSeq (s : State) (n : Nat) :
    (s.newsNodeState n).intakeSeq = s.intakeSeq := rfl
@[simp] theorem State.newsNodeState_intake (s : State) (n : Nat) : (s.newsNodeState n).intake = s.intake := rfl
@[simp] theorem State.newsNodeState_triples (s : State) (n : Nat) : (s.newsNodeState n).triples = s.triples := rfl
@[simp] theorem State.newsNodeState_computing (s : State) (n : Nat) :
    (s.newsNodeState n).computing = s.computing := rfl
@[simp] theorem State.newsNodeState_results (s : State) (n : Nat) : (s.newsNodeState n).results = s.results := rfl
@[simp] theorem State.newsNodeState_taken (s : State) (n : Nat) : (s.newsNodeState n).taken = s.taken := rfl
@[simp] theorem State.newsNodeState_cuts (s : State) (n : Nat) : (s.newsNodeState n).cuts = s.cuts := rfl

/-! ### `State.newsNodeStale` -/

@[simp] theorem State.newsNodeStale_pending (s : State) (n : Nat) : (s.newsNodeStale n).pending = s.pending := rfl
@[simp] theorem State.newsNodeStale_starting (s : State) (n : Nat) : (s.newsNodeStale n).starting = s.starting := rfl
@[simp] theorem State.newsNodeStale_mode (s : State) (n : Nat) : (s.newsNodeStale n).mode = s.mode := rfl
@[simp] theorem State.newsNodeStale_request (s : State) (n : Nat) : (s.newsNodeStale n).request = s.request := rfl
@[simp] theorem State.newsNodeStale_parkedPending (s : State) (n : Nat) :
    (s.newsNodeStale n).parkedPending = s.parkedPending := rfl
@[simp] theorem State.newsNodeStale_park (s : State) (n : Nat) : (s.newsNodeStale n).park = s.park := rfl
@[simp] theorem State.newsNodeStale_rotation (s : State) (n : Nat) : (s.newsNodeStale n).rotation = s.rotation := rfl
@[simp] theorem State.newsNodeStale_uptime (s : State) (n : Nat) : (s.newsNodeStale n).uptime = s.uptime := rfl
@[simp] theorem State.newsNodeStale_uptimeLatch (s : State) (n : Nat) :
    (s.newsNodeStale n).uptimeLatch = s.uptimeLatch := rfl
@[simp] theorem State.newsNodeStale_mem (s : State) (n : Nat) : (s.newsNodeStale n).mem = s.mem := rfl
@[simp] theorem State.newsNodeStale_err (s : State) (n : Nat) : (s.newsNodeStale n).err = s.err := rfl
@[simp] theorem State.newsNodeStale_endPending (s : State) (n : Nat) :
    (s.newsNodeStale n).endPending = s.endPending := rfl
@[simp] theorem State.newsNodeStale_watch (s : State) (n : Nat) : (s.newsNodeStale n).watch = s.watch := rfl
@[simp] theorem State.newsNodeStale_sdo (s : State) (n : Nat) : (s.newsNodeStale n).sdo = s.sdo := rfl
@[simp] theorem State.newsNodeStale_hold (s : State) (n : Nat) : (s.newsNodeStale n).hold = s.hold := rfl
@[simp] theorem State.newsNodeStale_holdExpired (s : State) (n : Nat) :
    (s.newsNodeStale n).holdExpired = s.holdExpired := rfl
@[simp] theorem State.newsNodeStale_nodePlan (s : State) (n : Nat) : (s.newsNodeStale n).nodePlan = s.nodePlan := rfl
@[simp] theorem State.newsNodeStale_links (s : State) (n : Nat) : (s.newsNodeStale n).links = s.links := rfl
@[simp] theorem State.newsNodeStale_wiring (s : State) (n : Nat) : (s.newsNodeStale n).wiring = s.wiring := rfl
@[simp] theorem State.newsNodeStale_plans (s : State) (n : Nat) : (s.newsNodeStale n).plans = s.plans := rfl
@[simp] theorem State.newsNodeStale_yields (s : State) (n : Nat) : (s.newsNodeStale n).yields = s.yields := rfl
@[simp] theorem State.newsNodeStale_groups (s : State) (n : Nat) : (s.newsNodeStale n).groups = s.groups := rfl
@[simp] theorem State.newsNodeStale_seqs (s : State) (n : Nat) : (s.newsNodeStale n).seqs = s.seqs := rfl
@[simp] theorem State.newsNodeStale_safety (s : State) (n : Nat) : (s.newsNodeStale n).safety = s.safety := rfl
@[simp] theorem State.newsNodeStale_lines (s : State) (n : Nat) : (s.newsNodeStale n).lines = s.lines := rfl
@[simp] theorem State.newsNodeStale_cause (s : State) (n : Nat) : (s.newsNodeStale n).cause = s.cause := rfl
@[simp] theorem State.newsNodeStale_causeChan (s : State) (n : Nat) :
    (s.newsNodeStale n).causeChan = s.causeChan := rfl
@[simp] theorem State.newsNodeStale_failMask (s : State) (n : Nat) : (s.newsNodeStale n).failMask = s.failMask := rfl
@[simp] theorem State.newsNodeStale_nodes (s : State) (n : Nat) : (s.newsNodeStale n).nodes = s.nodes := rfl
@[simp] theorem State.newsNodeStale_news (s : State) (n : Nat) :
    (s.newsNodeStale n).news = { s.news with nodeStale := s.news.nodeStale ||| bit8 n } := rfl
@[simp] theorem State.newsNodeStale_attn (s : State) (n : Nat) : (s.newsNodeStale n).attn = s.attn := rfl
@[simp] theorem State.newsNodeStale_slots (s : State) (n : Nat) : (s.newsNodeStale n).slots = s.slots := rfl
@[simp] theorem State.newsNodeStale_intakeSeq (s : State) (n : Nat) :
    (s.newsNodeStale n).intakeSeq = s.intakeSeq := rfl
@[simp] theorem State.newsNodeStale_intake (s : State) (n : Nat) : (s.newsNodeStale n).intake = s.intake := rfl
@[simp] theorem State.newsNodeStale_triples (s : State) (n : Nat) : (s.newsNodeStale n).triples = s.triples := rfl
@[simp] theorem State.newsNodeStale_computing (s : State) (n : Nat) :
    (s.newsNodeStale n).computing = s.computing := rfl
@[simp] theorem State.newsNodeStale_results (s : State) (n : Nat) : (s.newsNodeStale n).results = s.results := rfl
@[simp] theorem State.newsNodeStale_taken (s : State) (n : Nat) : (s.newsNodeStale n).taken = s.taken := rfl
@[simp] theorem State.newsNodeStale_cuts (s : State) (n : Nat) : (s.newsNodeStale n).cuts = s.cuts := rfl

/-! ### `State.newsChanCond` -/

@[simp] theorem State.newsChanCond_pending (s : State) (n : Nat) : (s.newsChanCond n).pending = s.pending := rfl
@[simp] theorem State.newsChanCond_starting (s : State) (n : Nat) : (s.newsChanCond n).starting = s.starting := rfl
@[simp] theorem State.newsChanCond_mode (s : State) (n : Nat) : (s.newsChanCond n).mode = s.mode := rfl
@[simp] theorem State.newsChanCond_request (s : State) (n : Nat) : (s.newsChanCond n).request = s.request := rfl
@[simp] theorem State.newsChanCond_parkedPending (s : State) (n : Nat) :
    (s.newsChanCond n).parkedPending = s.parkedPending := rfl
@[simp] theorem State.newsChanCond_park (s : State) (n : Nat) : (s.newsChanCond n).park = s.park := rfl
@[simp] theorem State.newsChanCond_rotation (s : State) (n : Nat) : (s.newsChanCond n).rotation = s.rotation := rfl
@[simp] theorem State.newsChanCond_uptime (s : State) (n : Nat) : (s.newsChanCond n).uptime = s.uptime := rfl
@[simp] theorem State.newsChanCond_uptimeLatch (s : State) (n : Nat) :
    (s.newsChanCond n).uptimeLatch = s.uptimeLatch := rfl
@[simp] theorem State.newsChanCond_mem (s : State) (n : Nat) : (s.newsChanCond n).mem = s.mem := rfl
@[simp] theorem State.newsChanCond_err (s : State) (n : Nat) : (s.newsChanCond n).err = s.err := rfl
@[simp] theorem State.newsChanCond_endPending (s : State) (n : Nat) :
    (s.newsChanCond n).endPending = s.endPending := rfl
@[simp] theorem State.newsChanCond_watch (s : State) (n : Nat) : (s.newsChanCond n).watch = s.watch := rfl
@[simp] theorem State.newsChanCond_sdo (s : State) (n : Nat) : (s.newsChanCond n).sdo = s.sdo := rfl
@[simp] theorem State.newsChanCond_hold (s : State) (n : Nat) : (s.newsChanCond n).hold = s.hold := rfl
@[simp] theorem State.newsChanCond_holdExpired (s : State) (n : Nat) :
    (s.newsChanCond n).holdExpired = s.holdExpired := rfl
@[simp] theorem State.newsChanCond_nodePlan (s : State) (n : Nat) : (s.newsChanCond n).nodePlan = s.nodePlan := rfl
@[simp] theorem State.newsChanCond_links (s : State) (n : Nat) : (s.newsChanCond n).links = s.links := rfl
@[simp] theorem State.newsChanCond_wiring (s : State) (n : Nat) : (s.newsChanCond n).wiring = s.wiring := rfl
@[simp] theorem State.newsChanCond_plans (s : State) (n : Nat) : (s.newsChanCond n).plans = s.plans := rfl
@[simp] theorem State.newsChanCond_yields (s : State) (n : Nat) : (s.newsChanCond n).yields = s.yields := rfl
@[simp] theorem State.newsChanCond_groups (s : State) (n : Nat) : (s.newsChanCond n).groups = s.groups := rfl
@[simp] theorem State.newsChanCond_seqs (s : State) (n : Nat) : (s.newsChanCond n).seqs = s.seqs := rfl
@[simp] theorem State.newsChanCond_safety (s : State) (n : Nat) : (s.newsChanCond n).safety = s.safety := rfl
@[simp] theorem State.newsChanCond_lines (s : State) (n : Nat) : (s.newsChanCond n).lines = s.lines := rfl
@[simp] theorem State.newsChanCond_cause (s : State) (n : Nat) : (s.newsChanCond n).cause = s.cause := rfl
@[simp] theorem State.newsChanCond_causeChan (s : State) (n : Nat) : (s.newsChanCond n).causeChan = s.causeChan := rfl
@[simp] theorem State.newsChanCond_failMask (s : State) (n : Nat) : (s.newsChanCond n).failMask = s.failMask := rfl
@[simp] theorem State.newsChanCond_nodes (s : State) (n : Nat) : (s.newsChanCond n).nodes = s.nodes := rfl
@[simp] theorem State.newsChanCond_news (s : State) (n : Nat) :
    (s.newsChanCond n).news = { s.news with chanCond := s.news.chanCond ||| bit8 n } := rfl
@[simp] theorem State.newsChanCond_attn (s : State) (n : Nat) : (s.newsChanCond n).attn = s.attn := rfl
@[simp] theorem State.newsChanCond_slots (s : State) (n : Nat) : (s.newsChanCond n).slots = s.slots := rfl
@[simp] theorem State.newsChanCond_intakeSeq (s : State) (n : Nat) : (s.newsChanCond n).intakeSeq = s.intakeSeq := rfl
@[simp] theorem State.newsChanCond_intake (s : State) (n : Nat) : (s.newsChanCond n).intake = s.intake := rfl
@[simp] theorem State.newsChanCond_triples (s : State) (n : Nat) : (s.newsChanCond n).triples = s.triples := rfl
@[simp] theorem State.newsChanCond_computing (s : State) (n : Nat) : (s.newsChanCond n).computing = s.computing := rfl
@[simp] theorem State.newsChanCond_results (s : State) (n : Nat) : (s.newsChanCond n).results = s.results := rfl
@[simp] theorem State.newsChanCond_taken (s : State) (n : Nat) : (s.newsChanCond n).taken = s.taken := rfl
@[simp] theorem State.newsChanCond_cuts (s : State) (n : Nat) : (s.newsChanCond n).cuts = s.cuts := rfl

/-! ### `State.newsChanSafety` -/

@[simp] theorem State.newsChanSafety_pending (s : State) (n : Nat) : (s.newsChanSafety n).pending = s.pending := rfl
@[simp] theorem State.newsChanSafety_starting (s : State) (n : Nat) :
    (s.newsChanSafety n).starting = s.starting := rfl
@[simp] theorem State.newsChanSafety_mode (s : State) (n : Nat) : (s.newsChanSafety n).mode = s.mode := rfl
@[simp] theorem State.newsChanSafety_request (s : State) (n : Nat) : (s.newsChanSafety n).request = s.request := rfl
@[simp] theorem State.newsChanSafety_parkedPending (s : State) (n : Nat) :
    (s.newsChanSafety n).parkedPending = s.parkedPending := rfl
@[simp] theorem State.newsChanSafety_park (s : State) (n : Nat) : (s.newsChanSafety n).park = s.park := rfl
@[simp] theorem State.newsChanSafety_rotation (s : State) (n : Nat) :
    (s.newsChanSafety n).rotation = s.rotation := rfl
@[simp] theorem State.newsChanSafety_uptime (s : State) (n : Nat) : (s.newsChanSafety n).uptime = s.uptime := rfl
@[simp] theorem State.newsChanSafety_uptimeLatch (s : State) (n : Nat) :
    (s.newsChanSafety n).uptimeLatch = s.uptimeLatch := rfl
@[simp] theorem State.newsChanSafety_mem (s : State) (n : Nat) : (s.newsChanSafety n).mem = s.mem := rfl
@[simp] theorem State.newsChanSafety_err (s : State) (n : Nat) : (s.newsChanSafety n).err = s.err := rfl
@[simp] theorem State.newsChanSafety_endPending (s : State) (n : Nat) :
    (s.newsChanSafety n).endPending = s.endPending := rfl
@[simp] theorem State.newsChanSafety_watch (s : State) (n : Nat) : (s.newsChanSafety n).watch = s.watch := rfl
@[simp] theorem State.newsChanSafety_sdo (s : State) (n : Nat) : (s.newsChanSafety n).sdo = s.sdo := rfl
@[simp] theorem State.newsChanSafety_hold (s : State) (n : Nat) : (s.newsChanSafety n).hold = s.hold := rfl
@[simp] theorem State.newsChanSafety_holdExpired (s : State) (n : Nat) :
    (s.newsChanSafety n).holdExpired = s.holdExpired := rfl
@[simp] theorem State.newsChanSafety_nodePlan (s : State) (n : Nat) :
    (s.newsChanSafety n).nodePlan = s.nodePlan := rfl
@[simp] theorem State.newsChanSafety_links (s : State) (n : Nat) : (s.newsChanSafety n).links = s.links := rfl
@[simp] theorem State.newsChanSafety_wiring (s : State) (n : Nat) : (s.newsChanSafety n).wiring = s.wiring := rfl
@[simp] theorem State.newsChanSafety_plans (s : State) (n : Nat) : (s.newsChanSafety n).plans = s.plans := rfl
@[simp] theorem State.newsChanSafety_yields (s : State) (n : Nat) : (s.newsChanSafety n).yields = s.yields := rfl
@[simp] theorem State.newsChanSafety_groups (s : State) (n : Nat) : (s.newsChanSafety n).groups = s.groups := rfl
@[simp] theorem State.newsChanSafety_seqs (s : State) (n : Nat) : (s.newsChanSafety n).seqs = s.seqs := rfl
@[simp] theorem State.newsChanSafety_safety (s : State) (n : Nat) : (s.newsChanSafety n).safety = s.safety := rfl
@[simp] theorem State.newsChanSafety_lines (s : State) (n : Nat) : (s.newsChanSafety n).lines = s.lines := rfl
@[simp] theorem State.newsChanSafety_cause (s : State) (n : Nat) : (s.newsChanSafety n).cause = s.cause := rfl
@[simp] theorem State.newsChanSafety_causeChan (s : State) (n : Nat) :
    (s.newsChanSafety n).causeChan = s.causeChan := rfl
@[simp] theorem State.newsChanSafety_failMask (s : State) (n : Nat) :
    (s.newsChanSafety n).failMask = s.failMask := rfl
@[simp] theorem State.newsChanSafety_nodes (s : State) (n : Nat) : (s.newsChanSafety n).nodes = s.nodes := rfl
@[simp] theorem State.newsChanSafety_news (s : State) (n : Nat) :
    (s.newsChanSafety n).news = { s.news with chanSafety := s.news.chanSafety ||| bit8 n } := rfl
@[simp] theorem State.newsChanSafety_attn (s : State) (n : Nat) : (s.newsChanSafety n).attn = s.attn := rfl
@[simp] theorem State.newsChanSafety_slots (s : State) (n : Nat) : (s.newsChanSafety n).slots = s.slots := rfl
@[simp] theorem State.newsChanSafety_intakeSeq (s : State) (n : Nat) :
    (s.newsChanSafety n).intakeSeq = s.intakeSeq := rfl
@[simp] theorem State.newsChanSafety_intake (s : State) (n : Nat) : (s.newsChanSafety n).intake = s.intake := rfl
@[simp] theorem State.newsChanSafety_triples (s : State) (n : Nat) : (s.newsChanSafety n).triples = s.triples := rfl
@[simp] theorem State.newsChanSafety_computing (s : State) (n : Nat) :
    (s.newsChanSafety n).computing = s.computing := rfl
@[simp] theorem State.newsChanSafety_results (s : State) (n : Nat) : (s.newsChanSafety n).results = s.results := rfl
@[simp] theorem State.newsChanSafety_taken (s : State) (n : Nat) : (s.newsChanSafety n).taken = s.taken := rfl
@[simp] theorem State.newsChanSafety_cuts (s : State) (n : Nat) : (s.newsChanSafety n).cuts = s.cuts := rfl

/-! ### `State.modGroup` -/

@[simp] theorem State.modGroup_pending (s : State) (l : GroupId) (f : Group → Group) :
    (s.modGroup l f).pending = s.pending := by
  unfold State.modGroup; split <;> rfl
@[simp] theorem State.modGroup_starting (s : State) (l : GroupId) (f : Group → Group) :
    (s.modGroup l f).starting = s.starting := by
  unfold State.modGroup; split <;> rfl
@[simp] theorem State.modGroup_mode (s : State) (l : GroupId) (f : Group → Group) :
    (s.modGroup l f).mode = s.mode := by
  unfold State.modGroup; split <;> rfl
@[simp] theorem State.modGroup_request (s : State) (l : GroupId) (f : Group → Group) :
    (s.modGroup l f).request = s.request := by
  unfold State.modGroup; split <;> rfl
@[simp] theorem State.modGroup_parkedPending (s : State) (l : GroupId) (f : Group → Group) :
    (s.modGroup l f).parkedPending = s.parkedPending := by
  unfold State.modGroup; split <;> rfl
@[simp] theorem State.modGroup_park (s : State) (l : GroupId) (f : Group → Group) :
    (s.modGroup l f).park = s.park := by
  unfold State.modGroup; split <;> rfl
@[simp] theorem State.modGroup_rotation (s : State) (l : GroupId) (f : Group → Group) :
    (s.modGroup l f).rotation = s.rotation := by
  unfold State.modGroup; split <;> rfl
@[simp] theorem State.modGroup_uptime (s : State) (l : GroupId) (f : Group → Group) :
    (s.modGroup l f).uptime = s.uptime := by
  unfold State.modGroup; split <;> rfl
@[simp] theorem State.modGroup_uptimeLatch (s : State) (l : GroupId) (f : Group → Group) :
    (s.modGroup l f).uptimeLatch = s.uptimeLatch := by
  unfold State.modGroup; split <;> rfl
@[simp] theorem State.modGroup_mem (s : State) (l : GroupId) (f : Group → Group) : (s.modGroup l f).mem = s.mem := by
  unfold State.modGroup; split <;> rfl
@[simp] theorem State.modGroup_err (s : State) (l : GroupId) (f : Group → Group) : (s.modGroup l f).err = s.err := by
  unfold State.modGroup; split <;> rfl
@[simp] theorem State.modGroup_endPending (s : State) (l : GroupId) (f : Group → Group) :
    (s.modGroup l f).endPending = s.endPending := by
  unfold State.modGroup; split <;> rfl
@[simp] theorem State.modGroup_watch (s : State) (l : GroupId) (f : Group → Group) :
    (s.modGroup l f).watch = s.watch := by
  unfold State.modGroup; split <;> rfl
@[simp] theorem State.modGroup_sdo (s : State) (l : GroupId) (f : Group → Group) : (s.modGroup l f).sdo = s.sdo := by
  unfold State.modGroup; split <;> rfl
@[simp] theorem State.modGroup_hold (s : State) (l : GroupId) (f : Group → Group) :
    (s.modGroup l f).hold = s.hold := by
  unfold State.modGroup; split <;> rfl
@[simp] theorem State.modGroup_holdExpired (s : State) (l : GroupId) (f : Group → Group) :
    (s.modGroup l f).holdExpired = s.holdExpired := by
  unfold State.modGroup; split <;> rfl
@[simp] theorem State.modGroup_nodePlan (s : State) (l : GroupId) (f : Group → Group) :
    (s.modGroup l f).nodePlan = s.nodePlan := by
  unfold State.modGroup; split <;> rfl
@[simp] theorem State.modGroup_links (s : State) (l : GroupId) (f : Group → Group) :
    (s.modGroup l f).links = s.links := by
  unfold State.modGroup; split <;> rfl
@[simp] theorem State.modGroup_wiring (s : State) (l : GroupId) (f : Group → Group) :
    (s.modGroup l f).wiring = s.wiring := by
  unfold State.modGroup; split <;> rfl
@[simp] theorem State.modGroup_plans (s : State) (l : GroupId) (f : Group → Group) :
    (s.modGroup l f).plans = s.plans := by
  unfold State.modGroup; split <;> rfl
@[simp] theorem State.modGroup_yields (s : State) (l : GroupId) (f : Group → Group) :
    (s.modGroup l f).yields = s.yields := by
  unfold State.modGroup; split <;> rfl
@[simp] theorem State.modGroup_seqs (s : State) (l : GroupId) (f : Group → Group) :
    (s.modGroup l f).seqs = s.seqs := by
  unfold State.modGroup; split <;> rfl
@[simp] theorem State.modGroup_safety (s : State) (l : GroupId) (f : Group → Group) :
    (s.modGroup l f).safety = s.safety := by
  unfold State.modGroup; split <;> rfl
@[simp] theorem State.modGroup_lines (s : State) (l : GroupId) (f : Group → Group) :
    (s.modGroup l f).lines = s.lines := by
  unfold State.modGroup; split <;> rfl
@[simp] theorem State.modGroup_cause (s : State) (l : GroupId) (f : Group → Group) :
    (s.modGroup l f).cause = s.cause := by
  unfold State.modGroup; split <;> rfl
@[simp] theorem State.modGroup_causeChan (s : State) (l : GroupId) (f : Group → Group) :
    (s.modGroup l f).causeChan = s.causeChan := by
  unfold State.modGroup; split <;> rfl
@[simp] theorem State.modGroup_failMask (s : State) (l : GroupId) (f : Group → Group) :
    (s.modGroup l f).failMask = s.failMask := by
  unfold State.modGroup; split <;> rfl
@[simp] theorem State.modGroup_nodes (s : State) (l : GroupId) (f : Group → Group) :
    (s.modGroup l f).nodes = s.nodes := by
  unfold State.modGroup; split <;> rfl
@[simp] theorem State.modGroup_news (s : State) (l : GroupId) (f : Group → Group) :
    (s.modGroup l f).news = s.news := by
  unfold State.modGroup; split <;> rfl
@[simp] theorem State.modGroup_attn (s : State) (l : GroupId) (f : Group → Group) :
    (s.modGroup l f).attn = s.attn := by
  unfold State.modGroup; split <;> rfl
@[simp] theorem State.modGroup_slots (s : State) (l : GroupId) (f : Group → Group) :
    (s.modGroup l f).slots = s.slots := by
  unfold State.modGroup; split <;> rfl
@[simp] theorem State.modGroup_intakeSeq (s : State) (l : GroupId) (f : Group → Group) :
    (s.modGroup l f).intakeSeq = s.intakeSeq := by
  unfold State.modGroup; split <;> rfl
@[simp] theorem State.modGroup_intake (s : State) (l : GroupId) (f : Group → Group) :
    (s.modGroup l f).intake = s.intake := by
  unfold State.modGroup; split <;> rfl
@[simp] theorem State.modGroup_triples (s : State) (l : GroupId) (f : Group → Group) :
    (s.modGroup l f).triples = s.triples := by
  unfold State.modGroup; split <;> rfl
@[simp] theorem State.modGroup_computing (s : State) (l : GroupId) (f : Group → Group) :
    (s.modGroup l f).computing = s.computing := by
  unfold State.modGroup; split <;> rfl
@[simp] theorem State.modGroup_results (s : State) (l : GroupId) (f : Group → Group) :
    (s.modGroup l f).results = s.results := by
  unfold State.modGroup; split <;> rfl
@[simp] theorem State.modGroup_taken (s : State) (l : GroupId) (f : Group → Group) :
    (s.modGroup l f).taken = s.taken := by
  unfold State.modGroup; split <;> rfl
@[simp] theorem State.modGroup_cuts (s : State) (l : GroupId) (f : Group → Group) :
    (s.modGroup l f).cuts = s.cuts := by
  unfold State.modGroup; split <;> rfl
@[simp] theorem State.modGroup_groups (s : State) (l : GroupId) (f : Group → Group) :
    (s.modGroup l f).groups = upd s.groups l (s.groups[l].map f) := by
  unfold State.modGroup
  split
  · next g h => rw [h]; rfl
  · next h => rw [h, Option.map_none, ← h, upd_self]

/-! ### `State.handTriple` -/

@[simp] theorem State.handTriple_pending (s : State) (t : Option Triple) : (s.handTriple t).pending = s.pending := by
  unfold State.handTriple; split <;> rfl
@[simp] theorem State.handTriple_starting (s : State) (t : Option Triple) :
    (s.handTriple t).starting = s.starting := by
  unfold State.handTriple; split <;> rfl
@[simp] theorem State.handTriple_mode (s : State) (t : Option Triple) : (s.handTriple t).mode = s.mode := by
  unfold State.handTriple; split <;> rfl
@[simp] theorem State.handTriple_request (s : State) (t : Option Triple) : (s.handTriple t).request = s.request := by
  unfold State.handTriple; split <;> rfl
@[simp] theorem State.handTriple_parkedPending (s : State) (t : Option Triple) :
    (s.handTriple t).parkedPending = s.parkedPending := by
  unfold State.handTriple; split <;> rfl
@[simp] theorem State.handTriple_park (s : State) (t : Option Triple) : (s.handTriple t).park = s.park := by
  unfold State.handTriple; split <;> rfl
@[simp] theorem State.handTriple_rotation (s : State) (t : Option Triple) :
    (s.handTriple t).rotation = s.rotation := by
  unfold State.handTriple; split <;> rfl
@[simp] theorem State.handTriple_uptime (s : State) (t : Option Triple) : (s.handTriple t).uptime = s.uptime := by
  unfold State.handTriple; split <;> rfl
@[simp] theorem State.handTriple_uptimeLatch (s : State) (t : Option Triple) :
    (s.handTriple t).uptimeLatch = s.uptimeLatch := by
  unfold State.handTriple; split <;> rfl
@[simp] theorem State.handTriple_mem (s : State) (t : Option Triple) : (s.handTriple t).mem = s.mem := by
  unfold State.handTriple; split <;> rfl
@[simp] theorem State.handTriple_err (s : State) (t : Option Triple) : (s.handTriple t).err = s.err := by
  unfold State.handTriple; split <;> rfl
@[simp] theorem State.handTriple_endPending (s : State) (t : Option Triple) :
    (s.handTriple t).endPending = s.endPending := by
  unfold State.handTriple; split <;> rfl
@[simp] theorem State.handTriple_watch (s : State) (t : Option Triple) : (s.handTriple t).watch = s.watch := by
  unfold State.handTriple; split <;> rfl
@[simp] theorem State.handTriple_sdo (s : State) (t : Option Triple) : (s.handTriple t).sdo = s.sdo := by
  unfold State.handTriple; split <;> rfl
@[simp] theorem State.handTriple_hold (s : State) (t : Option Triple) : (s.handTriple t).hold = s.hold := by
  unfold State.handTriple; split <;> rfl
@[simp] theorem State.handTriple_holdExpired (s : State) (t : Option Triple) :
    (s.handTriple t).holdExpired = s.holdExpired := by
  unfold State.handTriple; split <;> rfl
@[simp] theorem State.handTriple_nodePlan (s : State) (t : Option Triple) :
    (s.handTriple t).nodePlan = s.nodePlan := by
  unfold State.handTriple; split <;> rfl
@[simp] theorem State.handTriple_links (s : State) (t : Option Triple) : (s.handTriple t).links = s.links := by
  unfold State.handTriple; split <;> rfl
@[simp] theorem State.handTriple_wiring (s : State) (t : Option Triple) : (s.handTriple t).wiring = s.wiring := by
  unfold State.handTriple; split <;> rfl
@[simp] theorem State.handTriple_plans (s : State) (t : Option Triple) : (s.handTriple t).plans = s.plans := by
  unfold State.handTriple; split <;> rfl
@[simp] theorem State.handTriple_yields (s : State) (t : Option Triple) : (s.handTriple t).yields = s.yields := by
  unfold State.handTriple; split <;> rfl
@[simp] theorem State.handTriple_groups (s : State) (t : Option Triple) : (s.handTriple t).groups = s.groups := by
  unfold State.handTriple; split <;> rfl
@[simp] theorem State.handTriple_seqs (s : State) (t : Option Triple) : (s.handTriple t).seqs = s.seqs := by
  unfold State.handTriple; split <;> rfl
@[simp] theorem State.handTriple_safety (s : State) (t : Option Triple) : (s.handTriple t).safety = s.safety := by
  unfold State.handTriple; split <;> rfl
@[simp] theorem State.handTriple_lines (s : State) (t : Option Triple) : (s.handTriple t).lines = s.lines := by
  unfold State.handTriple; split <;> rfl
@[simp] theorem State.handTriple_cause (s : State) (t : Option Triple) : (s.handTriple t).cause = s.cause := by
  unfold State.handTriple; split <;> rfl
@[simp] theorem State.handTriple_causeChan (s : State) (t : Option Triple) :
    (s.handTriple t).causeChan = s.causeChan := by
  unfold State.handTriple; split <;> rfl
@[simp] theorem State.handTriple_failMask (s : State) (t : Option Triple) :
    (s.handTriple t).failMask = s.failMask := by
  unfold State.handTriple; split <;> rfl
@[simp] theorem State.handTriple_nodes (s : State) (t : Option Triple) : (s.handTriple t).nodes = s.nodes := by
  unfold State.handTriple; split <;> rfl
@[simp] theorem State.handTriple_news (s : State) (t : Option Triple) : (s.handTriple t).news = s.news := by
  unfold State.handTriple; split <;> rfl
@[simp] theorem State.handTriple_attn (s : State) (t : Option Triple) : (s.handTriple t).attn = s.attn := by
  unfold State.handTriple; split <;> rfl
@[simp] theorem State.handTriple_slots (s : State) (t : Option Triple) : (s.handTriple t).slots = s.slots := by
  unfold State.handTriple; split <;> rfl
@[simp] theorem State.handTriple_intakeSeq (s : State) (t : Option Triple) :
    (s.handTriple t).intakeSeq = s.intakeSeq := by
  unfold State.handTriple; split <;> rfl
@[simp] theorem State.handTriple_intake (s : State) (t : Option Triple) : (s.handTriple t).intake = s.intake := by
  unfold State.handTriple; split <;> rfl
@[simp] theorem State.handTriple_computing (s : State) (t : Option Triple) :
    (s.handTriple t).computing = s.computing := by
  unfold State.handTriple; split <;> rfl
@[simp] theorem State.handTriple_results (s : State) (t : Option Triple) : (s.handTriple t).results = s.results := by
  unfold State.handTriple; split <;> rfl
@[simp] theorem State.handTriple_taken (s : State) (t : Option Triple) : (s.handTriple t).taken = s.taken := by
  unfold State.handTriple; split <;> rfl
@[simp] theorem State.handTriple_cuts (s : State) (t : Option Triple) : (s.handTriple t).cuts = s.cuts := by
  unfold State.handTriple; split <;> rfl
@[simp] theorem State.handTriple_triples (s : State) (t : Option Triple) :
    (s.handTriple t).triples = s.triples ++ t.toList := by
  unfold State.handTriple; split <;> simp

/-! ### `Seq.clearWindow` -/

@[simp] theorem Seq.clearWindow_coupling (q : Seq) : q.clearWindow.coupling = q.coupling := rfl
@[simp] theorem Seq.clearWindow_run (q : Seq) : q.clearWindow.run = q.run := rfl
@[simp] theorem Seq.clearWindow_owner (q : Seq) : q.clearWindow.owner = q.owner := rfl
@[simp] theorem Seq.clearWindow_phase (q : Seq) : q.clearWindow.phase = q.phase := rfl
@[simp] theorem Seq.clearWindow_copy (q : Seq) : q.clearWindow.copy = q.copy := rfl
@[simp] theorem Seq.clearWindow_polarity (q : Seq) : q.clearWindow.polarity = q.polarity := rfl
@[simp] theorem Seq.clearWindow_half (q : Seq) : q.clearWindow.half = q.half := rfl
@[simp] theorem Seq.clearWindow_elapsed (q : Seq) : q.clearWindow.elapsed = q.elapsed := rfl
@[simp] theorem Seq.clearWindow_accUm (q : Seq) : q.clearWindow.accUm = 0 := rfl
@[simp] theorem Seq.clearWindow_accUb (q : Seq) : q.clearWindow.accUb = 0 := rfl
@[simp] theorem Seq.clearWindow_accCount (q : Seq) : q.clearWindow.accCount = 0 := rfl
@[simp] theorem Seq.clearWindow_accFullScale (q : Seq) : q.clearWindow.accFullScale = false := rfl
@[simp] theorem Seq.clearWindow_windows (q : Seq) : q.clearWindow.windows = q.windows := rfl
@[simp] theorem Seq.clearWindow_ready (q : Seq) : q.clearWindow.ready = q.ready := rfl
@[simp] theorem Seq.clearWindow_history (q : Seq) : q.clearWindow.history = q.history := rfl
@[simp] theorem Seq.clearWindow_latestUb (q : Seq) : q.clearWindow.latestUb = q.latestUb := rfl
@[simp] theorem Seq.clearWindow_syncTimer (q : Seq) : q.clearWindow.syncTimer = q.syncTimer := rfl
@[simp] theorem Seq.clearWindow_stopRequest (q : Seq) : q.clearWindow.stopRequest = q.stopRequest := rfl
@[simp] theorem Seq.clearWindow_lastAverage (q : Seq) : q.clearWindow.lastAverage = q.lastAverage := rfl
@[simp] theorem Seq.clearWindow_viewLatched (q : Seq) : q.clearWindow.viewLatched = q.viewLatched := rfl
@[simp] theorem Seq.clearWindow_ctx (q : Seq) : q.clearWindow.ctx = q.ctx := rfl
@[simp] theorem Seq.clearWindow_record (q : Seq) : q.clearWindow.record = q.record := rfl

/-! ### `Seq.endRun` -/

@[simp] theorem Seq.endRun_coupling (q : Seq) : q.endRun.coupling = q.coupling := rfl
@[simp] theorem Seq.endRun_run (q : Seq) : q.endRun.run = .none := rfl
@[simp] theorem Seq.endRun_owner (q : Seq) : q.endRun.owner = none := rfl
@[simp] theorem Seq.endRun_phase (q : Seq) : q.endRun.phase = .none := rfl
@[simp] theorem Seq.endRun_copy (q : Seq) : q.endRun.copy = q.copy := rfl
@[simp] theorem Seq.endRun_polarity (q : Seq) : q.endRun.polarity = q.polarity := rfl
@[simp] theorem Seq.endRun_half (q : Seq) : q.endRun.half = 0 := rfl
@[simp] theorem Seq.endRun_elapsed (q : Seq) : q.endRun.elapsed = 0 := rfl
@[simp] theorem Seq.endRun_accUm (q : Seq) : q.endRun.accUm = 0 := rfl
@[simp] theorem Seq.endRun_accUb (q : Seq) : q.endRun.accUb = 0 := rfl
@[simp] theorem Seq.endRun_accCount (q : Seq) : q.endRun.accCount = 0 := rfl
@[simp] theorem Seq.endRun_accFullScale (q : Seq) : q.endRun.accFullScale = false := rfl
@[simp] theorem Seq.endRun_windows (q : Seq) : q.endRun.windows = [] := rfl
@[simp] theorem Seq.endRun_ready (q : Seq) : q.endRun.ready = none := rfl
@[simp] theorem Seq.endRun_history (q : Seq) : q.endRun.history = [] := rfl
@[simp] theorem Seq.endRun_latestUb (q : Seq) : q.endRun.latestUb = q.latestUb := rfl
@[simp] theorem Seq.endRun_syncTimer (q : Seq) : q.endRun.syncTimer = none := rfl
@[simp] theorem Seq.endRun_stopRequest (q : Seq) : q.endRun.stopRequest = false := rfl
@[simp] theorem Seq.endRun_lastAverage (q : Seq) : q.endRun.lastAverage = 0 := rfl
@[simp] theorem Seq.endRun_viewLatched (q : Seq) : q.endRun.viewLatched = q.viewLatched := rfl
@[simp] theorem Seq.endRun_ctx (q : Seq) : q.endRun.ctx = q.ctx := rfl
@[simp] theorem Seq.endRun_record (q : Seq) : q.endRun.record = q.record := rfl

/-! ### `Seq.beginHalf` -/

@[simp] theorem Seq.beginHalf_coupling (q : Seq) (pol : Polarity) : (q.beginHalf pol).coupling = q.coupling := rfl
@[simp] theorem Seq.beginHalf_run (q : Seq) (pol : Polarity) : (q.beginHalf pol).run = q.run := rfl
@[simp] theorem Seq.beginHalf_owner (q : Seq) (pol : Polarity) : (q.beginHalf pol).owner = q.owner := rfl
@[simp] theorem Seq.beginHalf_phase (q : Seq) (pol : Polarity) :
    (q.beginHalf pol).phase = if q.copy.plan.blank = 0 then .settleTest else .blanking := rfl
@[simp] theorem Seq.beginHalf_copy (q : Seq) (pol : Polarity) : (q.beginHalf pol).copy = q.copy := rfl
@[simp] theorem Seq.beginHalf_polarity (q : Seq) (pol : Polarity) : (q.beginHalf pol).polarity = pol := rfl
@[simp] theorem Seq.beginHalf_half (q : Seq) (pol : Polarity) : (q.beginHalf pol).half = q.half := rfl
@[simp] theorem Seq.beginHalf_elapsed (q : Seq) (pol : Polarity) : (q.beginHalf pol).elapsed = 0 := rfl
@[simp] theorem Seq.beginHalf_accUm (q : Seq) (pol : Polarity) : (q.beginHalf pol).accUm = 0 := rfl
@[simp] theorem Seq.beginHalf_accUb (q : Seq) (pol : Polarity) : (q.beginHalf pol).accUb = 0 := rfl
@[simp] theorem Seq.beginHalf_accCount (q : Seq) (pol : Polarity) : (q.beginHalf pol).accCount = 0 := rfl
@[simp] theorem Seq.beginHalf_accFullScale (q : Seq) (pol : Polarity) : (q.beginHalf pol).accFullScale = false := rfl
@[simp] theorem Seq.beginHalf_windows (q : Seq) (pol : Polarity) : (q.beginHalf pol).windows = [] := rfl
@[simp] theorem Seq.beginHalf_ready (q : Seq) (pol : Polarity) : (q.beginHalf pol).ready = none := rfl
@[simp] theorem Seq.beginHalf_history (q : Seq) (pol : Polarity) : (q.beginHalf pol).history = q.history := rfl
@[simp] theorem Seq.beginHalf_latestUb (q : Seq) (pol : Polarity) : (q.beginHalf pol).latestUb = q.latestUb := rfl
@[simp] theorem Seq.beginHalf_syncTimer (q : Seq) (pol : Polarity) : (q.beginHalf pol).syncTimer = none := rfl
@[simp] theorem Seq.beginHalf_stopRequest (q : Seq) (pol : Polarity) :
    (q.beginHalf pol).stopRequest = q.stopRequest := rfl
@[simp] theorem Seq.beginHalf_lastAverage (q : Seq) (pol : Polarity) :
    (q.beginHalf pol).lastAverage = q.lastAverage := rfl
@[simp] theorem Seq.beginHalf_viewLatched (q : Seq) (pol : Polarity) :
    (q.beginHalf pol).viewLatched = q.viewLatched := rfl
@[simp] theorem Seq.beginHalf_ctx (q : Seq) (pol : Polarity) : (q.beginHalf pol).ctx = q.ctx := rfl
@[simp] theorem Seq.beginHalf_record (q : Seq) (pol : Polarity) : (q.beginHalf pol).record = q.record := rfl

/-! ### `Seq.setUp` -/

@[simp] theorem Seq.setUp_coupling (q : Seq) (kind : RunKind) (owner : Option SlotId) (copy : RunCopy) :
    (q.setUp kind owner copy).coupling = q.coupling := rfl
@[simp] theorem Seq.setUp_run (q : Seq) (kind : RunKind) (owner : Option SlotId) (copy : RunCopy) :
    (q.setUp kind owner copy).run = kind := rfl
@[simp] theorem Seq.setUp_owner (q : Seq) (kind : RunKind) (owner : Option SlotId) (copy : RunCopy) :
    (q.setUp kind owner copy).owner = owner := rfl
@[simp] theorem Seq.setUp_phase (q : Seq) (kind : RunKind) (owner : Option SlotId) (copy : RunCopy) :
    (q.setUp kind owner copy).phase = .waitAttach := rfl
@[simp] theorem Seq.setUp_copy (q : Seq) (kind : RunKind) (owner : Option SlotId) (copy : RunCopy) :
    (q.setUp kind owner copy).copy = copy := rfl
@[simp] theorem Seq.setUp_polarity (q : Seq) (kind : RunKind) (owner : Option SlotId) (copy : RunCopy) :
    (q.setUp kind owner copy).polarity = q.polarity := rfl
@[simp] theorem Seq.setUp_half (q : Seq) (kind : RunKind) (owner : Option SlotId) (copy : RunCopy) :
    (q.setUp kind owner copy).half = if kind = .series then 0 else 1 := rfl
@[simp] theorem Seq.setUp_elapsed (q : Seq) (kind : RunKind) (owner : Option SlotId) (copy : RunCopy) :
    (q.setUp kind owner copy).elapsed = 0 := rfl
@[simp] theorem Seq.setUp_accUm (q : Seq) (kind : RunKind) (owner : Option SlotId) (copy : RunCopy) :
    (q.setUp kind owner copy).accUm = 0 := rfl
@[simp] theorem Seq.setUp_accUb (q : Seq) (kind : RunKind) (owner : Option SlotId) (copy : RunCopy) :
    (q.setUp kind owner copy).accUb = 0 := rfl
@[simp] theorem Seq.setUp_accCount (q : Seq) (kind : RunKind) (owner : Option SlotId) (copy : RunCopy) :
    (q.setUp kind owner copy).accCount = 0 := rfl
@[simp] theorem Seq.setUp_accFullScale (q : Seq) (kind : RunKind) (owner : Option SlotId) (copy : RunCopy) :
    (q.setUp kind owner copy).accFullScale = false := rfl
@[simp] theorem Seq.setUp_windows (q : Seq) (kind : RunKind) (owner : Option SlotId) (copy : RunCopy) :
    (q.setUp kind owner copy).windows = [] := rfl
@[simp] theorem Seq.setUp_ready (q : Seq) (kind : RunKind) (owner : Option SlotId) (copy : RunCopy) :
    (q.setUp kind owner copy).ready = none := rfl
@[simp] theorem Seq.setUp_history (q : Seq) (kind : RunKind) (owner : Option SlotId) (copy : RunCopy) :
    (q.setUp kind owner copy).history = [] := rfl
@[simp] theorem Seq.setUp_latestUb (q : Seq) (kind : RunKind) (owner : Option SlotId) (copy : RunCopy) :
    (q.setUp kind owner copy).latestUb = q.latestUb := rfl
@[simp] theorem Seq.setUp_syncTimer (q : Seq) (kind : RunKind) (owner : Option SlotId) (copy : RunCopy) :
    (q.setUp kind owner copy).syncTimer = none := rfl
@[simp] theorem Seq.setUp_stopRequest (q : Seq) (kind : RunKind) (owner : Option SlotId) (copy : RunCopy) :
    (q.setUp kind owner copy).stopRequest = false := rfl
@[simp] theorem Seq.setUp_lastAverage (q : Seq) (kind : RunKind) (owner : Option SlotId) (copy : RunCopy) :
    (q.setUp kind owner copy).lastAverage = 0 := rfl
@[simp] theorem Seq.setUp_viewLatched (q : Seq) (kind : RunKind) (owner : Option SlotId) (copy : RunCopy) :
    (q.setUp kind owner copy).viewLatched = q.viewLatched := rfl
@[simp] theorem Seq.setUp_ctx (q : Seq) (kind : RunKind) (owner : Option SlotId) (copy : RunCopy) :
    (q.setUp kind owner copy).ctx = if kind ≠ .selfcheck ∧ q.ctx = .none then .idle else q.ctx := rfl
@[simp] theorem Seq.setUp_record (q : Seq) (kind : RunKind) (owner : Option SlotId) (copy : RunCopy) :
    (q.setUp kind owner copy).record = q.record := rfl

/-! ### `Seq.closeWindow` -/

@[simp] theorem Seq.closeWindow_coupling (q : Seq) : q.closeWindow.coupling = q.coupling := rfl
@[simp] theorem Seq.closeWindow_run (q : Seq) : q.closeWindow.run = q.run := rfl
@[simp] theorem Seq.closeWindow_owner (q : Seq) : q.closeWindow.owner = q.owner := rfl
@[simp] theorem Seq.closeWindow_phase (q : Seq) : q.closeWindow.phase = q.phase := rfl
@[simp] theorem Seq.closeWindow_copy (q : Seq) : q.closeWindow.copy = q.copy := rfl
@[simp] theorem Seq.closeWindow_polarity (q : Seq) : q.closeWindow.polarity = q.polarity := rfl
@[simp] theorem Seq.closeWindow_half (q : Seq) : q.closeWindow.half = q.half := rfl
@[simp] theorem Seq.closeWindow_elapsed (q : Seq) : q.closeWindow.elapsed = q.elapsed := rfl
@[simp] theorem Seq.closeWindow_accUm (q : Seq) : q.closeWindow.accUm = 0 := rfl
@[simp] theorem Seq.closeWindow_accUb (q : Seq) : q.closeWindow.accUb = 0 := rfl
@[simp] theorem Seq.closeWindow_accCount (q : Seq) : q.closeWindow.accCount = 0 := rfl
@[simp] theorem Seq.closeWindow_accFullScale (q : Seq) : q.closeWindow.accFullScale = false := rfl
@[simp] theorem Seq.closeWindow_ready (q : Seq) : q.closeWindow.ready = q.ready := rfl
@[simp] theorem Seq.closeWindow_history (q : Seq) : q.closeWindow.history = q.history := rfl
@[simp] theorem Seq.closeWindow_latestUb (q : Seq) : q.closeWindow.latestUb = q.latestUb := rfl
@[simp] theorem Seq.closeWindow_syncTimer (q : Seq) : q.closeWindow.syncTimer = q.syncTimer := rfl
@[simp] theorem Seq.closeWindow_stopRequest (q : Seq) : q.closeWindow.stopRequest = q.stopRequest := rfl
@[simp] theorem Seq.closeWindow_viewLatched (q : Seq) : q.closeWindow.viewLatched = q.viewLatched := rfl
@[simp] theorem Seq.closeWindow_ctx (q : Seq) : q.closeWindow.ctx = q.ctx := rfl
@[simp] theorem Seq.closeWindow_record (q : Seq) : q.closeWindow.record = q.record := rfl

end Sys2Proof.Machine
end

