-- ==== Sys2Proof/Laws/Attention.lean ====
section
/-! SUPPORT. The attention controller: what a raise, a followed fact, a POLL and an END do to the three sets. -/

namespace Sys2Proof.Machine

theorem has8_bit8 (n m : Nat) (hn : n < 8) (hm : m < 8) : has8 (bit8 n) m = decide (n = m) := by
  unfold has8 bit8
  rw [BitVec.getLsbD_shiftLeft, BitVec.getLsbD_one]
  by_cases h : n = m
  · subst h; simp [hn]
  · simp only [decide_eq_false h]
    by_cases h2 : m < n
    · simp [h2]
    · have : m - n ≠ 0 := by omega
      simp [this]

theorem has8_or (v w : BitVec 8) (n : Nat) : has8 (v ||| w) n = (has8 v n || has8 w n) := BitVec.getLsbD_or

theorem has8_and (v w : BitVec 8) (n : Nat) : has8 (v &&& w) n = (has8 v n && has8 w n) := BitVec.getLsbD_and

theorem has8_not (v : BitVec 8) (n : Nat) (hn : n < 8) : has8 (~~~v) n = !has8 v n := by
  unfold has8; rw [BitVec.getLsbD_not]; simp [hn]

theorem has8_add (v : BitVec 8) (n m : Nat) (hn : n < 8) (hm : m < 8) :
    has8 (v ||| bit8 n) m = (has8 v m || decide (n = m)) := by rw [has8_or, has8_bit8 n m hn hm]

theorem has8_remove (v : BitVec 8) (n m : Nat) (hn : n < 8) (hm : m < 8) :
    has8 (v &&& ~~~bit8 n) m = (has8 v m && !decide (n = m)) := by
  rw [has8_and, has8_not _ _ hm, has8_bit8 n m hn hm]

/-- Two sets with the same members below 8 are equal. -/
theorem has8_ext {v w : BitVec 8} (h : ∀ n, n < 8 → has8 v n = has8 w n) : v = w :=
  BitVec.eq_of_getLsbD_eq fun n hn => h n hn

theorem mem_levels (n : Level) : n ∈ allNodes := by revert n; decide

/-- The top level of a set is a member, and no member is of higher priority. -/
theorem topLevel_some {v : BitVec 8} {n : Level} (h : topLevel v = some n) :
    has8 v n.val = true ∧ ∀ m : Level, has8 v m.val = true → n ≤ m := by
  unfold topLevel at h
  obtain ⟨hn, before, after, hl, hb⟩ := List.find?_eq_some_iff_append.mp h
  refine ⟨hn, fun m hm => ?_⟩
  have hord : allNodes.Pairwise (· ≤ ·) := by decide
  have hmem := mem_levels m
  rw [hl] at hord hmem
  rcases List.mem_append.mp hmem with hmb | hma
  · have := hb m hmb; rw [hm] at this; cases this
  · rcases List.mem_cons.mp hma with rfl | hma
    · exact le_refl _
    · exact List.rel_of_pairwise_cons (List.pairwise_append.mp hord).2.1 hma

/-- A set without a top level is empty. -/
theorem topLevel_none {v : BitVec 8} (h : topLevel v = none) (m : Level) : has8 v m.val = false := by
  have := List.find?_eq_none.mp h m (mem_levels m)
  exact Bool.eq_false_iff.mpr this

/-- ATTN is asserted exactly when an unmasked pending level is above every level in service (R171). -/
theorem attnAsserted_iff (a : Attn) : attnAsserted a = true ↔
    ∃ n : Level, has8 (a.pending &&& ~~~a.mask) n.val = true ∧ ∀ m : Level, has8 a.inService m.val = true → n < m := by
  unfold attnAsserted
  cases hp : topLevel (a.pending &&& ~~~a.mask) with
  | none =>
    simp only [Bool.false_eq_true, false_iff, not_exists]
    rintro n ⟨h, _⟩
    rw [topLevel_none hp n] at h; cases h
  | some p =>
    obtain ⟨h1, h2⟩ := topLevel_some hp
    cases hq : topLevel a.inService with
    | none =>
      simp only [true_iff]
      exact ⟨p, h1, fun m hm => by rw [topLevel_none hq m] at hm; cases hm⟩
    | some q =>
      obtain ⟨h3, h4⟩ := topLevel_some hq
      simp only [decide_eq_true_eq]
      constructor
      · intro h; exact ⟨p, h1, fun m hm => lt_of_lt_of_le h (h4 m hm)⟩
      · rintro ⟨n, hn, hm⟩; exact lt_of_le_of_lt (h2 n hn) (hm q h3)

/-- What a POLL does: nothing and 0x0F, or the top unmasked pending level moved into service (R172). -/
theorem poll_spec (a : Attn) :
    (topLevel (a.pending &&& ~~~a.mask) = none ∧ a.poll = (0x0F, a)) ∨
    ∃ n : Level, topLevel (a.pending &&& ~~~a.mask) = some n ∧
      a.poll = (byteOf n.val, { a with pending := a.pending &&& ~~~bit8 n.val, inService := a.inService ||| bit8 n.val }) := by
  unfold Attn.poll
  cases topLevel (a.pending &&& ~~~a.mask) with
  | none => exact .inl ⟨rfl, rfl⟩
  | some n => exact .inr ⟨n, rfl, rfl⟩

/-- What an END does: a level in service leaves it, and pends again by its fact; any other END does nothing (R173). -/
theorem endLevel_spec (a : Attn) (n : Level) :
    (has8 a.inService n.val = false ∧ a.endLevel n = a) ∨
    (has8 a.inService n.val = true ∧
      a.endLevel n =
        { a with
          inService := a.inService &&& ~~~bit8 n.val
          pending := if a.fact n then a.pending ||| bit8 n.val else a.pending }) := by
  unfold Attn.endLevel Attn.raise
  cases h : has8 a.inService n.val with
  | false => exact .inl ⟨rfl, rfl⟩
  | true => refine .inr ⟨rfl, ?_⟩; simp only [if_true]; split <;> rfl

@[simp] theorem raise_inService (a : Attn) (n : Nat) : (a.raise n).inService = a.inService := rfl
@[simp] theorem raise_mask (a : Attn) (n : Nat) : (a.raise n).mask = a.mask := rfl
@[simp] theorem raise_safeStopFact (a : Attn) (n : Nat) : (a.raise n).safeStopFact = a.safeStopFact := rfl
@[simp] theorem raise_faultFact (a : Attn) (n : Nat) : (a.raise n).faultFact = a.faultFact := rfl

/-- A followed fact changes the pending set alone (R170). -/
theorem follow_frame (a : Attn) (n : Nat) (fact : Bool) :
    (a.follow n fact).inService = a.inService ∧ (a.follow n fact).mask = a.mask
      ∧ (a.follow n fact).safeStopFact = a.safeStopFact ∧ (a.follow n fact).faultFact = a.faultFact := by
  unfold Attn.follow; split
  · exact ⟨rfl, rfl, rfl, rfl⟩
  · split <;> exact ⟨rfl, rfl, rfl, rfl⟩

end Sys2Proof.Machine
end

