-- ==== Sys2Proof/Laws/Memory.lean ====
section
/-! SUPPORT. The laws of the exchange memory: a read after a write, the canonical form kept by every operation,
and equal contents as equal data. -/

namespace Sys2Proof.Machine

/-! ### Reads -/

@[simp] theorem Memory.read_nil (a : Nat) : Memory.read [] a = 0 := rfl

theorem Memory.read_cons (k : Nat) (v : Byte) (m : Memory) (a : Nat) :
    Memory.read ((k, v) :: m) a = if k = a then v else Memory.read m a := rfl

/-- An address that no entry has reads 0x00. -/
theorem Memory.read_absent : ∀ (m : Memory) (a : Nat), (∀ c ∈ m, c.1 ≠ a) → m.read a = 0
  | [], _, _ => rfl
  | (k, v) :: rest, a, h => by
    rw [Memory.read_cons, if_neg (h (k, v) List.mem_cons_self)]
    exact Memory.read_absent rest a fun c hc => h c (List.mem_cons_of_mem _ hc)

theorem Memory.read_filter_other : ∀ (m : Memory) (a b : Nat), b ≠ a →
    Memory.read (m.filter (fun c => c.1 ≠ a)) b = m.read b
  | [], _, _, _ => rfl
  | (k, v) :: rest, a, b, h => by
    have ih := Memory.read_filter_other rest a b h
    by_cases hk : k = a
    · subst hk
      rw [List.filter_cons_of_neg (by simp), ih, Memory.read_cons, if_neg (Ne.symm h)]
    · rw [List.filter_cons_of_pos (by simpa using hk), Memory.read_cons, Memory.read_cons, ih]

theorem Memory.mem_insert : ∀ (m : Memory) (a : Nat) (v : Byte) (c : Host.Cell),
    c ∈ m.insert a v ↔ c = (a, v) ∨ c ∈ m
  | [], a, v, c => by simp [Memory.insert]
  | (k, w) :: rest, a, v, c => by
    unfold Memory.insert
    split
    · simp
    · rw [List.mem_cons, Memory.mem_insert rest a v c, List.mem_cons]
      constructor
      · rintro (h | h | h)
        · exact .inr (.inl h)
        · exact .inl h
        · exact .inr (.inr h)
      · rintro (h | h | h)
        · exact .inr (.inl h)
        · exact .inl h
        · exact .inr (.inr h)

theorem Memory.read_insert_same : ∀ (m : Memory) (a : Nat) (v : Byte), (∀ c ∈ m, c.1 ≠ a) →
    (m.insert a v).read a = v
  | [], a, v, _ => by simp [Memory.insert, Memory.read_cons]
  | (k, w) :: rest, a, v, h => by
    unfold Memory.insert
    split
    · simp [Memory.read_cons]
    · rw [Memory.read_cons, if_neg (h (k, w) List.mem_cons_self)]
      exact Memory.read_insert_same rest a v fun c hc => h c (List.mem_cons_of_mem _ hc)

theorem Memory.read_insert_other : ∀ (m : Memory) (a b : Nat) (v : Byte), b ≠ a →
    (m.insert a v).read b = m.read b
  | [], a, b, v, h => by simp [Memory.insert, Memory.read_cons, Ne.symm h]
  | (k, w) :: rest, a, b, v, h => by
    unfold Memory.insert
    split
    · rw [Memory.read_cons a, if_neg (Ne.symm h)]
    · rw [Memory.read_cons, Memory.read_cons, Memory.read_insert_other rest a b v h]

theorem Memory.filter_absent (m : Memory) (a : Nat) : ∀ c ∈ m.filter (fun c => c.1 ≠ a), c.1 ≠ a :=
  fun c hc => by simpa using (List.mem_filter.mp hc).2

/-- What one write does to every address. -/
theorem Memory.read_write (m : Memory) (a : Nat) (v : Byte) (b : Nat) :
    (m.write a v).read b = if b = a then v else m.read b := by
  unfold Memory.write
  by_cases hb : b = a
  · subst hb
    rw [if_pos rfl]
    split
    · next h => rw [h]; exact Memory.read_absent _ _ (Memory.filter_absent m b)
    · exact Memory.read_insert_same _ _ _ (Memory.filter_absent m b)
  · rw [if_neg hb]
    split
    · exact Memory.read_filter_other m a b hb
    · rw [Memory.read_insert_other _ _ _ _ hb, Memory.read_filter_other m a b hb]

@[simp] theorem Memory.read_write_same (m : Memory) (a : Nat) (v : Byte) : (m.write a v).read a = v := by
  rw [Memory.read_write, if_pos rfl]

theorem Memory.read_write_other (m : Memory) (a b : Nat) (v : Byte) (h : b ≠ a) :
    (m.write a v).read b = m.read b := by
  rw [Memory.read_write, if_neg h]

/-- What a write of consecutive bytes does to every address. -/
theorem Memory.read_writeBytes : ∀ (bs : List Byte) (m : Memory) (a b : Nat),
    (m.writeBytes a bs).read b = if a ≤ b ∧ b < a + bs.length then bs.getD (b - a) 0 else m.read b
  | [], m, a, b => by
    rw [if_neg (by simp)]; rfl
  | x :: rest, m, a, b => by
    rw [Memory.writeBytes, Memory.read_writeBytes rest, Memory.read_write]
    by_cases h : b = a
    · subst h
      simp
    · by_cases h2 : a + 1 ≤ b ∧ b < a + 1 + rest.length
      · rw [if_pos h2, if_pos (by simp; omega)]
        have : b - a = (b - (a + 1)) + 1 := by omega
        rw [this]; simp
      · rw [if_neg h2, if_neg h, if_neg (by simp; omega)]

/-- Outside the bytes written a read is as before. -/
theorem Memory.read_writeBytes_other (bs : List Byte) (m : Memory) (a b : Nat) (h : b < a ∨ a + bs.length ≤ b) :
    (m.writeBytes a bs).read b = m.read b := by
  rw [Memory.read_writeBytes, if_neg (by omega)]

/-! ### The canonical form -/

/-- The canonical form in the library's words. -/
theorem Memory.wf_iff : ∀ m : Memory,
    m.wf = true ↔ m.Pairwise (fun c d => c.1 < d.1) ∧ ∀ c ∈ m, c.2 ≠ 0
  | [] => by simp [Memory.wf]
  | [c] => by simp [Memory.wf]
  | c :: d :: rest => by
    have ih := Memory.wf_iff (d :: rest)
    rw [Memory.wf, Bool.and_eq_true, Bool.and_eq_true, ih, bne_iff_ne, decide_eq_true_eq]
    constructor
    · rintro ⟨⟨h1, h2⟩, h3, h4⟩
      refine ⟨List.pairwise_cons.mpr ⟨fun e he => ?_, h3⟩, fun e he => ?_⟩
      · rcases List.mem_cons.mp he with rfl | he
        · exact h2
        · exact lt_trans h2 ((List.pairwise_cons.mp h3).1 e he)
      · rcases List.mem_cons.mp he with rfl | he
        · exact h1
        · exact h4 e he
    · rintro ⟨h1, h2⟩
      obtain ⟨h3, h4⟩ := List.pairwise_cons.mp h1
      exact ⟨⟨h2 c List.mem_cons_self, h3 d List.mem_cons_self⟩, h4, fun e he => h2 e (List.mem_cons_of_mem _ he)⟩

theorem Memory.wf_filter (m : Memory) (p : Host.Cell → Bool) (h : m.wf = true) :
    Memory.wf (m.filter p) = true := by
  rw [Memory.wf_iff] at h ⊢
  exact ⟨h.1.filter p, fun c hc => h.2 c (List.mem_filter.mp hc).1⟩

theorem Memory.wf_insert : ∀ (m : Memory) (a : Nat) (v : Byte), (∀ c ∈ m, c.1 ≠ a) → v ≠ 0 → m.wf = true →
    Memory.wf (m.insert a v) = true
  | [], a, v, _, hv, _ => bne_iff_ne.mpr hv
  | (k, w) :: rest, a, v, ha, hv, h => by
    rw [Memory.wf_iff] at h
    obtain ⟨hp, hz⟩ := h
    obtain ⟨hk, hr⟩ := List.pairwise_cons.mp hp
    have hka : k ≠ a := ha (k, w) List.mem_cons_self
    unfold Memory.insert
    split
    · next hlt =>
      rw [Memory.wf_iff]
      refine ⟨List.pairwise_cons.mpr ⟨fun c hc => ?_, hp⟩, fun c hc => ?_⟩
      · rcases List.mem_cons.mp hc with rfl | hc
        · exact hlt
        · exact lt_trans hlt (hk c hc)
      · rcases List.mem_cons.mp hc with rfl | hc
        · exact hv
        · exact hz c hc
    · next hge =>
      have ih := Memory.wf_insert rest a v (fun c hc => ha c (List.mem_cons_of_mem _ hc)) hv
        ((Memory.wf_iff rest).mpr ⟨hr, fun c hc => hz c (List.mem_cons_of_mem _ hc)⟩)
      rw [Memory.wf_iff] at ih ⊢
      refine ⟨List.pairwise_cons.mpr ⟨fun c hc => ?_, ih.1⟩, fun c hc => ?_⟩
      · rcases (Memory.mem_insert rest a v c).mp hc with rfl | hc
        · show k < a; omega
        · exact hk c hc
      · rcases List.mem_cons.mp hc with rfl | hc
        · exact hz _ List.mem_cons_self
        · exact ih.2 c hc

/-- A write keeps the canonical form. -/
theorem Memory.wf_write (m : Memory) (a : Nat) (v : Byte) (h : m.wf = true) : (m.write a v).wf = true := by
  unfold Memory.write
  split
  · exact Memory.wf_filter m _ h
  · next hv => exact Memory.wf_insert _ a v (Memory.filter_absent m a) hv (Memory.wf_filter m _ h)

/-- A write of consecutive bytes keeps the canonical form. -/
theorem Memory.wf_writeBytes : ∀ (bs : List Byte) (m : Memory) (a : Nat), m.wf = true →
    (m.writeBytes a bs).wf = true
  | [], _, _, h => h
  | b :: rest, m, a, h => Memory.wf_writeBytes rest (m.write a b) (a + 1) (Memory.wf_write m a b h)

/-- The memory after reset has the canonical form. -/
theorem Memory.wf_reset : Memory.wf State.reset.mem = true := rfl

theorem Memory.read_eq_of_mem : ∀ (m : Memory), m.Pairwise (fun c d => c.1 < d.1) → ∀ c ∈ m, m.read c.1 = c.2
  | [], _, _, hc => absurd hc (by simp)
  | (k, w) :: rest, h, c, hc => by
    obtain ⟨hk, hr⟩ := List.pairwise_cons.mp h
    rcases List.mem_cons.mp hc with rfl | hc
    · simp [Memory.read_cons]
    · rw [Memory.read_cons, if_neg (Nat.ne_of_lt (hk c hc)), Memory.read_eq_of_mem rest hr c hc]

theorem Memory.mem_of_read {m : Memory} {a : Nat} (h : m.read a ≠ 0) : (a, m.read a) ∈ m := by
  induction m with
  | nil => exact absurd rfl h
  | cons c rest ih =>
    obtain ⟨k, w⟩ := c
    rw [Memory.read_cons] at h ⊢
    split at h
    · next hk => subst hk; simp
    · next hk => rw [if_neg hk]; exact List.mem_cons_of_mem _ (ih h)

/-- Two memories in canonical form that read alike are equal data. -/
theorem Memory.eq_of_read {m m' : Memory} (h : m.wf = true) (h' : m'.wf = true)
    (hr : ∀ a, m.read a = m'.read a) : m = m' := by
  rw [Memory.wf_iff] at h h'
  have sub : ∀ {x y : Memory}, x.Pairwise (fun c d => c.1 < d.1) → (∀ c ∈ x, c.2 ≠ 0) →
      (∀ a, x.read a = y.read a) → ∀ c ∈ x, c ∈ y := by
    intro x y hp hz he c hc
    have hv := Memory.read_eq_of_mem x hp c hc
    rw [he] at hv
    have := Memory.mem_of_read (m := y) (a := c.1) (by rw [hv]; exact hz c hc)
    rwa [hv] at this
  have hperm : m.Perm m' := by
    refine (List.perm_ext_iff_of_nodup ?_ ?_).mpr fun c => ⟨sub h.1 h.2 hr c, sub h'.1 h'.2 (fun a => (hr a).symm) c⟩
    · exact h.1.imp fun hlt heq => by rw [heq] at hlt; exact lt_irrefl _ hlt
    · exact h'.1.imp fun hlt heq => by rw [heq] at hlt; exact lt_irrefl _ hlt
  exact hperm.eq_of_pairwise (fun a b _ _ hab hba => absurd (lt_trans hab hba) (lt_irrefl _)) h.1 h'.1

end Sys2Proof.Machine
end

