-- ==== Sys2Proof/Laws/Frames.lean ====
section
/-! SUPPORT. What measuring can do: one relation between the states before and after any operation of the topology
unit, the scheduler, the order unit and the sequencers, proved once for each of them. -/

namespace Sys2Proof.Machine

/-! ### The relation -/

theorem ChanStep.refl (stop : Prop) (q : Seq) (x : ChanSafety) : ChanStep stop q q x x :=
  ⟨rfl, rfl, rfl, .inl rfl, rfl, rfl, rfl, rfl, id, fun _ => id, id⟩

theorem ChanStep.trans {stop stop' : Prop} {q q' q'' : Seq} {x x' x'' : ChanSafety} (hs : stop → stop')
    (h : ChanStep stop q q' x x') (k : ChanStep stop' q' q'' x' x'') : ChanStep stop q q'' x x'' where
  record := k.record.trans h.record
  viewLatched := k.viewLatched.trans h.viewLatched
  latestUb := k.latestUb.trans h.latestUb
  ctx := by
    rcases h.ctx with h1 | ⟨h1, h2⟩ <;> rcases k.ctx with k1 | ⟨k1, k2⟩
    · exact .inl (k1.trans h1)
    · exact .inr ⟨h1 ▸ k1, k2⟩
    · exact .inr ⟨h1, k1.trans h2⟩
    · exact .inr ⟨h1, k2⟩
  health := k.health.trans h.health
  disconnected := k.disconnected.trans h.disconnected
  discMask := k.discMask.trans h.discMask
  discMode := k.discMode.trans h.discMode
  apart := fun a => k.apart (h.apart a)
  quiet := fun a b => k.quiet (hs a) (h.quiet a b)
  resting := fun a => k.resting (h.resting a)

theorem Measuring.refl (s : State) : Measuring s s :=
  ⟨rfl, Iff.rfl, fun _ => id, fun _ => id, fun h => ⟨rfl, h⟩, fun _ _ => rfl, id, fun _ => ChanStep.refl _ _ _⟩

theorem Measuring.trans {s t u : State} (h : Measuring s t) (k : Measuring t u) : Measuring s u where
  fixed := k.fixed.trans h.fixed
  mode := k.mode.trans h.mode
  pending := fun n a => k.pending n (h.pending n a)
  done := fun n a => k.done n (h.done n a)
  calm := fun a => by
    obtain ⟨h1, h2⟩ := h.calm a; obtain ⟨k1, k2⟩ := k.calm h2
    exact ⟨k1.trans h1, k2⟩
  memory := fun a ha => (k.memory a ha).trans (h.memory a ha)
  canonical := fun a => k.canonical (h.canonical a)
  chan := fun c => (h.chan c).trans h.mode.mpr (k.chan c)

/-! ### What measuring leaves -/

theorem Measuring.pending_eq {s t : State} (h : Measuring s t) : t.pending = s.pending :=
  (congrArg State.pending h.fixed : t.fixed.pending = s.fixed.pending)
theorem Measuring.starting_eq {s t : State} (h : Measuring s t) : t.starting = s.starting :=
  (congrArg State.starting h.fixed : t.fixed.starting = s.fixed.starting)
theorem Measuring.request_eq {s t : State} (h : Measuring s t) : t.request = s.request :=
  (congrArg State.request h.fixed : t.fixed.request = s.fixed.request)
theorem Measuring.uptime_eq {s t : State} (h : Measuring s t) : t.uptime = s.uptime :=
  (congrArg State.uptime h.fixed : t.fixed.uptime = s.fixed.uptime)
theorem Measuring.uptimeLatch_eq {s t : State} (h : Measuring s t) : t.uptimeLatch = s.uptimeLatch :=
  (congrArg State.uptimeLatch h.fixed : t.fixed.uptimeLatch = s.fixed.uptimeLatch)
theorem Measuring.err_eq {s t : State} (h : Measuring s t) : t.err = s.err :=
  (congrArg State.err h.fixed : t.fixed.err = s.fixed.err)
theorem Measuring.endPending_eq {s t : State} (h : Measuring s t) : t.endPending = s.endPending :=
  (congrArg State.endPending h.fixed : t.fixed.endPending = s.fixed.endPending)
theorem Measuring.watch_eq {s t : State} (h : Measuring s t) : t.watch = s.watch :=
  (congrArg State.watch h.fixed : t.fixed.watch = s.fixed.watch)
theorem Measuring.sdo_eq {s t : State} (h : Measuring s t) : t.sdo = s.sdo :=
  (congrArg State.sdo h.fixed : t.fixed.sdo = s.fixed.sdo)
theorem Measuring.hold_eq {s t : State} (h : Measuring s t) : t.hold = s.hold :=
  (congrArg State.hold h.fixed : t.fixed.hold = s.fixed.hold)
theorem Measuring.holdExpired_eq {s t : State} (h : Measuring s t) : t.holdExpired = s.holdExpired :=
  (congrArg State.holdExpired h.fixed : t.fixed.holdExpired = s.fixed.holdExpired)
theorem Measuring.nodePlan_eq {s t : State} (h : Measuring s t) : t.nodePlan = s.nodePlan :=
  (congrArg State.nodePlan h.fixed : t.fixed.nodePlan = s.fixed.nodePlan)
theorem Measuring.links_eq {s t : State} (h : Measuring s t) : t.links = s.links :=
  (congrArg State.links h.fixed : t.fixed.links = s.fixed.links)
theorem Measuring.wiring_eq {s t : State} (h : Measuring s t) : t.wiring = s.wiring :=
  (congrArg State.wiring h.fixed : t.fixed.wiring = s.fixed.wiring)
theorem Measuring.plans_eq {s t : State} (h : Measuring s t) : t.plans = s.plans :=
  (congrArg State.plans h.fixed : t.fixed.plans = s.fixed.plans)
theorem Measuring.yields_eq {s t : State} (h : Measuring s t) : t.yields = s.yields :=
  (congrArg State.yields h.fixed : t.fixed.yields = s.fixed.yields)
theorem Measuring.lines_eq {s t : State} (h : Measuring s t) : t.lines = s.lines :=
  (congrArg State.lines h.fixed : t.fixed.lines = s.fixed.lines)
theorem Measuring.cause_eq {s t : State} (h : Measuring s t) : t.cause = s.cause :=
  (congrArg State.cause h.fixed : t.fixed.cause = s.fixed.cause)
theorem Measuring.causeChan_eq {s t : State} (h : Measuring s t) : t.causeChan = s.causeChan :=
  (congrArg State.causeChan h.fixed : t.fixed.causeChan = s.fixed.causeChan)
theorem Measuring.failMask_eq {s t : State} (h : Measuring s t) : t.failMask = s.failMask :=
  (congrArg State.failMask h.fixed : t.fixed.failMask = s.fixed.failMask)
theorem Measuring.nodes_eq {s t : State} (h : Measuring s t) : t.nodes = s.nodes :=
  (congrArg State.nodes h.fixed : t.fixed.nodes = s.fixed.nodes)
theorem Measuring.intakeSeq_eq {s t : State} (h : Measuring s t) : t.intakeSeq = s.intakeSeq :=
  (congrArg State.intakeSeq h.fixed : t.fixed.intakeSeq = s.fixed.intakeSeq)
theorem Measuring.triples_eq {s t : State} (h : Measuring s t) : t.triples = s.triples :=
  (congrArg State.triples h.fixed : t.fixed.triples = s.fixed.triples)
theorem Measuring.computing_eq {s t : State} (h : Measuring s t) : t.computing = s.computing :=
  (congrArg State.computing h.fixed : t.fixed.computing = s.fixed.computing)
theorem Measuring.results_eq {s t : State} (h : Measuring s t) : t.results = s.results :=
  (congrArg State.results h.fixed : t.fixed.results = s.fixed.results)

/-- An operation that changes no channel, no memory, no news and no attention set measures. -/
theorem Measuring.of_table {s t : State} (fixed : t.fixed = s.fixed) (mode : t.mode = s.mode)
    (hp : t.parkedPending = s.parkedPending) (hm : t.mem = s.mem) (hn : t.news = s.news) (ha : t.attn = s.attn) (hq : t.seqs = s.seqs)
    (hx : t.safety = s.safety) : Measuring s t :=
  ⟨fixed, by rw [mode], fun _ h => by rw [ha]; exact h, fun _ h => by rw [hn]; exact h,
    fun h => ⟨mode, hp.trans h⟩, fun _ _ => by rw [hm],
    fun h => by rw [hm]; exact h, fun c => by rw [hq, hx]; exact ChanStep.refl _ _ _⟩

/-- An operation that changes one channel measures, if the channel takes a `ChanStep`. -/
theorem Measuring.of_chan {s : State} (c : Chan) (q : Seq) (x : ChanSafety)
    (h : ChanStep (s.mode = .safeStop) s.seqs[c] q s.safety[c] x) : Measuring s ((s.setSeq c q).setSafety c x) where
  fixed := rfl
  mode := Iff.rfl
  pending := fun _ => id
  done := fun _ => id
  calm := fun h => ⟨rfl, h⟩
  memory := fun _ _ => rfl
  canonical := id
  chan := fun d => by
    by_cases hd : c = d
    · subst hd; simpa using h
    · simpa [hd] using ChanStep.refl _ _ _

/-- A change of the sequencer alone. -/
theorem Measuring.of_seq {s : State} (c : Chan) (q : Seq)
    (h : ChanStep (s.mode = .safeStop) s.seqs[c] q s.safety[c] s.safety[c]) : Measuring s (s.setSeq c q) := by
  have := Measuring.of_chan c q s.safety[c] h
  rwa [show (s.setSeq c q).setSafety c s.safety[c] = s.setSeq c q by
    simp [State.setSafety, State.setSeq]] at this

/-- A change of the safety unit's entry alone. -/
theorem Measuring.of_safety {s : State} (c : Chan) (x : ChanSafety)
    (h : ChanStep (s.mode = .safeStop) s.seqs[c] s.seqs[c] s.safety[c] x) : Measuring s (s.setSafety c x) := by
  have := Measuring.of_chan c s.seqs[c] x h
  rwa [show s.setSeq c s.seqs[c] = s by simp [State.setSeq]] at this

/-- A write of bytes inside the slots measures. -/
theorem Measuring.pokes (s : State) (a : Nat) (bs : List Byte) (h : 0x500 ≤ a ∧ a + bs.length ≤ 0x700) :
    Measuring s (s.pokes a bs) where
  fixed := rfl
  mode := Iff.rfl
  pending := fun _ => id
  done := fun _ => id
  calm := fun h => ⟨rfl, h⟩
  memory := fun b hb => Memory.read_writeBytes_other bs s.mem a b (by unfold inSlots at hb; omega)
  canonical := Memory.wf_writeBytes bs s.mem a
  chan := fun _ => ChanStep.refl _ _ _

theorem Measuring.poke (s : State) (a : Nat) (b : Byte) (h : inSlots a) : Measuring s (s.poke a b) where
  fixed := rfl
  mode := Iff.rfl
  pending := fun _ => id
  done := fun _ => id
  calm := fun h => ⟨rfl, h⟩
  memory := fun d hd => Memory.read_write_other s.mem a d b (by rintro rfl; exact hd h)
  canonical := Memory.wf_write s.mem a b
  chan := fun _ => ChanStep.refl _ _ _

/-- Adding a bit to a set keeps every bit. -/
theorem has8_or_left (v w : BitVec 8) (n : Nat) (h : has8 v n = true) : has8 (v ||| w) n = true := by
  unfold has8 at *; rw [BitVec.getLsbD_or, h, Bool.true_or]

theorem Measuring.raise (s : State) (n : Nat) : Measuring s (s.raise n) where
  fixed := rfl
  mode := Iff.rfl
  pending := fun m h => has8_or_left _ _ m h
  done := fun _ => id
  calm := fun h => ⟨rfl, h⟩
  memory := fun _ _ => rfl
  canonical := id
  chan := fun _ => ChanStep.refl _ _ _

theorem Measuring.newsDone (s : State) (n : Nat) : Measuring s (s.newsDone n) where
  fixed := rfl
  mode := Iff.rfl
  pending := fun _ => id
  done := fun m h => has8_or_left _ _ m h
  calm := fun h => ⟨rfl, h⟩
  memory := fun _ _ => rfl
  canonical := id
  chan := fun _ => ChanStep.refl _ _ _

theorem Measuring.modGroup (s : State) (l : GroupId) (f : Group → Group) : Measuring s (s.modGroup l f) := by
  unfold State.modGroup
  split
  · exact Measuring.of_table rfl rfl rfl rfl rfl rfl rfl rfl
  · exact Measuring.refl s

theorem Measuring.setSlot (s : State) (n : SlotId) (x : SlotState) : Measuring s (s.setSlot n x) :=
  Measuring.of_table rfl rfl rfl rfl rfl rfl rfl rfl

theorem Measuring.modOrder (s : State) (n : SlotId) (f : Order → Order) : Measuring s (s.modOrder n f) :=
  Measuring.of_table rfl rfl rfl rfl rfl rfl rfl rfl

/-- A fold of measuring operations measures. -/
theorem Measuring.forEach {α : Type} (l : List α) (f : α → State → State) (s : State)
    (h : ∀ a ∈ l, ∀ t, Measuring t (f a t)) : Measuring s (forEach l f s) := by
  unfold Machine.forEach
  induction l generalizing s with
  | nil => exact Measuring.refl s
  | cons a rest ih =>
    exact (h a List.mem_cons_self s).trans (ih (f a s) fun b hb => h b (List.mem_cons_of_mem _ hb))

/-- A fold keeps a field that every part of it keeps. -/
theorem forEach_field {α β : Type} (g : State → β) (l : List α) (f : α → State → State)
    (h : ∀ a t, g (f a t) = g t) (s : State) : g (Machine.forEach l f s) = g s := by
  unfold Machine.forEach
  induction l generalizing s with
  | nil => rfl
  | cons a rest ih => exact (ih (f a s)).trans (h a s)

/-! ### Slots lie in the slot area -/

theorem slotAddr_range (n : SlotId) (k : Nat) (h : k < 64) : inSlots (slotAddr n + k) := by
  unfold inSlots slotAddr; omega

theorem padKind_length (bs : List Byte) : (padKind bs).length = 40 := by
  unfold padKind; simp

/-! ### Channel operations -/

theorem ChanStep.endRun {stop : Prop} (q : Seq) (x : ChanSafety)
    (h : x.reference = true → q.coupling = .detached → q.run = .selfcheck → False) :
    ChanStep stop q q.endRun x x :=
  ⟨rfl, rfl, rfl, .inl rfl, rfl, rfl, rfl, rfl,
    fun a hr => (h hr (a hr).1 (a hr).2).elim, fun _ a => ⟨a.1, rfl⟩, fun a => a⟩

theorem Measuring.abandonRun (s : State) (c : Chan) : Measuring s (s.abandonRun c) := by
  unfold State.abandonRun
  simp only
  split
  · next h =>
    refine Measuring.of_seq c _ (ChanStep.endRun _ _ fun _ _ hr => ?_)
    rcases h with h | h <;> rw [h] at hr <;> cases hr
  · exact Measuring.refl s

theorem Measuring.detach (s : State) (c : Chan) : Measuring s (s.detach c) := by
  unfold State.detach
  split
  · next h =>
    refine (Measuring.abandonRun s c).trans ?_
    have hc : (s.abandonRun c).seqs[c].coupling = .attached := by
      unfold State.abandonRun; simp only; split
      · simpa using h
      · exact h
    generalize s.abandonRun c = s1 at hc ⊢
    refine Measuring.of_chan c _ _ ⟨rfl, rfl, rfl, .inl rfl, by simp, by simp, by simp, by simp, fun a hr => ?_, ?_,
      fun _ => ⟨rfl, rfl⟩⟩
    · have hr' : s1.safety[c].reference = true := by simpa using hr
      have := (a hr').1
      rw [hc] at this; cases this
    · intro _ a; rw [hc] at a; cases a.1
  · exact Measuring.refl s

theorem Measuring.stopChannel (s : State) (c : Chan) : Measuring s (s.stopChannel c) :=
  (Measuring.abandonRun s c).trans (Measuring.detach _ c)

theorem Measuring.openReference (s : State) (c : Chan) : Measuring s (s.openReference c) :=
  Measuring.of_safety c _ ⟨rfl, rfl, rfl, .inl rfl, rfl, rfl, rfl, rfl, fun _ h => by simp at h, fun _ a => a, fun a => a⟩

theorem Measuring.dropRun (s : State) (c : Chan) : Measuring s (s.dropRun c) := by
  unfold State.dropRun State.openReference
  refine Measuring.of_chan c _ _ ⟨rfl, rfl, rfl, .inl rfl, ?_, ?_, ?_, ?_, fun _ h => ?_, fun _ a => ⟨a.1, rfl⟩, fun a => ?_⟩ <;>
    simp at *
  exact a

/-- No channel attaches while its own verify runs. -/
theorem mayAttach_verify {s : State} {c : Chan} (h : mayAttach s c = true) : s.safety[c].verify = none := by
  unfold mayAttach at h
  split at h
  · cases h
  · split at h
    · cases h
    · simp only [Bool.and_eq_true] at h
      exact Option.isNone_iff_eq_none.mp h.1.2

/-- The first half-period of a waiting series or triple. -/
theorem Measuring.tryAttach (s : State) (c : Chan) : Measuring s (s.tryAttach c) := by
  unfold State.tryAttach
  simp only
  split
  · next h =>
    obtain ⟨hrun, _, hm⟩ := h
    refine Measuring.of_seq c _ ⟨rfl, rfl, rfl, .inl rfl, rfl, rfl, rfl, rfl, fun a hr => ?_, fun hs a => ?_, fun a => ?_⟩
    · have := (a hr).2
      rcases hrun with h | h <;> rw [h] at this <;> cases this
    · rcases hrun with h | h <;> rw [h] at a <;> cases a.2
    · rw [mayAttach_verify hm] at a; cases a.2
  · exact Measuring.refl s

theorem Measuring.tryReference (s : State) (c : Chan) : Measuring s (s.tryReference c) := by
  unfold State.tryReference
  simp only
  split
  · next h =>
    obtain ⟨hrun, _, hd, _⟩ := h
    refine Measuring.of_chan c _ _ ⟨rfl, rfl, rfl, .inl rfl, rfl, rfl, rfl, rfl, fun _ _ => ⟨hd, hrun⟩, fun _ a => ?_, fun a => a⟩
    rw [hrun] at a; cases a.2
  · exact Measuring.refl s

/-- A run is set up on a channel whose reference is open. -/
theorem ChanStep.setUp {stop : Prop} (q : Seq) (x : ChanSafety) (kind : RunKind) (owner : Option SlotId)
    (copy : RunCopy) (hs : ¬ stop) (hr : x.reference = true → q.run = .none) :
    ChanStep stop q (q.setUp kind owner copy) x x where
  record := rfl
  viewLatched := rfl
  latestUb := rfl
  ctx := by
    show (if kind ≠ .selfcheck ∧ q.ctx = .none then CtxKind.idle else q.ctx) = q.ctx ∨ _
    split
    · next h => right; exact ⟨h.2, by simp [h]⟩
    · exact .inl rfl
  health := rfl
  disconnected := rfl
  discMask := rfl
  discMode := rfl
  apart := fun a h => by have := (a h).2; rw [hr h] at this; cases this
  quiet := fun h => absurd h hs
  resting := id

/-- Before a start the run in flight has gone. -/
theorem Measuring.clearRun (s : State) (c : Chan) :
    Measuring s (if s.seqs[c].run = .none then s else s.dropRun c) := by
  split
  · exact Measuring.refl s
  · exact Measuring.dropRun s c

theorem clearRun_run (s : State) (c : Chan) :
    (if s.seqs[c].run = .none then s else s.dropRun c).seqs[c].run = .none := by
  split
  · assumption
  · simp [State.dropRun]

theorem Measuring.startRun (s : State) (c : Chan) (kind : RunKind) (owner : Option SlotId) (copy : RunCopy)
    (hm : s.mode ≠ .safeStop) : Measuring s (s.startRun c kind owner copy) := by
  unfold State.startRun
  simp only
  have h1 := Measuring.clearRun s c
  have hrun := clearRun_run s c
  generalize (if s.seqs[c].run = .none then s else s.dropRun c) = s1 at h1 hrun ⊢
  have hm1 : s1.mode ≠ .safeStop := fun h => hm (h1.mode.mp h)
  have hset : ChanStep (s1.mode = .safeStop) s1.seqs[c] (s1.seqs[c].setUp kind owner copy) s1.safety[c] s1.safety[c] :=
    ChanStep.setUp _ _ _ _ _ hm1 fun _ => hrun
  split
  · refine h1.trans (Measuring.of_seq c _ (hset.trans id ⟨rfl, rfl, rfl, .inl rfl, rfl, rfl, rfl, rfl, id, ?_, id⟩))
    intro h; exact absurd h hm1
  · exact h1.trans ((Measuring.of_seq c _ hset).trans (Measuring.tryAttach _ c))

end Sys2Proof.Machine
end

