-- ==== Sys2Proof/Laws/Orders.lean ====
section
/-! SUPPORT. What the order unit can do: completions, phases, abandonments and placings all measure, and none of
them changes a member mask or an injector. -/

namespace Sys2Proof.Machine

/-! ### The group table stands -/

/-- Member masks and injectors stand, no channel comes under a check, a channel becomes attached only as an
injector, and the intake list stays sound. -/
structure Tabled (s t : State) : Prop where
  members : ∀ l : GroupId, (t.groups[l]).map (·.members) = (s.groups[l]).map (·.members)
  injector : ∀ l : GroupId, injectorOf t l = injectorOf s l
  checking : ∀ c : Chan, checking t c = true → checking s c = true
  attached : ∀ c : Chan, t.seqs[c].coupling = .attached →
    s.seqs[c].coupling = .attached ∨ ∃ l : GroupId, injectorOf s l = some c
  intake : intakeSound s → intakeSound t

theorem Tabled.refl (s : State) : Tabled s s := ⟨fun _ => rfl, fun _ => rfl, fun _ => id, fun _ => .inl, id⟩

theorem Tabled.trans {s t u : State} (h : Tabled s t) (k : Tabled t u) : Tabled s u where
  members := fun l => (k.members l).trans (h.members l)
  injector := fun l => (k.injector l).trans (h.injector l)
  checking := fun c a => h.checking c (k.checking c a)
  attached := fun c a => by
    rcases k.attached c a with a | ⟨l, hl⟩
    · exact h.attached c a
    · exact .inr ⟨l, (h.injector l) ▸ hl⟩
  intake := fun a => k.intake (h.intake a)

theorem Tabled.forEach {α : Type} (l : List α) (f : α → State → State) (s : State)
    (h : ∀ a ∈ l, ∀ t, Tabled t (f a t)) : Tabled s (forEach l f s) := by
  unfold Machine.forEach
  induction l generalizing s with
  | nil => exact Tabled.refl s
  | cons a rest ih =>
    exact (h a List.mem_cons_self s).trans (ih (f a s) fun b hb => h b (List.mem_cons_of_mem _ hb))

/-- An operation on the channels alone. -/
theorem Tabled.of_channels {s t : State} (hg : t.groups = s.groups) (hi : t.intake = s.intake)
    (hs : t.slots = s.slots)
    (ha : ∀ c : Chan, t.seqs[c].coupling = .attached →
      s.seqs[c].coupling = .attached ∨ ∃ l : GroupId, injectorOf s l = some c) : Tabled s t where
  members := fun l => by rw [hg]
  injector := fun l => by unfold injectorOf; rw [hg]
  checking := fun c h => by unfold Machine.checking at *; rwa [hi] at h
  attached := ha
  intake := fun h => by unfold intakeSound at *; rwa [hi, hs]

/-- An operation on neither channels, groups, slots nor the intake list. -/
theorem Tabled.of_same {s t : State} (hg : t.groups = s.groups) (hi : t.intake = s.intake) (hs : t.slots = s.slots)
    (hq : t.seqs = s.seqs) : Tabled s t :=
  Tabled.of_channels hg hi hs fun c h => .inl (by rwa [hq] at h)

/-- A change of one sequencer that does not attach it. -/
theorem Tabled.setSeq (s : State) (c : Chan) (q : Seq) (h : q.coupling = .attached → s.seqs[c].coupling = .attached) :
    Tabled s (s.setSeq c q) :=
  Tabled.of_channels rfl rfl rfl fun d hd => .inl (by
    by_cases hc : c = d
    · subst hc; rw [State.setSeq_seqs, upd_same] at hd; exact h hd
    · rwa [State.setSeq_seqs, upd_other _ _ _ _ hc] at hd)

theorem Tabled.setSafety (s : State) (c : Chan) (x : ChanSafety) : Tabled s (s.setSafety c x) :=
  Tabled.of_same rfl rfl rfl rfl

theorem modGroup_get (s : State) (l m : GroupId) (f : Group → Group) :
    (s.modGroup l f).groups[m] = if l = m then (s.groups[m]).map f else s.groups[m] := by
  unfold State.modGroup
  split
  · next g h =>
    rw [State.setGroup_groups, upd_get]
    split
    · next e => subst e; rw [h]; rfl
    · rfl
  · next h =>
    split
    · next e => subst e; rw [h]; rfl
    · rfl

/-- A change of a group that keeps members and injector. -/
theorem Tabled.modGroup (s : State) (l : GroupId) (f : Group → Group) (hm : ∀ g, (f g).members = g.members)
    (hi : ∀ g, (f g).injector = g.injector) : Tabled s (s.modGroup l f) where
  members := fun m => by
    rw [modGroup_get]; split
    · rw [Option.map_map]; congr 1; funext g; exact hm g
    · rfl
  injector := fun m => by
    unfold injectorOf; rw [modGroup_get]
    by_cases e : l = m
    · rw [if_pos e]
      cases s.groups[m] with
      | none => rfl
      | some g => exact hi g
    · rw [if_neg e]
  checking := fun c h => by
    have : (s.modGroup l f).intake = s.intake := by unfold State.modGroup; split <;> rfl
    unfold Machine.checking at *; rwa [this] at h
  attached := fun c h => .inl (by
    have : (s.modGroup l f).seqs = s.seqs := by unfold State.modGroup; split <;> rfl
    rwa [this] at h)
  intake := fun h => by
    have h1 : (s.modGroup l f).intake = s.intake := by unfold State.modGroup; split <;> rfl
    have h2 : (s.modGroup l f).slots = s.slots := by unfold State.modGroup; split <;> rfl
    unfold intakeSound at *; rwa [h1, h2]

/-! ### Channels -/

theorem Tabled.abandonRun (s : State) (c : Chan) : Tabled s (s.abandonRun c) := by
  unfold State.abandonRun; simp only; split
  · exact Tabled.setSeq s c _ id
  · exact Tabled.refl s

theorem Tabled.detach (s : State) (c : Chan) : Tabled s (s.detach c) := by
  unfold State.detach; simp only; split
  · exact (Tabled.abandonRun s c).trans ((Tabled.setSeq _ c _ fun h => by cases h).trans (Tabled.setSafety _ c _))
  · exact Tabled.refl s

theorem Tabled.stopChannel (s : State) (c : Chan) : Tabled s (s.stopChannel c) :=
  (Tabled.abandonRun s c).trans (Tabled.detach _ c)

theorem Tabled.openReference (s : State) (c : Chan) : Tabled s (s.openReference c) := Tabled.setSafety s c _

theorem Tabled.dropRun (s : State) (c : Chan) : Tabled s (s.dropRun c) :=
  (Tabled.setSeq s c s.seqs[c].endRun id).trans (Tabled.openReference _ c)

theorem groupOfInjector_spec (s : State) (c : Chan) (h : (groupOfInjector s c).isSome = true) :
    ∃ l : GroupId, injectorOf s l = some c := by
  obtain ⟨l, hl⟩ := Option.isSome_iff_exists.mp h
  have := List.find?_some hl
  refine ⟨l, ?_⟩
  cases hg : s.groups[l] with
  | none => simp [hg] at this
  | some g => simpa [injectorOf, hg] using this

theorem mayAttach_injector (s : State) (c : Chan) (h : mayAttach s c = true) : ∃ l : GroupId, injectorOf s l = some c := by
  refine groupOfInjector_spec s c ?_
  unfold mayAttach at h
  split at h
  · cases h
  · next hl => rw [hl]; rfl

theorem Tabled.tryAttach (s : State) (c : Chan) : Tabled s (s.tryAttach c) := by
  unfold State.tryAttach; simp only; split
  · next h =>
    refine Tabled.of_channels rfl rfl rfl fun d hd => ?_
    by_cases hc : c = d
    · subst hc; exact .inr (mayAttach_injector s c h.2.2)
    · rw [State.setSeq_seqs, upd_other _ _ _ _ hc] at hd; exact .inl hd
  · exact Tabled.refl s

theorem Tabled.tryReference (s : State) (c : Chan) : Tabled s (s.tryReference c) := by
  unfold State.tryReference; simp only; split
  · exact (Tabled.setSeq s c (s.seqs[c].beginHalf .pos) id).trans (Tabled.setSafety _ c _)
  · exact Tabled.refl s

theorem Tabled.startRun (s : State) (c : Chan) (kind : RunKind) (owner : Option SlotId) (copy : RunCopy) :
    Tabled s (s.startRun c kind owner copy) := by
  unfold State.startRun; simp only
  have h1 : Tabled s (if s.seqs[c].run = .none then s else s.dropRun c) := by
    split
    · exact Tabled.refl s
    · exact Tabled.dropRun s c
  generalize (if s.seqs[c].run = .none then s else s.dropRun c) = s1 at h1 ⊢
  split
  · exact h1.trans (Tabled.setSeq _ c _ id)
  · exact h1.trans ((Tabled.setSeq _ c (s1.seqs[c].setUp kind owner copy) id).trans (Tabled.tryAttach _ c))

/-! ### Slots and the intake list -/

theorem Measuring.filterIntake (s : State) (p : Order → Bool) : Measuring s { s with intake := s.intake.filter p } :=
  Measuring.of_table rfl rfl rfl rfl rfl rfl rfl rfl

theorem slotAddr_bounds (n : SlotId) : 0x500 ≤ slotAddr n ∧ slotAddr n + 64 ≤ 0x700 := by
  unfold slotAddr; omega

theorem Measuring.completeSlot (s : State) (n : SlotId) (final : SlotState) (reason : Byte) (kind : List Byte) :
    Measuring s (s.completeSlot n final reason kind) := by
  have hb := slotAddr_bounds n
  unfold State.completeSlot
  exact (Measuring.pokes s _ _ (by rw [padKind_length]; omega)).trans <|
    (Measuring.poke _ _ _ (slotAddr_range n 0x15 (by omega))).trans <|
    (Measuring.poke _ _ _ (slotAddr_range n 0x12 (by omega))).trans <|
    (Measuring.poke _ _ _ (slotAddr_range n 0 (by omega))).trans <|
    (Measuring.setSlot _ n final).trans <| (Measuring.filterIntake _ _).trans <|
    (Measuring.newsDone _ n.val).trans (Measuring.raise _ 4)

/-- A slot takes a final state and its order leaves the list: nothing else moves there. -/
theorem Tabled.leaveSlot (s : State) (n : SlotId) (final : SlotState) :
    Tabled s { s.setSlot n final with intake := s.intake.filter fun o => o.slot ≠ n } where
  members := fun _ => rfl
  injector := fun _ => rfl
  checking := fun c h => by
    unfold Machine.checking at *
    rw [List.any_eq_true] at h ⊢
    obtain ⟨o, ho, hp⟩ := h
    exact ⟨o, List.mem_of_mem_filter ho, hp⟩
  attached := fun _ => .inl
  intake := fun h => by
    refine ⟨List.Nodup.sublist (List.Sublist.map _ List.filter_sublist) h.1, fun o ho => ?_⟩
    obtain ⟨ho, hn⟩ := List.mem_filter.mp ho
    show (upd s.slots n final)[o.slot] = _
    rw [upd_other _ _ _ _ (Ne.symm (of_decide_eq_true hn))]
    exact h.2 o ho

theorem Tabled.poke (s : State) (a : Nat) (b : Byte) : Tabled s (s.poke a b) := Tabled.of_same rfl rfl rfl rfl

theorem Tabled.pokes (s : State) (a : Nat) (bs : List Byte) : Tabled s (s.pokes a bs) :=
  Tabled.of_same rfl rfl rfl rfl

theorem Tabled.raise (s : State) (n : Nat) : Tabled s (s.raise n) := Tabled.of_same rfl rfl rfl rfl

theorem Tabled.newsDone (s : State) (n : Nat) : Tabled s (s.newsDone n) := Tabled.of_same rfl rfl rfl rfl

theorem Tabled.completeSlot (s : State) (n : SlotId) (final : SlotState) (reason : Byte) (kind : List Byte) :
    Tabled s (s.completeSlot n final reason kind) := by
  unfold State.completeSlot
  exact (Tabled.pokes s _ _).trans <| (Tabled.poke _ _ _).trans <| (Tabled.poke _ _ _).trans <|
    (Tabled.poke _ _ _).trans <| (Tabled.leaveSlot _ n final).trans <|
    (Tabled.newsDone _ n.val).trans (Tabled.raise _ 4)

theorem Measuring.refuseSlot (s : State) (n : SlotId) (why : Reason) : Measuring s (s.refuseSlot n why) :=
  Measuring.completeSlot s n _ _ _

theorem Tabled.refuseSlot (s : State) (n : SlotId) (why : Reason) : Tabled s (s.refuseSlot n why) :=
  Tabled.completeSlot s n _ _ _

theorem Measuring.refuseTaken (s : State) (why : Reason) : Measuring s (s.refuseTaken why) :=
  Measuring.forEach _ _ _ fun n _ t => by
    split
    · exact Measuring.refuseSlot t n why
    · exact Measuring.refl t

theorem Tabled.refuseTaken (s : State) (why : Reason) : Tabled s (s.refuseTaken why) :=
  Tabled.forEach _ _ _ fun n _ t => by
    split
    · exact Tabled.refuseSlot t n why
    · exact Tabled.refl t

/-- A change of one order that keeps its slot keeps the intake list sound. -/
theorem intakeSound_modOrder (s : State) (n : SlotId) (f : Order → Order) (hs : ∀ o, (f o).slot = o.slot)
    (h : intakeSound s) : intakeSound (s.modOrder n f) := by
  have hmap : (s.modOrder n f).intake.map (·.slot) = s.intake.map (·.slot) := by
    unfold State.modOrder
    rw [List.map_map]
    refine List.map_congr_left fun o _ => ?_
    show Order.slot (if o.slot = n then f o else o) = o.slot
    split
    · exact hs o
    · rfl
  refine ⟨hmap ▸ h.1, fun o ho => ?_⟩
  have : o.slot ∈ (s.modOrder n f).intake.map (·.slot) := List.mem_map_of_mem ho
  rw [hmap] at this
  obtain ⟨o', ho', e⟩ := List.mem_map.mp this
  have := h.2 o' ho'
  show s.slots[o.slot] = _
  simpa only [e] using this

/-- A change of one order that keeps its slot, and brings no order from waiting that checks a channel. -/
theorem Tabled.modOrder (s : State) (n : SlotId) (f : Order → Order) (hs : ∀ o, (f o).slot = o.slot)
    (hj : ∀ o, (f o).job = o.job)
    (hp : ∀ o ∈ s.intake, o.slot = n → (f o).phase ≠ .waiting → o.phase ≠ .waiting ∨ ∀ c, o.job ≠ .selfcheck c) :
    Tabled s (s.modOrder n f) where
  members := fun _ => rfl
  injector := fun _ => rfl
  checking := fun c h => by
    unfold Machine.checking State.modOrder at *
    rw [List.any_eq_true] at h ⊢
    obtain ⟨o, ho, hq⟩ := h
    obtain ⟨o', ho', rfl⟩ := List.mem_map.mp ho
    rw [Bool.and_eq_true] at hq
    refine ⟨o', ho', ?_⟩
    rw [Bool.and_eq_true]
    split at hq
    · next e =>
      have hjob := of_decide_eq_true hq.1
      rw [hj] at hjob
      refine ⟨decide_eq_true hjob, decide_eq_true ?_⟩
      rcases hp o' ho' e (of_decide_eq_true hq.2) with h | h
      · exact h
      · exact absurd hjob (h c)
    · exact hq
  attached := fun _ => .inl
  intake := intakeSound_modOrder s n f hs

theorem Measuring.setPhase (s : State) (n : SlotId) (ph : OrderPhase) : Measuring s (s.setPhase n ph) :=
  (Measuring.modOrder s n _).trans (Measuring.poke _ _ _ (slotAddr_range n 0x12 (by omega)))

/-- An order goes back to waiting. -/
theorem Tabled.setPhase_waiting (s : State) (n : SlotId) : Tabled s (s.setPhase n .waiting) :=
  (Tabled.modOrder s n (fun o => { o with phase := .waiting }) (fun _ => rfl) (fun _ => rfl) fun _ _ _ h => absurd rfl h).trans (Tabled.poke _ _ _)

/-- The order of a slot whose every order in the list is under way, or measures a SPOT, takes a phase. -/
theorem Tabled.setPhase (s : State) (n : SlotId) (ph : OrderPhase)
    (h : ∀ o ∈ s.intake, o.slot = n → o.phase ≠ .waiting ∨ ∀ c, o.job ≠ .selfcheck c) : Tabled s (s.setPhase n ph) :=
  (Tabled.modOrder s n (fun o => { o with phase := ph }) (fun _ => rfl) (fun _ => rfl) fun o ho e _ => h o ho e).trans (Tabled.poke _ _ _)

theorem Measuring.setOrderGroup (s : State) (n : SlotId) (l : GroupId) : Measuring s (s.setOrderGroup n l) :=
  (Measuring.modOrder s n _).trans (Measuring.poke _ _ _ (slotAddr_range n 0x13 (by omega)))

theorem Tabled.setOrderGroup (s : State) (n : SlotId) (l : GroupId) : Tabled s (s.setOrderGroup n l) :=
  (Tabled.modOrder s n (fun o => { o with group := l }) (fun _ => rfl) (fun _ => rfl) fun _ _ _ h => .inl h).trans (Tabled.poke _ _ _)

theorem Measuring.setSeries (s : State) (l : GroupId) (x : SeriesState) : Measuring s (s.setSeries l x) :=
  Measuring.modGroup s l _

theorem Tabled.setSeries (s : State) (l : GroupId) (x : SeriesState) : Tabled s (s.setSeries l x) :=
  Tabled.modGroup s l _ (fun _ => rfl) (fun _ => rfl)

theorem Measuring.freeMeasurement (s : State) (l : GroupId) : Measuring s (s.freeMeasurement l) := by
  unfold State.freeMeasurement; split
  · exact Measuring.refl s
  · exact Measuring.setSeries s l _

theorem Tabled.freeMeasurement (s : State) (l : GroupId) : Tabled s (s.freeMeasurement l) := by
  unfold State.freeMeasurement; split
  · exact Tabled.refl s
  · exact Tabled.setSeries s l _

/-! ### Abandonments -/

theorem Measuring.spotAbandoned (s : State) (o : Order) : Measuring s (s.spotAbandoned o) := by
  unfold State.spotAbandoned
  have h := (Measuring.poke s (slotAddr o.slot + 0x14) (byteOf (o.abandons + 1)) (slotAddr_range o.slot 0x14 (by omega))).trans
    ((Measuring.modOrder _ o.slot fun x => { x with abandons := o.abandons + 1 }).trans
      (Measuring.setSeries _ o.group .none))
  simp only; split
  · exact h.trans (Measuring.setPhase _ _ _)
  · exact h.trans (Measuring.refuseSlot _ _ _)

theorem Tabled.spotAbandoned (s : State) (o : Order) : Tabled s (s.spotAbandoned o) := by
  unfold State.spotAbandoned
  have h := (Tabled.poke s (slotAddr o.slot + 0x14) (byteOf (o.abandons + 1))).trans
    ((Tabled.modOrder _ o.slot (fun x => { x with abandons := o.abandons + 1 }) (fun _ => rfl) (fun _ => rfl)
        fun _ _ _ h => .inl h).trans
      (Tabled.setSeries _ o.group .none))
  simp only; split
  · exact h.trans (Tabled.setPhase_waiting _ _)
  · exact h.trans (Tabled.refuseSlot _ _ _)

theorem Measuring.stopInjector (s : State) (l : GroupId) : Measuring s (s.stopInjector l) := by
  unfold State.stopInjector; split
  · exact Measuring.stopChannel s _
  · exact Measuring.refl s

theorem Tabled.stopInjector (s : State) (l : GroupId) : Tabled s (s.stopInjector l) := by
  unfold State.stopInjector; split
  · exact Tabled.stopChannel s _
  · exact Tabled.refl s

theorem Measuring.seriesOver (s : State) (l : GroupId) : Measuring s (s.seriesOver l) := Measuring.modGroup s l _

theorem Tabled.seriesOver (s : State) (l : GroupId) : Tabled s (s.seriesOver l) :=
  Tabled.modGroup s l _ (fun _ => rfl) (fun _ => rfl)

theorem Measuring.abandonOwn (s : State) (l : GroupId) : Measuring s (s.abandonOwn l) := by
  have h := (Measuring.stopInjector s l).trans (Measuring.seriesOver _ l)
  unfold State.abandonOwn; split
  · exact Measuring.refl s
  · split
    · exact h
    · exact h
    · exact h.trans (Measuring.of_table rfl rfl rfl rfl rfl rfl rfl rfl)
    · exact Measuring.refl s
    · exact Measuring.refl s

theorem Tabled.abandonOwn (s : State) (l : GroupId) : Tabled s (s.abandonOwn l) := by
  have h := (Tabled.stopInjector s l).trans (Tabled.seriesOver _ l)
  unfold State.abandonOwn; split
  · exact Tabled.refl s
  · split
    · exact h
    · exact h
    · exact h.trans (Tabled.of_same rfl rfl rfl rfl)
    · exact Tabled.refl s
    · exact Tabled.refl s

theorem Measuring.abandonGroup (s : State) (l : GroupId) : Measuring s (s.abandonGroup l) := by
  unfold State.abandonGroup; simp only; split
  · exact (Measuring.abandonOwn s l).trans ((Measuring.stopInjector _ l).trans (Measuring.spotAbandoned _ _))
  · exact Measuring.abandonOwn s l

theorem Tabled.abandonGroup (s : State) (l : GroupId) : Tabled s (s.abandonGroup l) := by
  unfold State.abandonGroup; simp only; split
  · exact (Tabled.abandonOwn s l).trans ((Tabled.stopInjector _ l).trans (Tabled.spotAbandoned _ _))
  · exact Tabled.abandonOwn s l

/-! ### Placing orders at a regroup -/

theorem Measuring.placeInFlight (s : State) : Measuring s s.placeInFlight :=
  Measuring.forEach _ _ _ fun o _ t => by
    split
    · exact Measuring.refl t
    · exact Measuring.setOrderGroup t _ _

theorem Tabled.placeInFlight (s : State) : Tabled s s.placeInFlight :=
  Tabled.forEach _ _ _ fun o _ t => by
    split
    · exact Tabled.refl t
    · exact Tabled.setOrderGroup t _ _

theorem Measuring.placeWaiting (s : State) : Measuring s s.placeWaiting :=
  Measuring.forEach _ _ _ fun o _ t => by
    split
    · split
      · exact Measuring.setOrderGroup t _ _
      · split
        · exact Measuring.setOrderGroup t _ _
        · exact Measuring.refuseSlot t _ _
    · exact Measuring.refl t

theorem Tabled.placeWaiting (s : State) : Tabled s s.placeWaiting :=
  Tabled.forEach _ _ _ fun o _ t => by
    split
    · split
      · exact Tabled.setOrderGroup t _ _
      · split
        · exact Tabled.setOrderGroup t _ _
        · exact Tabled.refuseSlot t _ _
    · exact Tabled.refl t

end Sys2Proof.Machine
end

