-- ==== Sys2Proof/Laws/Regroup.lean ====
section
/-! SUPPORT. What a regroup can do: it measures, and after it the group table agrees with the links, every injector
is eligible and every attached channel is an injector. -/

namespace Sys2Proof.Machine

/-! ### The sound state between commands -/

/-- The table, the injectors, the couplings and the intake list as they stand between any two operations of the
scheduler. -/
structure Sound (s : State) : Prop where
  table : tableAgrees s
  injectors : injectorsEligible s
  attached : attachedInject s
  intake : intakeSound s

/-- What eligibility reads stands, so an eligible channel stays eligible. -/
theorem mayInject_step {s t : State} (m : Measuring s t) (k : Tabled s t) {l : GroupId} {c : Chan}
    (h : mayInject s l c) : mayInject t l c := by
  obtain ⟨h1, h2, h3, h4, h5, h6⟩ := h
  have hmem : membersOf t l = membersOf s l := by
    have := k.members l
    unfold membersOf
    cases ht : t.groups[l] <;> cases hs : s.groups[l] <;> rw [ht, hs] at this <;> simp_all
  have hw : t.wiring = s.wiring := m.wiring_eq
  have hy : t.yields = s.yields := m.yields_eq
  refine ⟨?_, ?_, ?_, ?_, ?_, ?_⟩
  · unfold wiredInto at *; rw [hmem, hw]; exact h1
  · rw [(m.chan c).health]; exact h2
  · rw [(m.chan c).disconnected]; exact h3
  · cases hc : checking t c with
    | false => rfl
    | true => rw [k.checking c hc] at h4; cases h4
  · rcases (m.chan c).ctx with e | ⟨_, e⟩ <;> rw [e]
    · exact h5
    · decide
  · rw [hmem, hy]; exact h6

theorem tableAgrees_step {s t : State} (m : Measuring s t) (k : Tabled s t) (h : tableAgrees s) : tableAgrees t := by
  have hl : t.links = s.links := m.links_eq
  intro l; rw [k.members l, hl]; exact h l

/-- A measuring operation that leaves the table keeps the state sound. -/
theorem Sound.step {s t : State} (h : Sound s) (m : Measuring s t) (k : Tabled s t) : Sound t where
  table := tableAgrees_step m k h.table
  injectors := fun l c hi => mayInject_step m k (h.injectors l c ((k.injector l) ▸ hi))
  attached := fun c hc => by
    rcases k.attached c hc with hs | ⟨l, hl⟩
    · obtain ⟨l, hl⟩ := h.attached c hs
      exact ⟨l, (k.injector l).trans hl⟩
    · exact ⟨l, (k.injector l).trans hl⟩
  intake := k.intake h.intake

/-! ### Parts of a regroup -/

theorem Measuring.abandonChanged (fresh : Bool) (lab : Labels) (s : State) : Measuring s (s.abandonChanged fresh lab) :=
  Measuring.forEach _ _ _ fun l _ t => Measuring.abandonGroup t l

theorem Tabled.abandonChanged (fresh : Bool) (lab : Labels) (s : State) : Tabled s (s.abandonChanged fresh lab) :=
  Tabled.forEach _ _ _ fun l _ t => Tabled.abandonGroup t l

theorem Measuring.inheritCheck (s : State) (l : GroupId) : Measuring s (s.inheritCheck l) := by
  unfold State.inheritCheck; split
  · exact Measuring.setSeries s l _
  · exact Measuring.refl s

theorem Tabled.inheritCheck (s : State) (l : GroupId) : Tabled s (s.inheritCheck l) := by
  unfold State.inheritCheck; split
  · exact Tabled.setSeries s l _
  · exact Tabled.refl s

theorem Measuring.startSettle (s : State) (l : GroupId) : Measuring s (s.startSettle l) := by
  unfold State.startSettle; split
  · exact Measuring.modGroup s l _
  · split <;> exact Measuring.modGroup s l _

theorem Tabled.startSettle (s : State) (l : GroupId) : Tabled s (s.startSettle l) := by
  unfold State.startSettle; split
  · exact Tabled.modGroup s l _ (fun _ => rfl) (fun _ => rfl)
  · split <;> exact Tabled.modGroup s l _ (fun _ => rfl) (fun _ => rfl)

theorem Measuring.settleAfter (s : State) (l : GroupId) (formed changed : Bool) :
    Measuring s (s.settleAfter l formed changed) := by
  unfold State.settleAfter; split
  · exact Measuring.refl s
  · split
    · exact Measuring.modGroup s l _
    · split
      · exact (Measuring.abandonOwn s l).trans (Measuring.startSettle _ l)
      · split
        · exact Measuring.startSettle s l
        · exact Measuring.refl s

theorem Tabled.settleAfter (s : State) (l : GroupId) (formed changed : Bool) :
    Tabled s (s.settleAfter l formed changed) := by
  unfold State.settleAfter; split
  · exact Tabled.refl s
  · split
    · exact Tabled.modGroup s l _ (fun _ => rfl) (fun _ => rfl)
    · split
      · exact (Tabled.abandonOwn s l).trans (Tabled.startSettle _ l)
      · split
        · exact Tabled.startSettle s l
        · exact Tabled.refl s

theorem Measuring.evaluateGroup (s : State) (formed : Bool) (l : GroupId) : Measuring s (s.evaluateGroup formed l) := by
  unfold State.evaluateGroup; split
  · exact Measuring.refl s
  · simp only
    refine Measuring.trans ?_ ((Measuring.modGroup _ l _).trans (Measuring.settleAfter _ l _ _))
    split
    · exact Measuring.abandonGroup s l
    · exact Measuring.refl s

theorem Measuring.detachOthers (s : State) : Measuring s s.detachOthers :=
  Measuring.forEach _ _ _ fun c _ t => by
    split
    · exact Measuring.detach t c
    · exact Measuring.refl t

theorem Tabled.detachOthers (s : State) : Tabled s s.detachOthers :=
  Tabled.forEach _ _ _ fun c _ t => by
    split
    · exact Tabled.detach t c
    · exact Tabled.refl t

theorem Measuring.formGroups (s : State) (fresh : Bool) : Measuring s (s.formGroups fresh) :=
  (Measuring.abandonChanged fresh (partition s.links) s).trans
    (Measuring.of_table rfl rfl rfl rfl rfl rfl rfl rfl)

theorem Measuring.evaluateAll (s : State) (keeps : GroupId → Bool) : Measuring s (s.evaluateAll keeps) :=
  (Measuring.placeInFlight s).trans <|
    (Measuring.forEach _ _ _ fun l _ t => Measuring.inheritCheck t l).trans <|
    (Measuring.forEach _ _ _ fun l _ t => Measuring.evaluateGroup t _ l).trans (Measuring.detachOthers _)

theorem Measuring.reorderRotation (s : State) (keeps : GroupId → Bool) : Measuring s (s.reorderRotation keeps) := by
  unfold State.reorderRotation; split
  · exact Measuring.of_table rfl rfl rfl rfl rfl rfl rfl rfl
  · exact Measuring.refl s

theorem Tabled.reorderRotation (s : State) (keeps : GroupId → Bool) : Tabled s (s.reorderRotation keeps) := by
  unfold State.reorderRotation; split
  · exact Tabled.of_same rfl rfl rfl rfl
  · exact Tabled.refl s

theorem Measuring.noticeTable (s : State) (fresh : Bool) (before : Vector (Option Group) 8) :
    Measuring s (s.noticeTable fresh before) := by
  unfold State.noticeTable; split
  · exact Measuring.raise s 7
  · exact Measuring.refl s

theorem Tabled.noticeTable (s : State) (fresh : Bool) (before : Vector (Option Group) 8) :
    Tabled s (s.noticeTable fresh before) := by
  unfold State.noticeTable; split
  · exact Tabled.raise s 7
  · exact Tabled.refl s

/-- One regroup measures. -/
theorem Measuring.regroupCore (s : State) (fresh : Bool) : Measuring s (s.regroupCore fresh) :=
  (Measuring.formGroups s fresh).trans <| (Measuring.evaluateAll _ _).trans <|
    (Measuring.reorderRotation _ _).trans <| (Measuring.noticeTable _ fresh _).trans (Measuring.placeWaiting _)

/-! ### What a regroup establishes -/

theorem formGroups_groups (s : State) (fresh : Bool) (l : GroupId) :
    ((s.formGroups fresh).groups[l]).map (·.members) =
      if (partition s.links)[l] = l then some (memberMask (partition s.links) l) else none := by
  unfold State.formGroups newGroups
  simp only [Fin.getElem_fin, Vector.getElem_ofFn, Fin.eta]
  split
  · split
    · next hk =>
      unfold keepsGroup at hk
      simp only [Bool.and_eq_true] at hk
      have h2 := hk.2
      split at h2
      · next g hg => simp only [Fin.getElem_fin] at hg; rw [hg]; exact congrArg some (of_decide_eq_true h2)
      · cases h2
    · rfl
  · rfl

/-- Members of every group are those of another state. -/
def sameMembers (s t : State) : Prop := ∀ l : GroupId, (t.groups[l]).map (·.members) = (s.groups[l]).map (·.members)

theorem injectorOf_modGroup (s : State) (l m : GroupId) (inj : Option Chan) (h : (s.groups[l]).isSome = true) :
    injectorOf (s.modGroup l fun g => { g with injector := inj }) m = if l = m then inj else injectorOf s m := by
  unfold injectorOf; rw [modGroup_get]
  by_cases e : l = m
  · subst e
    rw [if_pos rfl, if_pos rfl]
    obtain ⟨g, hg⟩ := Option.isSome_iff_exists.mp h
    rw [hg]; rfl
  · rw [if_neg e, if_neg e]

/-- The intake list and the slots stand, and so does what is checked, when a group changes its injector. -/
theorem modGroup_intake (s : State) (l : GroupId) (f : Group → Group) :
    (s.modGroup l f).intake = s.intake ∧ (s.modGroup l f).slots = s.slots ∧ (s.modGroup l f).seqs = s.seqs
      ∧ (s.modGroup l f).safety = s.safety ∧ (s.modGroup l f).wiring = s.wiring
      ∧ (s.modGroup l f).yields = s.yields := by
  unfold State.modGroup; split <;> exact ⟨rfl, rfl, rfl, rfl, rfl, rfl⟩

theorem membersOf_of_map {s t : State} {l : GroupId}
    (h : (t.groups[l]).map (·.members) = (s.groups[l]).map (·.members)) : membersOf t l = membersOf s l := by
  unfold membersOf
  cases ht : t.groups[l] <;> cases hs : s.groups[l] <;> rw [ht, hs] at h <;> simp_all

theorem modGroup_members (s : State) (l m : GroupId) (f : Group → Group) (hf : ∀ g, (f g).members = g.members) :
    ((s.modGroup l f).groups[m]).map (·.members) = (s.groups[m]).map (·.members) := by
  rw [modGroup_get]; split
  · rw [Option.map_map]; congr 1; funext g; exact hf g
  · rfl

/-- An injector change alone leaves what eligibility reads. -/
theorem mayInject_setInjector (s : State) (l m : GroupId) (inj : Option Chan) (c : Chan) :
    mayInject (s.modGroup l fun g => { g with injector := inj }) m c ↔ mayInject s m c := by
  obtain ⟨h1, h2, h3, h4, h5, h6⟩ := modGroup_intake s l fun g => { g with injector := inj }
  have hm := membersOf_of_map (modGroup_members s l m (fun g => { g with injector := inj }) fun _ => rfl)
  unfold mayInject wiredInto checking
  rw [hm, h1, h3, h4, h5, h6]

/-- R8's list is what `eligible` computes. -/
theorem mayInject_of_eligible {s : State} {l : GroupId} {g : Group} {c : Chan} (hg : s.groups[l] = some g)
    (h : eligible s g c = true) : mayInject s l c := by
  unfold eligible serviceable groupPassive at h
  simp only [Bool.and_eq_true, decide_eq_true_eq, decide_eq_false_iff_not,
    Bool.not_eq_eq_eq_not, Bool.not_true] at h
  obtain ⟨⟨⟨hw, ⟨⟨hh, hd⟩, hc⟩⟩, hx⟩, hp⟩ := h
  have hm : membersOf s l = g.members := by unfold membersOf; rw [hg]
  refine ⟨hm ▸ hw, hh, hd, hc, hx, ?_⟩
  rw [hm]; exact not_not.mp hp

theorem lowestEligible_eligible {s : State} {g : Group} {c : Chan} (h : lowestEligible s g = some c) :
    eligible s g c = true := List.find?_some h

theorem chooseInjector_eligible {s : State} {l : GroupId} {g : Group} {c : Chan}
    (h : chooseInjector s l g = some c) : eligible s g c = true := by
  unfold chooseInjector at h
  split at h
  · cases h
  · split at h
    · split at h
      · next hc => cases h; exact hc
      · exact lowestEligible_eligible h
    · exact lowestEligible_eligible h

/-- One group's evaluation leaves every member mask, the intake list's soundness, and every other injector; the
group's own injector is eligible after it. -/
structure Evaluated (s t : State) (l : GroupId) : Prop where
  measuring : Measuring s t
  members : sameMembers s t
  others : ∀ m, m ≠ l → injectorOf t m = injectorOf s m
  own : ∀ c, injectorOf t l = some c → mayInject t l c
  stays : ∀ m c, mayInject s m c → mayInject t m c
  intake : intakeSound s → intakeSound t

theorem evaluateGroup_spec (s : State) (formed : Bool) (l : GroupId) : Evaluated s (s.evaluateGroup formed l) l := by
  have hmeas := Measuring.evaluateGroup s formed l
  unfold State.evaluateGroup at hmeas ⊢
  cases hg : s.groups[l] with
  | none =>
    refine ⟨Measuring.refl s, fun _ => rfl, fun _ _ => rfl, fun c h => ?_, fun _ _ => id, id⟩
    unfold injectorOf at h; rw [hg] at h; cases h
  | some g =>
    simp only [hg] at hmeas ⊢
    have hpair : ∀ b : Bool, Measuring s (if b then s.abandonGroup l else s) ∧ Tabled s (if b then s.abandonGroup l else s) := by
      intro b; cases b
      · exact ⟨Measuring.refl s, Tabled.refl s⟩
      · exact ⟨Measuring.abandonGroup s l, Tabled.abandonGroup s l⟩
    generalize (decide (chooseInjector s l g ≠ g.injector) && g.injector.isSome) = b at hmeas ⊢
    obtain ⟨m1, k1⟩ := hpair b
    generalize (if b = true then s.abandonGroup l else s) = s1 at hmeas m1 k1 ⊢
    have hsome : (s1.groups[l]).isSome = true := by
      have := k1.members l; rw [hg] at this
      cases h1 : s1.groups[l] with
      | none => rw [h1] at this; cases this
      | some _ => rfl
    have m2 := Measuring.settleAfter (s1.modGroup l fun g' => { g' with injector := chooseInjector s l g }) l formed
      (decide (chooseInjector s l g ≠ g.injector))
    have k2 := Tabled.settleAfter (s1.modGroup l fun g' => { g' with injector := chooseInjector s l g }) l formed
      (decide (chooseInjector s l g ≠ g.injector))
    have stays : ∀ m c, mayInject s m c → mayInject _ m c := fun m c h =>
      mayInject_step m2 k2 ((mayInject_setInjector s1 l m _ c).mpr (mayInject_step m1 k1 h))
    refine ⟨hmeas, fun m => ?_, fun m hm => ?_, fun c hc => ?_, stays, fun h => ?_⟩
    · exact (k2.members m).trans ((modGroup_members s1 l m (fun g' => { g' with injector := chooseInjector s l g }) fun _ => rfl).trans (k1.members m))
    · rw [k2.injector, injectorOf_modGroup _ _ _ _ hsome, if_neg (Ne.symm hm), k1.injector]
    · rw [k2.injector, injectorOf_modGroup _ _ _ _ hsome, if_pos rfl] at hc
      exact stays l c (mayInject_of_eligible hg (chooseInjector_eligible hc))
    · refine k2.intake ?_
      obtain ⟨h1, h2, _⟩ := modGroup_intake s1 l fun g' => { g' with injector := chooseInjector s l g }
      unfold intakeSound; rw [h1, h2]; exact k1.intake h

/-- Every group evaluated has an eligible injector or none. -/
theorem evaluateEach_spec (keeps : GroupId → Bool) (ls : List GroupId) : ∀ (s : State) (seen : GroupId → Prop),
    (∀ l c, seen l → injectorOf s l = some c → mayInject s l c) →
    let t := forEach ls (fun l t => t.evaluateGroup (!keeps l) l) s
    sameMembers s t ∧ (intakeSound s → intakeSound t)
      ∧ ∀ l c, seen l ∨ l ∈ ls → injectorOf t l = some c → mayInject t l c := by
  induction ls with
  | nil =>
    intro s seen h
    refine ⟨fun _ => rfl, id, fun l c hl hc => ?_⟩
    rcases hl with hl | hl
    · exact h l c hl hc
    · cases hl
  | cons a rest ih =>
    intro s seen h
    have e := evaluateGroup_spec s (!keeps a) a
    have := ih (s.evaluateGroup (!keeps a) a) (fun l => seen l ∨ l = a) (fun l c hl hc => by
      by_cases hla : l = a
      · subst hla; exact e.own c hc
      · rcases hl with hl | hl
        · exact e.stays l c (h l c hl ((e.others l hla) ▸ hc))
        · exact absurd hl hla)
    obtain ⟨h1, h2, h3⟩ := this
    refine ⟨fun l => (h1 l).trans (e.members l), fun hi => h2 (e.intake hi), fun l c hl hc => h3 l c ?_ hc⟩
    rcases hl with hl | hl
    · exact .inl (.inl hl)
    · rcases List.mem_cons.mp hl with hl | hl
      · exact .inl (.inr hl)
      · exact .inr hl

theorem mem_allNodes (l : GroupId) : l ∈ allNodes := by revert l; decide

theorem mem_allChans (c : Chan) : c ∈ allChans := by revert c; decide

theorem abandonRun_other (s : State) (c d : Chan) (h : c ≠ d) : (s.abandonRun c).seqs[d] = s.seqs[d] := by
  unfold State.abandonRun; simp only; split
  · exact upd_other _ _ _ _ h
  · rfl

theorem detach_other (s : State) (c d : Chan) (h : c ≠ d) : (s.detach c).seqs[d] = s.seqs[d] := by
  unfold State.detach
  by_cases ha : s.seqs[c].coupling = .attached
  · rw [if_pos ha]; exact (upd_other _ _ _ _ h).trans (abandonRun_other s c d h)
  · rw [if_neg ha]

/-- A channel commanded detached is DETACHED. -/
theorem detach_same (s : State) (c : Chan) : (s.detach c).seqs[c].coupling = .detached := by
  unfold State.detach
  by_cases ha : s.seqs[c].coupling = .attached
  · rw [if_pos ha]; exact congrArg Seq.coupling (upd_same _ _ _)
  · rw [if_neg ha]
    cases h : s.seqs[c].coupling with
    | detached => rfl
    | attached => exact absurd h ha

theorem abandonRun_none (s : State) (c : Chan) (h : s.seqs[c].run = .none) : s.abandonRun c = s := by
  unfold State.abandonRun
  exact if_neg (by rw [h]; rintro (h | h) <;> cases h)

/-- A channel without a run has none after a detach. -/
theorem detach_run_none (s : State) (c : Chan) (h : s.seqs[c].run = .none) : (s.detach c).seqs[c].run = .none := by
  unfold State.detach
  by_cases ha : s.seqs[c].coupling = .attached
  · rw [if_pos ha, abandonRun_none s c h]; exact (congrArg Seq.run (upd_same _ _ _)).trans h
  · rw [if_neg ha]; exact h

theorem detach_coupling (s : State) (c d : Chan) (h : (s.detach c).seqs[d].coupling = .attached) :
    d ≠ c ∧ s.seqs[d].coupling = .attached := by
  by_cases hd : c = d
  · subst hd; rw [detach_same] at h; cases h
  · exact ⟨Ne.symm hd, detach_other s c d hd ▸ h⟩

/-- After `detachOthers` an attached channel is an injector. -/
theorem detachOthers_attached (s : State) : attachedInject s.detachOthers := by
  have key : ∀ (cs : List Chan) (t : State) (seen : Chan → Prop),
      (∀ c, seen c → t.seqs[c].coupling = .attached → ∃ l, injectorOf t l = some c) →
      ∀ c, seen c ∨ c ∈ cs →
        (forEach cs (fun c t => if (groupOfInjector t c).isNone then t.detach c else t) t).seqs[c].coupling = .attached →
        ∃ l, injectorOf (forEach cs (fun c t => if (groupOfInjector t c).isNone then t.detach c else t) t) l = some c := by
    intro cs
    induction cs with
    | nil =>
      intro t seen h c hc ha
      rcases hc with hc | hc
      · exact h c hc ha
      · cases hc
    | cons a rest ih =>
      intro t seen h c hc ha
      refine ih (if (groupOfInjector t a).isNone then t.detach a else t) (fun d => seen d ∨ d = a) (fun d hd hda => ?_) c ?_ ha
      · split at hda
        · next hn =>
          rw [if_pos hn]
          obtain ⟨hne, hatt⟩ := detach_coupling t a d hda
          rcases hd with hd | hd
          · obtain ⟨l, hl⟩ := h d hd hatt
            exact ⟨l, ((Tabled.detach t a).injector l).trans hl⟩
          · exact absurd hd hne
        · next hn =>
          rw [if_neg hn]
          rcases hd with hd | hd
          · exact h d hd hda
          · subst hd
            refine groupOfInjector_spec t d ?_
            cases hh : groupOfInjector t d with
            | none => rw [hh] at hn; exact absurd rfl hn
            | some _ => rfl
      · rcases hc with hc | hc
        · exact .inl (.inl hc)
        · rcases List.mem_cons.mp hc with hc | hc
          · exact .inl (.inr hc)
          · exact .inr hc
  intro c hc
  exact key allChans s (fun _ => False) (fun _ h => h.elim) c (.inr (mem_allChans c)) hc

/-- The group table agrees, every injector is eligible and every attached channel injects: after any regroup,
whatever stood before. -/
theorem regroupCore_sound (s : State) (fresh : Bool) (h : intakeSound s) : Sound (s.regroupCore fresh) := by
  unfold State.regroupCore
  simp only
  generalize keepsGroup fresh (partition s.links) s.groups = keeps
  -- the new groups, with the orders in flight placed
  have hmem := formGroups_groups s fresh
  have hint1 : intakeSound (s.formGroups fresh) := (Tabled.abandonChanged fresh (partition s.links) s).intake h
  generalize hs1 : s.formGroups fresh = s1 at hmem hint1
  have k2 : Tabled s1 (forEach (allNodes.filter fun l => !keeps l) (fun l t => t.inheritCheck l) s1.placeInFlight) :=
    (Tabled.placeInFlight s1).trans (Tabled.forEach _ _ _ fun l _ t => Tabled.inheritCheck t l)
  have hev := evaluateEach_spec keeps allNodes
    (forEach (allNodes.filter fun l => !keeps l) (fun l t => t.inheritCheck l) s1.placeInFlight) (fun _ => False)
    (fun _ _ hf => hf.elim)
  simp only at hev
  have hall : s1.evaluateAll keeps = (forEach allNodes (fun l t => t.evaluateGroup (!keeps l) l)
      (forEach (allNodes.filter fun l => !keeps l) (fun l t => t.inheritCheck l) s1.placeInFlight)).detachOthers := rfl
  have mall := Measuring.evaluateAll s1 keeps
  rw [hall] at mall ⊢
  generalize forEach allNodes (fun l t => t.evaluateGroup (!keeps l) l) _ = s3 at hev mall hall ⊢
  obtain ⟨e1, e2, e3⟩ := hev
  have k4 := Tabled.detachOthers s3
  have m4 := Measuring.detachOthers s3
  have sound4 : Sound s3.detachOthers := by
    refine ⟨?_, fun l c hc => ?_, detachOthers_attached s3, k4.intake (e2 (k2.intake hint1))⟩
    · intro l
      have hl : s3.detachOthers.links = s.links := by
        rw [mall.links_eq, ← hs1]
        exact (Measuring.formGroups s fresh).links_eq
      rw [k4.members l, e1 l, k2.members l, hl]
      exact hmem l
    · exact mayInject_step m4 k4 (e3 l c (.inr (mem_allNodes l)) ((k4.injector l) ▸ hc))
  exact ((sound4.step (Measuring.reorderRotation _ _) (Tabled.reorderRotation _ _)).step
    (Measuring.noticeTable _ fresh _) (Tabled.noticeTable _ fresh _)).step
    (Measuring.placeWaiting _) (Tabled.placeWaiting _)

end Sys2Proof.Machine
end

