-- ==== Sys2Proof/Laws/Schedule.lean ====
section
/-! SUPPORT. What the scheduler can do: every one of its operations, and the polarity edge, measures and keeps the
state sound. -/

namespace Sys2Proof.Machine

/-- The operation measures and keeps the state sound. -/
structure Working (s t : State) : Prop where
  measuring : Measuring s t
  sound : Sound s → Sound t

theorem Working.refl (s : State) : Working s s := ⟨Measuring.refl s, id⟩

theorem Working.trans {s t u : State} (h : Working s t) (k : Working t u) : Working s u :=
  ⟨h.measuring.trans k.measuring, fun a => k.sound (h.sound a)⟩

theorem Working.of_tabled {s t : State} (m : Measuring s t) (k : Tabled s t) : Working s t := ⟨m, fun h => h.step m k⟩

theorem Working.forEach {α : Type} (l : List α) (f : α → State → State) (s : State)
    (h : ∀ a ∈ l, ∀ t, Working t (f a t)) : Working s (forEach l f s) := by
  unfold Machine.forEach
  induction l generalizing s with
  | nil => exact Working.refl s
  | cons a rest ih =>
    exact (h a List.mem_cons_self s).trans (ih (f a s) fun b hb => h b (List.mem_cons_of_mem _ hb))

theorem Working.modGroup (s : State) (l : GroupId) (f : Group → Group) (hm : ∀ g, (f g).members = g.members)
    (hi : ∀ g, (f g).injector = g.injector) : Working s (s.modGroup l f) :=
  .of_tabled (Measuring.modGroup s l f) (Tabled.modGroup s l f hm hi)

theorem Working.setSeries (s : State) (l : GroupId) (x : SeriesState) : Working s (s.setSeries l x) :=
  .of_tabled (Measuring.setSeries s l x) (Tabled.setSeries s l x)

theorem Working.clearCounter (s : State) (l : GroupId) : Working s (s.clearCounter l) :=
  Working.modGroup s l _ (fun _ => rfl) (fun _ => rfl)

theorem Working.abandonRun (s : State) (c : Chan) : Working s (s.abandonRun c) :=
  .of_tabled (Measuring.abandonRun s c) (Tabled.abandonRun s c)

theorem Working.detach (s : State) (c : Chan) : Working s (s.detach c) :=
  .of_tabled (Measuring.detach s c) (Tabled.detach s c)

theorem Working.stopChannel (s : State) (c : Chan) : Working s (s.stopChannel c) :=
  .of_tabled (Measuring.stopChannel s c) (Tabled.stopChannel s c)

theorem Working.openReference (s : State) (c : Chan) : Working s (s.openReference c) :=
  .of_tabled (Measuring.openReference s c) (Tabled.openReference s c)

theorem Working.dropRun (s : State) (c : Chan) : Working s (s.dropRun c) :=
  .of_tabled (Measuring.dropRun s c) (Tabled.dropRun s c)

theorem Working.tryAttach (s : State) (c : Chan) : Working s (s.tryAttach c) :=
  .of_tabled (Measuring.tryAttach s c) (Tabled.tryAttach s c)

theorem Working.tryReference (s : State) (c : Chan) : Working s (s.tryReference c) :=
  .of_tabled (Measuring.tryReference s c) (Tabled.tryReference s c)

theorem Working.startRun (s : State) (c : Chan) (kind : RunKind) (owner : Option SlotId) (copy : RunCopy)
    (hm : s.mode ≠ .safeStop) : Working s (s.startRun c kind owner copy) :=
  .of_tabled (Measuring.startRun s c kind owner copy hm) (Tabled.startRun s c kind owner copy)

theorem Working.refuseSlot (s : State) (n : SlotId) (why : Reason) : Working s (s.refuseSlot n why) :=
  .of_tabled (Measuring.refuseSlot s n why) (Tabled.refuseSlot s n why)

theorem Working.completeSlot (s : State) (n : SlotId) (final : SlotState) (reason : Byte) (kind : List Byte) :
    Working s (s.completeSlot n final reason kind) :=
  .of_tabled (Measuring.completeSlot s n final reason kind) (Tabled.completeSlot s n final reason kind)

theorem Working.seriesOver (s : State) (l : GroupId) : Working s (s.seriesOver l) :=
  .of_tabled (Measuring.seriesOver s l) (Tabled.seriesOver s l)

theorem Working.abandonOwn (s : State) (l : GroupId) : Working s (s.abandonOwn l) :=
  .of_tabled (Measuring.abandonOwn s l) (Tabled.abandonOwn s l)

theorem Working.abandonGroup (s : State) (l : GroupId) : Working s (s.abandonGroup l) :=
  .of_tabled (Measuring.abandonGroup s l) (Tabled.abandonGroup s l)

theorem Working.freeMeasurement (s : State) (l : GroupId) : Working s (s.freeMeasurement l) :=
  .of_tabled (Measuring.freeMeasurement s l) (Tabled.freeMeasurement s l)

theorem Working.regroupCore (s : State) (fresh : Bool) : Working s (s.regroupCore fresh) :=
  ⟨Measuring.regroupCore s fresh, fun h => regroupCore_sound s fresh h.intake⟩

/-- The channels left attached without a run are detached. -/
theorem Working.detachIdle (s : State) :
    Working s s.detachIdle :=
  Working.forEach _ _ _ fun c _ t => by
    split
    · exact Working.detach t c
    · exact Working.refl t

/-- A change of a sequencer that keeps coupling, run and context. -/
theorem Working.setSeq (s : State) (c : Chan) (q : Seq) (hc : q.coupling = s.seqs[c].coupling)
    (hr : q.run = s.seqs[c].run) (hrec : q.record = s.seqs[c].record) (hx : q.ctx = s.seqs[c].ctx)
    (hv : q.viewLatched = s.seqs[c].viewLatched) (hu : q.latestUb = s.seqs[c].latestUb) : Working s (s.setSeq c q) :=
  .of_tabled (Measuring.of_seq c q ⟨hrec, hv, hu, .inl hx, rfl, rfl, rfl, rfl,
    fun a h => by rw [hc, hr]; exact a h, fun _ a => by rw [hc, hr]; exact a, fun a => by rw [hc]; exact a⟩)
    (Tabled.setSeq s c q fun h => by rw [← hc]; exact h)

/-! ### Grants -/

theorem Working.requestStop (s : State) (l : GroupId) : Working s (s.requestStop l) := by
  unfold State.requestStop
  split
  · exact Working.refl s
  · split
    · exact Working.refl s
    · next c _ =>
      split
      · split
        · exact (Working.abandonRun s c).trans (Working.seriesOver _ l)
        · exact (Working.setSeq s c { s.seqs[c] with stopRequest := true } rfl rfl rfl rfl rfl rfl).trans
            (Working.setSeries _ l _)
      · exact Working.refl s

theorem Working.detachInjector (s : State) (l : GroupId) : Working s (s.detachInjector l) := by
  unfold State.detachInjector; split
  · split
    · exact Working.detach s _
    · exact Working.refl s
  · exact Working.refl s

theorem Working.refuseDispatch (s : State) (o : Order) (why : Reason) : Working s (s.refuseDispatch o why) :=
  (Working.refuseSlot s o.slot why).trans
    ((Working.setSeries _ o.group _).trans (Working.detachInjector _ _))

theorem Working.countSeries (s : State) (l : GroupId) : Working s (s.countSeries l) :=
  Working.modGroup s l _ (fun _ => rfl) (fun _ => rfl)

/-- In a sound list a slot has one order. -/
theorem order_unique {s : State} (h : intakeSound s) {o p : Order} (ho : o ∈ s.intake) (hp : p ∈ s.intake)
    (e : p.slot = o.slot) : p = o := (List.inj_on_of_nodup_map h.1) hp ho e

theorem modGroup_mode (s : State) (l : GroupId) (f : Group → Group) : (s.modGroup l f).mode = s.mode := by
  unfold State.modGroup; split <;> rfl

theorem setPhase_mode (s : State) (n : SlotId) (ph : OrderPhase) : (s.setPhase n ph).mode = s.mode := rfl

theorem Working.startSpot (s : State) (o : Order) (plan : PlanId) (hm : s.mode ≠ .safeStop) (ho : o ∈ s.intake)
    (hj : ∀ c, o.job ≠ .selfcheck c) : Working s (s.startSpot o plan) := by
  unfold State.startSpot
  split
  · split
    · next c _ =>
      have h1 : Working s (s.setPhase o.slot .running) :=
        ⟨Measuring.setPhase s _ _, fun hs => hs.step (Measuring.setPhase s _ _)
          (Tabled.setPhase s _ _ fun p hp e => .inr (order_unique hs.intake ho hp e ▸ hj))⟩
      refine h1.trans ((Working.countSeries _ o.group).trans (Working.startRun _ c _ _ _ ?_))
      unfold State.countSeries; rw [modGroup_mode]; exact hm
    · exact Working.refuseDispatch s o _
  · exact Working.refuseDispatch s o _

theorem Working.startCheck (s : State) (o : Order) (c : Chan) (hm : s.mode ≠ .safeStop) :
    Working s (s.startCheck o c) := by
  unfold State.startCheck
  simp only
  have h0 : Working s (if s.seqs[c].run = .none then s else s.dropRun c) := by
    split
    · exact Working.refl s
    · exact Working.dropRun s c
  have hrun := clearRun_run s c
  generalize (if s.seqs[c].run = .none then s else s.dropRun c) = s0 at h0 hrun ⊢
  have hm0 : s0.mode ≠ .safeStop := fun h => hm (h0.measuring.mode.mp h)
  refine h0.trans ?_
  generalize hq : (s0.setPhase o.slot .running).seqs[c].setUp .selfcheck (some o.slot) _ = q
  have hq2 : (s0.setPhase o.slot .running).setSeq c q = (s0.setSeq c q).setPhase o.slot .running := rfl
  have mset : Measuring s0 (s0.setSeq c q) := by
    refine Measuring.of_seq c q ?_
    rw [← hq]
    exact ChanStep.setUp _ _ _ _ _ hm0 fun _ => hrun
  rw [hq2]
  have m2 : Measuring s0 ((s0.setSeq c q).setPhase o.slot .running) := mset.trans (Measuring.setPhase _ _ _)
  have i2 : intakeSound s0 → intakeSound ((s0.setSeq c q).setPhase o.slot .running) :=
    fun h => intakeSound_modOrder (s0.setSeq c q) o.slot (fun x => { x with phase := .running }) (fun _ => rfl) h
  have w3 : Working s0 (((s0.setSeq c q).setPhase o.slot .running).regroupCore false) :=
    ⟨m2.trans (Measuring.regroupCore _ _), fun h => regroupCore_sound _ _ (i2 h.intake)⟩
  exact w3.trans ((Working.detach _ c).trans (Working.tryReference _ c))

theorem Working.grant (s : State) (o : Order) (hm : s.mode ≠ .safeStop) (ho : o ∈ s.intake) : Working s (s.grant o) := by
  unfold State.grant
  simp only
  have h1 := Working.setSeries s o.group .order
  have hm1 : (s.setSeries o.group .order).mode ≠ .safeStop := fun e => hm (h1.measuring.mode.mp e)
  have ho1 : o ∈ (s.setSeries o.group .order).intake := by
    rw [State.setSeries, (modGroup_intake s o.group _).1]; exact ho
  refine h1.trans ?_
  split
  · next n plan hj =>
    split
    · exact Working.refuseDispatch _ o _
    · exact Working.startSpot _ o plan hm1 ho1 fun c e => by rw [hj] at e; cases e
  · next c hj =>
    split
    · exact Working.refuseDispatch _ o _
    · exact Working.startCheck _ o c hm1

/-! ### Series and turns -/

theorem Working.setOwn (s : State) (l : GroupId) (state : SeriesState) (p : PlanId) : Working s (s.setOwn l state p) :=
  Working.modGroup s l _ (fun _ => rfl) (fun _ => rfl)

theorem Working.detachForTurn (s : State) (c : Chan) (kind : RunKind) : Working s (s.detachForTurn c kind) := by
  unfold State.detachForTurn; split
  · exact Working.detach s c
  · exact Working.refl s

theorem Working.startOwn (s : State) (l : GroupId) (state : SeriesState) (kind : RunKind) (hm : s.mode ≠ .safeStop) :
    Working s (s.startOwn l state kind) := by
  unfold State.startOwn
  split
  · next g p _ _ =>
    split
    · next c _ =>
      have h := (Working.setOwn s l state p).trans ((Working.detachForTurn _ c kind).trans (Working.countSeries _ l))
      exact h.trans (Working.startRun _ c kind none _ fun e => hm (h.measuring.mode.mp e))
    · exact Working.refl s
  · exact Working.refl s

theorem Working.startTurn (s : State) (l : GroupId) (hm : s.mode ≠ .safeStop) : Working s (s.startTurn l) :=
  (Working.startOwn s l .turn .triple hm).trans
    (.of_tabled (Measuring.of_table rfl rfl rfl rfl rfl rfl rfl rfl) (Tabled.of_same rfl rfl rfl rfl))

theorem grantable_mode {s : State} {o : Order} (h : grantable s o = true) : s.mode ≠ .safeStop := by
  unfold grantable at h
  rw [Bool.and_eq_true] at h
  have h2 := h.2
  split at h2
  · cases h2
  · simp only [Bool.and_eq_true, decide_eq_true_eq] at h2
    exact h2.1.2

theorem Working.scheduleOne {s t : State} (h : scheduleOne s = some t) : Working s t := by
  unfold Machine.scheduleOne at h
  split at h
  · next o ho =>
    cases h
    exact Working.grant s o (grantable_mode (List.find?_some ho)) (List.mem_of_find?_eq_some ho)
  · split at h
    · next hm =>
      split at h
      · obtain ⟨l, _, rfl⟩ := Option.map_eq_some_iff.mp h
        exact Working.startTurn s l (by rw [hm]; decide)
      · cases h
    · next hm =>
      obtain ⟨l, _, rfl⟩ := Option.map_eq_some_iff.mp h
      exact Working.startOwn s l _ _ (by rw [hm]; decide)
    · cases h
    · cases h

theorem Working.requestStops (s : State) : Working s (Machine.forEach allNodes (fun l t => t.requestStop l) s) :=
  Working.forEach _ _ _ fun l _ t => Working.requestStop t l

theorem Working.scheduleAll : ∀ (n : Nat) (s : State), Working s (scheduleAll n s)
  | 0, s => Working.refl s
  | n + 1, s => by
    unfold Machine.scheduleAll
    simp only
    have h := Working.requestStops s
    generalize Machine.forEach allNodes (fun l t => t.requestStop l) s = t at h ⊢
    cases hu : Machine.scheduleOne t with
    | none => exact h
    | some u => exact h.trans ((Working.scheduleOne hu).trans (Working.scheduleAll n u))

/-- The scheduler's decisions measure and keep the state sound. -/
theorem Working.schedule (s : State) : Working s s.schedule :=
  (Working.scheduleAll scheduleFuel s).trans (Working.detachIdle _)

/-! ### Modes and regroups -/

theorem Working.abandonAll (s : State) : Working s (Machine.forEach allNodes (fun l t => t.abandonOwn l) s) :=
  Working.forEach _ _ _ fun l _ t => Working.abandonOwn t l

/-- A pending PARKED request met changes the mode. -/
theorem Working.recount (s : State) : Working s s.recount := by
  unfold State.recount
  split
  · next h =>
    obtain ⟨hp, hi, _⟩ := h
    unfold State.changeMode
    simp only [if_true]
    have h1 := Working.abandonAll s
    generalize Machine.forEach allNodes (fun l t => t.abandonOwn l) s = s1 at h1 ⊢
    have m := h1.measuring
    refine ⟨⟨m.fixed, ⟨(fun e => by cases e), (fun e => by rw [hi] at e; cases e)⟩, m.pending, m.done,
      (fun e => by rw [hp] at e; cases e), m.memory, m.canonical, m.chan⟩, fun hs => ?_⟩
    have := h1.sound hs
    exact ⟨this.table, this.injectors, this.attached, this.intake⟩
  · exact Working.refl s

/-- A regroup with all that follows measures, and leaves a sound state whatever the topology was before it. -/
theorem Working.regroupFrom (s : State) (running : Nat) (fresh : Bool) : Working s (s.regroupFrom running fresh) := by
  unfold State.regroupFrom
  simp only
  refine (Working.regroupCore s fresh).trans ?_
  generalize s.regroupCore fresh = s1
  refine Working.trans ?_ (Working.schedule _)
  split
  · exact Working.recount s1
  · exact Working.refl s1

theorem regroupFrom_sound (s : State) (running : Nat) (fresh : Bool) (h : intakeSound s) :
    Sound (s.regroupFrom running fresh) := by
  unfold State.regroupFrom
  simp only
  have hs := regroupCore_sound s fresh h
  generalize s.regroupCore fresh = s1 at hs ⊢
  refine (Working.schedule _).sound ?_
  split
  · exact (Working.recount s1).sound hs
  · exact hs

theorem Working.regroup (s : State) : Working s s.regroup := Working.regroupFrom s _ false

theorem regroup_sound (s : State) (h : intakeSound s) : Sound s.regroup := regroupFrom_sound s _ false h

/-! ### Rotation and edges -/

theorem nextInjector_eligible {s : State} {g : Group} {c : Chan} (h : nextInjector s g c ≠ c) :
    eligible s g (nextInjector s g c) = true := by
  unfold nextInjector at h ⊢
  split
  · next d hd => have := List.find?_some hd; rw [Bool.and_eq_true] at this; exact this.2
  · next hn =>
    rw [hn] at h
    simp only at h
    cases hl : lowestEligible s g with
    | none => rw [hl] at h; exact absurd rfl h
    | some d => exact lowestEligible_eligible hl

theorem Measuring.rotate (s : State) (l : GroupId) : Measuring s (s.rotate l) := by
  unfold State.rotate
  split
  · exact Measuring.refl s
  · split
    · exact Measuring.refl s
    · simp only
      split
      · exact Measuring.refl s
      · exact (Measuring.stopChannel s _).trans ((Measuring.modGroup _ l _).trans (Measuring.startSettle _ l))

theorem injectorOf_moveInjector (s : State) (l m : GroupId) (d : Chan) (h : (s.groups[l]).isSome = true) :
    injectorOf (s.moveInjector l d) m = if l = m then some d else injectorOf s m := by
  unfold injectorOf State.moveInjector; rw [modGroup_get]
  by_cases e : l = m
  · subst e
    obtain ⟨g, hg⟩ := Option.isSome_iff_exists.mp h
    rw [if_pos rfl, if_pos rfl, hg]; rfl
  · rw [if_neg e, if_neg e]

theorem mayInject_moveInjector (s : State) (l m : GroupId) (d c : Chan) :
    mayInject (s.moveInjector l d) m c ↔ mayInject s m c := by
  obtain ⟨h1, h2, h3, h4, h5, h6⟩ := modGroup_intake s l fun g => { g with injector := some d, series := .none, rotation := 0 }
  have hm := membersOf_of_map (modGroup_members s l m (fun g => { g with injector := some d, series := .none, rotation := 0 })
    fun _ => rfl)
  unfold State.moveInjector mayInject wiredInto checking
  rw [hm, h1, h3, h4, h5, h6]

/-- An injector moved to another eligible channel keeps the state sound, once the old one is detached. -/
theorem Sound.moveInjector {s : State} (h : Sound s) (l : GroupId) (d : Chan) (hg : (s.groups[l]).isSome = true)
    (hd : mayInject s l d) (hc : ∀ c, injectorOf s l = some c → s.seqs[c].coupling = .detached) :
    Sound (s.moveInjector l d) := by
  obtain ⟨h1, h2, h3, _⟩ := modGroup_intake s l fun g => { g with injector := some d, series := .none, rotation := 0 }
  have hlinks : (s.moveInjector l d).links = s.links := (Measuring.modGroup s l _).links_eq
  refine ⟨fun m => ?_, fun m c hmc => ?_, fun c ha => ?_, ?_⟩
  · rw [hlinks]
    exact (modGroup_members s l m (fun g => { g with injector := some d, series := .none, rotation := 0 })
      fun _ => rfl).trans (h.table m)
  · rw [injectorOf_moveInjector s l m d hg] at hmc
    rw [mayInject_moveInjector]
    by_cases e : l = m
    · subst e; rw [if_pos rfl] at hmc; cases hmc; exact hd
    · rw [if_neg e] at hmc; exact h.injectors m c hmc
  · have ha' : s.seqs[c].coupling = .attached := by
      have e : (s.moveInjector l d).seqs = s.seqs := h3
      rw [e] at ha; exact ha
    obtain ⟨m, hm⟩ := h.attached c ha'
    refine ⟨m, ?_⟩
    rw [injectorOf_moveInjector s l m d hg]
    by_cases e : l = m
    · subst e; rw [hc c hm] at ha'; cases ha'
    · rw [if_neg e]; exact hm
  · show intakeSound (s.modGroup l _)
    unfold intakeSound; rw [h1, h2]; exact h.intake

theorem Working.rotate (s : State) (l : GroupId) : Working s (s.rotate l) := by
  refine ⟨Measuring.rotate s l, fun hs => ?_⟩
  unfold State.rotate
  split
  · exact hs
  · next g hg =>
    split
    · exact hs
    · next c hc =>
      simp only
      split
      · exact hs
      · next hne =>
        have hel := nextInjector_eligible hne
        generalize nextInjector s g c = d at hel ⊢
        have m1 := Measuring.stopChannel s c
        have k1 := Tabled.stopChannel s c
        have hd := mayInject_step m1 k1 (mayInject_of_eligible hg hel)
        have s1 := hs.step m1 k1
        have hinj : injectorOf (s.stopChannel c) l = some c := by
          rw [k1.injector]; unfold injectorOf; rw [hg]; exact hc
        have hdet : (s.stopChannel c).seqs[c].coupling = .detached := detach_same _ c
        have hsome : ((s.stopChannel c).groups[l]).isSome = true := by
          unfold injectorOf at hinj; split at hinj
          · next h => rw [h]; rfl
          · cases hinj
        generalize s.stopChannel c = u at s1 hd hdet hinj hsome ⊢
        refine Sound.step ?_ (Measuring.startSettle _ l) (Tabled.startSettle _ l)
        refine Sound.moveInjector s1 l d hsome hd fun e he => ?_
        rw [hinj] at he; cases he; exact hdet

theorem Working.countEdge (s : State) (l : GroupId) (g : Group) (handed stopped : Bool) :
    Working s (s.countEdge l g handed stopped) := by
  unfold State.countEdge; split
  · exact Working.seriesOver s l
  · exact Working.modGroup s l _ (fun _ => rfl) (fun _ => rfl)

theorem Working.rotateDue (s : State) (l : GroupId) (due : Bool) : Working s (s.rotateDue l due) := by
  unfold State.rotateDue; split
  · exact (Working.rotate s l).trans (Working.clearCounter _ l)
  · exact Working.refl s

theorem Working.detachUnclaimed (s : State) (l : GroupId) (stopped : Bool) : Working s (s.detachUnclaimed l stopped) := by
  unfold State.detachUnclaimed; split
  · exact Working.detachInjector s l
  · exact Working.refl s

theorem Working.seriesEdge (s : State) (l : GroupId) (handed stopped : Bool) : Working s (s.seriesEdge l handed stopped) := by
  unfold State.seriesEdge
  split
  · exact Working.refl s
  · next g _ =>
    simp only
    refine (Working.countEdge s l g handed stopped).trans ?_
    generalize s.countEdge l g handed stopped = s1
    refine (Working.rotateDue s1 l (rotationDue g handed)).trans ?_
    generalize s1.rotateDue l (rotationDue g handed) = s2
    refine (Working.detachUnclaimed s2 l stopped).trans ?_
    generalize s2.detachUnclaimed l stopped = s3
    split
    · exact Working.schedule s3
    · exact Working.refl s3

theorem Working.rotateTurn (s : State) (l : GroupId) : Working s (s.rotateTurn l) := by
  unfold State.rotateTurn; split
  · split
    · exact Working.rotate s l
    · exact Working.refl s
  · exact Working.refl s

theorem Working.afterTurn (s : State) (l : GroupId) : Working s (s.afterTurn l) :=
  .of_tabled (Measuring.of_table rfl rfl rfl rfl rfl rfl rfl rfl) (Tabled.of_same rfl rfl rfl rfl)

theorem Working.turnDone (s : State) (c : Chan) (l : GroupId) : Working s (s.turnDone c l) :=
  (Working.setSeries s l _).trans <| (Working.detach _ c).trans <|
    (Working.rotateTurn _ l).trans <| (Working.afterTurn _ l).trans (Working.schedule _)

theorem Working.orderRunDone (s : State) (n : SlotId) : Working s (s.orderRunDone n) := by
  unfold State.orderRunDone
  split
  · next o ho =>
    have hp := List.find?_some ho
    rw [Bool.and_eq_true] at hp
    have hslot : o.slot = n := of_decide_eq_true hp.1
    have hphase : o.phase = .running := of_decide_eq_true hp.2
    have h1 : Working s (s.setPhase n .finishing) :=
      ⟨Measuring.setPhase s _ _, fun hs => hs.step (Measuring.setPhase s _ _) (Tabled.setPhase s _ _ fun p hpi e => by
        have := order_unique hs.intake (List.mem_of_find?_eq_some ho) hpi (e.trans hslot.symm)
        subst this; left; rw [hphase]; decide)⟩
    exact h1.trans ((Working.freeMeasurement _ _).trans ((Working.recount _).trans (Working.schedule _)))
  · exact Working.schedule s

/-- The sequencer's own part of an edge. -/
theorem edge_setSeq {s s1 : State} (hq : s1.seqs = s.seqs) (c : Chan) (q : Seq)
    (h : ChanStep (s1.mode = .safeStop) s.seqs[c] q s1.safety[c] s1.safety[c]) (hc : q.coupling = s.seqs[c].coupling) :
    Working s1 (s1.setSeq c q) :=
  .of_tabled (Measuring.of_seq c q (by rw [hq]; exact h)) (Tabled.setSeq s1 c q fun a => by rw [hq, ← hc]; exact a)

/-- A polarity edge hands on at most one triple; the rest of it measures and keeps the state sound. -/
theorem Working.edge (s : State) (c : Chan) (flag : Option Cond) (settleTime : Nat) :
    ∃ x : Option Triple, Working (s.handTriple x) (s.edge c flag settleTime) := by
  unfold State.edge
  simp only
  generalize tripleOf s c s.seqs[c] _ = t
  have hq : (s.handTriple t).seqs = s.seqs := by unfold State.handTriple; split <;> rfl
  cases hrun : s.seqs[c].run with
  | none => exact ⟨none, Working.refl s⟩
  | series =>
    refine ⟨t, ?_⟩
    generalize s.handTriple t = s1 at hq ⊢
    simp only
    have h2 : Working s1 (s1.setSeq c (if s.seqs[c].stopRequest then s.seqs[c].endRun else
        { s.seqs[c].beginHalf s.seqs[c].polarity.flip with
          history := appendPlateau s.seqs[c].history (s.seqs[c].plateau flag settleTime)
          half := if True then s.seqs[c].half else s.seqs[c].half + 1 })) := by
      refine edge_setSeq hq c _ ?_ ?_
      · split
        · exact ChanStep.endRun _ _ fun _ _ hr => by rw [hrun] at hr; cases hr
        · exact ⟨rfl, rfl, rfl, .inl rfl, rfl, rfl, rfl, rfl, id, fun _ => id, id⟩
      · split <;> rfl
    split
    · exact h2.trans (Working.seriesEdge _ _ _ _)
    · exact h2
  | triple =>
    refine ⟨t, ?_⟩
    generalize s.handTriple t = s1 at hq ⊢
    simp only
    split
    · exact edge_setSeq hq c _ ⟨rfl, rfl, rfl, .inl rfl, rfl, rfl, rfl, rfl, id, fun _ => id, id⟩ rfl
    · have h2 : Working s1 (s1.setSeq c s.seqs[c].endRun) :=
        edge_setSeq hq c _ (ChanStep.endRun _ _ fun _ _ hr => by rw [hrun] at hr; cases hr) rfl
      refine h2.trans ?_
      split
      · exact Working.orderRunDone _ _
      · split
        · exact Working.turnDone _ _ _
        · exact Working.schedule _
  | selfcheck =>
    refine ⟨t, ?_⟩
    generalize s.handTriple t = s1 at hq ⊢
    simp only
    split
    · exact edge_setSeq hq c _ ⟨rfl, rfl, rfl, .inl rfl, rfl, rfl, rfl, rfl, id, fun _ => id, id⟩ rfl
    · have h2 : Working s1 ((s1.setSeq c s.seqs[c].endRun).openReference c) := by
        have := Working.dropRun s1 c
        unfold State.dropRun at this
        rwa [hq] at this
      refine h2.trans ?_
      split
      · exact Working.orderRunDone _ _
      · exact Working.schedule _

end Sys2Proof.Machine
end

