-- ==== Sys2Proof/Laws/Nodes.lean ====
section
/-! SUPPORT. What the node status unit can do: it changes node figures, bytes of the node records, the two node news
masks, the attention sets of levels 1, 2 and 5 and the hold, and nothing else. -/

namespace Sys2Proof.Machine

/-- The state with everything blanked that the node status unit may change. -/
def State.nodeFixed (s : State) : State :=
  { s with
    nodes := Vector.replicate 8 NodeStatus.initial, mem := [], hold := none
    news := { s.news with nodeState := 0, nodeStale := 0 }
    attn := { s.attn with pending := 0, faultFact := false } }

/-- What the node status unit can do. -/
structure Recording (s t : State) : Prop where
  fixed : t.nodeFixed = s.nodeFixed
  memory : ∀ a, ¬ inRecords a → t.mem.read a = s.mem.read a
  canonical : s.mem.wf = true → t.mem.wf = true

theorem Recording.refl (s : State) : Recording s s := ⟨rfl, fun _ _ => rfl, id⟩

theorem Recording.trans {s t u : State} (h : Recording s t) (k : Recording t u) : Recording s u :=
  ⟨k.fixed.trans h.fixed, fun a ha => (k.memory a ha).trans (h.memory a ha), fun a => k.canonical (h.canonical a)⟩

theorem Recording.forEach {α : Type} (l : List α) (f : α → State → State) (s : State)
    (h : ∀ a ∈ l, ∀ t, Recording t (f a t)) : Recording s (forEach l f s) := by
  unfold Machine.forEach
  induction l generalizing s with
  | nil => exact Recording.refl s
  | cons a rest ih =>
    exact (h a List.mem_cons_self s).trans (ih (f a s) fun b hb => h b (List.mem_cons_of_mem _ hb))

/-! ### What recording leaves -/

theorem Recording.seqs_eq {s t : State} (h : Recording s t) : t.seqs = s.seqs :=
  (congrArg State.seqs h.fixed : t.nodeFixed.seqs = s.nodeFixed.seqs)
theorem Recording.safety_eq {s t : State} (h : Recording s t) : t.safety = s.safety :=
  (congrArg State.safety h.fixed : t.nodeFixed.safety = s.nodeFixed.safety)
theorem Recording.groups_eq {s t : State} (h : Recording s t) : t.groups = s.groups :=
  (congrArg State.groups h.fixed : t.nodeFixed.groups = s.nodeFixed.groups)
theorem Recording.mode_eq {s t : State} (h : Recording s t) : t.mode = s.mode :=
  (congrArg State.mode h.fixed : t.nodeFixed.mode = s.nodeFixed.mode)
theorem Recording.links_eq {s t : State} (h : Recording s t) : t.links = s.links :=
  (congrArg State.links h.fixed : t.nodeFixed.links = s.nodeFixed.links)
theorem Recording.wiring_eq {s t : State} (h : Recording s t) : t.wiring = s.wiring :=
  (congrArg State.wiring h.fixed : t.nodeFixed.wiring = s.nodeFixed.wiring)
theorem Recording.yields_eq {s t : State} (h : Recording s t) : t.yields = s.yields :=
  (congrArg State.yields h.fixed : t.nodeFixed.yields = s.nodeFixed.yields)
theorem Recording.intake_eq {s t : State} (h : Recording s t) : t.intake = s.intake :=
  (congrArg State.intake h.fixed : t.nodeFixed.intake = s.nodeFixed.intake)
theorem Recording.slots_eq {s t : State} (h : Recording s t) : t.slots = s.slots :=
  (congrArg State.slots h.fixed : t.nodeFixed.slots = s.nodeFixed.slots)
theorem Recording.starting_eq {s t : State} (h : Recording s t) : t.starting = s.starting :=
  (congrArg State.starting h.fixed : t.nodeFixed.starting = s.nodeFixed.starting)
theorem Recording.endPending_eq {s t : State} (h : Recording s t) : t.endPending = s.endPending :=
  (congrArg State.endPending h.fixed : t.nodeFixed.endPending = s.nodeFixed.endPending)

/-- Recording keeps what the scheduler's operations rely on. -/
theorem Sound.of_recording {s t : State} (h : Sound s) (r : Recording s t) : Sound t := by
  obtain ⟨h1, h2, h3, h4⟩ := h
  refine ⟨?_, ?_, ?_, ?_⟩
  · unfold tableAgrees at *; rw [r.groups_eq, r.links_eq]; exact h1
  · unfold injectorsEligible injectorOf mayInject wiredInto membersOf checking at *
    rw [r.groups_eq, r.wiring_eq, r.safety_eq, r.seqs_eq, r.intake_eq, r.yields_eq]; exact h2
  · unfold attachedInject injectorOf at *; rw [r.groups_eq, r.seqs_eq]; exact h3
  · unfold intakeSound at *; rw [r.intake_eq, r.slots_eq]; exact h4

/-! ### Operations -/

theorem Recording.setNode (s : State) (n : NodeId) (x : NodeStatus) : Recording s (s.setNode n x) :=
  ⟨rfl, fun _ _ => rfl, id⟩

theorem Recording.pokes (s : State) (a : Nat) (bs : List Byte) (h : 0x700 ≤ a ∧ a + bs.length ≤ 0x800) :
    Recording s (s.pokes a bs) :=
  ⟨rfl, fun b hb => Memory.read_writeBytes_other bs s.mem a b (by unfold inRecords at hb; omega),
    Memory.wf_writeBytes bs s.mem a⟩

theorem imageBytes_length (x : NodeStatus) (count : BitVec 16) : (imageBytes x count).length = 28 := by
  simp [imageBytes, le16, leNat, leInt, le32]

theorem Recording.writeImage (s : State) (n : NodeId) : Recording s (s.writeImage n) :=
  (Recording.setNode s n _).trans (Recording.pokes _ _ _ (by rw [imageBytes_length]; unfold recordAddr; omega))

theorem Recording.imageEvent (s : State) (n : NodeId) : Recording s (s.imageEvent n) := by
  unfold State.imageEvent; split
  · exact Recording.setNode s n _
  · exact Recording.writeImage s n

theorem Recording.endHold (s : State) : Recording s s.endHold :=
  Recording.trans (t := { s with hold := none }) ⟨rfl, fun _ _ => rfl, id⟩
    (Recording.forEach _ _ _ fun n _ t => by
      split
      · exact Recording.writeImage t n
      · exact Recording.refl t)

theorem setFault_frame (a : Attn) (fact : Bool) :
    { a.setFault fact with pending := 0, faultFact := false } = ({ a with pending := 0, faultFact := false } : Attn) := by
  unfold Attn.setFault; split
  · rfl
  · obtain ⟨h1, h2, h3, _⟩ := follow_frame { a with faultFact := fact } 1 fact
    show Attn.mk 0 _ _ _ false = _
    rw [h1, h2, h3]

theorem Recording.updateFault (s : State) : Recording s s.updateFault := by
  refine ⟨?_, fun _ _ => rfl, id⟩
  unfold State.nodeFixed State.updateFault
  simp only [setFault_frame]

theorem Recording.raise (s : State) (n : Nat) : Recording s (s.raise n) := ⟨rfl, fun _ _ => rfl, id⟩

theorem Recording.newsNodeState (s : State) (n : Nat) : Recording s (s.newsNodeState n) := ⟨rfl, fun _ _ => rfl, id⟩

theorem Recording.newsNodeStale (s : State) (n : Nat) : Recording s (s.newsNodeStale n) := ⟨rfl, fun _ _ => rfl, id⟩

theorem Recording.applyNode (r : Result) (n : NodeId) (s : State) : Recording s (s.applyNode r n) := by
  unfold State.applyNode
  simp only
  have h : Recording s (((s.setNode n (applyTo (nodePlanCopy s n) s.uptime r s.nodes[n])).imageEvent n).updateFault) :=
    (Recording.setNode s n _).trans ((Recording.imageEvent _ n).trans (Recording.updateFault _))
  split
  · exact h
  · exact h.trans ((Recording.newsNodeState _ _).trans (Recording.raise _ 2))

/-- A result is recorded on the nodes of its stamp. -/
theorem Recording.applyResult (s : State) (r : Result) : Recording s (s.applyResult r) :=
  Recording.forEach _ _ _ fun n _ t => Recording.applyNode r n t

theorem Recording.goStale (n : NodeId) (s : State) : Recording s (s.goStale n) :=
  (Recording.setNode s n _).trans <| (Recording.imageEvent _ n).trans <| (Recording.updateFault _).trans
    (Recording.newsNodeStale _ _)

/-- A staleness check records. -/
theorem Recording.stalenessCheck (s : State) : Recording s s.stalenessCheck := by
  unfold State.stalenessCheck
  simp only
  have h := Recording.forEach (allNodes.filter fun n => overAge s n) State.goStale s fun n _ t => Recording.goStale n t
  split
  · exact h
  · exact h.trans (Recording.raise _ 5)

theorem Recording.acknowledge (s : State) (n : NodeId) (mask : Byte) : Recording s (s.acknowledge n mask) := by
  unfold State.acknowledge
  simp only
  split
  · exact Recording.refl s
  · exact (Recording.setNode s n _).trans (Recording.imageEvent _ n)

theorem Recording.softResetNodes (s : State) : Recording s s.softResetNodes := by
  refine Recording.trans (t := { s with hold := none }) ⟨rfl, fun _ _ => rfl, id⟩ ?_
  refine (Recording.forEach _ _ _ fun n _ t => ?_).trans (Recording.updateFault _)
  simp only
  split
  · exact (Recording.setNode t n _).trans (Recording.writeImage _ n)
  · exact Recording.setNode t n _

/-! ### Thresholds and confirmation -/

/-- A reading below the fault limit goes to FAULT, below the warn limit to WARN, else to OK (R66). -/
theorem targetBand_spec (p : PlanCopy) (st : NodeState) (rf : Nat) :
    (rf < faultLimit p st ∧ targetBand p st rf = .fault) ∨
    (¬ rf < faultLimit p st ∧ rf < warnLimit p st ∧ targetBand p st rf = .warn) ∨
    (¬ rf < faultLimit p st ∧ ¬ rf < warnLimit p st ∧ targetBand p st rf = .ok) := by
  unfold targetBand
  by_cases h1 : rf < faultLimit p st
  · exact .inl ⟨h1, by rw [if_pos h1]⟩
  · by_cases h2 : rf < warnLimit p st
    · exact .inr (.inl ⟨h1, h2, by rw [if_neg h1, if_pos h2]⟩)
    · exact .inr (.inr ⟨h1, h2, by rw [if_neg h1, if_neg h2]⟩)

/-- The node enters its target, stays with the confirmation cleared, or stays with one more reading counted (R67). -/
theorem moveToward_spec (confirm : Nat) (target : Band) (st : NodeState) (candidate : Option Band) (count : Nat) :
    moveToward confirm target st candidate count = (target.state, none, 0) ∨
    (target.state = st ∧ moveToward confirm target st candidate count = (st, none, 0)) ∨
    (target.state ≠ st ∧ ∃ n, n < confirm ∧ moveToward confirm target st candidate count = (st, some target, n)) := by
  unfold moveToward
  split
  · exact .inl rfl
  · split
    · next h => exact .inr (.inl ⟨h, rfl⟩)
    · next h =>
      simp only
      generalize (if candidate = some target then count + 1 else 1) = n
      split
      · exact .inl rfl
      · next hn => exact .inr (.inr ⟨h, _, Nat.lt_of_not_le hn, rfl⟩)

end Sys2Proof.Machine
end

