-- ==== Sys2Proof/Laws/Port.lean ====
section
/-! SUPPORT. What the serial port can do: a transaction is dropped or served; a memory read changes latches and the
shifted bytes; a memory write stores host bytes, watches them and sets ERR for the others. -/

namespace Sys2Proof.Machine

/-- A transaction is dropped whole, or served with ERR clear and the status byte shifted. -/
theorem transact_spec (s : State) (count : Nat) (serve : State → State) :
    (dropped s = true ∧ s.transact count serve =
      { s with sdo := [statusByte s] ++ List.replicate count 0, err := false }) ∨
    (dropped s = false ∧ s.transact count serve = serve { s with sdo := [statusByte s], err := false }) := by
  unfold State.transact State.beginTransaction
  cases h : dropped s with
  | true => exact .inl ⟨rfl, rfl⟩
  | false => exact .inr ⟨rfl, rfl⟩

/-- With its address complete, a transaction has shifted out two zeros before `serve` acts. -/
theorem transactFrom_spec (s : State) (count : Nat) (serve : State → State) :
    (dropped s = true ∧ s.transactFrom count serve =
      { s with sdo := [statusByte s] ++ List.replicate (count + 2) 0, err := false }) ∨
    (dropped s = false ∧ s.transactFrom count serve = serve { s with sdo := [statusByte s, 0, 0], err := false }) :=
  transact_spec s (count + 2) _

/-- With its address cut short, a transaction shifts out zeros after the status byte and does nothing else. -/
theorem transactCut_eq (s : State) (n : Nat) :
    s.transactCut n = { s with sdo := [statusByte s] ++ List.replicate n 0, err := false } := by
  rcases transact_spec s n (fun t => t.shiftZeros n) with ⟨_, e⟩ | ⟨_, e⟩ <;> exact e

/-! ### Memory writes -/

/-- What one written byte does: ERR alone where the host may not write it; else it is watched, and stored unless it
is a news-mask byte (R156, R160, R161, R163). -/
theorem writeByte_spec (s : State) (a : Nat) (b : Byte) :
    ((s.starting = true ∨ hostWritable s a = false) ∧ s.writeByte a b = { s with err := true }) ∨
    (s.starting = false ∧ hostWritable s a = true ∧ a < 0x040 ∧
      s.writeByte a b = { s with watch := s.watch.record a b }) ∨
    (s.starting = false ∧ hostWritable s a = true ∧ 0x040 ≤ a ∧
      s.writeByte a b = { s with mem := s.mem.write a b, watch := s.watch.record a b }) := by
  unfold State.writeByte State.setErr
  by_cases h : s.starting = true ∨ hostWritable s a = false
  · exact .inl ⟨h, by rw [if_pos h]⟩
  · rw [if_neg h]
    rw [not_or, Bool.not_eq_true, Bool.not_eq_false] at h
    by_cases ha : a < 0x040
    · exact .inr (.inl ⟨h.1, h.2, ha, by simp only [if_pos ha]⟩)
    · exact .inr (.inr ⟨h.1, h.2, Nat.le_of_not_lt ha, by simp only [if_neg ha]; rfl⟩)

/-- The state with everything blanked that a written byte may change. -/
def State.writeFixed (s : State) : State := { s with mem := [], watch := Watch.empty, err := false, sdo := [] }

/-- What a memory write's data phase can do. -/
structure Writing (s t : State) : Prop where
  fixed : t.writeFixed = s.writeFixed
  canonical : s.mem.wf = true → t.mem.wf = true
  protects : ∀ a, hostWritable s a = false ∨ a < 0x040 ∨ s.starting = true → t.mem.read a = s.mem.read a

theorem Writing.refl (s : State) : Writing s s := ⟨rfl, id, fun _ _ => rfl⟩

theorem Writing.slots_eq {s t : State} (h : Writing s t) : t.slots = s.slots :=
  (congrArg State.slots h.fixed : t.writeFixed.slots = s.writeFixed.slots)

theorem Writing.starting_eq {s t : State} (h : Writing s t) : t.starting = s.starting :=
  (congrArg State.starting h.fixed : t.writeFixed.starting = s.writeFixed.starting)

theorem hostWritable_congr {s t : State} (h : t.slots = s.slots) (a : Nat) : hostWritable t a = hostWritable s a := by
  unfold hostWritable; rw [h]

theorem Writing.trans {s t u : State} (h : Writing s t) (k : Writing t u) : Writing s u :=
  ⟨k.fixed.trans h.fixed, fun a => k.canonical (h.canonical a), fun a ha =>
    (k.protects a (by rw [hostWritable_congr h.slots_eq, h.starting_eq]; exact ha)).trans (h.protects a ha)⟩

theorem Writing.writeByte (s : State) (a : Nat) (b : Byte) : Writing s (s.writeByte a b) := by
  rcases writeByte_spec s a b with ⟨_, e⟩ | ⟨_, _, _, e⟩ | ⟨hs, hw, hlo, e⟩
  · rw [e]; exact ⟨rfl, id, fun _ _ => rfl⟩
  · rw [e]; exact ⟨rfl, id, fun _ _ => rfl⟩
  · rw [e]
    refine ⟨rfl, Memory.wf_write s.mem a b, fun d hd => Memory.read_write_other s.mem a d b ?_⟩
    rintro rfl
    rcases hd with h | h | h
    · rw [hw] at h; cases h
    · omega
    · rw [hs] at h; cases h

theorem Writing.writeBytes : ∀ (data : List Byte) (a : Nat) (s : State), Writing s (State.writeBytes data a s)
  | [], _, s => Writing.refl s
  | b :: rest, a, s =>
    (Writing.writeByte s a b).trans
      (Writing.trans (t := (s.writeByte a b).shift 0) ⟨rfl, id, fun _ _ => rfl⟩ (Writing.writeBytes rest (a + 1) _))

/-! ### Memory reads -/

/-- The state with everything blanked that a read byte may change. -/
def State.readFixed (s : State) : State :=
  { s with
    mem := [], err := false, sdo := [], uptimeLatch := none
    seqs := Vector.ofFn fun c => { s.seqs[c] with viewLatched := false } }

/-- The four request bytes of the live views. -/
def isRequestByte (a : Nat) : Prop := ∃ c : Chan, a = viewAddr c

/-- What a memory read's data phase can do. -/
structure Reading (s t : State) : Prop where
  fixed : t.readFixed = s.readFixed
  canonical : s.mem.wf = true → t.mem.wf = true
  memory : ∀ a, ¬ isRequestByte a → t.mem.read a = s.mem.read a

theorem Reading.refl (s : State) : Reading s s := ⟨rfl, id, fun _ _ => rfl⟩

theorem Reading.trans {s t u : State} (h : Reading s t) (k : Reading t u) : Reading s u :=
  ⟨k.fixed.trans h.fixed, fun a => k.canonical (h.canonical a), fun a ha => (k.memory a ha).trans (h.memory a ha)⟩

theorem Reading.of_shift (s t : State) (h : t.readFixed = s.readFixed) (hm : t.mem = s.mem) : Reading s t :=
  ⟨h, fun a => by rw [hm]; exact a, fun _ _ => by rw [hm]⟩

theorem Reading.unlatch (s : State) (c : Chan) : Reading s (s.unlatch c) := by
  refine ⟨?_, Memory.wf_write s.mem _ 0, fun a ha => Memory.read_write_other s.mem _ a 0 fun e => ha ⟨c, e⟩⟩
  unfold State.readFixed
  congr 1
  apply Vector.ext
  intro i hi
  simp only [Vector.getElem_ofFn]
  show { (upd s.seqs c _)[(⟨i, hi⟩ : Chan)] with viewLatched := false } = _
  rw [upd_get]
  split
  · next e => subst e; rfl
  · rfl

theorem Reading.readByte (s : State) (a : Nat) : Reading s (s.readByte a) := by
  unfold State.readByte
  split
  · exact Reading.of_shift _ _ rfl rfl
  · simp only
    have h1 : Reading s (s.latchUptime a) := by
      unfold State.latchUptime; split
      · exact Reading.of_shift _ _ rfl rfl
      · exact Reading.refl s
    generalize s.latchUptime a = s1 at h1 ⊢
    refine h1.trans (Reading.trans (t := s1.shift (exchangeByte s1 a)) (Reading.of_shift _ _ rfl rfl) ?_)
    generalize s1.shift (exchangeByte s1 a) = s2
    unfold State.afterRead; split
    · exact Reading.of_shift _ _ rfl rfl
    · split
      · split
        · exact Reading.unlatch s2 _
        · exact Reading.refl s2
      · exact Reading.refl s2

theorem Reading.readBytes : ∀ (n a : Nat) (s : State), Reading s (State.readBytes n a s)
  | 0, _, s => Reading.refl s
  | n + 1, a, s => (Reading.readByte s a).trans (Reading.readBytes n (a + 1) _)

/-! ### A write transaction's end -/

/-- The steps before the regroup leave the channels but for their disconnects; a plan taken writes its check field. -/
theorem takePlan_spec (s : State) (p : PlanId) (status : Byte) :
    (status = 1 ∧ s.takePlan p status =
      { s with
        plans := upd s.plans p (readPlan s.mem p).1
        mem := s.mem.writeBytes (planAddr p + 0x28) (le32 (readPlan s.mem p).2) }) ∨
    (status ≠ 1 ∧ s.takePlan p status = { s with plans := upd s.plans p { s.plans[p] with ready := false } }) := by
  unfold State.takePlan
  by_cases h : status = 1
  · exact .inl ⟨h, by rw [if_pos h]; rfl⟩
  · exact .inr ⟨h, by rw [if_neg h]⟩

end Sys2Proof.Machine
end

