-- ==== Sys2Proof/Laws/Safety.lean ====
section
/-! SUPPORT. What keeps a state safe: the scheduler's operations, the node status unit and the port keep it whole;
an operation that changes standings, wiring, holds or links keeps what a regroup needs, and the regroup that
follows makes the state safe again. -/

namespace Sys2Proof.Machine

/-! ### Safe states through the relations -/

/-- What a regroup needs of a state to make it safe. -/
structure Regroupable (s : State) : Prop where
  memory : memoryCanonical s
  apart : referenceApart s
  quiet : safeStopQuiet s
  intake : intakeSound s
  startup : startupUnwired s

theorem Safe.sound {s : State} (h : Safe s) : Sound s := ⟨h.2.2.2.1, h.2.2.2.2.1, h.2.2.2.2.2.1, h.2.2.2.2.2.2.1⟩

theorem Safe.regroupable {s : State} (h : Safe s) : Regroupable s :=
  ⟨h.1, h.2.1, h.2.2.1, h.2.2.2.2.2.2.1, h.2.2.2.2.2.2.2⟩

theorem safe_of {s : State} (r : Regroupable s) (h : Sound s) : Safe s :=
  ⟨r.memory, r.apart, r.quiet, h.table, h.injectors, h.attached, h.intake, r.startup⟩

theorem Regroupable.measuring {s t : State} (r : Regroupable s) (m : Measuring s t) (hi : intakeSound t) :
    Regroupable t where
  memory := m.canonical r.memory
  apart := fun c => (m.chan c).apart (r.apart c)
  quiet := fun h c => (m.chan c).quiet (m.mode.mp h) (r.quiet (m.mode.mp h) c)
  intake := hi
  startup := by unfold startupUnwired; rw [m.starting_eq, m.endPending_eq, m.wiring_eq]; exact r.startup

theorem Regroupable.tabled {s t : State} (r : Regroupable s) (m : Measuring s t) (k : Tabled s t) : Regroupable t :=
  r.measuring m (k.intake r.intake)

theorem Safe.working {s t : State} (h : Safe s) (w : Working s t) : Safe t :=
  safe_of (h.regroupable.measuring w.measuring (w.sound h.sound).intake) (w.sound h.sound)

theorem Regroupable.recording {s t : State} (r : Regroupable s) (k : Recording s t) : Regroupable t where
  memory := k.canonical r.memory
  apart := by unfold referenceApart; rw [k.safety_eq, k.seqs_eq]; exact r.apart
  quiet := by unfold safeStopQuiet; rw [k.mode_eq, k.seqs_eq]; exact r.quiet
  intake := by unfold intakeSound; rw [k.intake_eq, k.slots_eq]; exact r.intake
  startup := by unfold startupUnwired; rw [k.starting_eq, k.endPending_eq, k.wiring_eq]; exact r.startup

theorem Safe.recording {s t : State} (h : Safe s) (k : Recording s t) : Safe t :=
  safe_of (h.regroupable.recording k) (h.sound.of_recording k)

/-- A regroup makes the state safe. -/
theorem Regroupable.regroupFrom {s : State} (r : Regroupable s) (running : Nat) (fresh : Bool) :
    Safe (s.regroupFrom running fresh) :=
  have h := regroupFrom_sound s running fresh r.intake
  safe_of (r.measuring (Working.regroupFrom s running fresh).measuring h.intake) h

theorem Regroupable.regroup {s : State} (r : Regroupable s) : Safe s.regroup := r.regroupFrom _ false

theorem Regroupable.regroupCore {s : State} (r : Regroupable s) (fresh : Bool) : Safe (s.regroupCore fresh) :=
  have h := regroupCore_sound s fresh r.intake
  safe_of (r.measuring (Measuring.regroupCore s fresh) h.intake) h

/-- Fields that safety does not read may change. -/
theorem Safe.congr {s t : State} (h : Safe s) (hm : t.mem = s.mem) (hx : t.safety = s.safety) (hq : t.seqs = s.seqs)
    (hmode : t.mode = s.mode) (hg : t.groups = s.groups) (hl : t.links = s.links) (hw : t.wiring = s.wiring)
    (hy : t.yields = s.yields) (hi : t.intake = s.intake) (hs : t.slots = s.slots) (hst : t.starting = s.starting)
    (he : t.endPending = s.endPending) : Safe t := by
  unfold Safe memoryCanonical referenceApart safeStopQuiet tableAgrees injectorsEligible attachedInject intakeSound
    startupUnwired injectorOf mayInject membersOf wiredInto checking at *
  rw [hm, hx, hq, hmode, hg, hl, hw, hy, hi, hs, hst, he]; exact h

theorem Regroupable.congr {s t : State} (h : Regroupable s) (hm : t.mem = s.mem) (hx : t.safety = s.safety)
    (hq : t.seqs = s.seqs) (hmode : t.mode = s.mode) (hw : t.wiring = s.wiring) (hi : t.intake = s.intake)
    (hs : t.slots = s.slots) (hst : t.starting = s.starting) (he : t.endPending = s.endPending) : Regroupable t := by
  obtain ⟨h1, h2, h3, h4, h5⟩ := h
  refine ⟨?_, ?_, ?_, ?_, ?_⟩
  · unfold memoryCanonical at *; rw [hm]; exact h1
  · unfold referenceApart at *; rw [hx, hq]; exact h2
  · unfold safeStopQuiet at *; rw [hmode, hq]; exact h3
  · unfold intakeSound at *; rw [hi, hs]; exact h4
  · unfold startupUnwired at *; rw [hst, he, hw]; exact h5

/-- One channel's standing changes, its reference as before. -/
theorem Regroupable.setSafety {s : State} (r : Regroupable s) (c : Chan) (x : ChanSafety)
    (h : x.reference = s.safety[c].reference) : Regroupable (s.setSafety c x) where
  memory := r.memory
  apart := fun d hd => by
    by_cases e : c = d
    · subst e
      refine r.apart c ?_
      rw [State.setSafety_safety, upd_same] at hd
      rw [← h]; exact hd
    · refine r.apart d ?_
      rwa [State.setSafety_safety, upd_other _ _ _ _ e] at hd
  quiet := r.quiet
  intake := r.intake
  startup := r.startup

/-- One channel's context changes, its coupling and run as before. -/
theorem Regroupable.setSeq {s : State} (r : Regroupable s) (c : Chan) (q : Seq)
    (hc : q.coupling = s.seqs[c].coupling) (hr : q.run = s.seqs[c].run) : Regroupable (s.setSeq c q) where
  memory := r.memory
  apart := fun d hd => by
    have := r.apart d hd
    by_cases e : c = d
    · subst e; rw [State.setSeq_seqs, upd_same, hc, hr]; exact this
    · rw [State.setSeq_seqs, upd_other _ _ _ _ e]; exact this
  quiet := fun hm d => by
    have := r.quiet hm d
    by_cases e : c = d
    · subst e; rw [State.setSeq_seqs, upd_same, hc, hr]; exact this
    · rw [State.setSeq_seqs, upd_other _ _ _ _ e]; exact this
  intake := r.intake
  startup := r.startup

theorem Regroupable.pokes {s : State} (r : Regroupable s) (a : Nat) (bs : List Byte) : Regroupable (s.pokes a bs) :=
  ⟨Memory.wf_writeBytes bs s.mem a r.memory, r.apart, r.quiet, r.intake, r.startup⟩

theorem Regroupable.poke {s : State} (r : Regroupable s) (a : Nat) (b : Byte) : Regroupable (s.poke a b) :=
  ⟨Memory.wf_write s.mem a b r.memory, r.apart, r.quiet, r.intake, r.startup⟩

theorem Regroupable.unlatch {s : State} (r : Regroupable s) (c : Chan) : Regroupable (s.unlatch c) :=
  (r.setSeq c { s.seqs[c] with viewLatched := false } rfl rfl).poke _ _

theorem Regroupable.forEach {α : Type} (l : List α) (f : α → State → State) {s : State} (r : Regroupable s)
    (h : ∀ a ∈ l, ∀ t, Regroupable t → Regroupable (f a t)) : Regroupable (forEach l f s) := by
  unfold Machine.forEach
  induction l generalizing s with
  | nil => exact r
  | cons a rest ih => exact ih (h a List.mem_cons_self s r) fun b hb => h b (List.mem_cons_of_mem _ hb)

theorem Safe.forEach {α : Type} (l : List α) (f : α → State → State) {s : State} (r : Safe s)
    (h : ∀ a ∈ l, ∀ t, Safe t → Safe (f a t)) : Safe (forEach l f s) := by
  unfold Machine.forEach
  induction l generalizing s with
  | nil => exact r
  | cons a rest ih => exact ih (h a List.mem_cons_self s r) fun b hb => h b (List.mem_cons_of_mem _ hb)

/-! ### Modes and edges -/

/-- A change between the three working modes. -/
theorem Safe.changeMode {s : State} (h : Safe s) (m : Mode) (hm : m ≠ .safeStop) : Safe (s.changeMode m) := by
  unfold State.changeMode
  simp only
  have h1 := h.working (Working.abandonAll s)
  generalize Machine.forEach allNodes (fun l t => t.abandonOwn l) s = s1 at h1 ⊢
  split
  · exact safe_of ⟨h1.1, h1.2.1, fun e => absurd e hm, h1.sound.intake, h1.regroupable.startup⟩
      ⟨h1.sound.table, h1.sound.injectors, h1.sound.attached, h1.sound.intake⟩
  · exact safe_of ⟨h1.1, h1.2.1, fun e => absurd e hm, h1.sound.intake, h1.regroupable.startup⟩
      ⟨h1.sound.table, h1.sound.injectors, h1.sound.attached, h1.sound.intake⟩

theorem Safe.edge {s : State} (h : Safe s) (c : Chan) (flag : Option Cond) (settleTime : Nat) :
    Safe (s.edge c flag settleTime) := by
  obtain ⟨x, w⟩ := Working.edge s c flag settleTime
  refine Safe.working ?_ w
  unfold State.handTriple
  split
  · exact h.congr rfl rfl rfl rfl rfl rfl rfl rfl rfl rfl rfl rfl
  · exact h

theorem Safe.windowEnd {s : State} (h : Safe s) (c : Chan) : Safe (s.windowEnd c) := by
  unfold State.windowEnd
  simp only
  split
  · split
    · split
      · exact (h.working (Working.setSeq s c { s.seqs[c].closeWindow with ready := some s.seqs[c].closeWindow.elapsed }
          rfl rfl rfl rfl rfl rfl)).edge c none _
      · exact h.working (Working.setSeq s c _ rfl rfl rfl rfl rfl rfl)
    · exact h.working (Working.setSeq s c _ rfl rfl rfl rfl rfl rfl)
  · exact h

theorem Safe.halfMax {s : State} (h : Safe s) (c : Chan) : Safe (s.halfMax c) := by
  unfold State.halfMax
  simp only
  split
  · split <;> exact h.edge c _ _
  · exact h

theorem Safe.selfcheckHalfEnd {s : State} (h : Safe s) (c : Chan) : Safe (s.selfcheckHalfEnd c) := by
  unfold State.selfcheckHalfEnd
  simp only
  split
  · exact h.edge c _ _
  · exact h

theorem Safe.settleDue {s : State} (h : Safe s) (c : Chan) : Safe (s.settleDue c) :=
  ((h.windowEnd c).halfMax c).selfcheckHalfEnd c

theorem Safe.endWait {s : State} (h : Safe s) (c : Chan) (flag : Option Cond) : Safe (s.endWait c flag) := by
  unfold State.endWait
  simp only
  split
  · exact h.edge c _ _
  · exact h

/-! ### SAFE_STOP -/

theorem Working.silence (s : State) (c : Chan) : Working s (s.silence c) := by
  unfold State.silence
  exact Working.trans (Working.dropRun s c) (Working.detach _ c)

/-- A silenced channel is DETACHED and drives no run, and no other channel is touched. -/
theorem silence_same (s : State) (c : Chan) :
    (s.silence c).seqs[c].coupling = .detached ∧ (s.silence c).seqs[c].run = .none := by
  refine ⟨detach_same _ c, ?_⟩
  unfold State.silence
  have h : (s.dropRun c).seqs[c].run = .none := congrArg Seq.run (upd_same _ _ _)
  generalize s.dropRun c = t at h ⊢
  exact detach_run_none t c h

theorem silence_other (s : State) (c d : Chan) (h : c ≠ d) : (s.silence c).seqs[d] = s.seqs[d] := by
  unfold State.silence
  rw [detach_other _ _ _ h]
  exact upd_other _ _ _ _ h

/-- After every channel is silenced, every one is DETACHED without a run. -/
theorem silenceAll_quiet (s : State) (d : Chan) :
    (Machine.forEach allChans (fun c t => t.silence c) s).seqs[d].coupling = .detached
      ∧ (Machine.forEach allChans (fun c t => t.silence c) s).seqs[d].run = .none := by
  have key : ∀ (cs : List Chan) (t : State),
      (d ∈ cs ∨ (t.seqs[d].coupling = .detached ∧ t.seqs[d].run = .none)) →
      (forEach cs (fun c t => t.silence c) t).seqs[d].coupling = .detached
        ∧ (forEach cs (fun c t => t.silence c) t).seqs[d].run = .none := by
    intro cs
    induction cs with
    | nil =>
      intro t h
      rcases h with h | h
      · cases h
      · exact h
    | cons a rest ih =>
      intro t h
      refine ih (t.silence a) ?_
      by_cases e : a = d
      · subst e; exact .inr (silence_same t a)
      · rcases h with h | h
        · rcases List.mem_cons.mp h with h | h
          · exact absurd h.symm e
          · exact .inl h
        · rw [silence_other t a d e]; exact .inr h
  exact key allChans s (.inl (mem_allChans d))

theorem Working.silenceAll (s : State) : Working s (Machine.forEach allChans (fun c t => t.silence c) s) :=
  Working.forEach _ _ _ fun c _ t => Working.silence t c

theorem Tabled.silenceAll (s : State) : Tabled s (Machine.forEach allChans (fun c t => t.silence c) s) :=
  Tabled.forEach _ _ _ fun c _ t => by
    unfold State.silence
    exact Tabled.trans (Tabled.dropRun t c) (Tabled.detach _ c)

theorem Tabled.clearSeries (s : State) : Tabled s s.clearSeries := Tabled.forEach _ _ _ fun l _ t => Tabled.seriesOver t l

theorem Working.clearSeries (s : State) : Working s s.clearSeries :=
  Working.forEach _ _ _ fun l _ t => Working.seriesOver t l

theorem Working.refuseTaken (s : State) (why : Reason) : Working s (s.refuseTaken why) :=
  .of_tabled (Measuring.refuseTaken s why) (Tabled.refuseTaken s why)

/-- A measuring operation leaves a quiet system quiet, in any mode it does not leave. -/
theorem quiet_clearSeries (s : State) : s.clearSeries.seqs = s.seqs := by
  unfold State.clearSeries
  have key : ∀ (ls : List GroupId) (t : State), (forEach ls (fun l t => t.seriesOver l) t).seqs = t.seqs := by
    intro ls
    induction ls with
    | nil => intro t; rfl
    | cons a rest ih => intro t; exact (ih (t.seriesOver a)).trans (modGroup_intake t a _).2.2.1
  exact key allNodes s

/-- SAFE_STOP on a quiet system. -/
theorem Regroupable.stopMode {s : State} (r : Regroupable s.clearSeries)
    (q : ∀ c : Chan, s.clearSeries.seqs[c].coupling = .detached ∧ s.clearSeries.seqs[c].run = .none) :
    Regroupable s.stopMode := by
  unfold State.stopMode
  generalize s.clearSeries = u at r q
  exact ⟨r.memory, r.apart, fun _ => q, r.intake, r.startup⟩

theorem Regroupable.resetSchedule {s : State} (r : Regroupable s.clearSeries) : Regroupable s.resetSchedule := by
  unfold State.resetSchedule
  generalize s.clearSeries = u at r
  exact ⟨r.memory, r.apart, (fun h => by cases h), r.intake, r.startup⟩

/-- Entry into SAFE_STOP leaves a safe state. -/
theorem Regroupable.enterSafeStop {s : State} (r : Regroupable s) (hn : s.mode ≠ .safeStop) (cause : Cause)
    (chan : Option Chan) : Safe (s.enterSafeStop cause chan) := by
  unfold State.enterSafeStop
  rw [if_neg hn]
  simp only
  have r1 : Regroupable (s.setCause cause chan) := r.congr rfl rfl rfl rfl rfl rfl rfl rfl rfl
  generalize s.setCause cause chan = s1 at r1 ⊢
  have q2 := silenceAll_quiet s1
  have r2 := r1.tabled (Working.silenceAll s1).measuring (Tabled.silenceAll s1)
  generalize Machine.forEach allChans (fun c t => t.silence c) s1 = s2 at r2 q2 ⊢
  have r3 : Regroupable s2.dropResults.endHold :=
    (Regroupable.congr (t := s2.dropResults) r2 rfl rfl rfl rfl rfl rfl rfl rfl rfl).recording (Recording.endHold _)
  have q3 : s2.dropResults.endHold.seqs = s2.seqs := (Recording.endHold _).seqs_eq
  generalize s2.dropResults.endHold = s3 at r3 q3 ⊢
  have r4 := r3.tabled (Working.clearSeries s3).measuring (Tabled.clearSeries s3)
  have hq : ∀ c : Chan, s3.clearSeries.seqs[c].coupling = .detached ∧ s3.clearSeries.seqs[c].run = .none := fun c => by
    rw [quiet_clearSeries, q3]; exact q2 c
  have r5 : Regroupable s3.stopMode := r4.stopMode hq
  exact (r5.tabled (Measuring.refuseTaken _ _) (Tabled.refuseTaken _ _)).regroupCore false

theorem Safe.enterSafeStop {s : State} (h : Safe s) (cause : Cause) (chan : Option Chan) :
    Safe (s.enterSafeStop cause chan) := by
  by_cases hn : s.mode = .safeStop
  · unfold State.enterSafeStop; rw [if_pos hn]; exact h
  · exact h.regroupable.enterSafeStop hn cause chan

/-! ### Soft reset -/

/-- A soft reset leaves a safe state. -/
theorem Regroupable.doSoftReset {s : State} (r : Regroupable s) : Safe s.doSoftReset := by
  unfold State.doSoftReset
  simp only
  have r1 := r.tabled (Working.silenceAll s).measuring (Tabled.silenceAll s)
  generalize Machine.forEach allChans (fun c t => t.silence c) s = s1 at r1 ⊢
  have r2 : Regroupable s1.dropResults := r1.congr rfl rfl rfl rfl rfl rfl rfl rfl rfl
  have r3 : Regroupable s1.dropResults.resetViews := r2.forEach _ _ fun c _ t rt => rt.unlatch c
  generalize s1.dropResults.resetViews = s3 at r3 ⊢
  have r4 : Regroupable s3.resetAttn := r3.congr rfl rfl rfl rfl rfl rfl rfl rfl rfl
  have r5 := r4.recording (Recording.softResetNodes s3.resetAttn)
  generalize s3.resetAttn.softResetNodes = s5 at r5 ⊢
  have r6 : Regroupable s5.resetContexts := r5.forEach _ _ fun c _ t rt => rt.setSeq c _ rfl rfl
  generalize s5.resetContexts = s6 at r6 ⊢
  have r7 := r6.tabled (Working.clearSeries s6).measuring (Tabled.clearSeries s6)
  have r8 : Regroupable s6.resetSchedule := r7.resetSchedule
  exact (r8.tabled (Measuring.refuseTaken _ _) (Tabled.refuseTaken _ _)).regroupFrom 0 true

/-! ### Disconnects and self-checks -/

theorem Working.completeDone (s : State) (n : SlotId) (kind : List Byte) : Working s (s.completeDone n kind) :=
  Working.completeSlot s n _ _ _

theorem Measuring.completeDone (s : State) (n : SlotId) (kind : List Byte) : Measuring s (s.completeDone n kind) :=
  Measuring.completeSlot s n _ _ _

theorem Tabled.completeDone (s : State) (n : SlotId) (kind : List Byte) : Tabled s (s.completeDone n kind) :=
  Tabled.completeSlot s n _ _ _

theorem Measuring.abortCheck (s : State) (c : Chan) : Measuring s (s.abortCheck c) := by
  unfold State.abortCheck
  split
  · simp only
    refine Measuring.trans ?_ ((Measuring.completeDone _ _ _).trans (Measuring.freeMeasurement _ _))
    split
    · exact Measuring.dropRun s c
    · exact Measuring.refl s
  · exact Measuring.refl s

theorem Tabled.abortCheck (s : State) (c : Chan) : Tabled s (s.abortCheck c) := by
  unfold State.abortCheck
  split
  · simp only
    refine Tabled.trans ?_ ((Tabled.completeDone _ _ _).trans (Tabled.freeMeasurement _ _))
    split
    · exact Tabled.dropRun s c
    · exact Tabled.refl s
  · exact Tabled.refl s

theorem Regroupable.beginDisconnect {s : State} (r : Regroupable s) (c : Chan) : Regroupable (s.beginDisconnect c) := by
  unfold State.beginDisconnect
  simp only
  have r1 := r.setSafety c { s.safety[c] with disconnected := true } rfl
  generalize s.setSafety c { s.safety[c] with disconnected := true } = s1 at r1 ⊢
  refine Regroupable.tabled ?_ (Measuring.abortCheck _ c) (Tabled.abortCheck _ c)
  split
  · exact r1.tabled (Measuring.stopChannel s1 c) (Tabled.stopChannel s1 c)
  · exact r1

theorem Regroupable.clearDisconnect {s : State} (r : Regroupable s) (c : Chan) : Regroupable (s.clearDisconnect c) :=
  r.setSafety c _ rfl

theorem Regroupable.newsChanSafety {s : State} (r : Regroupable s) (n : Nat) : Regroupable (s.newsChanSafety n) :=
  r.congr rfl rfl rfl rfl rfl rfl rfl rfl rfl

theorem Regroupable.raise {s : State} (r : Regroupable s) (n : Nat) : Regroupable (s.raise n) :=
  r.congr rfl rfl rfl rfl rfl rfl rfl rfl rfl

theorem Regroupable.reevaluate {s : State} (r : Regroupable s) (chans : List Chan) : Regroupable (s.reevaluate chans) := by
  unfold State.reevaluate
  simp only
  have h := ((r.forEach (chans.filter fun c => disconnectBegins s c) (fun c t => t.beginDisconnect c)
    fun c _ t rt => rt.beginDisconnect c).forEach (chans.filter fun c => disconnectEnds s c)
    (fun c t => t.clearDisconnect c) fun c _ t rt => rt.clearDisconnect c).forEach
    ((chans.filter fun c => disconnectBegins s c) ++ chans.filter fun c => disconnectEnds s c)
    (fun c t => t.newsChanSafety c.val) fun c _ t rt => rt.newsChanSafety c.val
  split
  · exact h
  · exact h.raise 6

/-- With no disconnect to begin or end, a re-evaluation changes nothing. -/
theorem reevaluate_idle (s : State) (chans : List Chan) (h : disconnectChange s chans = false) :
    s.reevaluate chans = s := by
  unfold disconnectChange at h
  rw [List.any_eq_false] at h
  have h1 : (chans.filter fun c => disconnectBegins s c) = [] := by
    rw [List.filter_eq_nil_iff]; intro c hc hb; exact h c hc (by rw [hb]; rfl)
  have h2 : (chans.filter fun c => disconnectEnds s c) = [] := by
    rw [List.filter_eq_nil_iff]; intro c hc hb; exact h c hc (by rw [hb, Bool.or_true])
  unfold State.reevaluate
  rw [h1, h2]
  rfl

theorem Regroupable.evaluateCheck {s : State} (r : Regroupable s) (x : Result) : Safe (s.evaluateCheck x) := by
  unfold State.evaluateCheck
  simp only
  refine Regroupable.regroup ?_
  have r1 := r.setSafety x.chan { s.safety[x.chan] with health := healthAfter s.safety[x.chan].health (checkPassed x) } rfl
  generalize s.setSafety x.chan _ = s1 at r1 ⊢
  have r2 : Regroupable (if s.safety[x.chan].health = healthAfter s.safety[x.chan].health (checkPassed x) then s1
      else (s1.newsChanSafety x.chan.val).raise 6) := by
    split
    · exact r1
    · exact (r1.newsChanSafety _).raise 6
  generalize (if s.safety[x.chan].health = healthAfter s.safety[x.chan].health (checkPassed x) then s1
      else (s1.newsChanSafety x.chan.val).raise 6) = s2 at r2 ⊢
  split
  · split
    · exact r2.tabled (Measuring.completeDone _ _ _) (Tabled.completeDone _ _ _)
    · exact r2
  · exact r2

/-- A disconnect line's change leaves a safe state. -/
theorem Safe.lineChange {s : State} (h : Safe s) (line : Fin 3) (asserted : Bool) : Safe (s.lineChange line asserted) := by
  unfold State.lineChange
  split
  · exact h
  · have h1 : Safe (s.setLine line asserted) := h.congr rfl rfl rfl rfl rfl rfl rfl rfl rfl rfl rfl rfl
    simp only
    generalize s.setLine line asserted = s1 at h1 ⊢
    cases hd : disconnectChange s1 (allChans.filter fun c => s1.safety[c].discMask.getLsbD line.val) with
    | true => exact (h1.regroupable.reevaluate _).regroupFrom _ false
    | false => rw [reevaluate_idle s1 _ hd]; exact h1

/-- The verify timer is not part of what makes a state safe. -/
theorem Safe.endVerify {s : State} (h : Safe s) (c : Chan) : Safe (s.endVerify c) := by
  refine safe_of (h.regroupable.setSafety c _ rfl) ⟨h.sound.table, fun l d hi => ?_, h.sound.attached, h.sound.intake⟩
  obtain ⟨a1, a2, a3, a4, a5, a6⟩ := h.sound.injectors l d hi
  unfold State.endVerify
  by_cases e : c = d
  · subst e
    exact ⟨a1, by rw [State.setSafety_safety, upd_same]; exact a2, by rw [State.setSafety_safety, upd_same]; exact a3,
      a4, a5, a6⟩
  · exact ⟨a1, by rw [State.setSafety_safety, upd_other _ _ _ _ e]; exact a2,
      by rw [State.setSafety_safety, upd_other _ _ _ _ e]; exact a3, a4, a5, a6⟩

/-- A detach verify's expiry leaves a safe state. -/
theorem Safe.verifyExpiry {s : State} (h : Safe s) (c : Chan) (closed : Bool) : Safe (s.verifyExpiry c closed) := by
  unfold State.verifyExpiry
  split
  · exact h
  · simp only
    have h1 := h.endVerify c
    generalize s.endVerify c = s1 at h1 ⊢
    split
    · exact Safe.enterSafeStop (Safe.congr (t := s1.failVerify c) h1 rfl rfl rfl rfl rfl rfl rfl rfl rfl rfl rfl rfl) _ _
    · exact (h1.working (Working.tryReference s1 c)).working (Working.forEach _ _ _ fun d _ t => Working.tryAttach t d)

/-- A hold of a channel leaves a safe state. -/
theorem Safe.holdChannel {s : State} (h : Safe s) (c : Chan) (figures : CtxRecord) : Safe (s.holdChannel c figures) := by
  unfold State.holdChannel
  split
  · exact h
  · exact ((h.regroupable.setSeq c { s.seqs[c] with ctx := .held, record := figures } rfl rfl).tabled
      (Measuring.abandonRun _ c) (Tabled.abandonRun _ c)).regroup

end Sys2Proof.Machine
end

