-- ==== Sys2Proof/Laws/Keeps.lean ====
section
/-! SUPPORT. The shared operations behind the commands keep a state safe: mode requests, contexts, intake, the end of
a write transaction, results and transactions. -/

namespace Sys2Proof.Machine

/-! ### Modes -/

theorem Safe.schedule {s : State} (h : Safe s) : Safe s.schedule := h.working (Working.schedule s)

/-- Fields of CONTROL and of a waiting PARKED request. -/
theorem Safe.setRequest {s : State} (h : Safe s) (m : Mode) : Safe { s with request := m } :=
  h.congr rfl rfl rfl rfl rfl rfl rfl rfl rfl rfl rfl rfl

theorem Safe.setParkedPending {s : State} (h : Safe s) (b : Bool) : Safe { s with parkedPending := b } :=
  h.congr rfl rfl rfl rfl rfl rfl rfl rfl rfl rfl rfl rfl

theorem wanted_ne (f : BitVec 2) (m : Mode)
    (h : (if f = 0 then some .idle else if f = 1 then some .run else if f = 2 then some .parked else none) = some m) :
    m ≠ .safeStop := by
  split at h
  · cases h; decide
  · split at h
    · cases h; decide
    · split at h
      · cases h; decide
      · cases h

theorem Safe.requestMode {s : State} (h : Safe s) (f : BitVec 2) : Safe (s.requestMode f) := by
  unfold State.requestMode
  simp only
  split
  · exact h
  · split
    · exact h
    · next m hm =>
      have hne := wanted_ne f m hm
      have h0 := h.setRequest m
      split
      · exact h0
      · split
        · split
          · exact h0
          · split
            · split
              · exact (h0.setParkedPending true).schedule
              · exact ((h0.changeMode .idle (by decide)).setParkedPending true).schedule
            · exact (h0.changeMode .parked (by decide)).schedule
        · split
          · split
            · exact (h0.setParkedPending false).schedule
            · exact h0
          · exact (h0.changeMode m hne).schedule

theorem Safe.takeHold {s : State} (h : Safe s) (b : Bool) : Safe (s.takeHold b) := by
  unfold State.takeHold
  split
  · split
    · exact h
    · exact h.congr rfl rfl rfl rfl rfl rfl rfl rfl rfl rfl rfl rfl
  · split
    · exact h.recording (Recording.endHold s)
    · exact h

/-- A CONTROL write keeps the state safe. -/
theorem Safe.writeControl {s : State} (h : Safe s) (v : Byte) : Safe (s.writeControl v) := by
  unfold State.writeControl
  have h1 : Safe { s with holdExpired := false } := h.congr rfl rfl rfl rfl rfl rfl rfl rfl rfl rfl rfl rfl
  simp only
  split
  · exact Regroupable.doSoftReset (s := { s with holdExpired := false }) h1.regroupable
  · exact (Safe.takeHold (s := { s with holdExpired := false }) h1 _).requestMode _

/-! ### Slots at intake -/

/-- A slot that the intake list does not name takes any internal state. -/
theorem Safe.setSlot {s : State} (h : Safe s) (n : SlotId) (x : SlotState) (hn : s.slots[n] ≠ .taken) :
    Safe (s.setSlot n x) := by
  have hi : intakeSound (s.setSlot n x) := by
    refine ⟨h.sound.intake.1, fun o ho => ?_⟩
    have ht := h.sound.intake.2 o ho
    have hne : n ≠ o.slot := by rintro rfl; exact hn ht
    show (upd s.slots n x)[o.slot] = _
    rw [upd_other _ _ _ _ hne]; exact ht
  exact h.working ⟨Measuring.setSlot s n x, fun k =>
    ⟨k.table, k.injectors, k.attached, hi⟩⟩

theorem Safe.poke {s : State} (h : Safe s) (a : Nat) (b : Byte) : Safe (s.poke a b) :=
  safe_of (h.regroupable.poke a b) ⟨h.sound.table, h.sound.injectors, h.sound.attached, h.sound.intake⟩

theorem Safe.pokes {s : State} (h : Safe s) (a : Nat) (bs : List Byte) : Safe (s.pokes a bs) :=
  safe_of (h.regroupable.pokes a bs) ⟨h.sound.table, h.sound.injectors, h.sound.attached, h.sound.intake⟩

/-- The slot is TAKEN and the intake list does not name it. -/
structure Offered (s : State) (n : SlotId) : Prop where
  taken : s.slots[n] = .taken
  free : ∀ o ∈ s.intake, o.slot ≠ n

/-- An order joins the list. -/
theorem Safe.enlist {s : State} (h : Safe s) (n : SlotId) (job : Job) (node : NodeId) (hn : Offered s n) :
    Safe (s.enlist n job node) := by
  unfold State.enlist
  simp only
  refine Safe.poke (Safe.poke ?_ _ _) _ _
  obtain ⟨h1, h2, h3, h4, h5, h6, h7, h8⟩ := h
  refine ⟨h1, h2, h3, h4, fun l c hi => ?_, h6, ?_, h8⟩
  · have := h5 l c hi
    obtain ⟨a1, a2, a3, a4, a5, a6⟩ := this
    refine ⟨a1, a2, a3, ?_, a5, a6⟩
    unfold checking at a4 ⊢
    simp only [List.any_append, a4, List.any_cons, List.any_nil, Bool.or_false, Bool.false_or]
    simp
  · refine ⟨?_, fun o ho => ?_⟩
    · show ((s.intake ++ [Order.mk n job .waiting (leaderOf s node) 0]).map (·.slot)).Nodup
      rw [List.map_append, List.nodup_append]
      refine ⟨h7.1, List.nodup_singleton _, fun a ha b hb => ?_⟩
      obtain ⟨o, ho, rfl⟩ := List.mem_map.mp ha
      rw [List.map_singleton, List.mem_singleton] at hb
      rw [hb]; exact hn.free o ho
    · rcases List.mem_append.mp ho with ho | ho
      · exact h7.2 o ho
      · rw [List.mem_singleton] at ho; rw [ho]; exact hn.taken

theorem Safe.takeSpot {s : State} (h : Safe s) (n : SlotId) (hn : Offered s n) : Safe (s.takeSpot n).1 := by
  unfold State.takeSpot
  split
  · exact h
  · split
    · exact h
    · split
      · exact h
      · dsimp only; exact (h.enlist n _ _ hn).schedule

theorem Safe.takeSelfcheck {s : State} (h : Safe s) (n : SlotId) (hn : Offered s n) : Safe (s.takeSelfcheck n).1 := by
  unfold State.takeSelfcheck
  split
  · exact h
  · split
    · exact h
    · split
      · exact h
      · dsimp only; exact (h.enlist n _ _ hn).schedule

/-! ### Contexts -/

theorem Safe.unhold {s : State} (h : Safe s) (c : Chan) : Safe (s.unhold c) := by
  unfold State.unhold
  split
  · exact (h.regroupable.setSeq c { s.seqs[c] with ctx := .idle } rfl rfl).regroup
  · exact h

theorem Safe.doSnapshot {s : State} (h : Safe s) (c : Chan) : Safe (s.doSnapshot c) := (h.pokes _ _).unhold c

theorem Working.restoreAbandon (s : State) (c : Chan) : Working s (s.restoreAbandon c) := by
  unfold State.restoreAbandon
  simp only
  split
  · split
    · exact (Working.abandonGroup s _).trans (Working.stopChannel _ c)
    · exact Working.stopChannel s c
  · exact Working.refl s

theorem restored_frame (q : Seq) (kind : CtxKind) (r : CtxRecord) :
    (q.restored kind r).coupling = q.coupling ∧ (q.restored kind r).run = q.run
      ∧ (q.restored kind r).ctx = kind := by
  unfold Seq.restored; cases kind <;> exact ⟨rfl, rfl, rfl⟩

/-- A context that is not HELD before and after a change leaves every standing. -/
theorem Safe.setCtx {s : State} (h : Safe s) (c : Chan) (q : Seq) (hc : q.coupling = s.seqs[c].coupling)
    (hr : q.run = s.seqs[c].run) (hx : q.ctx = .held → s.seqs[c].ctx = .held) : Safe (s.setSeq c q) := by
  refine safe_of (h.regroupable.setSeq c q hc hr) ⟨h.sound.table, fun l d hi => ?_, fun d hd => ?_, h.sound.intake⟩
  · obtain ⟨a1, a2, a3, a4, a5, a6⟩ := h.sound.injectors l d hi
    refine ⟨a1, a2, a3, a4, ?_, a6⟩
    by_cases e : c = d
    · subst e; rw [State.setSeq_seqs, upd_same]; exact fun hh => a5 (hx hh)
    · rw [State.setSeq_seqs, upd_other _ _ _ _ e]; exact a5
  · refine h.sound.attached d ?_
    by_cases e : c = d
    · subst e; rw [State.setSeq_seqs, upd_same, hc] at hd; exact hd
    · rwa [State.setSeq_seqs, upd_other _ _ _ _ e] at hd

theorem Safe.doRestore {s : State} (h : Safe s) (c : Chan) (kind : CtxKind) : Safe (s.doRestore c kind) := by
  unfold State.doRestore
  simp only
  have w := Working.restoreAbandon s c
  have h1 := h.working w
  have hctx := (w.measuring.chan c).ctx
  generalize s.restoreAbandon c = s1 at h1 hctx ⊢
  obtain ⟨f1, f2, f3⟩ := restored_frame s1.seqs[c] kind (frameRecord s.mem c)
  split
  · next he =>
    have h2 : Safe (s1.setSeq c (s1.seqs[c].restored kind (frameRecord s.mem c))) := by
      refine h1.setCtx c _ f1 f2 fun hh => ?_
      rw [f3] at hh
      have hs : s.seqs[c].ctx = .held := by
        have := he.symm; rw [decide_eq_true hh] at this; exact of_decide_eq_true this.symm
      rcases hctx with e | ⟨e, _⟩
      · rw [e]; exact hs
      · rw [hs] at e; cases e
    refine Safe.schedule ?_
    split
    · exact h2.working (Working.recount _)
    · exact h2
  · exact (h1.regroupable.setSeq c _ f1 f2).regroupFrom _ false

theorem Safe.takeContext {s : State} (h : Safe s) (n : SlotId) (kind : OrderKind) : Safe (s.takeContext n kind).1 := by
  unfold State.takeContext
  split
  · exact h
  · simp only
    split
    · exact h.doSnapshot _
    · exact h.unhold _
    · split
      · exact h
      · split
        · exact h.doRestore _ _
        · exact h

theorem Safe.setYield {s : State} (h : Safe s) (node : NodeId) (flag : Bool) : Safe (s.setYield node flag) := by
  unfold State.setYield
  refine Regroupable.regroup (Regroupable.poke ?_ _ _)
  exact h.regroupable.congr rfl rfl rfl rfl rfl rfl rfl rfl rfl

theorem Safe.takeYield {s : State} (h : Safe s) (n : SlotId) (flag : Bool) : Safe (s.takeYield n flag).1 := by
  unfold State.takeYield
  split
  · exact h
  · dsimp only; exact h.setYield _ flag

theorem Safe.takeAck {s : State} (h : Safe s) (n : SlotId) : Safe (s.takeAck n).1 := by
  unfold State.takeAck
  split
  · exact h
  · split
    · exact h.recording (Recording.acknowledge s _ _)
    · exact h

theorem Safe.takeClear {s : State} (h : Safe s) (n : SlotId) : Safe (s.takeClear n).1 := by
  unfold State.takeClear
  split
  · exact h
  · split
    · exact h
    · split
      · exact h
      · dsimp only; exact (h.regroupable.clearDisconnect _).regroup

theorem Safe.carryOut {s : State} (h : Safe s) (n : SlotId) (hn : Offered s n) : Safe (s.carryOut n).1 := by
  unfold State.carryOut
  split
  · exact h
  · split
    · exact h
    · exact h.takeSpot n hn
    · exact h.takeSelfcheck n hn
    · exact h.takeContext n _
    · exact h.takeContext n _
    · exact h.takeContext n _
    · exact h.takeAck n
    · exact h.takeYield n _
    · exact h.takeYield n _
    · exact h.takeClear n

theorem Safe.stampSlot {s : State} (h : Safe s) (n : SlotId) (hn : s.slots[n] ≠ .taken) :
    Safe (s.stampSlot n) ∧ Offered (s.stampSlot n) n := by
  refine ⟨?_, ?_⟩
  · have h1 := (((h.setSlot n .taken hn).poke (slotAddr n) (byteOf SlotState.taken.code)).pokes (slotAddr n + 0x10)
      (le16 s.intakeSeq)).pokes (slotAddr n + 0x13) ([0xFF, 0, 0, 0, 0] ++ List.replicate 40 0)
    unfold State.stampSlot
    dsimp only
    generalize State.pokes _ _ _ = u at h1 ⊢
    exact Safe.congr (t := { u with intakeSeq := u.intakeSeq + 1 }) h1 rfl rfl rfl rfl rfl rfl rfl rfl rfl rfl rfl rfl
  · have e1 : (s.stampSlot n).slots = upd s.slots n .taken := by
      unfold State.stampSlot; simp only [State.pokes_slots, State.poke_slots, State.setSlot_slots]
    have e2 : (s.stampSlot n).intake = s.intake := by
      unfold State.stampSlot; simp only [State.pokes_intake, State.poke_intake, State.setSlot_intake]
    refine ⟨by rw [e1]; exact upd_same s.slots n .taken, fun o ho => ?_⟩
    rw [e2] at ho
    have ht := h.sound.intake.2 o ho
    rintro rfl; exact hn ht

/-- An intake keeps the state safe. -/
theorem Safe.intakeSlot {s : State} (h : Safe s) (n : SlotId) (hn : s.slots[n] ≠ .taken) : Safe (s.intakeSlot n) := by
  obtain ⟨h1, h2⟩ := h.stampSlot n hn
  have h3 := h1.carryOut n h2
  unfold State.intakeSlot State.conclude
  split
  · exact h3
  · exact h3.working (Working.completeDone _ _ _)
  · exact h3.working (Working.refuseSlot _ _ _)

/-! ### The end of a write transaction -/

theorem Safe.takeSlotState {s : State} (h : Safe s) (n : SlotId) (b : Byte) : Safe (s.takeSlotState n b) := by
  unfold State.takeSlotState
  split
  · exact h
  · next st hst =>
    split
    · exact h.intakeSlot n fun e => hst e
    · split
      · exact h.setSlot n .free fun e => hst e
      · exact h.poke _ _

theorem Safe.takeSlots {s : State} (h : Safe s) (w : Watch) : Safe (s.takeSlots w) :=
  h.forEach _ _ fun n _ t ht => by
    split
    · exact ht.takeSlotState n _
    · exact ht

theorem Safe.takeView {s : State} (h : Safe s) (c : Chan) : Safe (s.takeView c) := by
  unfold State.takeView
  split
  · exact h
  · have h1 := h.pokes (viewAddr c + 1) (viewBytes s c)
    have e : (s.pokes (viewAddr c + 1) (viewBytes s c)).seqs = s.seqs := State.pokes_seqs _ _ _
    generalize s.pokes (viewAddr c + 1) (viewBytes s c) = u at h1 e ⊢
    exact h1.setCtx c _ (by rw [e]) (by rw [e]) (by rw [e]; exact id)

theorem Safe.takeViews {s : State} (h : Safe s) (w : Watch) : Safe (s.takeViews w) :=
  h.forEach _ _ fun c _ t ht => by
    split
    · exact ht.takeView c
    · exact ht

theorem Safe.takePlan {s : State} (h : Safe s) (p : PlanId) (status : Byte) : Safe (s.takePlan p status) := by
  unfold State.takePlan
  split
  · refine Safe.pokes ?_ _ _
    exact h.congr rfl rfl rfl rfl rfl rfl rfl rfl rfl rfl rfl rfl
  · exact h.congr rfl rfl rfl rfl rfl rfl rfl rfl rfl rfl rfl rfl

theorem Safe.takePlans {s : State} (h : Safe s) (w : Watch) : Safe (s.takePlans w) :=
  h.forEach _ _ fun p _ t ht => by
    split
    · exact ht.takePlan p _
    · exact ht

theorem Regroupable.takeDisconnect {s : State} (r : Regroupable s) (w : Watch) : Regroupable (s.takeDisconnect w) := by
  unfold State.takeDisconnect
  simp only
  refine Regroupable.reevaluate ?_ _
  exact r.forEach _ _ fun c _ t rt => rt.setSafety c _ rfl

theorem wiring_unwritten (w : Watch) (h : w.wiring = 0) : (allChans.filter fun c => w.wiring.getLsbD c.val) = [] := by
  rw [h, List.filter_eq_nil_iff]; intro c _; simp

/-- Where no field of steps 3 and 4 was written, those steps change nothing. -/
theorem takeTopology_idle (s : State) (w : Watch) (h : w.regroups = false) :
    (s.takeDisconnect w).takeTopology w = s := by
  unfold Watch.regroups at h
  simp only [Bool.or_eq_false_iff, decide_eq_false_iff_not, not_not] at h
  obtain ⟨⟨⟨h1, h2⟩, h3⟩, _⟩ := h
  have hd : s.takeDisconnect w = s := by
    unfold State.takeDisconnect
    rw [wiring_unwritten w h3]
    exact reevaluate_idle s [] rfl
  rw [hd]
  unfold State.takeTopology
  have e1 : (Vector.ofFn fun n : Fin 8 => if has8 w.nodes n.val then readNodePlan s.mem n else s.nodePlan[n]) = s.nodePlan := by
    apply Vector.ext; intro i hi; simp [h1, has8]
  have e2 : (Vector.ofFn fun i : Fin 16 => if w.links.getLsbD i.val then readLink s.mem i else s.links[i]) = s.links := by
    apply Vector.ext; intro i hi; simp [h2]
  have e3 : (Vector.ofFn fun c : Fin 4 => if w.wiring.getLsbD c.val then readWiring s.mem c else s.wiring[c]) = s.wiring := by
    apply Vector.ext; intro i hi; simp [h3]
  rw [e1, e2, e3]

theorem beginDisconnect_starting (s : State) (c : Chan) : (s.beginDisconnect c).starting = s.starting := by
  unfold State.beginDisconnect
  simp only
  rw [(Measuring.abortCheck _ c).starting_eq]
  split
  · rw [(Measuring.stopChannel _ c).starting_eq]; rfl
  · rfl

theorem reevaluate_starting (s : State) (chans : List Chan) : (s.reevaluate chans).starting = s.starting := by
  have h : ∀ l1 l2 l3 : List Chan, (forEach l1 (fun c t => t.newsChanSafety c.val)
      (forEach l2 (fun c t => t.clearDisconnect c) (forEach l3 (fun c t => t.beginDisconnect c) s))).starting = s.starting := by
    intro l1 l2 l3
    rw [forEach_field State.starting l1 (fun c t => t.newsChanSafety c.val) fun _ _ => rfl]
    rw [forEach_field State.starting l2 (fun c t => t.clearDisconnect c) fun _ _ => rfl]
    exact forEach_field State.starting l3 _ (fun c t => beginDisconnect_starting t c) s
  unfold State.reevaluate
  simp only
  split
  · exact h _ _ _
  · exact h _ _ _

theorem takeDisconnect_starting (s : State) (w : Watch) : (s.takeDisconnect w).starting = s.starting :=
  (reevaluate_starting _ _).trans (forEach_field State.starting _ (fun c t => t.setSafety c
    { t.safety[c] with discMask := readDiscMask t.mem c, discMode := readDiscMode t.mem c }) (fun _ _ => rfl) s)

theorem takePlans_starting (s : State) (w : Watch) : (s.takePlans w).starting = s.starting :=
  forEach_field State.starting _ _ (fun p t => by
    split
    · unfold State.takePlan; split <;> rfl
    · rfl) s

/-- The end of a write transaction keeps the state safe. -/
theorem Safe.handleEnd {s : State} (h : Safe s) (hs : s.starting = false) : Safe s.handleEnd := by
  unfold State.handleEnd
  simp only
  refine Safe.takeViews (Safe.takeSlots ?_ _) _
  have h1 : Safe ({ s with endPending := false, watch := Watch.empty } : State) := by
    refine safe_of ⟨h.1, h.2.1, h.2.2.1, h.sound.intake, fun e => ?_⟩
      ⟨h.sound.table, h.sound.injectors, h.sound.attached, h.sound.intake⟩
    have : s.starting = true := e
    rw [hs] at this; cases this
  have hs1 : ({ s with endPending := false, watch := Watch.empty } : State).starting = false := hs
  generalize ({ s with endPending := false, watch := Watch.empty } : State) = s1 at h1 hs1 ⊢
  have h2 : Safe (s1.clearNews s.watch.news) := h1.congr rfl rfl rfl rfl rfl rfl rfl rfl rfl rfl rfl rfl
  have hs2 : (s1.clearNews s.watch.news).starting = false := hs1
  generalize s1.clearNews s.watch.news = s2 at h2 hs2 ⊢
  have h3 := h2.takePlans s.watch
  have hs3 : (s2.takePlans s.watch).starting = false := (takePlans_starting s2 _).trans hs2
  generalize s2.takePlans s.watch = s3 at h3 hs3 ⊢
  cases hw : s.watch.regroups with
  | false => rw [takeTopology_idle s3 s.watch hw]; exact h3
  | true =>
    simp only [if_true]
    have r4 := h3.regroupable.takeDisconnect s.watch
    have hs4 : (s3.takeDisconnect s.watch).starting = false := (takeDisconnect_starting s3 s.watch).trans hs3
    generalize s3.takeDisconnect s.watch = s4 at r4 hs4 ⊢
    refine Regroupable.regroupFrom ?_ _ false
    refine ⟨r4.memory, r4.apart, r4.quiet, r4.intake, fun e => ?_⟩
    have : s4.starting = true := e
    rw [hs4] at this; cases this

/-! ### Results -/

theorem Safe.updateContext {s : State} (h : Safe s) (r : Result) : Safe (s.updateContext r) := by
  unfold State.updateContext
  simp only
  split
  · exact h
  · exact h.setCtx r.chan _ rfl rfl fun e => by cases e

theorem Safe.completeSpot {s : State} (h : Safe s) (r : Result) : Safe (s.completeSpot r) := by
  unfold State.completeSpot
  split
  · exact h
  · split
    · exact h.working (Working.completeDone _ _ _)
    · exact h

/-- A result finished by the condition unit keeps the state safe. -/
theorem Safe.finishResult {s : State} (h : Safe s) (r : Result) : Safe (s.finishResult r) := by
  unfold State.finishResult
  simp only
  have h1 := h.recording (Recording.applyResult _ r)
  generalize s.applyResult r = s1 at h1 ⊢
  have h2 : Safe (if actionClass r.conds r.actions = .ignore then s1 else s1.reportResult r) := by
    split
    · exact h1
    · exact h1.congr rfl rfl rfl rfl rfl rfl rfl rfl rfl rfl rfl rfl
  generalize (if actionClass r.conds r.actions = .ignore then s1 else s1.reportResult r) = s2 at h2 ⊢
  have h3 : Safe (if actionClass r.conds r.actions = .hold then s2.holdChannel r.chan (recordOf r) else s2) := by
    split
    · exact h2.holdChannel _ _
    · exact h2
  generalize (if actionClass r.conds r.actions = .hold then s2.holdChannel r.chan (recordOf r) else s2) = s3 at h3 ⊢
  split
  · exact h3.completeSpot r
  · exact h3

/-- A result taken, its context updated and the rest finished at once or left in progress, keeps the state safe. -/
theorem Safe.takeResult {s : State} (h : Safe s) (r : Result) (rest : List Result) : Safe (s.takeResult r rest) := by
  have h1 : Safe ({ s with results := rest, cuts := s.cuts.tail }.updateContext r) :=
    (h.congr rfl rfl rfl rfl rfl rfl rfl rfl rfl rfl rfl rfl : Safe { s with results := rest, cuts := s.cuts.tail }).updateContext r
  unfold State.takeResult
  simp only
  split
  · exact h1.congr rfl rfl rfl rfl rfl rfl rfl rfl rfl rfl rfl rfl
  · exact h1.finishResult r

theorem Safe.takeUp {s : State} (h : Safe s) : Safe s.takeUp := by
  unfold State.takeUp
  split
  · exact h.congr rfl rfl rfl rfl rfl rfl rfl rfl rfl rfl rfl rfl
  · exact h

theorem Safe.handResult {s : State} (h : Safe s) (r : Result) : Safe (s.handResult r) := by
  unfold State.handResult
  split
  · exact h.regroupable.evaluateCheck r
  · exact h.congr rfl rfl rfl rfl rfl rfl rfl rfl rfl rfl rfl rfl

/-! ### Transactions -/

theorem Safe.transact {s : State} (h : Safe s) (count : Nat) (serve : State → State)
    (hs : ∀ t, Safe t → Safe (serve t)) : Safe (s.transact count serve) := by
  have h0 : Safe s.beginTransaction := h.congr rfl rfl rfl rfl rfl rfl rfl rfl rfl rfl rfl rfl
  unfold State.transact
  split
  · exact h0.congr rfl rfl rfl rfl rfl rfl rfl rfl rfl rfl rfl rfl
  · exact hs _ h0

theorem Safe.transactFrom {s : State} (h : Safe s) (count : Nat) (serve : State → State)
    (hs : ∀ t, Safe t → Safe (serve t)) : Safe (s.transactFrom count serve) :=
  h.transact _ _ fun t ht => hs (t.shiftZeros 2) (ht.congr rfl rfl rfl rfl rfl rfl rfl rfl rfl rfl rfl rfl)

theorem Safe.transactCut {s : State} (h : Safe s) (n : Nat) : Safe (s.transactCut n) :=
  h.transact _ _ fun _ ht => ht.congr rfl rfl rfl rfl rfl rfl rfl rfl rfl rfl rfl rfl

theorem Safe.shift {s : State} (h : Safe s) (b : Byte) : Safe (s.shift b) :=
  h.congr rfl rfl rfl rfl rfl rfl rfl rfl rfl rfl rfl rfl

theorem Safe.unlatch {s : State} (h : Safe s) (c : Chan) : Safe (s.unlatch c) :=
  (h.setCtx c { s.seqs[c] with viewLatched := false } rfl rfl id).poke _ _

theorem Safe.readByte {s : State} (h : Safe s) (a : Nat) : Safe (s.readByte a) := by
  unfold State.readByte
  split
  · exact h.congr rfl rfl rfl rfl rfl rfl rfl rfl rfl rfl rfl rfl
  · simp only
    have h1 : Safe (s.latchUptime a) := by
      unfold State.latchUptime; split
      · exact h.congr rfl rfl rfl rfl rfl rfl rfl rfl rfl rfl rfl rfl
      · exact h
    generalize s.latchUptime a = s1 at h1 ⊢
    have h2 := h1.shift (exchangeByte s1 a)
    generalize s1.shift (exchangeByte s1 a) = s2 at h2 ⊢
    unfold State.afterRead
    split
    · exact h2.congr rfl rfl rfl rfl rfl rfl rfl rfl rfl rfl rfl rfl
    · split
      · split
        · exact h2.unlatch _
        · exact h2
      · exact h2

theorem Safe.readBytes : ∀ (n a : Nat) {s : State}, Safe s → Safe (State.readBytes n a s)
  | 0, _, _, h => h
  | n + 1, a, _, h => Safe.readBytes n (a + 1) (h.readByte a)

theorem Safe.writing {s t : State} (h : Safe s) (w : Writing s t) : Safe t := by
  have hf := w.fixed
  refine safe_of ⟨w.canonical h.1, ?_, ?_, ?_, ?_⟩ ⟨?_, ?_, ?_, ?_⟩
  all_goals
    have e1 : t.safety = s.safety := (congrArg State.safety hf : t.writeFixed.safety = s.writeFixed.safety)
    have e2 : t.seqs = s.seqs := (congrArg State.seqs hf : t.writeFixed.seqs = s.writeFixed.seqs)
    have e3 : t.mode = s.mode := (congrArg State.mode hf : t.writeFixed.mode = s.writeFixed.mode)
    have e4 : t.groups = s.groups := (congrArg State.groups hf : t.writeFixed.groups = s.writeFixed.groups)
    have e5 : t.links = s.links := (congrArg State.links hf : t.writeFixed.links = s.writeFixed.links)
    have e6 : t.wiring = s.wiring := (congrArg State.wiring hf : t.writeFixed.wiring = s.writeFixed.wiring)
    have e7 : t.yields = s.yields := (congrArg State.yields hf : t.writeFixed.yields = s.writeFixed.yields)
    have e8 : t.intake = s.intake := (congrArg State.intake hf : t.writeFixed.intake = s.writeFixed.intake)
    have e9 : t.slots = s.slots := (congrArg State.slots hf : t.writeFixed.slots = s.writeFixed.slots)
    have e10 : t.starting = s.starting := (congrArg State.starting hf : t.writeFixed.starting = s.writeFixed.starting)
    have e11 : t.endPending = s.endPending :=
      (congrArg State.endPending hf : t.writeFixed.endPending = s.writeFixed.endPending)
  · unfold referenceApart; rw [e1, e2]; exact h.2.1
  · unfold safeStopQuiet; rw [e3, e2]; exact h.2.2.1
  · unfold intakeSound; rw [e8, e9]; exact h.sound.intake
  · unfold startupUnwired; rw [e10, e11, e6]; exact h.regroupable.startup
  · unfold tableAgrees; rw [e4, e5]; exact h.sound.table
  · have := h.sound.injectors
    unfold injectorsEligible injectorOf mayInject wiredInto membersOf checking at *
    rw [e4, e6, e1, e8, e2, e7]; exact this
  · have := h.sound.attached
    unfold attachedInject injectorOf at *; rw [e2, e4]; exact this
  · unfold intakeSound; rw [e8, e9]; exact h.sound.intake

/-- A memory write keeps the state safe up to its end. -/
theorem Safe.memoryWriteBody {s : State} (h : Safe s) (a : Nat) (data : List Byte) : Safe (s.memoryWriteBody a data) := by
  unfold State.memoryWriteBody
  simp only
  have h0 : Safe ({ s with watch := Watch.empty } : State) := h.congr rfl rfl rfl rfl rfl rfl rfl rfl rfl rfl rfl rfl
  have h1 := h0.writing (Writing.writeBytes data a _)
  generalize State.writeBytes data a ({ s with watch := Watch.empty } : State) = t at h1 ⊢
  refine safe_of ⟨h1.1, h1.2.1, h1.2.2.1, h1.sound.intake, fun e => ?_⟩
    ⟨h1.sound.table, h1.sound.injectors, h1.sound.attached, h1.sound.intake⟩
  have e' : t.starting = true := e
  exact ⟨by show (!t.starting) = false; rw [e']; rfl, (h1.regroupable.startup e').2⟩

theorem Safe.readRegister {s : State} (h : Safe s) (a : Nat) : Safe (s.readRegister a) := by
  unfold State.readRegister
  split <;> exact h.congr rfl rfl rfl rfl rfl rfl rfl rfl rfl rfl rfl rfl

theorem Safe.readRegisters : ∀ (n a : Nat) {s : State}, Safe s → Safe (State.readRegisters n a s)
  | 0, _, _, h => h
  | n + 1, a, _, h => Safe.readRegisters n (a + 1) (h.readRegister a)

theorem Safe.writeRegister {s : State} (h : Safe s) (a : Nat) (b : Byte) : Safe (s.writeRegister a b) := by
  unfold State.writeRegister
  split
  · exact h.writeControl b
  all_goals exact h.congr rfl rfl rfl rfl rfl rfl rfl rfl rfl rfl rfl rfl

theorem Safe.writeRegisters : ∀ (data : List Byte) (a : Nat) {s : State}, Safe s → Safe (State.writeRegisters data a s)
  | [], _, _, h => h
  | b :: rest, a, _, h => Safe.writeRegisters rest (a + 1) ((h.writeRegister a b).shift 0)

/-- An offered order keeps the state safe. -/
theorem Safe.offer {s : State} (h : Safe s) (n : SlotId) (bytes : List Byte) : Safe (s.offer n bytes) := by
  unfold State.offer
  split
  · exact h.transactFrom _ _ fun _ => id
  · simp only
    have h1 := h.transactFrom bytes.length (fun u => u.memoryWriteBody (slotAddr n) bytes) fun _ ht => ht.memoryWriteBody _ _
    generalize s.transactFrom bytes.length (fun u => u.memoryWriteBody (slotAddr n) bytes) = t at h1 ⊢
    split
    · exact h1
    · next hn => exact h1.handleEnd (Bool.eq_false_iff.mpr hn)

end Sys2Proof.Machine
end

