-- ==== Sys2Proof/Laws/Sequencer.lean ====
section
/-! SUPPORT. The plateau of an ending half-period, in the terms claims use. -/

namespace Sys2Proof.Machine

theorem CondSet.has8_add (v : CondSet) (c : Cond) (b : Nat) : has8 (v.add c) b = true ↔ has8 v b = true ∨ b = c.bit := by
  unfold CondSet.add has8 bit8
  rw [BitVec.getLsbD_or, Bool.or_eq_true, BitVec.getLsbD_shiftLeft]
  apply or_congr_right
  cases c <;> rcases b with _ | _ | _ | _ | _ | _ | _ | _ | b <;> simp [Cond.bit]

/-- A window among the last S + 1 carries the full-scale mark (R33). -/
theorem any_take_iff (S : Nat) (ws : List Window) :
    (ws.take (S + 1)).any (·.fullScale) = true ↔ ∃ i w, i ≤ S ∧ ws[i]? = some w ∧ w.fullScale = true := by
  simp only [List.any_eq_true, List.mem_iff_getElem?, List.getElem?_take]
  constructor
  · rintro ⟨w, ⟨i, hi⟩, hw⟩
    split at hi
    · exact ⟨i, w, by omega, hi, hw⟩
    · simp at hi
  · rintro ⟨i, w, hi, h, hw⟩
    exact ⟨w, ⟨i, by rw [if_pos (by omega)]; exact h⟩, hw⟩

/-- The plateau record is what R32 and R33 say, for the flags an edge can give. -/
theorem isPlateau_plateau (q : Seq) (flag : Option Cond) (t : Nat)
    (hf : flag = none ∨ flag = some .unsettled ∨ flag = some .syncMissed) : isPlateau q flag t (q.plateau flag t) := by
  have key : ∀ b, has8 (if (q.windows.take (q.copy.plan.settleCount + 1)).any (·.fullScale) then
      (match flag with | some c => CondSet.add 0 c | none => 0).add .saturated
      else (match flag with | some c => CondSet.add 0 c | none => 0)) b = true ↔
      (b = 0 ∧ ∃ i w, i ≤ q.copy.plan.settleCount ∧ q.windows[i]? = some w ∧ w.fullScale = true)
        ∨ (b = 1 ∧ flag = some .unsettled) ∨ (b = 6 ∧ flag = some .syncMissed) := by
    intro b
    rw [← any_take_iff]
    have z : has8 (0#8) b = false := by unfold has8; exact BitVec.getLsbD_zero
    split
    · next h => rcases hf with rfl | rfl | rfl <;> simp [CondSet.has8_add, z, h, Cond.bit, or_comm]
    · next h => rcases hf with rfl | rfl | rfl <;> simp [CondSet.has8_add, z, h, Cond.bit]
  unfold Seq.plateau
  cases hw : q.windows with
  | nil => rw [hw] at key; exact ⟨rfl, rfl, by rw [hw], by rw [hw], by rw [hw]; exact key⟩
  | cons w rest => rw [hw] at key; exact ⟨rfl, rfl, by rw [hw], by rw [hw], by rw [hw]; exact key⟩

/-- Every end of a half-period is an edge, with the plateau the sequencer forms. -/
theorem edgeAt_of_ends {s : State} {c : Chan} {i : Instr} {q : Seq} {flag : Option Cond} {t : Nat}
    (h : EndsHalf s c i q flag t) (hl : q.history.length ≤ 3) :
    edgeAt s c i q (historyAfter q.history (q.plateau flag t)) := by
  refine ⟨flag, t, q.plateau flag t, h, isPlateau_plateau q flag t ?_, hl, rfl⟩
  cases h
  · exact .inl rfl
  · exact .inr (.inl rfl)
  · exact .inr (.inr rfl)
  · exact .inl rfl
  · exact .inr (.inr rfl)
  · exact .inl rfl

/-- What a shared SYNC edge finds on each channel, with the plateaus and histories as the model forms them. -/
theorem waitsForEdge_plateaus {s : State}
    (h : ∀ c : Chan, s.seqs[c].phase = .waitSync →
      (s.seqs[c].run = .series ∨ s.seqs[c].run = .triple) ∧ s.seqs[c].ready = some (s.seqs[c].ready.getD 0)
        ∧ s.seqs[c].history.length ≤ 3 ∧ ∃ l : GroupId, groupOfInjector s c = some l ∧ seriesOf s l ≠ .none
          ∧ ∀ o ∈ s.intake, s.seqs[c].owner = some o.slot → o.phase = .running → o.group = l) :
    waitsForEdge s (fun c => s.seqs[c].ready.getD 0) (fun c => s.seqs[c].plateau none (s.seqs[c].ready.getD 0))
      (fun c => historyAfter s.seqs[c].history (s.seqs[c].plateau none (s.seqs[c].ready.getD 0))) := by
  intro c hc
  obtain ⟨hr, hm, hl, hg⟩ := h c hc
  exact ⟨hr, hm, hl, isPlateau_plateau _ _ _ (.inl rfl), rfl, hg⟩

end Sys2Proof.Machine
end

