-- ==== Sys2Proof/Tests/Slice0.lean ====
section
/-! SUPPORT. Checks of the model's own work: WellFormed's three checks, one step of each command on a small state with
figures the spec gives, and for each statement with hypotheses a state and operands that meet them. -/

namespace Sys2Proof.Tests

-- One theorem at a time: run side by side, the kernel evaluations below take more threads than a build may have.
set_option Elab.async false

open Sys2Proof Sys2Proof.Machine

/-! ### Small states -/

/-- The plan of the worked half-period and of the worked computation (sections 2.10, 3.13, 4.9). -/
def worked : PlanCopy :=
  { PlanCopy.lowest with
    ready := true, up := 24, k := 5, blank := 50, halfMin := 400, halfMax := 3000, tolerance := 3, settleCount := 3
    daMin := 4, drift := 50, warnK := 400, faultK := 80, hysteresis := 10, confirm := 3, maxAge := 600, settle := 500
    syncTimeout := 250, rotate := 4 }

/-- A part in IDLE after start-up: channel 0 wired to node 0, plan 0 published, group 0 settled. -/
def live : State :=
  { State.reset with
    starting := false
    wiring := upd State.reset.wiring 0 ⟨true, 0, 10000, 200000⟩
    plans := upd State.reset.plans 0 worked
    groups := upd State.reset.groups 0 (some { Group.formed 1 with injector := some 0, measurable := true })
    safety := Vector.replicate 4 { ChanSafety.initial with verify := none } }

/-- The group of `live`. -/
def group0 : Group := { Group.formed 1 with injector := some 0, measurable := true }

/-- What a run on channel 0 of `live` copies. -/
def workedCopy : RunCopy := ⟨worked, some 0, 10000, 200000⟩

/-- The sequencer of channel 0 at the end of window 14 of the worked half-period (section 2.10). -/
def window14 : Seq :=
  { Seq.initial with
    coupling := .attached, run := .series, phase := .settleTest, copy := workedCopy, ctx := .idle, elapsed := 498
    accUm := -291549, accUb := 25600, accCount := 32
    windows := [⟨-9111, 800, false⟩, ⟨-9110, 800, false⟩, ⟨-9108, 800, false⟩] }

/-- A sequencer in place of channel 0's, with the series state of its group. -/
def withSeq (s : State) (q : Seq) (x : SeriesState) : State :=
  { s with
    seqs := upd s.seqs 0 q
    groups := upd s.groups 0 ((s.groups[(0 : GroupId)]).map fun g => { g with series := x }) }

/-- A series under way in RUN on channel 0. -/
def series : State := { withSeq live window14 .series with mode := .run, request := .run }

/-- The part with one order taken in slot 0, standing in group 0. -/
def withOrder (s : State) (job : Job) (phase : OrderPhase) : State :=
  { s with slots := upd s.slots 0 .taken, intake := [⟨0, job, phase, 0, 0⟩] }

/-- The part with one more channel wired into group 0 (node 0). -/
def twoChannels (s : State) : State := { s with wiring := upd s.wiring 1 ⟨true, 0, 10000, 200000⟩ }

/-- The worked triple, started at POS (section 3.13). -/
def workedTriple : Triple :=
  { p1 := ⟨.pos, -9111, 800, 498, 0⟩, p2 := ⟨.neg, -13111, 800, 506, 0⟩, p3 := ⟨.pos, -9111, 800, 498, 0⟩
    up := 24, daMin := 4, drift := 50, rm := 10000, rs := 200000, planId := some 0, actions := Vector.replicate 7 .report
    chan := 0, source := .continuous, stamp := some ⟨1, 0, 0⟩, slot := none }

/-- The drifting triple of section 3.13, under the actions of section 5.8. -/
def driftTriple : Triple :=
  { workedTriple with
    p3 := ⟨.pos, -9170, 800, 498, 0⟩, actions := #v[.report, .report, .hold, .hold, .report, .ignore, .ignore] }

/-- Channel 0 HELD; its group has no injector. -/
def held : State :=
  { live with
    seqs := upd live.seqs 0 { Seq.initial with ctx := .held, record := { CtxRecord.zero with conds := 4, highest := 3 } }
    groups := upd live.groups 0 (some (Group.formed 1)) }

/-- Channel 0 disconnected by line 0; its group has no injector. -/
def disconnected (lines : BitVec 4) : State :=
  { live with
    safety := upd live.safety 0 { live.safety[(0 : Chan)] with disconnected := true, discMask := 1 }
    groups := upd live.groups 0 (some (Group.formed 1)), lines := lines }

/-- Every node as in `live` but node 3, which is given (sections 4.9 and 4.10). -/
def withNode3 (x : NodeStatus) : State := { live with nodes := upd live.nodes 3 x }

/-- The state after a command. -/
def after (i : Instr) (s : State) : State :=
  match exec i s with
  | .next t => t
  | .fault _ => s
  | .refused _ => s

/-! ### Well-formed terms -/

theorem test_unknownCommand_of_a_known_code_is_ill_formed : (Instr.unknownCommand 0xA1 0).wellFormed = false := by decide

theorem test_specificEnd_above_seven_is_ill_formed : (Instr.specificEnd 8).wellFormed = false := by decide

theorem test_two_bytes_without_an_address_are_ill_formed :
    (Instr.memoryRead none 2).wellFormed = false ∧ (Instr.memoryWrite none [1, 2]).wellFormed = false
      ∧ (Instr.registerRead none 2).wellFormed = false ∧ (Instr.registerWrite none [1, 2]).wellFormed = false := by decide

theorem test_the_table_gives_no_bits : decodeTableWord 8 0xA1 = none := by decide

/-- R158: a code, the address high byte first, the data; an address cut after its first byte; a code of none of the
four; and no whole byte. -/
theorem test_decodeTransaction :
    decodeTransaction [0xA2, 0x05, 0x10, 7, 8] = some (.memoryWrite (some 0x510) [7, 8])
      ∧ decodeTransaction [0xA5, 0x00, 0x07, 0] = some (.registerRead (some 7) 1)
      ∧ decodeTransaction [0xA1, 0x05] = some (.memoryRead none 1)
      ∧ decodeTransaction [0xA3, 1, 2] = some (.unknownCommand 0xA3 2) ∧ decodeTransaction [] = none := by decide

/-- R158, R165, R172: CSN rises within the byte after these.  POLL's byte has acted, a written byte and an address byte are
discarded. -/
theorem test_decodeCut :
    decodeCut [0xA5, 0x00, 0x07] = some (.registerRead (some 7) 1)
      ∧ decodeCut [0xA1, 0x00, 0x04, 0] = some (.memoryRead (some 4) 2)
      ∧ decodeCut [0xA2, 0x05, 0x10, 7] = some (.memoryWrite (some 0x510) [7])
      ∧ decodeCut [0xA6, 0x00, 0x04] = some (.registerWrite (some 4) [])
      ∧ decodeCut [0xA1, 0x05] = some (.memoryRead none 1) ∧ decodeCut [] = none := by decide

/-- R172: the POLL byte that CSN's rise cuts short has taken the level into service; the transaction that ends before its
first bit has not. -/
theorem test_poll_cut_short :
    let s := { live with attn := { live.attn with pending := 0x10 } }
    (decodeCut [0xA5, 0x00, 0x07]).map (fun i => (after i s).attn.inService) = some 0x10
      ∧ (decodeTransaction [0xA5, 0x00, 0x07]).map (fun i => (after i s).attn.inService) = some 0 := by decide +kernel

/-! ### One step of each command -/

/-- R167. -/
theorem test_hardReset : after .hardReset series = State.reset := by decide +kernel

/-- R150: the closed switch makes channel 1 OFFLINE, and level 6 is raised. -/
theorem test_startupVerifyExpiry :
    let t := after (.startupVerifyExpiry 0x2 0) State.reset
    t.starting = false ∧ t.safety[(1 : Chan)].health = .offline ∧ t.failMask = 0x2 ∧ t.attn.pending = 0x40 := by
  decide +kernel

/-- Section 9.9: the four uptime bytes read 83,417. -/
theorem test_memoryRead_uptime :
    (after (.memoryRead (some 0x004) 4) { live with uptime := 83417 }).sdo
      = [0x01, 0, 0, 0xD9, 0x45, 0x01, 0x00] := by
  decide +kernel

/-- Section 9.9: a read that runs past 0x9FF returns 0x00 there and sets ERR. -/
theorem test_memoryRead_past_the_end :
    let t := after (.memoryRead (some 0x9FF) 2) { live with mem := [(0x9FF, 7)] }
    t.sdo = [0x01, 0, 0, 7, 0] ∧ t.err = true := by decide +kernel

/-- Section 9.9: a write to plan 15's check field is discarded with ERR. -/
theorem test_memoryWrite_check_field :
    let t := after (.memoryWrite (some 0x4E7) [5, 6]) live
    t.mem.read 0x4E7 = 5 ∧ t.mem.read 0x4E8 = 0 ∧ t.err = true ∧ t.endPending = true := by decide +kernel

/-- R165: IDENT. -/
theorem test_registerRead_ident : (after (.registerRead (some 0) 2) live).sdo = [0x01, 0, 0, 0x48, 0x01] := by
  decide +kernel

/-- R160: a write to IDENT is discarded with ERR. -/
theorem test_registerWrite_ident : (after (.registerWrite (some 0) [1]) live).err = true := by decide +kernel

/-- R160. -/
theorem test_unknownCommand : (after (.unknownCommand 0xA0 3) live).err = true := by decide +kernel

/-- Section 9.9: the done mask reads 0x20 and is cleared by 0x20. -/
theorem test_writeTransactionEnd_clears_news :
    (after .writeTransactionEnd { live with
      endPending := true, news := ⟨0x20, 0, 0, 0, 0⟩
      watch := { Watch.empty with news := ⟨0x20, 0, 0, 0, 0⟩ } }).news.done = 0 := by decide +kernel

/-- Section 9.9: the slot is TAKEN with intake number 12 and RUNNING on channel 0; the counter is 13. -/
theorem test_spot :
    let t := after (.spot 0 0 0) { live with intakeSeq := 12 }
    t.slots[(0 : SlotId)] = .taken ∧ t.mem.read16 0x510 = 12 ∧ t.intakeSeq = 13
      ∧ t.seqs[(0 : Chan)].run = .triple ∧ t.seqs[(0 : Chan)].coupling = .attached := by decide +kernel

/-- R131: a plan that is not READY is refused BAD_PLAN. -/
theorem test_spot_bad_plan :
    let t := after (.spot 0 0 15) live
    t.slots[(0 : SlotId)] = .refused ∧ t.mem.read 0x515 = 4 := by decide +kernel

/-- R147: the reference connects, and the group has no injector. -/
theorem test_selfcheck :
    let t := after (.selfcheck 0 0) live
    t.safety[(0 : Chan)].reference = true ∧ t.seqs[(0 : Chan)].injection = 24 ∧ groupState t 0 = .noChannel := by
  decide +kernel

/-- Section 5.8, step 3: HELD becomes IDLE, and the frame shows kind HELD, channel 0 and the set of DRIFT. -/
theorem test_snapshot :
    let t := after (.snapshot 2 0) held
    t.seqs[(0 : Chan)].ctx = .idle ∧ t.mem.read 0x900 = 2 ∧ t.mem.read 0x904 = 4
      ∧ t.mem.read 0x598 = 2 ∧ t.mem.read 0x599 = 1 := by decide +kernel

/-- Section 5.8, step 5: the frame names another channel, and RESTORE is refused FORMAT; a frame kind of 3 likewise. -/
theorem test_restore_format :
    (after (.restore 4 0) { held with mem := [(0x900, 2), (0x901, 1)] }).slots[(4 : SlotId)] = .refused
      ∧ (after (.restore 4 0) { held with mem := [(0x900, 3)] }).slots[(4 : SlotId)] = .refused := by decide +kernel

/-- Section 5.8, step 6: the kind becomes NONE and the record zero. -/
theorem test_restore_none :
    let t := after (.restore 5 0) held
    t.seqs[(0 : Chan)].ctx = .none ∧ t.seqs[(0 : Chan)].record = CtxRecord.zero ∧ injectorOf t 0 = some 0 := by
  decide +kernel

/-- R93: RELEASE keeps the record. -/
theorem test_release :
    let t := after (.release 2 0) held
    t.seqs[(0 : Chan)].ctx = .idle ∧ t.seqs[(0 : Chan)].record.conds = 4 ∧ groupState t 0 = .settling := by
  decide +kernel

/-- Section 4.10 at 300 ms: accrued is cleared, last conditions stay, the count goes to 43. -/
theorem test_ack :
    let t := after (.ack 0 3 42 0xFF)
      { withNode3 { NodeStatus.initial with state := .warn, updateCount := 42, last := 2, accrued := 2 } with
        mem := [(0x762, 42)] }
    t.nodes[(3 : NodeId)].accrued = 0 ∧ t.nodes[(3 : NodeId)].last = 2 ∧ t.mem.read16 0x762 = 43 := by decide +kernel

/-- Section 4.10 at 200 ms: with a deferred image the ACK is refused STALE. -/
theorem test_ack_stale :
    (after (.ack 0 3 41 0xFF)
      { withNode3 { NodeStatus.initial with state := .warn, updateCount := 41, accrued := 2, deferred := true } with
        mem := [(0x762, 41)], hold := some 50 }).slots[(0 : SlotId)] = .refused := by decide +kernel

/-- R17, R19. -/
theorem test_yieldNode :
    let t := after (.yieldNode 0 0) live
    t.yields = 1 ∧ t.mem.read 0x71C = 1 ∧ groupState t 0 = .passive := by decide +kernel

/-- R18. -/
theorem test_resumeNode : (after (.resumeNode 0 3) { live with yields := 0x18 }).yields = 0x10 := by decide +kernel

/-- R143: LINE_ACTIVE while the line is asserted, and DONE with the disconnect ended once it is not. -/
theorem test_clearDisconnect :
    (after (.clearDisconnect 0 0) (disconnected 1)).slots[(0 : SlotId)] = .refused
      ∧ (after (.clearDisconnect 0 0) (disconnected 0)).safety[(0 : Chan)].disconnected = false := by decide +kernel

/-- R100: a request for RUN starts the series; a field that names no mode is ignored. -/
theorem test_modeRequest :
    (after (.modeRequest 1 false) live).seqs[(0 : Chan)].run = .series
      ∧ (after (.modeRequest 3 false) live).request = .idle := by decide +kernel

/-- R71: the hold limit timer starts at 250 ms. -/
theorem test_holdStart : (after (.holdStart 0) live).hold = some 250 := by decide +kernel

/-- Section 4.10, released at 200 ms: the deferred image is written as count 42. -/
theorem test_hostRelease :
    let t := after (.hostRelease 0)
      { withNode3 { NodeStatus.initial with state := .warn, updateCount := 41, rf := 450, deferred := true } with
        hold := some 50 }
    t.mem.read16 0x762 = 42 ∧ t.mem.read16 0x768 = 450 ∧ t.hold = none ∧ t.holdExpired = false := by decide +kernel

/-- R115, R155, R175: IDLE, every channel detached, and level 7 alone pending. -/
theorem test_softReset :
    let t := after (.softReset 1 true) { series with attn := ⟨0x14, 0x02, 0, false, false⟩ }
    t.mode = .idle ∧ t.seqs[(0 : Chan)].coupling = .detached ∧ t.attn = ⟨0x80, 0, 0, false, false⟩ := by decide +kernel

/-- Section 10.6, step 5. -/
theorem test_attnMask : (after (.attnMask 0x02) live).attn.mask = 0x02 := by decide +kernel

/-- Section 10.6, step 2: POLL returns 1; {2} stays pending, {1} is in service. -/
theorem test_poll :
    let t := after .poll { live with attn := ⟨0x06, 0, 0, false, true⟩ }
    t.sdo.drop 3 = [1] ∧ t.attn = ⟨0x04, 0x02, 0, false, true⟩ ∧ attnAsserted t.attn = false := by decide +kernel

/-- Section 10.6, step 13: with no unmasked level pending, POLL returns 0x0F. -/
theorem test_poll_empty : (after .poll { live with attn := ⟨0x02, 0, 0x02, false, true⟩ }).sdo.drop 3 = [0x0F] := by
  decide +kernel

/-- Section 10.6, step 4: the FAULT fact is still true, so level 1 pends again. -/
theorem test_specificEnd :
    (after (.specificEnd 1) { live with attn := ⟨0x14, 0x02, 0, false, true⟩ }).attn = ⟨0x16, 0, 0, false, true⟩ := by
  decide +kernel

/-- Section 10.6, step 8. -/
theorem test_nonSpecificEnd :
    (after .nonSpecificEnd { live with attn := ⟨0x14, 0x04, 0x02, false, false⟩ }).attn = ⟨0x14, 0, 0x02, false, false⟩ := by
  decide +kernel

/-- R25: Ub is clamped to 1,200 V, and a full-scale code marks the window. -/
theorem test_sample :
    let t := (after (.sample 0 0x8000 1201) { series with
      seqs := upd series.seqs 0 { window14 with accUm := 0, accUb := 0, accCount := 0 } }).seqs[(0 : Chan)]
    t.latestUb = 1200 ∧ t.accFullScale = true ∧ t.accUm = -32768 ∧ t.elapsed = 499 := by decide +kernel

/-- Section 2.10: window 14's sum of −291,549 averages to −9,111, and the half-period is ready at 498 ms. -/
theorem test_windowEnd :
    (after (.windowEnd 0) series).seqs[(0 : Chan)].history = [⟨.pos, -9111, 800, 498, 0⟩] := by decide +kernel

/-- R30, R32: at half_max without a window the plateau has value 0 and carries UNSETTLED. -/
theorem test_halfMax :
    (after (.halfMax 0) { series with
      seqs := upd series.seqs 0 { window14 with elapsed := 3000, accCount := 0, windows := [] } }).seqs[(0 : Chan)].history
      = [⟨.pos, 0, 0, 3000, 2⟩] := by decide +kernel

/-- A channel that waits for SYNC since its ready point at 498 ms. -/
def waiting : State :=
  { series with seqs := upd series.seqs 0 { withWindow window14 with phase := .waitSync, ready := some 498, syncTimer := some 9 } }

/-- R29: a SYNC edge ends the half-period without a flag. -/
theorem test_syncEdge : (after .syncEdge waiting).seqs[(0 : Chan)].history = [⟨.pos, -9111, 800, 498, 0⟩] := by
  decide +kernel

/-- R29: the sync timer's expiry gives SYNC_MISSED. -/
theorem test_syncTimeout : (after (.syncTimeout 0) waiting).seqs[(0 : Chan)].history = [⟨.pos, -9111, 800, 498, 0x40⟩] := by
  decide +kernel

/-- A SELFCHECK run of channel 0 in its third half-period, at its end. -/
def checkRun : Seq :=
  { Seq.initial with
    run := .selfcheck, owner := some 0, phase := .settleTest, copy := ⟨selfcheckPlan, none, 10000, 200000⟩, half := 3
    elapsed := 200, windows := [⟨2000, 800, false⟩]
    history := [⟨.pos, 2000, 800, 200, 0⟩, ⟨.neg, -2000, 800, 200, 0⟩] }

/-- The part with that run. -/
def checkEnds : State :=
  withOrder { withSeq live checkRun .order with
    safety := upd live.safety 0 { live.safety[(0 : Chan)] with reference := true } } (.selfcheck 0) .running

/-- R36, R40, R148: the third edge hands the triple on and opens the reference. -/
theorem test_selfcheckHalfEnd :
    let t := after (.selfcheckHalfEnd 0) checkEnds
    t.safety[(0 : Chan)].reference = false ∧ t.seqs[(0 : Chan)].run = .none ∧ t.triples.length = 1
      ∧ t.mem.read 0x512 = 3 := by decide +kernel

/-- R45. -/
theorem test_computationStart :
    (after .computationStart { live with triples := [workedTriple, driftTriple] }).computing = some workedTriple := by
  decide +kernel

/-- Section 3.13: Rf 1,000 kΩ, rails 1,500 and 2,999 kΩ, asymmetry 333, response 4,000, Ub 800. -/
theorem test_computationComplete :
    let rs := (after .computationComplete { live with computing := some workedTriple }).results
    rs.map (·.rf) = [some 1000] ∧ rs.map (·.split) = [some ⟨1500, 2999, 333⟩] ∧ rs.map (·.dA) = [4000]
      ∧ rs.map (·.off2) = [-22222] ∧ rs.map (·.ub) = [800] ∧ rs.map (·.valid) = [true] := by decide +kernel

/-- Section 3.14, the asymmetry clamp: a_pm +990, Rp 2,010 kΩ, Rn at the mark. -/
theorem test_computation_asymmetry_clamp :
    (compute { workedTriple with
      p1 := ⟨.pos, -13909, 100, 498, 0⟩, p2 := ⟨.neg, -16091, 100, 498, 0⟩, p3 := ⟨.pos, -13909, 100, 498, 0⟩ }).split
      = some ⟨2010, 65535, 990⟩ := by decide +kernel

/-- Section 4.9, step 7: the third reading below 400 confirms WARN, with level 2. -/
theorem test_conditionResult_confirms :
    let t := after .conditionResult
      { live with
        nodes := upd live.nodes 0 { NodeStatus.initial with state := .ok, candidate := some .warn, count := 2 }
        results := [{ compute workedTriple with rf := some 360 }] }
    t.nodes[(0 : NodeId)].state = .warn ∧ t.nodes[(0 : NodeId)].candidate = none ∧ t.attn.pending = 0x04 := by
  decide +kernel

/-- Section 5.8, step 2: DRIFT under HOLD holds the channel. -/
theorem test_conditionResult_holds :
    let t := after .conditionResult { series with results := [compute driftTriple] }
    t.seqs[(0 : Chan)].ctx = .held ∧ t.seqs[(0 : Chan)].record.dA = 3971 ∧ t.seqs[(0 : Chan)].record.off2 = -22251
      ∧ t.seqs[(0 : Chan)].coupling = .detached ∧ groupState t 0 = .held := by decide +kernel

/-- R92: a SNAPSHOT between the update of the context record and the HOLD effects finds the kind IDLE with the figures
of the same result; the channel is HELD after it. -/
theorem test_conditionResult_cut :
    let s := after .conditionResult { series with results := [compute driftTriple], cuts := [true] }
    let t := after (.snapshot 2 0) s
    s.seqs[(0 : Chan)].ctx = .idle ∧ s.taken = some (compute driftTriple) ∧ s.seqs[(0 : Chan)].coupling = .attached
      ∧ t.mem.read 0x900 = 1 ∧ t.mem.read 0x904 = 4 ∧ t.mem.read 0x598 = 1 ∧ t.mem.read 0x599 = 1
      ∧ (after .conditionResult t).seqs[(0 : Chan)].ctx = .held := by decide +kernel

/-- R69: 600,000 ms is not over an age of 600 s, 600,001 ms is. -/
theorem test_stalenessCheck :
    (after .stalenessCheck { withNode3 { NodeStatus.initial with state := .ok } with uptime := 600000 }).nodes[(3 : NodeId)].state
      = .ok
    ∧ (after .stalenessCheck { withNode3 { NodeStatus.initial with state := .ok } with uptime := 600001 }).nodes[(3 : NodeId)].state
      = .stale := by decide +kernel

/-- Section 4.10 at 250 ms: HOLD_EXPIRED is set, and the image written as count 42. -/
theorem test_holdLimitExpiry :
    let t := after .holdLimitExpiry
      { withNode3 { NodeStatus.initial with state := .warn, updateCount := 41, deferred := true } with hold := some 0 }
    t.holdExpired = true ∧ t.mem.read16 0x762 = 42 := by decide +kernel

/-- R12: the group is measurable at its settle expiry. -/
theorem test_settleExpiry :
    groupState (after (.settleExpiry 0)
      { live with groups := upd live.groups 0 (some { Group.formed 1 with injector := some 0, settle := some 0 }) }) 0
      = .quiet := by decide +kernel

/-- R113: the park timer's expiry gives the group its turn. -/
theorem test_parkTimerExpiry :
    let t := after .parkTimerExpiry { live with mode := .parked, park := .running 0, rotation := [1, 0] }
    t.seqs[(0 : Chan)].run = .triple ∧ t.park = .stopped := by decide +kernel

/-- R145, R152: a failed verify enters SAFE_STOP with cause DETACH_FAILED and its channel. -/
theorem test_detachVerifyExpiry :
    let t := after (.detachVerifyExpiry 2 true)
      { live with safety := upd live.safety 2 { ChanSafety.initial with verify := some 0 } }
    t.mode = .safeStop ∧ t.cause = .detachFailed ∧ t.causeChan = some 2 ∧ t.failMask = 4 ∧ t.attn.pending = 0x01 := by
  decide +kernel

/-- R140: the attached channel that enables the line is disconnected and detached with a verify; level 6 is raised. -/
theorem test_disconnectLineChange :
    let t := after (.disconnectLineChange 0 true)
      { series with safety := upd series.safety 0 { series.safety[(0 : Chan)] with discMask := 1 } }
    t.safety[(0 : Chan)].disconnected = true ∧ t.seqs[(0 : Chan)].coupling = .detached
      ∧ t.safety[(0 : Chan)].verify = some 5 ∧ has8 t.attn.pending 6 = true := by decide +kernel

/-- R151, R152. -/
theorem test_stopLine :
    let t := after .stopLine series
    t.mode = .safeStop ∧ t.cause = .stopLine ∧ t.causeChan = none ∧ t.seqs[(0 : Chan)].coupling = .detached
      ∧ alertAsserted t = true := by decide +kernel

/-- R151: the release of STOP leaves SAFE_STOP as it is. -/
theorem test_stopLineRelease :
    let t := after .stopLineRelease { live with mode := .safeStop, cause := .stopLine, lines := 8 }
    t.lines = 0 ∧ t.mode = .safeStop := by decide +kernel

/-- An idle millisecond (log entry 2) counts uptime and a running hold. -/
theorem test_idle_step :
    (match step { live with hold := some 250 } with
      | .next t => (t.uptime, t.hold)
      | .fault _ => (0, none)
      | .refused _ => (0, none)) = (1, some 249) := by decide +kernel

/-! ### The statements' hypotheses can be met -/

theorem witness_IdleStepIsOneMillisecond :
    State.reset.pending = [] ∧ { State.reset with park := .running 1 }.park = .running 1
      ∧ ∀ n, State.reset.park ≠ .running n := ⟨rfl, rfl, fun _ h => nomatch h⟩

/-- `live` is a safe state. -/
theorem safe_live : Safe live := by
  unfold Safe memoryCanonical referenceApart safeStopQuiet tableAgrees injectorsEligible mayInject attachedInject
    intakeSound startupUnwired
  decide +kernel

/-- So is a series under way. -/
theorem safe_series : Safe series := by
  unfold Safe memoryCanonical referenceApart safeStopQuiet tableAgrees injectorsEligible mayInject attachedInject
    intakeSound startupUnwired
  decide +kernel

theorem withinLimits_series : withinLimits series := by unfold withinLimits planWithinLimits; decide +kernel

theorem witness_SafeKeptByEveryStep : Safe series ∧ ∃ t, step { series with pending := [.windowEnd 0] } = .next t :=
  ⟨safe_series, _, rfl⟩

theorem witness_LimitsAndMemoryFormKeptByEveryStep :
    withinLimits series ∧ { live with mem := [(0x900, 2), (0x901, 1)] }.mem.wf = true
      ∧ ∃ t, step { series with pending := [.windowEnd 0] } = .next t :=
  ⟨withinLimits_series, by decide +kernel, _, rfl⟩

/-- The part in SAFE_STOP by STOP. -/
def stopped : State := { live with mode := .safeStop, cause := .stopLine, lines := 8 }

theorem witness_SafeStopLeftByHardResetAlone :
    stopped.mode = .safeStop ∧ { stopped with pending := [.stopLineRelease] }.pending.head? ≠ some .hardReset
      ∧ ∃ t, step { stopped with pending := [.stopLineRelease] } = .next t := ⟨rfl, by decide +kernel, _, rfl⟩

theorem witness_OneAttachedPerGroup :
    Safe series ∧ wiredInto series 0 (membersOf series 0) = true ∧ series.seqs[(0 : Chan)].coupling = .attached :=
  ⟨safe_series, by decide +kernel⟩

theorem reset_not_measurable : ∀ (l : GroupId) (g : Group), State.reset.groups[l] = some g → g.measurable = false := by
  intro l g h
  match l, h with
  | 0, h | 1, h | 2, h | 3, h | 4, h | 5, h | 6, h | 7, h => cases h; rfl

theorem witness_StartupJudged :
    State.reset.starting = true ∧ State.reset.mode = .idle ∧ State.reset.request = .idle
      ∧ (∀ r : Mode, r = .run → { State.reset with request := r }.request ≠ .safeStop) ∧ State.reset.intake = []
      ∧ (0x7 : BitVec 4) ≠ 0xF ∧ (0x7 : BitVec 4).getLsbD 3 = false ∧ (0x8 : BitVec 4).getLsbD 3 = true := by
  refine ⟨rfl, rfl, rfl, ?_, rfl, by decide, by decide, by decide⟩
  rintro r rfl
  decide

theorem served_live : served live := ⟨rfl, rfl⟩

/-- The last byte of the memory and the first above it, and the bytes about the uptime's. -/
theorem witness_MemoryReads :
    served live
      ∧ (∀ k, k < 2 → ∀ x, x = (0x9FF : BitVec 16).toNat % 4096 + k →
          x ≠ 0x04 ∧ x ≠ 0x07 ∧ ∀ c : Chan, x ≠ viewAddr c + 0x1F)
      ∧ (∀ k, k < 2 → ∀ x, x = (0x005 : BitVec 16).toNat % 4096 + k →
          x ≠ 0x04 ∧ x ≠ 0x07 ∧ ∀ c : Chan, x ≠ viewAddr c + 0x1F)
      ∧ live.seqs[(0 : Chan)].viewLatched = false ∧ (withSeq live { window14 with viewLatched := true } .none).seqs[(0 : Chan)].viewLatched = true := by
  refine ⟨served_live, ?_, ?_, by decide +kernel, by decide +kernel⟩ <;>
  · intro k hk x hx
    subst hx
    revert hk
    revert k
    decide +kernel

theorem witness_ViewsAndRegistersShowTheirOwners :
    { live with groups := upd live.groups 5 none }.groups[(5 : GroupId)] = none ∧ ∃ g, live.groups[(0 : GroupId)] = some g :=
  ⟨by decide +kernel, _, rfl⟩

/-- The last host byte of slot 0 and the first byte of its result area, the done mask, written and not written, and
the last frame byte. -/
theorem witness_MemoryWriteEffect :
    served live ∧ wroteByte live 0x50F [7] 0x50F 7 ∧ (∀ b, ¬ wroteByte live 0x510 [7] 0x510 b)
      ∧ wroteByte live 0x010 [0x20] 0x010 0x20 ∧ wroteByte live 0x9FF [7] 0x9FF 7
      ∧ ∀ v, ¬ wroteByte live 0x011 [7] 0x010 v := by
  refine ⟨served_live, ⟨by decide, rfl, .inr (.inr (.inr (.inl ⟨0, 0xF, by decide +kernel⟩)))⟩, ?_,
    ⟨by decide, rfl, .inl (by decide)⟩, ⟨by decide, rfl, .inr (.inr (.inr (.inr (.inr (by decide)))))⟩,
    fun _ h => absurd h.1 (by decide)⟩
  rintro b ⟨-, -, h⟩
  unfold hostOwns at h
  rcases h with h | h | ⟨p, k, hk, -, h⟩ | ⟨n, k, hk, h, -⟩ | ⟨c, h⟩ | h
  · omega
  · omega
  · unfold planAddr at h; omega
  · unfold slotAddr at h; omega
  · unfold viewAddr at h; omega
  · omega

/-- A SPOT's offer in slot 0. -/
def spotOffer : Offer := ⟨0, .spot, 0, [0]⟩

theorem witness_TransactionsNotServed :
    State.reset.starting = true ∧ offerOf (.spot 0 0 0) = some spotOffer ∧ served live
      ∧ { live with slots := upd live.slots 0 .taken }.slots[spotOffer.slot] = .taken ∧ bytesAfter .poll = some 3
      ∧ live.starting = false ∧ { live with endPending := true }.endPending = true ∧ live.endPending = false
      ∧ (0xA3 : Byte) ≠ 0xA1 ∧ (0xA3 : Byte) ≠ 0xA2 ∧ (0xA3 : Byte) ≠ 0xA5 ∧ (0xA3 : Byte) ≠ 0xA6
      ∧ (0xFFFF : BitVec 16).toNat = 256 * (0xFF : Byte).toNat + (0xFF : Byte).toNat ∧ [(0x05 : Byte)].length ≤ 1 :=
  ⟨rfl, rfl, served_live, by decide +kernel, rfl, rfl, rfl, rfl, by decide, by decide, by decide, by decide, by decide,
    by decide⟩

/-- One byte at each end of its range; and the last of two bytes at CONTROL, ATTN_MASK, POLL and above 0x007. -/
theorem witness_RegisterWriteActs :
    (live.endPending = false ∨ live.starting = true) ∧ (7 : Byte).toNat ≤ 7 ∧ 9 ≤ (9 : Byte).toNat
      ∧ (0x008 : BitVec 16).toNat % 4096 = 8
      ∧ (∀ (a : BitVec 16) (x : Nat), ((a, x) = (2, 3) ∨ (a, x) = (3, 4) ∨ (a, x) = (6, 7) ∨ (a, x) = (7, 8)) →
          x = a.toNat % 4096 + [(1 : Byte)].length ∧ ∃ u, exec (.registerWrite (some a) [1]) live = .next u)
      ∧ (7 : Byte) = byteOf (7 : Level).val ∧ live.attn.inService = 0
      ∧ (has8 (0x80 : BitVec 8) (7 : Level).val = true ∧ ∀ m : Level, m < 7 → has8 (0x80 : BitVec 8) m.val = false) := by
  refine ⟨.inl rfl, by decide, by decide, by decide, ?_, by decide, rfl, by decide⟩
  rintro a x (h | h | h | h) <;> cases h <;> exact ⟨by decide, _, rfl⟩

/-- A write transaction of these watched bytes waits for its end. -/
def ended (w : Watch) : State := { live with endPending := true, watch := w }

theorem witness_NewsAndSlotWritesTaken :
    (ended { Watch.empty with news := ⟨0x20, 0, 0, 0, 0⟩ }).endPending = true
      ∧ (ended { Watch.empty with news := ⟨0x20, 0, 0, 0, 0⟩ }).watch = { Watch.empty with news := ⟨0x20, 0, 0, 0, 0⟩ }
      ∧ live.endPending = false
      ∧ (∀ b : Byte, (ended { Watch.empty with slots := upd Watch.empty.slots 0 (some b) }).watch
          = { Watch.empty with slots := upd Watch.empty.slots 0 (some b) })
      ∧ live.slots[(0 : SlotId)] ≠ .taken ∧ (∀ x ∈ live.intake, x.slot ≠ 0) ∧ live.mode ≠ .safeStop
      ∧ (live.mem.read (slotAddr 0 + 1)).toNat = 0
      ∧ 10 ≤ ({ live with mem := [(0x501, 10)] }.mem.read (slotAddr 0 + 1)).toNat :=
  ⟨rfl, rfl, rfl, fun _ => rfl, by decide +kernel, by decide +kernel, by decide +kernel, by decide +kernel, by decide +kernel⟩

/-- The end of a write that wrote these watched fields leaves some state. -/
theorem ends_somewhere (s : State) (w : Watch) : ∃ t, endsAs s w t := ⟨_, rfl⟩

/-- A view with its request byte written, unlatched and latched. -/
theorem witness_NewsAndSlotWritesTaken_view :
    (∀ b : Byte, (ended { Watch.empty with views := upd Watch.empty.views 3 (some b) }).watch
        = { Watch.empty with views := upd Watch.empty.views 3 (some b) })
      ∧ (ended Watch.empty).endPending = true ∧ live.seqs[(3 : Chan)].viewLatched = false
      ∧ (withSeq live { window14 with viewLatched := true } .none).seqs[(0 : Chan)].viewLatched = true :=
  ⟨fun _ => rfl, rfl, by decide +kernel, by decide +kernel⟩

/-- A write that watches every kind, and its ends kind by kind, with the slots parted at slot 7. -/
theorem witness_NewsAndSlotWritesTaken_order :
    let w : Watch := { Watch.empty with
      news := ⟨0x20, 0, 0, 0, 0⟩, nodes := 1, links := 1, wiring := 1, plans := upd Watch.empty.plans 0 (some 1)
      slots := upd (upd Watch.empty.slots 0 (some 1)) 7 (some 1), views := upd Watch.empty.views 0 (some 1) }
    ∃ t0 t1 t2 t3 t : State, endsAs live { Watch.empty with news := w.news } t0
      ∧ endsAs t0 { w with news := Watch.empty.news, slots := Watch.empty.slots, views := Watch.empty.views } t1
      ∧ endsAs t1 { Watch.empty with slots := Vector.ofFn fun k => if k < (7 : SlotId) then w.slots[k] else none } t2
      ∧ endsAs t2 { Watch.empty with slots := Vector.ofFn fun k => if k < (7 : SlotId) then none else w.slots[k] } t3
      ∧ endsAs t3 { Watch.empty with views := w.views } t := by
  intro w
  obtain ⟨t0, h0⟩ := ends_somewhere live { Watch.empty with news := w.news }
  obtain ⟨t1, h1⟩ := ends_somewhere t0 { w with news := Watch.empty.news, slots := Watch.empty.slots, views := Watch.empty.views }
  obtain ⟨t2, h2⟩ := ends_somewhere t1 { Watch.empty with slots := Vector.ofFn fun k => if k < (7 : SlotId) then w.slots[k] else none }
  obtain ⟨t3, h3⟩ := ends_somewhere t2 { Watch.empty with slots := Vector.ofFn fun k => if k < (7 : SlotId) then none else w.slots[k] }
  obtain ⟨t, h⟩ := ends_somewhere t3 { Watch.empty with views := w.views }
  exact ⟨t0, t1, t2, t3, t, h0, h1, h2, h3, h⟩

/-- Two slots whose kinds stand just outside the nine, a SPOT beside its plan's publication in a yielded group, and one
behind the YIELD of its node. -/
theorem witness_NewsAndSlotWritesTaken_slots :
    (let s := { live with mem := [(0x6C1, 10)] }
     (0 : SlotId) < 7 ∧ s.mode ≠ .safeStop ∧ s.slots[(0 : SlotId)] ≠ .taken ∧ s.slots[(7 : SlotId)] ≠ .taken
      ∧ (∀ x ∈ s.intake, x.slot ≠ 0 ∧ x.slot ≠ 7)
      ∧ OrderKind.ofByte (s.mem.read (slotAddr 0 + 1)) = none ∧ OrderKind.ofByte (s.mem.read (slotAddr 7 + 1)) = none)
    ∧ (∀ s, (s = { live with mem := [(0x6C1, 1)], yields := 1 } ∨ s = { live with mem := [(0x501, 7), (0x6C1, 1)] }) →
        s.mode ≠ .safeStop ∧ tableAgrees s ∧ intakeSound s ∧ s.slots[(7 : SlotId)] ≠ .taken
          ∧ (∀ x ∈ s.intake, x.slot ≠ 7) ∧ (s.groups[leaderOf s 0]).map (·.members) = some 1
          ∧ s.mem.read (slotAddr 7 + 1) = 1 ∧ s.mem.read (slotAddr 7 + 2) = byteOf (0 : NodeId).val
          ∧ s.mem.read (slotAddr 7 + 3) = byteOf (0 : PlanId).val)
    ∧ (1 : BitVec 8) &&& { live with yields := 1 }.yields ≠ 0
    ∧ (let s := { live with mem := [(0x501, 7), (0x6C1, 1)] }
       s.plans[(0 : PlanId)].ready = true ∧ s.slots[(0 : SlotId)] ≠ .taken ∧ (∀ x ∈ s.intake, x.slot ≠ 0)
        ∧ s.mem.read (slotAddr 0 + 1) = 7 ∧ s.mem.read (slotAddr 0 + 2) = byteOf (0 : NodeId).val
        ∧ has8 (1 : BitVec 8) (0 : NodeId).val = true) := by
  refine ⟨by decide +kernel, ?_, by decide +kernel, by decide +kernel⟩
  unfold tableAgrees intakeSound
  rintro s (rfl | rfl) <;> decide +kernel

theorem witness_PlanPublication :
    (∀ b : Byte, (ended { Watch.empty with plans := upd Watch.empty.plans 15 (some b) }).watch
        = { Watch.empty with plans := upd Watch.empty.plans 15 (some b) })
      ∧ (ended Watch.empty).endPending = true
      ∧ ∃ c marks, (c, marks) = readPlan live.mem 15 := ⟨fun _ => rfl, rfl, _, _, rfl⟩

theorem intakeSound_live : intakeSound live := safe_live.2.2.2.2.2.2.1

/-- A write of a node setting, two links, the wiring of channels 0 to 2 and a plan: line 0 is asserted and disconnects
channel 0; no enabled line is asserted for channel 1, which comes back; channel 2, of a waiting check, is wired to no node
any more; a SPOT waits and another is FINISHING. -/
def rewired : State :=
  { live with
    endPending := true
    watch := { Watch.empty with nodes := 1, links := 0x8001, wiring := 7, plans := upd Watch.empty.plans 0 (some 1) }
    mem := [(0x0C0, 1), (0x0C8, 1), (0x0D0, 1), (0x0D8, 2), (0x0D9, 1)], lines := 1
    safety := upd live.safety 1 { live.safety[(1 : Chan)] with disconnected := true, discMask := 1 }
    wiring := upd live.wiring 2 ⟨true, 7, 10000, 200000⟩
    slots := upd (upd (upd live.slots 0 .taken) 1 .taken) 2 .taken
    intake := [⟨0, .spot 0 0, .waiting, 0, 0⟩, ⟨1, .selfcheck 2, .waiting, 7, 0⟩, ⟨2, .spot 0 0, .finishing, 0, 0⟩] }

theorem witness_WorkingCopiesTaken :
    rewired.endPending = true ∧ intakeSound rewired
      ∧ rewired.watch = { Watch.empty with nodes := 1, links := 0x8001, wiring := 7, plans := upd Watch.empty.plans 0 (some 1) }
      ∧ ((1 : BitVec 8) ≠ 0 ∨ (0x8001 : BitVec 16) ≠ 0 ∨ (7 : BitVec 4) ≠ 0
          ∨ ∃ p : PlanId, (upd Watch.empty.plans 0 (some 1))[p] ≠ none)
      ∧ ((7 : BitVec 4).getLsbD (0 : Chan).val = true ∧ rewired.safety[(0 : Chan)].disconnected = false
          ∧ ((rewired.mem.read (wiringAddr 0 + 8)).setWidth 3).getLsbD 0 = true ∧ rewired.lines.getLsbD 0 = true)
      ∧ ((7 : BitVec 4).getLsbD (1 : Chan).val = true ∧ rewired.safety[(1 : Chan)].disconnected = true
          ∧ rewired.mem.read (wiringAddr 1 + 9) = 1
          ∧ ∀ i, i < 3 → ((rewired.mem.read (wiringAddr 1 + 8)).setWidth 3).getLsbD i = true → rewired.lines.getLsbD i = false)
      ∧ (⟨2, .spot 0 0, .finishing, 0, 0⟩ : Order) ∈ rewired.intake
      ∧ targetGroup (after .writeTransactionEnd rewired) ⟨1, .selfcheck 2, .waiting, 7, 0⟩ = none
      ∧ (after .writeTransactionEnd rewired).intake.map (·.slot) = [0, 2] := by
  unfold intakeSound
  refine ⟨rfl, by decide +kernel, rfl, .inl (by decide), by decide +kernel, by decide +kernel, by decide +kernel,
    by decide +kernel, by decide +kernel⟩

theorem restful_live : restful live := by unfold restful; decide +kernel

theorem safe_ended (w : Watch) : Safe (ended w) :=
  ⟨safe_live.1, safe_live.2.1, safe_live.2.2.1, safe_live.2.2.2.1, safe_live.2.2.2.2.1, safe_live.2.2.2.2.2.1,
    safe_live.2.2.2.2.2.2.1, fun h => nomatch h⟩

/-- Group 0 goes on; the link that joins nodes 2 and 3 newly forms group 2, whose members stood alone. -/
theorem witness_RegroupFormsGroups :
    let s := { ended { Watch.empty with links := 1 } with mem := [(0x080, 2), (0x081, 3), (0x082, 1)] }
    s.endPending = true ∧ Safe s ∧ restful s ∧ s.watch = { Watch.empty with nodes := 0, links := 1 }
      ∧ ((0 : BitVec 8) ≠ 0 ∨ (1 : BitVec 16) ≠ 0)
      ∧ (after .writeTransactionEnd s).groups[(0 : GroupId)] = s.groups[(0 : GroupId)]
      ∧ (after .writeTransactionEnd s).groups[(2 : GroupId)].map (·.members) = some 0x0C := by
  refine ⟨rfl, ?_, by unfold restful; decide +kernel, rfl, .inr (by decide), by decide +kernel, by decide +kernel⟩
  exact ⟨by unfold memoryCanonical; decide +kernel, safe_live.2.1, safe_live.2.2.1, safe_live.2.2.2.1, safe_live.2.2.2.2.1,
    safe_live.2.2.2.2.2.1, safe_live.2.2.2.2.2.2.1, fun h => nomatch h⟩

/-- A write of link 0, from this memory, handled in RUN while the series of group 0 runs; plan 0 with this settle time. -/
def joining (mem : Memory) (settle : Nat) : State :=
  { series with
    endPending := true, watch := { Watch.empty with links := 1 }, mem := mem
    plans := upd series.plans 0 { worked with settle := settle } }

/-- Nodes 2 and 3 join and group 0 goes on; nodes 0 and 7 join, with a settle time and without one. -/
theorem witness_RegroupFormsGroups_run :
    let kept := joining [(0x080, 2), (0x081, 3), (0x082, 1)] 500
    let gone := joining [(0x081, 7), (0x082, 1)] 500
    let atOnce := joining [(0x081, 7), (0x082, 1)] 0
    (∀ s, s = kept ∨ s = gone ∨ s = atOnce → s.endPending = true ∧ Safe s ∧ s.mode = .run ∧ s.intake = []
        ∧ s.parkedPending = false ∧ (∀ c : Chan, s.seqs[c].run = .none → s.seqs[c].coupling = .detached)
        ∧ s.watch = { Watch.empty with nodes := 0, links := 1 }
        ∧ s.groups[(0 : GroupId)] = some { group0 with series := .series } ∧ s.seqs[(0 : Chan)].run = .series
        ∧ s.seqs[(0 : Chan)].coupling = .attached)
      ∧ ((after .writeTransactionEnd kept).groups[(0 : GroupId)].map (·.members) = some group0.members
          ∧ mayInject (after .writeTransactionEnd kept) 0 0 ∧ readyPlan (after .writeTransactionEnd kept) 0 ≠ none
          ∧ group0.waitPlan = false)
      ∧ ((after .writeTransactionEnd gone).groups[(0 : GroupId)].map fun g => (g.members, g.injector, g.measurable))
          = some (0x81, some 0, false)
      ∧ ((after .writeTransactionEnd atOnce).groups[(0 : GroupId)].map fun g => (g.members, g.injector, g.measurable))
          = some (0x81, some 0, true)
      ∧ (after .writeTransactionEnd atOnce).nodePlan[(0 : NodeId)] = some 0 := by
  refine ⟨?_, ?_, ?_⟩
  · unfold Safe memoryCanonical referenceApart safeStopQuiet tableAgrees injectorsEligible mayInject attachedInject
      intakeSound startupUnwired
    rintro s (rfl | rfl | rfl) <;> decide +kernel
  · unfold mayInject
    decide +kernel
  · decide +kernel

theorem offerable_live (o : Offer) : offerable live o :=
  ⟨served_live, (by decide +kernel : ∀ n : SlotId, live.slots[n] ≠ .taken) o.slot, fun x hx => nomatch hx⟩

theorem witness_OrderIsOneWriteTransaction : offerOf (.spot 0 0 0) = some spotOffer ∧ served live := ⟨rfl, served_live⟩

/-- Every reason an offer can be refused for at its intake, each at a boundary of its range. -/
theorem witness_OrdersRefusedAtIntake :
    offerable live spotOffer
      ∧ RefusedAtIntake stopped (.spot 0 0 0) .safeStop
      ∧ RefusedAtIntake live (.spot 0 8 0) .badNode ∧ RefusedAtIntake live (.ack 0 8 0 0) .badNode
      ∧ RefusedAtIntake live (.yieldNode 0 8) .badNode ∧ RefusedAtIntake live (.resumeNode 0 8) .badNode
      ∧ RefusedAtIntake live (.selfcheck 0 4) .badChannel ∧ RefusedAtIntake live (.snapshot 0 4) .badChannel
      ∧ RefusedAtIntake live (.restore 0 4) .badChannel ∧ RefusedAtIntake live (.release 0 4) .badChannel
      ∧ RefusedAtIntake live (.clearDisconnect 0 4) .badChannel ∧ RefusedAtIntake live (.spot 0 (byteOf 0) 16) .badPlan
      ∧ RefusedAtIntake { live with yields := 1 } (.spot 0 (byteOf 0) (byteOf 0)) .passive
      ∧ RefusedAtIntake held (.spot 0 (byteOf 0) (byteOf 0)) .held
      ∧ RefusedAtIntake live (.spot 0 (byteOf 7) (byteOf 0)) .noChannel
      ∧ RefusedAtIntake live (.selfcheck 0 (byteOf 3)) .badChannel
      ∧ RefusedAtIntake { live with safety := upd live.safety 0 { ChanSafety.initial with health := .offline } }
          (.selfcheck 0 (byteOf 0)) .offline
      ∧ RefusedAtIntake (disconnected 0) (.selfcheck 0 (byteOf 0)) .disconnected
      ∧ RefusedAtIntake live (.ack 0 (byteOf 0) 1 0) .stale
      ∧ RefusedAtIntake { held with mem := [(0x900, 3)] } (.restore 0 (byteOf 0)) .format
      ∧ RefusedAtIntake (disconnected 1) (.clearDisconnect 0 (byteOf 0)) .lineActive := by
  have l : live.mode ≠ .safeStop := by decide
  refine ⟨offerable_live _, .safeStop _ _ rfl rfl, .spotNode _ _ _ l (by decide), .ackNode _ _ _ _ l (by decide),
    .yieldNode _ _ l (by decide), .resumeNode _ _ l (by decide), .selfcheckChan _ _ l (by decide),
    .snapshotChan _ _ l (by decide), .restoreChan _ _ l (by decide), .releaseChan _ _ l (by decide),
    .clearChan _ _ l (by decide), .spotPlan 0 0 16 l (by decide +kernel),
    .spotPassive 0 0 0 (by decide) (by decide +kernel) (by decide +kernel),
    .spotHeld 0 0 0 (by decide) (by decide +kernel) (by decide +kernel),
    .spotNoChannel 0 7 0 l (by decide +kernel) (by decide +kernel), .selfcheckUnwired 0 3 l (by decide +kernel),
    .selfcheckOffline 0 0 0 (by decide) (by decide +kernel) (by decide +kernel),
    .selfcheckDisconnected 0 0 0 (by decide) (by decide +kernel) (by decide +kernel) (by decide +kernel),
    .ackStale 0 0 1 0 l (by decide +kernel), .restoreFormat 0 0 (by decide) (by decide +kernel),
    .lineActive 0 0 (by decide) (by decide +kernel) ⟨0, by decide +kernel⟩⟩

/-- Node 0 has yielded; its group is PASSIVE and has no injector. -/
def yielded : State := { live with yields := 1, mem := [(0x71C, 1)], groups := held.groups }

theorem witness_YieldAndResumeFlagTheNode :
    Safe live ∧ live.mode ≠ .safeStop ∧ offerOf (.yieldNode 0 (byteOf 0)) = some ⟨0, .yieldNode, byteOf 0, []⟩
      ∧ offerOf (.resumeNode 0 (byteOf 7)) = some ⟨0, .resumeNode, byteOf 7, []⟩
      ∧ offerable live ⟨0, .yieldNode, byteOf 0, []⟩ ∧ offerable live ⟨0, .resumeNode, byteOf 7, []⟩ :=
  ⟨safe_live, by decide, rfl, rfl, offerable_live _, offerable_live _⟩

/-- A RESUME takes the group out of PASSIVE: it had no injector, and takes channel 0. -/
theorem witness_YieldAndResumeFlagTheNode_resume :
    Safe yielded ∧ yielded.mode ≠ .safeStop ∧ offerOf (.resumeNode 0 (byteOf 0)) = some ⟨0, .resumeNode, byteOf 0, []⟩
      ∧ offerable yielded ⟨0, .resumeNode, byteOf 0, []⟩ ∧ groupState yielded 0 = .passive ∧ injectorOf yielded 0 = none
      ∧ injectorOf (after (.resumeNode 0 (byteOf 0)) yielded) 0 = some 0 := by
  refine ⟨?_, by decide, rfl, ⟨⟨rfl, rfl⟩, by decide +kernel, fun x hx => nomatch hx⟩, by decide +kernel, by decide +kernel,
    by decide +kernel⟩
  unfold Safe memoryCanonical referenceApart safeStopQuiet tableAgrees injectorsEligible mayInject attachedInject
    intakeSound startupUnwired
  decide +kernel

theorem witness_SnapshotAndRelease :
    live.mode ≠ .safeStop ∧ offerOf (.snapshot 0 (byteOf 0)) = some ⟨0, .snapshot, byteOf 0, []⟩
      ∧ offerOf (.release 0 (byteOf 0)) = some ⟨0, .release, byteOf 0, []⟩
      ∧ offerable live ⟨0, .snapshot, byteOf 0, []⟩ ∧ offerable held ⟨0, .snapshot, byteOf 0, []⟩
      ∧ live.seqs[(0 : Chan)].ctx ≠ .held ∧ held.seqs[(0 : Chan)].ctx = .held ∧ intakeSound held
      ∧ injectorOf held 0 = none ∧ injectorOf (after (.release 0 (byteOf 0)) held) 0 = some 0 :=
  ⟨by decide, rfl, rfl, offerable_live _, ⟨⟨rfl, rfl⟩, by decide +kernel, fun x hx => nomatch hx⟩, by decide +kernel,
    by decide +kernel, ⟨.nil, fun x hx => nomatch hx⟩, by decide +kernel, by decide +kernel⟩

/-- A SPOT's run under way on channel 0, abandoned so often before. -/
def spotRuns (k : Nat) : State :=
  { withSeq live { window14 with run := .triple, half := 1, owner := some 0 } .order with
    slots := upd live.slots 0 .taken, intake := [⟨0, .spot 0 0, .running, 0, k⟩], mem := [(0x501, 1)] }

/-- R132: the plan published while the SPOT runs starts the settle timer, and the group reads MEASURING while it runs. -/
theorem test_plan_published_under_a_spot :
    let t := after .writeTransactionEnd
      { spotRuns 0 with
        plans := upd live.plans 0 { live.plans[(0 : PlanId)] with ready := false }
        groups := upd live.groups 0
          (some { Group.formed 1 with injector := some 0, series := .order, waitPlan := true })
        mem := [(0x11C, 0xF4), (0x11D, 1), (0x501, 1)]
        endPending := true, watch := { Watch.empty with plans := upd Watch.empty.plans 0 (some 1) } }
    (t.groups[(0 : GroupId)]).map (·.settle) = some (some 500) ∧ t.seqs[(0 : Chan)].run = .triple
      ∧ groupState t 0 = .measuring := by decide +kernel

/-- A SELFCHECK's run under way on channel 0. -/
def checkRuns : State :=
  withOrder { live with
    seqs := upd live.seqs 0 { checkRun with half := 1 }
    groups := upd live.groups 0 (some { Group.formed 1 with series := .order })
    safety := upd live.safety 0 { live.safety[(0 : Chan)] with reference := true } } (.selfcheck 0) .running

/-- A series under way in RUN that waits for its stop. -/
def stoppingAlone : State :=
  { withSeq live { window14 with stopRequest := true } .stopping with mode := .run, request := .run }

/-- A RESTORE in slot 1 whose frame of channel 0 shows a kind can be taken in, the context being no HELD one. -/
def restorable (s : State) (kind : CtxKind) : Prop :=
  Safe s ∧ s.mode ≠ .safeStop ∧ offerable s ⟨1, .restore, byteOf 0, []⟩
    ∧ s.mem.read (frameAddr 0) = byteOf kind.code ∧ s.mem.read (frameAddr 0 + 1) = byteOf (0 : Chan).val
    ∧ s.seqs[(0 : Chan)].ctx ≠ .held

/-- A NONE and a HELD frame, on a channel at rest. -/
theorem witness_RestoreSetsTheContext :
    offerOf (.restore 1 (byteOf 0)) = some ⟨1, .restore, byteOf 0, []⟩ ∧ restorable live .none
      ∧ restorable { live with mem := [(0x900, 2)] } .held ∧ live.mode = .idle ∧ live.intake = []
      ∧ live.seqs[(0 : Chan)].run = .none := by
  unfold restorable Safe memoryCanonical referenceApart safeStopQuiet tableAgrees injectorsEligible mayInject
    attachedInject intakeSound startupUnwired offerable served
  refine ⟨rfl, ?_, ?_, by decide +kernel⟩ <;> decide +kernel

/-- In RUN, on the injector of a series, asked to stop or not. -/
theorem witness_RestoreSetsTheContext_series :
    ∀ (s : State) (kind : CtxKind),
      ((s, kind) = (series, .none) ∨ (s, kind) = ({ stoppingAlone with mem := [(0x900, 1)] }, .idle)) →
      restorable s kind ∧ kind ≠ .held ∧ s.seqs[(0 : Chan)].coupling = .attached ∧ injectorOf s 0 = some 0
        ∧ ownInjector s 0 0 ∧ s.mode = .run ∧ s.intake = [] ∧ s.seqs[(0 : Chan)].run = .series
        ∧ (seriesOf s 0 = .series ∨ seriesOf s 0 = .stopping)
        ∧ (s.groups[(0 : GroupId)]).map (·.measurable) = some true ∧ s.nodePlan[(0 : NodeId)] = some 0
        ∧ s.plans[(0 : PlanId)].ready = true := by
  unfold restorable Safe memoryCanonical referenceApart safeStopQuiet tableAgrees injectorsEligible mayInject
    attachedInject intakeSound startupUnwired offerable served ownInjector
  rintro s kind (h | h) <;> cases h <;> refine ⟨?_, ?_⟩ <;> decide +kernel

/-- With the SPOT that runs in the intake list, at each abandon count. -/
theorem witness_RestoreSetsTheContext_spot :
    ∀ k, k < 3 → restorable (spotRuns k) .none ∧ (spotRuns k).seqs[(0 : Chan)].coupling = .attached
      ∧ injectorOf (spotRuns k) 0 = some 0 ∧ ownInjector (spotRuns k) 0 0 ∧ (spotRuns k).mode = .idle
      ∧ (spotRuns k).parkedPending = false ∧ (spotRuns k).intake = [⟨0, .spot 0 0, .running, 0, k⟩]
      ∧ (spotRuns k).seqs[(0 : Chan)].run = .triple
      ∧ ((spotRuns k).groups[(0 : GroupId)]).map (fun g => (g.series, g.settle)) = some (.order, none)
      ∧ (spotRuns k).plans[(0 : PlanId)].ready = true := by
  unfold restorable Safe memoryCanonical referenceApart safeStopQuiet tableAgrees injectorsEligible mayInject
    attachedInject intakeSound startupUnwired offerable served ownInjector
  intro k hk
  match k, hk with
  | 0, _ | 1, _ | 2, _ => refine ⟨?_, ?_⟩ <;> decide +kernel

/-- With the check that runs in the intake list. -/
theorem witness_RestoreSetsTheContext_check :
    restorable { checkRuns with mem := [(0x900, 2)] } .held ∧ checkRuns.mode = .idle ∧ checkRuns.parkedPending = false
      ∧ checkRuns.intake = [⟨0, .selfcheck 0, .running, 0, 0⟩] ∧ checkRuns.seqs[(0 : Chan)].run = .selfcheck
      ∧ checkRuns.seqs[(0 : Chan)].coupling = .detached := by
  unfold restorable Safe memoryCanonical referenceApart safeStopQuiet tableAgrees injectorsEligible mayInject
    attachedInject intakeSound startupUnwired offerable served
  refine ⟨?_, ?_⟩ <;> decide +kernel

theorem witness_AckRemovesConditions :
    let s := withNode3 { NodeStatus.initial with accrued := 2 }
    s.mode ≠ .safeStop ∧ offerOf (.ack 0 (byteOf 3) 0 0x7F) = some ⟨0, .ack, byteOf 3, [0] ++ le16 0 ++ [0x7F]⟩
      ∧ offerable s ⟨0, .ack, byteOf 3, [0] ++ le16 0 ++ [0x7F]⟩ ∧ recordCount s 3 = 0
      ∧ s.nodes[(3 : NodeId)].deferred = false
      ∧ s.nodes[(3 : NodeId)].accrued &&& ~~~((0x7F : Byte) &&& 0x7F) ≠ s.nodes[(3 : NodeId)].accrued
      ∧ s.nodes[(3 : NodeId)].accrued &&& ~~~((0 : Byte) &&& 0x7F) = s.nodes[(3 : NodeId)].accrued
      ∧ s.hold = none ∧ { s with hold := some 1 }.hold ≠ none := by
  refine ⟨by decide, rfl, ⟨⟨rfl, rfl⟩, by decide +kernel, fun x hx => nomatch hx⟩, ?_⟩
  decide +kernel

theorem witness_ClearDisconnectEndsDisconnect :
    live.mode ≠ .safeStop ∧ offerOf (.clearDisconnect 0 (byteOf 0)) = some ⟨0, .clearDisconnect, byteOf 0, []⟩
      ∧ offerable live ⟨0, .clearDisconnect, byteOf 0, []⟩ ∧ live.safety[(0 : Chan)].disconnected = false
      ∧ offerable (disconnected 0) ⟨0, .clearDisconnect, byteOf 0, []⟩
      ∧ (disconnected 0).safety[(0 : Chan)].disconnected = true
      ∧ (∀ i, i < 3 → ¬ ((disconnected 0).safety[(0 : Chan)].discMask.getLsbD i = true ∧ (disconnected 0).lines.getLsbD i = true))
      ∧ intakeSound (disconnected 0) ∧ injectorOf (disconnected 0) 0 = none
      ∧ injectorOf (after (.clearDisconnect 0 (byteOf 0)) (disconnected 0)) 0 = some 0 :=
  ⟨by decide, rfl, offerable_live _, by decide +kernel, ⟨⟨rfl, rfl⟩, by decide +kernel, fun x hx => nomatch hx⟩,
    by decide +kernel, by decide +kernel, ⟨.nil, fun x hx => nomatch hx⟩, by decide +kernel, by decide +kernel⟩

/-- Channel `c` has a detach verify running. -/
def verifying (s : State) (c : Chan) : State := { s with safety := upd s.safety c { s.safety[c] with verify := some 5 } }

/-- Group 0 is SETTLING. -/
def settling : State :=
  { live with groups := upd live.groups 0 (some { Group.formed 1 with injector := some 0, settle := some 500 }) }

/-- At rest with no verify, with one of the channel itself, with one of another channel of the group, and SETTLING. -/
theorem witness_SpotIsTakenIn :
    offerOf (.spot 0 (byteOf 0) (byteOf 0)) = some spotOffer
      ∧ (∀ s, (s = live ∨ s = verifying live 0 ∨ s = verifying (twoChannels live) 1 ∨ s = settling) →
          offerable s spotOffer ∧ restful s ∧ s.parkedPending = false ∧ leaderOf s 0 = 0
            ∧ (s.groups[(0 : GroupId)]).map (fun g => (g.series, g.injector)) = some (.none, some 0)
            ∧ (∀ m : GroupId, injectorOf s m = some 0 → m = 0) ∧ s.seqs[(0 : Chan)].run = .none
            ∧ s.plans[(0 : PlanId)].ready = true ∧ groupState s 0 ≠ .passive ∧ groupState s 0 ≠ .held
            ∧ groupState s 0 ≠ .noChannel)
      ∧ (live.groups[(0 : GroupId)]).map (·.settle) = some none
      ∧ (settling.groups[(0 : GroupId)]).map (·.settle) = some (some 500)
      ∧ live.safety[(0 : Chan)].verify = none ∧ (verifying live 0).safety[(0 : Chan)].verify ≠ none
      ∧ wiredInto (verifying (twoChannels live) 1) 1 1 = true
      ∧ (verifying (twoChannels live) 1).safety[(1 : Chan)].verify ≠ none := by
  refine ⟨rfl, ?_, by decide +kernel⟩
  unfold offerable served restful
  rintro s (rfl | rfl | rfl | rfl) <;> decide +kernel

/-- A series in RUN that waits for its attach, with nothing to hold it back. -/
def attachFree : State :=
  { withSeq live { window14 with phase := .waitAttach, coupling := .detached } .series with mode := .run, request := .run }

/-- In RUN: in a half-period, and in WAIT_ATTACH with no verify, one of the channel and one of another channel. -/
theorem witness_SpotIsTakenIn_run :
    offerOf (.spot 0 (byteOf 0) (byteOf 0)) = some spotOffer
      ∧ (∀ s, (s = series ∨ s = attachFree ∨ s = verifying attachFree 0 ∨ s = verifying (twoChannels attachFree) 1) →
          offerable s spotOffer ∧ s.mode = .run ∧ s.parkedPending = false ∧ s.intake = [] ∧ leaderOf s 0 = 0
            ∧ s.groups[(0 : GroupId)] = some { group0 with series := .series } ∧ ownInjector s 0 0
            ∧ s.seqs[(0 : Chan)].run = .series ∧ s.plans[(0 : PlanId)].ready = true ∧ groupState s 0 ≠ .passive
            ∧ groupState s 0 ≠ .held ∧ groupState s 0 ≠ .noChannel)
      ∧ series.seqs[(0 : Chan)].phase ≠ .waitAttach ∧ attachFree.seqs[(0 : Chan)].phase = .waitAttach
      ∧ attachFree.seqs[(0 : Chan)].coupling = .detached ∧ group0.settle = none
      ∧ (∀ d : Chan, attachFree.safety[d].verify = none) ∧ (verifying attachFree 0).safety[(0 : Chan)].verify ≠ none
      ∧ wiredInto (verifying (twoChannels attachFree) 1) 1 group0.members = true
      ∧ (verifying (twoChannels attachFree) 1).safety[(1 : Chan)].verify ≠ none := by
  refine ⟨rfl, ?_, by decide +kernel⟩
  unfold offerable served ownInjector
  rintro s (rfl | rfl | rfl | rfl) <;> decide +kernel

theorem witness_SelfcheckIsTakenIn :
    offerOf (.selfcheck 0 (byteOf 0)) = some ⟨0, .selfcheck, byteOf 0, []⟩ ∧ offerable live ⟨0, .selfcheck, byteOf 0, []⟩
      ∧ Safe live ∧ Safe (verifying live 0)
      ∧ ∀ s, (s = live ∨ s = verifying live 0) → restful s ∧ s.parkedPending = false
          ∧ s.wiring[(0 : Chan)].wiredNode = some 0 ∧ leaderOf s 0 = 0
          ∧ (s.groups[(0 : GroupId)]).map (fun g => (g.series, g.settle)) = some (.none, none)
          ∧ s.seqs[(0 : Chan)].run = .none ∧ s.safety[(0 : Chan)].health ≠ .offline
          ∧ s.safety[(0 : Chan)].disconnected = false := by
  refine ⟨rfl, offerable_live _, safe_live, ?_, ?_⟩
  · unfold Safe memoryCanonical referenceApart safeStopQuiet tableAgrees injectorsEligible mayInject attachedInject
      intakeSound startupUnwired
    decide +kernel
  · unfold restful
    rintro s (rfl | rfl) <;> decide +kernel

/-- In RUN, of the injector and of another channel of the group: in a half-period, and in WAIT_ATTACH with the checked
channel's verify over and running. -/
theorem witness_SelfcheckIsTakenIn_run :
    (∀ c : Chan, (c = 0 ∨ c = 1) → offerOf (.selfcheck 0 (byteOf c.val)) = some ⟨0, .selfcheck, byteOf c.val, []⟩
      ∧ ∀ s, (s = twoChannels series ∨ s = twoChannels attachFree ∨ s = verifying (twoChannels attachFree) c) →
          offerable s ⟨0, .selfcheck, byteOf c.val, []⟩ ∧ Safe s ∧ s.mode = .run ∧ s.parkedPending = false ∧ s.intake = []
            ∧ s.wiring[c].wiredNode = some 0 ∧ leaderOf s 0 = 0
            ∧ s.groups[(0 : GroupId)] = some { group0 with series := .series } ∧ s.seqs[(0 : Chan)].run = .series
            ∧ s.safety[c].health ≠ .offline ∧ s.safety[c].disconnected = false ∧ (c = 0 ∨ s.seqs[c].run = .none))
      ∧ (twoChannels series).seqs[(0 : Chan)].phase ≠ .waitAttach
      ∧ (twoChannels attachFree).seqs[(0 : Chan)].phase = .waitAttach
      ∧ (twoChannels attachFree).seqs[(0 : Chan)].coupling = .detached ∧ group0.settle = none
      ∧ (twoChannels attachFree).safety[(0 : Chan)].verify = none ∧ (twoChannels attachFree).safety[(1 : Chan)].verify = none
      ∧ (verifying (twoChannels attachFree) 0).safety[(0 : Chan)].verify ≠ none
      ∧ (verifying (twoChannels attachFree) 1).safety[(1 : Chan)].verify ≠ none := by
  refine ⟨?_, by decide +kernel⟩
  unfold offerable served Safe memoryCanonical referenceApart safeStopQuiet tableAgrees injectorsEligible mayInject
    attachedInject intakeSound startupUnwired
  rintro c (rfl | rfl) <;> refine ⟨rfl, ?_⟩ <;> rintro s (rfl | rfl | rfl) <;> refine ⟨?_, ?_, ?_⟩ <;> decide +kernel

/-! ### Modes and holds -/

theorem witness_ControlWritesWithoutModeChange :
    live.endPending = false ∧ Mode.safeStop.code = (3 : BitVec 2).toNat ∧ Mode.idle.code = (0 : BitVec 2).toNat
      ∧ Mode.parked.code = (2 : BitVec 2).toNat ∧ stopped.mode = .safeStop ∧ Mode.idle ≠ .safeStop
      ∧ live.mode ≠ .safeStop ∧ State.reset.starting = true ∧ (Mode.idle = live.mode ∧ live.parkedPending = false)
      ∧ { live with parkedPending := true }.parkedPending = true ∧ served live := by
  unfold served
  decide +kernel

theorem witness_IdleRequestEndsSeries :
    served series ∧ (series.mode = .run ∨ series.mode = .parked) ∧ series.intake = []
      ∧ injectorOf series 0 = some 0 ∧ seriesOf series 0 = .series ∧ series.seqs[(0 : Chan)].run = .series
      ∧ series.seqs[(0 : Chan)].coupling = .attached := by
  unfold served
  decide +kernel

theorem ready_live (s : State) (g : Group) (h : s.groups[(0 : GroupId)] = some g) (m : g.measurable = true)
    (n : g.series = .none) (i : g.injector = some 0) (p : s.nodePlan[(0 : NodeId)] = some 0)
    (r : s.plans[(0 : PlanId)].ready = true) : readyToMeasure s 0 g 0 0 := ⟨h, m, n, i, p, r⟩

theorem safe_verifying : Safe (verifying live 0) := by
  unfold Safe memoryCanonical referenceApart safeStopQuiet tableAgrees injectorsEligible mayInject attachedInject intakeSound
    startupUnwired
  decide +kernel

theorem witness_RunRequestStartsSeries :
    served live ∧ Safe live ∧ restful live ∧ readyToMeasure live 0 group0 0 0 ∧ (∀ m : GroupId, injectorOf live m = some 0 → m = 0)
      ∧ live.seqs[(0 : Chan)].run = .none
      ∧ (∀ d : Chan, d = 0 ∨ wiredInto live d group0.members = true → live.safety[d].verify = none)
      ∧ Safe (verifying live 0) ∧ restful (verifying live 0) ∧ readyToMeasure (verifying live 0) 0 group0 0 0
      ∧ (verifying live 0).safety[(0 : Chan)].verify ≠ none := by
  unfold served restful readyToMeasure
  exact ⟨⟨rfl, rfl⟩, safe_live, by decide +kernel, by decide +kernel, by decide +kernel, by decide +kernel,
    by decide +kernel, safe_verifying, by decide +kernel⟩

/-- A part in which no group is ready to measure. -/
theorem reset_not_ready : ∀ (l : GroupId) (g : Group) (c : Chan) (p : PlanId), ¬ readyToMeasure State.reset l g c p :=
  fun l g _ _ h => Bool.noConfusion ((reset_not_measurable l g h.1).symm.trans h.2.1)

/-- Orders of two groups hold their measurements. -/
def twoOrders : State :=
  { live with
    groups := upd (upd live.groups 0 (some { group0 with series := .order })) 7 (some { Group.formed 0x80 with series := .order }) }

theorem witness_ParkedRequestTakesTurns :
    served live ∧ restful live ∧ fewOrders live ∧ live.parkedPending = false
      ∧ (restful { State.reset with starting := false } ∧ fewOrders State.reset ∧ ∀ l : GroupId, seriesOf State.reset l = .none)
      ∧ readyToMeasure live 0 group0 0 0 ∧ (∀ m : GroupId, seriesOf live m = .none) ∧ live.seqs[(0 : Chan)].run = .none
      ∧ ¬ fewOrders twoOrders ∧ (∀ l : GroupId, seriesOf twoOrders l ≠ .series)
      ∧ (∀ c : Chan, twoOrders.seqs[c].run = .none → twoOrders.seqs[c].coupling = .detached) ∧ twoOrders.mode = .idle
      ∧ { twoOrders with parkedPending := true }.parkedPending = true ∧ (∀ o ∈ twoOrders.intake, o.phase ≠ .waiting) := by
  unfold served restful readyToMeasure fewOrders
  decide +kernel

theorem witness_HoldEndsWithDeferredImages :
    let s := { live with hold := some 1 }
    served s ∧ s.mode ≠ .safeStop ∧ s.parkedPending = false ∧ s.hold ≠ none ∧ live.hold = none := by
  unfold served
  decide +kernel

theorem witness_SoftResetResets :
    stopped.mode = .safeStop ∧ State.reset.starting = true ∧ served series ∧ series.mode ≠ .safeStop
      ∧ intakeSound series ∧ (withOrder series (.spot 0 0) .waiting).slots[(0 : SlotId)] = .taken
      ∧ series.slots[(7 : SlotId)] ≠ .taken ∧ intakeSound (withOrder series (.spot 0 0) .waiting) := by
  unfold served intakeSound
  decide +kernel

/-! ### Half-periods and runs -/

/-- The three tests hold at the end of window 14. -/
theorem readyPoint_of (q : Seq)
    (h : q.run ≠ .selfcheck ∧ q.ready = none ∧ q.copy.plan.halfMin ≤ q.elapsed ∧ q.copy.plan.settleCount = 3
      ∧ q.copy.plan.tolerance = 3 ∧ windowOf q = ⟨-9111, 800, false⟩
      ∧ q.windows = [⟨-9111, 800, false⟩, ⟨-9110, 800, false⟩, ⟨-9108, 800, false⟩]) : readyPoint q := by
  obtain ⟨hr, hn, hm, hs, ht, hw, hl⟩ := h
  refine ⟨hr, hn, hm, ?_⟩
  rw [hs, ht, hw, hl]
  intro i hi
  match i, hi with
  | 0, _ | 1, _ | 2, _ => exact ⟨_, _, rfl, rfl, by decide⟩

theorem ready_worked : readyPoint window14 := readyPoint_of _ (by decide +kernel)

/-- The last sample before a window's end, and the window ends before half_min, at the ready point, and there under
TRIGGERED. -/
theorem witness_SamplesAndWindows :
    live.starting = false ∧ nothingDue live 0
      ∧ nothingDue { series with seqs := upd series.seqs 0 { window14 with accCount := 31, elapsed := 497 } } 0
      ∧ State.reset.starting = true ∧ live.seqs[(0 : Chan)].windowFull = false
      ∧ { window14 with elapsed := 399 }.windowFull = true ∧ ¬ readyPoint { window14 with elapsed := 399 }
      ∧ window14.windowFull = true ∧ readyPoint window14
      ∧ readyPoint { window14 with copy := { workedCopy with plan := { worked with sync := .triggered } } }
      ∧ nothingDue { series with seqs := upd series.seqs 0 { window14 with accCount := 0, elapsed := 2999 } } 0
      ∧ nothingDue { checkEnds with seqs := upd checkEnds.seqs 0 { checkRun with elapsed := 199 } } 0 := by
  refine ⟨rfl, by unfold nothingDue; decide +kernel, by unfold nothingDue; decide +kernel, rfl, by decide +kernel,
    by decide +kernel, fun h => absurd h.2.2.1 (by decide), by decide +kernel, ready_worked,
    readyPoint_of _ (by decide +kernel), by unfold nothingDue; decide +kernel, by unfold nothingDue; decide +kernel⟩

/-- The sequencer of channel 0 as the edge of the worked half-period finds it. -/
def ready14 : Seq := { withWindow window14 with ready := some 498 }

/-- The edge of the worked half-period, in any state with that sequencer on channel 0. -/
theorem edge_ready (s : State) (h : s.seqs[(0 : Chan)] = window14) :
    EndsHalf s 0 (.windowEnd 0) ready14 none 498 := by
  have e := EndsHalf.ready (s := s) (c := 0) (by rw [h]; decide +kernel) (by rw [h]; exact ready_worked) (by rw [h]; rfl)
  rw [h] at e
  exact e

/-- A series on channel 0 whose sequencer stands otherwise. -/
def seriesWith (q : Seq) : State := { series with seqs := upd series.seqs 0 q }

/-- Each way a half-period ends, at its boundary. -/
theorem witness_EndsHalf :
    EndsHalf series 0 (.windowEnd 0) ready14 none 498
      ∧ EndsHalf (seriesWith { window14 with elapsed := 3000, accCount := 0 }) 0 (.halfMax 0)
          { window14 with elapsed := 3000, accCount := 0 } (some .unsettled) 3000
      ∧ EndsHalf (seriesWith { window14 with elapsed := 3000, accCount := 0, ready := some 498 }) 0 (.halfMax 0)
          { window14 with elapsed := 3000, accCount := 0, ready := some 498 } (some .syncMissed) 498
      ∧ EndsHalf waiting 0 .syncEdge waiting.seqs[(0 : Chan)] none 498
      ∧ EndsHalf waiting 0 (.syncTimeout 0) waiting.seqs[(0 : Chan)] (some .syncMissed) 498
      ∧ EndsHalf checkEnds 0 (.selfcheckHalfEnd 0) checkRun none 200 :=
  ⟨edge_ready series rfl,
    .unready (by decide +kernel) (by decide +kernel) (by decide +kernel) (by decide +kernel)
      (fun h => absurd h (by decide +kernel)),
    .missedAtMax 498 (by decide +kernel) (by decide +kernel) (by decide +kernel) (by decide +kernel),
    .sync 498 (by decide +kernel) (by decide +kernel) (by decide +kernel),
    .timeout 498 (by decide +kernel) (by decide +kernel) (by decide +kernel),
    .selfcheck (by decide +kernel) (by decide +kernel) (by decide +kernel)⟩

theorem goesOn_lowest (s : State) (c : Chan) (l : GroupId) (q : Seq) (h : List Triple) (e : groupOfInjector s c = some l)
    (f : (s.groups[l]).map (·.policy) = some .lowest) (hq : q.run = .series) (hs : q.stopRequest = false) :
    goesOn s c q h := by
  refine .inl ⟨hq, hs, ?_⟩
  intro l' g hl hg hp
  rw [e] at hl
  cases hl
  rw [hg] at f
  exact absurd (Option.some.inj f) (by show ¬ g.policy = _; rw [hp]; decide)

/-- An edge of a series with the history filling up, and one of a check before its third half-period. -/
theorem witness_EdgeWithinRun :
    (edgeAt series 0 (.windowEnd 0) ready14 (historyAfter [] (ready14.plateau none 498))
        ∧ goesOn series 0 ready14 (handedAt series 0 ready14 (historyAfter [] (ready14.plateau none 498)))
        ∧ groupOfInjector series 0 = some 0)
      ∧ (edgeAt { checkEnds with seqs := upd checkEnds.seqs 0 { checkRun with half := 2 } } 0 (.selfcheckHalfEnd 0)
            { checkRun with half := 2 } (historyAfter checkRun.history (Seq.plateau { checkRun with half := 2 } none 200))
          ∧ ∀ h, goesOn checkEnds 0 { checkRun with half := 2 } h)
      ∧ nothingDue live 0 ∧ (∀ d : Chan, live.seqs[d].phase ≠ .waitSync) ∧ live.seqs[(0 : Chan)].syncTimer = none := by
  refine ⟨⟨edgeAt_of_ends (edge_ready series rfl) (by decide),
      goesOn_lowest _ _ 0 _ _ (by decide +kernel) (by decide +kernel) rfl rfl, by decide +kernel⟩,
    ⟨?_, fun _ => .inr ⟨.inr rfl, by decide⟩⟩, by unfold nothingDue; decide +kernel, by decide +kernel, by decide +kernel⟩
  exact edgeAt_of_ends (.selfcheck (by decide +kernel) (by decide +kernel) (by decide +kernel)) (by decide)

/-- Two groups, of channels 0 and 1, whose series wait for SYNC. -/
def twoWaiting : State :=
  { waiting with
    seqs := upd waiting.seqs 1 waiting.seqs[(0 : Chan)]
    groups := upd waiting.groups 7 (some { Group.formed 0x80 with injector := some 1, measurable := true, series := .series }) }

theorem witness_SyncEdgeEndsEveryWait :
    let q := twoWaiting.seqs[(0 : Chan)]
    (0 : Chan) < 1 ∧ q.phase = .waitSync ∧ twoWaiting.seqs[(1 : Chan)] = q
      ∧ (∀ x : Chan, x ≠ 0 → x ≠ 1 → twoWaiting.seqs[x].phase ≠ .waitSync) ∧ q.ready = some 498 ∧ q.run = .series
      ∧ q.stopRequest = false ∧ q.history.length ≤ 3 ∧ isPlateau q none 498 (q.plateau none 498)
      ∧ groupOfInjector twoWaiting 0 = some 0 ∧ groupOfInjector twoWaiting 1 = some 7
      ∧ (twoWaiting.groups[(0 : GroupId)]).map (·.policy) = some .lowest
      ∧ (twoWaiting.groups[(7 : GroupId)]).map (·.policy) = some .lowest := by
  refine ⟨by decide, by decide +kernel, by decide +kernel, by decide +kernel, by decide +kernel, by decide +kernel,
    by decide +kernel, by decide +kernel, isPlateau_plateau _ _ _ (.inl rfl), by decide +kernel, by decide +kernel,
    by decide +kernel, by decide +kernel⟩

/-- Channel 0 of group 0 and channel 1 of group 7, with these sequencers, groups, mode and orders. -/
def shared (mode : Mode) (q0 q1 : Seq) (x0 : SeriesState) (g : Group) (orders : List Order) : State :=
  { live with
    mode := mode, wiring := upd live.wiring 1 ⟨true, 7, 10000, 200000⟩, seqs := upd (upd live.seqs 0 q0) 1 q1
    groups := upd (upd live.groups 0 (some { group0 with series := x0 })) 7 (some g), intake := orders
    slots := Vector.ofFn fun n => if orders.any fun o => o.slot = n then .taken else .free }

/-- A series that waits for SYNC. -/
def waitSeq : Seq := waiting.seqs[(0 : Chan)]

/-- A TRIPLE that waits for SYNC, in a half-period. -/
def waitTriple (half : Nat) (owner : Option SlotId) : Seq :=
  { waitSeq with
    run := .triple, half := half, owner := owner
    history := [⟨.pos, -9111, 800, 498, 0⟩, ⟨.neg, -13111, 800, 506, 0⟩].take (half - 1) }

/-- The group of channel 1. -/
def group7 (x : SeriesState) : Group := { Group.formed 0x80 with injector := some 1, measurable := true, series := x }

/-- Its group, whose ROTATE series reaches its rotate count with the next triple. -/
def rotating7 : Group := { group7 .series with policy := .rotate, rotateCount := 4, rotation := 3 }

/-- Both series go on. -/
def bothSeries : State := shared .run waitSeq waitSeq .series (group7 .series) []
/-- A series waits for SYNC beside one in SETTLE_TEST. -/
def oneWaits : State := shared .run window14 waitSeq .series (group7 .series) []
/-- In IDLE one SPOT goes on and another ends. -/
def spotEndsShared : State :=
  shared .idle (waitTriple 1 (some 0)) (waitTriple 3 (some 1)) .order (group7 .order)
    [⟨0, .spot 0 0, .running, 0, 0⟩, ⟨1, .spot 7 0, .running, 7, 0⟩]
/-- A PARKED turn ends. -/
def turnEndsShared : State := shared .parked live.seqs[(0 : Chan)] (waitTriple 3 none) .none (group7 .turn) []
/-- A series goes on and a SPOT ends in RUN. -/
def spotEndsInRun : State :=
  shared .run waitSeq (waitTriple 3 (some 1)) .series (group7 .order) [⟨1, .spot 7 0, .running, 7, 0⟩]
/-- A series goes on and another stops for its SPOT. -/
def stopsForSpot : State :=
  shared .run waitSeq { waitSeq with stopRequest := true } .series (group7 .stopping) [⟨1, .spot 7 0, .waiting, 7, 0⟩]
/-- A series goes on and another stops for nothing. -/
def stopsAlone : State := shared .run waitSeq { waitSeq with stopRequest := true } .series (group7 .stopping) []
/-- A series goes on and a ROTATE series reaches its count, alone in its group. -/
def rotatesAlone : State := shared .run waitSeq { waitTriple 3 none with run := .series, half := 0 } .series rotating7 []
/-- The same with a second channel. -/
def rotatesOn : State := { rotatesAlone with wiring := upd rotatesAlone.wiring 2 ⟨true, 7, 10000, 200000⟩ }

/-- Each is a state in which a SYNC edge is shared. -/
theorem witness_SyncEdgeEndsEveryWait_shared :
    ∀ s, (s = bothSeries ∨ s = oneWaits ∨ s = spotEndsShared ∨ s = turnEndsShared ∨ s = spotEndsInRun ∨ s = stopsForSpot
        ∨ s = stopsAlone ∨ s = rotatesAlone ∨ s = rotatesOn) →
      Safe s ∧ s.parkedPending = false ∧ (∃ m p h, waitsForEdge s m p h)
        ∧ (∀ o ∈ s.intake, o.phase = .waiting → seriesOf s o.group ≠ .series ∧ ∀ d : Chan, o.job ≠ .selfcheck d)
        ∧ s.seqs[(1 : Chan)].phase = .waitSync ∧ groupOfInjector s 1 = some 7 := by
  intro s h
  refine ⟨?_, ?_, ⟨_, _, _, waitsForEdge_plateaus ?_⟩, ?_, ?_⟩
  · unfold Safe memoryCanonical referenceApart safeStopQuiet tableAgrees injectorsEligible mayInject attachedInject
      intakeSound startupUnwired
    rcases h with rfl | rfl | rfl | rfl | rfl | rfl | rfl | rfl | rfl <;> decide +kernel
  all_goals rcases h with rfl | rfl | rfl | rfl | rfl | rfl | rfl | rfl | rfl <;> decide +kernel

/-- What a channel hands at the shared edge. -/
def handedTo (s : State) (c : Chan) : List Triple :=
  handedAt s c s.seqs[c] (historyAfter s.seqs[c].history (s.seqs[c].plateau none (s.seqs[c].ready.getD 0)))

/-- A run that goes on, one that waits for nothing, and a TRIPLE's third half-period in IDLE, PARKED and RUN. -/
theorem witness_SyncEdgeEndsEveryWait_ends :
    goesOn bothSeries 1 waitSeq (handedTo bothSeries 1) ∧ bothSeries.seqs[(1 : Chan)] = waitSeq
      ∧ (oneWaits.seqs[(0 : Chan)].phase ≠ .waitSync ∧ oneWaits.seqs[(0 : Chan)].run ≠ .none
          ∧ groupOfInjector oneWaits 0 = some 0 ∧ seriesOf oneWaits 0 ≠ .none)
      ∧ (spotEndsShared.seqs[(1 : Chan)] = waitTriple 3 (some 1) ∧ spotEndsShared.mode = .idle
          ∧ (∀ o ∈ spotEndsShared.intake, o.phase = .waiting → o.group ≠ 7))
      ∧ (turnEndsShared.seqs[(1 : Chan)] = waitTriple 3 none ∧ turnEndsShared.mode = .parked ∧ turnEndsShared.park ≠ .due)
      ∧ (spotEndsInRun.seqs[(1 : Chan)] = waitTriple 3 (some 1) ∧ spotEndsInRun.mode = .run
          ∧ spotEndsInRun.intake = [⟨1, .spot 7 0, .running, 7, 0⟩] ∧ othersFinish spotEndsInRun 7 1
          ∧ spotEndsInRun.groups[(7 : GroupId)] = some (group7 .order) ∧ (group7 .order).measurable = true
          ∧ spotEndsInRun.nodePlan[(7 : NodeId)] = some 0 ∧ spotEndsInRun.plans[(0 : PlanId)].ready = true
          ∧ (waitTriple 3 (some 1)).coupling = .attached) := by
  refine ⟨goesOn_lowest _ _ 7 _ _ (by decide +kernel) (by decide +kernel) rfl rfl, ?_⟩
  unfold othersFinish
  decide +kernel

/-- A series that stops for a SPOT, one that stops for nothing, and a ROTATE series alone and with a second channel. -/
theorem witness_SyncEdgeEndsEveryWait_stops :
    (∀ s, (s = stopsForSpot ∨ s = stopsAlone) → s.seqs[(1 : Chan)] = { waitSeq with stopRequest := true } ∧ s.mode = .run
        ∧ s.groups[(7 : GroupId)] = some (group7 .stopping) ∧ (group7 .stopping).settle = none
        ∧ (group7 .stopping).measurable = true ∧ ¬ rotates (group7 .stopping) (handedTo s 1) ∧ waitSeq.coupling = .attached
        ∧ s.nodePlan[(7 : NodeId)] = some 0 ∧ s.plans[(0 : PlanId)].ready = true ∧ groupState s 7 ≠ .passive
        ∧ groupState s 7 ≠ .held ∧ groupState s 7 ≠ .noChannel)
      ∧ stopsForSpot.intake = [⟨1, .spot 7 0, .waiting, 7, 0⟩] ∧ othersFinish stopsForSpot 7 1 ∧ stopsAlone.intake = []
      ∧ ∀ (s : State) (d : Chan), ((s, d) = (rotatesAlone, 1) ∨ (s, d) = (rotatesOn, 2)) →
          s.seqs[(1 : Chan)].run = .series ∧ s.seqs[(1 : Chan)].stopRequest = false ∧ s.mode = .run
            ∧ s.groups[(7 : GroupId)] = some rotating7 ∧ rotating7.series = .series ∧ rotates rotating7 (handedTo s 1)
            ∧ nextInLine s 7 1 d ∧ readyPlan s 7 = some worked ∧ worked.settle ≠ 0
            ∧ s.seqs[(1 : Chan)].coupling = .attached := by
  unfold othersFinish rotates nextInLine mayInject
  refine ⟨?_, by decide +kernel, by decide +kernel, by decide +kernel, ?_⟩
  · rintro s (rfl | rfl) <;> decide +kernel
  · rintro s d (h | h) <;> cases h <;> and_intros <;> decide +kernel

/-- The third plateau of a series: the history already holds two. -/
def window14third : Seq :=
  { window14 with history := [⟨.pos, -9111, 800, 498, 0⟩, ⟨.neg, -13111, 800, 506, 0⟩] }

/-- As the edge finds it. -/
def ready14third : Seq := { withWindow window14third with ready := some 498 }

theorem edge_third (s : State) (h : s.seqs[(0 : Chan)] = window14third) :
    edgeAt s 0 (.windowEnd 0) ready14third (historyAfter ready14third.history (ready14third.plateau none 498)) := by
  refine edgeAt_of_ends ?_ (by decide)
  have e := EndsHalf.ready (s := s) (c := 0) (by rw [h]; decide +kernel)
    (by rw [h]; exact readyPoint_of _ (by decide +kernel)) (by rw [h]; rfl)
  rw [h] at e
  exact e

/-- The group of a ROTATE series one triple short of its rotate count. -/
def rotatingGroup : Group :=
  { group0 with series := .series, policy := .rotate, rotateCount := 4, rotation := 3 }

/-- That series, alone in its group. -/
def rotating : State :=
  { seriesWith window14third with groups := upd series.groups 0 (some rotatingGroup) }

theorem witness_RotationMovesTheInjector :
    ∀ (s : State) (d : Chan), ((s, d) = (rotating, 0) ∨ (s, d) = (twoChannels rotating, 1)) →
      edgeAt s 0 (.windowEnd 0) ready14third (historyAfter ready14third.history (ready14third.plateau none 498))
        ∧ ready14third.run = .series ∧ ready14third.stopRequest = false ∧ s.mode = .run ∧ s.intake = []
        ∧ groupOfInjector s 0 = some 0 ∧ s.groups[(0 : GroupId)] = some rotatingGroup ∧ ownInjector s 0 0
        ∧ rotatingGroup.series = .series ∧ rotatingGroup.policy = .rotate
        ∧ handedAt s 0 ready14third (historyAfter ready14third.history (ready14third.plateau none 498)) ≠ []
        ∧ rotatingGroup.rotateCount ≤ rotatingGroup.rotation + 1 ∧ nextInLine s 0 0 d ∧ readyPlan s 0 = some worked
        ∧ worked.settle ≠ 0 ∧ s.seqs[(0 : Chan)].coupling = .attached := by
  unfold ownInjector nextInLine mayInject
  rintro s d (h | h) <;> cases h <;> refine ⟨edge_third _ (by decide +kernel), ?_⟩ <;> and_intros <;> decide +kernel

/-- The rotating series asked to stop at the same edge, with the SPOT that waits. -/
def rotatingStops : State :=
  withOrder { twoChannels rotating with
    seqs := upd rotating.seqs 0 { window14third with stopRequest := true }
    groups := upd rotating.groups 0 (some { rotatingGroup with series := .stopping }) } (.spot 0 0) .waiting

theorem witness_RotationMovesTheInjector_stops :
    let q : Seq := { ready14third with stopRequest := true }
    let h := historyAfter q.history (q.plateau none 498)
    edgeAt rotatingStops 0 (.windowEnd 0) q h ∧ q.run = .series ∧ q.stopRequest = true ∧ rotatingStops.mode = .run
      ∧ rotatingStops.intake = [⟨0, .spot 0 0, .waiting, 0, 0⟩] ∧ groupOfInjector rotatingStops 0 = some 0
      ∧ rotatingStops.groups[(0 : GroupId)] = some { rotatingGroup with series := .stopping } ∧ ownInjector rotatingStops 0 0
      ∧ rotates { rotatingGroup with series := .stopping } (handedAt rotatingStops 0 q h) ∧ nextInLine rotatingStops 0 0 1
      ∧ (1 : Chan) ≠ 0 ∧ readyPlan rotatingStops 0 = some worked ∧ worked.settle ≠ 0
      ∧ rotatingStops.seqs[(0 : Chan)].coupling = .attached := by
  refine ⟨edgeAt_of_ends ?_ (by decide), ?_⟩
  · have e := EndsHalf.ready (s := rotatingStops) (c := 0) (by decide +kernel)
      ⟨by decide +kernel, by decide +kernel, by decide +kernel, ready_worked.2.2.2⟩ (by decide +kernel)
    exact e
  · unfold ownInjector rotates nextInLine mayInject
    and_intros <;> decide +kernel

/-- A series asked to stop, with the SPOT that waits. -/
def stopping : State :=
  withOrder { withSeq live { window14 with stopRequest := true } .stopping with mode := .run } (.spot 0 0) .waiting

theorem witness_StoppedSeriesGivesWayToSpot :
    let q : Seq := { ready14 with stopRequest := true }
    edgeAt stopping 0 (.windowEnd 0) q (historyAfter q.history (q.plateau none 498)) ∧ q.run = .series
      ∧ q.stopRequest = true ∧ stopping.mode = .run ∧ stopping.parkedPending = false
      ∧ stopping.intake = [⟨0, .spot 0 0, .waiting, 0, 0⟩] ∧ groupOfInjector stopping 0 = some 0
      ∧ stopping.groups[(0 : GroupId)] = some { group0 with series := .stopping } ∧ ownInjector stopping 0 0
      ∧ group0.settle = none ∧ (∀ x, ¬ rotates { group0 with series := .stopping } x)
      ∧ stopping.seqs[(0 : Chan)].coupling = .attached
      ∧ stopping.plans[(0 : PlanId)].ready = true ∧ groupState stopping 0 ≠ .passive ∧ groupState stopping 0 ≠ .held
      ∧ groupState stopping 0 ≠ .noChannel := by
  refine ⟨edgeAt_of_ends ?_ (by decide), ?_⟩
  · have e := EndsHalf.ready (s := stopping) (c := 0) (by decide +kernel)
      ⟨by decide +kernel, by decide +kernel, by decide +kernel, ready_worked.2.2.2⟩ (by decide +kernel)
    exact e
  · unfold ownInjector
    and_intros <;> first | decide +kernel | exact fun _ h => nomatch h.1

/-- The same with no order left. -/
theorem witness_StoppedSeriesGivesWayToSpot_alone :
    let q : Seq := { ready14 with stopRequest := true }
    edgeAt stoppingAlone 0 (.windowEnd 0) q (historyAfter q.history (q.plateau none 498)) ∧ q.run = .series
      ∧ q.stopRequest = true ∧ stoppingAlone.mode = .run ∧ stoppingAlone.intake = []
      ∧ groupOfInjector stoppingAlone 0 = some 0
      ∧ stoppingAlone.groups[(0 : GroupId)] = some { group0 with series := .stopping } ∧ ownInjector stoppingAlone 0 0
      ∧ group0.measurable = true ∧ (∀ x, ¬ rotates { group0 with series := .stopping } x)
      ∧ stoppingAlone.seqs[(0 : Chan)].coupling = .attached
      ∧ stoppingAlone.nodePlan[(0 : NodeId)] = some 0 ∧ stoppingAlone.plans[(0 : PlanId)].ready = true := by
  refine ⟨edgeAt_of_ends ?_ (by decide), ?_⟩
  · have e := EndsHalf.ready (s := stoppingAlone) (c := 0) (by decide +kernel)
      ⟨by decide +kernel, by decide +kernel, by decide +kernel, ready_worked.2.2.2⟩ (by decide +kernel)
    exact e
  · unfold ownInjector
    and_intros <;> first | decide +kernel | exact fun _ h => nomatch h.1

/-- The third half-period of a single triple, at its ready point. -/
def lastHalf (owner : Option SlotId) : Seq := { window14third with run := .triple, half := 3, owner := owner }

/-- As the edge finds it. -/
def lastReady (owner : Option SlotId) : Seq := { withWindow (lastHalf owner) with ready := some 498 }

theorem edge_last (s : State) (owner : Option SlotId) (h : s.seqs[(0 : Chan)] = lastHalf owner) :
    edgeAt s 0 (.windowEnd 0) (lastReady owner) (historyAfter (lastReady owner).history ((lastReady owner).plateau none 498)) := by
  refine edgeAt_of_ends ?_ (by show 2 ≤ 3; decide)
  have w : (lastHalf owner).windowFull = true := (by decide +kernel : window14.windowFull = true)
  have r : readyPoint (lastHalf owner) := ⟨(fun e => nomatch e), rfl, ready_worked.2.2.1, ready_worked.2.2.2⟩
  have e := EndsHalf.ready (s := s) (c := 0) (by rw [h]; exact w) (by rw [h]; exact r) (by rw [h]; rfl)
  rw [h] at e
  exact e

/-- A SPOT's run at its third edge. -/
def spotEnds : State := withOrder (withSeq live (lastHalf (some 0)) .order) (.spot 0 0) .running

/-- The same in PARKED with a turn due, and a second group of channel 1 that is ready to measure. -/
def spotEndsParked (rotation : List GroupId) : State :=
  { twoChannels spotEnds with
    mode := .parked, park := .due, rotation := rotation
    wiring := upd spotEnds.wiring 1 ⟨true, 7, 10000, 200000⟩
    groups := upd spotEnds.groups 7 (some { Group.formed 0x80 with injector := some 1, measurable := true }) }

/-- The same in IDLE with PARKED pending, while the orders of other groups run. -/
def spotEndsPending (rest : List Order) : State :=
  { spotEnds with
    parkedPending := true, intake := ⟨0, .spot 0 0, .running, 0, 0⟩ :: rest
    groups := Vector.ofFn fun l =>
      if rest.any fun o => o.group = l then (spotEnds.groups[l]).map fun g => { g with series := .order } else spotEnds.groups[l] }

/-- The state in which such a run is over. -/
def spotOver (s : State) (rest : List Order) : State :=
  { s with
    triples := s.triples ++
      handedAt s 0 (lastReady (some 0)) (historyAfter (lastReady (some 0)).history ((lastReady (some 0)).plateau none 498))
    intake := ⟨0, .spot 0 0, .finishing, 0, 0⟩ :: rest
    mem := s.mem.write (slotAddr 0 + 0x12) 3
    groups := match s.groups[(0 : GroupId)] with
      | some g => upd s.groups 0 (some { g with series := .none })
      | none => s.groups
    seqs := upd s.seqs 0 { runOver (lastReady (some 0)) with coupling := .detached }
    safety := upd s.safety 0 { s.safety[(0 : Chan)] with
      reference := s.safety[(0 : Chan)].reference && decide ((lastReady (some 0)).run ≠ .selfcheck)
      verify := if s.seqs[(0 : Chan)].coupling = .attached then some 5 else s.safety[(0 : Chan)].verify } }

theorem edge_spotEnds (s : State) (h : s.seqs[(0 : Chan)] = lastHalf (some 0)) :
    edgeAt s 0 (.windowEnd 0) (lastReady (some 0))
        (historyAfter (lastReady (some 0)).history ((lastReady (some 0)).plateau none 498))
      ∧ (lastReady (some 0)).run = .triple ∧ (lastReady (some 0)).half = 3 ∧ (lastReady (some 0)).owner = some 0 :=
  ⟨edge_last _ _ h, rfl, rfl, rfl⟩

/-- For a SPOT and for a SELFCHECK in IDLE, and in PARKED with no turn due. -/
theorem witness_OrderRunCompletes :
    (∀ s, (s = spotEnds ∨ s = { spotEnds with mode := .parked }) →
        s.seqs[(0 : Chan)] = lastHalf (some 0) ∧ (s.mode = .idle ∨ (s.mode = .parked ∧ s.park ≠ .due))
          ∧ s.parkedPending = false ∧ s.intake = [⟨0, .spot 0 0, .running, 0, 0⟩] ∧ othersRest s 0)
      ∧ (edgeAt checkEnds 0 (.selfcheckHalfEnd 0) checkRun (historyAfter checkRun.history (checkRun.plateau none 200))
        ∧ checkRun.run = .selfcheck ∧ checkRun.half = 3 ∧ checkRun.owner = some 0 ∧ checkEnds.mode = .idle
        ∧ checkEnds.parkedPending = false ∧ checkEnds.intake = [⟨0, .selfcheck 0, .running, 0, 0⟩]
        ∧ othersRest checkEnds 0) := by
  unfold othersRest
  refine ⟨?_, edgeAt_of_ends witness_EndsHalf.2.2.2.2.2 (by decide), by decide +kernel⟩
  rintro s (rfl | rfl) <;> decide +kernel

/-- In RUN. -/
theorem witness_OrderRunCompletes_run :
    let s := { spotEnds with mode := .run }
    s.seqs[(0 : Chan)] = lastHalf (some 0) ∧ s.intake = [⟨0, .spot 0 0, .running, 0, 0⟩] ∧ s.parkedPending = false
      ∧ groupOfInjector s 0 = some 0 ∧ ownInjector s 0 0 ∧ s.groups[(0 : GroupId)] = some { group0 with series := .order }
      ∧ group0.measurable = true ∧ s.nodePlan[(0 : NodeId)] = some 0 ∧ s.plans[(0 : PlanId)].ready = true
      ∧ s.seqs[(0 : Chan)].coupling = .attached := by
  unfold ownInjector
  decide +kernel

/-- In PARKED with a turn due: the SPOT's own group is first in the list, or another group is. -/
theorem witness_OrderRunCompletes_parked :
    ∀ (rotation ahead behind : List GroupId) (m : GroupId) (d : Chan) (g : Group),
      ((rotation, ahead, m, behind, d, g) = ([1, 0, 7], [1], 0, [7], 0, group0)
        ∨ (rotation, ahead, m, behind, d, g) =
          ([7, 0], [], 7, [0], 1, { Group.formed 0x80 with injector := some 1, measurable := true })) →
      let s := spotEndsParked rotation
      let u := spotOver s []
      s.seqs[(0 : Chan)] = lastHalf (some 0) ∧ s.intake = [⟨0, .spot 0 0, .running, 0, 0⟩] ∧ s.mode = .parked
        ∧ s.parkedPending = false ∧ s.park = .due ∧ othersRest s 0 ∧ (∀ x : GroupId, seriesOf u x = .none)
        ∧ s.rotation = ahead ++ m :: behind
        ∧ (∀ x ∈ ahead, u.groups[x] = some (Group.formed (bit8 x.val)) ∧ (Group.formed (bit8 x.val)).measurable = false)
        ∧ readyToMeasure u m g d 0 ∧ u.seqs[d].run = .none ∧ (d = 0 → m = 0) ∧ s.seqs[(0 : Chan)].coupling = .attached := by
  unfold othersRest readyToMeasure
  rintro rotation ahead behind m d g (h | h) <;> cases h <;> decide +kernel

/-- In IDLE with PARKED pending: one other group's order runs, then two. -/
theorem witness_OrderRunCompletes_pending :
    (∀ rest, (rest = [] ∨ rest = [⟨1, .spot 7 0, .running, 7, 0⟩]
          ∨ rest = [⟨1, .spot 7 0, .running, 7, 0⟩, ⟨2, .spot 5 0, .running, 5, 0⟩]) →
        let s := spotEndsPending rest
        s.seqs[(0 : Chan)] = lastHalf (some 0) ∧ s.intake = ⟨0, .spot 0 0, .running, 0, 0⟩ :: rest ∧ s.mode = .idle
          ∧ s.parkedPending = true ∧ (∀ o ∈ rest, o.phase = .running ∧ o.group ≠ 0 ∧ o.slot ≠ 0)
          ∧ (∀ m : GroupId, seriesOf s m = .none ∨ seriesOf s m = .order)
          ∧ (fewOrders (spotOver s rest) ↔ rest.length ≤ 1))
      ∧ seriesOf (spotOver (spotEndsPending [⟨1, .spot 7 0, .running, 7, 0⟩]) []) 7 = .order := by
  unfold fewOrders
  refine ⟨?_, by decide +kernel⟩
  rintro rest (rfl | rfl | rfl) <;> decide +kernel

/-- The same with a SPOT that waits behind it, in IDLE, RUN and PARKED. -/
def spotBehind (mode : Mode) : State :=
  { spotEnds with
    mode := mode, slots := upd spotEnds.slots 1 .taken
    intake := [⟨0, .spot 0 0, .running, 0, 0⟩, ⟨1, .spot 0 0, .waiting, 0, 0⟩] }

theorem witness_OrderRunCompletes_behind :
    ∀ mode, (mode = .idle ∨ mode = .run ∨ mode = .parked) →
      edgeAt (spotBehind mode) 0 (.windowEnd 0) (lastReady (some 0))
          (historyAfter (lastReady (some 0)).history ((lastReady (some 0)).plateau none 498))
        ∧ (spotBehind mode).intake = [⟨0, .spot 0 0, .running, 0, 0⟩, ⟨1, .spot 0 0, .waiting, 0, 0⟩]
        ∧ (spotBehind mode).mode ≠ .safeStop ∧ (spotBehind mode).parkedPending = false
        ∧ (∀ m : GroupId, m ≠ 0 → seriesOf (spotBehind mode) m = .none) ∧ groupOfInjector (spotBehind mode) 0 = some 0
        ∧ ownInjector (spotBehind mode) 0 0 ∧ (spotBehind mode).groups[(0 : GroupId)] = some { group0 with series := .order }
        ∧ group0.settle = none ∧ (spotBehind mode).plans[(0 : PlanId)].ready = true
        ∧ groupState (spotBehind mode) 0 ≠ .passive ∧ groupState (spotBehind mode) 0 ≠ .held
        ∧ groupState (spotBehind mode) 0 ≠ .noChannel ∧ (spotBehind mode).seqs[(0 : Chan)].coupling = .attached := by
  unfold ownInjector
  rintro mode (rfl | rfl | rfl) <;> refine ⟨edge_last _ _ (by decide +kernel), ?_⟩ <;> decide +kernel

/-- A PARKED turn of group 0 at its third edge, under a policy. -/
def turnEnds (policy : Policy) : State :=
  { withSeq live (lastHalf none) .turn with
    mode := .parked, groups := upd live.groups 0 (some { group0 with series := .turn, policy := policy, rotateCount := 1 }) }

/-- Under LOWEST, under ROTATE alone in the group, and under ROTATE with a second channel. -/
theorem witness_TurnCompletes :
    ∀ (s : State) (d : Chan) (policy : Policy),
      ((s, d, policy) = (turnEnds .lowest, 0, .lowest) ∨ (s, d, policy) = (turnEnds .rotate, 0, .rotate)
        ∨ (s, d, policy) = (twoChannels (turnEnds .rotate), 1, .rotate)) →
      edgeAt s 0 (.windowEnd 0) (lastReady none) (historyAfter (lastReady none).history ((lastReady none).plateau none 498))
        ∧ (lastReady none).run = .triple ∧ (lastReady none).half = 3 ∧ (lastReady none).owner = none ∧ s.mode = .parked
        ∧ s.intake = [] ∧ groupOfInjector s 0 = some 0
        ∧ s.groups[(0 : GroupId)] = some { group0 with series := .turn, policy := policy, rotateCount := 1 }
        ∧ s.seqs[(0 : Chan)].coupling = .attached ∧ nextInLine s 0 0 d ∧ readyPlan s 0 = some worked ∧ worked.settle ≠ 0 := by
  unfold nextInLine mayInject
  rintro s d policy (h | h | h) <;> cases h <;> refine ⟨edge_last _ _ (by decide +kernel), ?_⟩ <;> and_intros <;>
    decide +kernel

/-! ### Arithmetic and results -/

theorem witness_ComputationUnitServesInOrder :
    live.computing = none ∧ { live with triples := [workedTriple, driftTriple] }.triples = [workedTriple, driftTriple]
      ∧ { live with computing := some workedTriple }.computing = some workedTriple ∧ workedTriple.source ≠ .selfcheck
      ∧ live.triples = [] := ⟨rfl, rfl, rfl, by decide, rfl⟩

/-- Section 3.13, from either polarity, and the ends of the value range. -/
theorem witness_PairOfPlateaus :
    (-9111 : Int) = (workedTriple.p1.value + workedTriple.p3.value + 1) / 2 ∧ workedTriple.p1.polarity = .pos
      ∧ (32767 : Int) = (32767 + 32767 + 1) / 2 ∧ (-32768 : Int) = (-32768 + -32768 + 1) / 2 := by decide

/-- A triple with a response of 2 (section 3.14), and the drifting one. -/
theorem witness_ConditionsAndResistance :
    ((compute workedTriple).valid = true ∧ (workedTriple.daMin : Int) ≤ (compute workedTriple).dA)
      ∧ (compute driftTriple).valid = false
      ∧ ((compute { workedTriple with p2 := ⟨.neg, -9113, 800, 506, 0⟩ }).valid = true
        ∧ (compute { workedTriple with p2 := ⟨.neg, -9113, 800, 506, 0⟩ }).dA < workedTriple.daMin) := by decide +kernel

theorem witness_RailSplitFigures :
    (compute workedTriple).split = some ⟨1500, 2999, 333⟩
      ∧ (max 0 (faultOhms workedTriple (compute workedTriple).dA)).toNat = 1000000 := by decide +kernel

/-- The triple of a check of channel 0 with slot 0, passing. -/
def checkTriple : Triple := { workedTriple with source := .selfcheck, stamp := none, slot := some 0, planId := none }

/-- Its computation under way, channel 0 at a health. -/
def checkDone (x : Triple) (h : Health) : State :=
  withOrder { live with computing := some x, safety := upd live.safety 0 { live.safety[(0 : Chan)] with health := h } }
    (.selfcheck 0) .finishing

/-- The group that the check leaves had no injector. -/
theorem witness_SelfcheckEvaluated_reselects :
    injectorOf { checkDone checkTriple .good with groups := held.groups } 0 = none
      ∧ injectorOf (after .computationComplete { checkDone checkTriple .good with groups := held.groups }) 0 = some 0 := by
  decide +kernel

/-- A pass and a failure, from GOOD and from SUSPECT. -/
theorem witness_SelfcheckEvaluated :
    ∀ (x : Triple) (h : Health), (x = checkTriple ∨ x = { checkTriple with p3 := driftTriple.p3 }) → (h = .good ∨ h = .suspect) →
      (checkDone x h).computing = some x ∧ x.source = .selfcheck ∧ x.slot = some 0
        ∧ (checkDone x h).intake = [⟨0, .selfcheck x.chan, .finishing, 0, 0⟩]
        ∧ (checkDone x h).safety[x.chan].health = h ∧ h ≠ .offline := by
  rintro x h (rfl | rfl) (rfl | rfl) <;> decide +kernel

/-- The condition unit has one result to take. -/
def withResult (s : State) (x : Triple) : State := { s with results := [compute x] }

/-- The oldest waiting result is taken with its channel's record updated, or the one in progress as it stands. -/
theorem taken_either_way (s : State) (x : Triple) (h : s.taken = none) :
    (∃ u, resultTaken (withResult s x) (compute x) [] u)
      ∧ resultTaken { s with taken := some (compute x), results := [] } (compute x) [] { s with taken := none, results := [] } :=
  ⟨⟨if s.seqs[x.chan].ctx = .held then { s with results := [], cuts := s.cuts.tail } else
      { s with
        results := [], cuts := s.cuts.tail
        seqs := upd s.seqs x.chan { s.seqs[x.chan] with ctx := .idle, record := recordOf (compute x) } },
    .inr ⟨h, rfl, fun k => if_pos k, fun k => ⟨recordOf (compute x), ⟨rfl, rfl, rfl, rfl, rfl, rfl, rfl, rfl, rfl⟩, if_neg k⟩⟩⟩,
    .inl ⟨rfl, rfl, rfl⟩⟩

/-- In a free context and in a HELD one, from the queue (cut or not) and in progress. -/
theorem witness_ResultReachesContextAndNodes :
    (∃ u, resultTaken (withResult live workedTriple) (compute workedTriple) [] u)
      ∧ (∃ u, resultTaken (withResult held workedTriple) (compute workedTriple) [] u)
      ∧ resultTaken { live with taken := some (compute workedTriple), results := [] } (compute workedTriple) []
          { live with taken := none, results := [] }
      ∧ live.taken = none ∧ live.cuts.head? ≠ some true ∧ { withResult live workedTriple with cuts := [true] }.cuts = true :: []
      ∧ (withResult live workedTriple).results = [compute workedTriple]
      ∧ (compute workedTriple).stamp = some ⟨1, 0, 0⟩
      ∧ (withResult live workedTriple).seqs[(compute workedTriple).chan].ctx ≠ .held
      ∧ (withResult held workedTriple).seqs[(compute workedTriple).chan].ctx = .held
      ∧ has8 (1 : BitVec 8) (0 : NodeId).val = true ∧ has8 (1 : BitVec 8) (7 : NodeId).val = false
      ∧ actionClass (compute workedTriple).conds (compute workedTriple).actions ≠ .hold
      ∧ (compute workedTriple).source ≠ .spot ∧ live.results = []
      ∧ has8 live.attn.inService 1 = false ∧ has8 live.attn.pending 1 = live.attn.faultFact
      ∧ has8 { live.attn with inService := 2 }.inService 1 = true :=
  ⟨(taken_either_way live workedTriple rfl).1, (taken_either_way held workedTriple rfl).1,
    (taken_either_way live workedTriple rfl).2, by decide +kernel⟩

/-- A series whose result is taken from the queue, and one whose result stands in progress. -/
theorem witness_HoldTakesTheChannel :
    (∃ u, resultTaken (withResult series driftTriple) (compute driftTriple) [] u)
      ∧ resultTaken { series with taken := some (compute driftTriple), results := [] } (compute driftTriple) []
          { series with taken := none, results := [] }
      ∧ series.taken = none ∧ series.cuts.head? ≠ some true ∧ (compute driftTriple).source ≠ .selfcheck
      ∧ intakeSound (withResult series driftTriple) ∧ classIs (compute driftTriple).conds (compute driftTriple).actions .hold
      ∧ (withResult series driftTriple).seqs[(compute driftTriple).chan].ctx ≠ .held
      ∧ (withResult series driftTriple).seqs[(compute driftTriple).chan].coupling = .attached := by
  unfold intakeSound classIs
  exact ⟨(taken_either_way series driftTriple rfl).1, (taken_either_way series driftTriple rfl).2, by decide +kernel⟩

/-- A SPOT's triple, of slot 0. -/
def spotTriple : Triple := { workedTriple with source := .spot, slot := some 0 }

theorem witness_SpotCompletesWithItsResult :
    let s := withOrder live (.spot 0 0) .finishing
    (∃ u, resultTaken (withResult s spotTriple) (compute spotTriple) [] u)
      ∧ resultTaken { s with taken := some (compute spotTriple), results := [] } (compute spotTriple) []
          { s with taken := none, results := [] }
      ∧ s.taken = none ∧ s.cuts.head? ≠ some true ∧ (compute spotTriple).source = .spot ∧ (compute spotTriple).slot = some 0
      ∧ s.intake = [⟨0, .spot 0 0, .finishing, 0, 0⟩]
      ∧ actionClass (compute spotTriple).conds (compute spotTriple).actions ≠ .hold :=
  ⟨(taken_either_way _ spotTriple rfl).1, (taken_either_way _ spotTriple rfl).2, by decide +kernel⟩

/-- Section 4.9: the widened limits of a FAULT node, and the candidate's third count. -/
theorem witness_TargetBandAndConfirmation :
    88 = worked.faultK * (100 + worked.hysteresis) / 100 ∧ 440 = worked.warnK * (100 + worked.hysteresis) / 100
      ∧ (3 : Nat) = (if some Band.warn = some Band.warn then 2 + 1 else 1) ∧ NodeState.ok ≠ .unknown
      ∧ NodeState.ok ≠ .stale ∧ NodeState.ok ≠ Band.warn.state := by decide

theorem witness_StalenessCheckAgesNodes :
    State.reset.starting = true ∧ live.starting = false
      ∧ isOverAge { withNode3 { NodeStatus.initial with state := .ok } with uptime := 600001 } 3
      ∧ ¬ isOverAge { withNode3 { NodeStatus.initial with state := .ok } with uptime := 600000 } 3
      ∧ isOverAge { withNode3 { NodeStatus.initial with state := .fault } with uptime := 60001, mode := .parked } 3
      ∧ ∀ n : NodeId, ¬ isOverAge live n := by
  unfold isOverAge
  decide +kernel

/-! ### Timers and lines -/

/-- The group of `settling`. -/
def settlingGroup : Group := { Group.formed 1 with injector := some 0, settle := some 500 }

theorem witness_SettleAndParkTimersExpire :
    (∀ s, (s = settling ∨ s = { settling with mode := .run } ∨ s = { verifying settling 0 with mode := .run }) →
        s.groups[(0 : GroupId)] = some settlingGroup ∧ settlingGroup.settle ≠ none ∧ s.intake = []
          ∧ settlingGroup.series = .none ∧ settlingGroup.injector = some 0 ∧ ownInjector s 0 0
          ∧ s.nodePlan[(0 : NodeId)] = some 0 ∧ s.plans[(0 : PlanId)].ready = true ∧ s.seqs[(0 : Chan)].run = .none
          ∧ s.seqs[(0 : Chan)].coupling = .detached)
      ∧ restful settling ∧ (verifying settling 0).safety[(0 : Chan)].verify ≠ none
      ∧ (∀ d : Chan, settling.safety[d].verify = none)
      ∧ (∀ g : Group, live.groups[(0 : GroupId)] = some g → g.settle = none) ∧ (∀ n, live.park ≠ .running n)
      ∧ (let s := { live with mode := .parked, park := .running 0, rotation := [1] ++ 0 :: [2] }
         s.park = .running 0 ∧ s.mode = .parked ∧ s.intake = []
          ∧ (∀ c : Chan, s.seqs[c].run = .none → s.seqs[c].coupling = .detached) ∧ (∀ m : GroupId, seriesOf s m = .none)
          ∧ readyToMeasure s 0 group0 0 0 ∧ s.seqs[(0 : Chan)].run = .none)
      ∧ ∀ (g : Group) (d : Chan) (q : PlanId), ¬ readyToMeasure live 1 g d q := by
  refine ⟨?_, by unfold restful; decide +kernel, by decide +kernel, by decide +kernel, ?_, (fun _ h => nomatch h), ?_, ?_⟩
  · unfold ownInjector
    rintro s (rfl | rfl | rfl) <;> decide +kernel
  · intro g h
    cases h
    rfl
  · unfold readyToMeasure
    decide +kernel
  · rintro g d q ⟨h, m, -⟩
    cases h
    exact Bool.noConfusion m

/-- A check whose reference waits for its channel's verify. -/
def referenceWaits : State := verifying (withSeq live { checkRun with phase := .waitAttach } .order) 0

/-- A series whose attach waits for its channel's verify. -/
def attachWaits : State :=
  verifying (withSeq live { window14 with phase := .waitAttach, coupling := .detached } .series) 0

theorem witness_DetachVerifyPasses :
    (referenceWaits.starting = false ∧ referenceWaits.safety[(0 : Chan)].verify ≠ none ∧ waitsForReference referenceWaits 0)
      ∧ (attachWaits.starting = false ∧ attachWaits.safety[(0 : Chan)].verify ≠ none ∧ waitsForVerifyOf attachWaits 0 0
        ∧ ¬ waitsForReference attachWaits 0)
      ∧ State.reset.starting = true ∧ live.safety[(0 : Chan)].verify = none := by
  unfold waitsForReference waitsForVerifyOf
  refine ⟨by decide +kernel, ⟨by decide +kernel, by decide +kernel, ⟨by decide +kernel, by decide +kernel,
    by decide +kernel, 0, by decide +kernel⟩, by decide +kernel⟩, by decide +kernel⟩

theorem witness_SafeStopEntered :
    (∀ s, (s = stopped ∨ s = series ∨ s = withOrder series (.spot 0 0) .waiting) →
        s.starting = false ∧ intakeSound s ∧ { s with lines := 0 }.lines.getLsbD 3 = false)
      ∧ (verifying series 0).safety[(0 : Chan)].verify ≠ none ∧ (verifying stopped 0).safety[(0 : Chan)].verify ≠ none
      ∧ stopped.mode = .safeStop ∧ series.mode ≠ .safeStop ∧ State.reset.starting = true
      ∧ stopped.lines.getLsbD 3 = true
      ∧ (withNode3 { NodeStatus.initial with deferred := true }).nodes[(3 : NodeId)].deferred = true := by
  refine ⟨?_, by decide +kernel⟩
  unfold intakeSound
  rintro s (rfl | rfl | rfl) <;> decide +kernel

/-- Channel 0 is disconnected in FOLLOW by line 0. -/
def follows : State :=
  { disconnected 1 with
    safety := upd (disconnected 1).safety 0 { (disconnected 1).safety[(0 : Chan)] with discMode := .follow } }

/-- Channel 0 of a series, or of a check, enables line 0 and is not disconnected; in FOLLOW it is, and the line releases. -/
theorem witness_DisconnectLineReachesChannels :
    (∀ s, (s = { series with safety := upd series.safety 0 { series.safety[(0 : Chan)] with discMask := 1 } }
          ∨ s = { checkEnds with safety := upd checkEnds.safety 0 { checkEnds.safety[(0 : Chan)] with discMask := 1 } }) →
        s.starting = false ∧ s.lines.getLsbD (0 : Fin 3).val ≠ true ∧ intakeSound s
          ∧ s.safety[(0 : Chan)].discMask.getLsbD (0 : Fin 3).val = true ∧ s.safety[(0 : Chan)].disconnected = false
          ∧ { s with lines := s.lines ||| 1 }.lines.getLsbD 0 = true)
      ∧ checkEnds.intake = [⟨0, .selfcheck 0, .running, 0, 0⟩] ∧ checkEnds.seqs[(0 : Chan)].run = .selfcheck
      ∧ follows.lines.getLsbD (0 : Fin 3).val ≠ false ∧ follows.safety[(0 : Chan)].disconnected = true
      ∧ follows.safety[(0 : Chan)].discMode = .follow
      ∧ (∀ i, i < 3 → follows.safety[(0 : Chan)].discMask.getLsbD i = true → { follows with lines := 0 }.lines.getLsbD i = false)
      ∧ live.lines.getLsbD (2 : Fin 3).val = false ∧ State.reset.starting = true := by
  refine ⟨?_, by decide +kernel⟩
  unfold intakeSound
  rintro s (rfl | rfl) <;> decide +kernel

/-- A SPOT's run on channel 0, which enables line 0. -/
def spotRunsLine (k : Nat) : State :=
  { spotRuns k with safety := upd live.safety 0 { live.safety[(0 : Chan)] with discMask := 1 } }

/-- A RUNNING SPOT at each abandon count, in IDLE and in RUN: a second channel takes the group over and it settles, or no
channel is left. -/
theorem witness_DisconnectLineReachesChannels_spot :
    ∀ (s : State) (k : Nat),
      ((s, k) = (twoChannels (spotRunsLine 0), 0) ∨ (s, k) = (spotRunsLine 0, 0) ∨ (s, k) = (spotRunsLine 1, 1)
        ∨ (s, k) = (spotRunsLine 2, 2) ∨ (s, k) = ({ twoChannels (spotRunsLine 1) with mode := .run }, 1)) →
      s.starting = false ∧ s.lines.getLsbD (0 : Fin 3).val ≠ true ∧ Safe s ∧ (s.mode = .idle ∨ s.mode = .run)
        ∧ s.parkedPending = false ∧ s.safety[(0 : Chan)].discMask.getLsbD (0 : Fin 3).val = true
        ∧ s.safety[(0 : Chan)].disconnected = false ∧ injectorOf s 0 = some 0 ∧ leaderOf s 0 = 0
        ∧ s.intake = [⟨0, .spot 0 0, .running, 0, k⟩] ∧ s.plans[(0 : PlanId)].ready = true
        ∧ (if s.wiring[(1 : Chan)].enabled then
            ((after (.disconnectLineChange 0 true) s).groups[(0 : GroupId)]).bind (·.settle) = some 500
           else groupState (after (.disconnectLineChange 0 true) s) 0 = .noChannel) := by
  unfold Safe memoryCanonical referenceApart safeStopQuiet tableAgrees injectorsEligible mayInject attachedInject
    intakeSound startupUnwired
  rintro s k (h | h | h | h | h) <;> cases h <;> decide +kernel

/-! ### Attention -/

/-- Levels at both ends of their range. -/
theorem witness_PollTakesHighestLevel :
    live.endPending = false
      ∧ (has8 (0x81 : BitVec 8) (0 : Level).val = true ∧ ∀ m : Level, ¬ m < 0)
      ∧ (has8 (0x80 : BitVec 8) (7 : Level).val = true
        ∧ ∀ m : Level, m < 7 → ¬ (has8 (0x80 : BitVec 8) m.val = true ∧ has8 (0 : BitVec 8) m.val = false))
      ∧ (∀ n : Level, has8 (0x80 : BitVec 8) n.val = true → has8 (0x80 : BitVec 8) n.val = true)
      ∧ (∀ m : Level, m < 7 → has8 (0x80 : BitVec 8) m.val = false)
      ∧ (⟨0, 0, 0, false, false⟩ : Attn).faultFact ≠ true := by decide

theorem witness_RegisterReadReturnsRegisters : live.endPending = false ∨ live.starting = true := .inl rfl

theorem witness_MaskAttnAndPendingLevels :
    (live.endPending = false ∨ live.starting = true) ∧ (⟨0, 0x02, 0, false, false⟩ : Attn).faultFact ≠ true :=
  ⟨.inl rfl, by decide⟩

theorem witness_EndsRemoveLevels :
    live.endPending = false ∧ has8 (0x80 : BitVec 8) (7 : Level).val = true
      ∧ (∀ m : Level, m < 7 → has8 (0x80 : BitVec 8) m.val = false) ∧ live.attn.inService = 0 ∧ 9 ≤ (9 : Byte).toNat := by
  decide +kernel

end Sys2Proof.Tests
end

section
/-! PROOFS. Stage 3 of the arithmetic unit (R48): the outer value, the pair, the response and twice the offset. -/

namespace Sys2Proof.Machine

/-! ### What each function of stage 3 gives -/

/-- The bounds of a plateau value, which is a signed 16-bit code. -/
def inCodeRange (v : Int) : Prop := -32768 ≤ v ∧ v ≤ 32767

theorem outerValue_inCodeRange {p1 p3 : Int} (h1 : inCodeRange p1) (h3 : inCodeRange p3) :
    inCodeRange (outerValue p1 p3) := by
  unfold inCodeRange outerValue at *
  omega

@[simp] theorem pairValues_pos (p1 p2 p3 : Int) : pairValues .pos p1 p2 p3 = (outerValue p1 p3, p2) := rfl

@[simp] theorem pairValues_neg (p1 p2 p3 : Int) : pairValues .neg p1 p2 p3 = (p2, outerValue p1 p3) := rfl

/-- Whichever polarity P1 has, the pair holds the outer value and P2, so it keeps a bound that both meet. -/
theorem pairValues_inCodeRange {pol : Polarity} {p1 p2 p3 : Int} (h1 : inCodeRange p1) (h2 : inCodeRange p2)
    (h3 : inCodeRange p3) :
    inCodeRange (pairValues pol p1 p2 p3).1 ∧ inCodeRange (pairValues pol p1 p2 p3).2 := by
  have hOut := outerValue_inCodeRange h1 h3
  cases pol with
  | pos => exact ⟨hOut, h2⟩
  | neg => exact ⟨h2, hOut⟩

/-- The pair of a triple's plateau values. -/
def Triple.pair (x : Triple) : Int × Int := pairValues x.p1.polarity x.p1.value x.p2.value x.p3.value

@[simp] theorem compute_dA (x : Triple) : (compute x).dA = x.pair.1 - x.pair.2 := rfl

@[simp] theorem compute_off2 (x : Triple) : (compute x).off2 = x.pair.1 + x.pair.2 := rfl

/-- R48's table read as an assignment: values that follow it are the pair. -/
theorem Triple.pair_eq_of_polarity {x : Triple} {aPos aNeg : Int}
    (hPos : x.p1.polarity = .pos → aPos = outerValue x.p1.value x.p3.value ∧ aNeg = x.p2.value)
    (hNeg : x.p1.polarity = .neg → aPos = x.p2.value ∧ aNeg = outerValue x.p1.value x.p3.value) :
    x.pair = (aPos, aNeg) := by
  unfold Triple.pair
  cases hp : x.p1.polarity with
  | pos =>
    obtain ⟨rfl, rfl⟩ := hPos hp
    exact pairValues_pos ..
  | neg =>
    obtain ⟨rfl, rfl⟩ := hNeg hp
    exact pairValues_neg ..

/-! ### The ranges of R48 -/

theorem sub_range_of_inCodeRange {a b : Int} (ha : inCodeRange a) (hb : inCodeRange b) :
    -65535 ≤ a - b ∧ a - b ≤ 65535 := by
  unfold inCodeRange at *
  omega

theorem add_range_of_inCodeRange {a b : Int} (ha : inCodeRange a) (hb : inCodeRange b) :
    -65536 ≤ a + b ∧ a + b ≤ 65534 := by
  unfold inCodeRange at *
  omega

/-- Settles O45: P1's polarity decides the pair, and the ranges follow from those of the three plateau values. -/
theorem pairOfPlateaus : Obligations.PairOfPlateaus := by
  intro x aOut aPos aNeg hOut hPos hNeg
  obtain rfl : aOut = outerValue x.p1.value x.p3.value := hOut
  have hPair : x.pair = (aPos, aNeg) := Triple.pair_eq_of_polarity hPos hNeg
  simp only [compute_dA, compute_off2, hPair, true_and]
  intro hCodes
  have h1 : inCodeRange x.p1.value := hCodes _ (.inl rfl)
  have h2 : inCodeRange x.p2.value := hCodes _ (.inr (.inl rfl))
  have h3 : inCodeRange x.p3.value := hCodes _ (.inr (.inr rfl))
  obtain ⟨hA, hB⟩ : inCodeRange x.pair.1 ∧ inCodeRange x.pair.2 := pairValues_inCodeRange h1 h2 h3
  rw [hPair] at hA hB
  obtain ⟨dALow, dAHigh⟩ := sub_range_of_inCodeRange hA hB
  refine ⟨?_, dALow, dAHigh, add_range_of_inCodeRange hA hB⟩
  rintro v (rfl | rfl | rfl)
  · exact outerValue_inCodeRange h1 h3
  · exact hA
  · exact hB

end Sys2Proof.Machine
end

section
/-! PROOFS. The target band by the limits of the node's present state, and the move of state, candidate and count
toward it (R66, R67). -/

namespace Sys2Proof.Machine

/-! ### The three bands, each by the limits (R66) -/

theorem targetBand_eq_fault_iff (p : PlanCopy) (st : NodeState) (rf : Nat) :
    targetBand p st rf = .fault ↔ rf < faultLimit p st := by
  rcases targetBand_spec p st rf with ⟨hf, hb⟩ | ⟨hf, -, hb⟩ | ⟨hf, -, hb⟩ <;> simp [hb, hf]

theorem targetBand_eq_warn_iff (p : PlanCopy) (st : NodeState) (rf : Nat) :
    targetBand p st rf = .warn ↔ faultLimit p st ≤ rf ∧ rf < warnLimit p st := by
  rw [← Nat.not_lt]
  rcases targetBand_spec p st rf with ⟨hf, hb⟩ | ⟨hf, hw, hb⟩ | ⟨hf, hw, hb⟩
  · simp [hb, hf]
  · simp [hb, hf, hw]
  · simp [hb, hw]

theorem targetBand_eq_ok_iff (p : PlanCopy) (st : NodeState) (rf : Nat) :
    targetBand p st rf = .ok ↔ faultLimit p st ≤ rf ∧ warnLimit p st ≤ rf := by
  rw [← Nat.not_lt, ← Nat.not_lt]
  rcases targetBand_spec p st rf with ⟨hf, hb⟩ | ⟨hf, hw, hb⟩ | ⟨hf, hw, hb⟩
  · simp [hb, hf]
  · simp [hb, hw]
  · simp [hb, hf, hw]

/-! ### The move toward a target band (R67) -/

/-- No band is UNKNOWN or STALE, so a node in its target's state is in neither. -/
theorem Band.state_ne_unknown_or_stale (b : Band) : ¬ (b.state = .unknown ∨ b.state = .stale) := by
  cases b <;> simp [Band.state]

theorem moveToward_of_unknown_or_stale {st : NodeState} (h : st = .unknown ∨ st = .stale) (confirm : Nat)
    (target : Band) (cand : Option Band) (count : Nat) :
    moveToward confirm target st cand count = (target.state, none, 0) := if_pos h

theorem moveToward_own_band (confirm : Nat) (target : Band) (cand : Option Band) (count : Nat) :
    moveToward confirm target target.state cand count = (target.state, none, 0) := by
  unfold moveToward
  rw [if_neg target.state_ne_unknown_or_stale, if_pos rfl]

theorem moveToward_other_band {st : NodeState} {target : Band} (hJudged : ¬ (st = .unknown ∨ st = .stale))
    (hOther : target.state ≠ st) (confirm : Nat) (cand : Option Band) (count : Nat) :
    moveToward confirm target st cand count =
      if confirm ≤ (if cand = some target then count + 1 else 1) then (target.state, none, 0)
      else (st, some target, if cand = some target then count + 1 else 1) := by
  unfold moveToward
  rw [if_neg hJudged, if_neg hOther]

/-- Settles O52: the limits are those `targetBand` compares with, and each case of R67 is one branch of the move. -/
theorem targetBandAndConfirmation : Obligations.TargetBandAndConfirmation := by
  refine ⟨?_, ?_⟩
  · intro p st rf fault warn hFault hWarn
    obtain rfl : fault = faultLimit p st := hFault
    obtain rfl : warn = warnLimit p st := hWarn
    exact ⟨targetBand_eq_fault_iff p st rf, targetBand_eq_warn_iff p st rf, targetBand_eq_ok_iff p st rf⟩
  · rintro confirm target st cand count n rfl
    refine ⟨fun h => moveToward_of_unknown_or_stale h .., ?_, ?_⟩
    · rintro rfl
      exact moveToward_own_band ..
    · intro hUnknown hStale hTarget
      exact moveToward_other_band (not_or.mpr ⟨hUnknown, hStale⟩) hTarget.symm ..

end Sys2Proof.Machine
end

section
/-! PROOFS. The acknowledgement of a level by a read of POLL (R172), and its END by a write of POLL (R173). -/

namespace Sys2Proof.Machine

/-! ### Sets of levels, and their top level (R169) -/

theorem topLevel_eq_some {v : BitVec 8} {n : Level} (hn : has8 v n.val = true)
    (hAbove : ∀ m : Level, m < n → has8 v m.val = false) : topLevel v = some n := by
  cases ht : topLevel v with
  | none => simp [topLevel_none ht n] at hn
  | some k =>
    obtain ⟨hk, hTop⟩ := topLevel_some ht
    have hNotBelow : ¬ k < n := fun hlt => by simp [hAbove k hlt] at hk
    rw [le_antisymm (hTop n hn) (not_lt.mp hNotBelow)]

theorem topLevel_eq_none {v : BitVec 8} (h : ∀ n : Level, has8 v n.val = false) : topLevel v = none := by
  cases ht : topLevel v with
  | none => rfl
  | some k =>
    obtain ⟨hk, -⟩ := topLevel_some ht
    simp [h k] at hk

theorem has8_addLevel (v : BitVec 8) (n m : Level) :
    has8 (v ||| bit8 n.val) m.val = (has8 v m.val || decide (m = n)) := by
  simp [has8_add _ _ _ n.isLt m.isLt, Fin.ext_iff, eq_comm]

theorem has8_removeLevel (v : BitVec 8) (n m : Level) :
    has8 (v &&& ~~~bit8 n.val) m.val = (has8 v m.val && decide (m ≠ n)) := by
  simp [has8_remove _ _ _ n.isLt m.isLt, Fin.ext_iff, eq_comm]

theorem has8_unmasked (a : Attn) (n : Level) :
    has8 (a.pending &&& ~~~a.mask) n.val = (has8 a.pending n.val && !has8 a.mask n.val) := by
  rw [has8_and, has8_not _ _ n.isLt]

/-! ### What a POLL and an END do to the sets -/

theorem poll_of_top {a : Attn} {n : Level} (h : topLevel (a.pending &&& ~~~a.mask) = some n) :
    a.poll = (byteOf n.val,
      { a with pending := a.pending &&& ~~~bit8 n.val, inService := a.inService ||| bit8 n.val }) := by
  unfold Attn.poll
  rw [h]

theorem poll_of_none {a : Attn} (h : topLevel (a.pending &&& ~~~a.mask) = none) : a.poll = (0x0F, a) := by
  unfold Attn.poll
  rw [h]

/-- The fact behind a level, as R169 names the two levels of type level. -/
theorem fact_eq (a : Attn) (n : Level) :
    a.fact n = (decide (n = 0) && a.safeStopFact || decide (n = 1) && a.faultFact) := by
  unfold Attn.fact
  by_cases h0 : n = 0
  · simp [h0]
  · by_cases h1 : n = 1 <;> simp [h0, h1]

theorem levelEnded_endLevel (a : Attn) (n : Level) : levelEnded a (a.endLevel n) n := by
  unfold levelEnded
  rw [← fact_eq]
  rcases endLevel_spec a n with ⟨hOut, he⟩ | ⟨hIn, he⟩ <;> rw [he]
  · refine ⟨fun m => ?_, fun m => by simp [hOut], rfl, rfl, rfl⟩
    by_cases hm : m = n
    · simp [hm, hOut]
    · simp [hm]
  · refine ⟨has8_removeLevel _ n, fun m => ?_, rfl, rfl, rfl⟩
    cases a.fact n with
    | false => simp
    | true => simp [hIn, has8_addLevel]

theorem pollWrite_byteOf (a : Attn) (n : Level) : a.pollWrite (byteOf n.val) = a.endLevel n := by
  have hIndex : ∀ n : Level, indexOf 8 (byteOf n.val) = some n := by decide
  unfold Attn.pollWrite
  rw [hIndex]

theorem pollWrite_eight_of_top {a : Attn} {n : Level} (h : topLevel a.inService = some n) :
    a.pollWrite 8 = a.endLevel n := by
  have hIndex : indexOf 8 (8 : Byte) = none := rfl
  unfold Attn.pollWrite
  rw [hIndex, if_pos rfl, h]

theorem pollWrite_eight_of_none {a : Attn} (h : topLevel a.inService = none) : a.pollWrite 8 = a := by
  have hIndex : indexOf 8 (8 : Byte) = none := rfl
  unfold Attn.pollWrite
  rw [hIndex, if_pos rfl, h]

theorem pollWrite_of_nine_le (a : Attn) {v : Byte} (h : 9 ≤ v.toNat) : a.pollWrite v = a := by
  have hIndex : indexOf 8 v = none := dif_neg (by omega)
  have hEight : v ≠ 8 := by rintro rfl; simp at h
  unfold Attn.pollWrite
  rw [hIndex]
  exact if_neg hEight

/-! ### The transactions at POLL -/

/-- Outside the case that R159 drops, a transaction acts on the state its command and address bytes leave. -/
theorem transactFrom_of_not_dropped {s : State} (h : s.endPending = false ∨ s.starting = true) (count : Nat)
    (serve : State → State) : s.transactFrom count serve = serve (afterAddress s []) := by
  have hServed : dropped s = false := by
    unfold dropped
    rcases h with h | h <;> simp [h]
  rcases transactFrom_spec s count serve with ⟨hDropped, _⟩ | ⟨_, he⟩
  · simp [hServed] at hDropped
  · exact he

/-- The state a served transaction of one byte at POLL leaves: the byte shifted out, and the sets after it. -/
def afterPollByte (s : State) (b : Byte) (a : Attn) : State := { afterAddress s [b] with attn := a }

/-- With the sets as they were, the byte shifted out is all that the transaction did. -/
theorem afterPollByte_same_attn (s : State) (b : Byte) : afterPollByte s b s.attn = afterAddress s [b] := rfl

theorem exec_poll {s : State} (h : s.endPending = false ∨ s.starting = true) :
    exec .poll s = .next (afterPollByte s s.attn.poll.1 s.attn.poll.2) :=
  congrArg _ (transactFrom_of_not_dropped h 1 _)

theorem exec_registerRead_poll (s : State) : exec (.registerRead (some 7) 1) s = exec .poll s := rfl

theorem exec_registerWrite_poll {s : State} (h : s.endPending = false ∨ s.starting = true) (v : Byte) :
    exec (.registerWrite (some 7) [v]) s = .next (afterPollByte s 0 (s.attn.pollWrite v)) :=
  congrArg _ (transactFrom_of_not_dropped h 1 _)

theorem exec_specificEnd {s : State} (h : s.endPending = false ∨ s.starting = true) (v : Byte) :
    exec (.specificEnd v) s = .next (afterPollByte s 0 (s.attn.pollWrite v)) :=
  exec_registerWrite_poll h v

theorem exec_nonSpecificEnd {s : State} (h : s.endPending = false ∨ s.starting = true) :
    exec .nonSpecificEnd s = .next (afterPollByte s 0 (s.attn.pollWrite 8)) :=
  exec_registerWrite_poll h 8

/-- Settles O59: the level the rule names is the top of the unmasked pending set, and `poll` moves that one. -/
theorem pollTakesHighestLevel : Obligations.PollTakesHighestLevel := by
  intro s hServed
  refine ⟨_, _, exec_poll hServed, rfl, (exec_registerRead_poll s).trans (exec_poll hServed), ?_, ?_⟩
  · intro n hPending hMask hAbove
    have hTop : topLevel (s.attn.pending &&& ~~~s.attn.mask) = some n :=
      topLevel_eq_some (by simp [has8_unmasked, hPending, hMask])
        fun m hm => by simpa [has8_unmasked] using hAbove m hm
    simp only [afterPollByte, poll_of_top hTop, true_and, and_true]
    exact ⟨has8_removeLevel _ n, has8_addLevel _ n⟩
  · intro hMasked
    have hTop : topLevel (s.attn.pending &&& ~~~s.attn.mask) = none :=
      topLevel_eq_none fun n => by simpa [has8_unmasked] using hMasked n
    simp [afterPollByte, poll_of_none hTop]

/-- Settles O60: each END value ends one level or none, by the value and the top of the in-service set. -/
theorem endsRemoveLevels : Obligations.EndsRemoveLevels := by
  intro s hServed
  refine ⟨fun n => ⟨_, exec_specificEnd hServed _, rfl, ?_⟩, ⟨_, exec_nonSpecificEnd hServed, rfl, ?_, ?_⟩, ?_⟩
  · rw [pollWrite_byteOf]
    exact levelEnded_endLevel s.attn n
  · intro n hIn hAbove
    rw [pollWrite_eight_of_top (topLevel_eq_some hIn hAbove)]
    exact levelEnded_endLevel s.attn n
  · intro hEmpty
    exact pollWrite_eight_of_none (topLevel_eq_none fun n => by simp [hEmpty, has8])
  · intro v hv
    rw [exec_registerWrite_poll hServed, pollWrite_of_nine_le s.attn hv, afterPollByte_same_attn]

end Sys2Proof.Machine
end

section
/-! PROOFS. Every step keeps a safe state safe: reset and the millisecond, start-up, then every command by the lemmas
about its meaning. -/

namespace Sys2Proof.Machine

/-! ### Reset and the millisecond -/

theorem reset_safe : Safe State.reset := by
  unfold Safe memoryCanonical referenceApart safeStopQuiet tableAgrees injectorsEligible mayInject attachedInject
    intakeSound startupUnwired
  decide +kernel

theorem reset_withinLimits : withinLimits State.reset := by
  unfold withinLimits planWithinLimits
  decide +kernel

/-- Settles O5: the reset state is one fixed state, and each invariant is decided of it. -/
theorem resetMeetsInvariants : Obligations.ResetMeetsInvariants :=
  ⟨reset_safe, Memory.wf_reset, reset_withinLimits⟩

@[simp] theorem tick_seqs (s : State) (c : Chan) :
    s.tick.seqs[c] = { s.seqs[c] with syncTimer := Machine.countDown s.seqs[c].syncTimer } := by
  simp [State.tick]

@[simp] theorem tick_safety (s : State) (c : Chan) :
    s.tick.safety[c] = { s.safety[c] with verify := Machine.countDown s.safety[c].verify } := by
  simp [State.tick]

@[simp] theorem tick_groups (s : State) (l : GroupId) :
    s.tick.groups[l] = (s.groups[l]).map fun g => { g with settle := Machine.countDown g.settle } := by
  simp [State.tick]

theorem tick_injectorOf (s : State) (l : GroupId) : injectorOf s.tick l = injectorOf s l := by
  unfold injectorOf
  rw [tick_groups]
  cases s.groups[l] <;> rfl

theorem tick_membersOf (s : State) (l : GroupId) : membersOf s.tick l = membersOf s l := by
  unfold membersOf
  rw [tick_groups]
  cases s.groups[l] <;> rfl

theorem tick_mayInject (s : State) (l : GroupId) (c : Chan) (h : mayInject s l c) : mayInject s.tick l c := by
  unfold mayInject at *
  rw [tick_membersOf, tick_safety, tick_seqs]
  exact h

/-- A millisecond touches timers alone, of which no safety rule speaks. -/
theorem Safe.tick {s : State} (h : Safe s) : Safe s.tick := by
  obtain ⟨hMem, hApart, hQuiet, hTable, hInjectors, hAttached, hIntake, hStartup⟩ := h
  refine ⟨hMem, fun c => ?_, fun hm c => ?_, fun l => ?_, fun l c hi => ?_, fun c hc => ?_, hIntake, hStartup⟩
  · simpa only [tick_safety, tick_seqs] using hApart c
  · simpa only [tick_seqs] using hQuiet hm c
  · refine Eq.trans ?_ (hTable l)
    rw [tick_groups, Option.map_map]
    rfl
  · rw [tick_injectorOf] at hi
    exact tick_mayInject s l c (hInjectors l c hi)
  · rw [tick_seqs] at hc
    obtain ⟨l, hl⟩ := hAttached c hc
    exact ⟨l, (tick_injectorOf s l).trans hl⟩

/-! ### Start-up -/

/-- During start-up no channel is wired, so none injects. -/
theorem Safe.no_injector {s : State} (h : Safe s) (hs : s.starting = true) (l : GroupId) (c : Chan) :
    injectorOf s l ≠ some c := by
  intro hi
  have hWired := (h.sound.injectors l c hi).1
  unfold wiredInto at hWired
  rw [(h.regroupable.startup hs).2 c] at hWired
  exact absurd hWired (by simp)

/-- Where no channel injects, a channel's standings are of no account. -/
theorem Safe.setSafety_of_no_injector {s : State} (h : Safe s) (hn : ∀ (l : GroupId) (c : Chan), injectorOf s l ≠ some c)
    (c : Chan) (x : ChanSafety) (hx : x.reference = s.safety[c].reference) : Safe (s.setSafety c x) :=
  safe_of (h.regroupable.setSafety c x hx)
    ⟨h.sound.table, fun l d hi => absurd hi (hn l d), h.sound.attached, h.sound.intake⟩

theorem Safe.failVerify {s : State} (h : Safe s) (c : Chan) : Safe (s.failVerify c) :=
  h.congr rfl rfl rfl rfl rfl rfl rfl rfl rfl rfl rfl rfl

/-- The verdict on one channel's start-up verify (R150). -/
def State.judgeChannel (closed : BitVec 4) (c : Chan) (t : State) : State :=
  if closed.getLsbD c.val then
    (t.setSafety c { t.safety[c] with verify := none, health := .offline }).failVerify c
  else t.setSafety c { t.safety[c] with verify := none }

theorem judgeStartup_eq (s : State) (closed : BitVec 4) :
    s.judgeStartup closed =
      if closed = 0xF then (forEach allChans (State.judgeChannel closed) s).enterSafeStop .startupFailed none
      else forEach allChans (State.judgeChannel closed) s := rfl

/-- A safe state in which nothing injects. -/
def SafeUninjected (s : State) : Prop := Safe s ∧ ∀ (l : GroupId) (c : Chan), injectorOf s l ≠ some c

theorem SafeUninjected.judgeChannel {s : State} (h : SafeUninjected s) (closed : BitVec 4) (c : Chan) :
    SafeUninjected (s.judgeChannel closed c) := by
  obtain ⟨hSafe, hNone⟩ := h
  unfold State.judgeChannel
  split
  · refine ⟨Safe.failVerify (hSafe.setSafety_of_no_injector hNone c _ ?_) c, hNone⟩
    rfl
  · refine ⟨hSafe.setSafety_of_no_injector hNone c _ ?_, hNone⟩
    rfl

theorem SafeUninjected.judgeAll {s : State} (h : SafeUninjected s) (closed : BitVec 4) (cs : List Chan) :
    SafeUninjected (forEach cs (State.judgeChannel closed) s) := by
  unfold Machine.forEach
  induction cs generalizing s with
  | nil => exact h
  | cons c rest ih => exact ih (h.judgeChannel closed c)

theorem Safe.judgeStartup {s : State} (h : Safe s) (hs : s.starting = true) (closed : BitVec 4) :
    Safe (s.judgeStartup closed) := by
  have hAll := (SafeUninjected.judgeAll ⟨h, h.no_injector hs⟩ closed allChans).1
  rw [judgeStartup_eq]
  split
  · exact hAll.enterSafeStop _ _
  · exact hAll

theorem Safe.setLines {s : State} (h : Safe s) (lines : BitVec 4) : Safe { s with lines := lines } :=
  h.congr rfl rfl rfl rfl rfl rfl rfl rfl rfl rfl rfl rfl

theorem Safe.sampleLines {s : State} (h : Safe s) (lines : BitVec 4) : Safe (s.sampleLines lines) := by
  unfold State.sampleLines
  dsimp only
  split
  · exact (h.setLines lines).enterSafeStop _ _
  · exact h.setLines lines

theorem Safe.clearStarting {s : State} (h : Safe s) : Safe { s with starting := false } :=
  safe_of ⟨h.regroupable.memory, h.regroupable.apart, h.regroupable.quiet, h.regroupable.intake, fun hs => nomatch hs⟩
    ⟨h.sound.table, h.sound.injectors, h.sound.attached, h.sound.intake⟩

theorem Safe.adoptRequest {s : State} (h : Safe s) : Safe s.adoptRequest := by
  unfold State.adoptRequest
  split
  · exact h
  · next hne => exact (h.changeMode _ fun hr => hne (.inr (.inl hr))).schedule

theorem Safe.startupNews {s : State} (h : Safe s) (closed : BitVec 4) : Safe (s.startupNews closed) :=
  h.forEach _ _ fun _ _ _ ht => ht.congr rfl rfl rfl rfl rfl rfl rfl rfl rfl rfl rfl rfl

/-! ### Every command -/

theorem Safe.setTimers {s : State} (h : Safe s) (hold : Option Nat) (expired : Bool) (park : ParkTimer) :
    Safe { s with hold := hold, holdExpired := expired, park := park } :=
  h.congr rfl rfl rfl rfl rfl rfl rfl rfl rfl rfl rfl rfl

theorem Safe.setComputing {s : State} (h : Safe s) (x : Option Triple) : Safe { s with computing := x } :=
  h.congr rfl rfl rfl rfl rfl rfl rfl rfl rfl rfl rfl rfl

theorem Safe.setTaken {s : State} (h : Safe s) (r : Option Result) : Safe { s with taken := r } :=
  h.congr rfl rfl rfl rfl rfl rfl rfl rfl rfl rfl rfl rfl

theorem Safe.setCommands {s : State} (h : Safe s) (pending : List Instr) (cuts : List Bool) :
    Safe { s with pending := pending, cuts := cuts } :=
  h.congr rfl rfl rfl rfl rfl rfl rfl rfl rfl rfl rfl rfl

/-- A sample changes no coupling, no run and no context. -/
theorem takeSample_frame (q : Seq) (um : BitVec 16) (ub : Int) :
    (q.takeSample um ub).coupling = q.coupling ∧ (q.takeSample um ub).run = q.run
      ∧ (q.takeSample um ub).ctx = q.ctx ∧ (q.takeSample um ub).history = q.history := by
  unfold Seq.takeSample
  dsimp only
  split
  · split <;> exact ⟨rfl, rfl, rfl, rfl⟩
  · exact ⟨rfl, rfl, rfl, rfl⟩

theorem Safe.writeByteToControl {s : State} (h : Safe s) (v : Byte) :
    Safe (s.transactFrom 1 fun t => (t.writeControl v).shift 0) :=
  h.transactFrom 1 _ fun _ ht => (ht.writeControl v).shift 0

theorem Safe.writeByteToRegister {s : State} (h : Safe s) (a : Nat) (v : Byte) :
    Safe (s.transactFrom 1 fun t => (t.writeRegister a v).shift 0) :=
  h.transactFrom 1 _ fun _ ht => (ht.writeRegister a v).shift 0

theorem Safe.execStartupVerifyExpiry {s t : State} (h : Safe s) {closed lines : BitVec 4}
    (he : execStartupVerifyExpiry closed lines s = .next t) : Safe t := by
  unfold Machine.execStartupVerifyExpiry at he
  split at he
  · next hs =>
    cases he
    exact (((h.judgeStartup hs closed).sampleLines lines).clearStarting.adoptRequest).startupNews closed
  · cases he; exact h

theorem Safe.execSample {s t : State} (h : Safe s) {c : Chan} {um : BitVec 16} {ub : Int}
    (he : execSample c um ub s = .next t) : Safe t := by
  unfold Machine.execSample at he
  split at he
  · cases he; exact h
  · cases he
    obtain ⟨hc, hr, hx, -⟩ := takeSample_frame (s.settleDue c).seqs[c] um ub
    exact (h.settleDue c).setCtx c _ hc hr fun hh => hx ▸ hh

theorem Safe.execComputationComplete {s t : State} (h : Safe s) (he : execComputationComplete s = .next t) : Safe t := by
  unfold Machine.execComputationComplete at he
  dsimp only at he
  split at he
  · rw [← Host.Outcome.next.inj he]
    exact ((h.takeUp.setComputing none).handResult _).takeUp
  · rw [← Host.Outcome.next.inj he]
    exact h.takeUp

theorem Safe.execConditionResult {s t : State} (h : Safe s) (he : execConditionResult s = .next t) : Safe t := by
  unfold Machine.execConditionResult at he
  split at he
  · rw [← Host.Outcome.next.inj he]
    exact (h.setTaken none).finishResult _
  · rw [← Host.Outcome.next.inj he]
    exact h.takeResult _ _
  · rw [← Host.Outcome.next.inj he]
    exact h

theorem Safe.execSettleExpiry {s t : State} (h : Safe s) {l : GroupId} (he : execSettleExpiry l s = .next t) : Safe t := by
  unfold Machine.execSettleExpiry at he
  split at he
  · split at he
    · rw [← Host.Outcome.next.inj he]
      exact (h.working (Working.modGroup s l (fun g => { g with settle := none, measurable := true }) (fun _ => rfl)
        fun _ => rfl)).schedule
    · cases he; exact h
  · cases he; exact h

theorem Safe.execParkTimerExpiry {s t : State} (h : Safe s) (he : execParkTimerExpiry s = .next t) : Safe t := by
  unfold Machine.execParkTimerExpiry at he
  split at he
  · rw [← Host.Outcome.next.inj he]
    exact (h.setTimers s.hold s.holdExpired .due).schedule
  · cases he; exact h
  · cases he; exact h

theorem Safe.execWriteTransactionEnd {s t : State} (h : Safe s) (he : execWriteTransactionEnd s = .next t) : Safe t := by
  cases he
  split
  · next hp =>
    have hs : s.starting = false := by
      by_contra hs
      rw [(h.regroupable.startup (by simpa using hs)).1] at hp
      cases hp
    exact h.handleEnd hs
  · exact h

/-- A transaction on the port with an address is served by its data phase, one without is cut. -/
theorem Safe.addressed {s t : State} (h : Safe s) (addr : Option (BitVec 16)) (count : Nat)
    (serve : BitVec 16 → State → State) (hs : ∀ a u, Safe u → Safe (serve a u))
    (he : (match addr with
      | some a => Host.Outcome.next (s.transactFrom count (serve a))
      | none => Host.Outcome.next (s.transactCut count) : Answer) = .next t) : Safe t := by
  cases addr with
  | none => cases he; exact h.transactCut count
  | some a => cases he; exact h.transactFrom count _ (hs a)

/-- Every command keeps a safe state safe. -/
theorem Safe.exec {s t : State} (h : Safe s) (i : Instr) (he : exec i s = .next t) : Safe t := by
  cases i with
  | hardReset => cases he; exact reset_safe.setCommands _ _
  | startupVerifyExpiry closed lines => exact h.execStartupVerifyExpiry he
  | memoryRead addr count => exact h.addressed addr count _ (fun _ _ hu => hu.readBytes _ _) he
  | memoryWrite addr data => exact h.addressed addr data.length _ (fun _ _ hu => hu.memoryWriteBody _ _) he
  | registerRead addr count => exact h.addressed addr count _ (fun _ _ hu => hu.readRegisters _ _) he
  | registerWrite addr data => exact h.addressed addr data.length _ (fun _ _ hu => hu.writeRegisters _ _) he
  | unknownCommand code rest =>
    unfold Machine.exec execUnknownCommand at he
    dsimp only at he
    split at he
    · cases he; exact h.transactCut rest
    · cases he
      exact h.transact rest _ fun _ hu => hu.congr rfl rfl rfl rfl rfl rfl rfl rfl rfl rfl rfl rfl
  | writeTransactionEnd => exact h.execWriteTransactionEnd he
  | spot n node plan => cases he; exact h.offer _ _
  | selfcheck n chan => cases he; exact h.offer _ _
  | snapshot n chan => cases he; exact h.offer _ _
  | restore n chan => cases he; exact h.offer _ _
  | release n chan => cases he; exact h.offer _ _
  | ack n node count mask => cases he; exact h.offer _ _
  | yieldNode n node => cases he; exact h.offer _ _
  | resumeNode n node => cases he; exact h.offer _ _
  | clearDisconnect n chan => cases he; exact h.offer _ _
  | modeRequest mode hold => cases he; exact h.writeByteToControl _
  | holdStart mode => cases he; exact h.writeByteToControl _
  | hostRelease mode => cases he; exact h.writeByteToControl _
  | softReset mode hold => cases he; exact h.writeByteToControl _
  | attnMask mask => cases he; exact h.writeByteToRegister 4 mask
  | poll => cases he; exact h.transactFrom 1 _ fun _ hu => hu.readRegister 7
  | specificEnd level => cases he; exact h.writeByteToRegister 7 level
  | nonSpecificEnd => cases he; exact h.writeByteToRegister 7 8
  | sample c um ub => exact h.execSample he
  | windowEnd c => cases he; exact h.windowEnd c
  | halfMax c => cases he; exact (h.windowEnd c).halfMax c
  | syncEdge => cases he; exact h.forEach _ _ fun c _ _ hu => hu.endWait c none
  | syncTimeout c =>
    cases he
    split
    · exact h.endWait c _
    · exact h
  | selfcheckHalfEnd c => cases he; exact h.selfcheckHalfEnd c
  | computationStart => cases he; exact h.takeUp
  | computationComplete => exact h.execComputationComplete he
  | conditionResult => exact h.execConditionResult he
  | stalenessCheck =>
    cases he
    split
    · exact h
    · exact h.recording (Recording.stalenessCheck s)
  | holdLimitExpiry =>
    cases he
    split
    · exact (h.recording (Recording.endHold s)).setTimers _ true _
    · exact h
  | settleExpiry l => exact h.execSettleExpiry he
  | parkTimerExpiry => exact h.execParkTimerExpiry he
  | detachVerifyExpiry c closed => cases he; exact h.verifyExpiry c closed
  | disconnectLineChange line asserted => cases he; exact h.lineChange line asserted
  | stopLine =>
    cases he
    split
    · exact h
    · exact (h.setLines _).enterSafeStop _ _
  | stopLineRelease =>
    cases he
    split
    · exact h
    · exact h.setLines _

/-- What a step is: the front command taken from the queue, or a millisecond. -/
theorem step_cases {s t : State} (h : step s = .next t) :
    (∃ i rest, s.pending = i :: rest ∧ exec i { s with pending := rest } = .next t) ∨ s.pending = [] ∧ t = s.tick := by
  unfold step at h
  split at h
  · next i rest hp => exact .inl ⟨i, rest, hp, h⟩
  · next hp => cases h; exact .inr ⟨hp, rfl⟩

/-- Settles O6: a step is a command or a millisecond, and each keeps every part of `Safe`. -/
theorem safeKeptByEveryStep : Obligations.SafeKeptByEveryStep := by
  intro s t hSafe hStep
  rcases step_cases hStep with ⟨i, rest, -, he⟩ | ⟨-, rfl⟩
  · exact (hSafe.setCommands rest s.cuts).exec i he
  · exact hSafe.tick

/-- Settles O1: the step takes the front command by its definition. -/
theorem stepRunsFrontCommand : Obligations.StepRunsFrontCommand := fun _ _ _ => rfl

/-! ### Groups do not overlap -/

theorem has8_memberMask (lab : Labels) (l : GroupId) (n : NodeId) :
    has8 (memberMask lab l) n.val = decide (lab[n] = l) := by
  have hStep : ∀ (ns : List NodeId) (m : BitVec 8),
      has8 (ns.foldl (fun m k => if lab[k] = l then m ||| bit8 k.val else m) m) n.val
        = (has8 m n.val || decide (n ∈ ns ∧ lab[n] = l)) := by
    intro ns
    induction ns with
    | nil => simp
    | cons k rest ih =>
      intro m
      rw [List.foldl_cons, ih]
      by_cases hk : lab[k] = l
      · rw [if_pos hk, has8_addLevel]
        by_cases hn : n = k
        · subst hn; simp [hk]
        · simp [hn]
      · rw [if_neg hk]
        by_cases hn : n = k
        · subst hn; simp [show ¬ lab[n.val] = l from hk]
        · simp [hn]
  rw [memberMask, hStep]
  simp [mem_allNodes, has8]

theorem tableAgrees.membersOf_of_leads {s : State} (h : tableAgrees s) {l : GroupId} (hl : (partition s.links)[l] = l) :
    membersOf s l = memberMask (partition s.links) l := by
  have hMap := h l
  rw [if_pos hl] at hMap
  unfold membersOf
  cases hg : s.groups[l] with
  | none => rw [hg] at hMap; cases hMap
  | some g => rw [hg] at hMap; exact Option.some.inj hMap

theorem tableAgrees.membersOf_of_not_leads {s : State} (h : tableAgrees s) {l : GroupId}
    (hl : (partition s.links)[l] ≠ l) : membersOf s l = 0 := by
  have hMap := h l
  rw [if_neg hl] at hMap
  unfold membersOf
  cases hg : s.groups[l] with
  | none => rfl
  | some g => rw [hg] at hMap; cases hMap

/-- Where the table agrees with the links, a node's group is the one its label names (R6). -/
theorem tableAgrees.has8_membersOf {s : State} (h : tableAgrees s) {l : GroupId} {n : NodeId}
    (hn : has8 (membersOf s l) n.val = true) : (partition s.links)[n] = l ∧ (partition s.links)[l] = l := by
  by_cases hl : (partition s.links)[l] = l
  · rw [h.membersOf_of_leads hl, has8_memberMask] at hn
    exact ⟨of_decide_eq_true hn, hl⟩
  · rw [h.membersOf_of_not_leads hl] at hn
    simp [has8] at hn

/-- A channel is wired into one group at most. -/
theorem Sound.wiredInto_unique {s : State} (h : Sound s) {c : Chan} {l m : GroupId}
    (hl : wiredInto s c (membersOf s l) = true) (hm : wiredInto s c (membersOf s m) = true) : l = m := by
  unfold wiredInto at hl hm
  split at hl
  · next n hn =>
    rw [hn] at hm
    exact (h.table.has8_membersOf hl).1.symm.trans (h.table.has8_membersOf hm).1
  · cases hl

/-- Settles O9: an attached channel is some group's injector, and it is wired into that group alone, so two attached
channels of one group are both its injector. -/
theorem oneAttachedPerGroup : Obligations.OneAttachedPerGroup := by
  intro s hSafe l c d hc hd hcAttached hdAttached
  have hOwn : ∀ e : Chan, wiredInto s e (membersOf s l) = true → s.seqs[e].coupling = .attached →
      injectorOf s l = some e := fun e he ha => by
    obtain ⟨m, hm⟩ := hSafe.sound.attached e ha
    rwa [hSafe.sound.wiredInto_unique he (hSafe.sound.injectors m e hm).1]
  have hInjects := hOwn c hc hcAttached
  exact ⟨Option.some.inj (hInjects.symm.trans (hOwn d hd hdAttached)), hInjects⟩

end Sys2Proof.Machine
end

section
/-! PROOFS. What the scheduler, a regroup and the order unit can do, as a chain of single acts: an invariant that every
act keeps is kept by all of them. -/

namespace Sys2Proof.Machine

/-! ### A completion's fields -/

@[simp] theorem completeSlot_intake (s : State) (n : SlotId) (final : SlotState) (reason : Byte) (kind : List Byte) :
    (s.completeSlot n final reason kind).intake = s.intake.filter fun o => o.slot ≠ n := by
  simp [State.completeSlot]

@[simp] theorem completeSlot_slots (s : State) (n : SlotId) (final : SlotState) (reason : Byte) (kind : List Byte) :
    (s.completeSlot n final reason kind).slots = upd s.slots n final := by
  simp [State.completeSlot]

@[simp] theorem completeSlot_seqs (s : State) (n : SlotId) (final : SlotState) (reason : Byte) (kind : List Byte) :
    (s.completeSlot n final reason kind).seqs = s.seqs := by
  simp [State.completeSlot]

@[simp] theorem completeSlot_safety (s : State) (n : SlotId) (final : SlotState) (reason : Byte) (kind : List Byte) :
    (s.completeSlot n final reason kind).safety = s.safety := by
  simp [State.completeSlot]

@[simp] theorem completeSlot_groups (s : State) (n : SlotId) (final : SlotState) (reason : Byte) (kind : List Byte) :
    (s.completeSlot n final reason kind).groups = s.groups := by
  simp [State.completeSlot]

/-! ### The acts -/

/-- One act of measuring: of a channel, of a group, of the scheduler's own fields, or of an order in one of the slots
`S`. -/
inductive Act (S : SlotId → Prop) : State → State → Prop
  | endRun (s : State) (c : Chan) : (s.seqs[c].run = .series ∨ s.seqs[c].run = .triple) →
      Act S s (s.setSeq c s.seqs[c].endRun)
  | dropRun (s : State) (c : Chan) : Act S s (s.dropRun c)
  | detach (s : State) (c : Chan) : s.seqs[c].coupling = .attached →
      Act S s ((s.setSeq c { s.seqs[c] with coupling := .detached }).setSafety c
        { s.safety[c] with verify := some Config.verifyTime })
  | setUp (s : State) (c : Chan) (kind : RunKind) (owner : Option SlotId) (copy : RunCopy) :
      kind = .selfcheck ∨ (∃ l : GroupId, injectorOf s l = some c) → Act S s (s.setSeq c (s.seqs[c].setUp kind owner copy))
  | begin (s : State) (c : Chan) (pol : Polarity) :
      s.seqs[c].phase = .waitAttach → s.seqs[c].coupling = .attached ∨ mayAttach s c = true →
      Act S s (s.setSeq c { s.seqs[c].beginHalf pol with coupling := .attached })
  | reference (s : State) (c : Chan) :
      s.seqs[c].run = .selfcheck → s.seqs[c].phase = .waitAttach → s.seqs[c].coupling = .detached →
      s.safety[c].verify = none →
      Act S s ((s.setSeq c (s.seqs[c].beginHalf .pos)).setSafety c { s.safety[c] with reference := true })
  | requestStop (s : State) (c : Chan) : Act S s (s.setSeq c { s.seqs[c] with stopRequest := true })
  | group (s : State) (l : GroupId) (f : Group → Group) : (∀ g, (f g).members = g.members) → Act S s (s.modGroup l f)
  | table (s : State) (fresh : Bool) : Act S s { s with groups := newGroups fresh (partition s.links) s.groups }
  | schedule (s : State) (mode : Mode) (pending : Bool) (park : ParkTimer) (rotation : List GroupId) :
      (mode = .safeStop ↔ s.mode = .safeStop) →
      Act S s { s with mode := mode, parkedPending := pending, park := park, rotation := rotation }
  | notice (s : State) : Act S s (s.raise 7)
  | slotByte (s : State) (n : SlotId) (k : Nat) (b : Byte) : S n → 0x12 ≤ k → k ≤ 0x14 → Act S s (s.poke (slotAddr n + k) b)
  | order (s : State) (n : SlotId) (f : Order → Order) : (∀ o, (f o).slot = o.slot) → (∀ o, (f o).job = o.job) →
      Act S s (s.modOrder n f)
  | refuse (s : State) (n : SlotId) (why : Reason) : S n → Act S s (s.refuseSlot n why)

/-- A chain of acts. -/
def Acts (S : SlotId → Prop) : State → State → Prop := Relation.ReflTransGen (Act S)

/-- The slots that an operation may touch are those of the intake list. -/
def Covers (S : SlotId → Prop) (s : State) : Prop := ∀ o ∈ s.intake, S o.slot

theorem Acts.refl {S : SlotId → Prop} (s : State) : Acts S s s := Relation.ReflTransGen.refl

theorem Acts.trans {S : SlotId → Prop} {s t u : State} (h : Acts S s t) (k : Acts S t u) : Acts S s u :=
  Relation.ReflTransGen.trans h k

theorem Act.acts {S : SlotId → Prop} {s t : State} (h : Act S s t) : Acts S s t := Relation.ReflTransGen.single h

/-- An invariant that every act keeps is kept by a chain of them. -/
theorem Acts.keeps {S : SlotId → Prop} {P : State → Prop} (hP : ∀ s t, Act S s t → P s → P t) {s t : State}
    (h : Acts S s t) (hs : P s) : P t := by
  induction h with
  | refl => exact hs
  | tail _ hAct ih => exact hP _ _ hAct ih

theorem Act.intake_slots {S : SlotId → Prop} {s t : State} (h : Act S s t) :
    (t.intake.map (·.slot)).Sublist (s.intake.map (·.slot)) := by
  cases h with
  | order n f hSlot hJob =>
    have hSame : (s.intake.map fun o => if o.slot = n then f o else o).map (·.slot) = s.intake.map (·.slot) := by
      rw [List.map_map]
      refine List.map_congr_left fun o _ => ?_
      dsimp only [Function.comp]
      split
      · exact hSlot o
      · rfl
    exact hSame ▸ List.Sublist.refl _
  | refuse n why =>
    rw [State.refuseSlot, completeSlot_intake]
    exact List.filter_sublist.map _
  | group l f => rw [State.modGroup_intake]
  | endRun => exact List.Sublist.refl _
  | dropRun => exact List.Sublist.refl _
  | detach => exact List.Sublist.refl _
  | setUp => exact List.Sublist.refl _
  | begin => exact List.Sublist.refl _
  | reference => exact List.Sublist.refl _
  | requestStop => exact List.Sublist.refl _
  | table => exact List.Sublist.refl _
  | schedule => exact List.Sublist.refl _
  | notice => exact List.Sublist.refl _
  | slotByte => exact List.Sublist.refl _

theorem Acts.intake_slots {S : SlotId → Prop} {s t : State} (h : Acts S s t) :
    (t.intake.map (·.slot)).Sublist (s.intake.map (·.slot)) := by
  induction h with
  | refl => exact List.Sublist.refl _
  | tail _ hAct ih => exact hAct.intake_slots.trans ih

theorem covers_iff {S : SlotId → Prop} {s : State} : Covers S s ↔ ∀ n ∈ s.intake.map (·.slot), S n :=
  List.forall_mem_map.symm

theorem Acts.covers {S : SlotId → Prop} {s t : State} (h : Acts S s t) (hs : Covers S s) : Covers S t :=
  covers_iff.mpr fun n hn => covers_iff.mp hs n (h.intake_slots.subset hn)

/-- Acts after acts, where the second operation asks for its slots to be covered. -/
theorem Acts.andThen {S : SlotId → Prop} {s t u : State} (h : Acts S s t) (hs : Covers S s)
    (k : Covers S t → Acts S t u) : Acts S s u := h.trans (k (h.covers hs))

theorem Acts.forEach {α : Type} {S : SlotId → Prop} (l : List α) (f : α → State → State) {s : State} (hs : Covers S s)
    (h : ∀ a ∈ l, ∀ t, Covers S t → Acts S t (f a t)) : Acts S s (Machine.forEach l f s) := by
  unfold Machine.forEach
  induction l generalizing s with
  | nil => exact Acts.refl s
  | cons a rest ih =>
    exact (h a List.mem_cons_self s hs).andThen hs fun ht => ih ht fun b hb => h b (List.mem_cons_of_mem _ hb)

/-! ### Channels -/

section
variable {S : SlotId → Prop}

theorem Acts.modGroup (s : State) (l : GroupId) (f : Group → Group) (hf : ∀ g, (f g).members = g.members) :
    Acts S s (s.modGroup l f) := (Act.group s l f hf).acts

theorem Acts.setSeries (s : State) (l : GroupId) (x : SeriesState) : Acts S s (s.setSeries l x) :=
  Acts.modGroup s l _ fun _ => rfl

theorem Acts.seriesOver (s : State) (l : GroupId) : Acts S s (s.seriesOver l) := Acts.modGroup s l _ fun _ => rfl

theorem Acts.setPark (s : State) (park : ParkTimer) : Acts S s { s with park := park } :=
  (Act.schedule s s.mode s.parkedPending park s.rotation Iff.rfl).acts

theorem Acts.setRotation (s : State) (rotation : List GroupId) : Acts S s { s with rotation := rotation } :=
  (Act.schedule s s.mode s.parkedPending s.park rotation Iff.rfl).acts

theorem Acts.abandonRun (s : State) (c : Chan) : Acts S s (s.abandonRun c) := by
  unfold State.abandonRun
  dsimp only
  split
  · next h => exact (Act.endRun s c h).acts
  · exact Acts.refl s

theorem abandonRun_coupling (s : State) (c d : Chan) : (s.abandonRun c).seqs[d].coupling = s.seqs[d].coupling := by
  by_cases h : c = d
  · subst h
    by_cases hRun : s.seqs[c].run = .series ∨ s.seqs[c].run = .triple
    · rw [show s.abandonRun c = s.setSeq c s.seqs[c].endRun from if_pos hRun, State.setSeq_seqs, upd_same,
        Seq.endRun_coupling]
    · rw [show s.abandonRun c = s from if_neg hRun]
  · rw [abandonRun_other s c d h]

@[simp] theorem abandonRun_safety (s : State) (c : Chan) : (s.abandonRun c).safety = s.safety := by
  unfold State.abandonRun
  dsimp only
  split <;> rfl

theorem Acts.detach (s : State) (c : Chan) : Acts S s (s.detach c) := by
  unfold State.detach
  split
  · next h =>
    refine (Acts.abandonRun s c).trans (Act.acts ?_)
    exact Act.detach (s.abandonRun c) c ((abandonRun_coupling s c c).trans h)
  · exact Acts.refl s

theorem Acts.stopChannel (s : State) (c : Chan) : Acts S s (s.stopChannel c) :=
  (Acts.abandonRun s c).trans (Acts.detach _ c)

theorem Acts.stopInjector (s : State) (l : GroupId) : Acts S s (s.stopInjector l) := by
  unfold State.stopInjector
  split
  · exact Acts.stopChannel s _
  · exact Acts.refl s

theorem Acts.tryAttach (s : State) (c : Chan) : Acts S s (s.tryAttach c) := by
  unfold State.tryAttach
  dsimp only
  split
  · next h => exact (Act.begin s c _ h.2.1 (.inr h.2.2)).acts
  · exact Acts.refl s

theorem Acts.tryReference (s : State) (c : Chan) : Acts S s (s.tryReference c) := by
  unfold State.tryReference
  dsimp only
  split
  · next h => exact (Act.reference s c h.1 h.2.1 h.2.2.1 h.2.2.2).acts
  · exact Acts.refl s

theorem Acts.clearRun (s : State) (c : Chan) : Acts S s (if s.seqs[c].run = .none then s else s.dropRun c) := by
  split
  · exact Acts.refl s
  · exact (Act.dropRun s c).acts

/-- A sequencer set twice has its last value. -/
@[simp] theorem setSeq_setSeq (s : State) (c : Chan) (q r : Seq) : (s.setSeq c q).setSeq c r = s.setSeq c r := by
  unfold State.setSeq upd
  simp

theorem Acts.startRun (s : State) (c : Chan) (kind : RunKind) (owner : Option SlotId) (copy : RunCopy)
    (hi : ∃ l : GroupId, injectorOf s l = some c) : Acts S s (s.startRun c kind owner copy) := by
  have hClear : Acts S s (if s.seqs[c].run = .none then s else s.dropRun c) := Acts.clearRun s c
  have hInjects : ∃ l, injectorOf (if s.seqs[c].run = .none then s else s.dropRun c) l = some c := by
    split
    · exact hi
    · exact hi
  unfold State.startRun
  dsimp only
  generalize (if s.seqs[c].run = .none then s else s.dropRun c) = u at hClear hInjects ⊢
  have hSet : Acts S u (u.setSeq c (u.seqs[c].setUp kind owner copy)) :=
    (Act.setUp u c kind owner copy (.inr hInjects)).acts
  refine hClear.trans ?_
  split
  · next hAttached =>
    have hBegin := Act.begin (S := S) (u.setSeq c (u.seqs[c].setUp kind owner copy)) c copy.plan.startPol (by simp)
      (.inl (by simpa using hAttached))
    refine hSet.trans (Act.acts ?_)
    rw [State.setSeq_seqs, upd_same, setSeq_setSeq] at hBegin
    have hSame : { (u.seqs[c].setUp kind owner copy).beginHalf copy.plan.startPol with coupling := .attached }
        = (u.seqs[c].setUp kind owner copy).beginHalf copy.plan.startPol := by
      conv_lhs => rw [← hAttached]
      rfl
    rw [hSame] at hBegin
    rw [← setSeq_setSeq u c (u.seqs[c].setUp kind owner copy)] at hBegin ⊢
    exact hBegin
  · exact hSet.trans (Acts.tryAttach _ c)

theorem Acts.silence (s : State) (c : Chan) : Acts S s (s.silence c) := (Act.dropRun s c).acts.trans (Acts.detach _ c)

/-! ### Slots and orders -/

theorem Acts.poke (s : State) (n : SlotId) (k : Nat) (b : Byte) (hn : S n) (h1 : 0x12 ≤ k) (h2 : k ≤ 0x14) :
    Acts S s (s.poke (slotAddr n + k) b) := (Act.slotByte s n k b hn h1 h2).acts

theorem Acts.setPhase (s : State) (n : SlotId) (ph : OrderPhase) (hn : S n) : Acts S s (s.setPhase n ph) :=
  (Act.order s n (fun o => { o with phase := ph }) (fun _ => rfl) fun _ => rfl).acts.trans
    (Acts.poke _ n 0x12 _ hn (by omega) (by omega))

theorem Acts.setOrderGroup (s : State) (n : SlotId) (l : GroupId) (hn : S n) : Acts S s (s.setOrderGroup n l) :=
  (Act.order s n (fun o => { o with group := l }) (fun _ => rfl) fun _ => rfl).acts.trans
    (Acts.poke _ n 0x13 _ hn (by omega) (by omega))

theorem Acts.refuseSlot (s : State) (n : SlotId) (why : Reason) (hn : S n) : Acts S s (s.refuseSlot n why) :=
  (Act.refuse s n why hn).acts

theorem Acts.freeMeasurement (s : State) (l : GroupId) : Acts S s (s.freeMeasurement l) := by
  unfold State.freeMeasurement
  split
  · exact Acts.refl s
  · exact Acts.setSeries s l _

theorem Acts.spotAbandoned (s : State) (o : Order) (hn : S o.slot) : Acts S s (s.spotAbandoned o) := by
  have hCount : Acts S s (((s.poke (slotAddr o.slot + 0x14) (byteOf (o.abandons + 1))).modOrder o.slot
      fun x => { x with abandons := o.abandons + 1 }).setSeries o.group .none) :=
    (Acts.poke s o.slot 0x14 _ hn (by omega) (by omega)).trans <|
      (Act.order _ o.slot (fun x => { x with abandons := o.abandons + 1 }) (fun _ => rfl) fun _ => rfl).acts.trans
        (Acts.setSeries _ _ _)
  unfold State.spotAbandoned
  dsimp only
  split
  · exact hCount.trans (Acts.setPhase _ _ _ hn)
  · exact hCount.trans (Acts.refuseSlot _ _ _ hn)

theorem Acts.abandonOwn (s : State) (l : GroupId) : Acts S s (s.abandonOwn l) := by
  have hOver : Acts S s ((s.stopInjector l).seriesOver l) := (Acts.stopInjector s l).trans (Acts.seriesOver _ l)
  unfold State.abandonOwn
  split
  · exact Acts.refl s
  · split
    · exact hOver
    · exact hOver
    · exact hOver.trans (Acts.setPark _ _)
    · exact Acts.refl s
    · exact Acts.refl s

theorem Acts.abandonGroup {s : State} (hs : Covers S s) (l : GroupId) : Acts S s (s.abandonGroup l) := by
  unfold State.abandonGroup
  dsimp only
  split
  · next o ho =>
    have hSlot := (Acts.abandonOwn s l).covers hs o (List.mem_of_find?_eq_some ho)
    exact (Acts.abandonOwn s l).trans ((Acts.stopInjector _ l).trans (Acts.spotAbandoned _ _ hSlot))
  · exact Acts.abandonOwn s l

theorem Acts.placeInFlight {s : State} (hs : Covers S s) : Acts S s s.placeInFlight :=
  Acts.forEach s.intake _ hs fun o ho t _ => by
    split
    · exact Acts.refl t
    · exact Acts.setOrderGroup t _ _ (hs o ho)

theorem Acts.placeWaiting {s : State} (hs : Covers S s) : Acts S s s.placeWaiting :=
  Acts.forEach s.intake _ hs fun o ho t _ => by
    split
    · split
      · exact Acts.setOrderGroup t _ _ (hs o ho)
      · split
        · exact Acts.setOrderGroup t _ _ (hs o ho)
        · exact Acts.refuseSlot t _ _ (hs o ho)
    · exact Acts.refl t

/-! ### A regroup -/

theorem Acts.startSettle (s : State) (l : GroupId) : Acts S s (s.startSettle l) := by
  unfold State.startSettle
  split
  · exact Acts.modGroup s l _ fun _ => rfl
  · split
    · exact Acts.modGroup s l _ fun _ => rfl
    · exact Acts.modGroup s l _ fun _ => rfl

theorem Acts.settleAfter (s : State) (l : GroupId) (formed changed : Bool) : Acts S s (s.settleAfter l formed changed) := by
  unfold State.settleAfter
  split
  · exact Acts.refl s
  · split
    · exact Acts.modGroup s l _ fun _ => rfl
    · split
      · exact (Acts.abandonOwn s l).trans (Acts.startSettle _ l)
      · split
        · exact Acts.startSettle s l
        · exact Acts.refl s

theorem Acts.evaluateGroup {s : State} (hs : Covers S s) (formed : Bool) (l : GroupId) :
    Acts S s (s.evaluateGroup formed l) := by
  unfold State.evaluateGroup
  split
  · exact Acts.refl s
  · next g _ =>
    dsimp only
    refine Acts.trans ?_ (Acts.settleAfter _ l _ _)
    refine Acts.trans ?_ (Acts.modGroup _ l _ fun _ => rfl)
    split
    · exact Acts.abandonGroup hs l
    · exact Acts.refl s

theorem Acts.inheritCheck (s : State) (l : GroupId) : Acts S s (s.inheritCheck l) := by
  unfold State.inheritCheck
  split
  · exact Acts.setSeries s l _
  · exact Acts.refl s

theorem Acts.detachOthers {s : State} (hs : Covers S s) : Acts S s s.detachOthers :=
  Acts.forEach allChans _ hs fun c _ t _ => by
    split
    · exact Acts.detach t c
    · exact Acts.refl t

theorem abandonChanged_links (s : State) (fresh : Bool) (lab : Labels) : (s.abandonChanged fresh lab).links = s.links :=
  (Measuring.abandonChanged fresh lab s).links_eq

theorem Acts.formGroups {s : State} (hs : Covers S s) (fresh : Bool) : Acts S s (s.formGroups fresh) := by
  have hAbandon : Acts S s (s.abandonChanged fresh (partition s.links)) :=
    Acts.forEach _ _ hs fun l _ _ ht => Acts.abandonGroup ht l
  refine hAbandon.trans (Act.acts ?_)
  unfold State.formGroups
  dsimp only
  have hTable := Act.table (S := S) (s.abandonChanged fresh (partition s.links)) fresh
  rwa [show partition (s.abandonChanged fresh (partition s.links)).links = partition s.links by
    rw [abandonChanged_links]] at hTable

theorem Acts.evaluateAll {s : State} (hs : Covers S s) (keeps : GroupId → Bool) : Acts S s (s.evaluateAll keeps) := by
  unfold State.evaluateAll
  refine Acts.andThen ?_ hs fun ht => Acts.detachOthers ht
  refine Acts.andThen ?_ hs fun ht => Acts.forEach _ _ ht fun l _ _ hu => Acts.evaluateGroup hu _ l
  exact (Acts.placeInFlight hs).andThen hs fun ht => Acts.forEach _ _ ht fun l _ u _ => Acts.inheritCheck u l

theorem Acts.regroupCore {s : State} (hs : Covers S s) (fresh : Bool) : Acts S s (s.regroupCore fresh) := by
  unfold State.regroupCore
  dsimp only
  generalize keepsGroup fresh (partition s.links) s.groups = keeps
  refine Acts.andThen ?_ hs fun ht => Acts.placeWaiting ht
  have hAll : Acts S s ((s.formGroups fresh).evaluateAll keeps) :=
    (Acts.formGroups hs fresh).andThen hs fun ht => Acts.evaluateAll ht keeps
  have hOrder : Acts S s (((s.formGroups fresh).evaluateAll keeps).reorderRotation keeps) := by
    refine hAll.trans ?_
    unfold State.reorderRotation
    split
    · exact Acts.setRotation _ _
    · exact Acts.refl _
  refine hOrder.trans ?_
  unfold State.noticeTable
  split
  · exact (Act.notice _).acts
  · exact Acts.refl _

/-! ### The scheduler -/

theorem Acts.requestStop (s : State) (l : GroupId) : Acts S s (s.requestStop l) := by
  unfold State.requestStop
  split
  · exact Acts.refl s
  · split
    · exact Acts.refl s
    · next c _ =>
      split
      · split
        · exact (Acts.abandonRun s c).trans (Acts.seriesOver _ l)
        · exact (Act.requestStop s c).acts.trans (Acts.setSeries _ l _)
      · exact Acts.refl s

theorem Acts.detachInjector (s : State) (l : GroupId) : Acts S s (s.detachInjector l) := by
  unfold State.detachInjector
  split
  · split
    · exact Acts.detach s _
    · exact Acts.refl s
  · exact Acts.refl s

theorem Acts.detachIdle {s : State} (hs : Covers S s) : Acts S s s.detachIdle :=
  Acts.forEach allChans _ hs fun c _ t _ => by
    split
    · exact Acts.detach t c
    · exact Acts.refl t

theorem Acts.refuseDispatch (s : State) (o : Order) (why : Reason) (hn : S o.slot) : Acts S s (s.refuseDispatch o why) :=
  (Acts.refuseSlot s o.slot why hn).trans ((Acts.setSeries _ _ _).trans (Acts.detachInjector _ _))

theorem Acts.countSeries (s : State) (l : GroupId) : Acts S s (s.countSeries l) := Acts.modGroup s l _ fun _ => rfl

theorem injectorOf_modGroup_same (s : State) (l m : GroupId) (f : Group → Group) (hf : ∀ g, (f g).injector = g.injector) :
    injectorOf (s.modGroup l f) m = injectorOf s m := by
  unfold injectorOf
  rw [modGroup_get]
  by_cases h : l = m
  · rw [if_pos h]
    cases s.groups[m] with
    | none => rfl
    | some g => exact hf g
  · rw [if_neg h]

theorem injectorOf_eq_some {s : State} {l : GroupId} {g : Group} {c : Chan} (hg : s.groups[l] = some g)
    (hc : g.injector = some c) : injectorOf s l = some c := by
  unfold injectorOf
  rw [hg]
  exact hc

theorem Acts.startSpot (s : State) (o : Order) (plan : PlanId) (hn : S o.slot) : Acts S s (s.startSpot o plan) := by
  unfold State.startSpot
  split
  · next g hg =>
    split
    · next c hc =>
      refine (Acts.setPhase s o.slot .running hn).trans ((Acts.countSeries _ o.group).trans (Acts.startRun _ c _ _ _ ?_))
      exact ⟨o.group, (injectorOf_modGroup_same (s.setPhase o.slot .running) _ _
        (fun g => { g with seriesCount := g.seriesCount + 1 }) fun _ => rfl).trans
        (injectorOf_eq_some hg hc)⟩
    · exact Acts.refuseDispatch s o _ hn
  · exact Acts.refuseDispatch s o _ hn

theorem Acts.startCheck {s : State} (hs : Covers S s) (o : Order) (c : Chan) (hn : S o.slot) :
    Acts S s (s.startCheck o c) := by
  unfold State.startCheck
  dsimp only
  have hClear : Acts S s (if s.seqs[c].run = .none then s else s.dropRun c) := Acts.clearRun s c
  generalize (if s.seqs[c].run = .none then s else s.dropRun c) = u at hClear ⊢
  refine Acts.trans ?_ (Acts.tryReference _ c)
  refine Acts.trans ?_ (Acts.detach _ c)
  refine Acts.andThen ?_ hs fun ht => Acts.regroupCore ht false
  exact hClear.trans ((Acts.setPhase u _ _ hn).trans (Act.setUp _ c _ _ _ (.inl rfl)).acts)

theorem Acts.grant {s : State} (hs : Covers S s) (o : Order) (hn : S o.slot) : Acts S s (s.grant o) := by
  unfold State.grant
  dsimp only
  refine (Acts.setSeries s o.group .order).andThen hs fun ht => ?_
  split
  · split
    · exact Acts.refuseDispatch _ o _ hn
    · exact Acts.startSpot _ o _ hn
  · split
    · exact Acts.refuseDispatch _ o _ hn
    · exact Acts.startCheck ht o _ hn

theorem Acts.startOwn (s : State) (l : GroupId) (state : SeriesState) (kind : RunKind) :
    Acts S s (s.startOwn l state kind) := by
  unfold State.startOwn
  split
  · next g p hg _ =>
    split
    · next c hc =>
      have hDetach : Acts S (s.setOwn l state p) ((s.setOwn l state p).detachForTurn c kind) := by
        unfold State.detachForTurn
        split
        · exact Acts.detach _ c
        · exact Acts.refl _
      have hTabled := Tabled.trans (Tabled.modGroup s l (fun g => { g with
        series := state, policy := s.plans[p].policy, rotateCount := s.plans[p].rotate, rotation := 0 }) (fun _ => rfl)
        fun _ => rfl) ((show Tabled (s.setOwn l state p) ((s.setOwn l state p).detachForTurn c kind) by
          unfold State.detachForTurn
          split
          · exact Tabled.detach _ c
          · exact Tabled.refl _).trans (Tabled.modGroup _ l (fun g => { g with seriesCount := g.seriesCount + 1 })
            (fun _ => rfl) fun _ => rfl))
      refine Acts.trans ?_ (Acts.startRun _ c _ _ _ ⟨l, ?_⟩)
      · have hOwn : Acts S s (s.setOwn l state p) := Acts.modGroup s l _ fun _ => rfl
        exact hOwn.trans (hDetach.trans (Acts.countSeries _ l))
      · exact (hTabled.injector l).trans (injectorOf_eq_some hg hc)
    · exact Acts.refl s
  · exact Acts.refl s

theorem Acts.scheduleOne {s t : State} (hs : Covers S s) (h : scheduleOne s = some t) : Acts S s t := by
  unfold Machine.scheduleOne at h
  split at h
  · next o ho =>
    cases h
    exact Acts.grant hs o (hs o (List.mem_of_find?_eq_some ho))
  · split at h
    · split at h
      · obtain ⟨l, -, rfl⟩ := Option.map_eq_some_iff.mp h
        exact (Acts.startOwn s l .turn .triple).trans (Acts.setPark _ _)
      · cases h
    · obtain ⟨l, -, rfl⟩ := Option.map_eq_some_iff.mp h
      exact Acts.startOwn s l _ _
    · cases h
    · cases h

theorem Acts.requestStops {s : State} (hs : Covers S s) :
    Acts S s (Machine.forEach allNodes (fun l t => t.requestStop l) s) :=
  Acts.forEach _ _ hs fun l _ t _ => Acts.requestStop t l

theorem Acts.scheduleAll : ∀ (n : Nat) {s : State}, Covers S s → Acts S s (scheduleAll n s)
  | 0, s, _ => Acts.refl s
  | n + 1, s, hs => by
    unfold Machine.scheduleAll
    dsimp only
    refine (Acts.requestStops hs).andThen hs fun ht => ?_
    generalize Machine.forEach allNodes (fun l t => t.requestStop l) s = t at ht ⊢
    cases hu : Machine.scheduleOne t with
    | none => exact Acts.refl t
    | some u => exact (Acts.scheduleOne ht hu).andThen ht fun hv => Acts.scheduleAll n hv

theorem Acts.schedule {s : State} (hs : Covers S s) : Acts S s s.schedule :=
  (Acts.scheduleAll scheduleFuel hs).andThen hs fun ht => Acts.detachIdle ht

theorem Acts.changeMode {s : State} (hs : Covers S s) (m : Mode) (hm : m = .safeStop ↔ s.mode = .safeStop) :
    Acts S s (s.changeMode m) := by
  have hAbandon : Acts S s (Machine.forEach allNodes (fun l t => t.abandonOwn l) s) :=
    Acts.forEach _ _ hs fun l _ t _ => Acts.abandonOwn t l
  have hMode : (Machine.forEach allNodes (fun l t => t.abandonOwn l) s).mode = .safeStop ↔ s.mode = .safeStop :=
    (Working.abandonAll s).measuring.mode
  have hMode := hm.trans hMode.symm
  unfold State.changeMode
  dsimp only
  generalize Machine.forEach allNodes (fun l t => t.abandonOwn l) s = u at hAbandon hMode ⊢
  refine hAbandon.trans (Act.acts ?_)
  by_cases hPark : m = .parked
  · rw [if_pos hPark]
    exact Act.schedule u m false .due (allNodes.filter fun l => u.groups[l].isSome) hMode
  · rw [if_neg hPark]
    exact Act.schedule u m false .stopped [] hMode

theorem Acts.recount {s : State} (hs : Covers S s) : Acts S s s.recount := by
  unfold State.recount
  split
  · next h => exact Acts.changeMode hs .parked (by simp [h.2.1])
  · exact Acts.refl s

theorem Acts.regroupFrom {s : State} (hs : Covers S s) (running : Nat) (fresh : Bool) :
    Acts S s (s.regroupFrom running fresh) := by
  unfold State.regroupFrom
  dsimp only
  refine (Acts.regroupCore hs fresh).andThen hs fun ht => ?_
  generalize s.regroupCore fresh = t at ht ⊢
  refine Acts.andThen ?_ ht fun hu => Acts.schedule hu
  split
  · exact Acts.recount ht
  · exact Acts.refl t

theorem Acts.regroup {s : State} (hs : Covers S s) : Acts S s s.regroup := Acts.regroupFrom hs _ false

/-! ### Edges -/

theorem Acts.rotate (s : State) (l : GroupId) : Acts S s (s.rotate l) := by
  unfold State.rotate
  split
  · exact Acts.refl s
  · split
    · exact Acts.refl s
    · next g _ _ c _ =>
      dsimp only
      split
      · exact Acts.refl s
      · have hMove : Acts S (s.stopChannel c) ((s.stopChannel c).moveInjector l (nextInjector s g c)) :=
          Acts.modGroup _ l _ fun _ => rfl
        exact (Acts.stopChannel s c).trans (hMove.trans (Acts.startSettle _ l))

theorem Acts.seriesEdge {s : State} (hs : Covers S s) (l : GroupId) (handed stopped : Bool) :
    Acts S s (s.seriesEdge l handed stopped) := by
  unfold State.seriesEdge
  split
  · exact Acts.refl s
  · next g _ =>
    dsimp only
    have hCount : Acts S s (s.countEdge l g handed stopped) := by
      unfold State.countEdge
      split
      · exact Acts.seriesOver s l
      · exact Acts.modGroup s l _ fun _ => rfl
    have hRotate : Acts S s ((s.countEdge l g handed stopped).rotateDue l (rotationDue g handed)) := by
      refine hCount.trans ?_
      unfold State.rotateDue
      split
      · exact (Acts.rotate _ l).trans (Acts.modGroup _ l _ fun _ => rfl)
      · exact Acts.refl _
    have hDetach : Acts S s (((s.countEdge l g handed stopped).rotateDue l (rotationDue g handed)).detachUnclaimed l
        stopped) := by
      refine hRotate.trans ?_
      unfold State.detachUnclaimed
      split
      · exact Acts.detachInjector _ l
      · exact Acts.refl _
    split
    · exact hDetach.andThen hs fun ht => Acts.schedule ht
    · exact hDetach

theorem Acts.turnDone {s : State} (hs : Covers S s) (c : Chan) (l : GroupId) : Acts S s (s.turnDone c l) := by
  unfold State.turnDone
  dsimp only
  refine Acts.andThen ?_ hs fun ht => Acts.schedule ht
  refine ((Acts.setSeries s l .none).trans (Acts.detach _ c)).trans ?_
  generalize (s.setSeries l .none).detach c = u
  have hTurn : Acts S u (u.rotateTurn l) := by
    unfold State.rotateTurn
    split
    · split
      · exact Acts.rotate u l
      · exact Acts.refl u
    · exact Acts.refl u
  exact hTurn.trans (Act.schedule _ _ _ _ _ Iff.rfl).acts

theorem Acts.orderRunDone {s : State} (hs : Covers S s) (n : SlotId) : Acts S s (s.orderRunDone n) := by
  unfold State.orderRunDone
  split
  · next o ho =>
    have hSlot : S n := by
      have hFound := List.find?_some ho
      rw [Bool.and_eq_true] at hFound
      exact of_decide_eq_true hFound.1 ▸ hs o (List.mem_of_find?_eq_some ho)
    refine ((Acts.setPhase s n .finishing hSlot).trans (Acts.freeMeasurement _ o.group)).andThen hs fun ht => ?_
    exact (Acts.recount ht).andThen ht fun hu => Acts.schedule hu
  · exact Acts.schedule hs

/-! ### Self-checks and disconnects -/

theorem Acts.refuseTaken {s : State} (hs : ∀ n : SlotId, s.slots[n] = .taken → S n) (why : Reason) :
    Acts S s (s.refuseTaken why) := by
  have hEach : ∀ (ns : List SlotId) (t : State), (∀ n : SlotId, t.slots[n] = .taken → S n) →
      Acts S t (Machine.forEach ns (fun n u => if u.slots[n] = .taken then u.refuseSlot n why else u) t) := by
    intro ns
    induction ns with
    | nil => exact fun t _ => Acts.refl t
    | cons n rest ih =>
      intro t ht
      refine Acts.trans ?_ (ih (if t.slots[n] = .taken then t.refuseSlot n why else t) fun m hm => ?_)
      · show Acts S t (if t.slots[n] = .taken then t.refuseSlot n why else t)
        split
        · next h => exact Acts.refuseSlot t n why (ht n h)
        · exact Acts.refl t
      · by_cases hTaken : t.slots[n] = .taken
        · rw [if_pos hTaken, State.refuseSlot, completeSlot_slots] at hm
          by_cases h : n = m
          · exact h ▸ ht n hTaken
          · exact ht m ((upd_other _ _ _ _ h).symm.trans hm)
        · rw [if_neg hTaken] at hm
          exact ht m hm
  exact hEach allNodes s hs

end

end Sys2Proof.Machine
end

section
/-! PROOFS. What every command but hard reset keeps: the queue, the memory's canonical form, the limits of the working
copies, and SAFE_STOP. -/

namespace Sys2Proof.Machine

/-! ### The relations -/

/-- The queue stands, and the memory's form and the limits are kept. -/
structure Keeps (s t : State) : Prop where
  queue : t.pending = s.pending
  canonical : s.mem.wf = true → t.mem.wf = true
  limits : withinLimits s → withinLimits t

/-- `Keeps`, and SAFE_STOP stays with its cause, its channel and the mode request. -/
structure Steady (s t : State) : Prop extends Keeps s t where
  stop : s.mode = .safeStop →
    t.mode = .safeStop ∧ t.cause = s.cause ∧ t.causeChan = s.causeChan ∧ t.request = s.request

theorem Keeps.refl (s : State) : Keeps s s := ⟨rfl, id, id⟩

theorem Keeps.trans {s t u : State} (h : Keeps s t) (k : Keeps t u) : Keeps s u :=
  ⟨k.queue.trans h.queue, k.canonical ∘ h.canonical, k.limits ∘ h.limits⟩

theorem Steady.refl (s : State) : Steady s s := ⟨Keeps.refl s, fun h => ⟨h, rfl, rfl, rfl⟩⟩

theorem Steady.trans {s t u : State} (h : Steady s t) (k : Steady t u) : Steady s u :=
  ⟨h.toKeeps.trans k.toKeeps, fun hs => by
    obtain ⟨hm, hc, hcc, hr⟩ := h.stop hs
    obtain ⟨km, kc, kcc, kr⟩ := k.stop hm
    exact ⟨km, kc.trans hc, kcc.trans hcc, kr.trans hr⟩⟩

theorem Keeps.forEach {α : Type} (l : List α) (f : α → State → State) (s : State)
    (h : ∀ a ∈ l, ∀ t, Keeps t (f a t)) : Keeps s (Machine.forEach l f s) := by
  unfold Machine.forEach
  induction l generalizing s with
  | nil => exact Keeps.refl s
  | cons a rest ih => exact (h a List.mem_cons_self s).trans (ih _ fun b hb => h b (List.mem_cons_of_mem _ hb))

theorem Steady.forEach {α : Type} (l : List α) (f : α → State → State) (s : State)
    (h : ∀ a ∈ l, ∀ t, Steady t (f a t)) : Steady s (Machine.forEach l f s) := by
  unfold Machine.forEach
  induction l generalizing s with
  | nil => exact Steady.refl s
  | cons a rest ih => exact (h a List.mem_cons_self s).trans (ih _ fun b hb => h b (List.mem_cons_of_mem _ hb))

/-- Outside SAFE_STOP nothing of it has to stay. -/
theorem Keeps.steady {s t : State} (h : Keeps s t) (hm : s.mode ≠ .safeStop) : Steady s t := ⟨h, fun hs => absurd hs hm⟩

/-- What leaves the plans, the calibration copies and the histories' lengths keeps the limits. -/
theorem Keeps.of_frame {s t : State} (queue : t.pending = s.pending) (canonical : s.mem.wf = true → t.mem.wf = true)
    (plans : t.plans = s.plans) (wiring : t.wiring = s.wiring)
    (history : ∀ c : Chan, s.seqs[c].history.length ≤ 3 → t.seqs[c].history.length ≤ 3) : Keeps s t where
  queue := queue
  canonical := canonical
  limits := fun h => ⟨plans ▸ h.1, wiring ▸ h.2.1, fun c => history c (h.2.2 c)⟩

theorem Steady.of_frame {s t : State} (queue : t.pending = s.pending) (canonical : s.mem.wf = true → t.mem.wf = true)
    (plans : t.plans = s.plans) (wiring : t.wiring = s.wiring)
    (history : ∀ c : Chan, s.seqs[c].history.length ≤ 3 → t.seqs[c].history.length ≤ 3)
    (mode : t.mode = .safeStop ↔ s.mode = .safeStop) (cause : t.cause = s.cause) (chan : t.causeChan = s.causeChan)
    (request : t.request = s.request) : Steady s t :=
  ⟨Keeps.of_frame queue canonical plans wiring history, fun h => ⟨mode.mpr h, cause, chan, request⟩⟩

/-- Measuring is steady where the histories stay short. -/
theorem Steady.of_measuring {s t : State} (m : Measuring s t)
    (history : ∀ c : Chan, s.seqs[c].history.length ≤ 3 → t.seqs[c].history.length ≤ 3) : Steady s t :=
  Steady.of_frame m.pending_eq m.canonical m.plans_eq m.wiring_eq history m.mode m.cause_eq m.causeChan_eq m.request_eq

theorem Steady.of_recording {s t : State} (r : Recording s t) : Steady s t := by
  have field {α : Type} (g : State → α) (hg : ∀ u : State, g u.nodeFixed = g u) : g t = g s := by
    rw [← hg t, ← hg s, r.fixed]
  refine Steady.of_frame (field (·.pending) fun _ => rfl) r.canonical (field (·.plans) fun _ => rfl) r.wiring_eq ?_ ?_
    (field (·.cause) fun _ => rfl) (field (·.causeChan) fun _ => rfl) (field (·.request) fun _ => rfl)
  · rw [r.seqs_eq]
    exact fun _ => id
  · rw [r.mode_eq]

theorem Steady.of_writing {s t : State} (w : Writing s t) : Steady s t := by
  have field {α : Type} (g : State → α) (hg : ∀ u : State, g u.writeFixed = g u) : g t = g s := by
    rw [← hg t, ← hg s, w.fixed]
  refine Steady.of_frame (field (·.pending) fun _ => rfl) w.canonical (field (·.plans) fun _ => rfl)
    (field (·.wiring) fun _ => rfl) ?_ ?_ (field (·.cause) fun _ => rfl) (field (·.causeChan) fun _ => rfl)
    (field (·.request) fun _ => rfl)
  · rw [field (·.seqs) fun _ => rfl]
    exact fun _ => id
  · rw [field (·.mode) fun _ => rfl]

theorem Steady.of_reading {s t : State} (r : Reading s t) : Steady s t := by
  have field {α : Type} (g : State → α) (hg : ∀ u : State, g u.readFixed = g u) : g t = g s := by
    rw [← hg t, ← hg s, r.fixed]
  refine Steady.of_frame (field (·.pending) fun _ => rfl) r.canonical (field (·.plans) fun _ => rfl)
    (field (·.wiring) fun _ => rfl) (fun c => ?_) ?_ (field (·.cause) fun _ => rfl) (field (·.causeChan) fun _ => rfl)
    (field (·.request) fun _ => rfl)
  · rw [field (fun u => u.seqs[c].history) fun u => by simp [State.readFixed]]
    exact id
  · rw [field (·.mode) fun _ => rfl]

theorem Steady.setSeq (s : State) (c : Chan) (q : Seq) (h : s.seqs[c].history.length ≤ 3 → q.history.length ≤ 3) :
    Steady s (s.setSeq c q) := by
  refine Steady.of_frame rfl id rfl rfl (fun d => ?_) Iff.rfl rfl rfl rfl
  rw [State.setSeq_seqs]
  by_cases hcd : c = d
  · subst hcd
    rwa [upd_same]
  · rw [upd_other _ _ _ _ hcd]
    exact id

theorem Steady.setSafety (s : State) (c : Chan) (x : ChanSafety) : Steady s (s.setSafety c x) :=
  Steady.of_frame rfl id rfl rfl (fun _ => id) Iff.rfl rfl rfl rfl

theorem Steady.setSlot (s : State) (n : SlotId) (x : SlotState) : Steady s (s.setSlot n x) :=
  Steady.of_frame rfl id rfl rfl (fun _ => id) Iff.rfl rfl rfl rfl

theorem Steady.poke (s : State) (a : Nat) (b : Byte) : Steady s (s.poke a b) :=
  Steady.of_frame rfl (Memory.wf_write s.mem a b) rfl rfl (fun _ => id) Iff.rfl rfl rfl rfl

theorem Steady.pokes (s : State) (a : Nat) (bs : List Byte) : Steady s (s.pokes a bs) :=
  Steady.of_frame rfl (Memory.wf_writeBytes bs s.mem a) rfl rfl (fun _ => id) Iff.rfl rfl rfl rfl

theorem Steady.raise (s : State) (n : Nat) : Steady s (s.raise n) :=
  Steady.of_frame rfl id rfl rfl (fun _ => id) Iff.rfl rfl rfl rfl

theorem Steady.failVerify (s : State) (c : Chan) : Steady s (s.failVerify c) :=
  Steady.of_frame rfl id rfl rfl (fun _ => id) Iff.rfl rfl rfl rfl

theorem Steady.newsChanSafety (s : State) (n : Nat) : Steady s (s.newsChanSafety n) :=
  Steady.of_frame rfl id rfl rfl (fun _ => id) Iff.rfl rfl rfl rfl

theorem Steady.handTriple (s : State) (t : Option Triple) : Steady s (s.handTriple t) := by
  unfold State.handTriple
  split
  · exact Steady.of_frame rfl id rfl rfl (fun _ => id) Iff.rfl rfl rfl rfl
  · exact Steady.refl s

theorem Steady.modGroup (s : State) (l : GroupId) (f : Group → Group) : Steady s (s.modGroup l f) :=
  Steady.of_measuring (Measuring.modGroup s l f) fun c => by
    rw [State.modGroup_seqs]
    exact id

theorem Steady.completeSlot (s : State) (n : SlotId) (final : SlotState) (reason : Byte) (kind : List Byte) :
    Steady s (s.completeSlot n final reason kind) :=
  Steady.of_measuring (Measuring.completeSlot s n final reason kind) fun c => by
    rw [completeSlot_seqs]
    exact id

theorem Steady.dropRun (s : State) (c : Chan) : Steady s (s.dropRun c) :=
  (Steady.setSeq s c s.seqs[c].endRun fun _ => by simp).trans (Steady.setSafety _ c _)

theorem Act.steady {S : SlotId → Prop} {s t : State} (h : Act S s t) : Steady s t := by
  cases h with
  | endRun c => exact Steady.setSeq s c _ fun _ => by simp
  | dropRun c => exact Steady.dropRun s c
  | detach c => exact (Steady.setSeq s c _ (by exact id)).trans (Steady.setSafety _ c _)
  | setUp c => exact Steady.setSeq s c _ fun _ => by simp
  | begin c => exact Steady.setSeq s c _ (by exact id)
  | reference c => exact (Steady.setSeq s c _ (by exact id)).trans (Steady.setSafety _ c _)
  | requestStop c => exact Steady.setSeq s c _ (by exact id)
  | group l f => exact Steady.modGroup s l f
  | table => exact Steady.of_frame rfl id rfl rfl (fun _ => id) Iff.rfl rfl rfl rfl
  | schedule mode pending park rotation hm => exact Steady.of_frame rfl id rfl rfl (fun _ => id) hm rfl rfl rfl
  | notice => exact Steady.raise s 7
  | slotByte n k b => exact Steady.poke s _ b
  | order n f => exact Steady.of_frame rfl id rfl rfl (fun _ => id) Iff.rfl rfl rfl rfl
  | refuse n why => exact Steady.completeSlot s n _ _ _

theorem Acts.steady {S : SlotId → Prop} {s t : State} (h : Acts S s t) : Steady s t := by
  induction h with
  | refl => exact Steady.refl s
  | tail _ hAct ih => exact ih.trans hAct.steady

/-- The acts of an operation that may touch any slot. -/
theorem covers_all (s : State) : Covers (fun _ => True) s := fun _ _ => trivial

theorem Steady.regroupFrom (s : State) (running : Nat) (fresh : Bool) : Steady s (s.regroupFrom running fresh) :=
  (Acts.regroupFrom (covers_all s) running fresh).steady

theorem Steady.regroup (s : State) : Steady s s.regroup := Steady.regroupFrom s _ false

theorem Steady.schedule (s : State) : Steady s s.schedule := (Acts.schedule (covers_all s)).steady

theorem Steady.recount (s : State) : Steady s s.recount := (Acts.recount (covers_all s)).steady

/-! ### Edges -/

theorem appendPlateau_length (h : List Plateau) (p : Plateau) : (appendPlateau h p).length ≤ 3 := by
  unfold appendPlateau
  rw [List.length_drop, List.length_append, List.length_singleton]
  omega

theorem Steady.edge (s : State) (c : Chan) (flag : Option Cond) (settleTime : Nat) :
    Steady s (s.edge c flag settleTime) := by
  unfold State.edge
  dsimp only
  generalize hPlateau : s.seqs[c].plateau flag settleTime = p
  have hHand := Steady.handTriple s (tripleOf s c s.seqs[c] (appendPlateau s.seqs[c].history p))
  generalize s.handTriple (tripleOf s c s.seqs[c] (appendPlateau s.seqs[c].history p)) = u at hHand ⊢
  have hEnd : Steady s (u.setSeq c s.seqs[c].endRun) := hHand.trans (Steady.setSeq u c _ fun _ => by simp)
  have hNext (k : Nat) : Steady s (u.setSeq c { s.seqs[c].beginHalf s.seqs[c].polarity.flip with
      history := appendPlateau s.seqs[c].history p, half := k }) :=
    hHand.trans (Steady.setSeq u c _ fun _ => appendPlateau_length _ _)
  have hSchedule {t : State} (h : Steady s t) : Steady s t.schedule := h.trans (Steady.schedule t)
  have hOrder {t : State} (h : Steady s t) (n : SlotId) : Steady s (t.orderRunDone n) :=
    h.trans (Acts.orderRunDone (covers_all t) n).steady
  split
  · exact Steady.refl s
  · have hEither (b : Bool) (q : Seq) (hq : Steady s (u.setSeq c q)) :
        Steady s (u.setSeq c (if b then s.seqs[c].endRun else q)) := by
      cases b
      · exact hq
      · exact hEnd
    split
    · exact (hEither _ _ (hNext _)).trans (Acts.seriesEdge (covers_all _) _ _ _).steady
    · exact hEither _ _ (hNext _)
  · split
    · exact hNext _
    · split
      · exact hOrder hEnd _
      · split
        · exact hEnd.trans (Acts.turnDone (covers_all _) c _).steady
        · exact hSchedule hEnd
  · have hOpen : Steady s ((u.setSeq c s.seqs[c].endRun).openReference c) := hEnd.trans (Steady.setSafety _ c _)
    split
    · exact hNext _
    · split
      · exact hOrder hOpen _
      · exact hSchedule hOpen

theorem Steady.windowEnd (s : State) (c : Chan) : Steady s (s.windowEnd c) := by
  unfold State.windowEnd
  dsimp only
  split
  · split
    · split
      · exact (Steady.setSeq s c { s.seqs[c].closeWindow with ready := some s.seqs[c].closeWindow.elapsed } id).trans
          (Steady.edge _ c none _)
      · exact Steady.setSeq s c _ (by exact id)
    · exact Steady.setSeq s c _ (by exact id)
  · exact Steady.refl s

theorem Steady.halfMax (s : State) (c : Chan) : Steady s (s.halfMax c) := by
  unfold State.halfMax
  dsimp only
  split
  · split
    · exact Steady.edge s c _ _
    · exact Steady.edge s c _ _
  · exact Steady.refl s

theorem Steady.selfcheckHalfEnd (s : State) (c : Chan) : Steady s (s.selfcheckHalfEnd c) := by
  unfold State.selfcheckHalfEnd
  dsimp only
  split
  · exact Steady.edge s c _ _
  · exact Steady.refl s

theorem Steady.endWait (s : State) (c : Chan) (flag : Option Cond) : Steady s (s.endWait c flag) := by
  unfold State.endWait
  dsimp only
  split
  · exact Steady.edge s c _ _
  · exact Steady.refl s

theorem Steady.settleDue (s : State) (c : Chan) : Steady s (s.settleDue c) :=
  (Steady.windowEnd s c).trans ((Steady.halfMax _ c).trans (Steady.selfcheckHalfEnd _ c))

theorem takeSample_history (q : Seq) (um : BitVec 16) (ub : Int) : (q.takeSample um ub).history = q.history := by
  unfold Seq.takeSample
  dsimp only
  split
  · split
    · rfl
    · rfl
  · rfl

/-! ### SAFE_STOP and soft reset -/

theorem Steady.silenceAll (s : State) : Steady s (Machine.forEach allChans (fun c t => t.silence c) s) :=
  Steady.forEach _ _ _ fun c _ t => (Acts.silence (S := fun _ => True) t c).steady

theorem Steady.dropResults (s : State) : Steady s s.dropResults :=
  Steady.of_frame rfl id rfl rfl (fun _ => id) Iff.rfl rfl rfl rfl

theorem Steady.refuseTaken (s : State) (why : Reason) : Steady s (s.refuseTaken why) :=
  (Acts.refuseTaken (S := fun _ => True) (fun _ _ => trivial) why).steady

theorem Steady.regroupCore (s : State) (fresh : Bool) : Steady s (s.regroupCore fresh) :=
  (Acts.regroupCore (covers_all s) fresh).steady

theorem Steady.clearSeries (s : State) : Steady s s.clearSeries :=
  Steady.forEach _ _ _ fun l _ t => Steady.modGroup t l _

theorem Keeps.setCause (s : State) (cause : Cause) (chan : Option Chan) : Keeps s (s.setCause cause chan) :=
  Keeps.of_frame rfl id rfl rfl fun _ => id

theorem Keeps.stopMode (s : State) : Keeps s s.stopMode := by
  have hClear := (Steady.clearSeries s).toKeeps
  unfold State.stopMode
  generalize s.clearSeries = u at hClear ⊢
  exact hClear.trans (Keeps.of_frame rfl id rfl rfl fun _ => id)

theorem Keeps.resetSchedule (s : State) : Keeps s s.resetSchedule := by
  have hClear := (Steady.clearSeries s).toKeeps
  unfold State.resetSchedule
  generalize s.clearSeries = u at hClear ⊢
  exact hClear.trans (Keeps.of_frame rfl id rfl rfl fun _ => id)

theorem Steady.enterSafeStop (s : State) (cause : Cause) (chan : Option Chan) : Steady s (s.enterSafeStop cause chan) := by
  unfold State.enterSafeStop
  split
  · exact Steady.refl s
  · next hm =>
    refine Keeps.steady ?_ hm
    dsimp only
    have hQuiet := (Keeps.setCause s cause chan).trans (Steady.silenceAll _).toKeeps
    generalize Machine.forEach allChans (fun c t => t.silence c) (s.setCause cause chan) = u at hQuiet ⊢
    have hEnd := hQuiet.trans ((Steady.dropResults u).trans (Steady.of_recording (Recording.endHold _))).toKeeps
    generalize u.dropResults.endHold = v at hEnd ⊢
    have hStop := hEnd.trans ((Keeps.stopMode v).trans (Steady.refuseTaken _ .safeStop).toKeeps)
    exact hStop.trans (Steady.regroupCore _ false).toKeeps

theorem Steady.unlatch (s : State) (c : Chan) : Steady s (s.unlatch c) := Steady.of_reading (Reading.unlatch s c)

theorem Keeps.doSoftReset (s : State) : Keeps s s.doSoftReset := by
  unfold State.doSoftReset
  dsimp only
  have hViews := ((Steady.silenceAll s).trans (Steady.dropResults _)).trans
    (Steady.forEach allChans (fun c t => t.unlatch c) _ fun c _ t => Steady.unlatch t c)
  change Steady s (Machine.forEach allChans (fun c t => t.silence c) s).dropResults.resetViews at hViews
  generalize (Machine.forEach allChans (fun c t => t.silence c) s).dropResults.resetViews = u at hViews ⊢
  have hAttn : Steady u u.resetAttn := Steady.of_frame rfl id rfl rfl (fun _ => id) Iff.rfl rfl rfl rfl
  have hNodes := hViews.trans (hAttn.trans (Steady.of_recording (Recording.softResetNodes _)))
  generalize u.resetAttn.softResetNodes = v at hNodes ⊢
  have hContexts : Steady v v.resetContexts := Steady.forEach _ _ _ fun c _ t => Steady.setSeq t c _ (by exact id)
  have hSchedule := (hNodes.trans hContexts).toKeeps.trans (Keeps.resetSchedule _)
  exact hSchedule.trans ((Steady.refuseTaken _ .reset).trans (Steady.regroupFrom _ 0 true)).toKeeps

/-! ### Modes and holds -/

theorem Keeps.changeMode (s : State) (m : Mode) (hs : s.mode ≠ .safeStop) (hm : m ≠ .safeStop) : Keeps s (s.changeMode m) :=
  (Acts.changeMode (covers_all s) m (iff_of_false hm hs)).steady.toKeeps

theorem Keeps.setParkedPending (s : State) (b : Bool) : Keeps s { s with parkedPending := b } :=
  Keeps.of_frame rfl id rfl rfl fun _ => id

theorem Steady.requestMode (s : State) (f : BitVec 2) : Steady s (s.requestMode f) := by
  unfold State.requestMode
  dsimp only
  split
  · exact Steady.refl s
  · next hs =>
    split
    · exact Steady.refl s
    · next m hm =>
      have hWanted : m ≠ .safeStop := wanted_ne f m hm
      refine Keeps.steady ?_ hs
      have hRequest : Keeps s { s with request := m } := Keeps.of_frame rfl id rfl rfl fun _ => id
      have hChange (x : Mode) (hx : x ≠ .safeStop) : Keeps s (State.changeMode { s with request := m } x) :=
        hRequest.trans (Keeps.changeMode _ x hs hx)
      have hPend (t : State) (b : Bool) (ht : Keeps s t) : Keeps s (State.schedule { t with parkedPending := b }) :=
        (ht.trans (Keeps.setParkedPending t b)).trans (Steady.schedule _).toKeeps
      split
      · exact hRequest
      · split
        · split
          · exact hRequest
          · split
            · split
              · exact hPend { s with request := m } true hRequest
              · exact hPend (State.changeMode { s with request := m } .idle) true (hChange .idle (by decide))
            · exact (hChange .parked (by decide)).trans (Steady.schedule _).toKeeps
        · split
          · split
            · exact hPend { s with request := m } false hRequest
            · exact hRequest
          · exact (hChange m hWanted).trans (Steady.schedule _).toKeeps

theorem Steady.takeHold (s : State) (b : Bool) : Steady s (s.takeHold b) := by
  unfold State.takeHold
  split
  · split
    · exact Steady.refl s
    · exact Steady.of_frame rfl id rfl rfl (fun _ => id) Iff.rfl rfl rfl rfl
  · split
    · exact Steady.of_recording (Recording.endHold s)
    · exact Steady.refl s

theorem Steady.writeControl (s : State) (v : Byte) : Steady s (s.writeControl v) := by
  have hShown : Steady s { s with holdExpired := false } :=
    Steady.of_frame rfl id rfl rfl (fun _ => id) Iff.rfl rfl rfl rfl
  unfold State.writeControl
  dsimp only
  split
  · next h => exact hShown.trans (Keeps.steady (Keeps.doSoftReset _) h.2.1)
  · exact hShown.trans ((Steady.takeHold _ _).trans (Steady.requestMode _ _))

/-! ### Registers and transactions -/

theorem Steady.shift (s : State) (b : Byte) : Steady s (s.shift b) :=
  Steady.of_frame rfl id rfl rfl (fun _ => id) Iff.rfl rfl rfl rfl

theorem Steady.shiftZeros (s : State) (n : Nat) : Steady s (s.shiftZeros n) :=
  Steady.of_frame rfl id rfl rfl (fun _ => id) Iff.rfl rfl rfl rfl

theorem Steady.setErr (s : State) : Steady s s.setErr :=
  Steady.of_frame rfl id rfl rfl (fun _ => id) Iff.rfl rfl rfl rfl

theorem Steady.setAttn (s : State) (a : Attn) : Steady s { s with attn := a } :=
  Steady.of_frame rfl id rfl rfl (fun _ => id) Iff.rfl rfl rfl rfl

theorem Steady.readRegister (s : State) (a : Nat) : Steady s (s.readRegister a) := by
  unfold State.readRegister
  split
  case h_8 => exact (Steady.setAttn s s.attn.poll.2).trans (Steady.shift _ _)
  case h_9 => exact (Steady.shift s 0).trans (Steady.setErr _)
  all_goals exact Steady.shift s _

theorem Steady.readRegisters : ∀ (n a : Nat) (s : State), Steady s (State.readRegisters n a s)
  | 0, _, s => Steady.refl s
  | n + 1, a, s => (Steady.readRegister s a).trans (Steady.readRegisters n (a + 1) _)

theorem Steady.writeRegister (s : State) (a : Nat) (b : Byte) : Steady s (s.writeRegister a b) := by
  unfold State.writeRegister
  split
  · exact Steady.writeControl s b
  · exact Steady.setAttn s _
  · exact Steady.setAttn s _
  · exact Steady.setErr s

theorem Steady.writeRegisters : ∀ (data : List Byte) (a : Nat) (s : State), Steady s (State.writeRegisters data a s)
  | [], _, s => Steady.refl s
  | b :: rest, a, s =>
    ((Steady.writeRegister s a b).trans (Steady.shift _ 0)).trans (Steady.writeRegisters rest (a + 1) _)

theorem Steady.transact (s : State) (count : Nat) (serve : State → State) (h : ∀ t, Steady t (serve t)) :
    Steady s (s.transact count serve) := by
  have hBegin : Steady s s.beginTransaction := Steady.of_frame rfl id rfl rfl (fun _ => id) Iff.rfl rfl rfl rfl
  unfold State.transact
  split
  · exact Steady.of_frame rfl id rfl rfl (fun _ => id) Iff.rfl rfl rfl rfl
  · exact hBegin.trans (h _)

theorem Steady.transactFrom (s : State) (count : Nat) (serve : State → State) (h : ∀ t, Steady t (serve t)) :
    Steady s (s.transactFrom count serve) :=
  Steady.transact s _ _ fun t => (Steady.shiftZeros t 2).trans (h _)

theorem Steady.transactCut (s : State) (count : Nat) : Steady s (s.transactCut count) :=
  Steady.transact s _ _ fun t => Steady.shiftZeros t count

theorem Steady.memoryWriteBody (s : State) (a : Nat) (data : List Byte) : Steady s (s.memoryWriteBody a data) := by
  have hWatch : Steady s { s with watch := Watch.empty } :=
    Steady.of_frame rfl id rfl rfl (fun _ => id) Iff.rfl rfl rfl rfl
  refine hWatch.trans ((Steady.of_writing (Writing.writeBytes data a _)).trans ?_)
  exact Steady.of_frame rfl id rfl rfl (fun _ => id) Iff.rfl rfl rfl rfl

/-! ### Disconnects and self-checks -/

theorem Steady.freeMeasurement (s : State) (l : GroupId) : Steady s (s.freeMeasurement l) :=
  (Acts.freeMeasurement (S := fun _ => True) s l).steady

theorem Steady.abortCheck (s : State) (c : Chan) : Steady s (s.abortCheck c) := by
  unfold State.abortCheck
  split
  · dsimp only
    refine Steady.trans ?_ ((Steady.completeSlot _ _ _ _ _).trans (Steady.freeMeasurement _ _))
    split
    · exact Steady.dropRun s c
    · exact Steady.refl s
  · exact Steady.refl s

theorem Steady.beginDisconnect (s : State) (c : Chan) : Steady s (s.beginDisconnect c) := by
  unfold State.beginDisconnect
  dsimp only
  refine (Steady.setSafety s c { s.safety[c] with disconnected := true }).trans
    (Steady.trans ?_ (Steady.abortCheck _ c))
  split
  · exact (Acts.stopChannel (S := fun _ => True) _ c).steady
  · exact Steady.refl _

theorem Steady.reevaluate (s : State) (chans : List Chan) : Steady s (s.reevaluate chans) := by
  unfold State.reevaluate
  dsimp only
  have hNews := ((Steady.forEach (chans.filter fun c => disconnectBegins s c) (fun c t => t.beginDisconnect c) s
    fun c _ t => Steady.beginDisconnect t c).trans (Steady.forEach (chans.filter fun c => disconnectEnds s c)
      (fun c t => t.clearDisconnect c) _ fun c _ t => Steady.setSafety t c _)).trans
    (Steady.forEach ((chans.filter fun c => disconnectBegins s c) ++ chans.filter fun c => disconnectEnds s c)
      (fun c t => t.newsChanSafety c.val) _ fun c _ t => Steady.newsChanSafety t c.val)
  split
  · exact hNews
  · exact hNews.trans (Steady.raise _ 6)

theorem Steady.setLine (s : State) (line : Fin 3) (asserted : Bool) : Steady s (s.setLine line asserted) :=
  Steady.of_frame rfl id rfl rfl (fun _ => id) Iff.rfl rfl rfl rfl

theorem Steady.lineChange (s : State) (line : Fin 3) (asserted : Bool) : Steady s (s.lineChange line asserted) := by
  unfold State.lineChange
  split
  · exact Steady.refl s
  · dsimp only
    have hTaken := (Steady.setLine s line asserted).trans (Steady.reevaluate _
      (allChans.filter fun c => (s.setLine line asserted).safety[c].discMask.getLsbD line.val))
    split
    · exact hTaken.trans (Steady.regroupFrom _ _ false)
    · exact hTaken

theorem Steady.verifyExpiry (s : State) (c : Chan) (closed : Bool) : Steady s (s.verifyExpiry c closed) := by
  have hEnd : Steady s (s.endVerify c) := Steady.setSafety s c _
  unfold State.verifyExpiry
  split
  · exact Steady.refl s
  · dsimp only
    split
    · exact hEnd.trans ((Steady.failVerify _ c).trans (Steady.enterSafeStop _ _ _))
    · refine hEnd.trans ((Acts.tryReference (S := fun _ => True) _ c).steady.trans ?_)
      exact Steady.forEach _ _ _ fun d _ t => (Acts.tryAttach (S := fun _ => True) t d).steady

theorem Steady.evaluateCheck (s : State) (r : Result) : Steady s (s.evaluateCheck r) := by
  unfold State.evaluateCheck
  dsimp only
  generalize healthAfter s.safety[r.chan].health (checkPassed r) = h
  have hHealth : Steady s (s.setSafety r.chan { s.safety[r.chan] with health := h }) := Steady.setSafety s _ _
  generalize s.setSafety r.chan { s.safety[r.chan] with health := h } = u at hHealth ⊢
  have hNews : Steady s (if s.safety[r.chan].health = h then u else (u.newsChanSafety r.chan.val).raise 6) := by
    split
    · exact hHealth
    · exact hHealth.trans ((Steady.newsChanSafety u _).trans (Steady.raise _ 6))
  generalize (if s.safety[r.chan].health = h then u else (u.newsChanSafety r.chan.val).raise 6) = v at hNews ⊢
  refine Steady.trans ?_ (Steady.regroup _)
  split
  · split
    · exact hNews.trans (Steady.completeSlot v _ _ _ _)
    · exact hNews
  · exact hNews

theorem Steady.holdChannel (s : State) (c : Chan) (figures : CtxRecord) : Steady s (s.holdChannel c figures) := by
  unfold State.holdChannel
  split
  · exact Steady.refl s
  · exact ((Steady.setSeq s c _ (by exact id)).trans (Acts.abandonRun (S := fun _ => True) _ c).steady).trans (Steady.regroup _)

/-! ### Results -/

theorem Steady.completeSpot (s : State) (r : Result) : Steady s (s.completeSpot r) := by
  unfold State.completeSpot
  split
  · exact Steady.refl s
  · split
    · exact Steady.completeSlot s _ _ _ _
    · exact Steady.refl s

theorem Steady.finishResult (s : State) (r : Result) : Steady s (s.finishResult r) := by
  unfold State.finishResult
  dsimp only
  have hApply : Steady s (s.applyResult r) := Steady.of_recording (Recording.applyResult s r)
  generalize s.applyResult r = u at hApply ⊢
  have hReport : Steady s (if actionClass r.conds r.actions = .ignore then u else u.reportResult r) := by
    split
    · exact hApply
    · exact hApply.trans (Steady.of_frame rfl id rfl rfl (fun _ => id) Iff.rfl rfl rfl rfl)
  generalize (if actionClass r.conds r.actions = .ignore then u else u.reportResult r) = v at hReport ⊢
  have hHold : Steady s (if actionClass r.conds r.actions = .hold then v.holdChannel r.chan (recordOf r) else v) := by
    split
    · exact hReport.trans (Steady.holdChannel v _ _)
    · exact hReport
  split
  · exact hHold.trans (Steady.completeSpot _ r)
  · exact hHold

theorem Steady.updateContext (s : State) (r : Result) : Steady s (s.updateContext r) := by
  unfold State.updateContext
  dsimp only
  split
  · exact Steady.refl s
  · exact Steady.setSeq s _ _ (by exact id)

theorem Steady.takeResult (s : State) (r : Result) (rest : List Result) : Steady s (s.takeResult r rest) := by
  have hTaken : Steady s { s with results := rest, cuts := s.cuts.tail } :=
    Steady.of_frame rfl id rfl rfl (fun _ => id) Iff.rfl rfl rfl rfl
  unfold State.takeResult
  dsimp only
  have hContext := hTaken.trans (Steady.updateContext _ r)
  split
  · exact hContext.trans (Steady.of_frame rfl id rfl rfl (fun _ => id) Iff.rfl rfl rfl rfl)
  · exact hContext.trans (Steady.finishResult _ r)

theorem Steady.takeUp (s : State) : Steady s s.takeUp := by
  unfold State.takeUp
  split
  · exact Steady.of_frame rfl id rfl rfl (fun _ => id) Iff.rfl rfl rfl rfl
  · exact Steady.refl s

theorem Steady.handResult (s : State) (r : Result) : Steady s (s.handResult r) := by
  unfold State.handResult
  split
  · exact Steady.evaluateCheck s r
  · exact Steady.of_frame rfl id rfl rfl (fun _ => id) Iff.rfl rfl rfl rfl

/-! ### Intake -/

theorem Steady.unhold (s : State) (c : Chan) : Steady s (s.unhold c) := by
  unfold State.unhold
  split
  · exact (Steady.setSeq s c _ (by exact id)).trans (Steady.regroup _)
  · exact Steady.refl s

theorem Steady.doSnapshot (s : State) (c : Chan) : Steady s (s.doSnapshot c) :=
  (Steady.pokes s (frameAddr c) (frameBytes c s.seqs[c].ctx s.seqs[c].record)).trans (Steady.unhold _ c)

theorem restored_history (q : Seq) (kind : CtxKind) (r : CtxRecord) (h : q.history.length ≤ 3) :
    (q.restored kind r).history.length ≤ 3 := by
  have hKeep : (if q.run = .selfcheck then q.history else []).length ≤ 3 := by
    split
    · exact h
    · exact Nat.zero_le 3
  cases kind
  · exact hKeep
  · exact hKeep
  · exact h

theorem Steady.restoreAbandon (s : State) (c : Chan) : Steady s (s.restoreAbandon c) := by
  unfold State.restoreAbandon
  dsimp only
  split
  · split
    · exact (Acts.abandonGroup (covers_all s) _).steady.trans (Acts.stopChannel (S := fun _ => True) _ c).steady
    · exact (Acts.stopChannel (S := fun _ => True) s c).steady
  · exact Steady.refl s

theorem Steady.doRestore (s : State) (c : Chan) (kind : CtxKind) : Steady s (s.doRestore c kind) := by
  unfold State.doRestore
  dsimp only
  have hSet := (Steady.restoreAbandon s c).trans (Steady.setSeq _ c
    ((s.restoreAbandon c).seqs[c].restored kind (frameRecord s.mem c)) (restored_history _ _ _))
  generalize (s.restoreAbandon c).setSeq c
    ((s.restoreAbandon c).seqs[c].restored kind (frameRecord s.mem c)) = u at hSet ⊢
  split
  · refine hSet.trans (Steady.trans ?_ (Steady.schedule _))
    split
    · exact Steady.recount u
    · exact Steady.refl u
  · exact hSet.trans (Steady.regroupFrom u _ false)

theorem Steady.setYield (s : State) (node : NodeId) (flag : Bool) : Steady s (s.setYield node flag) := by
  unfold State.setYield
  dsimp only
  refine Steady.trans ?_ ((Steady.poke _ _ _).trans (Steady.regroup _))
  exact Steady.of_frame rfl id rfl rfl (fun _ => id) Iff.rfl rfl rfl rfl

theorem Steady.enlist (s : State) (n : SlotId) (job : Job) (node : NodeId) : Steady s (s.enlist n job node) := by
  unfold State.enlist
  dsimp only
  refine Steady.trans ?_ ((Steady.poke _ _ _).trans (Steady.poke _ _ _))
  exact Steady.of_frame rfl id rfl rfl (fun _ => id) Iff.rfl rfl rfl rfl

theorem Steady.takeContext (s : State) (n : SlotId) (kind : OrderKind) : Steady s (s.takeContext n kind).1 := by
  unfold State.takeContext
  split
  · exact Steady.refl s
  · next c _ =>
    dsimp only
    split
    · exact Steady.doSnapshot s c
    · exact Steady.unhold s c
    · split
      · exact Steady.refl s
      · next k _ =>
        split
        · exact Steady.doRestore s c k
        · exact Steady.refl s

theorem Steady.carryOut (s : State) (n : SlotId) : Steady s (s.carryOut n).1 := by
  have hEnlist (job : Job) (node : NodeId) : Steady s (s.enlist n job node).schedule :=
    (Steady.enlist s n job node).trans (Steady.schedule _)
  have hYield (flag : Bool) : Steady s (s.takeYield n flag).1 := by
    unfold State.takeYield
    split
    · exact Steady.refl s
    · next node _ =>
      dsimp only
      exact Steady.setYield s node flag
  have hClear (c : Chan) : Steady s (s.clearDisconnect c).regroup := (Steady.setSafety s c _).trans (Steady.regroup _)
  unfold State.carryOut
  split
  · exact Steady.refl s
  · split
    · exact Steady.refl s
    · unfold State.takeSpot
      split
      · exact Steady.refl s
      · split
        · exact Steady.refl s
        · split
          · exact Steady.refl s
          · dsimp only
            exact hEnlist _ _
    · unfold State.takeSelfcheck
      split
      · exact Steady.refl s
      · split
        · exact Steady.refl s
        · split
          · exact Steady.refl s
          · dsimp only
            exact hEnlist _ _
    · exact Steady.takeContext s n _
    · exact Steady.takeContext s n _
    · exact Steady.takeContext s n _
    · unfold State.takeAck
      split
      · exact Steady.refl s
      · split
        · exact Steady.of_recording (Recording.acknowledge s _ _)
        · exact Steady.refl s
    · exact hYield true
    · exact hYield false
    · unfold State.takeClear
      split
      · exact Steady.refl s
      · split
        · exact Steady.refl s
        · split
          · exact Steady.refl s
          · dsimp only
            exact hClear _

theorem Steady.intakeSlot (s : State) (n : SlotId) : Steady s (s.intakeSlot n) := by
  have hStamp : Steady s (s.stampSlot n) := by
    unfold State.stampSlot
    dsimp only
    have hTaken := (Steady.setSlot s n .taken).trans (Steady.poke _ (slotAddr n) (byteOf SlotState.taken.code))
    have hArea := hTaken.trans ((Steady.pokes _ (slotAddr n + 0x10) (le16 s.intakeSeq)).trans
      (Steady.pokes _ (slotAddr n + 0x13) ([0xFF, 0, 0, 0, 0] ++ List.replicate 40 0)))
    generalize ((((s.setSlot n .taken).poke (slotAddr n) (byteOf SlotState.taken.code)).pokes (slotAddr n + 0x10)
      (le16 s.intakeSeq)).pokes (slotAddr n + 0x13) ([0xFF, 0, 0, 0, 0] ++ List.replicate 40 0)) = u at hArea ⊢
    exact hArea.trans (Steady.of_frame rfl id rfl rfl (fun _ => id) Iff.rfl rfl rfl rfl)
  unfold State.intakeSlot State.conclude
  have hCarried := hStamp.trans (Steady.carryOut _ n)
  split
  · exact hCarried
  · exact hCarried.trans (Steady.completeSlot _ _ _ _ _)
  · exact hCarried.trans (Steady.completeSlot _ _ _ _ _)

/-! ### The end of a write transaction -/

theorem clampTo_range (lo hi v : Nat) (h : lo ≤ hi) : lo ≤ (clampTo lo hi v).1 ∧ (clampTo lo hi v).1 ≤ hi := by
  unfold clampTo
  split
  · exact ⟨le_refl lo, h⟩
  · split
    · exact ⟨h, le_refl hi⟩
    · exact ⟨by omega, by omega⟩

theorem readPlan_withinLimits (m : Memory) (p : PlanId) : planWithinLimits (readPlan m p).1 := by
  unfold readPlan planWithinLimits
  dsimp only
  have hMin := clampTo_range 100 20000 (m.read16 (planAddr p + 0x06)) (by decide)
  have hWarn := clampTo_range 1 65000 (m.read16 (planAddr p + 0x14)) (by decide)
  exact ⟨clampTo_range _ _ _ (by decide), clampTo_range _ _ _ (by decide), (clampTo_range _ _ _ (by decide)).2, hMin,
    clampTo_range _ _ _ (by omega), clampTo_range _ _ _ (by decide), clampTo_range _ _ _ (by decide),
    clampTo_range _ _ _ (by decide), clampTo_range _ _ _ (by decide), clampTo_range _ _ _ (by decide), hWarn,
    clampTo_range _ _ _ hWarn.1, (clampTo_range _ _ _ (by decide)).2, clampTo_range _ _ _ (by decide),
    clampTo_range _ _ _ (by decide), (clampTo_range _ _ _ (by decide)).2, clampTo_range _ _ _ (by decide)⟩

/-- A plan copy within its limits may take any other's place. -/
theorem Steady.setPlan (s : State) (p : PlanId) (x : PlanCopy)
    (h : planWithinLimits s.plans[p] → planWithinLimits x) : Steady s { s with plans := upd s.plans p x } where
  queue := rfl
  canonical := id
  limits := fun ⟨hp, hw, hh⟩ => ⟨fun q => by
    by_cases hpq : p = q
    · subst hpq
      show planWithinLimits (upd s.plans p x)[p]
      rw [upd_same]
      exact h (hp p)
    · show planWithinLimits (upd s.plans p x)[q]
      rw [upd_other s.plans p q x hpq]
      exact hp q, hw, hh⟩
  stop := fun h => ⟨h, rfl, rfl, rfl⟩

theorem Steady.takePlan (s : State) (p : PlanId) (status : Byte) : Steady s (s.takePlan p status) := by
  unfold State.takePlan
  split
  · exact (Steady.setPlan s p _ fun _ => readPlan_withinLimits s.mem p).trans (Steady.pokes _ _ _)
  · exact Steady.setPlan s p _ id

theorem Steady.takePlans (s : State) (w : Watch) : Steady s (s.takePlans w) :=
  Steady.forEach _ _ _ fun p _ t => by
    split
    · exact Steady.takePlan t p _
    · exact Steady.refl t

theorem Steady.takeDisconnect (s : State) (w : Watch) : Steady s (s.takeDisconnect w) :=
  (Steady.forEach _ _ _ fun c _ t => Steady.setSafety t c _).trans (Steady.reevaluate _ _)

theorem Steady.takeTopology (s : State) (w : Watch) : Steady s (s.takeTopology w) where
  queue := rfl
  canonical := id
  limits := fun ⟨hp, hw, hh⟩ => ⟨hp, fun c => by
    have hRead : (s.takeTopology w).wiring[c]
        = if w.wiring.getLsbD c.val then readWiring s.mem c else s.wiring[c] := by
      simp [State.takeTopology]
    rw [hRead]
    split
    · exact ⟨clampTo_range _ _ _ (by decide), clampTo_range _ _ _ (by decide)⟩
    · exact hw c, hh⟩
  stop := fun h => ⟨h, rfl, rfl, rfl⟩

theorem Steady.takeSlots (s : State) (w : Watch) : Steady s (s.takeSlots w) :=
  Steady.forEach _ _ _ fun n _ t => by
    split
    · unfold State.takeSlotState
      split
      · exact Steady.refl t
      · split
        · exact Steady.intakeSlot t n
        · split
          · exact Steady.setSlot t n _
          · exact Steady.poke t _ _
    · exact Steady.refl t

theorem Steady.takeViews (s : State) (w : Watch) : Steady s (s.takeViews w) :=
  Steady.forEach _ _ _ fun c _ t => by
    split
    · unfold State.takeView
      split
      · exact Steady.refl t
      · exact (Steady.pokes t (viewAddr c + 1) (viewBytes t c)).trans
          (Steady.setSeq _ c { t.seqs[c] with viewLatched := true } fun h => by rwa [State.pokes_seqs] at h)
    · exact Steady.refl t

theorem Steady.handleEnd (s : State) : Steady s s.handleEnd := by
  unfold State.handleEnd
  dsimp only
  have hBegin : Steady s { s with endPending := false, watch := Watch.empty } :=
    Steady.of_frame rfl id rfl rfl (fun _ => id) Iff.rfl rfl rfl rfl
  generalize ({ s with endPending := false, watch := Watch.empty } : State) = u at hBegin ⊢
  have hNews : Steady u (u.clearNews s.watch.news) :=
    Steady.of_frame rfl id rfl rfl (fun _ => id) Iff.rfl rfl rfl rfl
  have hTopology := (((hBegin.trans hNews).trans (Steady.takePlans _ s.watch)).trans
    (Steady.takeDisconnect _ s.watch)).trans (Steady.takeTopology _ s.watch)
  generalize (((u.clearNews s.watch.news).takePlans s.watch).takeDisconnect s.watch).takeTopology s.watch = v
    at hTopology ⊢
  refine Steady.trans ?_ ((Steady.takeSlots _ s.watch).trans (Steady.takeViews _ s.watch))
  split
  · exact hTopology.trans (Steady.regroupFrom v _ false)
  · exact hTopology

theorem Steady.offer (s : State) (n : SlotId) (bytes : List Byte) : Steady s (s.offer n bytes) := by
  unfold State.offer
  split
  · exact Steady.transactFrom s _ _ fun t => Steady.refl t
  · dsimp only
    have hWrite := Steady.transactFrom s bytes.length (fun u => u.memoryWriteBody (slotAddr n) bytes) fun t =>
      Steady.memoryWriteBody t _ _
    split
    · exact hWrite
    · exact hWrite.trans (Steady.handleEnd _)

/-! ### Start-up -/

theorem Steady.judgeStartup (s : State) (closed : BitVec 4) : Steady s (s.judgeStartup closed) := by
  unfold State.judgeStartup
  dsimp only
  have hEach := Steady.forEach allChans
    (fun c t => if closed.getLsbD c.val
      then (t.setSafety c { t.safety[c] with verify := none, health := .offline }).failVerify c
      else t.setSafety c { t.safety[c] with verify := none }) s fun c _ t => by
    dsimp only
    split
    · exact (Steady.setSafety t c { t.safety[c] with verify := none, health := .offline }).trans (Steady.failVerify _ c)
    · exact Steady.setSafety t c _
  split
  · exact hEach.trans (Steady.enterSafeStop _ _ _)
  · exact hEach

theorem Steady.sampleLines (s : State) (lines : BitVec 4) : Steady s (s.sampleLines lines) := by
  have hLines : Steady s { s with lines := lines } := Steady.of_frame rfl id rfl rfl (fun _ => id) Iff.rfl rfl rfl rfl
  unfold State.sampleLines
  dsimp only
  split
  · exact hLines.trans (Steady.enterSafeStop _ _ _)
  · exact hLines

theorem Steady.adoptRequest (s : State) : Steady s s.adoptRequest := by
  unfold State.adoptRequest
  split
  · exact Steady.refl s
  · next h =>
    push Not at h
    exact ((Keeps.changeMode s s.request h.1 h.2.1).trans (Steady.schedule _).toKeeps).steady h.1

theorem Steady.startupNews (s : State) (closed : BitVec 4) : Steady s (s.startupNews closed) :=
  Steady.forEach _ _ _ fun c _ t => (Steady.newsChanSafety t c.val).trans (Steady.raise _ 6)

theorem Steady.tick (s : State) : Steady s s.tick := by
  refine Steady.of_frame rfl id rfl rfl (fun c h => ?_) Iff.rfl rfl rfl rfl
  rw [tick_seqs]
  exact h

/-! ### Commands -/

/-- Every command but hard reset answers a next state, and is steady. -/
theorem Steady.exec {i : Instr} (s : State) (hi : i ≠ .hardReset) : ∃ t, exec i s = .next t ∧ Steady s t := by
  have hTransact {serve : State → State} {count : Nat} (h : ∀ t, Steady t (serve t)) :
      ∃ t, Host.Outcome.next (s.transactFrom count serve) = (.next t : Answer) ∧ Steady s t :=
    ⟨_, rfl, Steady.transactFrom s count serve h⟩
  have hControl (v : Byte) : ∃ t, Host.Outcome.next (s.transactFrom 1 fun t => (t.writeControl v).shift 0)
      = (.next t : Answer) ∧ Steady s t :=
    hTransact fun t => (Steady.writeControl t v).trans (Steady.shift _ 0)
  have hRegister (a : Nat) (b : Byte) : ∃ t, Host.Outcome.next (s.transactFrom 1 fun t => (t.writeRegister a b).shift 0)
      = (.next t : Answer) ∧ Steady s t :=
    hTransact fun t => (Steady.writeRegister t a b).trans (Steady.shift _ 0)
  have hOffer (n : SlotId) (bytes : List Byte) : ∃ t, Host.Outcome.next (s.offer n bytes) = (.next t : Answer) ∧ Steady s t :=
    ⟨_, rfl, Steady.offer s n bytes⟩
  cases i with
  | hardReset => exact absurd rfl hi
  | startupVerifyExpiry closed lines =>
    show ∃ t, execStartupVerifyExpiry closed lines s = .next t ∧ Steady s t
    unfold execStartupVerifyExpiry
    split
    · refine ⟨_, rfl, ?_⟩
      have hJudged := (Steady.judgeStartup s closed).trans (Steady.sampleLines _ lines)
      refine hJudged.trans (Steady.trans ?_ ((Steady.adoptRequest _).trans (Steady.startupNews _ closed)))
      exact Steady.of_frame rfl id rfl rfl (fun _ => id) Iff.rfl rfl rfl rfl
    · exact ⟨s, rfl, Steady.refl s⟩
  | memoryRead addr count =>
    cases addr with
    | none => exact ⟨_, rfl, Steady.transactCut s _⟩
    | some a => exact hTransact fun t => Steady.of_reading (Reading.readBytes _ _ t)
  | memoryWrite addr data =>
    cases addr with
    | none => exact ⟨_, rfl, Steady.transactCut s _⟩
    | some a => exact hTransact fun t => Steady.memoryWriteBody t _ _
  | registerRead addr count =>
    cases addr with
    | none => exact ⟨_, rfl, Steady.transactCut s _⟩
    | some a => exact hTransact fun t => Steady.readRegisters _ _ t
  | registerWrite addr data =>
    cases addr with
    | none => exact ⟨_, rfl, Steady.transactCut s _⟩
    | some a => exact hTransact fun t => Steady.writeRegisters _ _ t
  | unknownCommand code rest =>
    show ∃ t, execUnknownCommand code rest s = .next t ∧ Steady s t
    unfold execUnknownCommand
    split
    · exact ⟨_, rfl, Steady.transactCut s _⟩
    · exact ⟨_, rfl, Steady.transact s _ _ fun t => (Steady.setErr t).trans (Steady.shiftZeros _ _)⟩
  | writeTransactionEnd =>
    refine ⟨_, rfl, ?_⟩
    split
    · exact Steady.handleEnd s
    · exact Steady.refl s
  | spot | selfcheck | snapshot | restore | release | ack | yieldNode | resumeNode | clearDisconnect =>
    exact hOffer _ _
  | modeRequest | holdStart | hostRelease | softReset => exact hControl _
  | attnMask | specificEnd | nonSpecificEnd => exact hRegister _ _
  | poll => exact hTransact fun t => Steady.readRegister t 7
  | sample c um ub =>
    show ∃ t, execSample c um ub s = .next t ∧ Steady s t
    unfold execSample
    split
    · exact ⟨s, rfl, Steady.refl s⟩
    · have hSample : Steady (s.settleDue c)
          ((s.settleDue c).setSeq c ((s.settleDue c).seqs[c].takeSample um ub)) :=
        Steady.setSeq _ c _ fun h => by rwa [takeSample_history]
      exact ⟨_, rfl, (Steady.settleDue s c).trans hSample⟩
  | windowEnd c => exact ⟨_, rfl, Steady.windowEnd s c⟩
  | halfMax c => exact ⟨_, rfl, (Steady.windowEnd s c).trans (Steady.halfMax _ c)⟩
  | syncEdge => exact ⟨_, rfl, Steady.forEach _ _ _ fun c _ t => Steady.endWait t c none⟩
  | syncTimeout c =>
    refine ⟨_, rfl, ?_⟩
    split
    · exact Steady.endWait s c _
    · exact Steady.refl s
  | selfcheckHalfEnd c => exact ⟨_, rfl, Steady.selfcheckHalfEnd s c⟩
  | computationStart => exact ⟨_, rfl, Steady.takeUp s⟩
  | computationComplete =>
    show ∃ t, execComputationComplete s = .next t ∧ Steady s t
    unfold execComputationComplete
    dsimp only
    split
    · refine ⟨_, rfl, (Steady.takeUp s).trans (Steady.trans ?_ ((Steady.handResult _ _).trans (Steady.takeUp _)))⟩
      exact Steady.of_frame rfl id rfl rfl (fun _ => id) Iff.rfl rfl rfl rfl
    · exact ⟨_, rfl, Steady.takeUp s⟩
  | conditionResult =>
    show ∃ t, execConditionResult s = .next t ∧ Steady s t
    unfold execConditionResult
    split
    · refine ⟨_, rfl, Steady.trans ?_ (Steady.finishResult _ _)⟩
      exact Steady.of_frame rfl id rfl rfl (fun _ => id) Iff.rfl rfl rfl rfl
    · exact ⟨_, rfl, Steady.takeResult s _ _⟩
    · exact ⟨s, rfl, Steady.refl s⟩
  | stalenessCheck =>
    refine ⟨_, rfl, ?_⟩
    split
    · exact Steady.refl s
    · exact Steady.of_recording (Recording.stalenessCheck s)
  | holdLimitExpiry =>
    refine ⟨_, rfl, ?_⟩
    split
    · have hEnd := Steady.of_recording (Recording.endHold s)
      generalize s.endHold = u at hEnd ⊢
      exact hEnd.trans (Steady.of_frame rfl id rfl rfl (fun _ => id) Iff.rfl rfl rfl rfl)
    · exact Steady.refl s
  | settleExpiry l =>
    show ∃ t, execSettleExpiry l s = .next t ∧ Steady s t
    unfold execSettleExpiry
    split
    · refine ⟨_, rfl, ?_⟩
      split
      · exact (Steady.modGroup s l _).trans (Steady.schedule _)
      · exact Steady.refl s
    · exact ⟨s, rfl, Steady.refl s⟩
  | parkTimerExpiry =>
    show ∃ t, execParkTimerExpiry s = .next t ∧ Steady s t
    unfold execParkTimerExpiry
    split
    · refine ⟨_, rfl, Steady.trans ?_ (Steady.schedule _)⟩
      exact Steady.of_frame rfl id rfl rfl (fun _ => id) Iff.rfl rfl rfl rfl
    · exact ⟨s, rfl, Steady.refl s⟩
    · exact ⟨s, rfl, Steady.refl s⟩
  | detachVerifyExpiry c closed => exact ⟨_, rfl, Steady.verifyExpiry s c closed⟩
  | disconnectLineChange line asserted => exact ⟨_, rfl, Steady.lineChange s line asserted⟩
  | stopLine =>
    refine ⟨_, rfl, ?_⟩
    split
    · exact Steady.refl s
    · refine Steady.trans ?_ (Steady.enterSafeStop _ _ _)
      exact Steady.of_frame rfl id rfl rfl (fun _ => id) Iff.rfl rfl rfl rfl
  | stopLineRelease =>
    refine ⟨_, rfl, ?_⟩
    split
    · exact Steady.refl s
    · exact Steady.of_frame rfl id rfl rfl (fun _ => id) Iff.rfl rfl rfl rfl

/-- Settles O3: the state every command answers, from `Steady.exec`. -/
theorem noCommandStops : Obligations.NoCommandStops := by
  intro i s
  by_cases hi : i = .hardReset
  · subst hi
    exact ⟨_, rfl, rfl⟩
  · obtain ⟨t, ht, hSteady⟩ := Steady.exec s hi
    exact ⟨t, ht, hSteady.queue⟩

/-- A step is steady, or it is a hard reset. -/
theorem step_steady {s t : State} (h : step s = .next t) :
    Steady s { t with pending := s.pending } ∨
      (s.pending.head? = some .hardReset ∧ withinLimits t ∧ t.mem.wf = true) := by
  have hQueue {u v : State} {rest : List Instr} (h : Steady { u with pending := rest } v) :
      Steady u { v with pending := u.pending } := ⟨⟨rfl, h.canonical, h.limits⟩, h.stop⟩
  unfold step at h
  split at h
  · next i rest hp =>
    by_cases hi : i = .hardReset
    · subst hi
      rw [← Host.Outcome.next.inj h]
      exact .inr ⟨by rw [hp]; rfl, resetMeetsInvariants.2.2, resetMeetsInvariants.2.1⟩
    · obtain ⟨u, hu, hSteady⟩ := Steady.exec { s with pending := rest } hi
      rw [← Host.Outcome.next.inj (hu.symm.trans h)]
      exact .inl (hQueue hSteady)
  · rw [← Host.Outcome.next.inj h]
    exact .inl (Steady.tick s)

/-- Settles O7: by `step_steady`, hard reset apart. -/
theorem limitsAndMemoryFormKeptByEveryStep : Obligations.LimitsAndMemoryFormKeptByEveryStep := by
  refine ⟨fun s t hs h => ?_, fun s t hs h => ?_⟩
  · obtain hSteady | ⟨-, hReset, -⟩ := step_steady h
    · exact hSteady.limits hs
    · exact hReset
  · obtain hSteady | ⟨-, -, hReset⟩ := step_steady h
    · exact hSteady.canonical hs
    · exact hReset

/-- Settles O8: by `step_steady`. -/
theorem safeStopLeftByHardResetAlone : Obligations.SafeStopLeftByHardResetAlone := by
  intro s t hs hHead h
  obtain hSteady | ⟨hReset, -⟩ := step_steady h
  · obtain ⟨hMode, hCause, hChan, hRequest⟩ := hSteady.stop hs
    refine ⟨hMode, hCause, hChan, hRequest, ?_⟩
    change t.mode = .safeStop at hMode
    simp [alertAsserted, hMode]
  · exact absurd hReset hHead

end Sys2Proof.Machine
end

section
/-! PROOFS. The registers and the transactions that are not served: what a register read returns, what a register write
does, and how a transaction's bytes spell its command. -/

namespace Sys2Proof.Machine

/-! ### Register reads -/

theorem registerByte_shift (s : State) (b : Byte) (r : Nat) : registerByte (s.shift b) r = registerByte s r := by
  unfold registerByte
  split <;> rfl

theorem registerByte_above (s : State) {r : Nat} (h : 8 ≤ r) : registerByte s r = 0 := by
  unfold registerByte
  split <;> first | rfl | omega

/-- A read of a register below POLL shifts out its byte alone. -/
theorem readRegister_below (s : State) {r : Nat} (h : r < 7) : s.readRegister r = s.shift (registerByte s r) := by
  match r, h with
  | 0, _ | 1, _ | 2, _ | 3, _ | 4, _ | 5, _ | 6, _ => rfl

theorem readRegister_poll (s : State) : s.readRegister 7 = { s with attn := s.attn.poll.2 }.shift (registerByte s 7) := rfl

theorem readRegister_above (s : State) {r : Nat} (h : 8 ≤ r) : s.readRegister r = (s.shift (registerByte s r)).setErr := by
  rw [registerByte_above s h]
  unfold State.readRegister
  split <;> first | rfl | omega

theorem readRegisters_above : ∀ (n a : Nat) (s : State), 8 ≤ a → State.readRegisters n a s =
    { s with sdo := s.sdo ++ List.replicate n 0, err := s.err || decide (0 < n) }
  | 0, a, s, _ => by simp [State.readRegisters]
  | n + 1, a, s, h => by
    rw [State.readRegisters, readRegister_above s h, readRegisters_above n (a + 1) _ (by omega), registerByte_above s h]
    simp [State.shift, State.setErr, List.replicate_succ]

/-- The registers that a read from an address on returns. -/
theorem range_map_succ {α : Type} (f : Nat → α) (n : Nat) :
    (List.range (n + 1)).map f = f 0 :: (List.range n).map fun k => f (k + 1) := by
  rw [List.range_succ_eq_map, List.map_cons, List.map_map]
  rfl

theorem readRegisters_eq : ∀ (n a : Nat) (s : State), State.readRegisters n a s =
    { s with
      sdo := s.sdo ++ (List.range n).map fun k => registerByte s (a + k)
      err := s.err || decide (0 < n ∧ 8 < a + n)
      attn := if a ≤ 7 ∧ 7 < a + n then s.attn.poll.2 else s.attn }
  | 0, a, s => by
    have hPoll : ¬ (a ≤ 7 ∧ 7 < a + 0) := by omega
    simp only [State.readRegisters, if_neg hPoll, List.range_zero, List.map_nil, List.append_nil]
    simp
  | n + 1, a, s => by
    have hZeros (h : 7 ≤ a) (k : Nat) : registerByte s (a + (k + 1)) = 0 := registerByte_above s (by omega)
    obtain hBelow | hPoll | hAbove : a < 7 ∨ a = 7 ∨ 8 ≤ a := by omega
    · rw [State.readRegisters, readRegister_below s hBelow, readRegisters_eq n (a + 1), range_map_succ]
      have hErr : decide (0 < n ∧ 8 < a + 1 + n) = decide (0 < n + 1 ∧ 8 < a + (n + 1)) :=
        decide_eq_decide.mpr (by omega)
      have hAck (x y : Attn) : (if a + 1 ≤ 7 ∧ 7 < a + 1 + n then x else y)
          = if a ≤ 7 ∧ 7 < a + (n + 1) then x else y := if_congr (by omega) rfl rfl
      have hBytes : (fun k => registerByte (s.shift (registerByte s a)) (a + 1 + k))
          = fun k => registerByte s (a + (k + 1)) := by
        funext k
        rw [registerByte_shift, Nat.add_right_comm, Nat.add_assoc]
      rw [hErr, hAck, hBytes, State.shift_sdo, List.append_assoc]
      rfl
    · subst hPoll
      rw [State.readRegisters, readRegister_poll, readRegisters_above n 8 _ (le_refl 8), range_map_succ]
      have hAck : (7 ≤ 7 ∧ 7 < 7 + (n + 1)) := by omega
      have hErr : decide (0 < n + 1 ∧ 8 < 7 + (n + 1)) = decide (0 < n) := by
        rw [decide_eq_decide]
        omega
      simp only [if_pos hAck, hErr, hZeros (le_refl 7), List.map_const', List.length_range, State.shift_sdo,
        List.append_assoc, List.singleton_append, Nat.add_zero]
      rfl
    · rw [readRegisters_above (n + 1) a s hAbove]
      have hAck : ¬ (a ≤ 7 ∧ 7 < a + (n + 1)) := by omega
      have hErr : decide (0 < n + 1 ∧ 8 < a + (n + 1)) = decide (0 < n + 1) := by
        rw [decide_eq_decide]
        omega
      have hAll (k : Nat) : registerByte s (a + k) = 0 := registerByte_above s (by omega)
      simp only [if_neg hAck, hErr, hAll, List.map_const', List.length_range]

/-- Settles O15: the data phase by induction on its bytes. -/
theorem registerReadReturnsRegisters : Obligations.RegisterReadReturnsRegisters := by
  intro s a count hServed
  show Host.Outcome.next _ = _
  rw [transactFrom_of_not_dropped hServed, readRegisters_eq]
  rfl

/-! ### Register writes -/

theorem writeRegisters_append : ∀ (data : List Byte) (a : Nat) (v : Byte) (s : State),
    State.writeRegisters (data ++ [v]) a s
      = ((State.writeRegisters data a s).writeRegister (a + data.length) v).shift 0
  | [], _, _, _ => rfl
  | b :: rest, a, v, s => by
    rw [List.cons_append, State.writeRegisters, State.writeRegisters, writeRegisters_append rest (a + 1) v,
      List.length_cons]
    congr 2
    omega

theorem writeRegister_readOnly (s : State) {r : Nat} (b : Byte) (h : r ≤ 2 ∨ r = 5 ∨ r = 6 ∨ 8 ≤ r) :
    s.writeRegister r b = s.setErr := by
  unfold State.writeRegister
  split <;> first | rfl | omega

/-- CONTROL takes of its byte the mode field, HOLD and SOFT_RESET alone. -/
theorem writeControl_congr (s : State) {v w : Byte} (hMode : v.setWidth 2 = w.setWidth 2)
    (hHold : v.getLsbD 2 = w.getLsbD 2) (hReset : v.getLsbD 7 = w.getLsbD 7) : s.writeControl v = s.writeControl w := by
  unfold State.writeControl
  rw [hMode, hHold, hReset]

theorem controlByte_fields (m : BitVec 2) (hold reset : Bool) :
    (controlByte m hold reset).setWidth 2 = m ∧ (controlByte m hold reset).getLsbD 2 = hold
      ∧ (controlByte m hold reset).getLsbD 7 = reset := by
  revert m hold reset
  decide

theorem writeControl_controlByte (s : State) (v : Byte) :
    s.writeControl v = s.writeControl (controlByte (v.setWidth 2) (v.getLsbD 2) (v.getLsbD 7)) := by
  obtain ⟨hMode, hHold, hReset⟩ := controlByte_fields (v.setWidth 2) (v.getLsbD 2) (v.getLsbD 7)
  exact writeControl_congr s hMode.symm hHold.symm hReset.symm

theorem exec_registerWrite {s : State} (h : s.endPending = false ∨ s.starting = true) (a : BitVec 16) (data : List Byte) :
    exec (.registerWrite (some a) data) s
      = .next (State.writeRegisters data (a.toNat % 4096) (afterAddress s [])) :=
  congrArg _ (transactFrom_of_not_dropped h _ _)

/-! ### What a soft reset leaves -/

/-- The state with everything blanked that a soft reset may change. -/
def State.softFixed (s : State) : State :=
  { s.fixed.nodeFixed with
    request := .idle, triples := [], computing := none, results := [], taken := none, holdExpired := false
    attn := { s.attn with pending := 0, inService := 0, faultFact := false } }

theorem softFixed_of_measuring {s t : State} (m : Measuring s t) : t.softFixed = s.softFixed := by
  have hAttn : t.fixed.attn = s.fixed.attn := congrArg State.attn m.fixed
  have hBlank (u : State) : u.softFixed = { u.fixed.nodeFixed with
      request := .idle, triples := [], computing := none, results := [], taken := none, holdExpired := false
      attn := { u.fixed.attn with pending := 0, inService := 0, faultFact := false } } := rfl
  rw [hBlank, hBlank, m.fixed]

theorem softFixed_of_recording {s t : State} (r : Recording s t) : t.softFixed = s.softFixed := by
  have hBlank (u : State) : u.softFixed = { u.nodeFixed.fixed with
      request := .idle, triples := [], computing := none, results := [], taken := none, holdExpired := false
      attn := { u.nodeFixed.attn with pending := 0, inService := 0, faultFact := false } } := rfl
  rw [hBlank, hBlank, r.fixed]

theorem doSoftReset_softFixed (s : State) : s.doSoftReset.softFixed = s.softFixed := by
  have hSilent := softFixed_of_measuring (Working.silenceAll s).measuring
  unfold State.doSoftReset
  dsimp only
  generalize Machine.forEach allChans (fun c t => t.silence c) s = u at hSilent ⊢
  have hViews : u.dropResults.resetViews.softFixed = u.softFixed :=
    (forEach_field State.softFixed allChans (fun c t => t.unlatch c) (fun _ _ => rfl) u.dropResults).trans rfl
  have hNodes : u.dropResults.resetViews.resetAttn.softResetNodes.softFixed = u.softFixed :=
    (softFixed_of_recording (Recording.softResetNodes _)).trans hViews
  generalize u.dropResults.resetViews.resetAttn.softResetNodes = v at hNodes ⊢
  have hContexts : v.resetContexts.softFixed = v.softFixed := 
    forEach_field State.softFixed allChans
      (fun c t => t.setSeq c { t.seqs[c] with ctx := .none, record := CtxRecord.zero }) (fun _ _ => rfl) v
  generalize v.resetContexts = w at hContexts ⊢
  have hSchedule : w.resetSchedule.softFixed = w.softFixed := by
    have hClear := softFixed_of_measuring (Working.clearSeries w).measuring
    unfold State.resetSchedule
    generalize w.clearSeries = x at hClear ⊢
    exact hClear
  rw [softFixed_of_measuring (Working.regroupFrom _ 0 true).measuring,
    softFixed_of_measuring (Working.refuseTaken _ .reset).measuring, hSchedule, hContexts, hNodes, hSilent]

theorem softFixed_setParkedPending (s : State) (b : Bool) : State.softFixed { s with parkedPending := b } = s.softFixed :=
  rfl

theorem softFixed_requestMode (s : State) (f : BitVec 2) : (s.requestMode f).softFixed = s.softFixed := by
  have hSchedule (u : State) (h : u.softFixed = s.softFixed) : u.schedule.softFixed = s.softFixed :=
    (softFixed_of_measuring (Working.schedule u).measuring).trans h
  have hChange (u : State) (m : Mode) (h : u.softFixed = s.softFixed) : (u.changeMode m).softFixed = s.softFixed := by
    have hAll := softFixed_of_measuring (Working.abandonAll u).measuring
    unfold State.changeMode
    dsimp only
    generalize Machine.forEach allNodes (fun l t => t.abandonOwn l) u = v at hAll ⊢
    split
    · exact Eq.trans rfl (hAll.trans h)
    · exact Eq.trans rfl (hAll.trans h)
  unfold State.requestMode
  dsimp only
  split
  · rfl
  · split
    · rfl
    · next m _ =>
      have hRequest : State.softFixed { s with request := m } = s.softFixed := rfl
      split
      · exact hRequest
      · split
        · split
          · exact hRequest
          · split
            · split
              · exact hSchedule _ ((softFixed_setParkedPending _ true).trans hRequest)
              · have hIdle := hChange { s with request := m } .idle hRequest
                generalize State.changeMode { s with request := m } .idle = v at hIdle ⊢
                exact hSchedule _ ((softFixed_setParkedPending v true).trans hIdle)
            · exact hSchedule _ (hChange _ .parked hRequest)
        · split
          · split
            · exact hSchedule { s with request := m, parkedPending := false } rfl
            · exact hRequest
          · exact hSchedule _ (hChange _ m hRequest)

theorem writeControl_softFixed (s : State) (v : Byte) : (s.writeControl v).softFixed = s.softFixed := by
  have hHold (u : State) (b : Bool) : (u.takeHold b).softFixed = u.softFixed := by
    unfold State.takeHold
    split
    · split <;> rfl
    · split
      · exact softFixed_of_recording (Recording.endHold u)
      · rfl
  unfold State.writeControl
  dsimp only
  split
  · exact (doSoftReset_softFixed _).trans rfl
  · exact (softFixed_requestMode _ _).trans ((hHold _ _).trans rfl)

theorem writeControl_sdo (s : State) (v : Byte) : (s.writeControl v).sdo = s.sdo := by
  have hSdo := congrArg State.sdo (writeControl_softFixed s v)
  exact hSdo

/-- Settles O16: by the address of the byte written last. -/
theorem registerWriteActs : Obligations.RegisterWriteActs := by
  intro s a v h
  have hControl (m : BitVec 2) (hold reset : Bool) : (Host.Outcome.next (s.transactFrom 1 fun t =>
      (t.writeControl (controlByte m hold reset)).shift 0) : Answer)
        = .next (((afterAddress s []).writeControl (controlByte m hold reset)).shift 0) :=
    congrArg _ (transactFrom_of_not_dropped h 1 _)
  have hSingle : exec (.registerWrite (some a) [v]) s
      = .next (((afterAddress s []).writeRegister (a.toNat % 4096) v).shift 0) := exec_registerWrite h a [v]
  refine ⟨fun ha => ?_, fun ha => ?_, fun ha hv => ?_, fun ha hv => ?_, fun ha hv => ?_, fun ha => ?_,
    fun m => ⟨rfl, rfl⟩, ?_, fun data x u hx hu => ?_⟩
  · rw [hSingle, ha]
    show Host.Outcome.next (((afterAddress s []).writeControl v).shift 0) = _
    rw [writeControl_controlByte]
    cases v.getLsbD 7
    · exact (hControl _ _ false).symm
    · exact (hControl _ _ true).symm
  · rw [hSingle, ha]
    have hMask : exec (.attnMask v) s = .next (((afterAddress s []).writeRegister 4 v).shift 0) :=
      congrArg _ (transactFrom_of_not_dropped h 1 _)
    exact hMask.symm
  · rw [hSingle, ha]
    exact (exec_specificEnd h v).symm
  · rw [hSingle, ha, hv]
    exact (exec_nonSpecificEnd h).symm
  · rw [hSingle, ha]
    show Host.Outcome.next ({ afterAddress s [] with attn := s.attn.pollWrite v }.shift 0) = _
    rw [pollWrite_of_nine_le s.attn hv]
    rfl
  · rw [hSingle, writeRegister_readOnly _ v ha]
    rfl
  · exact exec_registerWrite h a []
  · rw [exec_registerWrite h] at hu
    rw [exec_registerWrite h, writeRegisters_append, Host.Outcome.next.inj hu, ← hx]
    refine ⟨_, rfl, fun h3 => ?_, fun h4 => ?_, fun h7 => ?_, fun hOther => ?_⟩
    · rw [h3]
      show (u.writeControl v).shift 0 = _
      rw [← writeControl_sdo u v]
      rfl
    · rw [h4]
      rfl
    · rw [h7]
      refine ⟨rfl, fun n hn => ?_, fun h8 => ⟨fun n hIn hAbove => ?_, fun hEmpty => ?_⟩, fun h9 => ?_⟩
      · show levelEnded u.attn (u.attn.pollWrite v) n
        rw [hn, pollWrite_byteOf]
        exact levelEnded_endLevel u.attn n
      · show levelEnded u.attn (u.attn.pollWrite v) n
        rw [h8, pollWrite_eight_of_top (topLevel_eq_some hIn hAbove)]
        exact levelEnded_endLevel u.attn n
      · show u.attn.pollWrite v = u.attn
        rw [h8]
        exact pollWrite_eight_of_none (topLevel_eq_none fun n => by simp [hEmpty, has8])
      · exact pollWrite_of_nine_le u.attn h9
    · rw [writeRegister_readOnly u v hOther]
      rfl

end Sys2Proof.Machine
end

section
/-! PROOFS. The views and the registers show their owners, and what a memory read shifts out. -/

namespace Sys2Proof.Machine

/-! ### The header and the group table -/

theorem exchangeByte_header (s : State) {a : Nat} (h : a < 0x40) : exchangeByte s a = (headerBytes s).getD a 0 := by
  unfold exchangeByte
  rw [if_pos h]

theorem headerBytes_length (s : State) : (headerBytes s).length = 0x15 := rfl

theorem exchangeByte_uptime (s : State) {k : Nat} (h : k < 4) :
    exchangeByte s (0x04 + k) = (le32 (s.uptimeLatch.getD s.uptime)).getD k 0 := by
  match k, h with
  | 0, _ | 1, _ | 2, _ | 3, _ => rfl

theorem exchangeByte_chanStatus (s : State) (c : Chan) : exchangeByte s (0x0C + c.val) = chanStatusByte s.safety[c] := by
  match c with
  | 0 | 1 | 2 | 3 => rfl

theorem exchangeByte_headerUnused (s : State) {a : Nat} (h : a = 0x02 ∨ a = 0x03 ∨ (0x15 ≤ a ∧ a < 0x40)) :
    exchangeByte s a = 0 := by
  obtain rfl | rfl | ⟨hLow, hHigh⟩ := h
  · rfl
  · rfl
  · rw [exchangeByte_header s hHigh]
    exact List.getD_eq_default _ _ ((headerBytes_length s).trans_le hLow)

theorem indexOf_byteOf (l : NodeId) : indexOf 8 (byteOf l.val) = some l := by
  revert l
  decide

theorem exchangeByte_group (s : State) (l : GroupId) {k : Nat} (h : k < 16) :
    exchangeByte s (groupAddr l + k) = (groupEntry s l).getD k 0 := by
  have hl := l.isLt
  have hLow : ¬ groupAddr l + k < 0x040 := by unfold groupAddr; omega
  have hArea : 0x800 ≤ groupAddr l + k ∧ groupAddr l + k < 0x880 := by unfold groupAddr; omega
  have hEntry : (groupAddr l + k - 0x800) / 16 = l.val := by unfold groupAddr; omega
  have hOffset : (groupAddr l + k - 0x800) % 16 = k := by unfold groupAddr; omega
  unfold exchangeByte
  rw [if_neg hLow, if_pos hArea, hEntry, hOffset, indexOf_byteOf]

theorem exchangeByte_groupBase (s : State) (l : GroupId) : exchangeByte s (groupAddr l) = (groupEntry s l).getD 0 0 :=
  exchangeByte_group s l (by decide : 0 < 16)

theorem groupEntry_none {s : State} {l : GroupId} (h : s.groups[l] = none) :
    groupEntry s l = [0, 0, 0xFF, 0, 0, 0, 0, 0, 0, 0, 0, 0, 0, 0, 0, 0] := by
  unfold groupEntry
  rw [h]

theorem groupEntry_some {s : State} {l : GroupId} {g : Group} (h : s.groups[l] = some g) : groupEntry s l =
    [1, g.members, optByte g.injector, byteOf (groupState s l).code, optByte s.nodePlan[l], 0]
      ++ le16 g.seriesCount ++ [0, 0, 0, 0, 0, 0, 0, 0] := by
  unfold groupEntry groupState
  rw [h]


/-! ### STATUS, CONTROL and the status byte -/

theorem alertAsserted_iff (s : State) :
    alertAsserted s = true ↔ s.mode = .safeStop ∨ ∃ n : NodeId, s.nodes[n].state = .fault := by
  simp [alertAsserted, anyFault, List.any_eq_true, mem_allNodes]

theorem statusRegister_bits (s : State) : (statusRegister s).toNat % 4 = s.mode.code
    ∧ (statusRegister s).getLsbD 2 = s.starting ∧ (statusRegister s).getLsbD 3 = s.hold.isSome
    ∧ (statusRegister s).getLsbD 4 = s.holdExpired ∧ (statusRegister s).getLsbD 5 = decide (s.mode = .safeStop)
    ∧ (statusRegister s).getLsbD 6 = false ∧ (statusRegister s).getLsbD 7 = false := by
  unfold statusRegister
  generalize s.mode = mode, s.starting = starting, s.hold.isSome = hold, s.holdExpired = expired
  revert starting hold expired
  cases mode <;> decide

theorem controlRegister_toNat (s : State) :
    (controlRegister s).toNat = s.request.code + (if s.hold.isSome then 4 else 0) := by
  unfold controlRegister
  generalize s.request = request, s.hold.isSome = hold
  revert hold
  cases request <;> decide

theorem statusByte_bits (s : State) : (statusByte s).getLsbD 0 = (!s.starting && !s.endPending)
    ∧ (statusByte s).getLsbD 1 = s.err ∧ (statusByte s).getLsbD 2 = alertAsserted s
    ∧ (statusByte s).getLsbD 3 = attnAsserted s.attn ∧ (statusByte s).toNat < 16 := by
  unfold statusByte
  generalize s.starting = starting, s.endPending = ends, s.err = err, alertAsserted s = alert, attnAsserted s.attn = attn
  revert starting ends err alert attn
  decide

/-- Settles O12: byte by byte, from the lists the views are made of. -/
theorem viewsAndRegistersShowTheirOwners : Obligations.ViewsAndRegistersShowTheirOwners := by
  refine ⟨fun s => ⟨rfl, rfl, fun k => exchangeByte_uptime s, rfl, ?_, rfl, rfl, exchangeByte_chanStatus s, rfl, rfl, rfl,
    rfl, rfl, fun a => exchangeByte_headerUnused s, fun l hl k hk => ?_, fun l g hg => ?_⟩, fun s => ?_⟩
  · show optByte s.causeChan = _
    cases s.causeChan <;> rfl
  · rw [exchangeByte_group s l hk, groupEntry_none hl]
    interval_cases k <;> rfl
  · have hByte (k : Nat) (hk : k < 16) := exchangeByte_group s l hk
    rw [groupEntry_some hg] at hByte
    refine ⟨?_, hByte 1 (by decide), (hByte 2 (by decide)).trans ?_, hByte 3 (by decide),
      (hByte 4 (by decide)).trans ?_, hByte 6 (by decide), hByte 7 (by decide), fun k hk => ?_⟩
    · rw [exchangeByte_groupBase, groupEntry_some hg]
      rfl
    · show optByte g.injector = _
      cases g.injector <;> rfl
    · show optByte s.nodePlan[l] = _
      cases s.nodePlan[l] <;> rfl
    · rw [hByte k (by omega)]
      obtain rfl | ⟨hLow, hHigh⟩ := hk
      · rfl
      · interval_cases k <;> rfl
  · obtain ⟨hReady, hErr, hAlert, hAttn, hSmall⟩ := statusByte_bits s
    exact ⟨statusRegister_bits s, controlRegister_toNat s, hReady, hErr, hAlert ▸ alertAsserted_iff s, hAttn, hSmall⟩

/-! ### Memory reads -/

theorem exchangeByte_shift (s : State) (b : Byte) (a : Nat) : exchangeByte (s.shift b) a = exchangeByte s a := rfl

theorem exchangeByte_view (s : State) (c : Chan) : exchangeByte s (viewAddr c + 0x1F) = s.mem.read (viewAddr c + 0x1F) := by
  have hc := c.isLt
  have hLow : ¬ viewAddr c + 0x1F < 0x040 := by unfold viewAddr; omega
  have hArea : ¬ (0x800 ≤ viewAddr c + 0x1F ∧ viewAddr c + 0x1F < 0x880) := by unfold viewAddr; omega
  unfold exchangeByte
  rw [if_neg hLow, if_neg hArea]

theorem viewEnd_of_other {x : Nat} (h : ∀ c : Chan, x ≠ viewAddr c + 0x1F) : viewEnd x = none :=
  List.find?_eq_none.mpr fun c _ hc => h c (of_decide_eq_true hc).symm

theorem viewEnd_last (c : Chan) : viewEnd (viewAddr c + 0x1F) = some c := by
  revert c
  decide

/-- No latch is met at an address (R42, R164). -/
def noLatch (x : Nat) : Prop := x ≠ 0x04 ∧ x ≠ 0x07 ∧ ∀ c : Chan, x ≠ viewAddr c + 0x1F

theorem latchUptime_other (s : State) {a : Nat} (h : a ≠ 0x04) : s.latchUptime a = s := if_neg h

theorem afterRead_other (s : State) {a : Nat} (h : a ≠ 0x07) (hView : ∀ c : Chan, a ≠ viewAddr c + 0x1F) :
    s.afterRead a = s := by
  unfold State.afterRead
  rw [if_neg h, viewEnd_of_other hView]

theorem readByte_inside {s : State} {a : Nat} (hs : s.starting = false) (ha : a < 0xA00) :
    s.readByte a = ((s.latchUptime a).shift (exchangeByte (s.latchUptime a) a)).afterRead a := by
  have hServed : ¬ (s.starting ∨ Config.memorySize ≤ a) := by
    rw [hs]
    rintro (h | h)
    · exact Bool.false_ne_true h
    · exact absurd h (not_le.mpr ha)
  unfold State.readByte
  rw [if_neg hServed]

theorem readByte_plain {s : State} {a : Nat} (hs : s.starting = false) (ha : a < 0xA00) (h : noLatch a) :
    s.readByte a = s.shift (exchangeByte s a) := by
  obtain ⟨h4, h7, hView⟩ := h
  rw [readByte_inside hs ha, latchUptime_other s h4, afterRead_other _ h7 hView]

theorem readByte_outside (s : State) {a : Nat} (h : s.starting = true ∨ 0xA00 ≤ a) : s.readByte a = (s.shift 0).setErr := by
  unfold State.readByte
  exact if_pos h

theorem readBytes_plain : ∀ (n a : Nat) (s : State), s.starting = false → (∀ k, k < n → noLatch (a + k)) →
    State.readBytes n a s =
      { s with
        sdo := s.sdo ++ (List.range n).map fun k => if a + k < 0xA00 then exchangeByte s (a + k) else 0
        err := s.err || decide (0 < n ∧ 0xA00 < a + n) }
  | 0, a, s, _, _ => by simp [State.readBytes]
  | n + 1, a, s, hs, hLatch => by
    have hNext (k : Nat) : a + 1 + k = a + (k + 1) := by omega
    have hRest (k : Nat) (hk : k < n) : noLatch (a + 1 + k) := hNext k ▸ hLatch (k + 1) (by omega)
    have hMap (t : State) (ht : ∀ x, exchangeByte t x = exchangeByte s x) :
        (fun k => if a + 1 + k < 0xA00 then exchangeByte t (a + 1 + k) else 0)
          = fun k => if a + (k + 1) < 0xA00 then exchangeByte s (a + (k + 1)) else 0 := by
      funext k
      rw [hNext, ht]
    rw [State.readBytes, range_map_succ]
    by_cases ha : a < 0xA00
    · have hErr : decide (0 < n ∧ 0xA00 < a + 1 + n) = decide (0 < n + 1 ∧ 0xA00 < a + (n + 1)) :=
        decide_eq_decide.mpr (by omega)
      rw [readByte_plain hs ha (hLatch 0 (by omega)), readBytes_plain n (a + 1) _ (by exact hs) hRest,
        hMap (s.shift (exchangeByte s a)) fun x => rfl, if_pos (show a + 0 < 0xA00 from ha), hErr, State.shift_sdo, List.append_assoc]
      rfl
    · have hErr : decide (0 < n + 1 ∧ 0xA00 < a + (n + 1)) = true := decide_eq_true (by omega)
      rw [readByte_outside s (.inr (by omega)), readBytes_plain n (a + 1) _ (by exact hs) hRest,
        hMap (s.shift 0).setErr fun x => rfl, if_neg (show ¬ a + 0 < 0xA00 from ha), hErr, State.setErr_sdo, State.shift_sdo, List.append_assoc]
      simp [State.setErr, State.shift]

theorem exec_memoryRead {s : State} (h : served s) (a : BitVec 16) (count : Nat) :
    exec (.memoryRead (some a) count) s = .next (State.readBytes count (a.toNat % 4096) (afterAddress s [])) :=
  congrArg _ (transactFrom_of_not_dropped (.inl h.2) _ _)

/-- The two uptime addresses that move the latch, and the two between them (R164). -/
theorem readByte_uptimeFirst {s : State} (hs : s.starting = false) :
    s.readByte 0x04 = { s with uptimeLatch := some s.uptime }.shift (s.uptime.extractLsb' 0 8) := by
  rw [readByte_inside hs (by decide), show s.latchUptime 0x04 = { s with uptimeLatch := some s.uptime } from rfl]
  rw [afterRead_other _ (by decide) (by decide)]
  rfl

theorem readByte_uptimeInner {s : State} (hs : s.starting = false) {k : Nat} (hk : k = 1 ∨ k = 2) :
    s.readByte (0x04 + k) = s.shift ((le32 (s.uptimeLatch.getD s.uptime)).getD k 0) := by
  rw [readByte_plain hs (by omega), exchangeByte_uptime s (by omega)]
  obtain rfl | rfl := hk
  · exact ⟨by decide, by decide, by decide⟩
  · exact ⟨by decide, by decide, by decide⟩

theorem readByte_uptimeLast {s : State} (hs : s.starting = false) :
    s.readByte 0x07 = { s.shift ((s.uptimeLatch.getD s.uptime).extractLsb' 24 8) with uptimeLatch := none } := by
  rw [readByte_inside hs (by decide), latchUptime_other s (by decide)]
  rfl

theorem readBytes_one (a : Nat) (s : State) : State.readBytes 1 a s = s.readByte a := rfl

theorem readByte_viewEnd {s : State} (hs : s.starting = false) (c : Chan) : s.readByte (viewAddr c + 0x1F) =
    if s.seqs[c].viewLatched then (s.shift (s.mem.read (viewAddr c + 0x1F))).unlatch c
    else s.shift (s.mem.read (viewAddr c + 0x1F)) := by
  have hc := c.isLt
  have hInside : viewAddr c + 0x1F < 0xA00 := by unfold viewAddr; omega
  have hUptime : viewAddr c + 0x1F ≠ 0x04 ∧ viewAddr c + 0x1F ≠ 0x07 := by unfold viewAddr; omega
  rw [readByte_inside hs hInside, latchUptime_other s hUptime.1, exchangeByte_view]
  unfold State.afterRead
  rw [if_neg hUptime.2, viewEnd_last]
  rfl

/-- Settles O11: the plain read by induction on its bytes, and each latch by its address. -/
theorem memoryReads : Obligations.MemoryReads := by
  refine ⟨fun s a count h hLatch => ?_, fun s h => ⟨?_, ?_, ?_, fun c => ?_⟩⟩
  · rw [exec_memoryRead h, readBytes_plain count _ (afterAddress s []) h.1 fun k hk => hLatch k hk _ rfl]
    rfl
  · rw [exec_memoryRead h]
    show Host.Outcome.next (((((afterAddress s []).readByte 0x04).readByte (0x04 + 1)).readByte (0x04 + 2)).readByte 0x07)
      = _
    rw [readByte_uptimeFirst (s := afterAddress s []) h.1]
    generalize hLatched : State.shift _ _ = t
    have hStarting : t.starting = false := hLatched ▸ h.1
    rw [readByte_uptimeInner hStarting (.inl rfl), readByte_uptimeInner (by exact hStarting) (.inr rfl),
      readByte_uptimeLast (by exact hStarting),
      ← hLatched]
    rfl
  · rw [exec_memoryRead h]
    exact congrArg _ (readByte_uptimeFirst h.1)
  · rw [exec_memoryRead h]
    exact congrArg _ (readByte_uptimeLast h.1)
  · have hc := c.isLt
    have hStart : (BitVec.ofNat 16 (viewAddr c + 0x1F)).toNat % 4096 = viewAddr c + 0x1F := by
      rw [BitVec.toNat_ofNat]
      unfold viewAddr
      omega
    rw [exec_memoryRead h, hStart, readBytes_one, readByte_viewEnd (s := afterAddress s []) h.1]
    refine ⟨_, rfl, fun hView => ?_, fun hView => ?_⟩
    · rw [if_neg]
      · rfl
      · exact Bool.not_eq_true _ ▸ hView
    · rw [if_pos (by exact hView)]
      refine ⟨rfl, Memory.read_write_same s.mem (viewAddr c) 0,
        fun x hx => Memory.read_write_other s.mem (viewAddr c) x 0 hx,
        upd_same _ _ _, fun d hd => upd_other _ _ _ _ (Ne.symm hd)⟩

end Sys2Proof.Machine
end

section
/-! PROOFS. What a memory write stores and watches, and the transactions that are not served. -/

namespace Sys2Proof.Machine

/-! ### The bytes the host owns -/

theorem planByte_iff (a : Nat) : (∃ (p : PlanId) (k : Nat), k < 64 ∧ ¬ (0x28 ≤ k ∧ k ≤ 0x2B) ∧ a = planAddr p + k)
    ↔ 0x100 ≤ a ∧ a < 0x500 ∧ ¬ (0x28 ≤ a % 64 ∧ a % 64 ≤ 0x2B) := by
  unfold planAddr
  constructor
  · rintro ⟨p, k, hk⟩
    omega
  · intro h
    exact ⟨⟨(a - 0x100) / 64, by omega⟩, a % 64, by omega, h.2.2, by dsimp only; omega⟩

theorem slotOf_val (a : Nat) : (slotOf a).val = (a - 0x500) / 64 % 8 := rfl

theorem slotByte_iff (s : State) (a : Nat) : (∃ (n : SlotId) (k : Nat), k < 0x10 ∧ a = slotAddr n + k ∧ s.slots[n] ≠ .taken)
    ↔ 0x500 ≤ a ∧ a < 0x700 ∧ a % 64 < 0x10 ∧ s.slots[slotOf a] ≠ .taken := by
  unfold slotAddr
  constructor
  · rintro ⟨n, k, hk, hAddr, hFree⟩
    obtain rfl : slotOf a = n := Fin.ext (by rw [slotOf_val]; omega)
    exact ⟨by omega, by omega, by omega, hFree⟩
  · rintro ⟨hLow, hHigh, hOffset, hFree⟩
    exact ⟨slotOf a, a % 64, hOffset, by rw [slotOf_val]; omega, hFree⟩

theorem viewRequest_iff (a : Nat) : (∃ c : Chan, a = viewAddr c) ↔ 0x880 ≤ a ∧ a < 0x900 ∧ a % 32 = 0 := by
  unfold viewAddr
  constructor
  · rintro ⟨c, h⟩
    omega
  · intro h
    exact ⟨⟨(a - 0x880) / 32, by omega⟩, by dsimp only; omega⟩

theorem hostWritable_iff (s : State) (a : Nat) : hostWritable s a = true ↔ hostOwns s a := by
  unfold hostWritable hostOwns
  rw [planByte_iff, slotByte_iff, viewRequest_iff]
  unfold Config.memorySize
  by_cases hTaken : s.slots[slotOf a] = .taken
  all_goals split_ifs
  all_goals simp only [Bool.and_eq_true, Bool.not_eq_true', Bool.and_eq_false_iff, decide_eq_true_eq,
    decide_eq_false_iff_not, true_iff, false_iff, hTaken, ne_eq, not_true, not_false_eq_true, and_true, and_false, false_or]
  all_goals omega

theorem hostOwns_congr {s t : State} (h : t.slots = s.slots) (a : Nat) : hostOwns t a ↔ hostOwns s a := by
  rw [← hostWritable_iff, ← hostWritable_iff, hostWritable_congr h]

theorem wroteByte_congr {s t : State} (h : t.slots = s.slots) (start : Nat) (data : List Byte) (a : Nat) (b : Byte) :
    wroteByte t start data a b ↔ wroteByte s start data a b := by
  unfold wroteByte
  rw [hostOwns_congr h]

theorem not_wroteByte_nil (s : State) (start a : Nat) (b : Byte) : ¬ wroteByte s start [] a b :=
  fun h => nomatch h.2.1

theorem wroteByte_cons (s : State) (start : Nat) (v : Byte) (rest : List Byte) (a : Nat) (b : Byte) :
    wroteByte s start (v :: rest) a b ↔ (a = start ∧ v = b ∧ hostOwns s a) ∨ wroteByte s (start + 1) rest a b := by
  unfold wroteByte
  obtain rfl | hAt := eq_or_ne a start
  · rw [Nat.sub_self]
    simp
  · constructor
    · rintro ⟨hLe, hByte, hOwns⟩
      rw [show a - start = a - (start + 1) + 1 by omega] at hByte
      exact .inr ⟨by omega, hByte, hOwns⟩
    · rintro (⟨h, -⟩ | ⟨hLe, hByte, hOwns⟩)
      · exact absurd h hAt
      · rw [show a - start = a - (start + 1) + 1 by omega]
        exact ⟨by omega, hByte, hOwns⟩

/-! ### The data phase, field by field -/

/-- A figure of the state that a stored byte changes at one address only. -/
def WrittenAt {α : Type} (f : State → α) (a : Nat) (u : Byte → α → α) : Prop :=
  ∀ (s : State) (x : Nat) (b : Byte), s.starting = false →
    (hostOwns s x → f ((s.writeByte x b).shift 0) = if x = a then u b (f s) else f s)
    ∧ (¬ hostOwns s x → f ((s.writeByte x b).shift 0) = f s)

/-- A fact about the state that a stored byte brings at given addresses and none takes away. -/
def BroughtAt (q : State → Prop) (r : Nat → Prop) : Prop :=
  ∀ (s : State) (x : Nat) (b : Byte), s.starting = false →
    (hostOwns s x → (q ((s.writeByte x b).shift 0) ↔ q s ∨ r x)) ∧ (¬ hostOwns s x → (q ((s.writeByte x b).shift 0) ↔ q s))

theorem writeByte_slots (s : State) (a : Nat) (b : Byte) : ((s.writeByte a b).shift 0).slots = s.slots :=
  (Writing.writeByte s a b).slots_eq

theorem writeByte_starting (s : State) (a : Nat) (b : Byte) : ((s.writeByte a b).shift 0).starting = s.starting :=
  (Writing.writeByte s a b).starting_eq

theorem WrittenAt.writeBytes {α : Type} {f : State → α} {x : Nat} {u : Byte → α → α} (h : WrittenAt f x u) :
    ∀ (data : List Byte) (a : Nat) (s : State), s.starting = false →
      (∀ b, wroteByte s a data x b → f (State.writeBytes data a s) = u b (f s))
      ∧ ((∀ b, ¬ wroteByte s a data x b) → f (State.writeBytes data a s) = f s)
  | [], a, s, _ => ⟨fun b hb => absurd hb (not_wroteByte_nil s a x b), fun _ => rfl⟩
  | v :: rest, a, s, hs => by
    obtain ⟨hRestWritten, hRestKept⟩ := h.writeBytes rest (a + 1) _ ((writeByte_starting s a v).trans hs)
    simp only [wroteByte_congr (writeByte_slots s a v)] at hRestWritten hRestKept
    obtain ⟨hOwned, hForeign⟩ := h s a v hs
    have hLater (b : Byte) (hb : wroteByte s (a + 1) rest x b) : a ≠ x := fun e => by
      have := hb.1
      omega
    simp only [wroteByte_cons, State.writeBytes]
    constructor
    · rintro b (⟨rfl, rfl, hOwns⟩ | hb)
      · rw [hRestKept fun b hb => hLater b hb rfl, hOwned hOwns, if_pos rfl]
      · rw [hRestWritten b hb]
        by_cases hOwns : hostOwns s a
        · rw [hOwned hOwns, if_neg (hLater b hb)]
        · rw [hForeign hOwns]
    · intro hNone
      rw [hRestKept fun b hb => hNone b (.inr hb)]
      by_cases hOwns : hostOwns s a
      · rw [hOwned hOwns, if_neg]
        rintro rfl
        exact hNone v (.inl ⟨rfl, rfl, hOwns⟩)
      · exact hForeign hOwns

theorem BroughtAt.writeBytes {q : State → Prop} {r : Nat → Prop} (h : BroughtAt q r) :
    ∀ (data : List Byte) (a : Nat) (s : State), s.starting = false →
      (q (State.writeBytes data a s) ↔ q s ∨ ∃ x b, r x ∧ wroteByte s a data x b)
  | [], a, s, _ => by
    simp only [not_wroteByte_nil, and_false, exists_false, or_false]
    rfl
  | v :: rest, a, s, hs => by
    have hRest := h.writeBytes rest (a + 1) _ ((writeByte_starting s a v).trans hs)
    simp only [wroteByte_congr (writeByte_slots s a v)] at hRest
    obtain ⟨hOwned, hForeign⟩ := h s a v hs
    simp only [wroteByte_cons, State.writeBytes]
    rw [hRest]
    by_cases hOwns : hostOwns s a
    · rw [hOwned hOwns]
      constructor
      · rintro ((hq | hr) | ⟨x, b, hr, hb⟩)
        · exact .inl hq
        · exact .inr ⟨a, v, hr, .inl ⟨rfl, rfl, hOwns⟩⟩
        · exact .inr ⟨x, b, hr, .inr hb⟩
      · rintro (hq | ⟨x, b, hr, ⟨rfl, -, -⟩ | hb⟩)
        · exact .inl (.inl hq)
        · exact .inl (.inr hr)
        · exact .inr ⟨x, b, hr, hb⟩
    · rw [hForeign hOwns]
      constructor
      · rintro (hq | ⟨x, b, hr, hb⟩)
        · exact .inl hq
        · exact .inr ⟨x, b, hr, .inr hb⟩
      · rintro (hq | ⟨x, b, hr, ⟨rfl, -, hx⟩ | hb⟩)
        · exact .inl hq
        · exact absurd hx hOwns
        · exact .inr ⟨x, b, hr, hb⟩

theorem writeByte_foreign {s : State} {a : Nat} (h : ¬ hostOwns s a) (b : Byte) : s.writeByte a b = s.setErr := by
  unfold State.writeByte
  rw [if_pos (.inr (Bool.eq_false_iff.mpr fun e => h ((hostWritable_iff s a).mp e)))]

theorem writeByte_owned {s : State} {a : Nat} (hs : s.starting = false) (h : hostOwns s a) (b : Byte) :
    s.writeByte a b = { if a < 0x040 then s else s.poke a b with watch := s.watch.record a b } := by
  have hServed : ¬ (s.starting = true ∨ hostWritable s a = false) := by
    rw [hs, (hostWritable_iff s a).mpr h]
    decide
  unfold State.writeByte
  rw [if_neg hServed]
  split <;> rfl

theorem writeByte_watch_owned {s : State} {a : Nat} (hs : s.starting = false) (h : hostOwns s a) (b : Byte) :
    (s.writeByte a b).watch = s.watch.record a b := by
  rw [writeByte_owned hs h]

theorem writeByte_watch_foreign {s : State} {a : Nat} (h : ¬ hostOwns s a) (b : Byte) : (s.writeByte a b).watch = s.watch := by
  rw [writeByte_foreign h]
  rfl

/-- A figure of the watch record that one address's byte sets. -/
theorem writtenAt_watch {α : Type} (f : Watch → α) {a : Nat} {u : Byte → α → α}
    (h : ∀ w x b, f (w.record x b) = if x = a then u b (f w) else f w) : WrittenAt (fun s => f s.watch) a u :=
  fun s x b hs => ⟨fun hOwns => (congrArg f (writeByte_watch_owned hs hOwns b)).trans (h s.watch x b),
    fun hOwns => congrArg f (writeByte_watch_foreign hOwns b)⟩

theorem broughtAt_watch (q : Watch → Prop) {r : Nat → Prop} (h : ∀ w x b, q (w.record x b) ↔ q w ∨ r x) :
    BroughtAt (fun s => q s.watch) r :=
  fun s x b hs => ⟨fun hOwns => (iff_of_eq (congrArg q (writeByte_watch_owned hs hOwns b))).trans (h s.watch x b),
    fun hOwns => iff_of_eq (congrArg q (writeByte_watch_foreign hOwns b))⟩

theorem writtenAt_mem {a : Nat} (ha : 0x040 ≤ a) : WrittenAt (fun s => s.mem.read a) a fun b _ => b := by
  refine fun s x b hs => ⟨fun hOwns => ?_, fun hOwns => ?_⟩
  · show (s.writeByte x b).mem.read a = _
    rw [writeByte_owned hs hOwns]
    split_ifs with hLow hAt hAt
    · omega
    · rfl
    · exact hAt ▸ Memory.read_write_same s.mem x b
    · exact Memory.read_write_other s.mem x a b (Ne.symm hAt)
  · show (s.writeByte x b).mem.read a = _
    rw [writeByte_foreign hOwns]
    rfl

/-! ### The watch record, field by field (R161) -/

theorem record_nodes (w : Watch) (a : Nat) (b : Byte) :
    (w.record a b).nodes = if 0x060 ≤ a ∧ a < 0x080 then w.nodes ||| bit8 ((a - 0x060) / 4) else w.nodes := by
  unfold Watch.record
  split_ifs <;> first | rfl | omega

theorem record_links (w : Watch) (a : Nat) (b : Byte) : (w.record a b).links =
    if 0x080 ≤ a ∧ a < 0x0C0 then w.links ||| (1#16 <<< ((a - 0x080) / 4)) else w.links := by
  unfold Watch.record
  split_ifs <;> first | rfl | omega

theorem record_wiring (w : Watch) (a : Nat) (b : Byte) : (w.record a b).wiring =
    if 0x0C0 ≤ a ∧ a < 0x100 then w.wiring ||| (1#4 <<< ((a - 0x0C0) / 16)) else w.wiring := by
  unfold Watch.record
  split_ifs <;> first | rfl | omega

theorem upd_mk {α : Type} {n : Nat} (v : Vector α n) (i : Nat) (hi : i < n) (j : Fin n) (x : α) :
    (upd v ⟨i, hi⟩ x)[j] = if i = j.val then x else v[j] := by
  rw [upd_get]
  exact if_congr Fin.ext_iff rfl rfl

theorem record_plans (w : Watch) (a : Nat) (b : Byte) : (w.record a b).plans =
    if 0x100 ≤ a ∧ a < 0x500 ∧ a % 64 = 0 then upd w.plans ⟨(a - 0x100) / 64 % 16, Nat.mod_lt _ (by decide)⟩ (some b)
    else w.plans := by
  unfold Watch.record
  split_ifs <;> first | rfl | omega

theorem record_plan (w : Watch) (a : Nat) (b : Byte) (p : PlanId) :
    (w.record a b).plans[p] = if a = planAddr p then some b else w.plans[p] := by
  have hp := p.isLt
  rw [record_plans]
  unfold planAddr
  by_cases hArea : 0x100 ≤ a ∧ a < 0x500 ∧ a % 64 = 0
  · rw [if_pos hArea, upd_mk]
    exact if_congr (by omega) rfl rfl
  · rw [if_neg hArea, if_neg (by omega)]

theorem record_slots (w : Watch) (a : Nat) (b : Byte) : (w.record a b).slots =
    if 0x500 ≤ a ∧ a < 0x700 ∧ a % 64 = 0 then upd w.slots ⟨(a - 0x500) / 64 % 8, Nat.mod_lt _ (by decide)⟩ (some b)
    else w.slots := by
  unfold Watch.record
  split_ifs <;> first | rfl | omega

theorem record_slot (w : Watch) (a : Nat) (b : Byte) (n : SlotId) :
    (w.record a b).slots[n] = if a = slotAddr n then some b else w.slots[n] := by
  have hn := n.isLt
  rw [record_slots]
  unfold slotAddr
  by_cases hArea : 0x500 ≤ a ∧ a < 0x700 ∧ a % 64 = 0
  · rw [if_pos hArea, upd_mk]
    exact if_congr (by omega) rfl rfl
  · rw [if_neg hArea, if_neg (by omega)]

theorem record_views (w : Watch) (a : Nat) (b : Byte) : (w.record a b).views =
    if 0x880 ≤ a ∧ a < 0x900 ∧ a % 32 = 0 then upd w.views ⟨(a - 0x880) / 32 % 4, Nat.mod_lt _ (by decide)⟩ (some b)
    else w.views := by
  unfold Watch.record
  split_ifs <;> first | rfl | omega

theorem record_view (w : Watch) (a : Nat) (b : Byte) (c : Chan) :
    (w.record a b).views[c] = if a = viewAddr c then some b else w.views[c] := by
  have hc := c.isLt
  rw [record_views]
  unfold viewAddr
  by_cases hArea : 0x880 ≤ a ∧ a < 0x900 ∧ a % 32 = 0
  · rw [if_pos hArea, upd_mk]
    exact if_congr (by omega) rfl rfl
  · rw [if_neg hArea, if_neg (by omega)]

theorem record_news (w : Watch) (a : Nat) (b : Byte) : (w.record a b).news =
    { done := if a = 0x10 then w.news.done ||| b else w.news.done
      nodeState := if a = 0x11 then w.news.nodeState ||| b else w.news.nodeState
      nodeStale := if a = 0x12 then w.news.nodeStale ||| b else w.news.nodeStale
      chanCond := if a = 0x13 then w.news.chanCond ||| b else w.news.chanCond
      chanSafety := if a = 0x14 then w.news.chanSafety ||| b else w.news.chanSafety } := by
  unfold Watch.record
  by_cases hHeader : a < 0x040
  · rw [if_pos hHeader]
  · rw [if_neg hHeader, if_neg (show ¬ a = 0x10 by omega), if_neg (show ¬ a = 0x11 by omega),
      if_neg (show ¬ a = 0x12 by omega), if_neg (show ¬ a = 0x13 by omega), if_neg (show ¬ a = 0x14 by omega)]
    split_ifs <;> rfl

/-! ### A memory write up to its end -/

/-- The state at the start of a write's data phase. -/
def State.writeStart (s : State) : State := { afterAddress s [] with watch := Watch.empty }

theorem exec_memoryWrite {s : State} (h : served s) (a : BitVec 16) (data : List Byte) :
    exec (.memoryWrite (some a) data) s =
      .next { State.writeBytes data (a.toNat % 4096) s.writeStart with endPending := true } := by
  have hBody : exec (.memoryWrite (some a) data) s =
      .next ((afterAddress s []).memoryWriteBody (a.toNat % 4096) data) :=
    congrArg _ (transactFrom_of_not_dropped (.inl h.2) _ _)
  have hStarting : (State.writeBytes data (a.toNat % 4096) s.writeStart).starting = false :=
    (Writing.writeBytes data _ s.writeStart).starting_eq.trans h.1
  rw [hBody]
  unfold State.memoryWriteBody
  show Host.Outcome.next { State.writeBytes data (a.toNat % 4096) s.writeStart with
    endPending := !(State.writeBytes data (a.toNat % 4096) s.writeStart).starting } = _
  rw [hStarting]
  rfl

theorem writeBytes_sdo : ∀ (data : List Byte) (a : Nat) (s : State),
    (State.writeBytes data a s).sdo = s.sdo ++ List.replicate data.length 0
  | [], _, s => (List.append_nil s.sdo).symm
  | b :: rest, a, s => by
    have hKept : (s.writeByte a b).sdo = s.sdo := by
      obtain ⟨-, e⟩ | ⟨-, -, -, e⟩ | ⟨-, -, -, e⟩ := writeByte_spec s a b
      all_goals rw [e]
    rw [State.writeBytes, writeBytes_sdo rest, State.shift_sdo, hKept, List.append_assoc]
    rfl

theorem writeByte_err {s : State} (hs : s.starting = false) (a : Nat) (b : Byte) :
    (s.writeByte a b).err = true ↔ s.err = true ∨ ¬ hostOwns s a := by
  by_cases hOwns : hostOwns s a
  · rw [writeByte_owned hs hOwns]
    simp only [hOwns, not_true, or_false]
    split <;> rfl
  · rw [writeByte_foreign hOwns]
    exact iff_of_true rfl (.inr hOwns)

theorem writeBytes_err : ∀ (data : List Byte) (a : Nat) (s : State), s.starting = false →
    ((State.writeBytes data a s).err = true ↔ s.err = true ∨ ∃ k, k < data.length ∧ ¬ hostOwns s (a + k))
  | [], a, s, _ => by
    simp only [List.length_nil, Nat.not_lt_zero, false_and, exists_false, or_false]
    rfl
  | b :: rest, a, s, hs => by
    rw [State.writeBytes, writeBytes_err rest (a + 1) _ ((writeByte_starting s a b).trans hs)]
    simp only [hostOwns_congr (writeByte_slots s a b)]
    rw [State.shift_err, writeByte_err hs, or_assoc]
    refine or_congr Iff.rfl ⟨?_, ?_⟩
    · rintro (h | ⟨k, hk, h⟩)
      · exact ⟨0, Nat.succ_pos _, h⟩
      · exact ⟨k + 1, Nat.succ_lt_succ hk, by rwa [Nat.add_assoc, Nat.add_comm 1 k] at h⟩
    · rintro ⟨_ | k, hk, h⟩
      · exact .inl h
      · exact .inr ⟨k, Nat.lt_of_succ_lt_succ hk, by rwa [Nat.add_assoc, Nat.add_comm 1 k]⟩

/-- A write's data phase changes the memory, the watch record, ERR and SDO alone. -/
theorem writeBytes_frame (data : List Byte) (a : Nat) (s : State) : State.writeBytes data a s =
    { s with
      mem := (State.writeBytes data a s).mem
      watch := (State.writeBytes data a s).watch
      err := (State.writeBytes data a s).err
      sdo := (State.writeBytes data a s).sdo } := by
  have hFixed := (Writing.writeBytes data a s).fixed
  generalize State.writeBytes data a s = t at hFixed
  have hBack := congrArg (fun u : State => { u with mem := t.mem, watch := t.watch, err := t.err, sdo := t.sdo }) hFixed
  exact hBack

theorem exists_at {r : Nat → Byte → Prop} {base n : Nat} :
    (∃ x b, (base ≤ x ∧ x < base + n) ∧ r x b) ↔ ∃ k b, k < n ∧ r (base + k) b := by
  constructor
  · rintro ⟨x, b, ⟨hLow, hHigh⟩, h⟩
    exact ⟨x - base, b, by omega, by rwa [Nat.add_sub_cancel' hLow]⟩
  · rintro ⟨k, b, hk, h⟩
    exact ⟨base + k, b, by omega, h⟩

theorem record_node (n : NodeId) (w : Watch) (x : Nat) (b : Byte) : has8 (w.record x b).nodes n.val = true
    ↔ has8 w.nodes n.val = true ∨ (nodeSettingAddr n ≤ x ∧ x < nodeSettingAddr n + 4) := by
  have hn := n.isLt
  rw [record_nodes]
  unfold nodeSettingAddr
  split
  · rw [has8_add _ _ _ (by omega) hn, Bool.or_eq_true, decide_eq_true_eq]
    exact or_congr Iff.rfl (by omega)
  · exact (or_iff_left (by omega)).symm

theorem getLsbD_one_shift {n : Nat} (v : BitVec n) (i j : Nat) (hj : j < n) :
    (v ||| (1#n <<< i)).getLsbD j = true ↔ v.getLsbD j = true ∨ i = j := by
  have hOne : (1#n <<< i).getLsbD j = decide (i = j) := by
    rw [BitVec.getLsbD_shiftLeft, BitVec.getLsbD_one]
    by_cases h : i = j <;> simp [h] <;> omega
  rw [BitVec.getLsbD_or, hOne, Bool.or_eq_true, decide_eq_true_eq]

theorem record_link (n : LinkId) (w : Watch) (x : Nat) (b : Byte) : (w.record x b).links.getLsbD n.val = true
    ↔ w.links.getLsbD n.val = true ∨ (linkAddr n ≤ x ∧ x < linkAddr n + 4) := by
  have hn := n.isLt
  rw [record_links]
  unfold linkAddr
  split
  · rw [getLsbD_one_shift _ _ _ hn]
    exact or_congr Iff.rfl (by omega)
  · exact (or_iff_left (by omega)).symm

theorem record_wire (c : Chan) (w : Watch) (x : Nat) (b : Byte) : (w.record x b).wiring.getLsbD c.val = true
    ↔ w.wiring.getLsbD c.val = true ∨ (wiringAddr c ≤ x ∧ x < wiringAddr c + 16) := by
  have hc := c.isLt
  rw [record_wiring]
  unfold wiringAddr
  split
  · rw [getLsbD_one_shift _ _ _ hc]
    exact or_congr Iff.rfl (by omega)
  · exact (or_iff_left (by omega)).symm

/-- Of a field that is `some` of a watched byte's last value: what a whole write leaves there. -/
theorem optional_iff {s : State} {start : Nat} {data : List Byte} {a : Nat} {x : Option Byte} (b : Byte)
    (hWritten : ∀ v, wroteByte s start data a v → x = some v) (hKept : (∀ v, ¬ wroteByte s start data a v) → x = none) :
    x = some b ↔ wroteByte s start data a b := by
  constructor
  · intro hx
    by_contra hNot
    by_cases hAny : ∃ v, wroteByte s start data a v
    · obtain ⟨v, hv⟩ := hAny
      obtain rfl : v = b := Option.some.inj ((hWritten v hv).symm.trans hx)
      exact hNot hv
    · exact absurd ((hKept (not_exists.mp hAny)).symm.trans hx) (by simp)
  · exact hWritten b

/-- Where no byte was watched before, the watched entries are those the write's bytes lie in. -/
theorem watched_iff {q : Prop} {s : State} {start : Nat} {data : List Byte} {base n : Nat} (hClear : ¬ q) :
    q ∨ (∃ x b, (base ≤ x ∧ x < base + n) ∧ wroteByte s start data x b) ↔ ∃ k b, k < n ∧ wroteByte s start data (base + k) b := by
  rw [or_iff_right hClear, exists_at (r := fun x b => wroteByte s start data x b)]

/-- Settles O13: each field of the watch record and each address of the memory by its own effect of a byte. -/
theorem memoryWriteEffect : Obligations.MemoryWriteEffect := by
  intro s a data h
  have hs : s.writeStart.starting = false := h.1
  have hAs (x : Nat) (b : Byte) : wroteByte s.writeStart (a.toNat % 4096) data x b ↔ wroteByte s (a.toNat % 4096) data x b :=
    wroteByte_congr rfl _ _ _ _
  have hAt {α : Type} {f : State → α} {x : Nat} {u : Byte → α → α} (hf : WrittenAt f x u) :=
    hf.writeBytes data (a.toNat % 4096) _ hs
  have hBy {q : State → Prop} {r : Nat → Prop} (hq : BroughtAt q r) := hq.writeBytes data (a.toNat % 4096) _ hs
  have hErr := writeBytes_err data (a.toNat % 4096) _ hs
  have hProtected := (Writing.writeBytes data (a.toNat % 4096) s.writeStart).protects
  have hFrame := writeBytes_frame data (a.toNat % 4096) s.writeStart
  rw [writeBytes_sdo] at hFrame
  simp only [hAs] at hAt hBy
  refine ⟨_, exec_memoryWrite h a data, ?_⟩
  generalize State.writeBytes data (a.toNat % 4096) s.writeStart = t at *
  have hOption {x : Nat} {f : Watch → Option Byte} (hf : ∀ w y b, f (Watch.record w y b) = if y = x then some b else f w)
      (hNone : f Watch.empty = none) (b : Byte) : f t.watch = some b ↔ wroteByte s (a.toNat % 4096) data x b :=
    have hField := hAt (writtenAt_watch f (u := fun b _ => some b) hf)
    optional_iff b hField.1 fun hNot => (hField.2 hNot).trans hNone
  have hNews {x : Nat} (f : News → BitVec 8)
      (hf : ∀ w y b, f (Watch.record w y b).news = if y = x then f w.news ||| b else f w.news) (hNone : f Watch.empty.news = 0) :
      (∀ b, wroteByte s (a.toNat % 4096) data x b → f t.watch.news = b)
      ∧ ((∀ b, ¬ wroteByte s (a.toNat % 4096) data x b) → f t.watch.news = 0) :=
    have hField := hAt (writtenAt_watch (fun w => f w.news) (u := fun b v => v ||| b) hf)
    ⟨fun b hb => (hField.1 b hb).trans (by rw [show f s.writeStart.watch.news = 0 from hNone]; exact BitVec.zero_or),
      fun hNot => (hField.2 hNot).trans hNone⟩
  have hDone := hNews News.done (fun w x b => congrArg News.done (record_news w x b)) rfl
  have hState := hNews News.nodeState (fun w x b => congrArg News.nodeState (record_news w x b)) rfl
  have hStale := hNews News.nodeStale (fun w x b => congrArg News.nodeStale (record_news w x b)) rfl
  have hCond := hNews News.chanCond (fun w x b => congrArg News.chanCond (record_news w x b)) rfl
  have hSafety := hNews News.chanSafety (fun w x b => congrArg News.chanSafety (record_news w x b)) rfl
  refine ⟨fun x b hx => (hAt (writtenAt_mem hx)).1 b, fun x hx => ?_, ?_, ?_, fun n => ?_, fun n => ?_, fun c => ?_,
    fun p => hOption (f := fun w => w.plans[p]) (fun w x b => record_plan w x b p) ?_,
    fun n => hOption (f := fun w => w.slots[n]) (fun w x b => record_slot w x b n) ?_,
    fun c => hOption (f := fun w => w.views[c]) (fun w x b => record_view w x b c) ?_,
    fun b => ⟨hDone.1 b, hState.1 b, hStale.1 b, hCond.1 b, hSafety.1 b, hDone.2, hState.2, hStale.2, hCond.2, hSafety.2⟩⟩
  · by_cases hLow : x < 0x40
    · exact hProtected x (.inr (.inl hLow))
    · exact (hAt (writtenAt_mem (by omega))).2 (hx.resolve_left hLow)
  · simpa only [hostOwns_congr (show s.writeStart.slots = s.slots from rfl)] using
      hErr.trans (or_iff_right Bool.false_ne_true)
  · rw [hFrame]
    rfl
  · refine (hBy (broughtAt_watch (fun w => has8 w.nodes n.val = true) (record_node n))).trans (watched_iff ?_)
    exact Bool.eq_false_iff.mp BitVec.getLsbD_zero
  · refine (hBy (broughtAt_watch (fun w => w.links.getLsbD n.val = true) (record_link n))).trans (watched_iff ?_)
    exact Bool.eq_false_iff.mp BitVec.getLsbD_zero
  · refine (hBy (broughtAt_watch (fun w => w.wiring.getLsbD c.val = true) (record_wire c))).trans (watched_iff ?_)
    exact Bool.eq_false_iff.mp BitVec.getLsbD_zero
  · revert p
    decide
  · revert n
    decide
  · revert c
    decide

end Sys2Proof.Machine
end

section
/-! PROOFS. The end of a write transaction kind by kind, offers as write transactions, and what is not served. -/

namespace Sys2Proof.Machine

/-! ### The end of a write transaction: a kind that was not written changes nothing (R162) -/

theorem forEach_unchanged {α : Type} (l : List α) (f : α → State → State) (s : State) (h : ∀ a ∈ l, f a s = s) :
    forEach l f s = s := by
  induction l with
  | nil => rfl
  | cons a rest ih =>
    show forEach rest f (f a s) = s
    rw [h a List.mem_cons_self]
    exact ih fun b hb => h b (List.mem_cons_of_mem a hb)

theorem clearNews_unwritten (s : State) : s.clearNews Watch.empty.news = s := by
  unfold State.clearNews
  have hKept (v : BitVec 8) : v &&& ~~~(0 : BitVec 8) = v := by
    rw [show (0 : BitVec 8) = 0#8 from rfl, BitVec.not_zero, BitVec.and_allOnes]
  show { s with news := ⟨s.news.done &&& ~~~0, s.news.nodeState &&& ~~~0, s.news.nodeStale &&& ~~~0, s.news.chanCond &&& ~~~0,
    s.news.chanSafety &&& ~~~0⟩ } = s
  simp only [hKept]

theorem takePlans_unwritten (s : State) {w : Watch} (h : ∀ p : PlanId, w.plans[p] = none) : s.takePlans w = s :=
  forEach_unchanged _ _ _ fun p _ => by rw [h p]

theorem takeDisconnect_unwritten (s : State) {w : Watch} (h : w.wiring = 0) : s.takeDisconnect w = s := by
  unfold State.takeDisconnect
  rw [wiring_unwritten w h]
  exact reevaluate_idle s [] rfl

theorem takeTopology_unwritten (s : State) {w : Watch} (hNodes : w.nodes = 0) (hLinks : w.links = 0) (hWiring : w.wiring = 0) :
    s.takeTopology w = s := by
  unfold State.takeTopology
  rw [hNodes, hLinks, hWiring]
  have hNode : (Vector.ofFn fun n : NodeId => if has8 0 n.val then readNodePlan s.mem n else s.nodePlan[n]) = s.nodePlan := by
    ext
    simp [has8]
  have hLink : (Vector.ofFn fun i : LinkId => if (0 : BitVec 16).getLsbD i.val then readLink s.mem i else s.links[i]) = s.links := by
    ext : 1
    simp
  have hWire : (Vector.ofFn fun c : Chan => if (0 : BitVec 4).getLsbD c.val then readWiring s.mem c else s.wiring[c]) = s.wiring := by
    ext : 1
    simp
  rw [hNode, hLink, hWire]

theorem regroups_eq_false {w : Watch} (hNodes : w.nodes = 0) (hLinks : w.links = 0) (hWiring : w.wiring = 0)
    (hPlans : ∀ p : PlanId, w.plans[p] = none) : w.regroups = false := by
  simp [Watch.regroups, hNodes, hLinks, hWiring, hPlans]

theorem takeSlots_unwritten (s : State) {w : Watch} (h : ∀ n : SlotId, w.slots[n] = none) : s.takeSlots w = s :=
  forEach_unchanged _ _ _ fun n _ => by rw [h n]

theorem takeViews_unwritten (s : State) {w : Watch} (h : ∀ c : Chan, w.views[c] ≠ some 1) : s.takeViews w = s :=
  forEach_unchanged _ _ _ fun c _ => if_neg (h c)

theorem empty_plan (p : PlanId) : Watch.empty.plans[p] = none := by
  revert p
  decide

theorem empty_slot (n : SlotId) : Watch.empty.slots[n] = none := by
  revert n
  decide

theorem empty_view (c : Chan) : Watch.empty.views[c] ≠ some 1 := by
  revert c
  decide

/-- The state in which a write's end has been taken up and nothing of it handled yet. -/
def State.endTaken (s : State) : State := { s with endPending := false, watch := Watch.empty }

/-- Of a write that wrote no plan, wiring record, link or node setting, the end takes up the news masks, the slots and
the views alone. -/
theorem handleEnd_noTopology (s : State) (hNodes : s.watch.nodes = 0) (hLinks : s.watch.links = 0)
    (hWiring : s.watch.wiring = 0) (hPlans : ∀ p : PlanId, s.watch.plans[p] = none) :
    s.handleEnd = ((s.endTaken.clearNews s.watch.news).takeSlots s.watch).takeViews s.watch := by
  unfold State.handleEnd
  simp only
  rw [takePlans_unwritten _ hPlans, takeDisconnect_unwritten _ hWiring, takeTopology_unwritten _ hNodes hLinks hWiring,
    regroups_eq_false hNodes hLinks hWiring hPlans]
  rfl

theorem handleEnd_slots (s : State) {v : Vector (Option Byte) 8} (h : s.watch = { Watch.empty with slots := v }) :
    s.handleEnd = s.endTaken.takeSlots s.watch := by
  rw [handleEnd_noTopology s (by rw [h]; rfl) (by rw [h]; rfl) (by rw [h]; rfl) (by rw [h]; exact empty_plan),
    show s.watch.news = Watch.empty.news by rw [h], clearNews_unwritten,
    takeViews_unwritten _ (by rw [h]; exact empty_view)]

theorem handleEnd_views (s : State) {v : Vector (Option Byte) 4} (h : s.watch = { Watch.empty with views := v }) :
    s.handleEnd = s.endTaken.takeViews s.watch := by
  rw [handleEnd_noTopology s (by rw [h]; rfl) (by rw [h]; rfl) (by rw [h]; rfl) (by rw [h]; exact empty_plan),
    show s.watch.news = Watch.empty.news by rw [h], clearNews_unwritten,
    takeSlots_unwritten _ (by rw [h]; exact empty_slot)]

theorem handleEnd_news (s : State) {v : News} (h : s.watch = { Watch.empty with news := v }) :
    s.handleEnd = s.endTaken.clearNews v := by
  rw [handleEnd_noTopology s (by rw [h]; rfl) (by rw [h]; rfl) (by rw [h]; rfl) (by rw [h]; exact empty_plan),
    show s.watch.news = v by rw [h], takeSlots_unwritten _ (by rw [h]; exact empty_slot),
    takeViews_unwritten _ (by rw [h]; exact empty_view)]

theorem handleEnd_nothing (s : State) (h : s.watch = Watch.empty) : s.handleEnd = s.endTaken := by
  rw [handleEnd_slots s (v := Watch.empty.slots) h, takeSlots_unwritten _ (by rw [h]; exact empty_slot)]

/-! ### A write none of whose bytes the port stores -/

theorem writeBytes_discarded : ∀ (data : List Byte) (a : Nat) (s : State),
    (∀ k, k < data.length → s.starting = true ∨ ¬ hostOwns s (a + k)) →
    State.writeBytes data a s =
      { s with err := s.err || decide (0 < data.length), sdo := s.sdo ++ List.replicate data.length 0 }
  | [], _, s, _ => by simp [State.writeBytes]
  | b :: rest, a, s, h => by
    have hFirst : s.writeByte a b = s.setErr := by
      unfold State.writeByte
      refine if_pos ((h 0 (Nat.succ_pos _)).imp_right fun hNot => ?_)
      exact Bool.eq_false_iff.mpr fun e => hNot ((hostWritable_iff s a).mp e)
    have hRest (k : Nat) (hk : k < rest.length) :
        ((s.writeByte a b).shift 0).starting = true ∨ ¬ hostOwns ((s.writeByte a b).shift 0) (a + 1 + k) := by
      rw [writeByte_starting, hostOwns_congr (writeByte_slots s a b), Nat.add_assoc, Nat.add_comm 1 k]
      exact h (k + 1) (Nat.succ_lt_succ hk)
    rw [State.writeBytes, writeBytes_discarded rest (a + 1) _ hRest, hFirst]
    simp [State.setErr, State.shift, List.replicate_succ]

theorem memoryWriteBody_discarded (s : State) (a : Nat) (data : List Byte)
    (h : ∀ k, k < data.length → s.starting = true ∨ ¬ hostOwns s (a + k)) : s.memoryWriteBody a data =
      { s with
        err := s.err || decide (0 < data.length), sdo := s.sdo ++ List.replicate data.length 0
        watch := Watch.empty, endPending := !s.starting } := by
  unfold State.memoryWriteBody
  have hData := writeBytes_discarded data a { s with watch := Watch.empty } h
  rw [hData]

/-! ### Offers -/

theorem exec_offer {i : Instr} {o : Offer} (h : offerOf i = some o) (s : State) : exec i s = .next (s.offer o.slot o.bytes) := by
  cases i <;> cases h <;> rfl

theorem offer_eq {s : State} (h : s.endPending = false ∨ s.starting = true) (n : SlotId) (bytes : List Byte) :
    s.offer n bytes = if s.starting then (afterAddress s []).memoryWriteBody (slotAddr n) bytes
      else ((afterAddress s []).memoryWriteBody (slotAddr n) bytes).handleEnd := by
  have hServed : ¬ dropped s = true := by
    unfold dropped
    rcases h with h | h <;> simp [h]
  have hStarting : ((afterAddress s []).memoryWriteBody (slotAddr n) bytes).starting = s.starting :=
    (Writing.writeBytes bytes (slotAddr n) { afterAddress s [] with watch := Watch.empty }).starting_eq
  unfold State.offer
  rw [if_neg hServed, transactFrom_of_not_dropped h]
  simp only [hStarting]

theorem offerBytes_length (kind : OrderKind) (target : Byte) (more : List Byte) :
    (offerBytes kind target more).length = more.length + 3 := by
  exact (List.length_append ..).trans (Nat.add_comm 3 more.length)

/-- What an order's host part may hold: the three bytes of every order and at most the four more of an ACK. -/
theorem offer_length {i : Instr} {o : Offer} (h : offerOf i = some o) : 0 < o.bytes.length ∧ o.bytes.length ≤ 7 := by
  have hMore : o.more.length ≤ 4 := by
    cases i <;> cases h <;> simp [le16]
  have hLength : o.bytes.length = o.more.length + 3 := offerBytes_length o.kind o.target o.more
  omega

theorem startAddress_slot (n : SlotId) : (BitVec.ofNat 16 (slotAddr n)).toNat % 4096 = slotAddr n := by
  rw [BitVec.toNat_ofNat]
  unfold slotAddr
  omega

/-- Settles O22: the offer's transaction is the write's, with its end handled at once. -/
theorem orderIsOneWriteTransaction : Obligations.OrderIsOneWriteTransaction := by
  intro i o s hOffer hServed
  have hWrite := exec_memoryWrite hServed (BitVec.ofNat 16 (slotAddr o.slot)) o.bytes
  refine ⟨_, hWrite, rfl, ?_⟩
  have hBody : exec (.memoryWrite (some (BitVec.ofNat 16 (slotAddr o.slot))) o.bytes) s =
      .next ((afterAddress s []).memoryWriteBody ((BitVec.ofNat 16 (slotAddr o.slot)).toNat % 4096) o.bytes) :=
    congrArg _ (transactFrom_of_not_dropped (.inl hServed.2) _ _)
  have hState := Host.Outcome.next.inj (hBody.symm.trans hWrite)
  rw [startAddress_slot] at hState
  have hPending : ((afterAddress s []).memoryWriteBody (slotAddr o.slot) o.bytes).endPending = true := by rw [hState]
  rw [startAddress_slot, ← hState, exec_offer hOffer, offer_eq (.inl hServed.2), if_neg (by rw [hServed.1]; decide)]
  exact congrArg Host.Outcome.next (if_pos hPending).symm

/-! ### The bytes that spell a command (R158) -/

theorem address_eq {high low : Byte} {a : BitVec 16} (h : a.toNat = 256 * high.toNat + low.toNat) : high ++ low = a := by
  apply BitVec.eq_of_toNat_eq
  rw [BitVec.toNat_append, h, Nat.shiftLeft_eq_mul_pow, ← Nat.shiftLeft_eq_mul_pow]
  rw [← Nat.shiftLeft_add_eq_or_of_lt low.isLt, Nat.shiftLeft_eq, Nat.mul_comm]

theorem splitAddress_whole (high low : Byte) (data : List Byte) :
    splitAddress (high :: low :: data) = (some (high ++ low), data) := rfl

theorem splitAddress_cut {part : List Byte} (h : part.length ≤ 1) : splitAddress part = (none, part) := by
  match part, h with
  | [], _ => rfl
  | [_], _ => rfl

theorem decodeTransaction_cons (code : Byte) (rest : List Byte) : decodeTransaction (code :: rest) =
    some (if code = 0xA1 then .memoryRead (splitAddress rest).1 (splitAddress rest).2.length
      else if code = 0xA2 then .memoryWrite (splitAddress rest).1 (splitAddress rest).2
      else if code = 0xA5 then .registerRead (splitAddress rest).1 (splitAddress rest).2.length
      else if code = 0xA6 then .registerWrite (splitAddress rest).1 (splitAddress rest).2
      else .unknownCommand code rest.length) := rfl

/-! ### Transactions that are dropped, cut short or of no command -/

theorem transact_dropped {s : State} (hs : s.starting = false) (he : s.endPending = true) (count : Nat)
    (serve : State → State) : s.transact count serve = afterShift s (List.replicate count 0) := by
  have hDropped : dropped s = true := by
    unfold dropped
    rw [hs, he]
    rfl
  unfold State.transact
  rw [if_pos hDropped]
  rfl

theorem transactCut_served {s : State} (h : s.endPending = false ∨ s.starting = true) (count : Nat) :
    s.transactCut count = afterShift s (List.replicate count 0) := by
  have hServed : ¬ dropped s = true := by
    unfold dropped
    rcases h with h | h <;> simp [h]
  unfold State.transactCut State.transact
  rw [if_neg hServed]
  rfl

theorem transactCut_dropped {s : State} (hs : s.starting = false) (he : s.endPending = true) (count : Nat) :
    s.transactCut count = afterShift s (List.replicate count 0) := transact_dropped hs he count _

theorem transactFrom_dropped {s : State} (hs : s.starting = false) (he : s.endPending = true) (count : Nat)
    (serve : State → State) : s.transactFrom count serve = afterShift s (List.replicate (count + 2) 0) :=
  transact_dropped hs he _ _

theorem offer_dropped {s : State} (hs : s.starting = false) (he : s.endPending = true) (n : SlotId) (bytes : List Byte) :
    s.offer n bytes = afterShift s (List.replicate (bytes.length + 2) 0) := by
  have hDropped : dropped s = true := by
    unfold dropped
    rw [hs, he]
    rfl
  unfold State.offer
  rw [if_pos hDropped, transactFrom_dropped hs he]

theorem unknownCommand_dropped {s : State} (hs : s.starting = false) (he : s.endPending = true) (code : Byte) (rest : Nat) :
    exec (.unknownCommand code rest) s = .next (afterShift s (List.replicate rest 0)) := by
  show execUnknownCommand code rest s = _
  unfold execUnknownCommand
  split
  · rw [transactCut_dropped hs he]
  · rw [transact_dropped hs he]

theorem exec_dropped {i : Instr} {count : Nat} {s : State} (h : bytesAfter i = some count) (hs : s.starting = false)
    (he : s.endPending = true) : exec i s = .next (afterShift s (List.replicate count 0)) := by
  have hFrom (n : Nat) (serve : State → State) := congrArg (Host.Outcome.next : State → Answer) (transactFrom_dropped hs he n serve)
  have hCut (n : Nat) := congrArg (Host.Outcome.next : State → Answer) (transactCut_dropped hs he n)
  have hOffer (n : SlotId) (bytes : List Byte) := congrArg (Host.Outcome.next : State → Answer) (offer_dropped hs he n bytes)
  cases i
  case memoryRead addr n | registerRead addr n => cases addr <;> cases h <;> first | exact hFrom _ _ | exact hCut _
  case memoryWrite addr data | registerWrite addr data => cases addr <;> cases h <;> first | exact hFrom _ _ | exact hCut _
  case unknownCommand code rest =>
    cases h
    exact unknownCommand_dropped hs he code _
  all_goals cases h
  all_goals first | exact hFrom _ _ | exact hOffer _ _

theorem knownCommand_eq_false {code : Byte} (h1 : code ≠ 0xA1) (h2 : code ≠ 0xA2) (h5 : code ≠ 0xA5) (h6 : code ≠ 0xA6) :
    knownCommand code = false := by
  unfold knownCommand
  rw [beq_eq_false_iff_ne.mpr h1, beq_eq_false_iff_ne.mpr h2, beq_eq_false_iff_ne.mpr h5, beq_eq_false_iff_ne.mpr h6]
  rfl

theorem exec_unknownCommand {s : State} (h : s.endPending = false ∨ s.starting = true) {code : Byte}
    (hCode : knownCommand code = false) (rest : Nat) :
    exec (.unknownCommand code rest) s = .next { afterShift s (List.replicate rest 0) with err := true } := by
  have hServed : ¬ dropped s = true := by
    unfold dropped
    rcases h with h | h <;> simp [h]
  show execUnknownCommand code rest s = _
  unfold execUnknownCommand State.transact
  rw [hCode, if_neg Bool.false_ne_true, if_neg hServed]
  rfl

theorem readBytes_starting : ∀ (n a : Nat) (s : State), s.starting = true →
    State.readBytes n a s = { s with sdo := s.sdo ++ List.replicate n 0, err := s.err || decide (0 < n) }
  | 0, _, s, _ => by simp [State.readBytes]
  | n + 1, a, s, hs => by
    rw [State.readBytes, readByte_outside s (.inl hs), readBytes_starting n (a + 1) _ (by exact hs)]
    simp [State.setErr, State.shift, List.replicate_succ]

/-- The host owns no byte of a TAKEN slot's host part (R118). -/
theorem not_hostOwns_taken {s : State} {n : SlotId} (h : s.slots[n] = .taken) {k : Nat} (hk : k < 0x10) :
    ¬ hostOwns s (slotAddr n + k) := by
  have hn := n.isLt
  rintro (hOwn | hOwn | hOwn | ⟨m, j, hj, hAddr, hFree⟩ | hOwn | hOwn)
  · unfold slotAddr at hOwn; omega
  · unfold slotAddr at hOwn; omega
  · rw [planByte_iff] at hOwn; unfold slotAddr at hOwn; omega
  · obtain rfl : n = m := Fin.ext (by unfold slotAddr at hAddr; omega)
    exact hFree h
  · rw [viewRequest_iff] at hOwn; unfold slotAddr at hOwn; omega
  · unfold slotAddr at hOwn; omega

/-- An offer of which the port stores no byte is discarded with ERR. -/
theorem exec_offer_discarded {i : Instr} {o : Offer} (hOffer : offerOf i = some o) {s : State}
    (h : s.endPending = false ∨ s.starting = true)
    (hNone : ∀ k, k < o.bytes.length → s.starting = true ∨ ¬ hostOwns s (slotAddr o.slot + k)) : exec i s = .next
      { afterAddress s (List.replicate o.bytes.length 0) with err := true, endPending := false, watch := Watch.empty } := by
  have hBody := memoryWriteBody_discarded (afterAddress s []) (slotAddr o.slot) o.bytes hNone
  rw [exec_offer hOffer, offer_eq h, hBody, show decide (0 < o.bytes.length) = true from decide_eq_true (offer_length hOffer).1]
  split
  case isTrue hs =>
    rw [show (!(afterAddress s []).starting) = false from congrArg not hs]
    rfl
  case isFalse hs =>
    rw [handleEnd_nothing _ rfl]
    rfl

/-- Settles O14: the bytes by the split of the address, and each unserved transaction by the port's own branch. -/
theorem transactionsNotServed : Obligations.TransactionsNotServed := by
  refine ⟨fun high low data a ha => ?_, fun part hPart => ?_, fun code rest h1 h2 h5 h6 => ?_, rfl, fun s hs => ⟨?_, ?_, ?_⟩,
    fun i o s hOffer hServed hTaken => ?_, fun i count s hBytes hs he => exec_dropped hBytes hs he,
    fun s h => ⟨?_, ?_, ?_, ?_, fun code rest h1 h2 h5 h6 => exec_unknownCommand h (knownCommand_eq_false h1 h2 h5 h6) rest⟩⟩
  · obtain rfl := address_eq ha
    exact ⟨rfl, rfl, rfl, rfl⟩
  · simp only [decodeTransaction_cons, splitAddress_cut hPart]
    exact ⟨rfl, rfl, rfl, rfl⟩
  · rw [decodeTransaction_cons, if_neg h1, if_neg h2, if_neg h5, if_neg h6]
  · intro a count
    show Host.Outcome.next (s.transactFrom count _) = _
    rw [transactFrom_of_not_dropped (.inr hs), readBytes_starting _ _ _ (by exact hs)]
    rfl
  · intro a data
    show Host.Outcome.next (s.transactFrom data.length _) = _
    rw [transactFrom_of_not_dropped (.inr hs), memoryWriteBody_discarded _ _ _ fun _ _ => .inl (by exact hs),
      show (!(afterAddress s []).starting) = false from congrArg not hs]
    rfl
  · exact fun i o hOffer => exec_offer_discarded hOffer (.inr hs) fun _ _ => .inl hs
  · have hShort := (offer_length hOffer).2
    rw [exec_offer_discarded hOffer (.inl hServed.2) fun k hk => .inr (not_hostOwns_taken hTaken (by omega))]
    show _ = Host.Outcome.next { afterAddress s (List.replicate o.bytes.length 0) with
      err := true, endPending := s.endPending, watch := Watch.empty }
    rw [hServed.2]
  all_goals exact fun x => congrArg Host.Outcome.next (transactCut_served h _)

end Sys2Proof.Machine
end

section
/-! PROOFS. Fields of several bytes, the node records, and the end of a hold. -/

namespace Sys2Proof.Machine

/-! ### Fields of several bytes (R177) -/

theorem Memory.read_writeBytes_at (m : Memory) (a : Nat) (bs : List Byte) {k : Nat} (hk : k < bs.length) :
    (m.writeBytes a bs).read (a + k) = bs.getD k 0 := by
  rw [Memory.read_writeBytes, if_pos (by omega), Nat.add_sub_cancel_left]

theorem read16_of_bytes {m : Memory} {a : Nat} {v : BitVec 16} (h0 : m.read a = v.extractLsb' 0 8)
    (h1 : m.read (a + 1) = v.extractLsb' 8 8) : m.read16 a = v.toNat := by
  unfold Memory.read16
  rw [h0, h1, BitVec.extractLsb'_toNat, BitVec.extractLsb'_toNat, Nat.shiftRight_zero, Nat.shiftRight_eq_div_pow]
  have := v.isLt
  omega

theorem read32_of_bytes {m : Memory} {a : Nat} {v : BitVec 32} (h0 : m.read a = v.extractLsb' 0 8)
    (h1 : m.read (a + 1) = v.extractLsb' 8 8) (h2 : m.read (a + 2) = v.extractLsb' 16 8)
    (h3 : m.read (a + 3) = v.extractLsb' 24 8) : m.read32 a = v.toNat := by
  unfold Memory.read32 Memory.read16
  rw [h0, h1, h2, show a + 2 + 1 = a + 3 from rfl, h3]
  simp only [BitVec.extractLsb'_toNat, Nat.shiftRight_eq_div_pow]
  have := v.isLt
  omega

theorem read16_congr {m m' : Memory} {a : Nat} (h0 : m'.read a = m.read a) (h1 : m'.read (a + 1) = m.read (a + 1)) :
    m'.read16 a = m.read16 a := by
  unfold Memory.read16
  rw [h0, h1]

theorem read32_congr {m m' : Memory} {a : Nat} (h : ∀ k, k < 4 → m'.read (a + k) = m.read (a + k)) :
    m'.read32 a = m.read32 a := by
  unfold Memory.read32
  rw [read16_congr (a := a) (h 0 (by decide)) (h 1 (by decide)),
    read16_congr (a := a + 2) (h 2 (by decide)) (h 3 (by decide))]

/-! ### The record of a node (section 11.7) -/

theorem imageBytes_eq (x : NodeStatus) (count : BitVec 16) : imageBytes x count =
    [0, byteOf x.state.code, count.extractLsb' 0 8, count.extractLsb' 8 8, byteOf x.source.code,
      byteOf ((x.candidate.map Band.code).getD 0), byteOf x.count, flagByte x.split.isSome] ++ leNat x.rf
      ++ leNat (x.split.getD ⟨0, 0, 0⟩).rp ++ leNat (x.split.getD ⟨0, 0, 0⟩).rn ++ leInt (x.split.getD ⟨0, 0, 0⟩).apm
      ++ leNat x.ub ++ [x.last, x.accrued] ++ le32 x.stamp
      ++ [x.originMask, x.originLeader, x.originInjector, x.originPlan] := rfl

theorem recordShows_image (m : Memory) (n : NodeId) (x : NodeStatus) :
    recordShows (m.writeBytes (recordAddr n) (imageBytes x x.updateCount)) n x := by
  have hByte (k : Nat) (hk : k < 28) : (m.writeBytes (recordAddr n) (imageBytes x x.updateCount)).read (recordAddr n + k)
      = (imageBytes x x.updateCount).getD k 0 := Memory.read_writeBytes_at _ _ _ (by rwa [imageBytes_length])
  generalize m.writeBytes (recordAddr n) (imageBytes x x.updateCount) = m' at hByte
  rw [imageBytes_eq] at hByte
  unfold leNat leInt le16 le32 at hByte
  have hWord {k : Nat} {v : BitVec 16} (h0 : m'.read (recordAddr n + k) = v.extractLsb' 0 8)
      (h1 : m'.read (recordAddr n + (k + 1)) = v.extractLsb' 8 8) : m'.read16 (recordAddr n + k) = v.toNat :=
    read16_of_bytes h0 h1
  have hNat {k : Nat} {v : Nat} (h0 : m'.read (recordAddr n + k) = (BitVec.ofNat 16 v).extractLsb' 0 8)
      (h1 : m'.read (recordAddr n + (k + 1)) = (BitVec.ofNat 16 v).extractLsb' 8 8) :
      m'.read16 (recordAddr n + k) = v % 65536 := (read16_of_bytes h0 h1).trans (BitVec.toNat_ofNat v 16)
  refine ⟨hByte 0 (by decide), hByte 1 (by decide), hWord (hByte 2 (by decide)) (hByte 3 (by decide)),
    hByte 4 (by decide), (hByte 5 (by decide)).trans ?_, hByte 6 (by decide), hByte 7 (by decide),
    hNat (hByte 8 (by decide)) (hByte 9 (by decide)),
    hNat (hByte 0x0A (by decide)) (hByte 0x0B (by decide)),
    hNat (hByte 0x0C (by decide)) (hByte 0x0D (by decide)),
    hWord (hByte 0x0E (by decide)) (hByte 0x0F (by decide)),
    hNat (hByte 0x10 (by decide)) (hByte 0x11 (by decide)), hByte 0x12 (by decide), hByte 0x13 (by decide),
    read32_of_bytes (hByte 0x14 (by decide)) (hByte 0x15 (by decide)) (hByte 0x16 (by decide)) (hByte 0x17 (by decide)),
    hByte 0x18 (by decide), hByte 0x19 (by decide), hByte 0x1A (by decide), hByte 0x1B (by decide)⟩
  show byteOf ((x.candidate.map Band.code).getD 0) = _
  cases x.candidate <;> rfl

theorem recordShows_congr {m m' : Memory} {n : NodeId} {x : NodeStatus}
    (h : ∀ k, k < 32 → m'.read (recordAddr n + k) = m.read (recordAddr n + k)) (hShows : recordShows m n x) :
    recordShows m' n x := by
  unfold recordShows at *
  dsimp only at *
  rw [show m'.read (recordAddr n) = m.read (recordAddr n) from h 0 (by decide), h 1 (by decide),
    read16_congr (h 2 (by decide)) (h 3 (by decide)), h 4 (by decide), h 5 (by decide), h 6 (by decide), h 7 (by decide),
    read16_congr (h 8 (by decide)) (h 9 (by decide)), read16_congr (h 0x0A (by decide)) (h 0x0B (by decide)),
    read16_congr (h 0x0C (by decide)) (h 0x0D (by decide)), read16_congr (h 0x0E (by decide)) (h 0x0F (by decide)),
    read16_congr (h 0x10 (by decide)) (h 0x11 (by decide)), h 0x12 (by decide), h 0x13 (by decide),
    read32_congr (m := m) fun k hk => by rw [Nat.add_assoc]; exact h (0x14 + k) (by omega), h 0x18 (by decide), h 0x19 (by decide), h 0x1A (by decide),
    h 0x1B (by decide)]
  exact hShows

/-! ### What an image does to each node's status and record -/

theorem recordAddr_apart {n m : NodeId} (h : n ≠ m) {k : Nat} (hk : k < 32) :
    recordAddr m + k < recordAddr n ∨ recordAddr n + 28 ≤ recordAddr m + k := by
  have hVal : n.val ≠ m.val := fun e => h (Fin.ext e)
  unfold recordAddr
  omega

/-- A node's status and its record's bytes: what an operation on another node leaves. -/
def nodeView (n : NodeId) (s : State) : NodeStatus × (Fin 32 → Byte) :=
  (s.nodes[n], fun k => s.mem.read (recordAddr n + k.val))

theorem nodeView_eq {n : NodeId} {s t : State} (hStatus : t.nodes[n] = s.nodes[n])
    (hRecord : ∀ k, k < 32 → t.mem.read (recordAddr n + k) = s.mem.read (recordAddr n + k)) : nodeView n t = nodeView n s :=
  Prod.ext hStatus (funext fun k => hRecord k.val k.isLt)

theorem nodes_of_nodeView {n : NodeId} {s t : State} (h : nodeView n t = nodeView n s) : t.nodes[n] = s.nodes[n] :=
  congrArg Prod.fst h

theorem record_of_nodeView {n : NodeId} {s t : State} (h : nodeView n t = nodeView n s) {k : Nat} (hk : k < 32) :
    t.mem.read (recordAddr n + k) = s.mem.read (recordAddr n + k) :=
  congrFun (congrArg Prod.snd h) ⟨k, hk⟩

/-- The status an image leaves: its count raised, nothing deferred (R63). -/
def NodeStatus.imaged (x : NodeStatus) : NodeStatus := { x with updateCount := x.updateCount + 1, deferred := false }

theorem writeImage_eq (s : State) (n : NodeId) : s.writeImage n = { s with
    nodes := upd s.nodes n s.nodes[n].imaged
    mem := s.mem.writeBytes (recordAddr n) (imageBytes s.nodes[n].imaged s.nodes[n].imaged.updateCount) } := rfl

theorem writeImage_node (s : State) (n : NodeId) : (s.writeImage n).nodes[n] = s.nodes[n].imaged := upd_same _ _ _

theorem writeImage_other (s : State) {n m : NodeId} (h : n ≠ m) : nodeView m (s.writeImage n) = nodeView m s :=
  nodeView_eq (upd_other _ _ _ _ h) fun k hk =>
    Memory.read_writeBytes_other _ _ _ _ (by rw [imageBytes_length]; exact recordAddr_apart h hk)

theorem writeImage_shows (s : State) (n : NodeId) : recordShows (s.writeImage n).mem n (s.writeImage n).nodes[n] := by
  rw [writeImage_node]
  exact recordShows_image s.mem n s.nodes[n].imaged

/-- The last four bytes of a record, its yield flag among them, stand outside the image (R63, section 11.7). -/
theorem writeImage_tail (s : State) (n m : NodeId) {k : Nat} (hk : 28 ≤ k ∧ k < 32) :
    (s.writeImage n).mem.read (recordAddr m + k) = s.mem.read (recordAddr m + k) := by
  by_cases h : n = m
  · subst h
    exact Memory.read_writeBytes_other _ _ _ _ (by rw [imageBytes_length]; omega)
  · exact record_of_nodeView (writeImage_other s h) hk.2

/-! ### A pass over the nodes -/

/-- In a pass over a list without repetition, an entry's own step finds what the steps of the others leave of the entry,
and nothing after it changes that again. -/
theorem forEach_own {α β : Type} (f : α → State → State) (view : State → β) (inv : State → Prop) (a : α) :
    ∀ (l : List α) (s : State), l.Nodup → inv s → (∀ b ∈ l, ∀ t, inv t → inv (f b t)) →
      (∀ b ∈ l, b ≠ a → ∀ t, inv t → view (f b t) = view t) →
      (a ∉ l → view (forEach l f s) = view s)
      ∧ (a ∈ l → ∃ t, inv t ∧ view t = view s ∧ view (forEach l f s) = view (f a t))
  | [], s, _, _, _, _ => ⟨fun _ => rfl, fun h => nomatch h⟩
  | b :: rest, s, hNodup, hs, hInv, hOther => by
    obtain ⟨hNot, hRest⟩ := List.nodup_cons.mp hNodup
    obtain ⟨hAbsent, hPresent⟩ := forEach_own f view inv a rest (f b s) hRest (hInv b List.mem_cons_self s hs)
      (fun c hc => hInv c (List.mem_cons_of_mem b hc)) fun c hc => hOther c (List.mem_cons_of_mem b hc)
    show (_ → view (forEach rest f (f b s)) = _) ∧ (_ → ∃ t, inv t ∧ _ ∧ view (forEach rest f (f b s)) = _)
    by_cases hb : b = a
    · subst hb
      exact ⟨fun h => absurd List.mem_cons_self h, fun _ => ⟨s, hs, rfl, hAbsent hNot⟩⟩
    · have hStep := hOther b List.mem_cons_self hb s hs
      refine ⟨fun h => (hAbsent fun hIn => h (List.mem_cons_of_mem b hIn)).trans hStep, fun h => ?_⟩
      obtain ⟨t, ht, hView, hLast⟩ := hPresent ((List.mem_cons.mp h).resolve_left (Ne.symm hb))
      exact ⟨t, ht, hView.trans hStep, hLast⟩

theorem allNodes_nodup : allNodes.Nodup := by decide

theorem allChans_nodup : allChans.Nodup := by decide

/-! ### The end of a hold (R73) -/

/-- One node's step at the end of a hold. -/
def releaseNode (n : NodeId) (t : State) : State := if t.nodes[n].deferred then t.writeImage n else t

theorem endHold_eq (s : State) : s.endHold = forEach allNodes releaseNode { s with hold := none } := rfl

theorem releaseNode_other {n m : NodeId} (h : n ≠ m) (t : State) : nodeView m (releaseNode n t) = nodeView m t := by
  unfold releaseNode
  split
  · exact writeImage_other t h
  · rfl

/-- What the end of a hold changes: the nodes, the memory and the hold. -/
theorem releaseNode_frame (n : NodeId) (t : State) :
    releaseNode n t = { t with nodes := (releaseNode n t).nodes, mem := (releaseNode n t).mem } := by
  unfold releaseNode
  split <;> rfl

theorem endHold_frame (s : State) : s.endHold = { s with hold := none, nodes := s.endHold.nodes, mem := s.endHold.mem } := by
  have hField := forEach_field (fun t : State => { t with nodes := s.nodes, mem := s.mem, hold := none }) allNodes releaseNode
    (fun n t => by rw [releaseNode_frame]) { s with hold := none }
  have hHold := forEach_field State.hold allNodes releaseNode (fun n t => by rw [releaseNode_frame]) { s with hold := none }
  rw [← endHold_eq] at hField hHold
  generalize s.endHold = t at *
  have hBack := congrArg (fun u : State => { u with nodes := t.nodes, mem := t.mem }) hField
  have hSame : ({ t with hold := none } : State) = t := by rw [← show t.hold = none from hHold]
  exact hSame.symm.trans hBack

theorem imagesWritten_endHold (s : State) : imagesWritten s s.endHold := by
  have hOwn (n : NodeId) : ∃ t : State, nodeView n t = nodeView n s ∧ nodeView n s.endHold = nodeView n (releaseNode n t) := by
    obtain ⟨t, -, hBefore, hAfter⟩ := (forEach_own releaseNode (nodeView n) (fun _ => True) n allNodes { s with hold := none }
      allNodes_nodup trivial (fun _ _ _ _ => trivial) fun m _ h t _ => releaseNode_other h t).2 (mem_allNodes n)
    exact ⟨t, hBefore, hAfter⟩
  refine ⟨fun n => ?_, fun n hn => ?_, fun n hn k hk => ?_, fun n => ?_, (Recording.endHold s).memory⟩
  · obtain ⟨t, hBefore, hAfter⟩ := hOwn n
    rw [nodes_of_nodeView hAfter, ← nodes_of_nodeView hBefore]
    unfold releaseNode
    split
    · exact writeImage_node t n
    · rfl
  · obtain ⟨t, hBefore, hAfter⟩ := hOwn n
    have hDeferred : t.nodes[n].deferred = true := by rw [nodes_of_nodeView hBefore, hn]
    rw [show releaseNode n t = t.writeImage n from if_pos hDeferred] at hAfter
    rw [nodes_of_nodeView hAfter]
    exact recordShows_congr (fun k hk => record_of_nodeView hAfter hk) (writeImage_shows t n)
  · obtain ⟨t, hBefore, hAfter⟩ := hOwn n
    have hKept : ¬ t.nodes[n].deferred = true := by rw [nodes_of_nodeView hBefore, hn]; decide
    rw [show releaseNode n t = t from if_neg hKept] at hAfter
    exact (record_of_nodeView hAfter hk).trans (record_of_nodeView hBefore hk)
  · obtain ⟨t, hBefore, hAfter⟩ := hOwn n
    rw [record_of_nodeView hAfter (by decide), ← record_of_nodeView hBefore (by decide)]
    unfold releaseNode
    split
    · exact writeImage_tail t n n (by decide)
    · rfl

end Sys2Proof.Machine
end

section
/-! PROOFS. CONTROL writes and holds, the attention levels, the idle step and hard reset. -/

namespace Sys2Proof.Machine

/-! ### CONTROL writes (R71, R73, R100, R166) -/

theorem exec_modeRequest {s : State} (h : s.endPending = false ∨ s.starting = true) (f : BitVec 2) (hold : Bool) :
    exec (.modeRequest f hold) s = .next (((afterAddress s []).writeControl (controlByte f hold false)).shift 0) :=
  congrArg _ (transactFrom_of_not_dropped h 1 _)

theorem exec_holdStart {s : State} (h : s.endPending = false ∨ s.starting = true) (f : BitVec 2) :
    exec (.holdStart f) s = .next (((afterAddress s []).writeControl (controlByte f true false)).shift 0) :=
  congrArg _ (transactFrom_of_not_dropped h 1 _)

theorem exec_hostRelease {s : State} (h : s.endPending = false ∨ s.starting = true) (f : BitVec 2) :
    exec (.hostRelease f) s = .next (((afterAddress s []).writeControl (controlByte f false false)).shift 0) :=
  congrArg _ (transactFrom_of_not_dropped h 1 _)

theorem writeControl_request (s : State) (f : BitVec 2) (hold : Bool) :
    s.writeControl (controlByte f hold false) = ({ s with holdExpired := false }.takeHold hold).requestMode f := by
  obtain ⟨hMode, hHold, hReset⟩ := controlByte_fields f hold false
  unfold State.writeControl
  rw [hReset, hHold, hMode]
  exact if_neg fun h => Bool.false_ne_true h.1

theorem takeHold_same (s : State) : s.takeHold s.hold.isSome = s := by
  unfold State.takeHold
  cases h : s.hold <;> rfl

theorem requestMode_safeStop {s : State} (h : s.mode = .safeStop) (f : BitVec 2) : s.requestMode f = s := if_pos h

/-- The mode a CONTROL mode field names; none for its last value (R100). -/
def wantedMode (f : BitVec 2) : Option Mode :=
  if f = 0 then some .idle else if f = 1 then some .run else if f = 2 then some .parked else none

theorem wantedMode_eq {f : BitVec 2} {m : Mode} (hm : m.code = f.toNat) :
    wantedMode f = if m = .safeStop then none else some m := by
  revert f
  cases m <;> decide

/-- What a mode request does outside SAFE_STOP (R100, R102, R166). -/
def State.takeRequest (s : State) (m : Mode) : State :=
  let s0 := { s with request := m }
  if s.starting then s0
  else if m = .parked then
    if s.mode = .parked ∨ s.parkedPending then s0
    else if 2 ≤ orderGroups s then
      let s1 := if s.mode = .idle then s0 else s0.changeMode .idle
      { s1 with parkedPending := true }.schedule
    else (s0.changeMode .parked).schedule
  else if m = s.mode then
    if s.parkedPending then { s0 with parkedPending := false }.schedule else s0
  else (s0.changeMode m).schedule

theorem requestMode_eq (s : State) (f : BitVec 2) : s.requestMode f =
    if s.mode = .safeStop then s else match wantedMode f with | none => s | some m => s.takeRequest m := by
  unfold State.requestMode wantedMode
  dsimp only
  by_cases h0 : f = 0
  · rw [if_pos h0]
    rfl
  by_cases h1 : f = 1
  · rw [if_neg h0, if_pos h1]
    rfl
  by_cases h2 : f = 2
  · rw [if_neg h0, if_neg h1, if_pos h2]
    rfl
  · rw [if_neg h0, if_neg h1, if_neg h2]

theorem requestMode_named {s : State} (hs : s.mode ≠ .safeStop) {f : BitVec 2} {m : Mode} (hm : m.code = f.toNat)
    (hNamed : m ≠ .safeStop) : s.requestMode f = s.takeRequest m := by
  rw [requestMode_eq, if_neg hs, wantedMode_eq hm, if_neg hNamed]

theorem requestMode_unnamed (s : State) : s.requestMode 3 = s := by
  rw [requestMode_eq, show wantedMode 3 = none from rfl]
  exact ite_self s

/-- A request that names what is already in force, or comes during STARTING, shows alone. -/
theorem requestMode_shows {s : State} (hs : s.mode ≠ .safeStop) {f : BitVec 2} {m : Mode} (hm : m.code = f.toNat)
    (hNamed : m ≠ .safeStop)
    (h : s.starting = true ∨ (m = s.mode ∧ s.parkedPending = false) ∨ (m = .parked ∧ s.parkedPending = true)) :
    s.requestMode f = { s with request := m } := by
  rw [requestMode_named hs hm hNamed]
  unfold State.takeRequest
  dsimp only
  by_cases hStarting : s.starting = true
  · rw [if_pos hStarting]
  rw [if_neg hStarting]
  obtain ⟨rfl, hPending⟩ | ⟨rfl, hPending⟩ := h.resolve_left hStarting
  · rw [hPending]
    split
    case isTrue hParked => exact if_pos (.inl hParked)
    case isFalse => rw [if_pos rfl, if_neg Bool.false_ne_true]
  · rw [if_pos rfl, if_pos (.inr hPending)]

/-- The state a CONTROL write with HOLD as given leaves before its mode request. -/
def State.controlStart (s : State) (hold : Option Nat) : State := { afterAddress s [] with holdExpired := false, hold := hold }

theorem controlStart_shift (s : State) (hold : Option Nat) (m : Mode) :
    State.shift { s.controlStart hold with request := m } 0 =
      { afterAddress s [0] with holdExpired := false, request := m, hold := hold } := rfl

theorem exec_modeRequest_held {s : State} (he : s.endPending = false) (f : BitVec 2) :
    exec (.modeRequest f s.hold.isSome) s = .next (((s.controlStart s.hold).requestMode f).shift 0) := by
  have hSame := takeHold_same (s.controlStart s.hold)
  rw [exec_modeRequest (.inl he), writeControl_request]
  exact congrArg (fun t : State => Host.Outcome.next ((t.requestMode f).shift 0)) hSame

theorem ofNat_code {m : Mode} : m.code = (BitVec.ofNat 2 m.code).toNat := by cases m <;> rfl

/-- Settles O31: the hold as it stands, and the branches of a mode request that change no mode. -/
theorem controlWritesWithoutModeChange : Obligations.ControlWritesWithoutModeChange := by
  refine ⟨fun s f m he hm => ⟨fun hStop => ?_, fun hm' hs h => ?_⟩, fun s hServed hs hPending => ?_⟩
  · have hIgnored : (s.controlStart s.hold).requestMode f = s.controlStart s.hold := by
      obtain rfl | hStop := hStop
      · obtain rfl : f = 3 := BitVec.eq_of_toNat_eq hm.symm
        exact requestMode_unnamed _
      · exact requestMode_safeStop (s := s.controlStart s.hold) hStop f
    rw [exec_modeRequest_held he, hIgnored]
    rfl
  · have hShown := requestMode_shows (s := s.controlStart s.hold) hs hm hm' h
    rw [exec_modeRequest_held he, hShown]
    rfl
  · have hHold : ({ afterAddress s [] with holdExpired := false } : State).takeHold true =
        s.controlStart (match s.hold with | some n => some n | none => some 250) := by
      unfold State.takeHold
      rw [if_pos rfl]
      cases hHold : s.hold with
      | none => exact if_neg (by show ¬ s.hold.isSome = true; rw [hHold]; decide)
      | some n =>
        exact (if_pos (show s.hold.isSome = true by rw [hHold]; rfl)).trans (congrArg s.controlStart hHold)
    have hShown := requestMode_shows (s := s.controlStart (match s.hold with | some n => some n | none => some 250))
      (m := s.mode) hs ofNat_code hs (.inr (.inl ⟨rfl, hPending⟩))
    rw [exec_holdStart (.inl hServed.2), writeControl_request, hHold, hShown]
    rfl

/-- Settles O35: the mode request of a release changes no mode, and the hold's end writes the deferred images. -/
theorem holdEndsWithDeferredImages : Obligations.HoldEndsWithDeferredImages := by
  refine ⟨fun s hServed hs hPending hHold => ?_, fun s hHold => ?_, fun s hHold => ?_⟩
  · have hSome : s.hold.isSome = true := Option.isSome_iff_ne_none.mpr hHold
    have hEnd : (s.controlStart s.hold).takeHold false = (s.controlStart s.hold).endHold := if_pos hSome
    have hFrame := endHold_frame (s.controlStart s.hold)
    have hImages := imagesWritten_endHold (s.controlStart s.hold)
    have hExec : exec (.hostRelease (BitVec.ofNat 2 s.mode.code)) s =
        .next ((((s.controlStart s.hold).takeHold false).requestMode (BitVec.ofNat 2 s.mode.code)).shift 0) := by
      rw [exec_hostRelease (.inl hServed.2), writeControl_request]
      rfl
    rw [hExec, hEnd]
    generalize (s.controlStart s.hold).endHold = t at hFrame hImages ⊢
    rw [requestMode_shows (s := t) (m := s.mode) (by rw [hFrame]; exact hs) ofNat_code hs
      (.inr (.inl ⟨by rw [hFrame]; rfl, by rw [hFrame]; exact hPending⟩))]
    refine ⟨_, rfl, hImages, ?_⟩
    have hLast := congrArg (fun u : State => State.shift { u with request := s.mode } 0) hFrame
    exact hLast
  · have hSome : s.hold.isSome = true := Option.isSome_iff_ne_none.mpr hHold
    have hExec : exec .holdLimitExpiry s = .next { s.endHold with holdExpired := true } := by
      show execHoldLimitExpiry s = _
      unfold execHoldLimitExpiry
      rw [if_pos hSome]
    have hImages := imagesWritten_endHold s
    have hFrame := endHold_frame s
    rw [hExec]
    generalize s.endHold = t at hFrame hImages ⊢
    refine ⟨_, rfl, hImages, ?_⟩
    have hLast := congrArg (fun u : State => { u with holdExpired := true }) hFrame
    exact hLast
  · show execHoldLimitExpiry s = _
    unfold execHoldLimitExpiry
    rw [hHold]
    rfl

/-! ### Attention levels (R170, R171) -/

theorem attnAsserted_iff_levels (a : Attn) : attnAsserted a = true ↔ ∃ p : Level, has8 a.pending p.val = true
    ∧ has8 a.mask p.val = false ∧ ∀ q : Level, has8 a.inService q.val = true → p < q := by
  simp only [attnAsserted_iff, has8_unmasked, Bool.and_eq_true, Bool.not_eq_true', and_assoc]

theorem follow_spec (a : Attn) (n : Level) (fact : Bool) : (a.follow n.val fact).faultFact = a.faultFact
    ∧ (a.follow n.val fact).inService = a.inService ∧ (a.follow n.val fact).mask = a.mask
    ∧ ∀ m : Level, has8 (a.follow n.val fact).pending m.val =
        if m = n ∧ has8 a.inService n.val = false then fact else has8 a.pending m.val := by
  unfold Attn.follow
  split
  case isTrue hService => exact ⟨rfl, rfl, rfl, fun m => (if_neg fun h => by rw [hService] at h; exact absurd h.2 (by decide)).symm⟩
  case isFalse hService =>
    rw [Bool.not_eq_true] at hService
    simp only [hService, and_true]
    split
    case isTrue hFact =>
      refine ⟨rfl, rfl, rfl, fun m => (has8_addLevel a.pending n m).trans ?_⟩
      by_cases h : m = n <;> simp [h, hFact]
    case isFalse hFact =>
      refine ⟨rfl, rfl, rfl, fun m => (has8_removeLevel a.pending n m).trans ?_⟩
      by_cases h : m = n <;> simp [h, hFact]

/-- Settles O58: the mask write, ATTN by the first level of each set, and the two ways a level pends. -/
theorem maskAttnAndPendingLevels : Obligations.MaskAttnAndPendingLevels := by
  refine ⟨fun s mask h => congrArg _ (transactFrom_of_not_dropped h 1 _), attnAsserted_iff_levels,
    fun a n m => ⟨?_, rfl⟩, fun a fact hFact => ?_⟩
  · exact has8_add a.pending n.val m.val n.isLt m.isLt |>.trans (by simp only [Fin.ext_iff])
  · have hFollow := follow_spec { a with faultFact := fact } 1 fact
    unfold Attn.setFault
    rw [if_neg hFact]
    exact hFollow

/-! ### The idle step and hard reset -/

/-- Settles O2: one millisecond, timer by timer. -/
theorem idleStepIsOneMillisecond : Obligations.IdleStepIsOneMillisecond := by
  intro s hIdle
  have hStep : step s = .next s.tick := by
    unfold step
    rw [hIdle]
  refine ⟨s.tick, hStep, rfl, rfl, fun l => Vector.getElem_ofFn .., fun c => Vector.getElem_ofFn ..,
    fun c => Vector.getElem_ofFn .., fun n hn => ?_, fun hn => ?_, rfl⟩
  · show s.park.countDown = _
    rw [hn]
    rfl
  · show s.park.countDown = _
    cases h : s.park with
    | running n => exact absurd h (hn n)
    | stopped => rfl
    | due => rfl

theorem reset_attn : attnAsserted State.reset.attn = false := by decide

theorem reset_groupState : ∀ n : NodeId, groupState State.reset n = .noChannel := by decide

/-- Settles O4: the fields of the reset state. -/
theorem hardResetRestoresDefaults : Obligations.HardResetRestoresDefaults := by
  intro s
  refine ⟨{ State.reset with pending := s.pending, cuts := s.cuts }, rfl, rfl, rfl, rfl, rfl, rfl, rfl, fun _ => rfl, rfl, rfl,
    rfl, rfl, rfl, reset_attn, rfl, rfl, rfl, rfl, rfl, rfl, rfl, rfl, rfl, rfl, rfl, rfl, rfl, rfl, rfl, ?_, ?_, ?_⟩
  · intro n
    refine ⟨?_, ?_, ?_, ?_, reset_groupState n⟩ <;> fin_cases n <;> rfl
  · intro p
    fin_cases p <;> exact ⟨rfl, rfl⟩
  · intro c
    fin_cases c <;> exact ⟨rfl, rfl, rfl, rfl, rfl, rfl, rfl, rfl, rfl, rfl, rfl, rfl, rfl, rfl, rfl⟩

end Sys2Proof.Machine
end

section
/-! PROOFS. The arithmetic unit: the order it serves triples in, the conditions and the resistance of a result, and the
rail split. -/

namespace Sys2Proof.Machine

/-! ### The order of service (R45, R57) -/

theorem takeUp_idle {s : State} {x : Triple} {rest : List Triple} (hIdle : s.computing = none) (hWaiting : s.triples = x :: rest) :
    s.takeUp = { s with computing := some x, triples := rest } := by
  unfold State.takeUp
  rw [hIdle, hWaiting]

theorem takeUp_nothing {s : State} (h : s.computing ≠ none ∨ s.triples = []) : s.takeUp = s := by
  unfold State.takeUp
  split
  next hIdle hWaiting => exact absurd h (by simp [hIdle, hWaiting])
  next => rfl

/-- An idle unit takes up the oldest waiting triple, if there is one. -/
theorem takeUp_of_idle {s : State} (hIdle : s.computing = none) :
    s.takeUp = { s with computing := s.triples.head?, triples := s.triples.tail } := by
  cases hWaiting : s.triples with
  | nil =>
    rw [takeUp_nothing (.inr hWaiting), List.head?_nil, List.tail_nil, ← hIdle, ← hWaiting]
  | cons x rest => exact takeUp_idle hIdle hWaiting

theorem exec_computationComplete_of_computing {s : State} {x : Triple} (h : s.computing = some x) :
    exec .computationComplete s = .next (State.handResult { s with computing := none } (compute x)).takeUp := by
  show execComputationComplete s = _
  unfold execComputationComplete
  rw [takeUp_nothing (.inl (by rw [h]; simp))]
  simp only [h]

/-- Settles O44: an idle unit takes up the front of the queue, and a result that is no check's joins the other queue. -/
theorem computationUnitServesInOrder : Obligations.ComputationUnitServesInOrder := by
  refine fun s => ⟨fun x rest hIdle hWaiting => congrArg _ (takeUp_idle hIdle hWaiting),
    fun h => congrArg _ (takeUp_nothing h), fun x hBusy hSource => ?_, fun hIdle hNone => ?_⟩
  · have hHanded : State.handResult { s with computing := none } (compute x) =
        { s with computing := none, results := s.results ++ [compute x] } := if_neg hSource
    rw [exec_computationComplete_of_computing hBusy, hHanded]
    exact congrArg _ (takeUp_of_idle rfl)
  · show execComputationComplete s = _
    unfold execComputationComplete
    rw [takeUp_nothing (.inr hNone)]
    simp only [hIdle]

/-! ### Stages 4 and 5 (R49, R50, R51) -/

/-- The four outcomes of a response: reversed, too small to measure, above range, and measured. -/
theorem respond_spec (x : Triple) (dA : Int) (conds : CondSet) :
    (dA ≤ 0 ∧ respond x.up x.daMin x.rm x.rs dA conds = ⟨conds.add .reversed, none, none⟩)
    ∨ (0 < dA ∧ dA < x.daMin ∧ respond x.up x.daMin x.rm x.rs dA conds = ⟨conds.add .aboveRange, some 65535, none⟩)
    ∨ (0 < dA ∧ (x.daMin : Int) ≤ dA ∧ 65000 < faultKilohms x dA ∧ respond x.up x.daMin x.rm x.rs dA conds =
        ⟨(if faultOhms x dA < 0 then conds.add .belowZero else conds).add .aboveRange, some 65535, none⟩)
    ∨ (0 < dA ∧ (x.daMin : Int) ≤ dA ∧ faultKilohms x dA ≤ 65000 ∧ respond x.up x.daMin x.rm x.rs dA conds =
        ⟨if faultOhms x dA < 0 then conds.add .belowZero else conds, some (faultKilohms x dA),
          some (max 0 (faultOhms x dA)).toNat⟩) := by
  have hRaw : loopMinusSeries x.up x.rm x.rs dA = faultOhms x dA := rfl
  have hClamp : (max 0 (faultOhms x dA)).toNat = (faultOhms x dA).toNat := by omega
  have hKilohms : faultKilohms x dA = ((faultOhms x dA).toNat + 500) / 1000 := by rw [faultKilohms, hClamp]
  unfold respond
  dsimp only
  rw [hRaw, hClamp, hKilohms]
  by_cases hReversed : dA ≤ 0
  · exact .inl ⟨hReversed, if_pos hReversed⟩
  rw [if_neg hReversed]
  by_cases hSmall : dA < x.daMin
  · exact .inr (.inl ⟨by omega, hSmall, if_pos hSmall⟩)
  rw [if_neg hSmall]
  by_cases hRange : 65000 < ((faultOhms x dA).toNat + 500) / 1000
  · exact .inr (.inr (.inl ⟨by omega, by omega, hRange, if_pos hRange⟩))
  · exact .inr (.inr (.inr ⟨by omega, by omega, by omega, if_neg hRange⟩))

/-- The conditions a triple brings to stage 4: its plateaus' flags, and DRIFT (R46, R47). -/
def Triple.conditions (x : Triple) : CondSet :=
  if (x.drift : Int) < (x.p1.value - x.p3.value).natAbs then (x.p1.flags ||| x.p2.flags ||| x.p3.flags).add .drift
  else x.p1.flags ||| x.p2.flags ||| x.p3.flags

theorem Triple.has8_conditions (x : Triple) (b : Nat) : has8 x.conditions b = true ↔
    has8 x.p1.flags b = true ∨ has8 x.p2.flags b = true ∨ has8 x.p3.flags b = true
      ∨ (b = 2 ∧ x.drift < (x.p1.value - x.p3.value).natAbs) := by
  have hFlags : has8 (x.p1.flags ||| x.p2.flags ||| x.p3.flags) b = true ↔
      has8 x.p1.flags b = true ∨ has8 x.p2.flags b = true ∨ has8 x.p3.flags b = true := by
    rw [has8_or, has8_or, Bool.or_eq_true, Bool.or_eq_true, or_assoc]
  unfold Triple.conditions
  split
  case isTrue hDrift =>
    rw [CondSet.has8_add, hFlags, or_assoc, or_assoc]
    exact or_congr_right (or_congr_right (or_congr_right (and_iff_left (Int.ofNat_lt.mp hDrift)).symm))
  case isFalse hDrift =>
    rw [hFlags]
    exact or_congr_right (or_congr_right (or_iff_left fun h => hDrift (Int.ofNat_lt.mpr h.2)).symm)

/-- A triple's response. -/
def Triple.response (x : Triple) : Response := respond x.up x.daMin x.rm x.rs (compute x).dA x.conditions

theorem compute_conds (x : Triple) : (compute x).conds = x.response.conds := rfl

theorem compute_valid (x : Triple) : (compute x).valid = validSet x.response.conds := rfl

theorem compute_rf (x : Triple) : (compute x).rf = if (compute x).valid then x.response.rfK else none := rfl

theorem compute_ub (x : Triple) : (compute x).ub = (x.p1.ub + x.p2.ub + x.p3.ub + 1) / 3 := rfl

theorem compute_split_none {x : Triple} (h : x.response.rfOhm = none) : (compute x).split = none := by
  have hOhm : (respond x.up x.daMin x.rm x.rs (compute x).dA x.conditions).rfOhm = none := h
  show (match (respond x.up x.daMin x.rm x.rs (compute x).dA x.conditions).rfOhm with | some ohm => _ | none => none) = _
  rw [hOhm]

theorem compute_split_some {x : Triple} {ohm : Nat} (h : x.response.rfOhm = some ohm) : (compute x).split =
    if (compute x).valid = true ∧ 50 ≤ (compute x).ub ∧ x.source ≠ .selfcheck then
      some (railSplit (compute x).off2 ohm x.rm x.rs (compute x).ub)
    else none := by
  have hOhm : (respond x.up x.daMin x.rm x.rs (compute x).dA x.conditions).rfOhm = some ohm := h
  show (match (respond x.up x.daMin x.rm x.rs (compute x).dA x.conditions).rfOhm with
    | some ohm => if ((compute x).valid && decide (50 ≤ (compute x).ub) && decide (x.source ≠ Source.selfcheck)) = true then
        some (railSplit (compute x).off2 ohm x.rm x.rs (compute x).ub) else none
    | none => none) = _
  rw [hOhm]
  simp only [Bool.and_eq_true, decide_eq_true_eq, and_assoc]

theorem validSet_iff (v : CondSet) : validSet v = true ↔ ∀ b, b < 4 → has8 v b = false := by
  unfold validSet CondSet.has Cond.bit
  rw [Bool.not_eq_true', Bool.or_eq_false_iff, Bool.or_eq_false_iff, Bool.or_eq_false_iff]
  constructor
  · rintro ⟨⟨⟨h0, h1⟩, h2⟩, h3⟩ b hb
    match b, hb with
    | 0, _ => exact h0
    | 1, _ => exact h1
    | 2, _ => exact h2
    | 3, _ => exact h3
  · exact fun h => ⟨⟨⟨h 0 (by decide), h 1 (by decide)⟩, h 2 (by decide)⟩, h 3 (by decide)⟩

theorem compute_has8_conds (x : Triple) (b : Nat) : has8 (compute x).conds b = true ↔ has8 x.conditions b = true
    ∨ (b = 3 ∧ (compute x).dA ≤ 0)
    ∨ (b = 4 ∧ 0 < (compute x).dA ∧ (x.daMin : Int) ≤ (compute x).dA ∧ faultOhms x (compute x).dA < 0)
    ∨ (b = 5 ∧ 0 < (compute x).dA ∧ ((compute x).dA < x.daMin ∨ 65000 < faultKilohms x (compute x).dA)) := by
  rw [compute_conds]
  unfold Triple.response
  have hZero : has8 (if faultOhms x (compute x).dA < 0 then x.conditions.add .belowZero else x.conditions) b = true
      ↔ has8 x.conditions b = true ∨ (b = 4 ∧ faultOhms x (compute x).dA < 0) := by
    split
    case isTrue h => rw [CondSet.has8_add]; exact or_congr_right (and_iff_left h).symm
    case isFalse h => exact (or_iff_left fun hb => h hb.2).symm
  obtain ⟨h, e⟩ | ⟨h0, h, e⟩ | ⟨h0, hMin, h, e⟩ | ⟨h0, hMin, h, e⟩ := respond_spec x (compute x).dA x.conditions <;> rw [e]
  · rw [CondSet.has8_add]
    show _ ∨ b = 3 ↔ _
    refine or_congr_right ?_
    omega
  · rw [CondSet.has8_add]
    show _ ∨ b = 5 ↔ _
    refine or_congr_right ?_
    omega
  · rw [CondSet.has8_add, hZero, or_assoc]
    show _ ∨ _ ∨ b = 5 ↔ _
    refine or_congr_right ?_
    omega
  · rw [hZero]
    refine or_congr_right ?_
    omega

/-- Settles O46: the four outcomes of stages 4 and 5, and what stage 8 leaves of each. -/
theorem conditionsAndResistance : Obligations.ConditionsAndResistance := by
  rintro x _ rfl
  have hReversed (h : (compute x).dA ≤ 0) : (compute x).valid = false := by
    rw [Bool.eq_false_iff, compute_valid, ne_eq, validSet_iff, ← compute_conds]
    exact fun hNone => absurd ((compute_has8_conds x 3).mpr (.inr (.inl ⟨rfl, h⟩))) (by rw [hNone 3 (by decide)]; decide)
  have hSplit (h : (compute x).valid = false) : (compute x).split = none := by
    cases hOhm : x.response.rfOhm with
    | none => exact compute_split_none hOhm
    | some ohm =>
      rw [compute_split_some hOhm, if_neg]
      exact fun hValid => absurd hValid.1 (by rw [h]; decide)
  refine ⟨fun b => ?_, ?_, fun h => ⟨?_, hSplit h⟩, fun h hMin => ?_, fun h hMin => ?_, rfl, fun h1 h2 h3 => ?_, rfl, rfl, rfl, rfl,
    rfl, rfl, rfl, rfl, rfl, rfl, rfl, rfl, rfl⟩
  · rw [compute_has8_conds, Triple.has8_conditions, or_assoc, or_assoc, or_assoc]
  · rw [compute_valid, validSet_iff]
    rfl
  · rw [compute_rf, h]
    rfl
  · obtain ⟨hd, e⟩ | ⟨h0, hd, e⟩ | ⟨h0, hd, hk, e⟩ | ⟨h0, hd, hk, e⟩ := respond_spec x (compute x).dA x.conditions
    · exact absurd h (by rw [hReversed hd]; decide)
    · rw [compute_rf, h]
      exact ⟨congrArg Response.rfK e, compute_split_none (congrArg Response.rfOhm e)⟩
    · omega
    · omega
  · obtain ⟨hd, e⟩ | ⟨h0, hd, e⟩ | ⟨h0, hd, hk, e⟩ | ⟨h0, hd, hk, e⟩ := respond_spec x (compute x).dA x.conditions
    · exact absurd h (by rw [hReversed hd]; decide)
    · omega
    · rw [compute_rf, h, compute_split_none (congrArg Response.rfOhm e), if_pos hk]
      refine ⟨congrArg Response.rfK e, iff_of_false Bool.false_ne_true fun hNot => ?_⟩
      omega
    · rw [compute_rf, h, compute_split_some (congrArg Response.rfOhm e), if_neg (not_lt.mpr hk)]
      refine ⟨congrArg Response.rfK e, ?_⟩
      split
      case isTrue hAll => exact iff_of_true rfl ⟨hk, hAll.2⟩
      case isFalse hNot => exact iff_of_false Bool.false_ne_true fun hAll => hNot ⟨h, hAll.2⟩
  · rw [compute_ub]
    omega

/-! ### Stage 7 (R53, R54) -/

theorem roundHalfAway_eq (num : Int) (den : Nat) : roundHalfAway num den = awayRounded num den := by
  unfold roundHalfAway awayRounded roundHalfUp
  obtain h | rfl | h := lt_trichotomy num 0
  · rw [if_pos h, Int.sign_eq_neg_one_of_neg h]
    simp
  · have hZero : (2 * 0 + den) / (2 * den) = 0 := by
      rw [Nat.mul_zero, Nat.zero_add]
      obtain rfl | hDen := Nat.eq_zero_or_pos den
      · rfl
      · exact Nat.div_eq_of_lt (by omega)
    rw [if_neg (lt_irrefl 0), Int.natAbs_zero, hZero, Int.sign_zero, Int.zero_mul]
    rfl
  · rw [if_neg (by omega), Int.sign_eq_one_of_pos h]
    simp

theorem railOf_zero (den : Int) : railOf 0 den = 0 := by
  have hZero : (2 * (2 * 0) + den.toNat) / (2 * den.toNat) = 0 := by
    obtain h | h := Nat.eq_zero_or_pos den.toNat
    · rw [h]
    · exact Nat.div_eq_of_lt (by omega)
  unfold railOf
  rw [hZero]
  rfl

/-- Settles O47: a rail split is that of the one measured outcome, with its clamped resistance in ohms. -/
theorem railSplitFigures : Obligations.RailSplitFigures := by
  rintro x _ split ohm rfl hSplit rfl
  have hOhm : x.response.rfOhm = some (max 0 (faultOhms x (compute x).dA)).toNat := by
    obtain ⟨-, e⟩ | ⟨-, -, e⟩ | ⟨-, -, -, e⟩ | ⟨-, -, -, e⟩ := respond_spec x (compute x).dA x.conditions
    · exact absurd (hSplit.symm.trans (compute_split_none (congrArg Response.rfOhm e))) (by simp)
    · exact absurd (hSplit.symm.trans (compute_split_none (congrArg Response.rfOhm e))) (by simp)
    · exact absurd (hSplit.symm.trans (compute_split_none (congrArg Response.rfOhm e))) (by simp)
    · exact congrArg Response.rfOhm e
  rw [compute_split_some hOhm] at hSplit
  split at hSplit
  case isFalse => cases hSplit
  case isTrue =>
    generalize (max 0 (faultOhms x (compute x).dA)).toNat = ohm at hSplit ⊢
    obtain rfl := Option.some.inj hSplit
    have hAsymmetry : asymmetry (compute x).off2 ohm x.rm x.rs (compute x).ub = max (-990) (min 990
        (awayRounded (-((compute x).off2 * ((x.rs : Int) + ohm))) (10 * x.rm * (compute x).ub))) := by
      unfold asymmetry
      rw [roundHalfAway_eq]
    refine ⟨hAsymmetry, rfl, rfl, fun hOff => ?_, fun hZero => ?_⟩
    · show asymmetry _ _ _ _ _ = 0
      rw [hAsymmetry, hOff, Int.zero_mul, Int.neg_zero]
      unfold awayRounded
      rw [Int.sign_zero, Int.zero_mul]
      rfl
    · subst hZero
      exact ⟨railOf_zero _, railOf_zero _⟩

end Sys2Proof.Machine
end

section
/-! PROOFS. The intake of an offered order: its transaction, the slot's bytes at intake and at completion, and the
refusals. -/

namespace Sys2Proof.Machine

/-! ### The offering transaction (R118, R120, R158) -/

theorem hostOwns_slot {s : State} {n : SlotId} (h : s.slots[n] ≠ .taken) {k : Nat} (hk : k < 0x10) :
    hostOwns s (slotAddr n + k) := .inr (.inr (.inr (.inl ⟨n, k, hk, rfl, h⟩)))

theorem Watch.record_slotByte (w : Watch) (n : SlotId) {k : Nat} (hk : 1 ≤ k ∧ k < 64) (b : Byte) :
    w.record (slotAddr n + k) b = w := by
  have hn := n.isLt
  unfold Watch.record slotAddr
  rw [if_neg (by omega), if_neg (by omega), if_neg (by omega), if_neg (by omega), if_neg (by omega), if_neg (by omega),
    if_pos (by omega), if_neg (by omega)]

theorem Watch.record_slotState (w : Watch) (n : SlotId) (b : Byte) :
    w.record (slotAddr n) b = { w with slots := upd w.slots n (some b) } := by
  have hn := n.isLt
  have hSlot : slotOf (slotAddr n) = n := Fin.ext (by rw [slotOf_val]; unfold slotAddr; omega)
  unfold Watch.record
  rw [hSlot]
  unfold slotAddr
  rw [if_neg (by omega), if_neg (by omega), if_neg (by omega), if_neg (by omega), if_neg (by omega), if_neg (by omega),
    if_pos (by omega), if_pos (by omega)]

theorem writeByte_slot {s : State} (hs : s.starting = false) {n : SlotId} (h : s.slots[n] ≠ .taken) {k : Nat} (hk : k < 0x10)
    (b : Byte) : s.writeByte (slotAddr n + k) b =
      { s with mem := s.mem.write (slotAddr n + k) b, watch := s.watch.record (slotAddr n + k) b } := by
  rw [writeByte_owned hs (hostOwns_slot h hk), if_neg (by unfold slotAddr; omega)]
  rfl

/-- The bytes after the state byte of a slot's host part are stored and not watched. -/
theorem writeBytes_slotRest {n : SlotId} : ∀ (bs : List Byte) (k : Nat) (s : State), s.starting = false → s.slots[n] ≠ .taken →
    1 ≤ k → k + bs.length ≤ 0x10 → State.writeBytes bs (slotAddr n + k) s =
      { s with mem := s.mem.writeBytes (slotAddr n + k) bs, sdo := s.sdo ++ List.replicate bs.length 0 }
  | [], k, s, _, _, _, _ => by simp [State.writeBytes, Memory.writeBytes]
  | b :: rest, k, s, hs, hFree, hk, hLength => by
    rw [List.length_cons] at hLength
    have hRest := writeBytes_slotRest rest (k + 1) ((s.writeByte (slotAddr n + k) b).shift 0)
      ((writeByte_starting s _ b).trans hs) (by rw [writeByte_slots]; exact hFree) (by omega) (by omega)
    rw [State.writeBytes, Nat.add_assoc, hRest, writeByte_slot hs hFree (by omega),
      Watch.record_slotByte _ n ⟨hk, by omega⟩]
    simp [State.shift, Memory.writeBytes, List.replicate_succ, Nat.add_assoc]

/-- The state in which an offer's write has ended and nothing of it is handled. -/
def State.offered (s : State) (o : Offer) : State :=
  { afterAddress s (List.replicate o.bytes.length 0) with
    mem := s.mem.writeBytes (slotAddr o.slot) o.bytes, endPending := false, watch := Watch.empty }

/-- The state in which an offered order's slot is TAKEN and stamped (R120, steps 1 and 2). -/
def State.takenIn (s : State) (o : Offer) : State := (s.offered o).stampSlot o.slot

theorem Offer.bytes_cons (o : Offer) : o.bytes = offeredCode :: byteOf o.kind.code :: o.target :: o.more := rfl

theorem memoryWriteBody_offer {i : Instr} {o : Offer} {s : State} (hOffer : offerOf i = some o) (h : offerable s o) :
    (afterAddress s []).memoryWriteBody (slotAddr o.slot) o.bytes =
      { s.offered o with
        endPending := true, watch := { Watch.empty with slots := upd Watch.empty.slots o.slot (some offeredCode) } } := by
  obtain ⟨⟨hs, he⟩, hFree, -⟩ := h
  have hLength := (offer_length hOffer).2
  unfold State.memoryWriteBody State.offered
  rw [Offer.bytes_cons] at hLength ⊢
  rw [List.length_cons] at hLength
  have hFirst := writeByte_slot (s := { afterAddress s [] with watch := Watch.empty }) hs hFree (k := 0) (by decide) offeredCode
  have hRest := writeBytes_slotRest (n := o.slot) (byteOf o.kind.code :: o.target :: o.more) 1
    ((State.writeByte { afterAddress s [] with watch := Watch.empty } (slotAddr o.slot) offeredCode).shift 0)
    ((writeByte_starting _ _ _).trans hs) (by rw [writeByte_slots]; exact hFree) (by decide) (by omega)
  rw [Nat.add_zero, Watch.record_slotState] at hFirst
  rw [State.writeBytes, hRest, hFirst]
  show _ = _
  have hEnd : (!s.starting) = true := by rw [hs]; rfl
  simp only [State.shift, afterAddress, afterShift, hEnd, Memory.writeBytes, List.length_cons, List.replicate_succ,
    List.cons_append, List.nil_append]

/-! ### The end of a write that wrote one slot's state (R119, R162) -/

theorem forEach_single {α : Type} (f : α → State → State) (a : α) : ∀ (l : List α) (s : State), l.Nodup → a ∈ l →
    (∀ b ∈ l, b ≠ a → ∀ t, f b t = t) → forEach l f s = f a s
  | [], _, _, h, _ => nomatch h
  | b :: rest, s, hNodup, hMem, hOther => by
    obtain ⟨hNot, hRest⟩ := List.nodup_cons.mp hNodup
    show forEach rest f (f b s) = _
    by_cases hb : b = a
    · subst hb
      exact forEach_unchanged rest f _ fun c hc => hOther c (List.mem_cons_of_mem b hc) (fun e => hNot (e ▸ hc)) _
    · rw [hOther b List.mem_cons_self hb]
      exact forEach_single f a rest s hRest ((List.mem_cons.mp hMem).resolve_left (Ne.symm hb))
        fun c hc => hOther c (List.mem_cons_of_mem b hc)

theorem takeSlots_one (s : State) {w : Watch} {n : SlotId} {b : Byte} (h : w.slots = upd Watch.empty.slots n (some b)) :
    s.takeSlots w = s.takeSlotState n b := by
  have hOne : w.slots[n] = some b := by rw [h]; exact upd_same _ _ _
  have hOther (m : SlotId) (hm : m ≠ n) : w.slots[m] = none := by
    rw [h, upd_other _ _ _ _ (Ne.symm hm)]
    exact empty_slot m
  unfold State.takeSlots
  rw [forEach_single _ n _ _ allNodes_nodup (mem_allNodes n) fun m _ hm t => by rw [hOther m hm], hOne]

theorem takeSlotState_offered {s : State} {n : SlotId} (h : s.slots[n] ≠ .taken) :
    s.takeSlotState n offeredCode = s.intakeSlot n := by
  unfold State.takeSlotState
  split
  next hTaken => exact absurd hTaken h
  next => exact if_pos rfl

/-- An order offered in a free slot: taken in, carried out, and concluded (R120). -/
theorem exec_offerable {i : Instr} {o : Offer} {s : State} (hOffer : offerOf i = some o) (h : offerable s o) :
    exec i s = .next (State.conclude ((s.takenIn o).carryOut o.slot) o.slot) := by
  have hs := h.1.1
  rw [exec_offer hOffer, offer_eq (.inl h.1.2), if_neg (by rw [hs]; decide), memoryWriteBody_offer hOffer h,
    handleEnd_slots _ rfl, takeSlots_one _ rfl]
  exact congrArg _ (takeSlotState_offered h.2.1)

/-! ### A slot's bytes once it is taken in (section 11.6) -/

/-- The memory of a slot's stamp: TAKEN, the intake number, and the rest of the result area cleared (R120). -/
def stampedMemory (m : Memory) (n : SlotId) (seq : BitVec 16) : Memory :=
  ((m.write (slotAddr n) (byteOf SlotState.taken.code)).writeBytes (slotAddr n + 0x10) (le16 seq)).writeBytes
    (slotAddr n + 0x13) ([0xFF, 0, 0, 0, 0] ++ List.replicate 40 0)

theorem stampSlot_eq (s : State) (n : SlotId) : s.stampSlot n = { s with
    slots := upd s.slots n .taken, mem := stampedMemory s.mem n s.intakeSeq, intakeSeq := s.intakeSeq + 1 } := by
  simp only [State.stampSlot, State.setSlot, State.poke, State.pokes, stampedMemory]

theorem takenIn_eq (s : State) (o : Offer) : s.takenIn o = { afterOffer s o with
    slots := upd s.slots o.slot .taken
    mem := stampedMemory (s.mem.writeBytes (slotAddr o.slot) o.bytes) o.slot s.intakeSeq } := by
  have hZeros : List.replicate (o.bytes.length + 2) (0 : Byte) = [0, 0] ++ List.replicate o.bytes.length 0 := by
    rw [Nat.add_comm, List.replicate_add]
    rfl
  unfold State.takenIn afterOffer
  rw [stampSlot_eq, hZeros]
  rfl

theorem le16_length (v : BitVec 16) : (le16 v).length = 2 := rfl

theorem stampedMemory_outside (m : Memory) (n : SlotId) (seq : BitVec 16) {a : Nat}
    (h : a < slotAddr n ∨ slotAddr n + 64 ≤ a) : (stampedMemory m n seq).read a = m.read a := by
  unfold stampedMemory
  rw [Memory.read_writeBytes_other, Memory.read_writeBytes_other, Memory.read_write_other]
  · omega
  · rw [le16_length]
    omega
  · rw [List.length_append, List.length_replicate, show [(0xFF : Byte), 0, 0, 0, 0].length = 5 from rfl]
    omega

theorem stampedMemory_state (m : Memory) (n : SlotId) (seq : BitVec 16) : (stampedMemory m n seq).read (slotAddr n) = 2 := by
  unfold stampedMemory
  rw [Memory.read_writeBytes_other _ _ _ _ (by omega), Memory.read_writeBytes_other _ _ _ _ (by omega),
    Memory.read_write_same]
  rfl

theorem stampedMemory_host (m : Memory) (n : SlotId) (seq : BitVec 16) {k : Nat} (hk : 1 ≤ k ∧ k < 0x10) :
    (stampedMemory m n seq).read (slotAddr n + k) = m.read (slotAddr n + k) := by
  unfold stampedMemory
  rw [Memory.read_writeBytes_other _ _ _ _ (by omega), Memory.read_writeBytes_other _ _ _ _ (by omega),
    Memory.read_write_other _ _ _ _ (by omega)]

theorem stampedMemory_seq (m : Memory) (n : SlotId) (seq : BitVec 16) {k : Nat} (hk : k < 2) :
    (stampedMemory m n seq).read (slotAddr n + 0x10 + k) = (le16 seq).getD k 0 := by
  unfold stampedMemory
  rw [Memory.read_writeBytes_other _ _ _ _ (by omega), Memory.read_writeBytes_at _ _ _ (by rw [le16_length]; exact hk)]

theorem stampedMemory_rest (m : Memory) (n : SlotId) (seq : BitVec 16) {k : Nat} (hk : k < 45) :
    (stampedMemory m n seq).read (slotAddr n + 0x13 + k) = if k = 0 then 0xFF else 0 := by
  unfold stampedMemory
  rw [Memory.read_writeBytes_at _ _ _ (by simpa using hk)]
  obtain rfl | hPos := Nat.eq_zero_or_pos k
  · rfl
  · rw [if_neg (by omega)]
    have hAll : ∀ j, j < 45 → 0 < j → ([(0xFF : Byte), 0, 0, 0, 0] ++ List.replicate 40 0).getD j 0 = 0 := by decide
    exact hAll k hk hPos

/-! ### Completion of a slot (R123) -/

theorem padKind_getD (kind : List Byte) {j : Nat} (hj : j < 40) : (padKind kind).getD j 0 = kind.getD j 0 := by
  unfold padKind
  rw [List.getD_eq_getElem?_getD, List.getElem?_take_of_lt hj, ← List.getD_eq_getElem?_getD]
  obtain h | h := Nat.lt_or_ge j kind.length
  · exact List.getD_append _ _ _ _ h
  · rw [List.getD_append_right _ _ _ _ h, List.getD_eq_default _ _ h, List.getD_replicate]
    omega

/-- The memory of a completion: state, progress, reason and kind result (R123). -/
def completedMemory (m : Memory) (n : SlotId) (final : SlotState) (reason : Byte) (kind : List Byte) : Memory :=
  (((m.writeBytes (slotAddr n + 0x18) (padKind kind)).write (slotAddr n + 0x15) reason).write (slotAddr n + 0x12)
    endedCode).write (slotAddr n) (byteOf final.code)

theorem completeSlot_eq (s : State) (n : SlotId) (final : SlotState) (reason : Byte) (kind : List Byte) :
    s.completeSlot n final reason kind = { s with
      mem := completedMemory s.mem n final reason kind, slots := upd s.slots n final
      intake := s.intake.filter fun o => o.slot ≠ n
      news := { s.news with done := s.news.done ||| bit8 n.val }, attn := s.attn.raise 4 } := by
  simp only [State.completeSlot, State.setSlot, State.poke, State.pokes, State.newsDone, State.raise, completedMemory]

theorem completedMemory_outside (m : Memory) (n : SlotId) (final : SlotState) (reason : Byte) (kind : List Byte) {a : Nat}
    (h : a < slotAddr n ∨ slotAddr n + 64 ≤ a) : (completedMemory m n final reason kind).read a = m.read a := by
  unfold completedMemory
  rw [Memory.read_write_other _ _ _ _ (by omega), Memory.read_write_other _ _ _ _ (by omega),
    Memory.read_write_other _ _ _ _ (by omega), Memory.read_writeBytes_other _ _ _ _ (by rw [padKind_length]; omega)]

/-- A completion leaves the host part but its state byte, the intake number, the group and the abandon count. -/
theorem completedMemory_kept (m : Memory) (n : SlotId) (final : SlotState) (reason : Byte) (kind : List Byte) {k : Nat}
    (hk : 1 ≤ k ∧ k < 0x18 ∧ k ≠ 0x12 ∧ k ≠ 0x15) :
    (completedMemory m n final reason kind).read (slotAddr n + k) = m.read (slotAddr n + k) := by
  unfold completedMemory
  rw [Memory.read_write_other _ _ _ _ (by omega), Memory.read_write_other _ _ _ _ (by omega),
    Memory.read_write_other _ _ _ _ (by omega), Memory.read_writeBytes_other _ _ _ _ (by omega)]

theorem completedMemory_state (m : Memory) (n : SlotId) (final : SlotState) (reason : Byte) (kind : List Byte) :
    (completedMemory m n final reason kind).read (slotAddr n) = byteOf final.code := Memory.read_write_same _ _ _

theorem completedMemory_progress (m : Memory) (n : SlotId) (final : SlotState) (reason : Byte) (kind : List Byte) :
    (completedMemory m n final reason kind).read (slotAddr n + 0x12) = 4 := by
  unfold completedMemory
  rw [Memory.read_write_other _ _ _ _ (by omega), Memory.read_write_same]
  rfl

theorem completedMemory_reason (m : Memory) (n : SlotId) (final : SlotState) (reason : Byte) (kind : List Byte) :
    (completedMemory m n final reason kind).read (slotAddr n + 0x15) = reason := by
  unfold completedMemory
  rw [Memory.read_write_other _ _ _ _ (by omega), Memory.read_write_other _ _ _ _ (by omega), Memory.read_write_same]

theorem completedMemory_kind (m : Memory) (n : SlotId) (final : SlotState) (reason : Byte) (kind : List Byte) {j : Nat}
    (hj : j < 40) : (completedMemory m n final reason kind).read (slotAddr n + 0x18 + j) = kind.getD j 0 := by
  unfold completedMemory
  rw [Memory.read_write_other _ _ _ _ (by omega), Memory.read_write_other _ _ _ _ (by omega),
    Memory.read_write_other _ _ _ _ (by omega), Memory.read_writeBytes_at _ _ _ (by rw [padKind_length]; exact hj),
    padKind_getD kind hj]

/-! ### An order that completes at its intake -/

/-- A state in whose slot nothing changed since the order was taken in. -/
def slotAsTaken (s : State) (o : Offer) (u : State) : Prop :=
  ∀ k, k < 64 → u.mem.read (slotAddr o.slot + k) = (s.takenIn o).mem.read (slotAddr o.slot + k)

theorem takenIn_mem (s : State) (o : Offer) :
    (s.takenIn o).mem = stampedMemory (s.mem.writeBytes (slotAddr o.slot) o.bytes) o.slot s.intakeSeq := by
  rw [takenIn_eq]

theorem takenIn_host (o : Offer) (s : State) {k : Nat} (hk : 1 ≤ k ∧ k < 0x10) :
    (s.takenIn o).mem.read (slotAddr o.slot + k) = o.bytes.getD k (s.mem.read (slotAddr o.slot + k)) := by
  rw [takenIn_mem, stampedMemory_host _ _ _ hk, Memory.read_writeBytes]
  split
  case isTrue h =>
    rw [Nat.add_sub_cancel_left, List.getD_eq_getElem _ _ (by omega), List.getD_eq_getElem _ _ (by omega)]
  case isFalse h => rw [List.getD_eq_default _ _ (by omega)]

theorem takenIn_outside {i : Instr} {o : Offer} (hOffer : offerOf i = some o) (s : State) {a : Nat}
    (h : a < slotAddr o.slot ∨ slotAddr o.slot + 64 ≤ a) : (s.takenIn o).mem.read a = s.mem.read a := by
  have hLength := (offer_length hOffer).2
  rw [takenIn_mem, stampedMemory_outside _ _ _ h, Memory.read_writeBytes_other _ _ _ _ (by omega)]

/-- The offset 0x10 to 0x3F of a completed order's slot, byte by byte. -/
theorem resultArea_getD (seq : BitVec 16) (reason : Byte) (kind : List Byte) {k : Nat} (hk : k < 48) :
    (le16 seq ++ [4, 0xFF, 0, reason, 0, 0] ++ kind).getD k 0 =
      if k < 2 then (le16 seq).getD k 0 else if k = 2 then 4 else if k = 3 then 0xFF else if k = 5 then reason
      else if k < 8 then 0 else kind.getD (k - 8) 0 := by
  obtain h | h := Nat.lt_or_ge k 8
  · rw [List.getD_append _ _ _ _ (by exact h)]
    interval_cases k <;> rfl
  · rw [List.getD_append_right _ _ _ _ (by exact h)]
    simp only [show ¬ k < 2 by omega, show k ≠ 2 by omega, show k ≠ 3 by omega, show k ≠ 5 by omega, show ¬ k < 8 by omega,
      if_false]
    rfl

theorem completedAtIntake_completeSlot {o : Offer} {s u : State}
    (hSlot : slotAsTaken s o u) (final : SlotState) (reason : Byte) (kind : List Byte) :
    completedAtIntake s (u.completeSlot o.slot final reason kind) o final reason kind := by
  rw [completeSlot_eq]
  refine ⟨upd_same _ _ _, ⟨completedMemory_state _ _ _ _ _, fun k hLow hHigh => ?_⟩, fun k hk => ?_, ?_, ?_⟩
  · show (completedMemory u.mem o.slot final reason kind).read _ = _
    rw [completedMemory_kept _ _ _ _ _ (by omega), hSlot k (by omega), takenIn_host o s ⟨hLow, hHigh⟩]
  · show (completedMemory u.mem o.slot final reason kind).read _ = _
    rw [resultArea_getD _ _ _ hk]
    have hTaken (j : Nat) (hj : j < 48) : u.mem.read (slotAddr o.slot + (0x10 + j)) =
        (stampedMemory (s.mem.writeBytes (slotAddr o.slot) o.bytes) o.slot s.intakeSeq).read (slotAddr o.slot + 0x10 + j) := by
      rw [hSlot _ (by omega), takenIn_mem, Nat.add_assoc]
    split_ifs with h2 hProgress hGroup hReason hZero
    · rw [Nat.add_assoc, completedMemory_kept _ _ _ _ _ (by omega), hTaken k hk, stampedMemory_seq _ _ _ h2]
    · subst hProgress
      exact completedMemory_progress _ _ _ _ _
    · subst hGroup
      exact (completedMemory_kept _ _ _ _ _ (by decide)).trans ((hTaken 3 (by decide)).trans (stampedMemory_rest _ _ _ (k := 0) (by decide)))
    · subst hReason
      exact completedMemory_reason _ _ _ _ _
    · rw [Nat.add_assoc, completedMemory_kept _ _ _ _ _ (by omega), hTaken k hk,
        show slotAddr o.slot + 0x10 + k = slotAddr o.slot + 0x13 + (k - 3) by omega, stampedMemory_rest _ _ _ (by omega),
        if_neg (by omega)]
    · rw [show slotAddr o.slot + 0x10 + k = slotAddr o.slot + 0x18 + (k - 8) by omega,
        completedMemory_kind _ _ _ _ _ (by omega)]
  · show has8 (u.news.done ||| bit8 o.slot.val) o.slot.val = true
    rw [has8_add _ _ _ o.slot.isLt o.slot.isLt]
    simp
  · show has8 (u.attn.pending ||| bit8 4) 4 = true
    rw [has8_add _ _ _ (by decide) (by decide)]
    simp

/-- A completion changes the slot, its news and level 4 alone, where the order stands in no list. -/
theorem onlySlot_completeSlot {v u : State} {n : SlotId} (hFrame : u = { v with mem := u.mem, slots := upd v.slots n u.slots[n] })
    (hMem : ∀ a, a < slotAddr n ∨ slotAddr n + 64 ≤ a → u.mem.read a = v.mem.read a) (hIntake : ∀ x ∈ v.intake, x.slot ≠ n)
    (final : SlotState) (reason : Byte) (kind : List Byte) : onlySlot v (u.completeSlot n final reason kind) n := by
  have hKept : v.intake.filter (fun o => o.slot ≠ n) = v.intake :=
    List.filter_eq_self.mpr fun x hx => decide_eq_true (hIntake x hx)
  have hSlots : upd (upd v.slots n u.slots[n]) n final = upd v.slots n final := by
    unfold upd
    simp
  have hState : u.completeSlot n final reason kind = { v with
      mem := completedMemory u.mem n final reason kind, slots := upd v.slots n final
      news := { v.news with done := v.news.done ||| bit8 n.val }, attn := v.attn.raise 4 } := by
    generalize hm : u.mem = m, hx : u.slots[n] = x at *
    subst hFrame
    rw [completeSlot_eq]
    simp only [hSlots, hKept]
  rw [hState]
  refine ⟨?_, fun a ha => (completedMemory_outside _ _ _ _ _ (by omega)).trans (hMem a (by omega))⟩
  simp only [upd_same]

/-- The same of an order taken in, as against the state in which it was offered. -/
theorem onlySlot_takenIn {i : Instr} {o : Offer} {s : State} (hOffer : offerOf i = some o) (h : offerable s o)
    (final : SlotState) (reason : Byte) (kind : List Byte) :
    onlySlot (afterOffer s o) ((s.takenIn o).completeSlot o.slot final reason kind) o.slot := by
  refine onlySlot_completeSlot (v := afterOffer s o) ?_ (fun a ha => takenIn_outside hOffer s ha) h.2.2 final reason kind
  rw [takenIn_eq]
  simp only [upd_same]
  rfl

theorem slotAsTaken_takenIn (s : State) (o : Offer) : slotAsTaken s o (s.takenIn o) := fun _ _ => rfl

/-! ### What an order taken in says (section 11.6) -/

theorem takenIn_kindByte (s : State) (o : Offer) : slotParam (s.takenIn o).mem o.slot 1 = byteOf o.kind.code :=
  takenIn_host o s (by decide)

theorem takenIn_target (s : State) (o : Offer) : slotParam (s.takenIn o).mem o.slot 2 = o.target :=
  takenIn_host o s (by decide)

theorem takenIn_kind (s : State) (o : Offer) : OrderKind.ofByte (slotParam (s.takenIn o).mem o.slot 1) = some o.kind := by
  rw [takenIn_kindByte]
  cases o.kind <;> rfl

theorem carryOut_safeStop {u : State} (h : u.mode = .safeStop) (n : SlotId) : u.carryOut n = (u, .refused .safeStop) := if_pos h

/-- What an order of a kind does at its intake (R121). -/
def State.carryKind (u : State) (n : SlotId) : OrderKind → State × Ending
  | .spot => u.takeSpot n
  | .selfcheck => u.takeSelfcheck n
  | .snapshot => u.takeContext n .snapshot
  | .restore => u.takeContext n .restore
  | .release => u.takeContext n .release
  | .ack => u.takeAck n
  | .yieldNode => u.takeYield n true
  | .resumeNode => u.takeYield n false
  | .clearDisconnect => u.takeClear n

theorem carryOut_kind {u : State} {n : SlotId} {k : OrderKind} (hMode : u.mode ≠ .safeStop)
    (hKind : OrderKind.ofByte (slotParam u.mem n 1) = some k) : u.carryOut n = u.carryKind n k := by
  unfold State.carryOut State.carryKind
  rw [if_neg hMode]
  cases k <;> simp only [hKind]

theorem takenIn_mode (s : State) (o : Offer) : (s.takenIn o).mode = s.mode := by
  rw [takenIn_eq]
  rfl

theorem indexOf_outside {n : Nat} {b : Byte} (h : n ≤ b.toNat) : indexOf n b = none := dif_neg (by omega)

theorem indexOf_chan (c : Chan) : indexOf 4 (byteOf c.val) = some c := by
  revert c
  decide

theorem indexOf_plan (p : PlanId) : indexOf 16 (byteOf p.val) = some p := by
  revert p
  decide

theorem recordCount_takenIn {i : Instr} {o : Offer} (hOffer : offerOf i = some o) (s : State) (d : NodeId) :
    recordCount (s.takenIn o) d = recordCount s d := by
  have hRead (k : Nat) (hk : k < 32) : (s.takenIn o).mem.read (recordAddr d + k) = s.mem.read (recordAddr d + k) :=
    takenIn_outside hOffer s (by unfold recordAddr slotAddr; omega)
  unfold recordCount
  rw [read16_congr (hRead 2 (by decide)) (hRead 3 (by decide))]

theorem takenIn_safety (s : State) (o : Offer) : (s.takenIn o).safety = s.safety := by
  rw [takenIn_eq]
  rfl

theorem takenIn_seqs (s : State) (o : Offer) : (s.takenIn o).seqs = s.seqs := by
  rw [takenIn_eq]
  rfl

theorem takenIn_yields (s : State) (o : Offer) : (s.takenIn o).yields = s.yields := by
  rw [takenIn_eq]
  rfl

theorem takenIn_groups (s : State) (o : Offer) : (s.takenIn o).groups = s.groups := by
  rw [takenIn_eq]
  rfl

theorem takenIn_lines (s : State) (o : Offer) : (s.takenIn o).lines = s.lines := by
  rw [takenIn_eq]
  rfl

theorem leaderOf_takenIn (s : State) (o : Offer) (n : NodeId) : leaderOf (s.takenIn o) n = leaderOf s n := by
  unfold leaderOf
  rw [takenIn_groups]

/-- The kind result of a refusal is that of the state the order was offered in. -/
theorem refusedResult_takenIn {i : Instr} {o : Offer} (hOffer : offerOf i = some o) (s : State) :
    refusedResult (s.takenIn o) o.slot = refusedFigures s i := by
  have hCount := recordCount_takenIn hOffer s
  have hPlan (b : Byte) (h : o.more = [b]) : slotParam (s.takenIn o).mem o.slot 3 = b := by
    have hByte := takenIn_host o s (k := 3) (by decide)
    rw [Offer.bytes_cons, h] at hByte
    exact hByte
  unfold refusedResult
  rw [takenIn_kind, takenIn_target]
  cases i <;> cases hOffer
  case spot n node plan => exact congrArg spotRefused (hPlan plan rfl)
  case selfcheck n chan =>
    cases hChan : indexOf 4 chan with
    | none => simp only [refusedFigures, hChan]
    | some c =>
      simp only [refusedFigures, hChan]
      exact congrArg (fun v : Vector ChanSafety 4 => selfcheckResult 0 0 0 v[c].health v[c].health) (takenIn_safety s _)
  case snapshot n chan | restore n chan | release n chan =>
    cases hChan : indexOf 4 chan with
    | none => simp only [refusedFigures, hChan]
    | some c =>
      simp only [refusedFigures, hChan]
      exact congrArg (fun v : Vector Seq 4 => [byteOf v[c].ctx.code, byteOf v[c].ctx.code]) (takenIn_seqs s _)
  case ack n node count mask =>
    cases hNode : indexOf 8 node with
    | none => simp only [refusedFigures, hNode]
    | some d =>
      simp only [refusedFigures, hNode]
      exact congrArg le16 (hCount d)
  case yieldNode n node | resumeNode n node =>
    cases hNode : indexOf 8 node with
    | none => simp only [refusedFigures, hNode]
    | some d => simp only [refusedFigures, hNode, takenIn_yields, leaderOf_takenIn]
  case clearDisconnect n chan =>
    have hLine : ∀ o : Offer, lineByte (s.takenIn o) = lineByte s := fun o => by
      unfold lineByte
      rw [takenIn_lines]
    cases hChan : indexOf 4 chan with
    | none =>
      simp only [refusedFigures, hChan]
      exact congrArg (fun b => [0, 0, b]) (hLine _)
    | some c =>
      simp only [refusedFigures, hChan, clearResult, takenIn_safety, hLine]

/-! ### Refusals (R121) -/

theorem takenIn_wiring (s : State) (o : Offer) : (s.takenIn o).wiring = s.wiring := by
  rw [takenIn_eq]
  rfl

theorem takenIn_plans (s : State) (o : Offer) : (s.takenIn o).plans = s.plans := by
  rw [takenIn_eq]
  rfl

theorem takenIn_intake (s : State) (o : Offer) : (s.takenIn o).intake = s.intake := by
  rw [takenIn_eq]
  rfl

theorem takenIn_nodePlan (s : State) (o : Offer) : (s.takenIn o).nodePlan = s.nodePlan := by
  rw [takenIn_eq]
  rfl

theorem takenIn_nodes (s : State) (o : Offer) : (s.takenIn o).nodes = s.nodes := by
  rw [takenIn_eq]
  rfl

/-- What a group's state is read from: every field R13's table names. -/
theorem groupState_congr {s t : State} (hGroups : t.groups = s.groups) (hYields : t.yields = s.yields)
    (hWiring : t.wiring = s.wiring) (hSafety : t.safety = s.safety) (hSeqs : t.seqs = s.seqs) (hIntake : t.intake = s.intake)
    (hNodePlan : t.nodePlan = s.nodePlan) (hPlans : t.plans = s.plans) (hMode : t.mode = s.mode) (l : GroupId) :
    groupState t l = groupState s l := by
  unfold groupState groupStateOf groupPassive lowestEligible heldOnly eligible wiredInto serviceable checking groupPassive
    readyPlan nodePlanCopy checkInProgress
  rw [hGroups, hYields, hWiring, hSafety, hSeqs, hIntake, hNodePlan, hPlans, hMode]

theorem groupState_takenIn (s : State) (o : Offer) (l : GroupId) : groupState (s.takenIn o) l = groupState s l := by
  exact groupState_congr (takenIn_groups s o) (takenIn_yields s o) (takenIn_wiring s o) (takenIn_safety s o)
    (takenIn_seqs s o) (takenIn_intake s o) (takenIn_nodePlan s o) (takenIn_plans s o) (takenIn_mode s o) l

theorem takeSpot_badNode {u : State} {n : SlotId} (h : 8 ≤ (slotParam u.mem n 2).toNat) : u.takeSpot n = (u, .refused .badNode) := by
  unfold State.takeSpot
  rw [indexOf_outside h]

theorem takeSpot_badPlan {u : State} {n : SlotId} {node : NodeId} (hNode : slotParam u.mem n 2 = byteOf node.val)
    (hPlan : ∀ p : PlanId, byteOf p.val = slotParam u.mem n 3 → u.plans[p].ready = false) :
    u.takeSpot n = (u, .refused .badPlan) := by
  unfold State.takeSpot
  rw [hNode, indexOf_byteOf]
  dsimp only
  split
  next => rfl
  next p hIndex =>
    have hByte : byteOf p.val = slotParam u.mem n 3 := by
      unfold indexOf at hIndex
      split at hIndex
      · obtain rfl := Option.some.inj hIndex
        exact BitVec.ofNat_toNat _ _ |>.trans (BitVec.setWidth_eq _)
      · cases hIndex
    unfold spotCheck
    rw [if_pos (hPlan p hByte)]

theorem takeSpot_checked {u : State} {n : SlotId} {node : NodeId} {p : PlanId} (hNode : slotParam u.mem n 2 = byteOf node.val)
    (hPlan : slotParam u.mem n 3 = byteOf p.val) : u.takeSpot n =
      match spotCheck u (leaderOf u node) p with
      | some why => (u, .refused why)
      | none => ((u.enlist n (.spot node p) node).schedule, .waits) := by
  unfold State.takeSpot
  rw [hNode, indexOf_byteOf, hPlan, indexOf_plan] <;> rfl

theorem spotCheck_ready {u : State} {l : GroupId} {p : PlanId} (h : u.plans[p].ready = true) : spotCheck u l p =
    match groupState u l with
    | .passive => some .passive
    | .held => some .held
    | .noChannel => some .noChannel
    | _ => none := by
  unfold spotCheck
  rw [if_neg (by rw [h]; decide)] <;> cases groupState u l <;> rfl

theorem takeSelfcheck_badChannel {u : State} {n : SlotId} (h : 4 ≤ (slotParam u.mem n 2).toNat) :
    u.takeSelfcheck n = (u, .refused .badChannel) := by
  unfold State.takeSelfcheck
  rw [indexOf_outside h]

theorem takeSelfcheck_unwired {u : State} {n : SlotId} {c : Chan} (hChan : slotParam u.mem n 2 = byteOf c.val)
    (h : u.wiring[c].wiredNode = none) : u.takeSelfcheck n = (u, .refused .badChannel) := by
  unfold State.takeSelfcheck
  rw [hChan, indexOf_chan]
  simp only [h]

theorem takeSelfcheck_checked {u : State} {n : SlotId} {c : Chan} {node : NodeId}
    (hChan : slotParam u.mem n 2 = byteOf c.val) (h : u.wiring[c].wiredNode = some node) : u.takeSelfcheck n =
      match selfcheckCheck u c with
      | some why => (u, .refused why)
      | none => ((u.enlist n (.selfcheck c) node).schedule, .waits) := by
  unfold State.takeSelfcheck
  rw [hChan, indexOf_chan]
  simp only [h] <;> rfl

theorem takeContext_badChannel {u : State} {n : SlotId} (h : 4 ≤ (slotParam u.mem n 2).toNat) (kind : OrderKind) :
    u.takeContext n kind = (u, .refused .badChannel) := by
  unfold State.takeContext
  rw [indexOf_outside h]

theorem takeContext_snapshot {u : State} {n : SlotId} {c : Chan} (hChan : slotParam u.mem n 2 = byteOf c.val) :
    u.takeContext n .snapshot =
      (u.doSnapshot c, .done (ctxResult u.seqs[c].ctx (u.doSnapshot c).seqs[c].ctx)) := by
  unfold State.takeContext
  rw [hChan, indexOf_chan]

theorem takeContext_release {u : State} {n : SlotId} {c : Chan} (hChan : slotParam u.mem n 2 = byteOf c.val) :
    u.takeContext n .release = (u.unhold c, .done (ctxResult u.seqs[c].ctx (u.unhold c).seqs[c].ctx)) := by
  unfold State.takeContext
  rw [hChan, indexOf_chan]

theorem takeContext_restore {u : State} {n : SlotId} {c : Chan} (hChan : slotParam u.mem n 2 = byteOf c.val) {k : CtxKind}
    (hKind : CtxKind.ofByte (u.mem.read (frameAddr c)) = some k) (hFrame : u.mem.read (frameAddr c + 1) = byteOf c.val) :
    u.takeContext n .restore = (u.doRestore c k, .done (ctxResult u.seqs[c].ctx k)) := by
  unfold State.takeContext
  rw [hChan, indexOf_chan]
  dsimp only
  rw [hKind]
  exact if_pos hFrame

theorem takeContext_format {u : State} {n : SlotId} {c : Chan} (hChan : slotParam u.mem n 2 = byteOf c.val)
    (h : 3 ≤ (u.mem.read (frameAddr c)).toNat ∨ u.mem.read (frameAddr c + 1) ≠ byteOf c.val) :
    u.takeContext n .restore = (u, .refused .format) := by
  unfold State.takeContext
  rw [hChan, indexOf_chan]
  dsimp only
  split
  next => rfl
  next k hKind =>
    refine if_neg (h.resolve_left fun hLarge => ?_)
    unfold CtxKind.ofByte at hKind
    split at hKind <;> first | omega | cases hKind

theorem takeAck_badNode {u : State} {n : SlotId} (h : 8 ≤ (slotParam u.mem n 2).toNat) : u.takeAck n = (u, .refused .badNode) := by
  unfold State.takeAck
  rw [indexOf_outside h]

theorem takeAck_named {u : State} {n : SlotId} {node : NodeId} {count : BitVec 16}
    (hNode : slotParam u.mem n 2 = byteOf node.val) (hCount : u.mem.read16 (slotAddr n + 4) = count.toNat) : u.takeAck n =
      if ackAccepted u node count then
        (u.acknowledge node (slotParam u.mem n 6),
          .done (le16 (recordCount (u.acknowledge node (slotParam u.mem n 6)) node)
            ++ [(u.acknowledge node (slotParam u.mem n 6)).nodes[node].accrued]))
      else (u, .refused .stale) := by
  unfold State.takeAck
  rw [hNode, indexOf_byteOf, hCount, BitVec.ofNat_toNat, BitVec.setWidth_eq]

theorem takeYield_badNode {u : State} {n : SlotId} (h : 8 ≤ (slotParam u.mem n 2).toNat) (flag : Bool) :
    u.takeYield n flag = (u, .refused .badNode) := by
  unfold State.takeYield
  rw [indexOf_outside h]

theorem takeYield_named {u : State} {n : SlotId} {node : NodeId} (hNode : slotParam u.mem n 2 = byteOf node.val) (flag : Bool) :
    u.takeYield n flag = (u.setYield node flag,
      .done [flagByte (has8 u.yields node.val), byteOf (leaderOf (u.setYield node flag) node).val]) := by
  unfold State.takeYield
  rw [hNode, indexOf_byteOf]

theorem takeClear_badChannel {u : State} {n : SlotId} (h : 4 ≤ (slotParam u.mem n 2).toNat) :
    u.takeClear n = (u, .refused .badChannel) := by
  unfold State.takeClear
  rw [indexOf_outside h]

theorem takeClear_named {u : State} {n : SlotId} {c : Chan} (hChan : slotParam u.mem n 2 = byteOf c.val) : u.takeClear n =
    if u.safety[c].disconnected = false then (u, .done (clearResult u false false))
    else if lineAsserted u c then (u, .refused .lineActive)
    else ((u.clearDisconnect c).regroup, .done (clearResult (u.clearDisconnect c).regroup true false)) := by
  unfold State.takeClear
  rw [hChan, indexOf_chan]

theorem lineAsserted_iff (s : State) (c : Chan) : lineAsserted s c = true ↔
    ∃ i, i < 3 ∧ s.safety[c].discMask.getLsbD i = true ∧ s.lines.getLsbD i = true := by
  unfold lineAsserted
  rw [decide_eq_true_eq]
  constructor
  · intro h
    by_contra hNone
    refine h (BitVec.eq_of_getLsbD_eq fun i hi => ?_)
    rw [BitVec.getLsbD_and, BitVec.getLsbD_setWidth, show (0 : BitVec 3) = 0#3 from rfl, BitVec.getLsbD_zero]
    by_contra hBit
    rw [Bool.not_eq_false, Bool.and_eq_true, Bool.and_eq_true] at hBit
    exact hNone ⟨i, hi, hBit.1, hBit.2.2⟩
  · rintro ⟨i, hi, hMask, hLine⟩ hZero
    have hBit : (s.safety[c].discMask &&& s.lines.setWidth 3).getLsbD i = (0 : BitVec 3).getLsbD i := by rw [hZero]
    rw [BitVec.getLsbD_and, BitVec.getLsbD_setWidth, hMask, hLine, decide_eq_true hi, show (0 : BitVec 3) = 0#3 from rfl,
      BitVec.getLsbD_zero] at hBit
    cases hBit

/-- A refused order's conclusion is the refusal of its slot. -/
theorem conclude_refused (u : State) (n : SlotId) (why : Reason) :
    State.conclude (u, .refused why) n = u.completeSlot n .refused (byteOf why.code) (refusedResult u n) := rfl

theorem conclude_done (u : State) (n : SlotId) (kind : List Byte) :
    State.conclude (u, .done kind) n = u.completeSlot n .done 0 kind := rfl

/-- The parameter bytes of an ACK (R75). -/
theorem takenIn_ackCount {n : SlotId} {node : Byte} {count : BitVec 16} {mask : Byte} {o : Offer}
    (hOffer : offerOf (.ack n node count mask) = some o) (s : State) :
    (s.takenIn o).mem.read16 (slotAddr o.slot + 4) = count.toNat ∧ slotParam (s.takenIn o).mem o.slot 6 = mask := by
  cases hOffer
  exact ⟨read16_of_bytes (takenIn_host _ s (k := 4) (by decide)) (takenIn_host _ s (k := 5) (by decide)),
    takenIn_host _ s (k := 6) (by decide)⟩

theorem takenIn_frame {i : Instr} {o : Offer} (hOffer : offerOf i = some o) (s : State) (c : Chan) {k : Nat} (hk : k < 64) :
    (s.takenIn o).mem.read (frameAddr c + k) = s.mem.read (frameAddr c + k) :=
  takenIn_outside hOffer s (by unfold frameAddr slotAddr; omega)

theorem selfcheckCheck_takenIn (s : State) (o : Offer) (c : Chan) : selfcheckCheck (s.takenIn o) c = selfcheckCheck s c := by
  unfold selfcheckCheck
  rw [takenIn_safety]

theorem lineAsserted_takenIn (s : State) (o : Offer) (c : Chan) : lineAsserted (s.takenIn o) c = lineAsserted s c := by
  unfold lineAsserted
  rw [takenIn_safety, takenIn_lines]

theorem ackAccepted_takenIn {i : Instr} {o : Offer} (hOffer : offerOf i = some o) (s : State) (d : NodeId) (count : BitVec 16) :
    ackAccepted (s.takenIn o) d count = ackAccepted s d count := by
  unfold ackAccepted
  rw [recordCount_takenIn hOffer, takenIn_nodes]

/-- Every check of R121 that an order fails refuses it, before anything is carried out. -/
theorem carryOut_refused {i : Instr} {o : Offer} {why : Reason} {s : State} (hOffer : offerOf i = some o)
    (h : RefusedAtIntake s i why) : (s.takenIn o).carryOut o.slot = (s.takenIn o, .refused why) := by
  have hTarget := takenIn_target s o
  have hKind := takenIn_kind s o
  have hMode := takenIn_mode s o
  have hPlan : slotParam (s.takenIn o).mem o.slot 3 = o.bytes.getD 3 _ := takenIn_host o s (by decide)
  have hAck (n : SlotId) (node : Byte) (count : BitVec 16) (mask : Byte) (hSame : offerOf (.ack n node count mask) = some o) :=
    takenIn_ackCount hSame s
  have hFrame (c : Chan) (k : Nat) (hk : k < 64) := takenIn_frame hOffer s c hk
  have hAccepted := ackAccepted_takenIn hOffer s
  have hLeader := leaderOf_takenIn s o
  have hState := groupState_takenIn s o
  have hCheck := selfcheckCheck_takenIn s o
  have hLine := lineAsserted_takenIn s o
  have hPlans := takenIn_plans s o
  have hWiring := takenIn_wiring s o
  have hSafety := takenIn_safety s o
  generalize s.takenIn o = u at *
  cases h
  case safeStop hStop _ => exact carryOut_safeStop (hMode.trans hStop) _
  all_goals
    have hSame := hOffer
    cases hOffer
    rw [carryOut_kind (by rw [hMode]; assumption) hKind]
    unfold State.carryKind
    dsimp only at hTarget hPlan ⊢
  case spotNode hNode => exact takeSpot_badNode (by rw [hTarget]; exact hNode)
  case ackNode hNode => exact takeAck_badNode (by rw [hTarget]; exact hNode)
  case yieldNode hNode => exact takeYield_badNode (by rw [hTarget]; exact hNode) true
  case resumeNode hNode => exact takeYield_badNode (by rw [hTarget]; exact hNode) false
  case selfcheckChan hChan => exact takeSelfcheck_badChannel (by rw [hTarget]; exact hChan)
  case snapshotChan hChan => exact takeContext_badChannel (by rw [hTarget]; exact hChan) .snapshot
  case restoreChan hChan => exact takeContext_badChannel (by rw [hTarget]; exact hChan) .restore
  case releaseChan hChan => exact takeContext_badChannel (by rw [hTarget]; exact hChan) .release
  case clearChan hChan => exact takeClear_badChannel (by rw [hTarget]; exact hChan)
  case spotPlan n node plan _ hReady =>
    refine takeSpot_badPlan hTarget fun p hp => ?_
    rw [hPlans]
    exact hReady p (hp.trans hPlan)
  case spotPassive n node p _ hReady hGroup =>
    rw [takeSpot_checked hTarget hPlan, spotCheck_ready (by rw [hPlans]; exact hReady), hLeader, hState, hGroup]
  case spotHeld n node p _ hReady hGroup =>
    rw [takeSpot_checked hTarget hPlan, spotCheck_ready (by rw [hPlans]; exact hReady), hLeader, hState, hGroup]
  case spotNoChannel n node p _ hReady hGroup =>
    rw [takeSpot_checked hTarget hPlan, spotCheck_ready (by rw [hPlans]; exact hReady), hLeader, hState, hGroup]
  case selfcheckUnwired n c _ hWired => exact takeSelfcheck_unwired hTarget (by rw [hWiring]; exact hWired)
  case selfcheckOffline n c node _ hWired hHealth =>
    rw [takeSelfcheck_checked hTarget (by rw [hWiring]; exact hWired), hCheck]
    unfold selfcheckCheck
    rw [if_pos hHealth]
  case selfcheckDisconnected n c node _ hWired hHealth hDisc =>
    rw [takeSelfcheck_checked hTarget (by rw [hWiring]; exact hWired), hCheck]
    unfold selfcheckCheck
    rw [if_neg hHealth, if_pos hDisc]
  case ackStale n node count mask _ hStale =>
    rw [takeAck_named hTarget (hAck _ _ _ _ hSame).1, hAccepted, if_neg]
    unfold ackAccepted
    rw [Bool.and_eq_true, decide_eq_true_eq, Bool.not_eq_true']
    rintro ⟨hCount, hDeferred⟩
    obtain h | h := hStale
    · exact h hCount
    · rw [hDeferred] at h
      cases h
  case restoreFormat n c _ hFormat =>
    refine takeContext_format hTarget ?_
    rw [hFrame c 1 (by decide), show u.mem.read (frameAddr c) = s.mem.read (frameAddr c) from hFrame c 0 (by decide)]
    exact hFormat
  case lineActive n c _ hDisc hActive =>
    rw [takeClear_named hTarget, hSafety, hLine, if_neg (by rw [hDisc]; decide), if_pos ((lineAsserted_iff s c).mpr hActive)]

/-- Settles O23: a failed check refuses the order before anything else of it is done, and the refusal completes its
slot. -/
theorem ordersRefusedAtIntake : Obligations.OrdersRefusedAtIntake := by
  intro i o why s hOffer hOfferable h
  refine ⟨_, exec_offerable hOffer hOfferable, ?_⟩
  rw [carryOut_refused hOffer h, conclude_refused, refusedResult_takenIn hOffer]
  exact ⟨completedAtIntake_completeSlot (slotAsTaken_takenIn s o) _ _ _, onlySlot_takenIn hOffer hOfferable _ _ _⟩

end Sys2Proof.Machine
end

section
/-! PROOFS. Images of single nodes, acknowledgement, and the staleness check. -/

namespace Sys2Proof.Machine

/-! ### One node's status with its image (R63, R64, R72) -/

/-- A node takes a status, with an image or, under a hold, a deferred image. -/
def State.putNode (s : State) (n : NodeId) (y : NodeStatus) : State := (s.setNode n y).imageEvent n

theorem setNode_node (s : State) (n : NodeId) (y : NodeStatus) : (s.setNode n y).nodes[n] = y := upd_same _ _ _

theorem upd_upd {α : Type} {k : Nat} (v : Vector α k) (i : Fin k) (x y : α) : upd (upd v i x) i y = upd v i y := by
  unfold upd
  simp

theorem putNode_written {s : State} (h : s.hold = none) (n : NodeId) (y : NodeStatus) : s.putNode n y = { s with
    nodes := upd s.nodes n y.imaged
    mem := s.mem.writeBytes (recordAddr n) (imageBytes y.imaged y.imaged.updateCount) } := by
  have hHold : ¬ (s.setNode n y).hold.isSome = true := by
    rw [show (s.setNode n y).hold = s.hold from rfl, h]
    decide
  unfold State.putNode State.imageEvent
  rw [if_neg hHold, writeImage_eq, setNode_node]
  simp only [State.setNode, upd_upd]

theorem putNode_deferred {s : State} (h : s.hold ≠ none) (n : NodeId) (y : NodeStatus) :
    s.putNode n y = { s with nodes := upd s.nodes n { y with deferred := true } } := by
  have hHold : (s.setNode n y).hold.isSome = true := Option.isSome_iff_ne_none.mpr h
  unfold State.putNode State.imageEvent
  rw [if_pos hHold, setNode_node]
  simp only [State.setNode, upd_upd]

theorem putNode_frame (s : State) (n : NodeId) (y : NodeStatus) :
    s.putNode n y = { s with nodes := (s.putNode n y).nodes, mem := (s.putNode n y).mem } := by
  by_cases h : s.hold = none
  · rw [putNode_written h]
  · rw [putNode_deferred h]

theorem putNode_other (s : State) {n m : NodeId} (h : n ≠ m) (y : NodeStatus) : nodeView m (s.putNode n y) = nodeView m s := by
  by_cases hHold : s.hold = none
  · rw [putNode_written hHold]
    exact nodeView_eq (upd_other _ _ _ _ h) fun k hk =>
      Memory.read_writeBytes_other _ _ _ _ (by rw [imageBytes_length]; exact recordAddr_apart h hk)
  · rw [putNode_deferred hHold]
    exact nodeView_eq (upd_other _ _ _ _ h) fun _ _ => rfl

/-- Only the update count and the deferral of the status put are the image's own. -/
theorem putNode_node (s : State) (n : NodeId) (y : NodeStatus) : (s.putNode n y).nodes[n] =
    { y with
      updateCount := (s.putNode n y).nodes[n].updateCount, deferred := (s.putNode n y).nodes[n].deferred } := by
  by_cases hHold : s.hold = none
  · rw [putNode_written hHold]
    simp only [upd_same]
    rfl
  · rw [putNode_deferred hHold]
    simp only [upd_same]

theorem putNode_tail (s : State) (n m : NodeId) (y : NodeStatus) {k : Nat} (hk : 28 ≤ k ∧ k < 32) :
    (s.putNode n y).mem.read (recordAddr m + k) = s.mem.read (recordAddr m + k) := by
  by_cases h : n = m
  · subst h
    by_cases hHold : s.hold = none
    · rw [putNode_written hHold]
      exact Memory.read_writeBytes_other _ _ _ _ (by rw [imageBytes_length]; omega)
    · rw [putNode_deferred hHold]
  · exact record_of_nodeView (putNode_other s h y) hk.2

theorem putNode_node_written {s : State} (h : s.hold = none) (n : NodeId) (y : NodeStatus) :
    (s.putNode n y).nodes[n] = y.imaged := by
  rw [putNode_written h]
  exact upd_same _ _ _

theorem putNode_node_deferred {s : State} (h : s.hold ≠ none) (n : NodeId) (y : NodeStatus) :
    (s.putNode n y).nodes[n] = { y with deferred := true } := by
  rw [putNode_deferred h]
  exact upd_same _ _ _

theorem putNode_mem_written {s : State} (h : s.hold = none) (n : NodeId) (y : NodeStatus) :
    (s.putNode n y).mem = s.mem.writeBytes (recordAddr n) (imageBytes y.imaged y.imaged.updateCount) := by
  rw [putNode_written h]

theorem putNode_shows {s : State} (h : s.hold = none) (n : NodeId) (y : NodeStatus) :
    recordShows (s.putNode n y).mem n (s.putNode n y).nodes[n] := by
  rw [putNode_node_written h, putNode_mem_written h]
  exact recordShows_image s.mem n y.imaged

theorem imaged_putNode (s : State) (n : NodeId) {y : NodeStatus} (hCount : y.updateCount = s.nodes[n].updateCount) :
    imaged s (s.putNode n y) n := by
  refine ⟨fun hHold => ⟨?_, ?_, putNode_shows hHold n y⟩, fun hHold => ⟨?_, ?_, fun k _ => ?_⟩⟩
  · rw [putNode_node_written hHold]
    rfl
  · rw [putNode_node_written hHold, ← hCount]
    rfl
  · rw [putNode_node_deferred hHold]
  · rw [putNode_node_deferred hHold]
    exact hCount
  · rw [putNode_deferred hHold]

/-- An image shows in every state with the same hold before it and the same node after it. -/
theorem imaged_congr {s s' t t' : State} {n : NodeId} (hHold : s'.hold = s.hold) (hBefore : nodeView n s' = nodeView n s)
    (hAfter : nodeView n t' = nodeView n t) (h : imaged s t n) : imaged s' t' n := by
  obtain ⟨hWritten, hDeferred⟩ := h
  unfold imaged
  rw [hHold, nodes_of_nodeView hBefore, nodes_of_nodeView hAfter]
  refine ⟨fun hNone => ?_, fun hSome => ?_⟩
  · obtain ⟨h1, h2, h3⟩ := hWritten hNone
    exact ⟨h1, h2, recordShows_congr (fun k hk => record_of_nodeView hAfter hk) h3⟩
  · obtain ⟨h1, h2, h3⟩ := hDeferred hSome
    exact ⟨h1, h2, fun k hk => (record_of_nodeView hAfter hk).trans ((h3 k hk).trans (record_of_nodeView hBefore hk).symm)⟩

/-! ### Acknowledgement (R75, R76) -/

theorem acknowledge_unchanged {s : State} {n : NodeId} {mask : Byte}
    (h : s.nodes[n].accrued &&& ~~~hostConds mask = s.nodes[n].accrued) : s.acknowledge n mask = s := if_pos h

theorem acknowledge_changed {s : State} {n : NodeId} {mask : Byte}
    (h : s.nodes[n].accrued &&& ~~~hostConds mask ≠ s.nodes[n].accrued) : s.acknowledge n mask =
      s.putNode n { s.nodes[n] with accrued := s.nodes[n].accrued &&& ~~~hostConds mask } := if_neg h

theorem slotAsTaken_of_records {s u v : State} {o : Offer} (h : slotAsTaken s o u)
    (hMem : ∀ a, ¬ inRecords a → v.mem.read a = u.mem.read a) : slotAsTaken s o v := fun k hk =>
  (hMem _ (by unfold inRecords slotAddr; omega)).trans (h k hk)

theorem putNode_mem (s : State) (n : NodeId) (y : NodeStatus) : ∀ a, ¬ inRecords a → (s.putNode n y).mem.read a = s.mem.read a :=
  ((Recording.setNode s n y).trans (Recording.imageEvent _ n)).memory

theorem recordCount_of_shows {t : State} {n : NodeId} {x : NodeStatus} (h : recordShows t.mem n x) :
    recordCount t n = x.updateCount := by
  obtain ⟨-, -, hCount, -⟩ := h
  unfold recordCount
  rw [hCount, BitVec.ofNat_toNat, BitVec.setWidth_eq]

theorem takenIn_hold (s : State) (o : Offer) : (s.takenIn o).hold = s.hold := by
  rw [takenIn_eq]
  rfl

/-- The carried out ACK that names the count of a node without a deferred image. -/
theorem carryOut_ack {n : SlotId} {node : NodeId} {count : BitVec 16} {mask : Byte} {o : Offer} {s : State}
    (hMode : s.mode ≠ .safeStop) (hOffer : offerOf (.ack n (byteOf node.val) count mask) = some o)
    (hCount : recordCount s node = count) (hDeferred : s.nodes[node].deferred = false) : (s.takenIn o).carryOut o.slot =
      ((s.takenIn o).acknowledge node mask,
        .done (le16 (recordCount ((s.takenIn o).acknowledge node mask) node)
          ++ [((s.takenIn o).acknowledge node mask).nodes[node].accrued])) := by
  have hNode : slotParam (s.takenIn o).mem o.slot 2 = byteOf node.val := by
    rw [takenIn_target]
    cases hOffer
    rfl
  have hKind : o.kind = .ack := by
    cases hOffer
    rfl
  obtain ⟨hNamed, hMask⟩ := takenIn_ackCount hOffer s
  have hAccepted : ackAccepted (s.takenIn o) node count = true := by
    rw [ackAccepted_takenIn hOffer]
    unfold ackAccepted
    rw [hCount, hDeferred]
    simp
  rw [carryOut_kind (by rw [takenIn_mode]; exact hMode) (takenIn_kind s o), hKind]
  unfold State.carryKind
  rw [takeAck_named hNode hNamed, if_pos hAccepted, hMask]

theorem writeBytes_read_congr {m m' : Memory} {a : Nat} (h : m'.read a = m.read a) (base : Nat) (bs : List Byte) :
    (m'.writeBytes base bs).read a = (m.writeBytes base bs).read a := by
  rw [Memory.read_writeBytes, Memory.read_writeBytes, h]

theorem completeSlot_nodes (s : State) (n : SlotId) (final : SlotState) (reason : Byte) (kind : List Byte) :
    (s.completeSlot n final reason kind).nodes = s.nodes := by
  rw [completeSlot_eq]

theorem completeSlot_mem (s : State) (n : SlotId) (final : SlotState) (reason : Byte) (kind : List Byte) :
    (s.completeSlot n final reason kind).mem = completedMemory s.mem n final reason kind := by
  rw [completeSlot_eq]

/-- An order that carried out the putting of a node's status changes that node, its record and its slot alone. -/
theorem onlySlot_putNode {o : Offer} {s : State} (h : offerable s o) {node : NodeId}
    {y : NodeStatus} {nodes : Vector NodeStatus 8} {m : Memory} (hNodes : ((s.takenIn o).putNode node y).nodes = nodes)
    (hMem : ∀ a, a < slotAddr o.slot ∨ slotAddr o.slot + 64 ≤ a → ((s.takenIn o).putNode node y).mem.read a = m.read a)
    (final : SlotState) (reason : Byte) (kind : List Byte) : onlySlot { afterOffer s o with nodes := nodes, mem := m }
      (((s.takenIn o).putNode node y).completeSlot o.slot final reason kind) o.slot := by
  refine onlySlot_completeSlot (v := { afterOffer s o with nodes := nodes, mem := m }) ?_ hMem h.2.2 final reason kind
  have hFrame := putNode_frame (s.takenIn o) node y
  have hSlot : ((s.takenIn o).putNode node y).slots = upd s.slots o.slot .taken := by
    rw [hFrame, takenIn_eq]
  generalize (s.takenIn o).putNode node y = t at *
  rw [hSlot, upd_same]
  rw [takenIn_eq, hNodes] at hFrame
  exact hFrame

/-- Settles O27: the node's status and image at the accepted ACK, and the slot with the count and the set after it. -/
theorem ackRemovesConditions : Obligations.AckRemovesConditions := by
  intro n node count mask o s x acc hMode hOffer hOfferable hCount hNode hDeferred hAcc
  obtain rfl : n = o.slot := by
    cases hOffer
    rfl
  have hStatus : (s.takenIn o).nodes[node] = x := by rw [takenIn_nodes, hNode]
  have hHold := takenIn_hold s o
  have hOutside (a : Nat) (ha : a < slotAddr o.slot ∨ slotAddr o.slot + 64 ≤ a) := takenIn_outside hOffer s ha
  have hAccrued : x.accrued &&& ~~~hostConds mask = acc := hAcc.symm
  refine ⟨_, exec_offerable hOffer hOfferable, ?_⟩
  rw [carryOut_ack hMode hOffer hCount (by rw [hNode]; exact hDeferred), conclude_done]
  refine ⟨fun hSame => ?_, fun hChange hNone => ?_, fun hChange hSome => ?_⟩
  · have hKept : (s.takenIn o).acknowledge node mask = s.takenIn o :=
      acknowledge_unchanged (by rw [hStatus, hAccrued, hSame])
    rw [hKept, recordCount_takenIn hOffer, hCount, hStatus, ← hSame]
    exact ⟨completedAtIntake_completeSlot (slotAsTaken_takenIn s o) _ _ _, onlySlot_takenIn hOffer hOfferable _ _ _⟩
  · have hPut : (s.takenIn o).acknowledge node mask = (s.takenIn o).putNode node { x with accrued := acc } := by
      rw [acknowledge_changed (by rw [hStatus, hAccrued]; exact hChange), hStatus, hAccrued]
    have hImaged : NodeStatus.imaged { x with accrued := acc } =
        { x with accrued := acc, updateCount := x.updateCount + 1 } := by
      unfold NodeStatus.imaged
      rw [← hDeferred]
    have hAfter := putNode_node_written (hHold.trans hNone) node { x with accrued := acc }
    have hShows := putNode_shows (hHold.trans hNone) node { x with accrued := acc }
    rw [hAfter, hImaged] at hShows
    have hRecord (k : Nat) (hk : k < 32) := completedMemory_outside ((s.takenIn o).putNode node { x with accrued := acc }).mem
      o.slot .done 0 (le16 (x.updateCount + 1) ++ [acc]) (a := recordAddr node + k) (by unfold recordAddr slotAddr; omega)
    rw [hPut, recordCount_of_shows hShows]
    rw [completeSlot_nodes, hAfter, hImaged]
    refine ⟨rfl, (completeSlot_mem _ _ _ _ _).symm ▸ recordShows_congr hRecord hShows, completedAtIntake_completeSlot
      (slotAsTaken_of_records (slotAsTaken_takenIn s o) (putNode_mem _ _ _)) _ _ _,
      onlySlot_putNode hOfferable ?_ (fun a ha => ?_) _ _ _⟩
    · rw [putNode_written (hHold.trans hNone), takenIn_nodes, hImaged]
    · rw [putNode_mem_written (hHold.trans hNone), hImaged]
      exact writeBytes_read_congr (hOutside a ha) _ _
  · have hPut : (s.takenIn o).acknowledge node mask = (s.takenIn o).putNode node { x with accrued := acc } := by
      rw [acknowledge_changed (by rw [hStatus, hAccrued]; exact hChange), hStatus, hAccrued]
    have hHeld : (s.takenIn o).hold ≠ none := by
      rw [hHold]
      exact hSome
    have hAfter := putNode_node_deferred hHeld node { x with accrued := acc }
    have hMem : ((s.takenIn o).putNode node { x with accrued := acc }).mem = (s.takenIn o).mem := by rw [putNode_deferred hHeld]
    have hCountAfter : recordCount ((s.takenIn o).putNode node { x with accrued := acc }) node = count := by
      unfold recordCount
      rw [hMem]
      exact (recordCount_takenIn hOffer s node).trans hCount
    rw [hPut, hCountAfter]
    rw [completeSlot_nodes, hAfter]
    refine ⟨rfl, completedAtIntake_completeSlot
      (slotAsTaken_of_records (slotAsTaken_takenIn s o) (putNode_mem _ _ _)) _ _ _, ?_⟩
    refine onlySlot_putNode hOfferable (m := s.mem) ?_ (fun a ha => by rw [hMem]; exact hOutside a ha) _ _ _
    rw [putNode_deferred hHeld, takenIn_nodes]

end Sys2Proof.Machine
end

section
/-! PROOFS. Ageing nodes, results on the nodes of a stamp, and a SPOT's completion by its result. -/

namespace Sys2Proof.Machine

/-! ### The FAULT fact (R68) -/

theorem anyFault_iff (nodes : Vector NodeStatus 8) : anyFault nodes = true ↔ ∃ n : NodeId, nodes[n].state = .fault := by
  simp [anyFault, List.any_eq_true, mem_allNodes]

theorem setFault_faultFact (a : Attn) (fact : Bool) : (a.setFault fact).faultFact = fact := by
  unfold Attn.setFault
  split
  case isTrue h => exact h
  case isFalse => exact (follow_spec { a with faultFact := fact } 1 fact).1

theorem setFault_pending_other (a : Attn) (fact : Bool) {m : Level} (hm : m ≠ 1) :
    has8 (a.setFault fact).pending m.val = has8 a.pending m.val := by
  unfold Attn.setFault
  split
  case isTrue => rfl
  case isFalse =>
    have hPending := (follow_spec { a with faultFact := fact } 1 fact).2.2.2 m
    exact hPending.trans (if_neg fun h => hm h.1)

/-- A change of the fact moves level 1 alone, and that only while it is not in service. -/
theorem setFault_frame_pending (a : Attn) (fact : Bool) :
    a.setFault fact = { a with pending := (a.setFault fact).pending, faultFact := fact } := by
  have hFrame := setFault_frame a fact
  have hFact := setFault_faultFact a fact
  generalize a.setFault fact = b at *
  obtain ⟨pending, inService, mask, stop, fault⟩ := b
  obtain ⟨pending', inService', mask', stop', fault'⟩ := a
  simp only [Attn.mk.injEq] at hFrame hFact ⊢
  exact ⟨trivial, hFrame.2.1, hFrame.2.2.1, hFrame.2.2.2.1, hFact⟩

/-! ### Passes over a list -/

theorem forEach_keeps {α : Type} {P : State → Prop} (f : α → State → State) : ∀ (l : List α) (s : State), P s →
    (∀ a ∈ l, ∀ t, P t → P (f a t)) → P (forEach l f s)
  | [], _, hs, _ => hs
  | a :: rest, s, hs, h => forEach_keeps f rest (f a s) (h a List.mem_cons_self s hs) fun b hb => h b (List.mem_cons_of_mem a hb)

/-- What the last step of a pass brings, whatever came before it. -/
theorem forEach_last {α : Type} {P : State → Prop} (f : α → State → State) (l : List α) (s : State) (hne : l ≠ [])
    (h : ∀ a ∈ l, ∀ t, P (f a t)) : P (forEach l f s) := by
  cases l with
  | nil => exact absurd rfl hne
  | cons a rest =>
    exact forEach_keeps f rest (f a s) (h a List.mem_cons_self s) fun b hb t _ => h b (List.mem_cons_of_mem a hb) t

/-- A fact that a pass may bring but not take away: each entry brings it or not by what the pass finds of that entry, and
that is what stood there before the pass. -/
theorem forEach_brings {α β : Type} (f : α → State → State) (view : α → State → β) (inv : State → Prop) (q : State → Prop)
    (r : α → Prop) : ∀ (l : List α) (s : State), l.Nodup → inv s → (∀ b ∈ l, ∀ t, inv t → inv (f b t)) →
      (∀ b ∈ l, ∀ a, b ≠ a → ∀ t, inv t → view a (f b t) = view a t) →
      (∀ a ∈ l, ∀ t, inv t → view a t = view a s → (q (f a t) ↔ q t ∨ r a)) → (q (forEach l f s) ↔ q s ∨ ∃ a ∈ l, r a)
  | [], s, _, _, _, _, _ => by simp [forEach]
  | b :: rest, s, hNodup, hs, hInv, hOther, hStep => by
    obtain ⟨hNot, hRest⟩ := List.nodup_cons.mp hNodup
    have hAfter := forEach_brings f view inv q r rest (f b s) hRest (hInv b List.mem_cons_self s hs)
      (fun c hc => hInv c (List.mem_cons_of_mem b hc)) (fun c hc => hOther c (List.mem_cons_of_mem b hc))
      fun c hc t ht hView => hStep c (List.mem_cons_of_mem b hc) t ht
        (hView.trans (hOther b List.mem_cons_self c (fun e => hNot (e ▸ hc)) s hs))
    show q (forEach rest f (f b s)) ↔ _
    rw [hAfter, hStep b List.mem_cons_self s hs rfl, or_assoc]
    simp only [List.mem_cons, exists_eq_or_imp]

/-! ### Staleness (R69, R70) -/

theorem maxAge_iff (s : State) (n : NodeId) : (match maxAgeOf s n with
    | some m => decide (m < (s.uptime - s.nodes[n].stamp).toNat) | none => false) = true ↔
      (s.mode = .parked ∧ max 60 (min 7200 (s.mem.read16 0x042)) * 1000 < (s.uptime - s.nodes[n].stamp).toNat)
      ∨ ((s.mode = .run ∨ s.mode = .idle) ∧ ∃ p : PlanId, s.nodePlan[n] = some p
          ∧ s.plans[p].maxAge * 1000 < (s.uptime - s.nodes[n].stamp).toNat) := by
  have hClamp : parkedMaxAge s.mem = max 60 (min 7200 (s.mem.read16 0x042)) := by
    show (clampTo 60 7200 (s.mem.read16 0x042)).1 = _
    unfold clampTo
    split_ifs <;> omega
  have hPlan : (match (nodePlanCopy s n).map fun p => p.maxAge * 1000 with
      | some m => decide (m < (s.uptime - s.nodes[n].stamp).toNat) | none => false) = true ↔
        ∃ p : PlanId, s.nodePlan[n] = some p ∧ s.plans[p].maxAge * 1000 < (s.uptime - s.nodes[n].stamp).toNat := by
    unfold nodePlanCopy
    cases s.nodePlan[n] <;> simp
  unfold maxAgeOf
  cases hMode : s.mode with
  | safeStop => simp
  | parked => simp [hClamp]
  | idle => simpa using hPlan
  | run => simpa using hPlan

theorem overAge_iff (s : State) (n : NodeId) : overAge s n = true ↔ isOverAge s n := by
  unfold overAge isOverAge
  dsimp only
  rw [Bool.and_eq_true]
  exact and_congr (by simp only [Bool.or_eq_true, decide_eq_true_eq, or_assoc]) (maxAge_iff s n)

/-- The status a node takes when it goes STALE. -/
def NodeStatus.aged (x : NodeStatus) : NodeStatus := { x with state := .stale, candidate := none, count := 0 }

theorem goStale_eq (n : NodeId) (s : State) : s.goStale n = { s with
    nodes := (s.putNode n s.nodes[n].aged).nodes, mem := (s.putNode n s.nodes[n].aged).mem
    attn := s.attn.setFault (anyFault (s.putNode n s.nodes[n].aged).nodes)
    news := { s.news with nodeStale := s.news.nodeStale ||| bit8 n.val } } := by
  have hFrame := putNode_frame s n s.nodes[n].aged
  show ((s.putNode n s.nodes[n].aged).updateFault).newsNodeStale n.val = _
  generalize s.putNode n s.nodes[n].aged = t at hFrame ⊢
  rw [hFrame]
  rfl

theorem goStale_hold (n : NodeId) (s : State) : (s.goStale n).hold = s.hold := by
  rw [goStale_eq]

theorem goStale_view (n : NodeId) (s : State) {m : NodeId} : nodeView m (s.goStale n) = nodeView m (s.putNode n s.nodes[n].aged) := by
  rw [goStale_eq]
  rfl

theorem goStale_other {n m : NodeId} (h : n ≠ m) (s : State) : nodeView m (s.goStale n) = nodeView m s :=
  (goStale_view n s).trans (putNode_other s h _)

/-- Everything the ageing of nodes leaves. -/
def State.ageFixed (s : State) : State :=
  { s with
    nodes := Vector.replicate 8 NodeStatus.initial, mem := [], news := { s.news with nodeStale := 0 }
    attn := ⟨0, 0, 0, false, false⟩ }

theorem goStale_fixed (n : NodeId) (s : State) : (s.goStale n).ageFixed = s.ageFixed := by
  rw [goStale_eq]
  rfl

/-- The nodes a staleness check ages. -/
def agedNodes (s : State) : List NodeId := allNodes.filter fun n => overAge s n

theorem mem_agedNodes {s : State} {n : NodeId} : n ∈ agedNodes s ↔ isOverAge s n := by
  unfold agedNodes
  rw [List.mem_filter, overAge_iff]
  exact and_iff_right (mem_allNodes n)

theorem agedNodes_nodup (s : State) : (agedNodes s).Nodup := allNodes_nodup.filter _

theorem stalenessCheck_eq (s : State) : s.stalenessCheck =
    if (agedNodes s).isEmpty then forEach (agedNodes s) State.goStale s else (forEach (agedNodes s) State.goStale s).raise 5 := rfl

/-- What the pass over the aged nodes does to one node of them, and leaves of any other. -/
theorem agePass_node (s : State) (n : NodeId) :
    (n ∉ agedNodes s → nodeView n (forEach (agedNodes s) State.goStale s) = nodeView n s)
    ∧ (n ∈ agedNodes s → ∃ t : State, t.hold = s.hold ∧ nodeView n t = nodeView n s
        ∧ nodeView n (forEach (agedNodes s) State.goStale s) = nodeView n (t.putNode n t.nodes[n].aged)) := by
  obtain ⟨hAbsent, hPresent⟩ := forEach_own State.goStale (nodeView n) (fun t => t.hold = s.hold) n (agedNodes s) s
    (agedNodes_nodup s) rfl (fun m _ t ht => (goStale_hold m t).trans ht) fun m _ h t _ => goStale_other h t
  refine ⟨hAbsent, fun h => ?_⟩
  obtain ⟨t, hHold, hBefore, hAfter⟩ := hPresent h
  exact ⟨t, hHold, hBefore, hAfter.trans (goStale_view n t)⟩

theorem agePass_stale (s : State) (m : NodeId) : has8 (forEach (agedNodes s) State.goStale s).news.nodeStale m.val = true ↔
    has8 s.news.nodeStale m.val = true ∨ ∃ n ∈ agedNodes s, n = m := by
  refine forEach_brings State.goStale (fun _ _ => ()) (fun _ => True) (fun t => has8 t.news.nodeStale m.val = true)
    (fun n => n = m) (agedNodes s) s (agedNodes_nodup s) trivial (fun _ _ _ _ => trivial) (fun _ _ _ _ _ _ => rfl)
    fun n _ t _ _ => ?_
  show has8 (t.goStale n).news.nodeStale m.val = true ↔ _
  rw [goStale_eq]
  show has8 (t.news.nodeStale ||| bit8 n.val) m.val = true ↔ _
  rw [has8_addLevel, Bool.or_eq_true, decide_eq_true_eq, eq_comm (a := m)]

theorem agePass_level5 (s : State) :
    has8 (forEach (agedNodes s) State.goStale s).attn.pending 5 = has8 s.attn.pending 5 :=
  forEach_field (fun t : State => has8 t.attn.pending 5) _ _ (fun n t => by
    show has8 (t.goStale n).attn.pending 5 = _
    rw [goStale_eq]
    exact setFault_pending_other t.attn _ (m := 5) (by decide)) s

theorem agePass_fixed (s : State) : (forEach (agedNodes s) State.goStale s).ageFixed = s.ageFixed :=
  forEach_field State.ageFixed _ _ goStale_fixed s

theorem agePass_fault (s : State) (h : agedNodes s ≠ []) : (forEach (agedNodes s) State.goStale s).attn.faultFact =
    anyFault (forEach (agedNodes s) State.goStale s).nodes :=
  forEach_last (P := fun t => t.attn.faultFact = anyFault t.nodes) State.goStale (agedNodes s) s h fun n _ t => by
    show (t.goStale n).attn.faultFact = anyFault (t.goStale n).nodes
    rw [goStale_eq]
    exact setFault_faultFact _ _

theorem ageFixed_frame {s t : State} (h : t.ageFixed = s.ageFixed) : t = { s with
    nodes := t.nodes, mem := t.mem, news := { s.news with nodeStale := t.news.nodeStale }, attn := t.attn } := by
  have hBack := congrArg (fun u : State => { u with
    nodes := t.nodes, mem := t.mem, news := { u.news with nodeStale := t.news.nodeStale }, attn := t.attn }) h
  exact hBack

/-- Settles O53: the pass over the aged nodes, node by node, and level 5 where there is one. -/
theorem stalenessCheckAgesNodes : Obligations.StalenessCheckAgesNodes := by
  refine ⟨fun s hs => congrArg _ (if_pos hs), fun s hs => ⟨s.stalenessCheck, ?_, ?_⟩⟩
  · exact congrArg _ (if_neg (by rw [hs]; decide))
  have hExists : (∃ n : NodeId, isOverAge s n) ↔ agedNodes s ≠ [] := by
    simp only [← mem_agedNodes, ne_eq, List.eq_nil_iff_forall_not_mem, not_forall, not_not]
  have hNode := agePass_node s
  have hStale := agePass_stale s
  have hLevel := agePass_level5 s
  have hFault := agePass_fault s
  have hFixed := agePass_fixed s
  have hMem : ∀ a, ¬ inRecords a → s.stalenessCheck.mem.read a = s.mem.read a := (Recording.stalenessCheck s).memory
  have hEmpty : agedNodes s = [] → s.stalenessCheck = s := fun h => by
    rw [stalenessCheck_eq, h]
    rfl
  have hPass : ∃ attn : Attn, s.stalenessCheck = { forEach (agedNodes s) State.goStale s with attn := attn }
      ∧ attn.faultFact = (forEach (agedNodes s) State.goStale s).attn.faultFact
      ∧ (has8 attn.pending 5 = true ↔ has8 s.attn.pending 5 = true ∨ agedNodes s ≠ []) := by
    rw [stalenessCheck_eq, ← hLevel]
    by_cases h : agedNodes s = []
    · exact ⟨_, by rw [h]; rfl, rfl, by simp [h]⟩
    · refine ⟨(forEach (agedNodes s) State.goStale s).attn.raise 5, if_neg (by simpa using h), rfl, ?_⟩
      show has8 (_ ||| bit8 5) 5 = true ↔ _
      rw [has8_add _ _ _ (by decide) (by decide)]
      simp [h]
  obtain ⟨attn, hCheck, hFact, hFive⟩ := hPass
  have hSame (n : NodeId) : nodeView n s.stalenessCheck = nodeView n (forEach (agedNodes s) State.goStale s) := by
    rw [hCheck]
    rfl
  have hNews : s.stalenessCheck.news = (forEach (agedNodes s) State.goStale s).news := by rw [hCheck]
  have hNodes : s.stalenessCheck.nodes = (forEach (agedNodes s) State.goStale s).nodes := by rw [hCheck]
  have hAttn : s.stalenessCheck.attn = attn := by rw [hCheck]
  have hFrame : s.stalenessCheck.ageFixed = s.ageFixed := by
    rw [hCheck]
    exact hFixed
  refine ⟨fun n h => ?_, fun n h => ?_, fun n => ?_, ?_, fun h => ?_, fun h => ?_, hMem, ageFixed_frame hFrame⟩
  · obtain ⟨t, hHold, hBefore, hAfter⟩ := (hNode n).2 (mem_agedNodes.mpr h)
    rw [nodes_of_nodeView ((hSame n).trans hAfter), ← nodes_of_nodeView hBefore]
    exact ⟨putNode_node t n _, imaged_congr hHold.symm hBefore.symm ((hSame n).trans hAfter) (imaged_putNode t n rfl)⟩
  · have hView := (hSame n).trans ((hNode n).1 fun hIn => h (mem_agedNodes.mp hIn))
    exact ⟨nodes_of_nodeView hView, fun k hk => record_of_nodeView hView hk⟩
  · rw [hNews, hStale]
    simp only [exists_eq_right, mem_agedNodes]
  · rw [hAttn, hFive, hExists]
  · rw [hAttn, hFact, hFault (hExists.mp h), anyFault_iff, hNodes]
  · exact hEmpty (by_contra fun hne => (not_exists.mpr h) (hExists.mpr hne))

end Sys2Proof.Machine
end

section
/-! PROOFS. What acts of measuring leave, in any state; a result on the nodes of its stamp; a SPOT's completion. -/

namespace Sys2Proof.Machine

/-! ### What acts leave -/

/-- What acts leave of one channel: its figures and standings; a NONE context may become IDLE. -/
structure ChanLeft (q q' : Seq) (x x' : ChanSafety) : Prop where
  record : q'.record = q.record
  viewLatched : q'.viewLatched = q.viewLatched
  latestUb : q'.latestUb = q.latestUb
  ctx : q'.ctx = q.ctx ∨ (q.ctx = .none ∧ q'.ctx = .idle)
  health : x'.health = x.health
  disconnected : x'.disconnected = x.disconnected
  discMask : x'.discMask = x.discMask
  discMode : x'.discMode = x.discMode
  verify : q.coupling = .attached ∨ x.verify = some Config.verifyTime →
    q'.coupling = .attached ∨ x'.verify = some Config.verifyTime

theorem ChanLeft.refl (q : Seq) (x : ChanSafety) : ChanLeft q q x x := ⟨rfl, rfl, rfl, .inl rfl, rfl, rfl, rfl, rfl, id⟩

theorem ChanLeft.trans {q q' q'' : Seq} {x x' x'' : ChanSafety} (h : ChanLeft q q' x x') (k : ChanLeft q' q'' x' x'') :
    ChanLeft q q'' x x'' where
  record := k.record.trans h.record
  viewLatched := k.viewLatched.trans h.viewLatched
  latestUb := k.latestUb.trans h.latestUb
  ctx := by
    obtain hk | ⟨hk, hk'⟩ := k.ctx
    · rw [hk]
      exact h.ctx
    · obtain hh | ⟨hh, -⟩ := h.ctx
      · exact .inr ⟨hh ▸ hk, hk'⟩
      · exact .inr ⟨hh, hk'⟩
  health := k.health.trans h.health
  disconnected := k.disconnected.trans h.disconnected
  discMask := k.discMask.trans h.discMask
  discMode := k.discMode.trans h.discMode
  verify := k.verify ∘ h.verify

/-- A byte of a slot that acts may write: its state and what the part owns of it. -/
def slotByteOf (n : SlotId) (a : Nat) : Prop := a = slotAddr n ∨ (slotAddr n + 0x10 ≤ a ∧ a < slotAddr n + 64)

/-- What acts on the slots `S` leave. -/
structure Left (S : SlotId → Prop) (s t : State) : Prop where
  fixed : t.fixed = s.fixed
  level : ∀ k : Level, k ≠ 4 → k ≠ 7 → has8 t.attn.pending k.val = has8 s.attn.pending k.val
  pending : ∀ k, has8 s.attn.pending k = true → has8 t.attn.pending k = true
  memory : ∀ a, (∀ n, S n → ¬ slotByteOf n a) → t.mem.read a = s.mem.read a
  slots : ∀ n, ¬ S n → t.slots[n] = s.slots[n]
  done : ∀ n : SlotId, ¬ S n → has8 t.news.done n.val = has8 s.news.done n.val
  news : ∀ k, has8 s.news.done k = true → has8 t.news.done k = true
  orders : ∀ o ∈ t.intake, ∃ o' ∈ s.intake, o'.slot = o.slot ∧ o'.job = o.job
  chan : ∀ c : Chan, ChanLeft s.seqs[c] t.seqs[c] s.safety[c] t.safety[c]

theorem Left.refl {S : SlotId → Prop} (s : State) : Left S s s :=
  ⟨rfl, fun _ _ _ => rfl, fun _ => id, fun _ _ => rfl, fun _ _ => rfl, fun _ _ => rfl, fun _ => id,
    fun o ho => ⟨o, ho, rfl, rfl⟩, fun _ => ChanLeft.refl _ _⟩

theorem Left.trans {S : SlotId → Prop} {s t u : State} (h : Left S s t) (k : Left S t u) : Left S s u where
  fixed := k.fixed.trans h.fixed
  level := fun n h4 h7 => (k.level n h4 h7).trans (h.level n h4 h7)
  pending := fun n a => k.pending n (h.pending n a)
  memory := fun a ha => (k.memory a ha).trans (h.memory a ha)
  slots := fun n hn => (k.slots n hn).trans (h.slots n hn)
  done := fun n hn => (k.done n hn).trans (h.done n hn)
  news := fun n a => k.news n (h.news n a)
  orders := fun o ho => by
    obtain ⟨o', ho', hSlot, hJob⟩ := k.orders o ho
    obtain ⟨o'', ho'', hSlot', hJob'⟩ := h.orders o' ho'
    exact ⟨o'', ho'', hSlot'.trans hSlot, hJob'.trans hJob⟩
  chan := fun c => (h.chan c).trans (k.chan c)

/-- An act on one channel. -/
theorem Left.of_chan {S : SlotId → Prop} {s : State} (c : Chan) (q : Seq) (x : ChanSafety)
    (h : ChanLeft s.seqs[c] q s.safety[c] x) : Left S s ((s.setSeq c q).setSafety c x) where
  fixed := rfl
  level := fun _ _ _ => rfl
  pending := fun _ => id
  memory := fun _ _ => rfl
  slots := fun _ _ => rfl
  done := fun _ _ => rfl
  news := fun _ => id
  orders := fun o ho => ⟨o, ho, rfl, rfl⟩
  chan := fun d => by
    by_cases hd : c = d
    · subst hd
      simpa using h
    · simpa [hd] using ChanLeft.refl _ _

theorem Left.of_seq {S : SlotId → Prop} {s : State} (c : Chan) (q : Seq) (h : ChanLeft s.seqs[c] q s.safety[c] s.safety[c]) :
    Left S s (s.setSeq c q) := by
  have hChan := Left.of_chan (S := S) c q s.safety[c] h
  rwa [show (s.setSeq c q).setSafety c s.safety[c] = s.setSeq c q by simp [State.setSafety, State.setSeq]] at hChan

/-- An act on the groups, the order list and the scheduler's fields alone. -/
theorem Left.of_table {S : SlotId → Prop} {s t : State} (fixed : t.fixed = s.fixed) (hm : t.mem = s.mem) (hn : t.news = s.news)
    (ha : t.attn = s.attn) (hs : t.slots = s.slots) (hq : t.seqs = s.seqs) (hx : t.safety = s.safety)
    (ho : ∀ o ∈ t.intake, ∃ o' ∈ s.intake, o'.slot = o.slot ∧ o'.job = o.job) : Left S s t where
  fixed := fixed
  level := fun _ _ _ => by rw [ha]
  pending := fun _ => by rw [ha]; exact id
  memory := fun _ _ => by rw [hm]
  slots := fun _ _ => by rw [hs]
  done := fun _ _ => by rw [hn]
  news := fun _ => by rw [hn]; exact id
  orders := ho
  chan := fun c => by
    rw [hq, hx]
    exact ChanLeft.refl _ _

theorem endRun_left (q : Seq) (x : ChanSafety) : ChanLeft q q.endRun x x :=
  ⟨rfl, rfl, rfl, .inl rfl, rfl, rfl, rfl, rfl, id⟩

theorem setUp_left (q : Seq) (kind : RunKind) (owner : Option SlotId) (copy : RunCopy) (x : ChanSafety) :
    ChanLeft q (q.setUp kind owner copy) x x := by
  refine ⟨rfl, rfl, rfl, ?_, rfl, rfl, rfl, rfl, id⟩
  show (if kind ≠ .selfcheck ∧ q.ctx = .none then CtxKind.idle else q.ctx) = q.ctx ∨ _ ∧
    (if kind ≠ .selfcheck ∧ q.ctx = .none then CtxKind.idle else q.ctx) = .idle
  split_ifs with h
  · exact .inr ⟨h.2, rfl⟩
  · exact .inl rfl

theorem Left.poke {S : SlotId → Prop} (s : State) (n : SlotId) (k : Nat) (b : Byte) (hn : S n) (hk : k = 0 ∨ (0x10 ≤ k ∧ k < 64)) :
    Left S s (s.poke (slotAddr n + k) b) where
  fixed := rfl
  level := fun _ _ _ => rfl
  pending := fun _ => id
  memory := fun a ha => Memory.read_write_other _ _ _ _ (by
    rintro rfl
    exact ha n hn (by unfold slotByteOf; omega))
  slots := fun _ _ => rfl
  done := fun _ _ => rfl
  news := fun _ => id
  orders := fun o ho => ⟨o, ho, rfl, rfl⟩
  chan := fun _ => ChanLeft.refl _ _

theorem Left.completeSlot {S : SlotId → Prop} (s : State) (n : SlotId) (final : SlotState) (reason : Byte) (kind : List Byte)
    (hn : S n) : Left S s (s.completeSlot n final reason kind) := by
  rw [completeSlot_eq]
  refine ⟨rfl, fun k h4 h7 => ?_, fun k h => ?_, fun a ha => ?_, fun m hm => ?_, fun m hm => ?_, fun k h => ?_, fun o ho => ?_,
    fun _ => ChanLeft.refl _ _⟩
  · show has8 (s.attn.pending ||| bit8 4) k.val = _
    rw [has8_add _ _ _ (by decide) k.isLt, decide_eq_false (fun h => h4 (Fin.ext h.symm)), Bool.or_false]
  · exact has8_or_left _ _ k h
  · have hNot := ha n hn
    unfold slotByteOf at hNot
    show (completedMemory s.mem n final reason kind).read a = _
    by_cases h : a < slotAddr n ∨ slotAddr n + 64 ≤ a
    · exact completedMemory_outside _ _ _ _ _ h
    · obtain ⟨k, rfl⟩ : ∃ k, a = slotAddr n + k := ⟨a - slotAddr n, by omega⟩
      exact completedMemory_kept _ _ _ _ _ (by omega)
  · exact upd_other _ _ _ _ fun h => hm (h ▸ hn)
  · show has8 (s.news.done ||| bit8 n.val) m.val = _
    rw [has8_addLevel, decide_eq_false (fun h => hm (by rwa [h])), Bool.or_false]
  · exact has8_or_left _ _ k h
  · exact ⟨o, List.mem_of_mem_filter ho, rfl, rfl⟩

theorem Act.left {S : SlotId → Prop} {s t : State} (h : Act S s t) : Left S s t := by
  cases h with
  | endRun c => exact Left.of_seq c _ (endRun_left _ _)
  | dropRun c => exact Left.of_chan c _ _ ⟨rfl, rfl, rfl, .inl rfl, rfl, rfl, rfl, rfl, id⟩
  | detach c => exact Left.of_chan c _ _ ⟨rfl, rfl, rfl, .inl rfl, rfl, rfl, rfl, rfl, fun _ => .inr rfl⟩
  | setUp c => exact Left.of_seq c _ (setUp_left _ _ _ _ _)
  | begin c => exact Left.of_seq c _ ⟨rfl, rfl, rfl, .inl rfl, rfl, rfl, rfl, rfl, fun _ => .inl rfl⟩
  | reference c => exact Left.of_chan c _ _ ⟨rfl, rfl, rfl, .inl rfl, rfl, rfl, rfl, rfl, id⟩
  | requestStop c => exact Left.of_seq c _ ⟨rfl, rfl, rfl, .inl rfl, rfl, rfl, rfl, rfl, id⟩
  | group l f =>
    unfold State.modGroup
    split
    · exact Left.of_table rfl rfl rfl rfl rfl rfl rfl fun o ho => ⟨o, ho, rfl, rfl⟩
    · exact Left.refl s
  | table => exact Left.of_table rfl rfl rfl rfl rfl rfl rfl fun o ho => ⟨o, ho, rfl, rfl⟩
  | schedule => exact Left.of_table rfl rfl rfl rfl rfl rfl rfl fun o ho => ⟨o, ho, rfl, rfl⟩
  | notice =>
    refine ⟨rfl, fun k _ h7 => ?_, fun k h => has8_or_left _ _ k h, fun _ _ => rfl, fun _ _ => rfl, fun _ _ => rfl, fun _ => id,
      fun o ho => ⟨o, ho, rfl, rfl⟩, fun _ => ChanLeft.refl _ _⟩
    show has8 (s.attn.pending ||| bit8 7) k.val = _
    rw [has8_add _ _ _ (by decide) k.isLt, decide_eq_false (fun h => h7 (Fin.ext h.symm)), Bool.or_false]
  | slotByte n k b hn h1 h2 => exact Left.poke s n k b hn (by omega)
  | order n f hSlot hJob =>
    refine Left.of_table rfl rfl rfl rfl rfl rfl rfl fun o ho => ?_
    obtain ⟨o', ho', rfl⟩ := List.mem_map.mp ho
    refine ⟨o', ho', ?_, ?_⟩
    all_goals split_ifs <;> simp [hSlot, hJob]
  | refuse n why hn => exact Left.completeSlot s n _ _ _ hn

theorem Acts.left {S : SlotId → Prop} {s t : State} (h : Acts S s t) : Left S s t := by
  induction h with
  | refl => exact Left.refl s
  | tail _ hAct ih => exact ih.trans hAct.left

end Sys2Proof.Machine
end

section
/-! PROOFS. A result on its channel's context, on the nodes of its stamp, and on the SPOT it completes. -/

namespace Sys2Proof.Machine

/-! ### A result on one node (R61 to R68) -/

/-- The status a result leaves of a node, apart from the image. -/
def statusAfter (s : State) (r : Result) (n : NodeId) : NodeStatus := applyTo (nodePlanCopy s n) s.uptime r s.nodes[n]

theorem tookResult_applyTo (s : State) {r : Result} {stamp : Stamp} (h : r.stamp = some stamp) (n : NodeId) :
    tookResult s r stamp n (statusAfter s r n) := by
  unfold tookResult statusAfter applyTo nodePlanCopy evaluateNode
  dsimp only
  rw [h]
  cases hValid : r.valid <;> cases hRf : r.rf <;> cases hPlan : s.nodePlan[n] <;> cases hId : r.planId <;>
    by_cases hState : s.nodes[n].state = .unknown <;> simp_all [optByte]

theorem tookResult_image {s : State} {r : Result} {stamp : Stamp} {n : NodeId} {x : NodeStatus} (h : tookResult s r stamp n x)
    (count : BitVec 16) (deferred : Bool) :
    tookResult s r stamp n { x with updateCount := count, deferred := deferred } := h

theorem evaluateNode_count (plan : Option PlanCopy) (x : NodeStatus) (rf : Nat) :
    (evaluateNode plan x rf).updateCount = x.updateCount := by
  unfold evaluateNode
  cases plan with
  | none =>
    dsimp only
    split_ifs <;> rfl
  | some p => rfl

theorem statusAfter_count (s : State) (r : Result) (n : NodeId) : (statusAfter s r n).updateCount = s.nodes[n].updateCount := by
  unfold statusAfter applyTo
  dsimp only
  split
  · exact evaluateNode_count _ _ _
  · rfl

/-- Everything a result leaves as it reaches nodes. -/
def State.resultFixed (s : State) : State :=
  { s with
    nodes := Vector.replicate 8 NodeStatus.initial, mem := [], news := { s.news with nodeState := 0 }
    attn := { s.attn with pending := 0, faultFact := false } }

theorem statusAfter_congr {s t : State} (h : t.resultFixed = s.resultFixed) {n : NodeId} (hNode : t.nodes[n] = s.nodes[n])
    (r : Result) : statusAfter t r n = statusAfter s r n := by
  have hUptime : t.uptime = s.uptime := (congrArg State.uptime h :)
  have hPlan : t.nodePlan = s.nodePlan := (congrArg State.nodePlan h :)
  have hPlans : t.plans = s.plans := (congrArg State.plans h :)
  unfold statusAfter nodePlanCopy
  rw [hUptime, hPlan, hPlans, hNode]

/-- The node's state changes with the result. -/
def stateMoves (s : State) (r : Result) (n : NodeId) : Prop := s.nodes[n].state ≠ (statusAfter s r n).state

/-- The attention controller after a result reached a node. -/
def attnAfter (s : State) (r : Result) (n : NodeId) : Attn :=
  let a := s.attn.setFault (anyFault (s.putNode n (statusAfter s r n)).nodes)
  if s.nodes[n].state = (statusAfter s r n).state then a else a.raise 2

theorem applyNode_eq (s : State) (r : Result) (n : NodeId) : s.applyNode r n = { s with
    nodes := (s.putNode n (statusAfter s r n)).nodes, mem := (s.putNode n (statusAfter s r n)).mem
    news := { s.news with nodeState :=
      if s.nodes[n].state = (statusAfter s r n).state then s.news.nodeState else s.news.nodeState ||| bit8 n.val }
    attn := attnAfter s r n } := by
  have hFrame := putNode_frame s n (statusAfter s r n)
  unfold attnAfter
  show (if s.nodes[n].state = (statusAfter s r n).state then (s.putNode n (statusAfter s r n)).updateFault
    else ((s.putNode n (statusAfter s r n)).updateFault.newsNodeState n.val).raise 2) = _
  generalize s.putNode n (statusAfter s r n) = t at hFrame ⊢
  split_ifs <;> rw [hFrame] <;> rfl

theorem applyNode_fixed (r : Result) (n : NodeId) (s : State) : (s.applyNode r n).resultFixed = s.resultFixed := by
  have hFault := setFault_frame_pending s.attn (anyFault (s.putNode n (statusAfter s r n)).nodes)
  rw [applyNode_eq]
  unfold attnAfter State.resultFixed
  generalize s.attn.setFault _ = a at hFault ⊢
  dsimp only
  split_ifs <;> rw [hFault] <;> rfl

theorem applyNode_view (s : State) (r : Result) (n m : NodeId) :
    nodeView m (s.applyNode r n) = nodeView m (s.putNode n (statusAfter s r n)) := by
  rw [applyNode_eq]
  rfl

theorem applyNode_other (s : State) (r : Result) {n m : NodeId} (h : n ≠ m) : nodeView m (s.applyNode r n) = nodeView m s :=
  (applyNode_view s r n m).trans (putNode_other s h _)

theorem applyNode_tail (r : Result) (n : NodeId) (s : State) (m : NodeId) {k : Nat} (hk : 28 ≤ k ∧ k < 32) :
    (s.applyNode r n).mem.read (recordAddr m + k) = s.mem.read (recordAddr m + k) := by
  rw [applyNode_eq]
  exact putNode_tail s n m _ hk

theorem attnAfter_pending (s : State) (r : Result) (n : NodeId) {k : Level} (h1 : k ≠ 1) (h2 : k ≠ 2) :
    has8 (attnAfter s r n).pending k.val = has8 s.attn.pending k.val := by
  have hFault := setFault_pending_other s.attn (anyFault (s.putNode n (statusAfter s r n)).nodes) h1
  unfold attnAfter
  dsimp only
  split_ifs
  · exact hFault
  · refine (has8_add _ 2 k.val (by decide) k.isLt).trans ?_
    rw [hFault, decide_eq_false (fun h => h2 (Fin.ext h.symm)), Bool.or_false]

theorem attnAfter_level2 (s : State) (r : Result) (n : NodeId) :
    has8 (attnAfter s r n).pending 2 = true ↔ has8 s.attn.pending 2 = true ∨ stateMoves s r n := by
  have hFault := setFault_pending_other s.attn (anyFault (s.putNode n (statusAfter s r n)).nodes) (m := 2) (by decide)
  unfold attnAfter stateMoves
  dsimp only
  split_ifs with h
  · rw [show has8 _ 2 = has8 s.attn.pending 2 from hFault]
    exact (or_iff_left (not_not_intro h)).symm
  · refine iff_of_true ?_ (.inr h)
    exact (has8_add _ 2 2 (by decide) (by decide)).trans (by rw [decide_eq_true rfl, Bool.or_true])

theorem attnAfter_fault (s : State) (r : Result) (n : NodeId) :
    (attnAfter s r n).faultFact = anyFault (s.putNode n (statusAfter s r n)).nodes := by
  unfold attnAfter
  dsimp only
  split_ifs
  · exact setFault_faultFact _ _
  · exact setFault_faultFact _ _

theorem setFault_same (a : Attn) : a.setFault a.faultFact = a := if_pos rfl

theorem setFault_level1 (a : Attn) (fact : Bool) : (a.setFault fact).inService = a.inService
    ∧ (has8 a.inService 1 = true → has8 (a.setFault fact).pending 1 = has8 a.pending 1)
    ∧ (has8 a.inService 1 = false → fact ≠ a.faultFact → has8 (a.setFault fact).pending 1 = fact) := by
  obtain ⟨-, hService, -, hPending⟩ := follow_spec { a with faultFact := fact } 1 fact
  have hOne := hPending 1
  unfold Attn.setFault
  split_ifs with h
  · exact ⟨rfl, fun _ => rfl, fun _ hNe => absurd h.symm hNe⟩
  · refine ⟨hService, fun hIn => hOne.trans (if_neg fun hOut => ?_), fun hOut _ => hOne.trans (if_pos ⟨rfl, hOut⟩)⟩
    exact absurd (hIn.symm.trans hOut.2) (by decide)

theorem attnAfter_service (s : State) (r : Result) (n : NodeId) : (attnAfter s r n).inService = s.attn.inService := by
  unfold attnAfter
  dsimp only
  split_ifs
  · exact (setFault_level1 _ _).1
  · exact (setFault_level1 _ _).1

theorem attnAfter_level1 (s : State) (r : Result) (n : NodeId) :
    has8 (attnAfter s r n).pending 1 =
      has8 (s.attn.setFault (anyFault (s.putNode n (statusAfter s r n)).nodes)).pending 1 := by
  unfold attnAfter
  dsimp only
  split_ifs
  · rfl
  · exact (has8_add _ 2 1 (by decide) (by decide)).trans (by simp)

/-- Level 1 shows its fact, or both stand as they stood in `s`. -/
def followsFault (s t : State) : Prop :=
  t.attn.inService = s.attn.inService
    ∧ (has8 s.attn.inService 1 = true → has8 t.attn.pending 1 = has8 s.attn.pending 1)
    ∧ (has8 s.attn.inService 1 = false → has8 t.attn.pending 1 = t.attn.faultFact
        ∨ (t.attn.faultFact = s.attn.faultFact ∧ has8 t.attn.pending 1 = has8 s.attn.pending 1))

theorem applyNode_followsFault {s t : State} (h : followsFault s t) (r : Result) (n : NodeId) : followsFault s (t.applyNode r n) := by
  obtain ⟨hService, hIn, hOut⟩ := h
  have hLevel := attnAfter_level1 t r n
  have hFact := attnAfter_fault t r n
  have hKeeps := attnAfter_service t r n
  generalize anyFault (t.putNode n (statusAfter t r n)).nodes = fact at hLevel hFact
  obtain ⟨-, hKept, hMoved⟩ := setFault_level1 t.attn fact
  rw [show (t.applyNode r n) = _ from applyNode_eq t r n]
  refine ⟨hKeeps.trans hService, fun h => ?_, fun h => ?_⟩
  · exact hLevel.trans ((hKept (hService ▸ h)).trans (hIn h))
  · show has8 (attnAfter t r n).pending 1 = (attnAfter t r n).faultFact ∨ ((attnAfter t r n).faultFact = _
      ∧ has8 (attnAfter t r n).pending 1 = _)
    rw [hLevel, hFact]
    by_cases hSame : fact = t.attn.faultFact
    · rw [hSame, setFault_same]
      exact hOut h
    · exact .inl (hMoved (hService ▸ h) hSame)

/-! ### The pass over the nodes of a stamp (R60) -/

/-- The nodes a result reaches. -/
def reached (r : Result) : List NodeId :=
  allNodes.filter fun n => has8 (match r.stamp with | some t => t.members | none => 0) n.val

theorem applyResult_eq (s : State) (r : Result) : s.applyResult r = forEach (reached r) (State.applyNode r) s := rfl

theorem mem_reached {r : Result} {stamp : Stamp} (h : r.stamp = some stamp) {n : NodeId} :
    n ∈ reached r ↔ has8 stamp.members n.val = true := by
  unfold reached
  rw [h, List.mem_filter]
  exact and_iff_right (mem_allNodes n)

theorem reached_nodup (r : Result) : (reached r).Nodup := allNodes_nodup.filter _

theorem applyResult_fixed (s : State) (r : Result) : (s.applyResult r).resultFixed = s.resultFixed :=
  forEach_field State.resultFixed _ _ (applyNode_fixed r) s

theorem resultFixed_frame {s t : State} (h : t.resultFixed = s.resultFixed) : t = { s with
    nodes := t.nodes, mem := t.mem, news := { s.news with nodeState := t.news.nodeState }
    attn := { s.attn with pending := t.attn.pending, faultFact := t.attn.faultFact } } := by
  have hBack := congrArg (fun u : State => { u with
    nodes := t.nodes, mem := t.mem, news := { u.news with nodeState := t.news.nodeState }
    attn := { u.attn with pending := t.attn.pending, faultFact := t.attn.faultFact } }) h
  exact hBack

theorem applyResult_node (s : State) (r : Result) (n : NodeId) :
    (n ∉ reached r → nodeView n (s.applyResult r) = nodeView n s)
    ∧ (n ∈ reached r → ∃ t : State, t.resultFixed = s.resultFixed ∧ nodeView n t = nodeView n s
        ∧ nodeView n (s.applyResult r) = nodeView n (t.putNode n (statusAfter s r n))) := by
  rw [applyResult_eq]
  obtain ⟨hAbsent, hPresent⟩ := forEach_own (State.applyNode r) (nodeView n) (fun t => t.resultFixed = s.resultFixed) n
    (reached r) s (reached_nodup r) rfl (fun m _ t ht => (applyNode_fixed r m t).trans ht) fun m _ h t _ => applyNode_other t r h
  refine ⟨hAbsent, fun h => ?_⟩
  obtain ⟨t, hFixed, hBefore, hAfter⟩ := hPresent h
  refine ⟨t, hFixed, hBefore, ?_⟩
  rw [hAfter, applyNode_view, statusAfter_congr hFixed (nodes_of_nodeView hBefore)]

theorem stateMoves_congr {s t : State} (h : t.resultFixed = s.resultFixed) {n : NodeId} (hView : nodeView n t = nodeView n s)
    (r : Result) : stateMoves t r n ↔ stateMoves s r n := by
  have hNode := nodes_of_nodeView hView
  unfold stateMoves
  rw [statusAfter_congr h hNode, hNode]

theorem applyResult_news (s : State) (r : Result) (m : NodeId) : has8 (s.applyResult r).news.nodeState m.val = true ↔
    has8 s.news.nodeState m.val = true ∨ ∃ n ∈ reached r, n = m ∧ stateMoves s r n := by
  refine forEach_brings (State.applyNode r) nodeView (fun t => t.resultFixed = s.resultFixed)
    (fun t => has8 t.news.nodeState m.val = true) (fun n => n = m ∧ stateMoves s r n) (reached r) s (reached_nodup r) rfl
    (fun n _ t ht => (applyNode_fixed r n t).trans ht) (fun n _ a h t _ => applyNode_other t r h) fun n _ t ht hView => ?_
  show has8 (t.applyNode r n).news.nodeState m.val = true ↔ _
  rw [← stateMoves_congr ht hView, applyNode_eq]
  unfold stateMoves
  dsimp only
  split_ifs with h
  · exact (or_iff_left fun hMoves => hMoves.2 h).symm
  · rw [has8_addLevel, Bool.or_eq_true, decide_eq_true_eq, eq_comm (a := m)]
    exact or_congr_right (and_iff_left h).symm

theorem applyResult_level2 (s : State) (r : Result) : has8 (s.applyResult r).attn.pending 2 = true ↔
    has8 s.attn.pending 2 = true ∨ ∃ n ∈ reached r, stateMoves s r n := by
  refine forEach_brings (State.applyNode r) nodeView (fun t => t.resultFixed = s.resultFixed)
    (fun t => has8 t.attn.pending 2 = true) (fun n => stateMoves s r n) (reached r) s (reached_nodup r) rfl
    (fun n _ t ht => (applyNode_fixed r n t).trans ht) (fun n _ a h t _ => applyNode_other t r h) fun n _ t ht hView => ?_
  show has8 (t.applyNode r n).attn.pending 2 = true ↔ _
  rw [← stateMoves_congr ht hView, applyNode_eq]
  exact attnAfter_level2 t r n

theorem applyResult_level (s : State) (r : Result) {k : Level} (h1 : k ≠ 1) (h2 : k ≠ 2) :
    has8 (s.applyResult r).attn.pending k.val = has8 s.attn.pending k.val :=
  forEach_field (fun t : State => has8 t.attn.pending k.val) _ _ (fun n t => by
    show has8 (t.applyNode r n).attn.pending k.val = _
    rw [applyNode_eq]
    exact attnAfter_pending t r n h1 h2) s

theorem applyResult_followsFault (s : State) (r : Result) : followsFault s (s.applyResult r) :=
  forEach_keeps (P := followsFault s) _ _ s ⟨rfl, fun _ => rfl, fun _ => .inr ⟨rfl, rfl⟩⟩ fun n _ _ h => applyNode_followsFault h r n

theorem applyResult_tail (s : State) (r : Result) (m : NodeId) {k : Nat} (hk : 28 ≤ k ∧ k < 32) :
    (s.applyResult r).mem.read (recordAddr m + k) = s.mem.read (recordAddr m + k) :=
  forEach_field (fun t : State => t.mem.read (recordAddr m + k)) _ _ (fun n t => applyNode_tail r n t m hk) s

theorem applyResult_fault (s : State) (r : Result) (h : reached r ≠ []) :
    (s.applyResult r).attn.faultFact = anyFault (s.applyResult r).nodes :=
  forEach_last (P := fun t => t.attn.faultFact = anyFault t.nodes) (State.applyNode r) (reached r) s h fun n _ t => by
    show (t.applyNode r n).attn.faultFact = anyFault (t.applyNode r n).nodes
    rw [applyNode_eq]
    exact attnAfter_fault t r n

/-! ### Class and highest condition (R80, R81) -/

theorem asks_iff (v : CondSet) (acts : Vector Action 7) (a : Action) :
    ([(0 : Fin 7), 1, 2, 3, 4, 5, 6].any fun i => has8 v i.val && decide (acts[i] = a)) = true ↔
      ∃ i : Fin 7, has8 v i.val = true ∧ acts[i] = a := by
  rw [List.any_eq_true]
  have hAll (i : Fin 7) : i ∈ [(0 : Fin 7), 1, 2, 3, 4, 5, 6] := by revert i; decide
  exact ⟨fun ⟨i, _, h⟩ => ⟨i, by simpa using h⟩, fun ⟨i, h⟩ => ⟨i, hAll i, by simpa using h⟩⟩

theorem classIs_actionClass (v : CondSet) (acts : Vector Action 7) : classIs v acts (actionClass v acts) := by
  unfold actionClass
  simp only [asks_iff]
  split_ifs with hHold hReport
  · exact hHold
  · exact ⟨fun i hi h => hHold ⟨i, hi, h⟩, hReport⟩
  · intro i hi
    cases h : acts[i] with
    | ignore => rfl
    | report => exact absurd ⟨i, hi, h⟩ hReport
    | hold => exact absurd ⟨i, hi, h⟩ hHold

theorem highestOf_first (v : CondSet) (b : Fin 8) (h : ∀ a : Fin 7, a.val < b.val → has8 v a.val = false) :
    (b.val < 7 → has8 v b.val = true → highestOf v = b.val + 1) ∧ (b.val = 7 → highestOf v = 0) := by
  have hBelow (k : Nat) (hk : k < 7) (hb : k < b.val) : has8 v k = false := h ⟨k, hk⟩ hb
  unfold highestOf allConds CondSet.has
  obtain ⟨b, hLt⟩ := b
  dsimp only at hBelow ⊢
  interval_cases b <;> simp +contextual [List.find?, Cond.bit, hBelow]

/-! ### The steps of a result (R82) -/

theorem recordFrom_iff {r : Result} {x : CtxRecord} : recordFrom r x ↔ x = recordOf r := by
  constructor
  · obtain ⟨conds, highest, p1, p2, p3, dA, off2, ub, planId⟩ := x
    rintro ⟨rfl, rfl, rfl, rfl, rfl, rfl, rfl, rfl, rfl⟩
    rfl
  · rintro rfl
    exact ⟨rfl, rfl, rfl, rfl, rfl, rfl, rfl, rfl, rfl⟩

/-- The state in which steps 3 to 6 begin, as the model takes it. -/
theorem resultTaken_iff {s u : State} {r : Result} {rest : List Result} : resultTaken s r rest u ↔
    (s.taken = some r ∧ s.results = rest ∧ u = { s with taken := none })
      ∨ (s.taken = none ∧ s.results = r :: rest ∧ u = { s with results := rest, cuts := s.cuts.tail }.updateContext r) := by
  unfold resultTaken State.updateContext
  simp only [recordFrom_iff]
  by_cases h : s.seqs[r.chan].ctx = .held
  · simp only [h, forall_const, ne_eq, not_true_eq_false, IsEmpty.forall_iff, and_true, if_pos]
  · simp only [h, ne_eq, not_false_eq_true, forall_const, IsEmpty.forall_iff, true_and, exists_eq_left, if_false]
    rfl

theorem takeResult_whole {s : State} (h : s.cuts.head? ≠ some true) (r : Result) (rest : List Result) :
    s.takeResult r rest = ({ s with results := rest, cuts := s.cuts.tail }.updateContext r).finishResult r := if_neg h

theorem takeResult_cut {s : State} (h : s.cuts.head? = some true) (r : Result) (rest : List Result) :
    s.takeResult r rest = { { s with results := rest, cuts := s.cuts.tail }.updateContext r with taken := some r } := if_pos h

theorem conditionResult_taken {s : State} {r : Result} (h : s.taken = some r) :
    exec .conditionResult s = .next ({ s with taken := none }.finishResult r) := by
  show execConditionResult s = _
  unfold execConditionResult
  rw [h]

theorem conditionResult_next {s : State} {r : Result} {rest : List Result} (h : s.taken = none) (hResults : s.results = r :: rest) :
    exec .conditionResult s = .next (s.takeResult r rest) := by
  show execConditionResult s = _
  unfold execConditionResult
  rw [h, hResults]

theorem exec_conditionResult {s u : State} {r : Result} {rest : List Result} (h : resultTaken s r rest u)
    (hCut : s.taken = none → s.cuts.head? ≠ some true) : exec .conditionResult s = .next (u.finishResult r) := by
  obtain ⟨hTaken, -, rfl⟩ | ⟨hTaken, hResults, rfl⟩ := resultTaken_iff.mp h
  · exact conditionResult_taken hTaken
  · exact (conditionResult_next hTaken hResults).trans (congrArg _ (takeResult_whole (hCut hTaken) r rest))

/-- What of the state before it the state in which steps 3 to 6 begin still holds. -/
theorem resultTaken_kept {s u : State} {r : Result} {rest : List Result} (h : resultTaken s r rest u) :
    u = { s with results := rest, taken := none, cuts := u.cuts, seqs := u.seqs }
      ∧ (s.taken = none → s.seqs[r.chan].ctx ≠ .held → u.seqs[r.chan].record = recordOf r)
      ∧ (s.seqs[r.chan].ctx = .held → u.seqs[r.chan].record = s.seqs[r.chan].record)
      ∧ (u.seqs[r.chan].ctx = .held ↔ s.seqs[r.chan].ctx = .held)
      ∧ ∀ c : Chan, u.seqs[c] = { s.seqs[c] with ctx := u.seqs[c].ctx, record := u.seqs[c].record } := by
  obtain ⟨hTaken, rfl, rfl⟩ | ⟨hTaken, -, rfl⟩ := resultTaken_iff.mp h
  · exact ⟨rfl, fun hNone => absurd (hTaken.symm.trans hNone) (by simp), fun _ => rfl, Iff.rfl, fun _ => rfl⟩
  · unfold State.updateContext
    dsimp only
    split_ifs with hHeld
    · exact ⟨by rw [← hTaken], fun _ hNot => absurd hHeld hNot, fun _ => rfl, Iff.rfl, fun _ => rfl⟩
    · refine ⟨?_, fun _ _ => ?_, fun hIs => absurd hIs hHeld, ?_, fun c => ?_⟩
      · simp only [State.setSeq, hTaken]
      · simp only [State.setSeq, upd_same]
      · simp only [State.setSeq, upd_same]
        exact iff_of_false (by decide) hHeld
      · simp only [State.setSeq]
        by_cases hc : r.chan = c
        · subst hc
          rw [upd_same]
        · rw [upd_other _ _ _ _ hc]

/-- The state after the nodes and the REPORT effects. -/
def State.reported (u : State) (r : Result) : State :=
  if actionClass r.conds r.actions = .ignore then u.applyResult r else (u.applyResult r).reportResult r

/-- The same with the context HELD, where the result holds a channel that is not held. -/
def State.heldBy (u : State) (r : Result) : State :=
  if actionClass r.conds r.actions = .hold ∧ u.seqs[r.chan].ctx ≠ .held then
    u.setSeq r.chan { u.seqs[r.chan] with ctx := .held, record := recordOf r }
  else u

theorem heldBy_frame (u : State) (r : Result) : u.heldBy r = { u with seqs := (u.heldBy r).seqs } := by
  unfold State.heldBy
  split_ifs <;> rfl

theorem Left.of_subset {S T : SlotId → Prop} {s t : State} (h : Left S s t) (hS : ∀ n, S n → T n) : Left T s t where
  fixed := h.fixed
  level := h.level
  pending := h.pending
  memory := fun a ha => h.memory a fun n hn => ha n (hS n hn)
  slots := fun n hn => h.slots n fun k => hn (hS n k)
  done := fun n hn => h.done n fun k => hn (hS n k)
  news := h.news
  orders := h.orders
  chan := h.chan

theorem completeSpot_left (s : State) (r : Result) : Left (fun _ => True) s (s.completeSpot r) := by
  unfold State.completeSpot
  split
  · exact Left.refl s
  · split
    · exact Left.completeSlot s _ _ _ _ trivial
    · exact Left.refl s

theorem holdChannel_left (s : State) (r : Result) (h : actionClass r.conds r.actions = .hold) :
    Left (fun _ => True) (s.heldBy r) (s.holdChannel r.chan (recordOf r)) := by
  unfold State.heldBy State.holdChannel
  by_cases hHeld : s.seqs[r.chan].ctx = .held
  · rw [if_pos hHeld, if_neg fun k => k.2 hHeld]
    exact Left.refl s
  · rw [if_neg hHeld, if_pos ⟨h, hHeld⟩]
    exact ((Acts.abandonRun _ r.chan).trans (Acts.regroup (covers_all _))).left

/-- Steps 5 and 6 act on channels, groups and order slots alone, once the context is HELD. -/
theorem finishResult_left (u : State) (r : Result) : Left (fun _ => True) ((u.reported r).heldBy r) (u.finishResult r) := by
  have hSpot : u.finishResult r = (fun v : State => if r.source = .spot then v.completeSpot r else v)
      (if actionClass r.conds r.actions = .hold then (u.reported r).holdChannel r.chan (recordOf r) else u.reported r) := rfl
  have hHold : Left (fun _ => True) ((u.reported r).heldBy r)
      (if actionClass r.conds r.actions = .hold then (u.reported r).holdChannel r.chan (recordOf r) else u.reported r) := by
    split_ifs with h
    · exact holdChannel_left _ r h
    · rw [State.heldBy, if_neg fun k => h k.1]
      exact Left.refl _
  rw [hSpot]
  refine hHold.trans ?_
  dsimp only
  split_ifs
  · exact completeSpot_left _ r
  · exact Left.refl _
  · exact completeSpot_left _ r
  · exact Left.refl _

theorem finishResult_short {u : State} {r : Result} (hHold : actionClass r.conds r.actions ≠ .hold ∨ u.seqs[r.chan].ctx = .held)
    (hSpot : r.source ≠ .spot) : u.finishResult r = u.reported r := by
  have hSeqs : (u.reported r).seqs = u.seqs := by
    have hFixed := congrArg State.seqs (applyResult_fixed u r)
    unfold State.reported
    split_ifs
    · exact hFixed
    · exact hFixed
  show (if r.source = .spot then _ else if actionClass r.conds r.actions = .hold then
    (u.reported r).holdChannel r.chan (recordOf r) else u.reported r) = _
  rw [if_neg hSpot]
  split_ifs with h
  · unfold State.holdChannel
    rw [hSeqs, if_pos (hHold.resolve_left (not_not_intro h))]
  · rfl

/-! ### A result's report (R83) -/

theorem reported_eq (u : State) (r : Result) : u.reported r = { u.applyResult r with
    news := { (u.applyResult r).news with chanCond := (u.applyResult r).news.chanCond |||
      (if actionClass r.conds r.actions = .ignore then 0 else bit8 r.chan.val) }
    attn := { (u.applyResult r).attn with pending := (u.applyResult r).attn.pending |||
      (if actionClass r.conds r.actions = .ignore then 0 else bit8 3) } } := by
  unfold State.reported
  split_ifs
  · rw [show (0 : BitVec 8) = 0#8 from rfl, BitVec.or_zero, BitVec.or_zero]
  · rfl

/-! ### The whole of a result -/

theorem records_apart {a : Nat} (h : inRecords a) (n : SlotId) : ¬ slotByteOf n a := by
  unfold inRecords at h
  unfold slotByteOf slotAddr
  omega

theorem inRecords_recordAddr (n : NodeId) {k : Nat} (hk : k < 32) : inRecords (recordAddr n + k) := by
  unfold inRecords recordAddr
  omega

/-- What the last steps of a result leave of the nodes and their records. -/
theorem finishResult_node (u : State) (r : Result) (n : NodeId) : nodeView n (u.finishResult r) = nodeView n (u.applyResult r) := by
  have hLeft := finishResult_left u r
  have hHeld := heldBy_frame (u.reported r) r
  have hReported := reported_eq u r
  have hView : nodeView n ((u.reported r).heldBy r) = nodeView n (u.applyResult r) := by
    rw [hHeld, hReported]
    rfl
  rw [← hView]
  refine nodeView_eq ?_ fun k hk => hLeft.memory _ fun m _ => records_apart (inRecords_recordAddr n hk) m
  have hNodes : (u.finishResult r).nodes = ((u.reported r).heldBy r).nodes := (congrArg State.nodes hLeft.fixed :)
  rw [hNodes]

/-- A node's state changes exactly where the result reaches the node and moves it. -/
theorem nodeState_applyResult (u : State) (r : Result) (n : NodeId) :
    (u.applyResult r).nodes[n].state ≠ u.nodes[n].state ↔ n ∈ reached r ∧ stateMoves u r n := by
  obtain ⟨hAbsent, hPresent⟩ := applyResult_node u r n
  by_cases h : n ∈ reached r
  · obtain ⟨t, -, hBefore, hAfter⟩ := hPresent h
    rw [nodes_of_nodeView hAfter, putNode_node]
    exact (and_iff_right h).symm.trans (and_congr_right fun _ => ne_comm)
  · rw [nodes_of_nodeView (hAbsent h)]
    exact iff_of_false (not_not_intro rfl) fun k => h k.1

/-- What the last steps leave of everything but channels, groups, orders and the scheduler. -/
theorem finishResult_fixed (u : State) (r : Result) : (u.finishResult r).fixed = (u.reported r).fixed := by
  have hHeld := heldBy_frame (u.reported r) r
  rw [(finishResult_left u r).fixed, hHeld]
  rfl

theorem reported_seqs (u : State) (r : Result) : (u.reported r).seqs = u.seqs := by
  have hFixed : (u.applyResult r).seqs = u.seqs := (congrArg State.seqs (applyResult_fixed u r) :)
  have hReported := reported_eq u r
  rw [hReported]
  exact hFixed

/-- What the whole of a result leaves of everything but channels, groups, orders, records and attention. -/
theorem finishResult_kept (u : State) (r : Result) : (u.finishResult r).results = u.results ∧ (u.finishResult r).taken = u.taken
    ∧ (u.finishResult r).news.nodeState = (u.applyResult r).news.nodeState
    ∧ (u.finishResult r).news.chanCond =
        u.news.chanCond ||| (if actionClass r.conds r.actions = .ignore then 0 else bit8 r.chan.val)
    ∧ (u.finishResult r).attn.faultFact = (u.applyResult r).attn.faultFact := by
  have hFixed := finishResult_fixed u r
  have hApplied := applyResult_fixed u r
  have hReported := reported_eq u r
  have hResults : (u.finishResult r).results = (u.reported r).results := (congrArg State.results hFixed :)
  have hTaken : (u.finishResult r).taken = (u.reported r).taken := (congrArg State.taken hFixed :)
  have hNode : (u.finishResult r).news.nodeState = (u.reported r).news.nodeState := (congrArg (·.news.nodeState) hFixed :)
  have hCond : (u.finishResult r).news.chanCond = (u.reported r).news.chanCond := (congrArg (·.news.chanCond) hFixed :)
  have hFact : (u.finishResult r).attn.faultFact = (u.reported r).attn.faultFact := (congrArg (·.attn.faultFact) hFixed :)
  have hCondBefore : (u.applyResult r).news.chanCond = u.news.chanCond := (congrArg (·.news.chanCond) hApplied :)
  rw [hResults, hTaken, hNode, hCond, hFact, hReported, ← hCondBefore]
  exact ⟨(congrArg State.results hApplied :), (congrArg State.taken hApplied :), rfl, rfl, rfl⟩

theorem finishResult_level (u : State) (r : Result) {k : Level} (h4 : k ≠ 4) (h7 : k ≠ 7) :
    has8 (u.finishResult r).attn.pending k.val = has8 (u.reported r).attn.pending k.val := by
  have hHeld := heldBy_frame (u.reported r) r
  rw [(finishResult_left u r).level k h4 h7, hHeld]

theorem reported_level (u : State) (r : Result) (k : Level) : has8 (u.reported r).attn.pending k.val = true ↔
    has8 (u.applyResult r).attn.pending k.val = true ∨ (k = 3 ∧ actionClass r.conds r.actions ≠ .ignore) := by
  have hReported := reported_eq u r
  rw [hReported]
  dsimp only
  split_ifs with h
  · rw [show (0 : BitVec 8) = 0#8 from rfl, BitVec.or_zero]
    simp [h]
  · refine (Bool.eq_iff_iff.mp (has8_addLevel _ 3 k)).trans ?_
    simp [h]

theorem heldBy_held {u : State} {r : Result} (h : u.seqs[r.chan].ctx = .held) : u.heldBy r = u := if_neg fun k => k.2 h

theorem heldBy_record {u : State} {r : Result} (h : u.seqs[r.chan].record = recordOf r) :
    (u.heldBy r).seqs[r.chan].record = recordOf r := by
  unfold State.heldBy
  split
  · simp only [State.setSeq, upd_same]
  · exact h

/-- The context record and kind of the result's channel, after all its steps (R84, R86). -/
theorem finishResult_context (u : State) (r : Result) :
    (u.seqs[r.chan].record = recordOf r → (u.finishResult r).seqs[r.chan].record = recordOf r)
    ∧ (u.seqs[r.chan].ctx = .held → (u.finishResult r).seqs[r.chan].record = u.seqs[r.chan].record
      ∧ (u.finishResult r).seqs[r.chan].ctx = .held) := by
  have hChan := (finishResult_left u r).chan r.chan
  rw [← reported_seqs u r]
  refine ⟨fun h => hChan.record.trans (heldBy_record h), fun h => ?_⟩
  rw [heldBy_held h] at hChan
  exact ⟨hChan.record, (hChan.ctx.resolve_right fun k => by rw [h] at k; exact absurd k.1 (by decide)).trans h⟩

/-- A node that a result reaches, after all its steps (R60 to R64). -/
theorem finishResult_reached {u : State} {r : Result} {stamp : Stamp} (h : r.stamp = some stamp) {n : NodeId}
    (hIn : n ∈ reached r) : tookResult u r stamp n (u.finishResult r).nodes[n] ∧ imaged u (u.finishResult r) n := by
  obtain ⟨t, hFixed, hBefore, hAfter⟩ := (applyResult_node u r n).2 hIn
  have hView := (finishResult_node u r n).trans hAfter
  have hHold : t.hold = u.hold := (congrArg State.hold hFixed :)
  have hCount : (statusAfter u r n).updateCount = t.nodes[n].updateCount := by
    rw [statusAfter_count, nodes_of_nodeView hBefore]
  refine ⟨?_, imaged_congr hHold.symm hBefore.symm hView (imaged_putNode t n hCount)⟩
  rw [nodes_of_nodeView hView, putNode_node]
  exact tookResult_image (tookResult_applyTo u h n) _ _

/-- What a result does that ends with its report (R60, R68, R83). -/
theorem reported_frame (u : State) (r : Result) : u.reported r = { u with
      nodes := (u.reported r).nodes, mem := (u.reported r).mem
      news := { u.news with nodeState := (u.reported r).news.nodeState, chanCond := (u.reported r).news.chanCond }
      attn := { u.attn with pending := (u.reported r).attn.pending, faultFact := (u.reported r).attn.faultFact } } := by
  have hFrame := resultFixed_frame (applyResult_fixed u r)
  have hReported := reported_eq u r
  rw [hReported]
  generalize u.applyResult r = v at hFrame ⊢
  rw [hFrame]

/-- Level 1 after a result (R68, R170). -/
theorem reported_fault (u : State) (r : Result) : followsFault u (u.reported r) := by
  have hFollows := applyResult_followsFault u r
  have hOne : has8 (u.reported r).attn.pending 1 = has8 (u.applyResult r).attn.pending 1 := by
    have hLevel := reported_level u r 1
    refine Bool.eq_iff_iff.mpr (hLevel.trans (or_iff_left fun h => absurd h.1 (by decide)))
  have hReported := reported_eq u r
  have hService : (u.reported r).attn.inService = (u.applyResult r).attn.inService := by rw [hReported]
  have hFact : (u.reported r).attn.faultFact = (u.applyResult r).attn.faultFact := by rw [hReported]
  unfold followsFault
  rw [hService, hFact, hOne]
  exact hFollows

/-- Settles O49: the context's update, the pass over the nodes of the stamp, the report, and what the steps after it leave. -/
theorem resultReachesContextAndNodes : Obligations.ResultReachesContextAndNodes := by
  refine ⟨?_, ?_, ?_, classIs_actionClass, highestOf_first⟩
  · intro s u r rest stamp hTaken hCut hStamp
    obtain ⟨hKept, hFrom, hStood, hHeldIff, -⟩ := resultTaken_kept hTaken
    have hU : u.nodes = s.nodes ∧ u.mem = s.mem ∧ u.news = s.news ∧ u.attn = s.attn ∧ u.hold = s.hold ∧ u.results = rest
        ∧ u.taken = none ∧ u.nodePlan = s.nodePlan ∧ u.plans = s.plans ∧ u.uptime = s.uptime := by
      rw [hKept]
      exact ⟨rfl, rfl, rfl, rfl, rfl, rfl, rfl, rfl, rfl, rfl⟩
    obtain ⟨hNodes, hMem, hNews, hAttn, hHold, hRest, hNone, hNodePlan, hPlans, hUptime⟩ := hU
    obtain ⟨hResults, hTakenAfter, hNodeNews, hChanNews, hFact⟩ := finishResult_kept u r
    obtain ⟨hRecord, hHeld⟩ := finishResult_context u r
    have hReach := @mem_reached r stamp hStamp
    have hAbsent (n : NodeId) (h : n ∉ reached r) : nodeView n (u.finishResult r) = nodeView n u :=
      (finishResult_node u r n).trans ((applyResult_node u r n).1 h)
    have hState (n : NodeId) : (u.finishResult r).nodes[n].state ≠ u.nodes[n].state ↔ n ∈ reached r ∧ stateMoves u r n := by
      rw [nodes_of_nodeView (finishResult_node u r n)]
      exact nodeState_applyResult u r n
    have hEmpty : (∀ n : NodeId, has8 stamp.members n.val = false) → reached r = [] := fun h =>
      List.eq_nil_iff_forall_not_mem.mpr fun n hn => absurd (hReach.mp hn) (by simp [h n])
    refine ⟨u.finishResult r, exec_conditionResult hTaken hCut, hResults.trans hRest, hTakenAfter.trans hNone,
      fun h1 h2 => recordFrom_iff.mpr (hRecord (hFrom h1 h2)), fun h => ?_, fun n hn => ?_, fun n hn => ?_, fun n k h1 h2 => ?_,
      fun n => ?_, ?_, fun ⟨n, hn⟩ => ?_, ?_, ?_, fun hShort hSpot => ?_⟩
    · exact ⟨(hHeld (hHeldIff.mpr h)).1.trans (hStood h), (hHeld (hHeldIff.mpr h)).2⟩
    · obtain ⟨hTook, hImage⟩ := finishResult_reached (u := u) hStamp (hReach.mpr hn)
      unfold tookResult at hTook
      unfold imaged at hImage
      rw [hNodes, hNodePlan, hPlans, hUptime] at hTook
      rw [hNodes, hMem, hHold] at hImage
      exact ⟨hTook, hImage⟩
    · have hView := hAbsent n fun hIn => by rw [hReach.mp hIn] at hn; exact absurd hn (by decide)
      rw [← hNodes, ← hMem]
      exact ⟨nodes_of_nodeView hView, fun k hk => record_of_nodeView hView hk⟩
    · rw [record_of_nodeView (finishResult_node u r n) h2, ← hMem]
      exact applyResult_tail u r n ⟨h1, h2⟩
    · rw [hNodeNews, applyResult_news, ← hNodes, ← hNews, hState]
      exact or_congr_right ⟨fun ⟨m, hm, hEq, hMoves⟩ => hEq ▸ ⟨hm, hMoves⟩, fun ⟨hm, hMoves⟩ => ⟨n, hm, rfl, hMoves⟩⟩
    · have hTwo := congrArg (· = true) (finishResult_level u r (k := 2) (by decide) (by decide))
      simp only [← hNodes, hState, ← hAttn]
      refine (iff_of_eq hTwo).trans ((reported_level u r 2).trans ((or_iff_left fun h => absurd h.1 (by decide)).trans ?_))
      exact applyResult_level2 u r
    · rw [hFact, applyResult_fault u r (List.ne_nil_of_mem (hReach.mpr hn)), anyFault_iff]
      exact exists_congr fun m => by rw [nodes_of_nodeView (finishResult_node u r m)]
    · rw [hChanNews, hNews]
    · have hThree := congrArg (· = true) (finishResult_level u r (k := 3) (by decide) (by decide))
      have hBefore := congrArg (· = true) (applyResult_level u r (k := 3) (by decide) (by decide))
      rw [← hAttn]
      refine (iff_of_eq hThree).trans ((reported_level u r 3).trans (or_congr (iff_of_eq hBefore) (and_iff_right rfl)))
    · have hEnd := finishResult_short (u := u) (r := r) (hShort.imp_right hHeldIff.mpr) hSpot
      obtain ⟨hService, hIn, hOut⟩ := reported_fault u r
      have hStill (h : ∀ n : NodeId, has8 stamp.members n.val = false) : u.applyResult r = u := by
        rw [applyResult_eq, hEmpty h]
        rfl
      have hOne : has8 (u.reported r).attn.pending 1 = has8 (u.applyResult r).attn.pending 1 :=
        Bool.eq_iff_iff.mpr ((reported_level u r 1).trans (or_iff_left fun h => absurd h.1 (by decide)))
      rw [hEnd] at hFact ⊢
      rw [← hAttn, ← hMem]
      refine ⟨reported_frame u r, fun k h1 h2 h3 => ?_, fun h => ?_, fun hNot h => ?_, fun h => ?_, fun a ha => ?_⟩
      · rw [← applyResult_level u r h1 h2]
        exact Bool.eq_iff_iff.mpr ((reported_level u r k).trans (or_iff_left fun h => h3 h.1))
      · exact h.elim hIn fun hNobody => by rw [hOne, hStill hNobody]
      · obtain hFollowed | ⟨hFactSame, hLevelSame⟩ := hOut hNot
        · exact hFollowed
        · rw [hLevelSame, hFactSame]
          exact h.resolve_right (not_not_intro hFactSame)
      · rw [hFact, hStill h]
      · have hReported := reported_eq u r
        rw [hReported]
        exact (Recording.applyResult u r).memory a ha
  · intro s r rest cuts hTaken hResults hCuts
    have hWith : { s with results := rest, cuts := s.cuts.tail }.updateContext r =
        { { s with results := rest, cuts := s.cuts.tail }.updateContext r with taken := none } := by
      unfold State.updateContext
      dsimp only
      split_ifs
      · rw [hTaken]
      · simp only [State.setSeq, hTaken]
    refine ⟨{ s with results := rest, cuts := s.cuts.tail }.updateContext r, resultTaken_iff.mpr (.inr ⟨hTaken, hResults, rfl⟩), ?_, ?_⟩
    · exact (conditionResult_next hTaken hResults).trans (congrArg _ (takeResult_cut (by rw [hCuts]; rfl) r rest))
    · have hFirst := conditionResult_taken (s := { { s with results := rest, cuts := s.cuts.tail }.updateContext r with
        taken := some r }) rfl
      have hNext := conditionResult_next (s := { s with cuts := false :: cuts }) hTaken hResults
      have hWhole := takeResult_whole (s := { s with cuts := false :: cuts }) (by simp) r rest
      rw [hFirst, hNext, hWhole]
      rw [hCuts] at hWith ⊢
      exact congrArg (fun v : State => Host.Outcome.next (v.finishResult r)) hWith.symm
  · intro s hTaken hResults
    show execConditionResult s = _
    unfold execConditionResult
    rw [hTaken, hResults]

end Sys2Proof.Machine
end

section
/-! PROOFS. A SPOT's completion by its result, and the result figures of a slot. -/

namespace Sys2Proof.Machine

/-! ### Kind results (section 11.6) -/

theorem spotDone_eq (r : Result) (p : PlanId) : spotDone r p =
    [
      flagByte r.valid, flagByte r.split.isSome, (BitVec.ofNat 16 (r.rf.getD 0)).extractLsb' 0 8,
      (BitVec.ofNat 16 (r.rf.getD 0)).extractLsb' 8 8, (BitVec.ofNat 16 ((r.split.getD ⟨0, 0, 0⟩).rp)).extractLsb' 0 8,
      (BitVec.ofNat 16 ((r.split.getD ⟨0, 0, 0⟩).rp)).extractLsb' 8 8,
      (BitVec.ofNat 16 ((r.split.getD ⟨0, 0, 0⟩).rn)).extractLsb' 0 8,
      (BitVec.ofNat 16 ((r.split.getD ⟨0, 0, 0⟩).rn)).extractLsb' 8 8,
      (BitVec.ofInt 16 ((r.split.getD ⟨0, 0, 0⟩).apm)).extractLsb' 0 8,
      (BitVec.ofInt 16 ((r.split.getD ⟨0, 0, 0⟩).apm)).extractLsb' 8 8, (BitVec.ofNat 16 (r.ub)).extractLsb' 0 8,
      (BitVec.ofNat 16 (r.ub)).extractLsb' 8 8, r.conds, byteOf p.val, (BitVec.ofInt 16 (r.p1)).extractLsb' 0 8,
      (BitVec.ofInt 16 (r.p1)).extractLsb' 8 8, (BitVec.ofInt 16 (r.p2)).extractLsb' 0 8,
      (BitVec.ofInt 16 (r.p2)).extractLsb' 8 8, (BitVec.ofInt 16 (r.p3)).extractLsb' 0 8,
      (BitVec.ofInt 16 (r.p3)).extractLsb' 8 8, (BitVec.ofNat 16 (r.t1)).extractLsb' 0 8,
      (BitVec.ofNat 16 (r.t1)).extractLsb' 8 8, (BitVec.ofNat 16 (r.t2)).extractLsb' 0 8,
      (BitVec.ofNat 16 (r.t2)).extractLsb' 8 8, (BitVec.ofNat 16 (r.t3)).extractLsb' 0 8,
      (BitVec.ofNat 16 (r.t3)).extractLsb' 8 8, match r.stamp with | some t => t.members | none => 0,
      optByte (r.stamp.map (·.injector)), optByte (r.stamp.map (·.leader))] := rfl

theorem spotDone_length (r : Result) (p : PlanId) : (spotDone r p).length = 29 := by
  rw [spotDone_eq]
  rfl

/-- The bytes of a kind result in a completed slot's memory show the figures of a SPOT's result (R134). -/
theorem spotShows_of_bytes {m : Memory} {n : SlotId} {r : Result} {p : PlanId}
    (h : ∀ j, j < 40 → m.read (slotAddr n + 0x18 + j) = (spotDone r p).getD j 0) : spotShows m n r p := by
  have hByte (k : Nat) (h1 : 0x18 ≤ k) (h2 : k < 0x40) : m.read (slotAddr n + k) = (spotDone r p).getD (k - 0x18) 0 := by
    rw [← h (k - 0x18) (by omega), show slotAddr n + 0x18 + (k - 0x18) = slotAddr n + k by omega]
  have hZero (k : Nat) (h1 : 0x35 ≤ k) (h2 : k < 0x40) : m.read (slotAddr n + k) = 0 := by
    rw [hByte k (by omega) h2, List.getD_eq_default _ _ (by rw [spotDone_length]; omega)]
  have hWord {k : Nat} {v : BitVec 16} (h0 : m.read (slotAddr n + k) = v.extractLsb' 0 8)
      (h1 : m.read (slotAddr n + (k + 1)) = v.extractLsb' 8 8) : m.read16 (slotAddr n + k) = v.toNat :=
    read16_of_bytes h0 h1
  have hNat {k : Nat} {v : Nat} (h0 : m.read (slotAddr n + k) = (BitVec.ofNat 16 v).extractLsb' 0 8)
      (h1 : m.read (slotAddr n + (k + 1)) = (BitVec.ofNat 16 v).extractLsb' 8 8) :
      m.read16 (slotAddr n + k) = v % 65536 := (read16_of_bytes h0 h1).trans (BitVec.toNat_ofNat v 16)
  have hAt (j : Nat) {k : Nat} (hk : k = j + 0x18) (h : j < 40) : m.read (slotAddr n + k) = (spotDone r p).getD j 0 :=
    (hByte k (by omega) (by omega)).trans (by rw [hk, Nat.add_sub_cancel])
  rw [spotDone_eq] at hAt
  refine ⟨hAt 0 rfl (by decide), hAt 1 rfl (by decide), hNat (hAt 2 rfl (by decide)) (hAt 3 rfl (by decide)),
    hNat (hAt 4 rfl (by decide)) (hAt 5 rfl (by decide)), hNat (hAt 6 rfl (by decide)) (hAt 7 rfl (by decide)),
    hWord (hAt 8 rfl (by decide)) (hAt 9 rfl (by decide)), hNat (hAt 10 rfl (by decide)) (hAt 11 rfl (by decide)),
    hAt 12 rfl (by decide), hAt 13 rfl (by decide), hWord (hAt 14 rfl (by decide)) (hAt 15 rfl (by decide)),
    hWord (hAt 16 rfl (by decide)) (hAt 17 rfl (by decide)), hWord (hAt 18 rfl (by decide)) (hAt 19 rfl (by decide)),
    hNat (hAt 20 rfl (by decide)) (hAt 21 rfl (by decide)), hNat (hAt 22 rfl (by decide)) (hAt 23 rfl (by decide)),
    hNat (hAt 24 rfl (by decide)) (hAt 25 rfl (by decide)), hAt 26 rfl (by decide), (hAt 27 rfl (by decide)).trans ?_,
    (hAt 28 rfl (by decide)).trans ?_, hZero⟩
  · show optByte (r.stamp.map (·.injector)) = _
    cases r.stamp <;> rfl
  · show optByte (r.stamp.map (·.leader)) = _
    cases r.stamp <;> rfl

/-- The result of a SPOT whose FINISHING order is the only one taken. -/
theorem completeSpot_only {s : State} {r : Result} {n : SlotId} {node : NodeId} {p : PlanId} {l : GroupId} {k : Nat}
    (hSlot : r.slot = some n) (hIntake : s.intake = [⟨n, .spot node p, .finishing, l, k⟩]) :
    s.completeSpot r = s.completeDone n (spotDone r p) := by
  unfold State.completeSpot
  rw [hSlot, hIntake]
  simp

/-- Settles O51: without a HOLD the SPOT's order completes right after the report. -/
theorem spotCompletesWithItsResult : Obligations.SpotCompletesWithItsResult := by
  intro s u r rest n node p l k hTaken hCut hSpot hSlot hIntake hClass
  obtain ⟨hKept, -⟩ := resultTaken_kept hTaken
  have hFrame := reported_frame u r
  have hRecords : ∀ a, ¬ inRecords a → (u.reported r).mem.read a = u.mem.read a := fun a ha => by
    have hReported := reported_eq u r
    rw [hReported]
    exact (Recording.applyResult u r).memory a ha
  have hU : u.intake = s.intake ∧ u.slots = s.slots ∧ u.news = s.news ∧ u.mem = s.mem ∧ u.results = rest := by
    rw [hKept]
    exact ⟨rfl, rfl, rfl, rfl, rfl⟩
  obtain ⟨hU1, hU2, hU3, hU4, hU5⟩ := hU
  have hV : (u.reported r).intake = s.intake ∧ (u.reported r).slots = s.slots ∧ (u.reported r).news.done = s.news.done
      ∧ (u.reported r).results = rest := by
    rw [hFrame]
    exact ⟨hU1, hU2, by rw [hU3], hU5⟩
  have hEnd : u.finishResult r = (u.reported r).completeSlot n .done 0 (spotDone r p) := by
    show (if r.source = .spot then State.completeSpot (if actionClass r.conds r.actions = .hold then _ else u.reported r) r
      else _) = _
    rw [if_pos hSpot, if_neg hClass]
    exact completeSpot_only hSlot (hV.1.trans hIntake)
  rw [hU4] at hRecords
  generalize u.reported r = v at hEnd hV hRecords
  obtain ⟨hV1, hV2, hV3, hV4⟩ := hV
  refine ⟨u.finishResult r, exec_conditionResult hTaken hCut, ?_⟩
  have hShows := spotShows_of_bytes (fun j hj => completedMemory_kind v.mem n .done 0 (spotDone r p) hj)
  have hState := completedMemory_state v.mem n .done 0 (spotDone r p)
  have hProgress := completedMemory_progress v.mem n .done 0 (spotDone r p)
  have hReason := completedMemory_reason v.mem n .done 0 (spotDone r p)
  have hOutside := fun a => @completedMemory_outside v.mem n .done 0 (spotDone r p) a
  rw [hEnd, completeSlot_eq]
  generalize completedMemory v.mem n .done 0 (spotDone r p) = m at *
  refine ⟨hV4, ?_, ?_, hShows, hState, hProgress, hReason, ?_, ?_, fun a ha hOut => ?_⟩
  · show v.intake.filter _ = []
    rw [hV1, hIntake]
    simp
  · show upd v.slots n .done = _
    rw [hV2]
  · show v.news.done ||| _ = _
    rw [hV3]
  · exact (has8_addLevel v.attn.pending 4 4).trans (by simp)
  · exact (hOutside a (by omega)).trans (hRecords a ha)

end Sys2Proof.Machine
end

section
/-! PROOFS. Publications of plans, and the partition as connectivity. -/

namespace Sys2Proof.Machine

/-! ### Check fields (R5, R180, section 11.5) -/

theorem testBit_bitsOf : ∀ (l : List Bool) (i : Nat), (bitsOf l).testBit i = l.getD i false
  | [], i => by simp [bitsOf]
  | b :: rest, 0 => by
    unfold bitsOf
    rw [Nat.testBit_zero, Nat.add_mul_mod_self_left]
    cases b <;> rfl
  | b :: rest, i + 1 => by
    unfold bitsOf
    rw [Nat.testBit_succ, show ((if b then 1 else 0) + 2 * bitsOf rest) / 2 = bitsOf rest by cases b <;> simp; omega,
      testBit_bitsOf rest i, List.getD_cons_succ]

theorem marks_getLsbD {l : List Bool} (h : l.length ≤ 32) (i : Nat) : (BitVec.ofNat 32 (bitsOf l)).getLsbD i = l.getD i false := by
  rw [BitVec.getLsbD_ofNat, testBit_bitsOf]
  by_cases hi : i < 32
  · simp [hi]
  · rw [List.getD_eq_default _ _ (by omega)]
    simp

/-- The marks of a publication, in the order of the check field's bits. -/
def planMarks (m : Memory) (p : PlanId) : List Bool :=
  let a := planAddr p
  let halfMin := clampTo 100 20000 (m.read16 (a + 0x06))
  let warn := clampTo 1 65000 (m.read16 (a + 0x14))
  [(clampTo 10 50 (m.read (a + 0x01)).toNat).2, (readTwo Polarity.pos Polarity.neg (m.read (a + 0x02))).2,
    (clampTo 0 2000 (m.read16 (a + 0x04))).2, halfMin.2, (clampTo halfMin.1 60000 (m.read16 (a + 0x08))).2,
    (clampTo 2 6 (m.read (a + 0x03)).toNat).2, (clampTo 1 500 (m.read16 (a + 0x0A))).2,
    (clampTo 1 8 (m.read (a + 0x0C)).toNat).2, (clampTo 1 5000 (m.read16 (a + 0x0E))).2,
    (clampTo 1 100 (m.read (a + 0x0D)).toNat).2, (readTwo SyncMode.free SyncMode.triggered (m.read (a + 0x10))).2,
    (clampTo 10 5000 (m.read16 (a + 0x12))).2, warn.2, (clampTo 1 warn.1 (m.read16 (a + 0x16))).2,
    (clampTo 0 50 (m.read (a + 0x18)).toNat).2, (clampTo 1 8 (m.read (a + 0x19)).toNat).2,
    (clampTo 1 600 (m.read16 (a + 0x1A))).2, (clampTo 0 5000 (m.read16 (a + 0x1C))).2,
    (readTwo Policy.lowest Policy.rotate (m.read (a + 0x11))).2, (clampTo 1 255 (m.read (a + 0x1E)).toNat).2]
  ++ (readActions m p).toList.map (·.2)

theorem planMarks_length (m : Memory) (p : PlanId) : (planMarks m p).length = 27 := by
  unfold planMarks
  dsimp only
  rw [List.length_append, List.length_map, Vector.length_toList]
  rfl

theorem readPlan_marks (m : Memory) (p : PlanId) (i : Nat) : (readPlan m p).2.getLsbD i = (planMarks m p).getD i false :=
  marks_getLsbD (l := planMarks m p) (by rw [planMarks_length]; decide) i

theorem planMarks_action (m : Memory) (p : PlanId) (i : Fin 7) :
    (planMarks m p).getD (20 + i.val) false = (readAction (m.read (planAddr p + 0x20 + i.val))).2 := by
  have hLength : ((readActions m p).toList.map (·.2)).length = 7 := by
    rw [List.length_map, Vector.length_toList]
  unfold planMarks
  dsimp only
  rw [List.getD_append_right _ _ _ _ (Nat.le_add_right 20 i.val)]
  refine (congrArg (List.getD _ · false) (Nat.add_sub_cancel_left 20 i.val)).trans ?_
  rw [List.getD_eq_getElem _ _ (by omega)]
  simp [readActions]

theorem readPlan_action (m : Memory) (p : PlanId) (i : Fin 7) :
    (readPlan m p).1.actions[i] = (readAction (m.read (planAddr p + 0x20 + i.val))).1 := by
  unfold readPlan readActions
  simp

/-! ### Plan fields -/

theorem clamps_clampTo (lo hi v : Nat) (h : lo ≤ hi) : clamps v lo hi (clampTo lo hi v).1 (clampTo lo hi v).2 := by
  unfold clamps clampTo
  split_ifs <;> simp <;> omega

theorem picks_readTwo {α : Type} (zero one : α) (b : Byte) : picks b zero one (readTwo zero one b).1 (readTwo zero one b).2 := by
  have hSmall : b = 0 ∨ b = 1 ∨ 2 ≤ b.toNat := by bv_omega
  unfold picks readTwo
  obtain rfl | rfl | h := hSmall
  · simp
  · simp
  · have h0 : b ≠ 0 := by rintro rfl; simp at h
    have h1 : b ≠ 1 := by rintro rfl; simp at h
    rw [if_neg h0, if_neg h1]
    exact ⟨fun e => absurd e h1, fun _ => rfl, iff_of_true rfl h⟩

theorem readAction_spec (b : Byte) :
    (readAction b).1 = (match b.toNat with | 0 => .ignore | 2 => .hold | _ => .report)
      ∧ ((readAction b).2 = true ↔ 3 ≤ b.toNat) := by
  have hSmall : b = 0 ∨ b = 1 ∨ b = 2 ∨ 3 ≤ b.toNat := by bv_omega
  unfold readAction
  obtain rfl | rfl | rfl | h := hSmall
  · decide
  · decide
  · decide
  · have h0 : b ≠ 0 := by rintro rfl; simp at h
    have h1 : b ≠ 1 := by rintro rfl; simp at h
    have h2 : b ≠ 2 := by rintro rfl; simp at h
    rw [if_neg h0, if_neg h1, if_neg h2]
    obtain ⟨k, hk⟩ : ∃ k, b.toNat = k + 3 := ⟨b.toNat - 3, by omega⟩
    rw [hk]
    exact ⟨rfl, iff_of_true rfl (by omega)⟩

/-! ### Publication (R5, R162) -/

theorem mem_allPlans (p : PlanId) : p ∈ allPlans := by revert p; decide

theorem takePlans_one (s : State) {w : Watch} {p : PlanId} {b : Byte} (h : w.plans = upd Watch.empty.plans p (some b)) :
    s.takePlans w = s.takePlan p b := by
  have hOne : w.plans[p] = some b := by rw [h]; exact upd_same _ _ _
  have hOther (q : PlanId) (hq : q ≠ p) : w.plans[q] = none := by
    rw [h, upd_other _ _ _ _ (Ne.symm hq)]
    exact empty_plan q
  have hAll : allPlans.Nodup := by decide
  unfold State.takePlans
  rw [forEach_single _ p _ _ hAll (mem_allPlans p) fun q _ hq t => by rw [hOther q hq], hOne]

/-- A write that wrote no slot and no view ends with its working copies and their regroup. -/
theorem handleEnd_copies {s : State} (hSlots : ∀ n : SlotId, s.watch.slots[n] = none) (hViews : ∀ c : Chan, s.watch.views[c] ≠ some 1)
    (hRegroups : s.watch.regroups = true) :
    s.handleEnd = ((((s.endTaken.clearNews s.watch.news).takePlans s.watch).takeDisconnect s.watch).takeTopology s.watch).regroupFrom
      (runningCount s) false := by
  unfold State.handleEnd
  simp only [hRegroups, if_true]
  rw [takeSlots_unwritten _ hSlots, takeViews_unwritten _ hViews]
  rfl

theorem exec_writeTransactionEnd {s : State} (h : s.endPending = true) : exec .writeTransactionEnd s = .next s.handleEnd := by
  show Host.Outcome.next (if s.endPending then s.handleEnd else s) = _
  rw [if_pos h]

/-- Measuring, told of a state that already shows the memory left. -/
theorem Measuring.rebase {s t : State} (h : Measuring s t) : Measuring { s with mem := t.mem } t where
  fixed := h.fixed
  mode := h.mode
  pending := h.pending
  done := h.done
  calm := h.calm
  memory := fun _ _ => rfl
  canonical := id
  chan := h.chan

/-- Settles O18: the field-by-field reading of a plan, and one plan's publication or withdrawal before the regroup. -/
theorem planPublication : Obligations.PlanPublication := by
  refine ⟨fun s p b hEnd hWatch => ?_, fun m p a c marks ha hc => ?_⟩
  · have hTake := takePlans_one s.endTaken (w := s.watch) (p := p) (b := b) (by rw [hWatch])
    have hHandle := handleEnd_copies (s := s) (by rw [hWatch]; exact empty_slot) (by rw [hWatch]; exact empty_view) (by
      unfold Watch.regroups
      rw [Bool.or_eq_true, List.any_eq_true]
      exact .inr ⟨p, mem_allPlans p, by rw [hWatch]; exact (congrArg Option.isSome (upd_same _ _ _)).trans rfl⟩)
    rw [show s.watch.news = Watch.empty.news by rw [hWatch], clearNews_unwritten, hTake,
      takeDisconnect_unwritten _ (by rw [hWatch]; rfl),
      takeTopology_unwritten _ (by rw [hWatch]; rfl) (by rw [hWatch]; rfl) (by rw [hWatch]; rfl)] at hHandle
    have hMeasuring := (Working.regroupFrom (s.endTaken.takePlan p b) (runningCount s) false).measuring
    have hTaken : (s.endTaken.takePlan p b).plans =
        upd s.plans p (if b = 1 then (readPlan s.mem p).1 else { s.plans[p] with ready := false })
        ∧ (s.endTaken.takePlan p b).mem = (if b = 1 then s.mem.writeBytes (planAddr p + 0x28) (le32 (readPlan s.mem p).2) else s.mem)
        ∧ s.endTaken.takePlan p b = { s.endTaken with
            plans := (s.endTaken.takePlan p b).plans, mem := (s.endTaken.takePlan p b).mem } := by
      unfold State.takePlan
      split_ifs
      · exact ⟨rfl, rfl, rfl⟩
      · exact ⟨rfl, rfl, rfl⟩
    obtain ⟨hPlans, hMem, hFrame⟩ := hTaken
    refine ⟨s.handleEnd, exec_writeTransactionEnd hEnd, ?_⟩
    rw [hHandle]
    generalize (s.endTaken.takePlan p b).regroupFrom (runningCount s) false = t at hMeasuring ⊢
    generalize s.endTaken.takePlan p b = u at *
    have hOut (k : Nat) (hk : k < 64) : ¬ inSlots (planAddr p + k) := by
      unfold inSlots planAddr
      omega
    have hKept : t.plans = u.plans := hMeasuring.plans_eq
    refine ⟨fun q hq => ?_, ?_, fun k hk => ?_, fun a ha hNot => ?_, ?_⟩
    · rw [hKept, hPlans, upd_other _ _ _ _ (Ne.symm hq)]
    · rw [hKept, hPlans, upd_same]
    · rw [Nat.add_assoc, hMeasuring.memory _ (hOut _ (by omega)), hMem, ← Nat.add_assoc]
      split_ifs
      · exact Memory.read_writeBytes_at _ _ _ hk
      · rfl
    · rw [hMeasuring.memory _ ha, hMem]
      split_ifs
      · exact Memory.read_writeBytes_other _ _ _ _ (by rw [show (le32 (readPlan s.mem p).2).length = 4 from rfl]; omega)
      · rfl
    · have hBase := hMeasuring.rebase
      rw [hFrame] at hBase
      rw [hKept]
      exact hBase
  · have hBit (i : Nat) : marks.getLsbD i = (planMarks m p).getD i false := by
      rw [← readPlan_marks, ← hc]
    have hCopy : c = (readPlan m p).1 := by rw [← hc]
    have hLimits := readPlan_withinLimits m p
    have hMin := clampTo_range 100 20000 (m.read16 (planAddr p + 0x06)) (by decide)
    have hWarn := clampTo_range 1 65000 (m.read16 (planAddr p + 0x14)) (by decide)
    subst ha hCopy
    simp only [hBit]
    refine ⟨rfl, hLimits, clamps_clampTo _ _ _ (by decide), picks_readTwo _ _ _, clamps_clampTo _ _ _ (by decide),
      clamps_clampTo _ _ _ (by decide), clamps_clampTo _ _ _ (hMin.2.trans (by decide)), clamps_clampTo _ _ _ (by decide),
      clamps_clampTo _ _ _ (by decide), clamps_clampTo _ _ _ (by decide), clamps_clampTo _ _ _ (by decide),
      clamps_clampTo _ _ _ (by decide), picks_readTwo _ _ _, clamps_clampTo _ _ _ (by decide), clamps_clampTo _ _ _ (by decide),
      clamps_clampTo _ _ _ hWarn.1, clamps_clampTo _ _ _ (by decide), clamps_clampTo _ _ _ (by decide),
      clamps_clampTo _ _ _ (by decide), clamps_clampTo _ _ _ (by decide), picks_readTwo _ _ _, clamps_clampTo _ _ _ (by decide),
      fun i => ?_, fun k hk => ?_⟩
    · rw [planMarks_action, readPlan_action]
      exact readAction_spec _
    · exact List.getD_eq_default _ _ (by rw [planMarks_length]; exact hk)

end Sys2Proof.Machine
end

section
/-! PROOFS. The partition of the nodes as connectivity by joining links (R2, R6). -/

namespace Sys2Proof.Machine

theorem indexOf_node {b : Byte} {n : NodeId} : indexOf 8 b = some n ↔ b = byteOf n.val := by
  constructor
  · unfold indexOf byteOf
    split_ifs with h
    · rintro ⟨rfl⟩
      simp
    · exact fun h' => nomatch h'
  · rintro rfl
    revert n
    decide

theorem joins_iff {e : LinkCopy} {x y : NodeId} : e.joins = some (x, y) ↔
    e.nodeA = byteOf x.val ∧ e.nodeB = byteOf y.val ∧ x ≠ y ∧ (e.state = .closed ∨ e.state = .unknown) := by
  have hState : e.state ≠ .open_ ↔ e.state = .closed ∨ e.state = .unknown := by cases e.state <;> simp
  rw [← indexOf_node, ← indexOf_node, ← hState]
  unfold LinkCopy.joins
  cases indexOf 8 e.nodeA with
  | none => simp
  | some a =>
    cases indexOf 8 e.nodeB with
    | none => simp
    | some b =>
      simp only [Option.ite_none_right_eq_some, Option.some.injEq, Prod.mk.injEq]
      exact ⟨fun ⟨⟨h1, h2⟩, hx, hy⟩ => ⟨hx, hy, hx ▸ hy ▸ h1, h2⟩, fun ⟨hx, hy, h1, h2⟩ => ⟨⟨hx ▸ hy ▸ h1, h2⟩, hx, hy⟩⟩

/-- Labels that stand for a relation: equal exactly where it connects, each the lowest node of its class. -/
structure Labelling (lab : Labels) (r : NodeId → NodeId → Prop) : Prop where
  connects : ∀ a b : NodeId, lab[a] = lab[b] ↔ Relation.EqvGen r a b
  lowest : ∀ a : NodeId, lab[a] ≤ a
  settled : ∀ a : NodeId, lab[lab[a]] = lab[a]

theorem join_get (lab : Labels) (a b n : NodeId) :
    (lab.join a b)[n] = if lab[n] = max lab[a] lab[b] then min lab[a] lab[b] else lab[n] := by
  unfold Labels.join
  simp

theorem label_congr (lab : Labels) {x y : NodeId} (h : x = y) : lab[x] = lab[y] := by
  subst h
  rfl

theorem Labelling.congr {lab : Labels} {r q : NodeId → NodeId → Prop} (h : Labelling lab r) (hEq : ∀ x y, r x y ↔ q x y) :
    Labelling lab q := by
  have hSame : r = q := funext fun x => funext fun y => propext (hEq x y)
  rwa [← hSame]

theorem Labelling.join {lab : Labels} {r : NodeId → NodeId → Prop} (h : Labelling lab r) (a b : NodeId) :
    Labelling (lab.join a b) fun x y => r x y ∨ (x = a ∧ y = b) := by
  have hMono {x y : NodeId} (hxy : lab[x] = lab[y]) : Relation.EqvGen (fun x y => r x y ∨ (x = a ∧ y = b)) x y :=
    Relation.EqvGen.mono (fun _ _ hr => Or.inl hr) _ _ ((h.connects x y).mp hxy)
  have hNew : Relation.EqvGen (fun x y => r x y ∨ (x = a ∧ y = b)) a b := .rel a b (.inr ⟨rfl, rfl⟩)
  have hCases : (lab[a] = max lab[a] lab[b] ∧ lab[b] = min lab[a] lab[b]) ∨ (lab[b] = max lab[a] lab[b] ∧ lab[a] = min lab[a] lab[b]) := by
    rcases le_total lab[a] lab[b] with hle | hle
    · exact .inr ⟨(max_eq_right hle).symm, (min_eq_left hle).symm⟩
    · exact .inl ⟨(max_eq_left hle).symm, (min_eq_right hle).symm⟩
  have hLink : ∀ x y : NodeId, lab[x] = max lab[a] lab[b] → lab[y] = min lab[a] lab[b] →
      Relation.EqvGen (fun x y => r x y ∨ (x = a ∧ y = b)) x y := fun x y hx hy => by
    rcases hCases with ⟨hHi, hLo⟩ | ⟨hHi, hLo⟩
    · exact ((hMono (hx.trans hHi.symm)).trans _ _ _ hNew).trans _ _ _ (hMono (hLo.trans hy.symm))
    · exact ((hMono (hx.trans hHi.symm)).trans _ _ _ (hNew.symm _ _)).trans _ _ _ (hMono (hLo.trans hy.symm))
  have hLow : lab[min lab[a] lab[b]] = min lab[a] lab[b] := by
    rcases hCases with ⟨-, hLo⟩ | ⟨-, hLo⟩
    · exact (label_congr lab hLo.symm).trans ((h.settled b).trans hLo)
    · exact (label_congr lab hLo.symm).trans ((h.settled a).trans hLo)
  refine ⟨fun x y => ⟨fun hxy => ?_, fun hxy => ?_⟩, fun x => ?_, fun x => ?_⟩
  · rw [join_get, join_get] at hxy
    split_ifs at hxy with hx hy hy
    · exact hMono (hx.trans hy.symm)
    · exact hLink x y hx hxy.symm
    · exact (hLink y x hy hxy).symm _ _
    · exact hMono hxy
  · induction hxy with
    | rel x y hr =>
      rw [join_get, join_get]
      obtain hr | ⟨rfl, rfl⟩ := hr
      · rw [(h.connects x y).mpr (.rel x y hr)]
      · rcases hCases with ⟨hHi, hLo⟩ | ⟨hHi, hLo⟩
        · refine (if_pos hHi).trans (Eq.symm ?_)
          split_ifs
          · rfl
          · exact hLo
        · refine Eq.trans ?_ (if_pos hHi).symm
          split_ifs
          · rfl
          · exact hLo
    | refl x => rfl
    | symm x y _ ih => exact ih.symm
    | trans x y z _ _ ih1 ih2 => exact ih1.trans ih2
  · rw [join_get]
    split_ifs with hx
    · exact ((min_le_max).trans (le_of_eq hx.symm)).trans (h.lowest x)
    · exact h.lowest x
  · have hOuter := join_get lab a b (lab.join a b)[x]
    have hInner := join_get lab a b x
    by_cases hx : lab[x] = max lab[a] lab[b]
    · have hAt := hInner.trans (if_pos hx)
      have hThere := (label_congr lab hAt).trans hLow
      rw [hOuter, hThere, hAt, ite_self]
    · have hAt := hInner.trans (if_neg hx)
      have hThere := (label_congr lab hAt).trans (h.settled x)
      rw [hOuter, hThere, hAt, if_neg hx]

/-- The relation a list of link entries brings. -/
def joinedBy (links : Vector LinkCopy 16) (is : List LinkId) (x y : NodeId) : Prop := ∃ i ∈ is, links[i].joins = some (x, y)

theorem Labelling.links (links : Vector LinkCopy 16) : ∀ (is : List LinkId) (lab : Labels) (r : NodeId → NodeId → Prop),
    Labelling lab r → Labelling (is.foldl (fun lab i => lab.link links[i]) lab) fun x y => r x y ∨ joinedBy links is x y
  | [], lab, r, h => h.congr fun x y => by simp [joinedBy]
  | i :: rest, lab, r, h => by
    have hStep : Labelling (lab.link links[i]) fun x y => r x y ∨ links[i].joins = some (x, y) := by
      unfold Labels.link
      cases hJoins : links[i].joins with
      | none => exact h.congr fun x y => by simp
      | some p =>
        obtain ⟨a, b⟩ := p
        exact (h.join a b).congr fun x y => by simp [eq_comm]
    refine (Labelling.links links rest _ _ hStep).congr fun x y => ?_
    unfold joinedBy
    simp only [List.mem_cons, exists_eq_or_imp, or_assoc]

theorem partition_labels (links : Vector LinkCopy 16) :
    Labelling (partition links) fun x y => ∃ i : LinkId, links[i].joins = some (x, y) := by
  have hStart : Labelling (Vector.ofFn fun n => n) fun _ _ => False := by
    refine ⟨fun a b => ⟨fun hab => ?_, fun hab => ?_⟩, fun a => ?_, fun a => ?_⟩
    · have hSame : a = b := by simpa using hab
      exact hSame ▸ .refl a
    · have hSame : a = b := by
        induction hab with
        | rel _ _ hr => exact hr.elim
        | refl => rfl
        | symm _ _ _ ih => exact ih.symm
        | trans _ _ _ _ _ ih1 ih2 => exact ih1.trans ih2
      rw [hSame]
    · simp
    · simp
  refine (Labelling.links links allPlans _ _ hStart).congr fun x y => ?_
  unfold joinedBy
  exact ⟨fun h => h.elim False.elim fun ⟨i, _, hi⟩ => ⟨i, hi⟩, fun ⟨i, hi⟩ => .inr ⟨i, mem_allPlans i, hi⟩⟩

/-- Settles O19: the labels stand for the links taken in so far, one link at a time. -/
theorem partitionIsConnectivity : Obligations.PartitionIsConnectivity :=
  ⟨fun _ _ _ => joins_iff, fun links a b =>
    have h := partition_labels links
    ⟨h.connects a b, h.lowest a, h.settled a⟩⟩

end Sys2Proof.Machine
end

section
/-! PROOFS. Samples, windows, plateaus, and an edge within a run. -/

namespace Sys2Proof.Machine

/-! ### Samples and windows (R25 to R27) -/

theorem takeSample_eq (q : Seq) (um : BitVec 16) (ub : Int) : q.takeSample um ub = sampled q um ub := by
  have hClamp : clampUb ub = (max 0 (min 1200 ub)).toNat := by
    unfold clampUb
    omega
  have hScale : fullScaleCode um = decide (um = 0x7FFF ∨ um = 0x8000) := by
    unfold fullScaleCode
    rw [Bool.decide_or]
    rfl
  unfold Seq.takeSample sampled
  dsimp only
  rw [hClamp, hScale]
  by_cases hHalf : q.inHalf = true
  · rw [if_pos hHalf]
    by_cases hBlank : q.elapsed + 1 ≤ q.copy.plan.blank
    · rw [if_pos hBlank, if_neg fun (h : q.inHalf = true ∧ q.copy.plan.blank ≤ q.elapsed) => absurd h.2 (by omega), if_pos hHalf]
    · rw [if_neg hBlank, if_pos ⟨hHalf, by omega⟩]
  · rw [if_neg hHalf, if_neg fun h => hHalf h.1, if_neg hHalf]

theorem closeWindow_eq (q : Seq) : q.closeWindow = withWindow q := rfl

/-- The settle test as a statement about neighbouring windows (R27). -/
theorem settledBy_iff (tolerance : Nat) : ∀ (n : Nat) (ws : List Window), settledBy tolerance n ws = true ↔
    ∀ i, i < n → ∃ a b : Window, ws[i]? = some a ∧ ws[i + 1]? = some b ∧ (a.um - b.um).natAbs ≤ tolerance
  | 0, ws => by simp [settledBy]
  | n + 1, [] => by
    simp only [settledBy, Bool.false_eq_true, false_iff, not_forall]
    exact ⟨0, Nat.succ_pos n, by simp⟩
  | n + 1, [a] => by
    simp only [settledBy, Bool.false_eq_true, false_iff, not_forall]
    exact ⟨0, Nat.succ_pos n, by simp⟩
  | n + 1, a :: b :: rest => by
    unfold settledBy
    rw [Bool.and_eq_true, decide_eq_true_eq, settledBy_iff tolerance n (b :: rest)]
    constructor
    · rintro ⟨hFirst, hRest⟩ i hi
      cases i with
      | zero => exact ⟨a, b, rfl, rfl, hFirst⟩
      | succ i => exact hRest i (by omega)
    · intro h
      refine ⟨?_, fun i hi => h (i + 1) (by omega)⟩
      obtain ⟨x, y, hx, hy, hxy⟩ := h 0 (Nat.succ_pos n)
      cases hx
      cases hy
      exact hxy

theorem readyNow_iff (q : Seq) : (withWindow q).readyNow = true ↔ readyPoint q := by
  unfold Seq.readyNow readyPoint
  simp only [Bool.and_eq_true, decide_eq_true_eq, Option.isNone_iff_eq_none, settledBy_iff, and_assoc]
  rfl

theorem setSeq_same (s : State) (c : Chan) : s.setSeq c s.seqs[c] = s := by simp [State.setSeq]

theorem setSeq_seq (s : State) (c : Chan) (q : Seq) : (s.setSeq c q).seqs[c] = q := upd_same _ _ _

theorem windowEnd_idle {s : State} {c : Chan} (h : s.seqs[c].windowFull = false) : s.windowEnd c = s :=
  if_neg (by rw [h]; exact Bool.false_ne_true)

theorem windowEnd_unready {s : State} {c : Chan} (h : s.seqs[c].windowFull = true) (hReady : ¬ readyPoint s.seqs[c]) :
    s.windowEnd c = s.setSeq c (withWindow s.seqs[c]) := by
  unfold State.windowEnd
  dsimp only
  rw [if_pos h, closeWindow_eq, if_neg fun hNow => hReady ((readyNow_iff _).mp hNow)]

theorem windowEnd_triggered {s : State} {c : Chan} (h : s.seqs[c].windowFull = true) (hReady : readyPoint s.seqs[c])
    (hSync : s.seqs[c].copy.plan.sync = .triggered) :
    s.windowEnd c = s.setSeq c { withWindow s.seqs[c] with
      ready := some s.seqs[c].elapsed, phase := .waitSync, syncTimer := some s.seqs[c].copy.plan.syncTimeout } := by
  have hPlan : (withWindow s.seqs[c]).copy.plan.sync = .triggered := hSync
  unfold State.windowEnd
  dsimp only
  rw [if_pos h, closeWindow_eq, if_pos ((readyNow_iff _).mpr hReady), hPlan]
  rfl

theorem windowEnd_free {s : State} {c : Chan} (h : s.seqs[c].windowFull = true) (hReady : readyPoint s.seqs[c])
    (hSync : s.seqs[c].copy.plan.sync = .free) :
    s.windowEnd c = (s.setSeq c { withWindow s.seqs[c] with ready := some s.seqs[c].elapsed }).edge c none s.seqs[c].elapsed := by
  have hPlan : (withWindow s.seqs[c]).copy.plan.sync = .free := hSync
  unfold State.windowEnd
  dsimp only
  rw [if_pos h, closeWindow_eq, if_pos ((readyNow_iff _).mpr hReady), hPlan]
  rfl

theorem halfMax_idle {s : State} {c : Chan}
    (h : s.seqs[c].inHalf = true → s.seqs[c].run ≠ .selfcheck → s.seqs[c].elapsed < s.seqs[c].copy.plan.halfMax) :
    s.halfMax c = s := by
  unfold State.halfMax
  dsimp only
  rw [if_neg fun ⟨h1, h2, h3⟩ => absurd (h h1 h2) (by omega)]

theorem selfcheckHalfEnd_idle {s : State} {c : Chan}
    (h : s.seqs[c].inHalf = true → s.seqs[c].run = .selfcheck → s.seqs[c].elapsed < 200) : s.selfcheckHalfEnd c = s := by
  unfold State.selfcheckHalfEnd
  dsimp only
  rw [if_neg fun ⟨h1, h2, h3⟩ => absurd (h h1 h2) (by unfold Config.selfcheckHalf at h3; omega)]

theorem settleDue_idle {s : State} {c : Chan} (h : nothingDue s c) : s.settleDue c = s := by
  obtain ⟨hWindow, hMax, hCheck⟩ := h
  unfold State.settleDue
  rw [windowEnd_idle hWindow, halfMax_idle hMax, selfcheckHalfEnd_idle hCheck]

/-- Settles O37: each command by what is due on the channel. -/
theorem samplesAndWindows : Obligations.SamplesAndWindows := by
  refine fun s c => ⟨fun um ub hRuns h => ?_, fun um ub h => ?_, fun h => ?_, fun h hReady => ?_, fun h hReady hSync => ?_⟩
  · show (if s.starting = true then (.next s : Answer) else .next ((s.settleDue c).setSeq c _)) = _
    rw [if_neg (by rw [hRuns]; exact Bool.false_ne_true), settleDue_idle h, takeSample_eq]
    rfl
  · show (if s.starting = true then (.next s : Answer) else _) = _
    rw [if_pos h]
  · exact congrArg Host.Outcome.next (windowEnd_idle h)
  · exact congrArg Host.Outcome.next (windowEnd_unready h hReady)
  · exact congrArg Host.Outcome.next (windowEnd_triggered h hReady hSync)

end Sys2Proof.Machine
end

section
/-! PROOFS. The edge that ends a half-period, and the edge within a run. -/

namespace Sys2Proof.Machine

/-! ### The plateau and the history (R32 to R34) -/

theorem has8_zero (b : Nat) : has8 0#8 b = false := BitVec.getLsbD_zero

/-- The flag an edge gives its plateau, as a set. -/
def flagSet (flag : Option Cond) : CondSet := flag.elim 0 fun c => CondSet.add 0 c

theorem has8_flagSet (flag : Option Cond) (b : Nat) : has8 (flagSet flag) b = true ↔ ∃ c, flag = some c ∧ b = c.bit := by
  unfold flagSet
  cases flag with
  | none => simp [has8_zero]
  | some c =>
    refine (CondSet.has8_add 0 c b).trans ?_
    simp [has8_zero]

theorem plateau_flags_eq (q : Seq) (flag : Option Cond) (settleTime : Nat) : (q.plateau flag settleTime).flags =
    if (q.windows.take (q.copy.plan.settleCount + 1)).any (·.fullScale) then (flagSet flag).add .saturated else flagSet flag := by
  unfold Seq.plateau flagSet
  cases q.windows <;> cases flag <;> rfl

theorem any_fullScale_iff (q : Seq) : (q.windows.take (q.copy.plan.settleCount + 1)).any (·.fullScale) = true ↔
    ∃ i w, i ≤ q.copy.plan.settleCount ∧ q.windows[i]? = some w ∧ w.fullScale = true := by
  simp only [List.any_eq_true, List.mem_iff_getElem?, List.getElem?_take]
  constructor
  · rintro ⟨w, ⟨i, hi⟩, hw⟩
    split_ifs at hi with h
    exact ⟨i, w, by omega, hi, hw⟩
  · rintro ⟨i, w, hi, hAt, hw⟩
    exact ⟨w, ⟨i, by rw [if_pos (by omega)]; exact hAt⟩, hw⟩

theorem plateau_flags (q : Seq) (flag : Option Cond) (settleTime : Nat) (b : Nat)
    (hFlag : flag = none ∨ flag = some .unsettled ∨ flag = some .syncMissed) :
    has8 (q.plateau flag settleTime).flags b = true ↔
      (b = 0 ∧ ∃ i w, i ≤ q.copy.plan.settleCount ∧ q.windows[i]? = some w ∧ w.fullScale = true)
        ∨ (b = 1 ∧ flag = some .unsettled) ∨ (b = 6 ∧ flag = some .syncMissed) := by
  have hEdge : (∃ c, flag = some c ∧ b = c.bit) ↔ (b = 1 ∧ flag = some .unsettled) ∨ (b = 6 ∧ flag = some .syncMissed) := by
    obtain rfl | rfl | rfl := hFlag <;> simp [Cond.bit]
  rw [plateau_flags_eq, ← any_fullScale_iff, ← hEdge, ← has8_flagSet]
  split_ifs with h
  · rw [CondSet.has8_add, or_comm]
    exact or_congr_left (and_iff_left h).symm
  · exact (or_iff_right fun k => h k.2).symm

theorem plateau_of_isPlateau {q : Seq} {flag : Option Cond} {settleTime : Nat} {p : Plateau}
    (hFlag : flag = none ∨ flag = some .unsettled ∨ flag = some .syncMissed) (h : isPlateau q flag settleTime p) :
    q.plateau flag settleTime = p := by
  obtain ⟨hPolarity, hTime, hValue, hUb, hFlags⟩ := h
  have hSame : (q.plateau flag settleTime).flags = p.flags := has8_ext fun b _ =>
    Bool.eq_iff_iff.mpr ((plateau_flags q flag settleTime b hFlag).trans (hFlags b).symm)
  obtain ⟨polarity, value, ub, time, flags⟩ := p
  dsimp only at *
  subst hPolarity hTime hValue hUb hSame
  unfold Seq.plateau
  cases q.windows <;> rfl

theorem appendPlateau_eq {h : List Plateau} (hLength : h.length ≤ 3) (p : Plateau) : appendPlateau h p = historyAfter h p := by
  match h, hLength with
  | [], _ => rfl
  | [_], _ => rfl
  | [_, _], _ => rfl
  | [_, _, _], _ => rfl

/-! ### What an edge hands on (R34, R44) -/

theorem handTriple_tripleOf (s t : State) (c : Chan) (q : Seq) (h : List Plateau) :
    t.handTriple (tripleOf s c q h) = { t with triples := t.triples ++ handedAt s c q h }
      ∧ (tripleOf s c q h).isSome = decide (handedAt s c q h ≠ []) := by
  have hNone : t = { t with triples := t.triples ++ [] } := by rw [List.append_nil]
  match h with
  | [] => exact ⟨hNone, rfl⟩
  | [_] => exact ⟨hNone, rfl⟩
  | [_, _] => exact ⟨hNone, rfl⟩
  | [p1, p2, p3] =>
    refine ⟨?_, rfl⟩
    have hSource : q.source = (match q.run, q.owner with
         | .selfcheck, _ => .selfcheck
         | .triple, some _ => .spot
         | .triple, none => .parked
         | .series, _ => .continuous
         | .none, _ => .continuous) := by
      unfold Seq.source
      cases q.run <;> cases q.owner <;> rfl
    unfold tripleOf handedAt State.handTriple
    dsimp only
    rw [hSource] <;> rfl
  | _ :: _ :: _ :: _ :: _ => exact ⟨hNone, rfl⟩

/-- The state that an edge leaves its channel's run in: the triple handed, and the sequencer given. -/
def State.handed (s : State) (c : Chan) (q : Seq) (h : List Plateau) (after : Seq) : State :=
  { s with triples := s.triples ++ handedAt s c q h, seqs := upd s.seqs c after }

/-- The sequencer of a SERIES run after an edge (R31, R37). -/
def seriesAfter (q : Seq) (h : List Plateau) : Seq := if q.stopRequest then runOver q else nextHalf q h

theorem edge_series {s : State} {c : Chan} {flag : Option Cond} {time : Nat} {h : List Plateau}
    (hHistory : appendPlateau s.seqs[c].history (s.seqs[c].plateau flag time) = h) (hRun : s.seqs[c].run = .series) :
    s.edge c flag time = (groupOfInjector s c).elim (s.handed c s.seqs[c] h (seriesAfter s.seqs[c] h)) fun l =>
      (s.handed c s.seqs[c] h (seriesAfter s.seqs[c] h)).seriesEdge l
        (decide (handedAt s c s.seqs[c] h ≠ [])) s.seqs[c].stopRequest := by
  have hNext : (if s.seqs[c].stopRequest then s.seqs[c].endRun
      else { s.seqs[c].beginHalf s.seqs[c].polarity.flip with
        history := h, half := if s.seqs[c].run = .series then s.seqs[c].half else s.seqs[c].half + 1 }) = seriesAfter s.seqs[c] h := rfl
  unfold State.edge
  dsimp only
  rw [hHistory, (handTriple_tripleOf s s c s.seqs[c] h).1, (handTriple_tripleOf s s c s.seqs[c] h).2, hNext, hRun]
  cases groupOfInjector s c <;> rfl

/-- An edge before the third half-period of a TRIPLE or SELFCHECK run (R31). -/
theorem edge_early {s : State} {c : Chan} {flag : Option Cond} {time : Nat} {h : List Plateau}
    (hHistory : appendPlateau s.seqs[c].history (s.seqs[c].plateau flag time) = h)
    (hRun : s.seqs[c].run = .triple ∨ s.seqs[c].run = .selfcheck) (hHalf : s.seqs[c].half < 3) :
    s.edge c flag time = s.handed c s.seqs[c] h (nextHalf s.seqs[c] h) := by
  have hNext : { s.seqs[c].beginHalf s.seqs[c].polarity.flip with
      history := h, half := if s.seqs[c].run = .series then s.seqs[c].half else s.seqs[c].half + 1 } = nextHalf s.seqs[c] h := rfl
  unfold State.edge
  dsimp only
  rw [hHistory, (handTriple_tripleOf s s c s.seqs[c] h).1, hNext]
  rcases hRun with hRun | hRun
  · rw [hRun]
    exact if_pos hHalf
  · rw [hRun]
    exact if_pos hHalf

/-- The third edge of an order's TRIPLE run (R36, R133). -/
theorem edge_spot {s : State} {c : Chan} {flag : Option Cond} {time : Nat} {h : List Plateau} {n : SlotId}
    (hHistory : appendPlateau s.seqs[c].history (s.seqs[c].plateau flag time) = h) (hRun : s.seqs[c].run = .triple)
    (hHalf : ¬ s.seqs[c].half < 3) (hOwner : s.seqs[c].owner = some n) :
    s.edge c flag time = (s.handed c s.seqs[c] h (runOver s.seqs[c])).orderRunDone n := by
  unfold State.edge
  dsimp only
  rw [hHistory, (handTriple_tripleOf s s c s.seqs[c] h).1, hRun, hOwner]
  exact if_neg hHalf

/-- The third edge of a PARKED turn (R36, R111). -/
theorem edge_turn {s : State} {c : Chan} {flag : Option Cond} {time : Nat} {h : List Plateau} {l : GroupId}
    (hHistory : appendPlateau s.seqs[c].history (s.seqs[c].plateau flag time) = h) (hRun : s.seqs[c].run = .triple)
    (hHalf : ¬ s.seqs[c].half < 3) (hOwner : s.seqs[c].owner = none) (hGroup : groupOfInjector s c = some l) :
    s.edge c flag time = (s.handed c s.seqs[c] h (runOver s.seqs[c])).turnDone c l := by
  unfold State.edge
  dsimp only
  rw [hHistory, (handTriple_tripleOf s s c s.seqs[c] h).1, hRun, hOwner, hGroup]
  exact if_neg hHalf

/-- The third edge of a SELFCHECK run (R36, R148). -/
theorem edge_selfcheck {s : State} {c : Chan} {flag : Option Cond} {time : Nat} {h : List Plateau} {n : SlotId}
    (hHistory : appendPlateau s.seqs[c].history (s.seqs[c].plateau flag time) = h) (hRun : s.seqs[c].run = .selfcheck)
    (hHalf : ¬ s.seqs[c].half < 3) (hOwner : s.seqs[c].owner = some n) :
    s.edge c flag time = ((s.handed c s.seqs[c] h (runOver s.seqs[c])).openReference c).orderRunDone n := by
  unfold State.edge
  dsimp only
  rw [hHistory, (handTriple_tripleOf s s c s.seqs[c] h).1, hRun, hOwner]
  exact if_neg hHalf

/-! ### Which command brings an edge (R28 to R30, R40) -/

theorem readyPoint_ready {q : Seq} (h : readyPoint q) : q.ready = none := h.2.1

theorem forEach_waiting {s : State} {c : Chan} (hWait : s.seqs[c].phase = .waitSync)
    (hOther : ∀ d : Chan, d ≠ c → s.seqs[d].phase ≠ .waitSync) (f : Chan → State → State) :
    forEach (allChans.filter fun d => s.seqs[d].phase = .waitSync) f s = f c s := by
  refine forEach_single f c _ s (allChans_nodup.filter _) (List.mem_filter.mpr ⟨mem_allChans c, decide_eq_true hWait⟩)
    fun d hd hdc _ => ?_
  exact absurd (of_decide_eq_true (List.mem_filter.mp hd).2) (hOther d hdc)

theorem exec_endsHalf {s : State} {c : Chan} {i : Instr} {q : Seq} {flag : Option Cond} {time : Nat}
    (h : EndsHalf s c i q flag time) : exec i s = .next ((s.setSeq c q).edge c flag time)
      ∧ (flag = none ∨ flag = some .unsettled ∨ flag = some .syncMissed) := by
  have hSame := setSeq_same s c
  have hLast : (s.seqs[c].windowFull = true → ¬ readyPoint s.seqs[c]) → s.windowEnd c = s.setSeq c (lastWindow s.seqs[c]) := by
    intro hUnready
    unfold lastWindow
    by_cases hFull : s.seqs[c].windowFull = true
    · rw [if_pos hFull]
      exact windowEnd_unready hFull (hUnready hFull)
    · rw [if_neg hFull, hSame]
      exact windowEnd_idle (by simpa using hFull)
  have hLastSame : (lastWindow s.seqs[c]).inHalf = s.seqs[c].inHalf ∧ (lastWindow s.seqs[c]).run = s.seqs[c].run
      ∧ (lastWindow s.seqs[c]).copy = s.seqs[c].copy ∧ (lastWindow s.seqs[c]).elapsed = s.seqs[c].elapsed
      ∧ (lastWindow s.seqs[c]).ready = s.seqs[c].ready := by
    unfold lastWindow
    split_ifs
    · exact ⟨rfl, rfl, rfl, rfl, rfl⟩
    · exact ⟨rfl, rfl, rfl, rfl, rfl⟩
  obtain ⟨hInHalf, hRunSame, hCopy, hElapsed, hReadySame⟩ := hLastSame
  have hMax (hHalf : s.seqs[c].inHalf = true) (hRun : s.seqs[c].run ≠ .selfcheck)
      (hTime : s.seqs[c].copy.plan.halfMax ≤ s.seqs[c].elapsed) : (s.setSeq c (lastWindow s.seqs[c])).halfMax c =
        s.seqs[c].ready.elim ((s.setSeq c (lastWindow s.seqs[c])).edge c (some .unsettled) s.seqs[c].copy.plan.halfMax)
          fun r => (s.setSeq c (lastWindow s.seqs[c])).edge c (some .syncMissed) r := by
    unfold State.halfMax
    dsimp only
    rw [setSeq_seq, hInHalf, hRunSame, hCopy, hElapsed, hReadySame, if_pos ⟨hHalf, hRun, hTime⟩]
    cases s.seqs[c].ready <;> rfl
  cases h with
  | ready hFull hReady hSync => exact ⟨congrArg Host.Outcome.next (windowEnd_free hFull hReady hSync), .inl rfl⟩
  | unready hHalf hRun hTime hNone hUnready =>
    refine ⟨congrArg Host.Outcome.next ?_, .inr (.inl rfl)⟩
    rw [hLast hUnready, hMax hHalf hRun hTime, hNone]
    rfl
  | missedAtMax r hHalf hRun hTime hReady =>
    refine ⟨congrArg Host.Outcome.next ?_, .inr (.inr rfl)⟩
    have hUnready : s.seqs[c].windowFull = true → ¬ readyPoint s.seqs[c] := fun _ hPoint =>
      absurd ((readyPoint_ready hPoint).symm.trans hReady) (by simp)
    rw [hLast hUnready, hMax hHalf hRun hTime, hReady]
    rfl
  | sync r hPhase hReady hOther =>
    refine ⟨congrArg Host.Outcome.next ?_, .inl rfl⟩
    rw [forEach_waiting hPhase hOther, hSame]
    exact (if_pos hPhase).trans (by rw [hReady]; rfl)
  | timeout r hPhase hReady hTimer =>
    refine ⟨congrArg Host.Outcome.next ?_, .inr (.inr rfl)⟩
    rw [if_pos (Option.isSome_iff_ne_none.mpr hTimer), hSame]
    exact (if_pos hPhase).trans (by rw [hReady]; rfl)
  | selfcheck hHalf hRun hTime =>
    refine ⟨congrArg Host.Outcome.next ?_, .inl rfl⟩
    rw [hSame]
    exact if_pos ⟨hHalf, hRun, hTime⟩

/-- The edge a command brings, from a state that shows the sequencer as the edge finds it. -/
theorem exec_edgeAt {s : State} {c : Chan} {i : Instr} {q : Seq} {h : List Plateau} (hEdge : edgeAt s c i q h) :
    ∃ (flag : Option Cond) (time : Nat), exec i s = .next ((s.setSeq c q).edge c flag time)
      ∧ appendPlateau (s.setSeq c q).seqs[c].history ((s.setSeq c q).seqs[c].plateau flag time) = h := by
  obtain ⟨flag, time, p, hEnds, hPlateau, hLength, rfl⟩ := hEdge
  obtain ⟨hExec, hFlag⟩ := exec_endsHalf hEnds
  refine ⟨flag, time, hExec, ?_⟩
  rw [setSeq_seq, plateau_of_isPlateau hFlag hPlateau, appendPlateau_eq hLength]

theorem handedAt_setSeq (s : State) (c d : Chan) (q r : Seq) (h : List Plateau) :
    handedAt (s.setSeq d r) c q h = handedAt s c q h := by
  match h with
  | [] => rfl
  | [_] => rfl
  | [_, _] => rfl
  | [_, _, _] => rfl
  | _ :: _ :: _ :: _ :: _ => rfl

theorem handed_setSeq (s : State) (c : Chan) (q r : Seq) (h : List Plateau) (x : Seq) :
    (s.setSeq c r).handed c q h x = s.handed c q h x := by
  unfold State.handed
  rw [handedAt_setSeq]
  simp only [State.setSeq, upd_upd]

theorem exec_edge_series {i : Instr} {s : State} {c : Chan} {q : Seq} {h : List Plateau} (hEdge : edgeAt s c i q h)
    (hRun : q.run = .series) : exec i s = .next ((groupOfInjector s c).elim (s.handed c q h (seriesAfter q h)) fun l =>
      (s.handed c q h (seriesAfter q h)).seriesEdge l (decide (handedAt s c q h ≠ [])) q.stopRequest) := by
  obtain ⟨flag, time, hExec, hHistory⟩ := exec_edgeAt hEdge
  have hSeq := setSeq_seq s c q
  rw [hExec, edge_series hHistory (by rw [hSeq]; exact hRun), hSeq, handed_setSeq, handedAt_setSeq]
  rfl

theorem exec_edge_early {i : Instr} {s : State} {c : Chan} {q : Seq} {h : List Plateau} (hEdge : edgeAt s c i q h)
    (hRun : q.run = .triple ∨ q.run = .selfcheck) (hHalf : q.half < 3) : exec i s = .next (s.handed c q h (nextHalf q h)) := by
  obtain ⟨flag, time, hExec, hHistory⟩ := exec_edgeAt hEdge
  have hSeq := setSeq_seq s c q
  rw [hExec, edge_early hHistory (by rw [hSeq]; exact hRun) (by rw [hSeq]; exact hHalf), hSeq, handed_setSeq]

theorem exec_edge_spot {i : Instr} {s : State} {c : Chan} {q : Seq} {h : List Plateau} {n : SlotId} (hEdge : edgeAt s c i q h)
    (hRun : q.run = .triple) (hHalf : ¬ q.half < 3) (hOwner : q.owner = some n) :
    exec i s = .next ((s.handed c q h (runOver q)).orderRunDone n) := by
  obtain ⟨flag, time, hExec, hHistory⟩ := exec_edgeAt hEdge
  have hSeq := setSeq_seq s c q
  rw [hExec, edge_spot hHistory (by rw [hSeq]; exact hRun) (by rw [hSeq]; exact hHalf) (by rw [hSeq]; exact hOwner), hSeq,
    handed_setSeq]

theorem exec_edge_turn {i : Instr} {s : State} {c : Chan} {q : Seq} {h : List Plateau} {l : GroupId} (hEdge : edgeAt s c i q h)
    (hRun : q.run = .triple) (hHalf : ¬ q.half < 3) (hOwner : q.owner = none) (hGroup : groupOfInjector s c = some l) :
    exec i s = .next ((s.handed c q h (runOver q)).turnDone c l) := by
  obtain ⟨flag, time, hExec, hHistory⟩ := exec_edgeAt hEdge
  have hSeq := setSeq_seq s c q
  rw [hExec, edge_turn hHistory (by rw [hSeq]; exact hRun) (by rw [hSeq]; exact hHalf) (by rw [hSeq]; exact hOwner) hGroup, hSeq,
    handed_setSeq]

theorem exec_edge_selfcheck {i : Instr} {s : State} {c : Chan} {q : Seq} {h : List Plateau} {n : SlotId}
    (hEdge : edgeAt s c i q h) (hRun : q.run = .selfcheck) (hHalf : ¬ q.half < 3) (hOwner : q.owner = some n) :
    exec i s = .next (((s.handed c q h (runOver q)).openReference c).orderRunDone n) := by
  obtain ⟨flag, time, hExec, hHistory⟩ := exec_edgeAt hEdge
  have hSeq := setSeq_seq s c q
  rw [hExec, edge_selfcheck hHistory (by rw [hSeq]; exact hRun) (by rw [hSeq]; exact hHalf) (by rw [hSeq]; exact hOwner), hSeq,
    handed_setSeq]

/-! ### An edge within a run (R31, R107) -/

theorem rotates_eq {g : Group} {handed : List Triple} : rotationDue g (decide (handed ≠ [])) = true ↔ rotates g handed := by
  unfold rotationDue rotates
  simp only [Bool.and_eq_true, decide_eq_true_eq]
  tauto

/-- An edge of a series that goes on counts a handed triple under ROTATE, and no more (R107). -/
theorem seriesEdge_goesOn {s : State} {l : GroupId} {g : Group} {handed : List Triple} (hGroup : s.groups[l] = some g)
    (hRotates : ¬ rotates g handed) : s.seriesEdge l (decide (handed ≠ [])) false =
      { s with groups := upd s.groups l (some { g with rotation := counterAfter g (decide (handed ≠ [])) }) } := by
  have hDue : rotationDue g (decide (handed ≠ [])) = false := by
    rw [← Bool.not_eq_true, rotates_eq]
    exact hRotates
  unfold State.seriesEdge
  rw [hGroup]
  simp only [hDue, Bool.or_false, State.rotateDue, State.detachUnclaimed, State.countEdge, Bool.false_and, Bool.false_eq_true,
    if_false, State.modGroup, hGroup, State.setGroup]

theorem seriesEdge_noGroup {s : State} {l : GroupId} (hGroup : s.groups[l] = none) (handed stopped : Bool) :
    s.seriesEdge l handed stopped = s := by
  unfold State.seriesEdge
  rw [hGroup]

/-- Settles O38: an edge's plateau and triple, then the run that goes on; and the commands that find nothing due. -/
theorem edgeWithinRun : Obligations.EdgeWithinRun := by
  refine ⟨fun i s c q h hEdge hOn => ?_, fun s c => ⟨fun hNothing => ?_, fun hNone => ?_, fun hNone => ?_⟩⟩
  · rcases hOn with ⟨hRun, hStop, hDue⟩ | ⟨hRun, hHalf⟩
    · rw [exec_edge_series hEdge hRun, hStop]
      have hAfter : seriesAfter q h = nextHalf q h := by
        unfold seriesAfter
        rw [hStop]
        rfl
      rw [hAfter]
      cases hInject : groupOfInjector s c with
      | none => exact ⟨_, rfl, rfl, fun l => ⟨fun _ k => absurd k (by simp), fun _ => rfl⟩⟩
      | some m =>
        refine ⟨_, rfl, ?_⟩
        dsimp only [Option.elim]
        cases hGroup : s.groups[m] with
        | none =>
          rw [seriesEdge_noGroup (s := s.handed c q h (nextHalf q h)) hGroup]
          refine ⟨rfl, fun l => ⟨fun _ k _ => ?_, fun _ => rfl⟩⟩
          cases k
          show s.groups[m] = _
          rw [hGroup]
          rfl
        | some g =>
          have hNot : ¬ rotates g (handedAt s c q h) := fun ⟨h1, h2, h3⟩ => absurd (hDue m g hInject hGroup h1 h2) (by omega)
          rw [seriesEdge_goesOn (s := s.handed c q h (nextHalf q h)) hGroup hNot]
          refine ⟨rfl, fun l => ⟨fun _ k hHanded => ?_, fun k => ?_⟩⟩
          · cases k
            show (upd s.groups m _)[m] = _
            rw [upd_same, hGroup]
            unfold counterAfter
            simp only [decide_eq_true hHanded, true_and, Option.map_some]
            split_ifs <;> rfl
          · show (upd s.groups m _)[l] = _
            by_cases hl : m = l
            · subst hl
              have hEmpty : handedAt s c q h = [] := (k.resolve_left (not_not_intro hRun)).resolve_left (not_not_intro rfl)
              rw [upd_same, hGroup, hEmpty]
              rfl
            · exact upd_other _ _ _ _ hl
    · rw [exec_edge_early hEdge hRun hHalf]
      refine ⟨_, rfl, rfl, fun l => ⟨fun hSeries => ?_, fun _ => rfl⟩⟩
      rw [hSeries] at hRun
      exact absurd hRun (by decide)
  · obtain ⟨hWindow, hMax, hCheck⟩ := hNothing
    refine ⟨congrArg Host.Outcome.next ?_, congrArg Host.Outcome.next (selfcheckHalfEnd_idle hCheck)⟩
    rw [windowEnd_idle hWindow, halfMax_idle hMax]
  · have hEmpty : (allChans.filter fun d => s.seqs[d].phase = .waitSync) = [] :=
      List.filter_eq_nil_iff.mpr fun d _ => by simpa using hNone d
    show Host.Outcome.next (forEach (allChans.filter fun d => s.seqs[d].phase = .waitSync) _ s) = _
    rw [hEmpty]
    rfl
  · refine congrArg Host.Outcome.next ?_
    rcases hNone with hNone | hNone
    · exact if_neg (by rw [hNone]; decide)
    · have hEnd : s.endWait c (some .syncMissed) = s := if_neg hNone
      rw [hEnd, ite_self]

end Sys2Proof.Machine
end

section
/-! PROOFS. A passing detach verify, and what holds an attach back. -/

namespace Sys2Proof.Machine

/-! ### What holds an attach back (R11, R144) -/

theorem groupOfInjector_group {s : State} {c : Chan} {l : GroupId} (h : groupOfInjector s c = some l) :
    ∃ g : Group, s.groups[l] = some g ∧ g.injector = some c := by
  have hFound := List.find?_some h
  cases hGroup : s.groups[l] with
  | none =>
    rw [hGroup] at hFound
    exact absurd hFound (by simp)
  | some g =>
    rw [hGroup] at hFound
    exact ⟨g, rfl, by simpa using hFound⟩

theorem mayAttach_iff {s : State} {c : Chan} {l : GroupId} {g : Group} (hInject : groupOfInjector s c = some l)
    (hGroup : s.groups[l] = some g) : mayAttach s c = true ↔ s.mode ≠ .safeStop
      ∧ ∀ d : Chan, d = c ∨ wiredInto s d g.members = true → s.safety[d].verify = none := by
  unfold mayAttach
  rw [hInject]
  dsimp only
  rw [hGroup]
  simp only [Bool.and_eq_true, decide_eq_true_eq, List.all_eq_true, Bool.not_eq_true', Bool.and_eq_false_imp,
    Option.isSome_eq_false_iff, Option.isNone_iff_eq_none, and_assoc]
  refine and_congr_right fun _ => ⟨fun ⟨hOwn, hWired⟩ d hd => ?_, fun h => ⟨h c (.inl rfl), fun d _ hd => h d (.inr hd)⟩⟩
  rcases hd with rfl | hd
  · exact hOwn
  · exact hWired d (mem_allChans d) hd

theorem mayAttach_injects {s : State} {c : Chan} (h : mayAttach s c = true) : ∃ l : GroupId, groupOfInjector s c = some l := by
  unfold mayAttach at h
  cases hInject : groupOfInjector s c with
  | none =>
    rw [hInject] at h
    exact absurd h (by simp)
  | some l => exact ⟨l, rfl⟩

/-! ### Attaches and references that go ahead -/

theorem tryAttach_frame (s : State) (c : Chan) : s.tryAttach c = { s with seqs := (s.tryAttach c).seqs } := by
  unfold State.tryAttach
  dsimp only
  split_ifs <;> rfl

theorem tryAttach_other (s : State) {c d : Chan} (h : c ≠ d) : (s.tryAttach c).seqs[d] = s.seqs[d] := by
  unfold State.tryAttach
  dsimp only
  split_ifs
  · exact upd_other _ _ _ _ h
  · rfl

theorem tryAttach_seq (s : State) (c : Chan) : (s.tryAttach c).seqs[c] =
    if (s.seqs[c].run = .series ∨ s.seqs[c].run = .triple) ∧ s.seqs[c].phase = .waitAttach ∧ mayAttach s c = true then
      { halfBegun s.seqs[c] s.seqs[c].copy.plan.startPol with coupling := .attached }
    else s.seqs[c] := by
  unfold State.tryAttach
  dsimp only
  split_ifs
  · exact upd_same _ _ _
  · rfl

theorem mayAttach_seqs (s : State) (seqs : Vector Seq 4) (c : Chan) : mayAttach { s with seqs := seqs } c = mayAttach s c := rfl

/-- A pass of attaches, channel by channel: each goes ahead by what stood before the pass. -/
theorem attachAll (s : State) : forEach allChans (fun d t => t.tryAttach d) s =
      { s with seqs := (forEach allChans (fun d t => t.tryAttach d) s).seqs }
    ∧ ∀ d : Chan, (forEach allChans (fun d t => t.tryAttach d) s).seqs[d] = (s.tryAttach d).seqs[d] := by
  have hFrame : ∀ (l : List Chan) (t : State), t = { s with seqs := t.seqs } →
      forEach l (fun d t => t.tryAttach d) t = { s with seqs := (forEach l (fun d t => t.tryAttach d) t).seqs } :=
    fun l t ht => forEach_keeps (P := fun u => u = { s with seqs := u.seqs }) _ l t ht fun d _ u hu => by
      have hOne := tryAttach_frame u d
      rw [hOne]
      generalize (u.tryAttach d).seqs = seqs
      rw [hu]
  refine ⟨hFrame allChans s rfl, fun d => ?_⟩
  obtain ⟨t, hInv, hView, hEnd⟩ := (forEach_own (fun d t => State.tryAttach t d) (fun t : State => t.seqs[d])
    (fun t => t = { s with seqs := t.seqs }) d allChans s allChans_nodup rfl (fun e _ u hu => by
      have hOne := tryAttach_frame u e
      show u.tryAttach e = { s with seqs := (u.tryAttach e).seqs }
      rw [hOne]
      generalize (u.tryAttach e).seqs = seqs
      rw [hu]) fun e _ he u _ => tryAttach_other u he).2 (mem_allChans d)
  have hMay : mayAttach t d = mayAttach s d := by
    rw [hInv]
    rfl
  rw [hEnd, tryAttach_seq, tryAttach_seq, hMay, hView]

theorem tryReference_waiting {s : State} {c : Chan} (hVerify : s.safety[c].verify = none) (h : waitsForReference s c) :
    s.tryReference c = (s.setSeq c (halfBegun s.seqs[c] .pos)).setSafety c { s.safety[c] with reference := true } := by
  obtain ⟨hRun, hPhase, hDetached⟩ := h
  exact if_pos ⟨hRun, hPhase, hDetached, hVerify⟩

theorem tryReference_idle {s : State} {c : Chan} (h : ¬ waitsForReference s c) : s.tryReference c = s :=
  if_neg fun ⟨h1, h2, h3, _⟩ => h ⟨h1, h2, h3⟩

/-- What a channel's run waits for once a verify has ended: the attach, if nothing else holds it back. -/
theorem attaches_iff (s : State) (c d : Chan) (u : State) (hSafety : ∀ e : Chan, u.safety[e].verify = if e = c then none else s.safety[e].verify)
    (hMode : u.mode = s.mode) (hGroups : u.groups = s.groups) (hWiring : u.wiring = s.wiring) :
    (s.seqs[d].run = .series ∨ s.seqs[d].run = .triple) ∧ s.seqs[d].phase = .waitAttach ∧ mayAttach u d = true ↔
      waitsForVerifyOf s c d := by
  have hInjector : groupOfInjector u d = groupOfInjector s d := by
    unfold groupOfInjector
    rw [hGroups]
  have hWired (e : Chan) (m : BitVec 8) : wiredInto u e m = wiredInto s e m := by
    unfold wiredInto
    rw [hWiring]
  unfold waitsForVerifyOf
  refine and_congr_right fun _ => and_congr_right fun _ => ?_
  cases hInject : groupOfInjector s d with
  | none => exact iff_of_false (fun h => by
      obtain ⟨l, hl⟩ := mayAttach_injects h
      rw [hInjector, hInject] at hl
      exact nomatch hl) fun ⟨_, l, hl, _⟩ => nomatch hl
  | some l =>
    obtain ⟨g, hGroup, -⟩ := groupOfInjector_group hInject
    have hMembers : membersOf s l = g.members := by
      unfold membersOf
      rw [hGroup]
    rw [mayAttach_iff (hInjector.trans hInject) (by rw [hGroups]; exact hGroup), hMode]
    refine and_congr_right fun _ => ⟨fun h => ⟨l, rfl, fun e he hec => ?_⟩, fun ⟨m, hm, h⟩ e he => ?_⟩
    · have hNone := h e (by rwa [hWired, ← hMembers])
      rwa [hSafety, if_neg hec] at hNone
    · cases hm
      rw [hSafety]
      split_ifs with hec
      · rfl
      · exact h e (by rwa [hMembers, ← hWired]) hec

/-- Settles O55: the verify's end, the reference it frees, and the pass of attaches. -/
theorem detachVerifyPasses : Obligations.DetachVerifyPasses := by
  refine fun s c => ⟨fun closed h => congrArg Host.Outcome.next (if_pos (by simpa using h)), fun hRuns hVerify => ?_⟩
  have hStep : s.verifyExpiry c false = forEach allChans (fun d t => t.tryAttach d) ((s.endVerify c).tryReference c) := by
    unfold State.verifyExpiry
    rw [if_neg fun h => h.elim (fun k => absurd (hRuns.symm.trans k) (by decide)) hVerify]
    rfl
  have hEnded : (s.endVerify c).safety[c] = { s.safety[c] with verify := none } := upd_same _ _ _
  have hOthers (d : Chan) (h : d ≠ c) : (s.endVerify c).safety[d] = s.safety[d] := upd_other _ _ _ _ (Ne.symm h)
  have hReference : ∃ u : State, (s.endVerify c).tryReference c = u ∧ u = { s with seqs := u.seqs, safety := u.safety }
      ∧ (∀ d : Chan, d ≠ c → u.safety[d] = s.safety[d] ∧ u.seqs[d] = s.seqs[d])
      ∧ (waitsForReference s c → u.safety[c] = { s.safety[c] with verify := none, reference := true }
          ∧ u.seqs[c] = halfBegun s.seqs[c] .pos)
      ∧ (¬ waitsForReference s c → u.safety[c] = { s.safety[c] with verify := none } ∧ u.seqs[c] = s.seqs[c]) := by
    by_cases hWaits : waitsForReference s c
    · refine ⟨_, tryReference_waiting (s := s.endVerify c) (by rw [hEnded]) hWaits, rfl, fun d hd => ⟨?_, ?_⟩, fun _ => ⟨?_, ?_⟩,
        fun h => absurd hWaits h⟩
      · exact (upd_other _ _ _ _ (Ne.symm hd)).trans (hOthers d hd)
      · exact upd_other _ _ _ _ (Ne.symm hd)
      · refine (upd_same _ _ _).trans ?_
        rw [hEnded]
      · exact upd_same _ _ _
    · exact ⟨_, tryReference_idle (s := s.endVerify c) hWaits, rfl, fun d hd => ⟨hOthers d hd, rfl⟩, fun h => absurd h hWaits,
        fun _ => ⟨hEnded, rfl⟩⟩
  obtain ⟨u, hU, hFrame, hRest, hRef, hNoRef⟩ := hReference
  obtain ⟨hAttachFrame, hAttach⟩ := attachAll u
  have hUVerify (e : Chan) : u.safety[e].verify = if e = c then none else s.safety[e].verify := by
    split_ifs with h
    · subst h
      by_cases hWaits : waitsForReference s e
      · rw [(hRef hWaits).1]
      · rw [(hNoRef hWaits).1]
    · rw [(hRest e h).1]
  have hFields : u.mode = s.mode ∧ u.groups = s.groups ∧ u.wiring = s.wiring := by
    rw [hFrame]
    exact ⟨rfl, rfl, rfl⟩
  have hAttaches (d : Chan) := attaches_iff s c d u hUVerify hFields.1 hFields.2.1 hFields.2.2
  have hSafety : (forEach allChans (fun d t => t.tryAttach d) u).safety = u.safety := by rw [hAttachFrame]
  -- a channel whose reference connects is no channel whose attach goes ahead
  have hSeq (d : Chan) (h : d = c → ¬ waitsForReference s c) : u.seqs[d] = s.seqs[d] := by
    by_cases hd : d = c
    · subst hd
      exact (hNoRef (h rfl)).2
    · exact (hRest d hd).2
  have hNotBoth (d : Chan) (h : waitsForVerifyOf s c d) : d = c → ¬ waitsForReference s c := by
    rintro rfl ⟨hRun, -⟩
    obtain ⟨hKind, -⟩ := h
    rw [hRun] at hKind
    exact absurd hKind (by decide)
  refine ⟨forEach allChans (fun d t => t.tryAttach d) u, ?_, ?_, fun d hd => ?_, fun h => ?_, fun h => ?_, fun d h => ?_,
    fun d h hd => ?_⟩
  · show Host.Outcome.next (s.verifyExpiry c false) = _
    rw [hStep, hU]
  · rw [hAttachFrame]
    generalize (forEach allChans (fun d t => t.tryAttach d) u).seqs = seqs
    rw [hFrame]
  · rw [hSafety]
    exact (hRest d hd).1
  · rw [hSafety, hAttach]
    refine ⟨(hRef h).1, ?_⟩
    have hKind : ¬ (s.seqs[c].run = .series ∨ s.seqs[c].run = .triple) := by
      rw [h.1]
      decide
    rw [tryAttach_seq, (hRef h).2, if_neg fun k => hKind k.1]
  · rw [hSafety]
    exact (hNoRef h).1
  · rw [hAttach, tryAttach_seq, hSeq d (hNotBoth d h), if_pos ((hAttaches d).mpr h)]
  · rw [hAttach, tryAttach_seq, hSeq d hd, if_neg fun k => h ((hAttaches d).mp k)]

end Sys2Proof.Machine
end

section
/-! PROOFS. The scheduler where no order waits: what each of its decisions brings. -/

namespace Sys2Proof.Machine

/-! ### Channels without a run are detached (R36) -/

/-- A channel left ATTACHED without a run, once it is commanded detached. -/
theorem detach_attached {s : State} {c : Chan} (hRun : s.seqs[c].run = .none) (h : s.seqs[c].coupling = .attached) :
    s.detach c = (s.setSeq c { s.seqs[c] with coupling := .detached }).setSafety c { s.safety[c] with verify := some 5 } := by
  have hAbandon : s.abandonRun c = s := by
    unfold State.abandonRun
    dsimp only
    rw [hRun]
    exact if_neg (by decide)
  unfold State.detach
  rw [if_pos h, hAbandon]
  rfl

theorem detach_detached {s : State} {c : Chan} (h : s.seqs[c].coupling ≠ .attached) : s.detach c = s := if_neg h

/-- What the last step of a decision leaves of one channel. -/
def chanView (c : Chan) (s : State) : Seq × ChanSafety := (s.seqs[c], s.safety[c])

theorem chanView_eq {c : Chan} {s t : State} (hSeq : t.seqs[c] = s.seqs[c]) (hSafety : t.safety[c] = s.safety[c]) :
    chanView c t = chanView c s := Prod.ext hSeq hSafety

/-- The channel rests: no run, and so detached. -/
def restedSeq (q : Seq) : Seq := if q.run = .none then { q with coupling := .detached } else q

def restedSafety (q : Seq) (x : ChanSafety) : ChanSafety :=
  if q.run = .none ∧ q.coupling = .attached then { x with verify := some 5 } else x

theorem detachIdle_step (t : State) (c : Chan) : (if t.seqs[c].run = .none then t.detach c else t) = { t with
    seqs := upd t.seqs c (restedSeq t.seqs[c]), safety := upd t.safety c (restedSafety t.seqs[c] t.safety[c]) } := by
  have hSame : t = { t with seqs := upd t.seqs c t.seqs[c], safety := upd t.safety c t.safety[c] } := by simp [upd]
  unfold restedSeq restedSafety
  split_ifs with hRun hBoth hBoth
  · exact detach_attached hRun hBoth.2
  · have hDetached : t.seqs[c].coupling = .detached := by
      cases h : t.seqs[c].coupling with
      | detached => rfl
      | attached => exact absurd ⟨hRun, h⟩ hBoth
    rw [detach_detached (by rw [hDetached]; decide), ← hDetached]
    exact hSame
  · exact absurd hBoth.1 hRun
  · exact hSame

theorem detachIdle_frame (s : State) : s.detachIdle = { s with seqs := s.detachIdle.seqs, safety := s.detachIdle.safety } :=
  forEach_keeps (P := fun t => t = { s with seqs := t.seqs, safety := t.safety }) _ allChans s rfl fun c _ t ht => by
    have hStep := detachIdle_step t c
    rw [hStep]
    generalize upd t.seqs c _ = seqs, upd t.safety c _ = safety
    rw [ht]

theorem detachIdle_chan (s : State) (c : Chan) :
    s.detachIdle.seqs[c] = restedSeq s.seqs[c] ∧ s.detachIdle.safety[c] = restedSafety s.seqs[c] s.safety[c] := by
  obtain ⟨t, -, hView, hEnd⟩ := (forEach_own (fun (c : Chan) (t : State) => if t.seqs[c].run = .none then t.detach c else t)
    (chanView c) (fun _ => True) c allChans s allChans_nodup trivial (fun _ _ _ _ => trivial) fun d _ hd t _ => by
      rw [detachIdle_step]
      exact chanView_eq (upd_other _ _ _ _ hd) (upd_other _ _ _ _ hd)).2 (mem_allChans c)
  replace hEnd : chanView c s.detachIdle = chanView c (if t.seqs[c].run = .none then t.detach c else t) := hEnd
  have hSeq := congrArg Prod.fst hView
  have hSafety := congrArg Prod.snd hView
  have hEndSeq := congrArg Prod.fst hEnd
  have hEndSafety := congrArg Prod.snd hEnd
  rw [detachIdle_step] at hEndSeq hEndSafety
  unfold chanView at hSeq hSafety hEndSeq hEndSafety
  dsimp only at hSeq hSafety hEndSeq hEndSafety
  rw [upd_same, hSeq] at hEndSeq
  rw [upd_same, hSeq, hSafety] at hEndSafety
  exact ⟨hEndSeq, hEndSafety⟩

theorem restedSeq_self {q : Seq} (h : q.run = .none → q.coupling = .detached) : restedSeq q = q := by
  unfold restedSeq
  split_ifs with hRun
  · rw [← h hRun]
  · rfl

theorem restedSafety_self {q : Seq} (h : q.run = .none → q.coupling = .detached) (x : ChanSafety) : restedSafety q x = x := by
  unfold restedSafety
  rw [if_neg fun ⟨hRun, hAttached⟩ => by rw [h hRun] at hAttached; exact nomatch hAttached]

theorem detachIdle_idle {s : State} (h : ∀ c : Chan, s.seqs[c].run = .none → s.seqs[c].coupling = .detached) : s.detachIdle = s :=
  forEach_unchanged _ _ _ fun c _ => by
    split_ifs with hRun
    · exact detach_detached (by rw [h c hRun]; decide)
    · rfl

/-! ### Decisions without a waiting order -/

/-- No order waits. -/
def noneWaits (s : State) : Prop := ∀ o ∈ s.intake, o.phase ≠ .waiting

theorem frontOf_noneWaits {s : State} (h : noneWaits s) (l : GroupId) : frontOf s l = none :=
  List.find?_eq_none.mpr fun o ho => by simp [h o ho]

theorem requestStop_noneWaits {s : State} (h : noneWaits s) (l : GroupId) : s.requestStop l = s := by
  unfold State.requestStop
  cases hGroup : s.groups[l] with
  | none => rfl
  | some g =>
    cases hInjector : g.injector with
    | none => simp [hInjector]
    | some c => simp [hInjector, frontOf_noneWaits h l]

theorem requestStops_noneWaits {s : State} (h : noneWaits s) : forEach allNodes (fun l t => t.requestStop l) s = s :=
  forEach_unchanged _ _ _ fun l _ => requestStop_noneWaits h l

theorem grantable_noneWaits {s : State} (h : noneWaits s) : (s.intake.find? fun o => grantable s o) = none :=
  List.find?_eq_none.mpr fun o _ => by simp [grantable, frontOf_noneWaits h]

/-- With no order waiting the scheduler decides on runs of its own alone. -/
theorem scheduleOne_noneWaits {s : State} (h : noneWaits s) : scheduleOne s =
    if s.mode = .run then (allNodes.find? fun l => startable s l).map fun l => s.startOwn l .series .series
    else if s.mode = .parked ∧ s.park = .due ∧ permissionFree s = true then
      (s.rotation.find? fun l => startable s l).map fun l => s.startTurn l
    else none := by
  unfold scheduleOne
  rw [grantable_noneWaits h]
  cases hMode : s.mode <;> simp

theorem scheduleAll_none {s : State} {n : Nat} (h : noneWaits s) (hOne : scheduleOne s = none) : scheduleAll n s = s := by
  cases n with
  | zero => rfl
  | succ n =>
    unfold scheduleAll
    dsimp only
    rw [requestStops_noneWaits h, hOne]

theorem scheduleAll_some {s t : State} {n : Nat} (h : noneWaits s) (hOne : scheduleOne s = some t) :
    scheduleAll (n + 1) s = scheduleAll n t := by
  rw [scheduleAll]
  rw [requestStops_noneWaits h, hOne]

/-- In IDLE and in SAFE_STOP, where no order waits, the scheduler has nothing to decide. -/
theorem schedule_idle {s : State} (h : noneWaits s) (hMode : s.mode ≠ .run) (hParked : s.mode ≠ .parked) :
    s.schedule = s.detachIdle := by
  unfold State.schedule
  rw [scheduleAll_none h (by rw [scheduleOne_noneWaits h, if_neg hMode, if_neg fun k => hParked k.1])]

/-! ### A run that starts (R23) -/

/-- The sequencer of a channel on which a SERIES or TRIPLE run has just started. -/
def runStarted (s : State) (c : Chan) (kind : RunKind) (owner : Option SlotId) (copy : RunCopy) : Seq :=
  if s.seqs[c].coupling = .attached ∨ mayAttach s c = true then
    { firstHalf s.seqs[c] kind owner copy copy.plan.startPol with coupling := .attached }
  else waitingRun s.seqs[c] kind owner copy

theorem setUp_firstHalf (q : Seq) (kind : RunKind) (owner : Option SlotId) (copy : RunCopy) (pol : Polarity) :
    (q.setUp kind owner copy).beginHalf pol = firstHalf q kind owner copy pol := rfl

theorem setUp_waiting (q : Seq) (kind : RunKind) (owner : Option SlotId) (copy : RunCopy) :
    q.setUp kind owner copy = waitingRun q kind owner copy := rfl

/-- The safety entry of a channel on which a run starts: the reference of a run in flight opens. -/
def safetyStarted (s : State) (c : Chan) : ChanSafety :=
  if s.seqs[c].run = .none then s.safety[c] else { s.safety[c] with reference := false }

theorem safetyStarted_verify (s : State) (c : Chan) : (safetyStarted s c).verify = s.safety[c].verify := by
  unfold safetyStarted
  split_ifs <;> rfl

theorem safetyStarted_verifies (s : State) (c d : Chan) :
    (upd s.safety c (safetyStarted s c))[d].verify = s.safety[d].verify := by
  by_cases hd : c = d
  · subst hd
    rw [upd_same, safetyStarted_verify]
  · rw [upd_other _ _ _ _ hd]

/-- An attach is held back by groups, mode, wiring and verifies alone. -/
theorem mayAttach_congr {s t : State} (hGroups : ∀ l : GroupId, (t.groups[l]).map (fun g => (g.members, g.injector)) =
      (s.groups[l]).map fun g => (g.members, g.injector))
    (hMode : t.mode = s.mode) (hWiring : t.wiring = s.wiring) (hVerify : ∀ d : Chan, t.safety[d].verify = s.safety[d].verify)
    (c : Chan) : mayAttach t c = mayAttach s c := by
  have hInject : groupOfInjector t c = groupOfInjector s c := by
    unfold groupOfInjector
    refine congrArg (fun f => List.find? f allNodes) (funext fun l => ?_)
    have hSame := hGroups l
    cases hs : s.groups[l] <;> cases ht : t.groups[l] <;> simp_all
  have hWired (d : Chan) (m : BitVec 8) : wiredInto t d m = wiredInto s d m := by
    unfold wiredInto
    rw [hWiring]
  cases hGroup : groupOfInjector s c with
  | none =>
    unfold mayAttach
    rw [hInject, hGroup]
  | some l =>
    obtain ⟨g, hg, -⟩ := groupOfInjector_group hGroup
    have hSame := hGroups l
    rw [hg] at hSame
    obtain ⟨g', hg', hEq⟩ := Option.map_eq_some_iff.mp hSame
    have hMembers : g'.members = g.members := congrArg Prod.fst hEq
    refine Bool.eq_iff_iff.mpr ((mayAttach_iff (hInject.trans hGroup) hg').trans ((mayAttach_iff hGroup hg).trans ?_).symm)
    rw [hMode, hMembers]
    simp only [hWired, hVerify]

theorem startRun_eq {s : State} {c : Chan} {kind : RunKind} (hKind : kind = .series ∨ kind = .triple) (owner : Option SlotId)
    (copy : RunCopy) : s.startRun c kind owner copy = { s with
      seqs := upd s.seqs c (runStarted s c kind owner copy), safety := upd s.safety c (safetyStarted s c) } := by
  have hDropped : (if s.seqs[c].run = .none then s else s.dropRun c) = { s with
      seqs := upd s.seqs c (if s.seqs[c].run = .none then s.seqs[c] else s.seqs[c].endRun)
      safety := upd s.safety c (safetyStarted s c) } := by
    unfold safetyStarted
    split_ifs
    · simp [upd]
    · rfl
  have hSetUp : (if s.seqs[c].run = .none then s.seqs[c] else s.seqs[c].endRun).setUp kind owner copy =
      waitingRun s.seqs[c] kind owner copy := by
    split_ifs <;> rfl
  unfold State.startRun
  dsimp only
  rw [hDropped]
  dsimp only
  rw [upd_same, hSetUp]
  have hMay : mayAttach { s with
      seqs := upd s.seqs c (waitingRun s.seqs[c] kind owner copy), safety := upd s.safety c (safetyStarted s c) } c = mayAttach s c := by
    refine mayAttach_congr ?_ ?_ ?_ ?_ c
    · exact fun _ => rfl
    · rfl
    · rfl
    · exact safetyStarted_verifies s c
  unfold runStarted
  have hAttached : (waitingRun s.seqs[c] kind owner copy).coupling = s.seqs[c].coupling := rfl
  simp only [State.setSeq, upd_upd, hAttached]
  by_cases hCoupling : s.seqs[c].coupling = .attached
  · rw [if_pos hCoupling, if_pos (.inl hCoupling)]
    have hFirst : (waitingRun s.seqs[c] kind owner copy).beginHalf copy.plan.startPol =
        { firstHalf s.seqs[c] kind owner copy copy.plan.startPol with coupling := .attached } := by
      rw [← hCoupling]
      rfl
    rw [hFirst]
  · rw [if_neg hCoupling]
    generalize hU : ({ s with
      seqs := upd s.seqs c (waitingRun s.seqs[c] kind owner copy), safety := upd s.safety c (safetyStarted s c) } : State) = u at *
    have hSeq : u.seqs[c] = waitingRun s.seqs[c] kind owner copy := by
      rw [← hU]
      exact upd_same _ _ _
    have hRun : (waitingRun s.seqs[c] kind owner copy).run = .series ∨ (waitingRun s.seqs[c] kind owner copy).run = .triple := hKind
    unfold State.tryAttach
    dsimp only
    rw [hSeq, hMay]
    by_cases hHeld : mayAttach s c = true
    · rw [if_pos ⟨hRun, rfl, hHeld⟩, if_pos (.inr hHeld), ← hU]
      simp only [State.setSeq, upd_upd]
      rfl
    · rw [if_neg fun k => hHeld k.2.2, if_neg fun k => k.elim hCoupling hHeld, ← hU]

/-! ### The scheduler's own runs (R106, R110) -/

/-- A group that the scheduler's own run has just taken. -/
def ownGroup (s : State) (g : Group) (state : SeriesState) (p : PlanId) : Group :=
  { g with
    series := state, policy := s.plans[p].policy, rotateCount := s.plans[p].rotate, rotation := 0
    seriesCount := g.seriesCount + 1 }

theorem modGroup_some {s : State} {l : GroupId} {g : Group} (h : s.groups[l] = some g) (f : Group → Group) :
    s.modGroup l f = { s with groups := upd s.groups l (some (f g)) } := by
  unfold State.modGroup
  rw [h]
  rfl

theorem setOwn_countSeries {s : State} {l : GroupId} {g : Group} (h : s.groups[l] = some g) (state : SeriesState) (p : PlanId) :
    (s.setOwn l state p).countSeries l = { s with groups := upd s.groups l (some (ownGroup s g state p)) } := by
  unfold State.setOwn State.countSeries
  rw [modGroup_some h, modGroup_some (upd_same _ _ _)]
  simp only [upd_upd]
  rfl

/-- A SERIES run of the scheduler's own (R106). -/
theorem startOwn_series {s : State} {l : GroupId} {g : Group} {c : Chan} {p : PlanId} (hGroup : s.groups[l] = some g)
    (hPlan : s.nodePlan[l] = some p) (hInject : g.injector = some c) : s.startOwn l .series .series = { s with
      groups := upd s.groups l (some (ownGroup s g .series p))
      seqs := upd s.seqs c (runStarted s c .series none (runCopy s c p)), safety := upd s.safety c (safetyStarted s c) } := by
  have hMay : mayAttach { s with groups := upd s.groups l (some (ownGroup s g .series p)) } c = mayAttach s c := by
    refine mayAttach_congr (fun m => ?_) ?_ ?_ ?_ c
    · show ((upd s.groups l _)[m]).map _ = _
      by_cases hm : l = m
      · subst hm
        rw [upd_same, hGroup]
        rfl
      · rw [upd_other _ _ _ _ hm]
    · rfl
    · rfl
    · exact fun _ => rfl
  unfold State.startOwn
  rw [hGroup, hPlan]
  dsimp only
  rw [hInject]
  dsimp only
  rw [show (s.setOwn l .series p).detachForTurn c .series = s.setOwn l .series p from if_neg (by decide),
    setOwn_countSeries hGroup, startRun_eq (.inl rfl)]
  unfold runStarted safetyStarted
  rw [hMay]

end Sys2Proof.Machine
end

section
/-! PROOFS. The scheduler's own runs in RUN, where no order waits, group by group. -/

namespace Sys2Proof.Machine

/-! ### A SERIES run of the scheduler's own touches its group and its injector -/

/-- Everything a run of the scheduler's own leaves, but one group and one channel. -/
structure OwnRun (l : GroupId) (s t : State) : Prop where
  frame : t = { s with groups := t.groups, seqs := t.seqs, safety := t.safety }
  others : ∀ m : GroupId, m ≠ l → t.groups[m] = s.groups[m]
  shape : ∀ m : GroupId, (t.groups[m]).map (fun g => (g.members, g.injector)) = (s.groups[m]).map fun g => (g.members, g.injector)
  chans : ∀ d : Chan, injectorOf s l ≠ some d → chanView d t = chanView d s
  verifies : ∀ d : Chan, t.safety[d].verify = s.safety[d].verify

theorem OwnRun.refl (l : GroupId) (s : State) : OwnRun l s s := ⟨rfl, fun _ _ => rfl, fun _ => rfl, fun _ _ => rfl, fun _ => rfl⟩

theorem startOwn_nothing {s : State} {l : GroupId} (h : ∀ (g : Group) (c : Chan) (p : PlanId), s.groups[l] = some g →
    g.injector = some c → s.nodePlan[l] ≠ some p) (state : SeriesState) (kind : RunKind) : s.startOwn l state kind = s := by
  unfold State.startOwn
  cases hGroup : s.groups[l] with
  | none => rfl
  | some g =>
    cases hPlan : s.nodePlan[l] with
    | none => rfl
    | some p =>
      cases hInject : g.injector with
      | none => simp [hInject]
      | some c => exact absurd hPlan (h g c p hGroup hInject)

theorem startOwn_ownRun (s : State) (l : GroupId) : OwnRun l s (s.startOwn l .series .series) := by
  by_cases h : ∃ (g : Group) (c : Chan) (p : PlanId), s.groups[l] = some g ∧ g.injector = some c ∧ s.nodePlan[l] = some p
  · obtain ⟨g, c, p, hGroup, hInject, hPlan⟩ := h
    have hOf : injectorOf s l = some c := by
      unfold injectorOf
      rw [hGroup]
      exact hInject
    rw [startOwn_series hGroup hPlan hInject]
    refine ⟨rfl, fun m hm => upd_other _ _ _ _ (Ne.symm hm), fun m => ?_, fun d hd => ?_, safetyStarted_verifies s c⟩
    · show ((upd s.groups l _)[m]).map _ = _
      by_cases hm : l = m
      · subst hm
        rw [upd_same, hGroup]
        rfl
      · rw [upd_other _ _ _ _ hm]
    · have hOther : c ≠ d := fun e => hd (e ▸ hOf)
      exact chanView_eq (upd_other _ _ _ _ hOther) (upd_other _ _ _ _ hOther)
  · rw [startOwn_nothing fun g c p h1 h2 h3 => h ⟨g, c, p, h1, h2, h3⟩]
    exact OwnRun.refl l s

/-! ### Which groups the scheduler starts -/

theorem readyPlan_isSome {s : State} {l : GroupId} : (readyPlan s l).isSome = true ↔
    ∃ p : PlanId, s.nodePlan[l] = some p ∧ s.plans[p].ready = true := by
  unfold readyPlan nodePlanCopy
  cases s.nodePlan[l] with
  | none => simp
  | some p =>
    simp

theorem readyPlan_some {s : State} {l : GroupId} {p : PlanId} (hPlan : s.nodePlan[l] = some p) (hReady : s.plans[p].ready = true) :
    readyPlan s l = some s.plans[p] := by
  unfold readyPlan nodePlanCopy
  rw [hPlan]
  exact if_pos hReady

theorem startable_iff {s : State} (h : noneWaits s) (l : GroupId) : startable s l = true ↔
    (∃ (g : Group) (c : Chan) (p : PlanId), readyToMeasure s l g c p) ∧ checkInProgress s l = false := by
  unfold startable readyToMeasure
  rw [frontOf_noneWaits h]
  simp only [Option.isNone_none, Bool.and_true, Bool.and_eq_true, readyPlan_isSome, Bool.not_eq_true']
  refine and_congr_left fun _ => ?_
  cases s.groups[l] with
  | none => simp
  | some g =>
    simp only [Bool.and_eq_true, decide_eq_true_eq, Option.some.injEq, Option.isSome_iff_exists]
    constructor
    · rintro ⟨⟨⟨hMeasurable, hSeries⟩, c, hInject⟩, p, hPlan, hReady⟩
      exact ⟨g, c, p, rfl, hMeasurable, hSeries, hInject, hPlan, hReady⟩
    · rintro ⟨g', c, p, rfl, hMeasurable, hSeries, hInject, hPlan, hReady⟩
      exact ⟨⟨⟨hMeasurable, hSeries⟩, c, hInject⟩, p, hPlan, hReady⟩

theorem checkInProgress_empty {s : State} (h : s.intake = []) (l : GroupId) : checkInProgress s l = false := by
  unfold checkInProgress
  rw [h]
  rfl

theorem noneWaits_empty {s : State} (h : s.intake = []) : noneWaits s := fun o ho => by
  rw [h] at ho
  exact nomatch ho

/-- The groups the scheduler starts, lowest leader first. -/
def startables (s : State) : List GroupId := allNodes.filter fun l => startable s l

theorem mem_startables {s : State} {l : GroupId} : l ∈ startables s ↔ startable s l = true :=
  List.mem_filter.trans (and_iff_right (mem_allNodes l))

theorem startables_nodup (s : State) : (startables s).Nodup := allNodes_nodup.filter _

theorem startable_congr {s t : State} {l : GroupId} (hGroup : t.groups[l] = s.groups[l]) (hIntake : t.intake = s.intake)
    (hPlan : t.nodePlan = s.nodePlan) (hPlans : t.plans = s.plans) : startable t l = startable s l := by
  unfold startable frontOf readyPlan nodePlanCopy checkInProgress
  rw [hGroup, hIntake, hPlan, hPlans]

/-- A group whose series has just started is no longer startable; any other is as it was. -/
theorem startable_startOwn {s : State} (h : noneWaits s) {l : GroupId} (hl : startable s l = true) (m : GroupId) :
    startable (s.startOwn l .series .series) m = (startable s m && decide (m ≠ l)) := by
  have hOwn := startOwn_ownRun s l
  obtain ⟨⟨g, c, p, hGroup, -, -, hInject, hPlan, -⟩, -⟩ := (startable_iff h l).mp hl
  by_cases hm : m = l
  · subst hm
    rw [startOwn_series hGroup hPlan hInject]
    have hNot : startable { s with
        groups := upd s.groups m (some (ownGroup s g .series p)), seqs := upd s.seqs c (runStarted s c .series none (runCopy s c p))
        safety := upd s.safety c (safetyStarted s c) } m = false := by
      unfold startable
      dsimp only
      rw [upd_same]
      simp [ownGroup]
    rw [hNot, decide_eq_false (not_not_intro rfl), Bool.and_false]
  · rw [decide_eq_true hm, Bool.and_true]
    have hFrame := hOwn.frame
    have hOther := hOwn.others m hm
    generalize s.startOwn l .series .series = t at hFrame hOther ⊢
    refine startable_congr hOther ?_ ?_ ?_
    · rw [hFrame]
    · rw [hFrame]
    · rw [hFrame]

theorem startables_startOwn {s : State} (h : noneWaits s) {l : GroupId} {rest : List GroupId} (hl : startables s = l :: rest) :
    startables (s.startOwn l .series .series) = rest := by
  have hMem : startable s l = true := mem_startables.mp (hl ▸ List.mem_cons_self)
  have hNodup := startables_nodup s
  rw [hl] at hNodup
  have hNot := (List.nodup_cons.mp hNodup).1
  have hFilter : startables (s.startOwn l .series .series) = (startables s).filter fun m => decide (m ≠ l) := by
    unfold startables
    rw [List.filter_filter]
    exact List.filter_congr fun m _ => (startable_startOwn h hMem m).trans (Bool.and_comm _ _)
  rw [hFilter, hl, List.filter_cons_of_neg (by simp)]
  exact List.filter_eq_self.mpr fun m hm => decide_eq_true fun e => hNot (e ▸ hm)

theorem noneWaits_congr {s t : State} (h : noneWaits s) (hIntake : t.intake = s.intake) : noneWaits t := by
  unfold noneWaits
  rw [hIntake]
  exact h

/-- In RUN with no order waiting the scheduler starts every startable group, one after the other. -/
theorem scheduleAll_run : ∀ (n : Nat) (s : State), noneWaits s → s.mode = .run → (startables s).length ≤ n →
    scheduleAll n s = forEach (startables s) (fun l t => t.startOwn l .series .series) s := by
  intro n
  induction n with
  | zero =>
    intro s _ _ hLength
    rw [List.length_eq_zero_iff.mp (Nat.le_zero.mp hLength)]
    rfl
  | succ n ih =>
    intro s h hMode hLength
    have hOne : scheduleOne s = (allNodes.find? fun l => startable s l).map fun l => s.startOwn l .series .series := by
      rw [scheduleOne_noneWaits h, if_pos hMode]
    rw [← List.head?_filter] at hOne
    cases hList : startables s with
    | nil =>
      rw [show (allNodes.filter fun l => startable s l) = [] from hList] at hOne
      rw [scheduleAll_none h hOne]
      rfl
    | cons l rest =>
      rw [show (allNodes.filter fun l => startable s l) = l :: rest from hList] at hOne
      replace hOne : scheduleOne s = some (s.startOwn l .series .series) := hOne
      have hOwn := (startOwn_ownRun s l).frame
      have hRest := startables_startOwn h hList
      rw [scheduleAll_some h hOne, ih _ (noneWaits_congr h (by rw [hOwn])) (by rw [hOwn]; exact hMode)
        (by rw [hRest]; rw [hList] at hLength; simpa using hLength), hRest]
      rfl

theorem schedule_run {s : State} (h : noneWaits s) (hMode : s.mode = .run) :
    s.schedule = (forEach (startables s) (fun l t => t.startOwn l .series .series) s).detachIdle := by
  have hLength : (startables s).length ≤ scheduleFuel := (List.length_filter_le _ _).trans (by decide)
  unfold State.schedule
  rw [scheduleAll_run _ s h hMode hLength]

/-! ### The pass over the startable groups -/

/-- What the pass keeps of the state it began in. -/
structure OwnRuns (s t : State) : Prop where
  frame : t = { s with groups := t.groups, seqs := t.seqs, safety := t.safety }
  shape : ∀ m : GroupId, (t.groups[m]).map (fun g => (g.members, g.injector)) = (s.groups[m]).map fun g => (g.members, g.injector)
  verifies : ∀ d : Chan, t.safety[d].verify = s.safety[d].verify

theorem OwnRuns.step {s t u : State} {l : GroupId} (h : OwnRuns s t) (k : OwnRun l t u) : OwnRuns s u where
  frame := by
    have hFrame := k.frame
    have hBefore := h.frame
    generalize u.groups = groups, u.seqs = seqs, u.safety = safety at hFrame ⊢
    rw [hFrame, hBefore]
  shape := fun m => (k.shape m).trans (h.shape m)
  verifies := fun d => (k.verifies d).trans (h.verifies d)

theorem OwnRuns.injectorOf {s t : State} (h : OwnRuns s t) (m : GroupId) : injectorOf t m = injectorOf s m := by
  have hShape := h.shape m
  unfold Machine.injectorOf
  cases hs : s.groups[m] <;> cases ht : t.groups[m] <;> simp_all

theorem OwnRuns.mayAttach {s t : State} (h : OwnRuns s t) (c : Chan) : mayAttach t c = mayAttach s c :=
  mayAttach_congr h.shape (by rw [h.frame]) (by rw [h.frame]) h.verifies c

theorem runStarted_congr {s t : State} {c : Chan} (hSeq : t.seqs[c] = s.seqs[c]) (hMay : mayAttach t c = mayAttach s c)
    (kind : RunKind) (owner : Option SlotId) (copy : RunCopy) : runStarted t c kind owner copy = runStarted s c kind owner copy := by
  unfold runStarted
  rw [hSeq, hMay]

/-- The state after the pass over the startable groups. -/
def State.startAll (s : State) : State := forEach (startables s) (fun l t => t.startOwn l .series .series) s

theorem startAll_runs (s : State) : OwnRuns s s.startAll :=
  forEach_keeps (P := OwnRuns s) _ _ s ⟨rfl, fun _ => rfl, fun _ => rfl⟩ fun l _ t ht => ht.step (startOwn_ownRun t l)

/-- A group that is not startable keeps its place, and a channel that injects in no startable group is left alone. -/
theorem startAll_group {s : State} {l : GroupId} (h : startable s l = false) : s.startAll.groups[l] = s.groups[l] :=
  forEach_keeps (P := fun t : State => t.groups[l] = s.groups[l]) _ _ s rfl fun m hm t ht => by
    have hNot : l ≠ m := fun e => by rw [← e, mem_startables, h] at hm; exact nomatch hm
    exact ((startOwn_ownRun t m).others l hNot).trans ht

theorem startAll_chan {s : State} {c : Chan} (h : ∀ l : GroupId, startable s l = true → injectorOf s l ≠ some c) :
    chanView c s.startAll = chanView c s := by
  refine (forEach_keeps (P := fun t : State => OwnRuns s t ∧ chanView c t = chanView c s) _ _ s
    ⟨⟨rfl, fun _ => rfl, fun _ => rfl⟩, rfl⟩ fun m hm t ht => ?_).2
  refine ⟨ht.1.step (startOwn_ownRun t m), ((startOwn_ownRun t m).chans c ?_).trans ht.2⟩
  rw [ht.1.injectorOf]
  exact h m (mem_startables.mp hm)

/-- A startable group whose injector injects in no other group has its series after the pass (R106). -/
theorem startAll_started {s : State} (h : noneWaits s) {l : GroupId} {g : Group} {c : Chan} {p : PlanId}
    (hReady : readyToMeasure s l g c p) (hCheck : checkInProgress s l = false) (hOwn : ownInjector s l c) :
    s.startAll.groups[l] = some (ownGroup s g .series p)
    ∧ s.startAll.seqs[c] = runStarted s c .series none (runCopy s c p)
    ∧ s.startAll.safety[c] = safetyStarted s c := by
  have hIn : l ∈ startables s := mem_startables.mpr ((startable_iff h l).mpr ⟨⟨g, c, p, hReady⟩, hCheck⟩)
  obtain ⟨hGroup, -, -, hInject, hPlan, -⟩ := hReady
  obtain ⟨t, hInv, hView, hEnd⟩ := (forEach_own (fun (l : GroupId) (t : State) => t.startOwn l .series .series)
    (fun t : State => (t.groups[l], chanView c t)) (OwnRuns s) l (startables s) s (startables_nodup s)
    ⟨rfl, fun _ => rfl, fun _ => rfl⟩ (fun m _ t ht => ht.step (startOwn_ownRun t m)) fun m _ hm t ht => by
      have hStep := startOwn_ownRun t m
      refine Prod.ext (hStep.others l (Ne.symm hm)) (hStep.chans c fun e => hm (hOwn m ?_))
      rwa [← ht.injectorOf]).2 hIn
  have hGroupT : t.groups[l] = some g := (congrArg Prod.fst hView).trans hGroup
  have hChan : chanView c t = chanView c s := congrArg Prod.snd hView
  have hSeq : t.seqs[c] = s.seqs[c] := congrArg Prod.fst hChan
  have hSafety : t.safety[c] = s.safety[c] := congrArg Prod.snd hChan
  have hFields : t.nodePlan = s.nodePlan ∧ t.plans = s.plans ∧ t.wiring = s.wiring := by
    rw [hInv.frame]
    exact ⟨rfl, rfl, rfl⟩
  obtain ⟨hNodePlan, hPlans, hWiring⟩ := hFields
  have hStart := startOwn_series hGroupT (by rw [hNodePlan]; exact hPlan) hInject
  have hCopy : runCopy t c p = runCopy s c p := by
    unfold runCopy
    rw [hPlans, hWiring]
  have hOwnGroup : ownGroup t g .series p = ownGroup s g .series p := by
    unfold ownGroup
    rw [hPlans]
  have hSafe : safetyStarted t c = safetyStarted s c := by
    unfold safetyStarted
    rw [hSeq, hSafety]
  rw [hStart, runStarted_congr hSeq (hInv.mayAttach c), hCopy, hOwnGroup, hSafe] at hEnd
  have hGroupEnd := congrArg Prod.fst hEnd
  have hSeqEnd := congrArg (fun x => x.2.1) hEnd
  have hSafetyEnd := congrArg (fun x => x.2.2) hEnd
  exact ⟨hGroupEnd.trans (upd_same _ _ _), hSeqEnd.trans (upd_same _ _ _), hSafetyEnd.trans (upd_same _ _ _)⟩

end Sys2Proof.Machine
end

section
/-! PROOFS. Mode changes: every series and turn abandoned, and what the scheduler then starts. -/

namespace Sys2Proof.Machine

/-- A pass over a list at one of its entries: what comes before it, its own step, and what comes after. -/
theorem forEach_split {α : Type} (f : α → State → State) {l : List α} (hNodup : l.Nodup) {a : α} (ha : a ∈ l) (s : State) :
    ∃ pre post : List α, l = pre ++ a :: post ∧ a ∉ pre ∧ a ∉ post
      ∧ forEach l f s = forEach post f (f a (forEach pre f s)) := by
  obtain ⟨pre, post, rfl⟩ := List.append_of_mem ha
  have hParts := List.nodup_append.mp hNodup
  refine ⟨pre, post, rfl, fun hPre => hParts.2.2 a hPre a List.mem_cons_self rfl, (List.nodup_cons.mp hParts.2.1).1, ?_⟩
  unfold forEach
  rw [List.foldl_append, List.foldl_cons]

/-! ### A channel stopped (R14, R15) -/

/-- A channel's sequencer after its run is abandoned and it is commanded detached. -/
def stoppedSeq (q : Seq) : Seq := { (if q.run = .series ∨ q.run = .triple then runOver q else q) with coupling := .detached }

def stoppedSafety (q : Seq) (x : ChanSafety) : ChanSafety := if q.coupling = .attached then { x with verify := some 5 } else x

theorem coupling_cases (q : Seq) : q.coupling = .attached ∨ q.coupling = .detached := by cases q.coupling <;> simp

theorem abandonRun_eq (s : State) (c : Chan) : s.abandonRun c =
    s.setSeq c (if s.seqs[c].run = .series ∨ s.seqs[c].run = .triple then runOver s.seqs[c] else s.seqs[c]) := by
  unfold State.abandonRun
  dsimp only
  split_ifs
  · rfl
  · exact (setSeq_same s c).symm

theorem detach_eq (s : State) (c : Chan) : s.detach c = { s with
    seqs := upd s.seqs c (if s.seqs[c].coupling = .attached then stoppedSeq s.seqs[c] else s.seqs[c])
    safety := upd s.safety c (stoppedSafety s.seqs[c] s.safety[c]) } := by
  unfold State.detach stoppedSafety
  split_ifs with h
  · dsimp only
    rw [abandonRun_eq, setSeq_setSeq, setSeq_seq]
    rfl
  · simp [upd]

theorem stoppedSeq_coupling (q : Seq) : (stoppedSeq q).coupling = .detached := rfl

theorem runOver_run (q : Seq) : ¬ ((runOver q).run = .series ∨ (runOver q).run = .triple) := by
  rw [show (runOver q).run = .none from rfl]
  decide

theorem stoppedSeq_abandoned (q : Seq) : (if q.coupling = .attached then
      stoppedSeq (if q.run = .series ∨ q.run = .triple then runOver q else q)
    else if q.run = .series ∨ q.run = .triple then runOver q else q) = stoppedSeq q := by
  unfold stoppedSeq
  by_cases hRun : q.run = .series ∨ q.run = .triple
  · rw [if_pos hRun, if_neg (runOver_run q)]
    split_ifs with hCoupling
    · rfl
    · rw [show runOver q = { runOver q with coupling := q.coupling } from rfl, (coupling_cases q).resolve_left hCoupling]
  · rw [if_neg hRun]
    split_ifs with hCoupling
    · rfl
    · rw [← (coupling_cases q).resolve_left hCoupling]

theorem stopChannel_eq (s : State) (c : Chan) : s.stopChannel c = { s with
    seqs := upd s.seqs c (stoppedSeq s.seqs[c]), safety := upd s.safety c (stoppedSafety s.seqs[c] s.safety[c]) } := by
  unfold State.stopChannel
  have hCoupling : (if s.seqs[c].run = .series ∨ s.seqs[c].run = .triple then runOver s.seqs[c] else s.seqs[c]).coupling =
      s.seqs[c].coupling := by
    split_ifs <;> rfl
  rw [detach_eq, abandonRun_eq, setSeq_seq]
  unfold stoppedSafety
  rw [hCoupling]
  simp only [State.setSeq, upd_upd]
  rw [stoppedSeq_abandoned]

theorem stoppedSeq_idem (q : Seq) : stoppedSeq (stoppedSeq q) = stoppedSeq q := by
  unfold stoppedSeq
  by_cases hRun : q.run = .series ∨ q.run = .triple
  · rw [if_pos hRun]
    exact congrArg (fun q : Seq => { q with coupling := .detached }) (if_neg (runOver_run q))
  · rw [if_neg hRun]
    exact congrArg (fun q : Seq => { q with coupling := .detached }) (if_neg hRun)

theorem stoppedSafety_idem (q : Seq) (x : ChanSafety) : stoppedSafety (stoppedSeq q) x = x :=
  if_neg (by rw [stoppedSeq_coupling]; decide)

/-! ### What reaches one group and its injector -/

/-- Everything an operation on one group leaves: the other groups, and every channel but the group's injector. -/
structure Reaches (l : GroupId) (s t : State) : Prop where
  frame : t = { s with groups := t.groups, seqs := t.seqs, safety := t.safety, park := t.park }
  others : ∀ m : GroupId, m ≠ l → t.groups[m] = s.groups[m]
  shape : ∀ m : GroupId, (t.groups[m]).map (fun g => (g.members, g.injector)) = (s.groups[m]).map fun g => (g.members, g.injector)
  chans : ∀ d : Chan, injectorOf s l ≠ some d → chanView d t = chanView d s

theorem Reaches.refl (l : GroupId) (s : State) : Reaches l s s := ⟨rfl, fun _ _ => rfl, fun _ => rfl, fun _ _ => rfl⟩

theorem injectorOf_some {s : State} {l : GroupId} {g : Group} (h : s.groups[l] = some g) : injectorOf s l = g.injector := by
  unfold injectorOf
  rw [h]

theorem seriesOf_some {s : State} {l : GroupId} {g : Group} (h : s.groups[l] = some g) : seriesOf s l = g.series := by
  unfold seriesOf
  rw [h]

/-- The group's own series or turn is under way (R103). -/
def ownActive (x : SeriesState) : Prop := x = .series ∨ x = .stopping ∨ x = .turn

/-- The group once its own series or turn is over. -/
def overGroup (g : Group) : Group := { g with series := .none, rotation := 0 }

theorem abandonOwn_idle {s : State} {l : GroupId} (h : ¬ ownActive (seriesOf s l)) : s.abandonOwn l = s := by
  unfold State.abandonOwn
  cases hGroup : s.groups[l] with
  | none => rfl
  | some g =>
    rw [seriesOf_some hGroup] at h
    unfold ownActive at h
    cases hSeries : g.series <;> simp_all

/-- A series or turn of a group that has an injector, abandoned (R14, R101, R112). -/
theorem abandonOwn_active {s : State} {l : GroupId} {g : Group} {c : Chan} (hGroup : s.groups[l] = some g)
    (hActive : ownActive g.series) (hInject : g.injector = some c) : s.abandonOwn l = { s with
      groups := upd s.groups l (some (overGroup g)), seqs := upd s.seqs c (stoppedSeq s.seqs[c])
      safety := upd s.safety c (stoppedSafety s.seqs[c] s.safety[c]), park := if g.series = .turn then .due else s.park } := by
  have hStop : (s.stopInjector l).seriesOver l = { s with
      groups := upd s.groups l (some (overGroup g)), seqs := upd s.seqs c (stoppedSeq s.seqs[c])
      safety := upd s.safety c (stoppedSafety s.seqs[c] s.safety[c]) } := by
    unfold State.stopInjector State.seriesOver
    rw [(injectorOf_some hGroup).trans hInject]
    dsimp only
    rw [stopChannel_eq]
    exact modGroup_some (s := { s with seqs := upd s.seqs c (stoppedSeq s.seqs[c])
                                       safety := upd s.safety c (stoppedSafety s.seqs[c] s.safety[c]) }) hGroup _
  unfold State.abandonOwn
  rw [hGroup]
  dsimp only
  rcases hActive with h | h | h <;> rw [h, hStop] <;> rfl

theorem abandonOwn_bare {s : State} {l : GroupId} {g : Group} (hGroup : s.groups[l] = some g)
    (hActive : ownActive g.series) (hInject : g.injector = none) : s.abandonOwn l = { s with
      groups := upd s.groups l (some (overGroup g)), park := if g.series = .turn then .due else s.park } := by
  have hStop : (s.stopInjector l).seriesOver l = { s with groups := upd s.groups l (some (overGroup g)) } := by
    unfold State.stopInjector State.seriesOver
    rw [(injectorOf_some hGroup).trans hInject]
    exact modGroup_some hGroup _
  unfold State.abandonOwn
  rw [hGroup]
  dsimp only
  rcases hActive with h | h | h <;> rw [h, hStop] <;> rfl

theorem shape_upd {s : State} {l : GroupId} {g g' : Group} (hGroup : s.groups[l] = some g) (hMembers : g'.members = g.members)
    (hInject : g'.injector = g.injector) (m : GroupId) :
    ((upd s.groups l (some g'))[m]).map (fun g => (g.members, g.injector)) = (s.groups[m]).map fun g => (g.members, g.injector) := by
  by_cases hm : l = m
  · subst hm
    rw [upd_same, hGroup, Option.map_some, Option.map_some, hMembers, hInject]
  · rw [upd_other _ _ _ _ hm]

theorem abandonOwn_reaches (s : State) (l : GroupId) : Reaches l s (s.abandonOwn l) := by
  by_cases hActive : ownActive (seriesOf s l)
  · cases hGroup : s.groups[l] with
    | none =>
      rw [show s.abandonOwn l = s by unfold State.abandonOwn; rw [hGroup]]
      exact Reaches.refl l s
    | some g =>
      rw [seriesOf_some hGroup] at hActive
      cases hInject : g.injector with
      | none =>
        rw [abandonOwn_bare hGroup hActive hInject]
        exact ⟨rfl, fun m hm => upd_other _ _ _ _ (Ne.symm hm), shape_upd hGroup rfl rfl, fun _ _ => rfl⟩
      | some c =>
        rw [abandonOwn_active hGroup hActive hInject]
        refine ⟨rfl, fun m hm => upd_other _ _ _ _ (Ne.symm hm), shape_upd hGroup rfl rfl, fun d hd => ?_⟩
        have hOther : c ≠ d := fun e => hd (e ▸ (injectorOf_some hGroup).trans hInject)
        exact chanView_eq (upd_other _ _ _ _ hOther) (upd_other _ _ _ _ hOther)
  · rw [abandonOwn_idle hActive]
    exact Reaches.refl l s

end Sys2Proof.Machine
end

section
/-! PROOFS. A mode change: what the abandonment of every series and turn leaves, and the requests for IDLE and RUN. -/

namespace Sys2Proof.Machine

/-! ### Every series and turn abandoned (R101) -/

/-- Every series and turn abandoned. -/
def State.abandonAll (s : State) : State := forEach allNodes (fun l t => t.abandonOwn l) s

theorem changeMode_eq (s : State) {m : Mode} (hm : m ≠ .parked) : s.changeMode m =
    { s.abandonAll with mode := m, parkedPending := false, park := .stopped, rotation := [] } := by
  unfold State.changeMode State.abandonAll
  rw [if_neg hm]

theorem changeMode_parked (s : State) : s.changeMode .parked = { s.abandonAll with
    mode := .parked, parkedPending := false, park := .due
    rotation := allNodes.filter fun l => s.abandonAll.groups[l].isSome } := by
  unfold State.changeMode State.abandonAll
  rw [if_pos rfl]

/-- Only group table, channels and park timer have moved, and every group has the members and the injector it had. -/
structure Shaped (s t : State) : Prop where
  frame : t = { s with groups := t.groups, seqs := t.seqs, safety := t.safety, park := t.park }
  shape : ∀ m : GroupId, (t.groups[m]).map (fun g => (g.members, g.injector)) = (s.groups[m]).map fun g => (g.members, g.injector)

theorem Shaped.refl (s : State) : Shaped s s := ⟨rfl, fun _ => rfl⟩

theorem Shaped.step {s t u : State} {l : GroupId} (h : Shaped s t) (k : Reaches l t u) : Shaped s u where
  frame := by
    have hFrame := k.frame
    have hBefore := h.frame
    generalize u.groups = groups, u.seqs = seqs, u.safety = safety, u.park = park at hFrame ⊢
    rw [hFrame, hBefore]
  shape := fun m => (k.shape m).trans (h.shape m)

theorem Shaped.injectorOf {s t : State} (h : Shaped s t) (m : GroupId) : injectorOf t m = injectorOf s m := by
  have hShape := h.shape m
  unfold Machine.injectorOf
  cases hs : s.groups[m] <;> cases ht : t.groups[m] <;> simp_all

theorem abandonAll_shaped (s : State) : Shaped s s.abandonAll :=
  forEach_keeps (P := Shaped s) _ _ s (Shaped.refl s) fun l _ t ht => ht.step (abandonOwn_reaches t l)

theorem abandonAll_idle {s : State} (h : ∀ l : GroupId, ¬ ownActive (seriesOf s l)) : s.abandonAll = s :=
  forEach_unchanged _ _ _ fun l _ => abandonOwn_idle (h l)

theorem abandonOwn_group {s : State} {l : GroupId} {g : Group} (h : s.groups[l] = some g) :
    (ownActive g.series → (s.abandonOwn l).groups[l] = some (overGroup g))
    ∧ (¬ ownActive g.series → (s.abandonOwn l).groups[l] = some g) := by
  refine ⟨fun hActive => ?_, fun hIdle => ?_⟩
  · cases hInject : g.injector with
    | none =>
      rw [abandonOwn_bare h hActive hInject]
      exact upd_same _ _ _
    | some c =>
      rw [abandonOwn_active h hActive hInject]
      exact upd_same _ _ _
  · rw [abandonOwn_idle (by rwa [seriesOf_some h]), h]

/-- What abandonment leaves of one group. -/
theorem abandonAll_group {s : State} {l : GroupId} {g : Group} (h : s.groups[l] = some g) :
    (ownActive g.series → s.abandonAll.groups[l] = some (overGroup g))
    ∧ (¬ ownActive g.series → s.abandonAll.groups[l] = some g) := by
  obtain ⟨t, -, hView, hEnd⟩ := (forEach_own (fun (l : GroupId) (t : State) => t.abandonOwn l) (fun t : State => t.groups[l])
    (fun _ => True) l allNodes s allNodes_nodup trivial (fun _ _ _ _ => trivial) fun m _ hm t _ =>
      (abandonOwn_reaches t m).others l (Ne.symm hm)).2 (mem_allNodes l)
  have hGroup := abandonOwn_group (hView.trans h)
  exact ⟨fun hActive => hEnd.trans (hGroup.1 hActive), fun hIdle => hEnd.trans (hGroup.2 hIdle)⟩

/-- A channel that is no active group's injector is left alone. -/
theorem abandonAll_chan {s : State} {c : Chan} (h : ∀ l : GroupId, ownActive (seriesOf s l) → injectorOf s l ≠ some c) :
    chanView c s.abandonAll = chanView c s := by
  have hPass : ∀ l : GroupId, seriesOf s.abandonAll l = seriesOf s.abandonAll l := fun _ => rfl
  refine (forEach_keeps (P := fun t : State => (Shaped s t ∧ ∀ l : GroupId, ownActive (seriesOf t l) → ownActive (seriesOf s l))
    ∧ chanView c t = chanView c s) _ _ s ⟨⟨Shaped.refl s, fun _ => id⟩, rfl⟩ fun m _ t ht => ?_).2
  obtain ⟨⟨hShaped, hActive⟩, hView⟩ := ht
  have hReach := abandonOwn_reaches t m
  refine ⟨⟨hShaped.step hReach, fun l hl => ?_⟩, ?_⟩
  · by_cases hm : l = m
    · subst hm
      cases hGroup : t.groups[l] with
      | none =>
        have hSame : t.abandonOwn l = t := by unfold State.abandonOwn; rw [hGroup]
        rw [hSame] at hl
        exact hActive l hl
      | some g =>
        by_cases hg : ownActive g.series
        · exact hActive l (by rwa [seriesOf_some hGroup])
        · rw [seriesOf_some ((abandonOwn_group hGroup).2 hg)] at hl
          exact absurd hl hg
    · refine hActive l ?_
      unfold seriesOf at hl ⊢
      rwa [hReach.others l hm] at hl
  · by_cases hm : ownActive (seriesOf t m)
    · refine (hReach.chans c ?_).trans hView
      rw [hShaped.injectorOf]
      exact h m (hActive m hm)
    · rw [abandonOwn_idle hm]
      exact hView

/-- A channel as it was, or stopped. -/
def sameOrStopped (c : Chan) (s t : State) : Prop :=
  chanView c t = chanView c s ∨ chanView c t = (stoppedSeq s.seqs[c], stoppedSafety s.seqs[c] s.safety[c])

theorem abandonOwn_sameOrStopped {s t : State} {c : Chan} (h : sameOrStopped c s t) (l : GroupId) :
    sameOrStopped c s (t.abandonOwn l) := by
  by_cases hActive : ownActive (seriesOf t l) ∧ injectorOf t l = some c
  · obtain ⟨hActive, hInject⟩ := hActive
    cases hGroup : t.groups[l] with
    | none =>
      unfold injectorOf at hInject
      rw [hGroup] at hInject
      exact nomatch hInject
    | some g =>
      rw [seriesOf_some hGroup] at hActive
      rw [injectorOf_some hGroup] at hInject
      rw [abandonOwn_active hGroup hActive hInject]
      right
      obtain hSame | hStopped := h
      · have hSeq : t.seqs[c] = s.seqs[c] := congrArg Prod.fst hSame
        have hSafety : t.safety[c] = s.safety[c] := congrArg Prod.snd hSame
        refine Prod.ext ?_ ?_
        · exact (upd_same _ _ _).trans (by rw [hSeq])
        · exact (upd_same _ _ _).trans (by rw [hSeq, hSafety])
      · have hSeq : t.seqs[c] = stoppedSeq s.seqs[c] := congrArg Prod.fst hStopped
        have hSafety : t.safety[c] = stoppedSafety s.seqs[c] s.safety[c] := congrArg Prod.snd hStopped
        refine Prod.ext ?_ ?_
        · exact (upd_same _ _ _).trans (by rw [hSeq, stoppedSeq_idem])
        · exact (upd_same _ _ _).trans (by rw [hSeq, hSafety, stoppedSafety_idem])
  · have hSame : chanView c (t.abandonOwn l) = chanView c t := by
      by_cases hOwn : ownActive (seriesOf t l)
      · exact (abandonOwn_reaches t l).chans c fun e => hActive ⟨hOwn, e⟩
      · rw [abandonOwn_idle hOwn]
    unfold sameOrStopped
    rw [hSame]
    exact h

/-- The injector of an active group is stopped. -/
theorem abandonAll_injector {s : State} {l : GroupId} {g : Group} {c : Chan} (hGroup : s.groups[l] = some g)
    (hActive : ownActive g.series) (hInject : g.injector = some c) :
    chanView c s.abandonAll = (stoppedSeq s.seqs[c], stoppedSafety s.seqs[c] s.safety[c]) := by
  obtain ⟨pre, post, -, hPre, -, hEnd⟩ :=
    forEach_split (fun (l : GroupId) (t : State) => t.abandonOwn l) allNodes_nodup (mem_allNodes l) s
  have hBefore : (forEach pre (fun (l : GroupId) t => t.abandonOwn l) s).groups[l] = some g ∧
      sameOrStopped c s (forEach pre (fun (l : GroupId) t => t.abandonOwn l) s) :=
    forEach_keeps (P := fun t : State => t.groups[l] = some g ∧ sameOrStopped c s t) _ _ s ⟨hGroup, .inl rfl⟩ fun m hm t ht => by
      have hOther : l ≠ m := fun e => hPre (e ▸ hm)
      exact ⟨((abandonOwn_reaches t m).others l hOther).trans ht.1, abandonOwn_sameOrStopped ht.2 m⟩
  generalize forEach pre (fun (l : GroupId) t => t.abandonOwn l) s = t at hBefore hEnd
  obtain ⟨hGroupT, hSame⟩ := hBefore
  have hHere : chanView c (t.abandonOwn l) = (stoppedSeq s.seqs[c], stoppedSafety s.seqs[c] s.safety[c]) := by
    rw [abandonOwn_active hGroupT hActive hInject]
    refine Prod.ext ((upd_same _ _ _).trans ?_) ((upd_same _ _ _).trans ?_)
    · obtain h | h := hSame <;> rw [show t.seqs[c] = _ from congrArg Prod.fst h]
      · rfl
      · exact stoppedSeq_idem _
    · obtain h | h := hSame <;> rw [show t.seqs[c] = _ from congrArg Prod.fst h, show t.safety[c] = _ from congrArg Prod.snd h]
      · rfl
      · exact stoppedSafety_idem _ _
  unfold State.abandonAll
  rw [hEnd]
  refine (forEach_keeps (P := fun t : State => sameOrStopped c s t ∧
    chanView c t = (stoppedSeq s.seqs[c], stoppedSafety s.seqs[c] s.safety[c])) _ _ _ ⟨.inr hHere, hHere⟩ fun m _ u hu => ?_).2
  have hSeq : u.seqs[c] = stoppedSeq s.seqs[c] := congrArg Prod.fst hu.2
  have hSafety : u.safety[c] = stoppedSafety s.seqs[c] s.safety[c] := congrArg Prod.snd hu.2
  have hAgain := abandonOwn_sameOrStopped (s := u) (t := u) (c := c) (.inl rfl) m
  have hStay : chanView c (u.abandonOwn m) = (stoppedSeq s.seqs[c], stoppedSafety s.seqs[c] s.safety[c]) := by
    obtain h | h := hAgain
    · exact h.trans hu.2
    · rw [h, hSeq, hSafety, stoppedSeq_idem, stoppedSafety_idem]
  exact ⟨.inr hStay, hStay⟩

/-! ### Measuring across a mode change -/

/-- The mode changed outside SAFE_STOP, in both states alike. -/
theorem Measuring.remode {s t : State} (h : Measuring s t) {m : Mode} (hm : m ≠ .safeStop) (park : ParkTimer)
    (rotation : List GroupId) : Measuring { s with mode := m, parkedPending := false }
      { t with mode := m, parkedPending := false, park := park, rotation := rotation } := by
  obtain ⟨hFixed, -, hPending, hDone, -, hMemory, hCanonical, hChan⟩ := h
  refine ⟨hFixed, Iff.rfl, hPending, hDone, fun _ => ⟨rfl, rfl⟩, hMemory, hCanonical, fun c => ?_⟩
  obtain ⟨hRecord, hLatched, hUb, hCtx, hHealth, hDisconnected, hMask, hMode, hApart, -, hRest⟩ := hChan c
  exact ⟨hRecord, hLatched, hUb, hCtx, hHealth, hDisconnected, hMask, hMode, hApart, fun e => absurd e hm, hRest⟩

theorem Measuring.shift {s t : State} (h : Measuring s t) (v : BitVec 8) : Measuring (s.shift v) (t.shift v) := by
  obtain ⟨hFixed, hMode, hPending, hDone, hCalm, hMemory, hCanonical, hChan⟩ := h
  exact ⟨congrArg (fun u : State => u.shift v) hFixed, hMode, hPending, hDone, hCalm, hMemory, hCanonical, hChan⟩

/-! ### A request taken outside STARTING -/

/-- The state a CONTROL write with HOLD as it stands leaves once its request is noted. -/
def State.requested (s : State) (m : Mode) : State := { s.controlStart s.hold with request := m }

/-- A request for IDLE or RUN that names another mode changes the mode, and the scheduler acts (R101). -/
theorem exec_changesMode {s : State} (hServed : served s) (hSafe : s.mode ≠ .safeStop) {f : BitVec 2} {m : Mode}
    (hf : m.code = f.toNat) (hNamed : m ≠ .safeStop) (hParked : m ≠ .parked) (hm : m ≠ s.mode) :
    exec (.modeRequest f s.hold.isSome) s = .next (((s.requested m).changeMode m).schedule.shift 0) := by
  obtain ⟨hStarting, hEnd⟩ := hServed
  have hTake : (s.controlStart s.hold).takeRequest m = ((s.requested m).changeMode m).schedule := by
    unfold State.takeRequest State.requested
    dsimp only
    rw [if_neg (show ¬ (s.controlStart s.hold).starting = true by
      rw [show (s.controlStart s.hold).starting = s.starting from rfl, hStarting]; decide), if_neg hParked,
      if_neg (show m ≠ (s.controlStart s.hold).mode from hm)]
  rw [exec_modeRequest_held hEnd, requestMode_named (s := s.controlStart s.hold) hSafe hf hNamed, hTake]

/-- The mode changed, nothing scheduled yet. -/
theorem changeMode_frame (s : State) {m : Mode} (hm : m ≠ .parked) : s.changeMode m = { s with
    groups := s.abandonAll.groups, seqs := s.abandonAll.seqs, safety := s.abandonAll.safety
    mode := m, parkedPending := false, park := .stopped, rotation := [] } := by
  have hBefore := (abandonAll_shaped s).frame
  rw [changeMode_eq s hm]
  generalize s.abandonAll = w at hBefore ⊢
  rw [hBefore]

/-! ### A request for IDLE (R101) -/

/-- Settles O32: with no order the scheduler only detaches what rests, so the request is the abandonment alone. -/
theorem idleRequestEndsSeries : Obligations.IdleRequestEndsSeries := by
  unfold Obligations.IdleRequestEndsSeries
  intro s hServed hMode hIntake
  have hSafe : s.mode ≠ .safeStop := by rcases hMode with h | h <;> rw [h] <;> decide
  have hIdle : Mode.idle ≠ s.mode := by rcases hMode with h | h <;> rw [h] <;> decide
  have hExec := exec_changesMode hServed hSafe (f := 0) (m := .idle) rfl (by decide) (by decide) hIdle
  have hMeasuring := (((Working.abandonAll (s.requested .idle)).measuring.remode (m := .idle) (by decide) .stopped []).trans
    (Working.schedule _).measuring).shift 0
  have hFrame := changeMode_frame (s.requested .idle) (m := .idle) (by decide)
  have hChanged := changeMode_eq (s.requested .idle) (m := .idle) (by decide)
  unfold State.abandonAll at hChanged
  rw [← hChanged] at hMeasuring
  have hRest : ((s.requested .idle).changeMode .idle).schedule = ((s.requested .idle).changeMode .idle).detachIdle :=
    schedule_idle (noneWaits_empty (by rw [hFrame]; exact hIntake)) (by rw [hFrame]; exact fun e => nomatch e)
      (by rw [hFrame]; exact fun e => nomatch e)
  refine ⟨_, hExec, ?_⟩
  rw [hRest] at hMeasuring ⊢
  have hEnd := detachIdle_frame ((s.requested .idle).changeMode .idle)
  have hChan := detachIdle_chan ((s.requested .idle).changeMode .idle)
  have hGroups : ((s.requested .idle).changeMode .idle).groups = (s.requested .idle).abandonAll.groups := by rw [hFrame]
  have hSeqs : ((s.requested .idle).changeMode .idle).seqs = (s.requested .idle).abandonAll.seqs := by rw [hFrame]
  have hSafety : ((s.requested .idle).changeMode .idle).safety = (s.requested .idle).abandonAll.safety := by rw [hFrame]
  generalize ((s.requested .idle).changeMode .idle).detachIdle = t at *
  generalize (s.requested .idle).changeMode .idle = v at *
  have hAbandoned := fun (l : GroupId) (g : Group) => abandonAll_group (s := s.requested .idle) (l := l) (g := g)
  have hStops := fun (l : GroupId) (g : Group) (c : Chan) => abandonAll_injector (s := s.requested .idle) (l := l) (g := g) (c := c)
  generalize (s.requested .idle).abandonAll = w at *
  have hNow : t.mode = .idle ∧ t.request = .idle ∧ t.parkedPending = false ∧ t.rotation = [] ∧ t.park = .stopped
      ∧ t.triples = s.triples ∧ t.computing = s.computing ∧ t.groups = w.groups := by
    rw [hEnd, hFrame]
    exact ⟨rfl, rfl, rfl, rfl, rfl, rfl, rfl, rfl⟩
  obtain ⟨hMode', hRequest, hPending, hRotation, hPark, hTriples, hComputing, hTable⟩ := hNow
  refine ⟨hMode', hRequest, hPending, hRotation, hPark, hTriples, hComputing, fun l g hGroup => ?_,
    fun l c hInject hActive hRun => ?_, hMeasuring⟩
  · obtain ⟨hOver, hStays⟩ := hAbandoned l g hGroup
    refine (congrArg (fun groups : Vector (Option Group) 8 => groups[l]) hTable).trans ?_
    split_ifs with hg
    · exact hOver hg
    · exact hStays hg
  · obtain ⟨g, hGroup⟩ : ∃ g, s.groups[l] = some g := by
      unfold injectorOf at hInject
      cases h : s.groups[l] with
      | none => rw [h] at hInject; exact nomatch hInject
      | some g => exact ⟨g, rfl⟩
    rw [injectorOf_some hGroup] at hInject
    rw [seriesOf_some hGroup] at hActive
    have hStopped := hStops l g c hGroup hActive hInject
    obtain ⟨hSeqEnd, hSafetyEnd⟩ := hChan c
    rw [hSeqs, show w.seqs[c] = _ from congrArg Prod.fst hStopped] at hSeqEnd hSafetyEnd
    rw [hSafety, show w.safety[c] = _ from congrArg Prod.snd hStopped] at hSafetyEnd
    have hDetached : (stoppedSeq s.seqs[c]).run = .none → (stoppedSeq s.seqs[c]).coupling = .detached := fun _ => rfl
    replace hSeqEnd := hSeqEnd.trans (restedSeq_self hDetached)
    replace hSafetyEnd := hSafetyEnd.trans (restedSafety_self hDetached _)
    have hStop : stoppedSeq s.seqs[c] = { runOver s.seqs[c] with coupling := .detached } := by
      unfold stoppedSeq
      rw [if_pos hRun]
    refine ⟨hSeqEnd.trans hStop, fun hAttached => ?_⟩
    · have hVerify : (stoppedSafety s.seqs[c] s.safety[c]).verify = some 5 := by
        unfold stoppedSafety
        rw [if_pos hAttached]
      exact (congrArg ChanSafety.verify hSafetyEnd).trans hVerify

end Sys2Proof.Machine
end

section
/-! PROOFS. The request for RUN, and the settle timer's expiry: a series starts in each group that is ready. -/

namespace Sys2Proof.Machine

theorem groupOfInjector_own {s : State} {l : GroupId} {c : Chan} (h : injectorOf s l = some c) (hOwn : ownInjector s l c) :
    groupOfInjector s c = some l := by
  obtain ⟨g, hGroup⟩ : ∃ g, s.groups[l] = some g := by
    unfold injectorOf at h
    cases hGroup : s.groups[l] with
    | none => rw [hGroup] at h; exact nomatch h
    | some g => exact ⟨g, rfl⟩
  cases hFound : groupOfInjector s c with
  | none =>
    have hNot := List.find?_eq_none.mp hFound l (mem_allNodes l)
    rw [hGroup] at hNot
    rw [injectorOf_some hGroup] at h
    simp [h] at hNot
  | some m =>
    obtain ⟨g', hGroup', hInject⟩ := groupOfInjector_group hFound
    rw [hOwn m ((injectorOf_some hGroup').trans hInject)]

/-- A run that starts on a detached injector begins its half-period, or waits for the verifies that hold it back (R23). -/
theorem runStarted_detached {s : State} {l : GroupId} {g : Group} {c : Chan} (hInject : groupOfInjector s c = some l)
    (hGroup : s.groups[l] = some g) (hMode : s.mode ≠ .safeStop) (hDetached : s.seqs[c].coupling = .detached)
    (kind : RunKind) (owner : Option SlotId) (copy : RunCopy) :
    ((∀ d : Chan, d = c ∨ wiredInto s d g.members = true → s.safety[d].verify = none) →
      runStarted s c kind owner copy = { firstHalf s.seqs[c] kind owner copy copy.plan.startPol with coupling := .attached })
    ∧ ((∃ d : Chan, (d = c ∨ wiredInto s d g.members = true) ∧ s.safety[d].verify ≠ none) →
      runStarted s c kind owner copy = waitingRun s.seqs[c] kind owner copy) := by
  have hMay := mayAttach_iff hInject hGroup
  unfold runStarted
  refine ⟨fun hFree => if_pos (.inr (hMay.mpr ⟨hMode, hFree⟩)), fun ⟨d, hd, hVerify⟩ => if_neg ?_⟩
  rintro (h | h)
  · rw [hDetached] at h
    exact nomatch h
  · exact hVerify ((hMay.mp h).2 d hd)

/-- An injector is wired into its own group alone. -/
theorem Safe.injects_wired {s : State} (h : Safe s) {l m : GroupId} {c : Chan} (hInject : injectorOf s m = some c)
    (hWired : wiredInto s c (membersOf s l) = true) : m = l := by
  obtain ⟨-, -, -, hTable, hInjectors, hAttached, hIntake, -⟩ := h
  exact Sound.wiredInto_unique (c := c) ⟨hTable, hInjectors, hAttached, hIntake⟩ (hInjectors m c hInject).1 hWired

/-- What the scheduler makes in RUN of a group ready to measure, where no order is taken (R106). -/
theorem schedule_starts {s : State} (hMode : s.mode = .run) (hIntake : s.intake = []) {l : GroupId} {g : Group} {c : Chan}
    {p : PlanId} (hReady : readyToMeasure s l g c p) (hOwn : ownInjector s l c)
    (hDetached : s.seqs[c].coupling = .detached) :
    s.schedule.groups[l] = some (ownGroup s g .series p)
    ∧ ((∀ d : Chan, d = c ∨ wiredInto s d g.members = true → s.safety[d].verify = none) →
        s.schedule.seqs[c] = { firstHalf s.seqs[c] .series none (runCopy s c p) s.plans[p].startPol with coupling := .attached })
    ∧ ((∃ d : Chan, (d = c ∨ wiredInto s d g.members = true) ∧ s.safety[d].verify ≠ none) →
        s.schedule.seqs[c] = waitingRun s.seqs[c] .series none (runCopy s c p)) := by
  have hNone := noneWaits_empty hIntake
  obtain ⟨hGroup, -, -, hInject, -⟩ := id hReady
  obtain ⟨hGroupEnd, hSeq, -⟩ := startAll_started hNone hReady (checkInProgress_empty hIntake l) hOwn
  have hStarted := runStarted_detached (groupOfInjector_own ((injectorOf_some hGroup).trans hInject) hOwn) hGroup
    (by rw [hMode]; decide) hDetached .series none (runCopy s c p)
  have hSchedule : s.schedule = s.startAll.detachIdle := schedule_run hNone hMode
  have hRunning : s.startAll.seqs[c].run ≠ .none := by
    rw [hSeq]
    unfold runStarted
    split_ifs <;> exact fun e => nomatch e
  have hSeqEnd := ((detachIdle_chan s.startAll c).1.trans (restedSeq_self fun e => absurd e hRunning)).trans hSeq
  have hFrame := detachIdle_frame s.startAll
  rw [hSchedule]
  refine ⟨?_, fun hFree => hSeqEnd.trans (hStarted.1 hFree), fun hHeld => hSeqEnd.trans (hStarted.2 hHeld)⟩
  rw [hFrame]
  exact hGroupEnd

/-- Settles O33: what was abandoned at the request is wired elsewhere, so every ready group stands as it did when the
scheduler comes to it. -/
theorem runRequestStartsSeries : Obligations.RunRequestStartsSeries := by
  unfold Obligations.RunRequestStartsSeries
  rintro s hServed hSafe ⟨hMode, hIntake, hRest⟩
  have hExec := exec_changesMode hServed (by rw [hMode]; decide) (f := 1) (m := .run) rfl (by decide) (by decide)
    (by rw [hMode]; decide)
  refine ⟨_, hExec, ?_⟩
  have hFrame := changeMode_frame (s.requested .run) (m := .run) (by decide)
  have hAbandoned := fun (l : GroupId) (g : Group) => abandonAll_group (s := s.requested .run) (l := l) (g := g)
  have hChan := fun (c : Chan) => abandonAll_chan (s := s.requested .run) (c := c)
  have hShaped := fun (m : GroupId) => (abandonAll_shaped (s.requested .run)).injectorOf m
  have hWorking := (Working.schedule ((s.requested .run).changeMode .run)).measuring
  generalize (s.requested .run).abandonAll = w at *
  generalize (s.requested .run).changeMode .run = v at *
  obtain ⟨hCalm⟩ : Nonempty (v.parkedPending = false → v.schedule.mode = v.mode ∧ v.schedule.parkedPending = false) := ⟨hWorking.calm⟩
  have hFixed := hWorking.fixed
  clear hWorking
  have hModeV : v.mode = .run := by rw [hFrame]
  have hRequestV : v.request = .run := by rw [hFrame]; rfl
  have hPendingV : v.parkedPending = false := by rw [hFrame]
  have hIntakeV : v.intake = [] := by rw [hFrame]; exact hIntake
  have hGroups : v.groups = w.groups := by rw [hFrame]
  have hSeqs : v.seqs = w.seqs := by rw [hFrame]
  have hSafety : v.safety = w.safety := by rw [hFrame]
  have hPlan : v.nodePlan = s.nodePlan := by rw [hFrame]; rfl
  have hPlans : v.plans = s.plans := by rw [hFrame]; rfl
  have hWiring : v.wiring = s.wiring := by rw [hFrame]; rfl
  clear hFrame
  have hStarts := fun (l : GroupId) (g : Group) (c : Chan) (p : PlanId) =>
    schedule_starts hModeV hIntakeV (l := l) (g := g) (c := c) (p := p)
  generalize v.schedule = t at *
  obtain ⟨hModeEnd, hPendingEnd⟩ := hCalm hPendingV
  refine ⟨hModeEnd.trans hModeV, ((congrArg State.request hFixed :)).trans hRequestV, hPendingEnd, fun l g c p hReady hOwn hRun => ?_⟩
  obtain ⟨hGroup, hMeasurable, hSeries, hInject, hNodePlan, hReadyPlan⟩ := hReady
  have hGroupV : v.groups[l] = some g := by
    rw [hGroups]
    refine (hAbandoned l g hGroup).2 ?_
    rw [hSeries]
    exact fun e => by rcases e with e | e | e <;> exact nomatch e
  have hInjectorV (m : GroupId) : injectorOf v m = injectorOf s m := by
    have hSame := hShaped m
    unfold injectorOf at hSame ⊢
    rw [hGroups]
    exact hSame
  have hActive {m : GroupId} (hm : ownActive (seriesOf s m)) : m ≠ l := by
    rintro rfl
    rw [seriesOf_some hGroup, hSeries] at hm
    rcases hm with e | e | e <;> exact nomatch e
  have hStays {d : Chan} (hd : d = c ∨ wiredInto s d g.members = true) : chanView d v = chanView d s := by
    refine (chanView_eq (by rw [hSeqs]) (by rw [hSafety])).trans (hChan d fun m hm hInj => hActive hm ?_)
    obtain rfl | hWired := hd
    · exact hOwn m hInj
    · refine hSafe.injects_wired hInj ?_
      unfold membersOf
      rw [hGroup]
      exact hWired
  have hSeqV : v.seqs[c] = s.seqs[c] := congrArg Prod.fst (hStays (.inl rfl))
  have hVerify {d : Chan} (hd : d = c ∨ wiredInto s d g.members = true) : v.safety[d].verify = s.safety[d].verify :=
    congrArg (fun x : Seq × ChanSafety => x.2.verify) (hStays hd)
  have hWired (d : Chan) : wiredInto v d g.members = wiredInto s d g.members := by
    unfold wiredInto
    rw [hWiring]
  have hOwnGroup : ownGroup v g .series p = ownGroup s g .series p := by
    unfold ownGroup
    rw [hPlans]
  have hCopy : runCopy v c p = runCopy s c p := by
    unfold runCopy
    rw [hPlans, hWiring]
  obtain ⟨hGroupEnd, hFree, hHeld⟩ := hStarts l g c p
    ⟨hGroupV, hMeasurable, hSeries, hInject, by rw [hPlan]; exact hNodePlan, by rw [hPlans]; exact hReadyPlan⟩
    (fun m hm => hOwn m ((hInjectorV m).symm.trans hm)) (by rw [hSeqV]; exact hRest c hRun)
  rw [hOwnGroup] at hGroupEnd
  rw [hCopy, hSeqV] at hFree hHeld
  rw [hPlans] at hFree
  refine ⟨hGroupEnd, fun hFreeS => hFree fun d hd => ?_, fun ⟨d, hd, hVerifyS⟩ => hHeld ⟨d, ?_, ?_⟩⟩
  · rw [hWired] at hd
    rw [hVerify hd]
    exact hFreeS d hd
  · rwa [hWired]
  · rwa [hVerify hd]

end Sys2Proof.Machine
end

section
/-! PROOFS. PARKED: the scheduler with a turn due, the requests for PARKED and the timers' expiries. -/

namespace Sys2Proof.Machine

/-! ### Turns (R110) -/

/-- In PARKED with no order waiting nothing is decided, unless a turn is due, the permission free and a group qualifies. -/
theorem schedule_parked {s : State} (h : noneWaits s) (hMode : s.mode = .parked)
    (hNone : s.park = .due → permissionFree s = true → ∀ l ∈ s.rotation, startable s l = false) : s.schedule = s.detachIdle := by
  unfold State.schedule
  rw [scheduleAll_none h]
  rw [scheduleOne_noneWaits h, if_neg (by rw [hMode]; decide)]
  split_ifs with hDue
  · obtain ⟨-, hPark, hFree⟩ := hDue
    rw [List.find?_eq_none.mpr fun l hl => by rw [hNone hPark hFree l hl]; decide]
    rfl
  · rfl

theorem startTurn_park (s : State) (l : GroupId) : (s.startTurn l).park = .stopped := rfl

/-- A due turn goes to the first group in list order that qualifies, and with it no other is due. -/
theorem schedule_turn {s : State} (h : noneWaits s) (hMode : s.mode = .parked) (hPark : s.park = .due)
    (hFree : permissionFree s = true) {l : GroupId} (hFirst : (s.rotation.find? fun m => startable s m) = some l)
    (hIntake : (s.startTurn l).intake = s.intake) (hModeAfter : (s.startTurn l).mode = s.mode) :
    s.schedule = (s.startTurn l).detachIdle := by
  have hOne : scheduleOne s = some (s.startTurn l) := by
    rw [scheduleOne_noneWaits h, if_neg (by rw [hMode]; decide), if_pos ⟨hMode, hPark, hFree⟩, hFirst]
    rfl
  have hAfter : noneWaits (s.startTurn l) := noneWaits_congr h hIntake
  unfold State.schedule scheduleFuel
  rw [scheduleAll_some h hOne, scheduleAll_none hAfter]
  rw [scheduleOne_noneWaits hAfter, if_neg (by rw [hModeAfter, hMode]; decide), if_neg]
  rintro ⟨-, hDue, -⟩
  rw [startTurn_park] at hDue
  exact nomatch hDue

/-- A turn on a group ready to measure: its injector is detached, and the TRIPLE run started (R36, R110, R114). -/
theorem startTurn_eq {s : State} {l : GroupId} {g : Group} {c : Chan} {p : PlanId} (hGroup : s.groups[l] = some g)
    (hPlan : s.nodePlan[l] = some p) (hInject : g.injector = some c) : s.startTurn l = { s with
      groups := upd s.groups l (some (ownGroup s g .turn p))
      seqs := upd s.seqs c (runStarted (s.detach c) c .triple none (runCopy s c p))
      safety := upd s.safety c (safetyStarted (s.detach c) c), park := .stopped } := by
  have hDetach := detach_eq s c
  have hDetached (groups : Vector (Option Group) 8) : ({ s with groups := groups } : State).detach c =
      { s with groups := groups, seqs := (s.detach c).seqs, safety := (s.detach c).safety } := by
    rw [detach_eq { s with groups := groups } c, hDetach]
  have hSet : s.setOwn l .turn p = { s with groups := upd s.groups l (some { ownGroup s g .turn p with
      seriesCount := g.seriesCount }) } := modGroup_some hGroup _
  have hMoved : (s.setOwn l .turn p).detachForTurn c .triple = { s with
      groups := upd s.groups l (some { ownGroup s g .turn p with seriesCount := g.seriesCount })
      seqs := (s.detach c).seqs, safety := (s.detach c).safety } := by
    rw [hSet]
    exact (if_pos rfl).trans (hDetached _)
  have hCount : ((s.setOwn l .turn p).detachForTurn c .triple).countSeries l = { s with
      groups := upd s.groups l (some (ownGroup s g .turn p)), seqs := (s.detach c).seqs, safety := (s.detach c).safety } := by
    rw [hMoved]
    refine (modGroup_some (s := { s with
      groups := upd s.groups l (some { ownGroup s g .turn p with seriesCount := g.seriesCount })
      seqs := (s.detach c).seqs, safety := (s.detach c).safety }) (upd_same _ _ _) _).trans ?_
    simp only [upd_upd]
    rfl
  have hMay : mayAttach { s with
      groups := upd s.groups l (some (ownGroup s g .turn p)), seqs := (s.detach c).seqs, safety := (s.detach c).safety } c =
      mayAttach (s.detach c) c := by
    refine mayAttach_congr (fun m => ?_) ?_ ?_ ?_ c
    · rw [hDetach]
      exact shape_upd hGroup (g' := ownGroup s g .turn p) rfl rfl m
    · rw [hDetach]
    · rw [hDetach]
    · exact fun _ => rfl
  have hSeqs : ∀ q, upd (s.detach c).seqs c q = upd s.seqs c q := by
    rw [hDetach]
    exact fun q => upd_upd _ _ _ _
  have hSafety : ∀ x, upd (s.detach c).safety c x = upd s.safety c x := by
    rw [hDetach]
    exact fun x => upd_upd _ _ _ _
  unfold State.startTurn State.startOwn
  rw [hGroup, hPlan]
  dsimp only
  rw [hInject]
  dsimp only
  rw [hCount, startRun_eq (.inr rfl)]
  rw [← hSeqs, ← hSafety]
  unfold runStarted safetyStarted
  rw [hMay]

/-- A turn on a channel that is detached already. -/
theorem startTurn_detached {s : State} {l : GroupId} {g : Group} {c : Chan} {p : PlanId} (hGroup : s.groups[l] = some g)
    (hPlan : s.nodePlan[l] = some p) (hInject : g.injector = some c) (hDetached : s.seqs[c].coupling = .detached) :
    s.startTurn l = { s with
      groups := upd s.groups l (some (ownGroup s g .turn p)), seqs := upd s.seqs c (runStarted s c .triple none (runCopy s c p))
      safety := upd s.safety c (safetyStarted s c), park := .stopped } := by
  rw [startTurn_eq hGroup hPlan hInject, detach_detached (by rw [hDetached]; decide)]

/-- What PARKED makes of a due turn where nothing measures and every channel without a run is detached: the first group in
list order that is ready takes it. -/
theorem schedule_turnTaken {s : State} (hMode : s.mode = .parked) (hPark : s.park = .due) (hNone : noneWaits s)
    (hCheck : ∀ m, checkInProgress s m = false)
    (hRest : ∀ c : Chan, s.seqs[c].run = .none → s.seqs[c].coupling = .detached) (hSeries : ∀ m : GroupId, seriesOf s m = .none)
    {l : GroupId} {g : Group} {c : Chan} {p : PlanId} {ahead behind : List GroupId} (hRotation : s.rotation = ahead ++ l :: behind)
    (hReady : readyToMeasure s l g c p) (hRun : s.seqs[c].run = .none)
    (hAhead : ∀ m ∈ ahead, ∀ (g' : Group) (d : Chan) (q : PlanId), ¬ readyToMeasure s m g' d q) :
    s.schedule = { s with
      groups := upd s.groups l (some (ownGroup s g .turn p)), seqs := upd s.seqs c (runStarted s c .triple none (runCopy s c p))
      safety := upd s.safety c (safetyStarted s c), park := .stopped } := by
  obtain ⟨hGroup, -, -, hInject, hPlan, -⟩ := id hReady
  have hStartable : startable s l = true := (startable_iff hNone l).mpr ⟨⟨g, c, p, hReady⟩, hCheck l⟩
  have hFirst : (s.rotation.find? fun m => startable s m) = some l := by
    rw [hRotation, List.find?_append, List.find?_eq_none.mpr fun m hm hs => ?_]
    · simp [hStartable]
    · obtain ⟨⟨g', d, q, hReadyM⟩, -⟩ := (startable_iff hNone m).mp hs
      exact hAhead m hm g' d q hReadyM
  have hFree : permissionFree s = true := List.all_eq_true.mpr fun m _ => by
    rw [hSeries m]
    rfl
  have hTurn := startTurn_detached hGroup hPlan hInject (hRest c hRun)
  have hSchedule := schedule_turn hNone hMode hPark hFree hFirst (by rw [hTurn]) (by rw [hTurn])
  rw [hTurn] at hSchedule
  rw [hSchedule]
  refine detachIdle_idle fun d => ?_
  show (upd s.seqs c _)[d].run = .none → (upd s.seqs c _)[d].coupling = .detached
  by_cases hd : c = d
  · subst hd
    rw [upd_same]
    unfold runStarted
    split_ifs <;> exact fun e => nomatch e
  · rw [upd_other _ _ _ _ hd]
    exact hRest d

theorem schedule_turnWaits {s : State} (hMode : s.mode = .parked) (hNone : noneWaits s)
    (hRest : ∀ c : Chan, s.seqs[c].run = .none → s.seqs[c].coupling = .detached)
    (hReady : ∀ (l : GroupId) (g : Group) (c : Chan) (p : PlanId), ¬ readyToMeasure s l g c p) : s.schedule = s := by
  rw [schedule_parked hNone hMode, detachIdle_idle hRest]
  refine fun _ _ l _ => Bool.eq_false_iff.mpr fun hs => ?_
  obtain ⟨⟨g, c, p, h⟩, -⟩ := (startable_iff hNone l).mp hs
  exact hReady l g c p h

theorem runStarted_shape (s : State) (c : Chan) (kind : RunKind) (owner : Option SlotId) (copy : RunCopy) :
    (runStarted s c kind owner copy).run = kind ∧ (runStarted s c kind owner copy).owner = owner
    ∧ (runStarted s c kind owner copy).copy = copy := by
  unfold runStarted
  split_ifs <;> exact ⟨rfl, rfl, rfl⟩

/-! ### The expiries -/

theorem exec_settleExpiry {s : State} {l : GroupId} {g : Group} (hGroup : s.groups[l] = some g) (hSettle : g.settle ≠ none) :
    exec (.settleExpiry l) s =
      .next { s with groups := upd s.groups l (some { g with settle := none, measurable := true }) }.schedule := by
  show execSettleExpiry l s = _
  unfold execSettleExpiry
  rw [hGroup]
  dsimp only
  rw [if_pos (Option.isSome_iff_ne_none.mpr hSettle), modGroup_some hGroup]

theorem exec_parkTimerExpiry {s : State} {n : Nat} (h : s.park = .running n) :
    exec .parkTimerExpiry s = .next { s with park := .due }.schedule := by
  show execParkTimerExpiry s = _
  unfold execParkTimerExpiry
  rw [h]

theorem schedule_restful {s : State} (h : restful s) : s.schedule = s := by
  obtain ⟨hMode, hIntake, hRest⟩ := h
  rw [schedule_idle (noneWaits_empty hIntake) (by rw [hMode]; decide) (by rw [hMode]; decide), detachIdle_idle hRest]

/-- In RUN the group's series starts at its settle expiry (R106). -/
theorem settled_starts {s : State} {l : GroupId} {g : Group} {c : Chan} {p : PlanId} (hGroup : s.groups[l] = some g)
    (hMode : s.mode = .run) (hIntake : s.intake = []) (hSeries : g.series = .none) (hInject : g.injector = some c)
    (hOwn : ownInjector s l c) (hPlan : s.nodePlan[l] = some p) (hReady : s.plans[p].ready = true)
    (hDetached : s.seqs[c].coupling = .detached) :
    let t := { s with groups := upd s.groups l (some { g with settle := none, measurable := true }) }.schedule
    t.groups[l] = some { g with
        settle := none, measurable := true, series := .series, policy := s.plans[p].policy
        rotateCount := s.plans[p].rotate, rotation := 0, seriesCount := g.seriesCount + 1 }
    ∧ ((∀ d : Chan, d = c ∨ wiredInto s d g.members = true → s.safety[d].verify = none) →
        t.seqs[c] = { firstHalf s.seqs[c] .series none ⟨s.plans[p], some p, s.wiring[c].rm, s.wiring[c].rs⟩
          s.plans[p].startPol with coupling := .attached })
    ∧ ((∃ d : Chan, (d = c ∨ wiredInto s d g.members = true) ∧ s.safety[d].verify ≠ none) →
        t.seqs[c] = waitingRun s.seqs[c] .series none ⟨s.plans[p], some p, s.wiring[c].rm, s.wiring[c].rs⟩) := by
  obtain ⟨u, hu⟩ : ∃ u : State, u = { s with groups := upd s.groups l (some { g with settle := none, measurable := true }) } :=
    ⟨_, rfl⟩
  have hGroupU : u.groups[l] = some { g with settle := none, measurable := true } := by
    rw [hu]
    exact upd_same _ _ _
  have hInjectorU (m : GroupId) : injectorOf u m = injectorOf s m := by
    unfold injectorOf
    by_cases hl : l = m
    · subst hl
      rw [hGroupU, hGroup]
    · rw [show u.groups[m] = s.groups[m] by rw [hu]; exact upd_other _ _ _ _ hl]
  have hStarts := schedule_starts (s := u) (by rw [hu]; exact hMode) (by rw [hu]; exact hIntake) (c := c) (p := p)
    ⟨hGroupU, rfl, hSeries, hInject, by rw [hu]; exact hPlan, by rw [hu]; exact hReady⟩
    (fun m hm => hOwn m ((hInjectorU m).symm.trans hm)) (by rw [hu]; exact hDetached)
  have hPlans : u.plans = s.plans := by rw [hu]
  have hSeqs : u.seqs = s.seqs := by rw [hu]
  have hSafety : u.safety = s.safety := by rw [hu]
  have hWiring : u.wiring = s.wiring := by rw [hu]
  unfold ownGroup runCopy wiredInto at hStarts
  rw [hPlans, hSeqs, hSafety, hWiring] at hStarts
  rw [← hu]
  exact hStarts

/-- Settles O54: the expiry is the timer's end and one pass of the scheduler. -/
theorem settleAndParkTimersExpire : Obligations.SettleAndParkTimersExpire := by
  unfold Obligations.SettleAndParkTimersExpire
  refine ⟨fun s l g hGroup hSettle => ⟨fun hRestful => ?_, fun c p hMode hIntake hSeries hInject hOwn hPlan hReady _ hDetached => ?_⟩,
    fun s l hNone => ?_, fun s hNot => ?_, fun s n hRunning hMode hIntake hRest hSeries => ⟨fun hReady => ?_, ?_⟩⟩
  · rw [exec_settleExpiry hGroup hSettle]
    exact congrArg Host.Outcome.next (schedule_restful hRestful)
  · exact ⟨_, exec_settleExpiry hGroup hSettle, settled_starts hGroup hMode hIntake hSeries hInject hOwn hPlan hReady hDetached⟩
  · show execSettleExpiry l s = _
    unfold execSettleExpiry
    cases hGroup : s.groups[l] with
    | none => rfl
    | some g =>
      dsimp only
      rw [hNone g hGroup]
      rfl
  · show execParkTimerExpiry s = _
    unfold execParkTimerExpiry
    cases hPark : s.park with
    | running n => exact absurd hPark (hNot n)
    | stopped => rfl
    | due => rfl
  · exact (exec_parkTimerExpiry hRunning).trans (congrArg Host.Outcome.next
      (schedule_turnWaits (s := { s with park := .due }) hMode (noneWaits_empty hIntake) hRest hReady))
  · intro l g c p ahead behind hRotation hReady hRun hAhead
    have hTurn := schedule_turnTaken (s := { s with park := .due }) hMode rfl (noneWaits_empty hIntake)
      (fun m => checkInProgress_empty hIntake m) hRest hSeries hRotation hReady hRun hAhead
    refine ⟨_, exec_parkTimerExpiry hRunning, ?_⟩
    rw [hTurn]
    refine ⟨rfl, rfl, rfl, ?_, ?_, ?_, fun d hd => upd_other _ _ _ _ (Ne.symm hd)⟩
    · exact (congrArg Seq.run (upd_same _ _ _)).trans (runStarted_shape _ _ _ _ _).1
    · exact (congrArg Seq.owner (upd_same _ _ _)).trans (runStarted_shape _ _ _ _ _).2.1
    · exact (congrArg Seq.copy (upd_same _ _ _)).trans (runStarted_shape _ _ _ _ _).2.2

/-! ### A request for PARKED (R102, R109, R110) -/

theorem startTurn_frame (s : State) (l : GroupId) : s.startTurn l = { s with
    groups := (s.startTurn l).groups, seqs := (s.startTurn l).seqs, safety := (s.startTurn l).safety, park := .stopped } := by
  by_cases h : ∃ (g : Group) (c : Chan) (p : PlanId), s.groups[l] = some g ∧ g.injector = some c ∧ s.nodePlan[l] = some p
  · obtain ⟨g, c, p, hGroup, hInject, hPlan⟩ := h
    have hTurn := startTurn_eq hGroup hPlan hInject
    rw [hTurn]
  · have hNothing := startOwn_nothing (fun g c p h1 h2 h3 => h ⟨g, c, p, h1, h2, h3⟩) .turn .triple
    unfold State.startTurn
    rw [hNothing]

/-- In PARKED the scheduler leaves the rotation list. -/
theorem schedule_rotation {s : State} (h : noneWaits s) (hMode : s.mode = .parked) : s.schedule.rotation = s.rotation := by
  by_cases hTurn : s.park = .due ∧ permissionFree s = true ∧ (s.rotation.find? fun l => startable s l) ≠ none
  · obtain ⟨hPark, hFree, hFound⟩ := hTurn
    obtain ⟨l, hFirst⟩ := Option.ne_none_iff_exists'.mp hFound
    have hFrame := startTurn_frame s l
    have hIntake : (s.startTurn l).intake = s.intake := by rw [hFrame]
    have hModeAfter : (s.startTurn l).mode = s.mode := by rw [hFrame]
    have hRotation : (s.startTurn l).rotation = s.rotation := by rw [hFrame]
    rw [schedule_turn h hMode hPark hFree hFirst hIntake hModeAfter]
    rw [detachIdle_frame]
    exact hRotation
  · rw [schedule_parked h hMode fun hPark hFree l hl => Bool.eq_false_iff.mpr fun hs => hTurn ⟨hPark, hFree, fun e =>
      List.find?_eq_none.mp e l hl hs⟩]
    rw [detachIdle_frame]

/-- At most one group's measurement is an order's exactly where two of them are never different (R102). -/
theorem fewOrders_iff (s : State) : fewOrders s ↔ ¬ 2 ≤ orderGroups s := by
  have hMem (l : GroupId) : l ∈ (allNodes.filter fun l => decide (seriesOf s l = .order)) ↔ seriesOf s l = .order :=
    List.mem_filter.trans ((and_iff_right (mem_allNodes l)).trans decide_eq_true_iff)
  have hNodup : (allNodes.filter fun l => decide (seriesOf s l = .order)).Nodup := allNodes_nodup.filter _
  unfold fewOrders orderGroups
  generalize allNodes.filter (fun l => decide (seriesOf s l = .order)) = orders at hMem hNodup ⊢
  match orders with
  | [] => exact ⟨fun _ => by decide, fun _ l _ hl => nomatch (hMem l).mpr hl⟩
  | [a] =>
    refine ⟨fun _ => by simp, fun _ l m hl hm => ?_⟩
    rw [List.mem_singleton.mp ((hMem l).mpr hl), List.mem_singleton.mp ((hMem m).mpr hm)]
  | a :: b :: rest =>
    refine ⟨fun hFew => absurd (hFew a b ((hMem a).mp (by simp)) ((hMem b).mp (by simp))) fun e => ?_, fun h => absurd (by simp) h⟩
    subst e
    exact (List.nodup_cons.mp hNodup).1 List.mem_cons_self

/-- A stop is asked of a group whose own series runs alone. -/
theorem requestStop_noSeries {s : State} {l : GroupId} (h : seriesOf s l ≠ .series) : s.requestStop l = s := by
  unfold State.requestStop
  cases hGroup : s.groups[l] with
  | none => rfl
  | some g =>
    rw [seriesOf_some hGroup] at h
    cases hInject : g.injector with
    | none => simp [hInject]
    | some c => simp [hInject, h]

theorem grantable_pending {s : State} (h : s.parkedPending = true) (o : Order) : grantable s o = false := by
  unfold grantable
  rw [h]
  cases s.groups[o.group] <;> simp

/-- While PARKED pends in IDLE nothing is granted (R102). -/
theorem schedule_pending {s : State} (hPending : s.parkedPending = true) (hMode : s.mode = .idle)
    (hNoSeries : ∀ l : GroupId, seriesOf s l ≠ .series) (hRest : ∀ c : Chan, s.seqs[c].run = .none → s.seqs[c].coupling = .detached) :
    s.schedule = s := by
  have hStops : forEach allNodes (fun l t => t.requestStop l) s = s :=
    forEach_unchanged _ _ _ fun l _ => requestStop_noSeries (hNoSeries l)
  have hOne : scheduleOne s = none := by
    unfold scheduleOne
    rw [List.find?_eq_none.mpr fun o _ => by rw [grantable_pending hPending]; decide]
    dsimp only
    rw [hMode]
  unfold State.schedule scheduleFuel scheduleAll
  dsimp only
  rw [hStops, hOne]
  exact detachIdle_idle hRest

theorem exec_takesRequest {s : State} (hServed : served s) (hSafe : s.mode ≠ .safeStop) {f : BitVec 2} {m : Mode}
    (hf : m.code = f.toNat) (hNamed : m ≠ .safeStop) :
    exec (.modeRequest f s.hold.isSome) s = .next (((s.controlStart s.hold).takeRequest m).shift 0) := by
  rw [exec_modeRequest_held hServed.2, requestMode_named (s := s.controlStart s.hold) hSafe hf hNamed]

theorem schedule_request (s : State) : s.schedule.request = s.request := by
  have hFixed := (Working.schedule s).measuring.fixed
  generalize s.schedule = t at hFixed ⊢
  exact (congrArg State.request hFixed :)

/-- Every group stands in the list that a change to PARKED forms, in leader order (R109). -/
theorem changeMode_list (s : State) :
    (s.changeMode .parked).rotation = allNodes.filter fun l => (s.groups[l]).isSome := by
  have hList : (s.changeMode .parked).rotation = allNodes.filter fun l => s.abandonAll.groups[l].isSome := by
    rw [changeMode_parked]
  rw [hList]
  refine List.filter_congr fun l _ => ?_
  have hShape := (abandonAll_shaped s).shape l
  have hSome := congrArg Option.isSome hShape
  rwa [Option.isSome_map, Option.isSome_map] at hSome

theorem changeMode_parkedFrame (s : State) : s.changeMode .parked = { s with
    groups := s.abandonAll.groups, seqs := s.abandonAll.seqs, safety := s.abandonAll.safety
    mode := .parked, parkedPending := false, park := .due, rotation := allNodes.filter fun l => (s.groups[l]).isSome } := by
  have hBefore := (abandonAll_shaped s).frame
  rw [← changeMode_list s, changeMode_parked]
  generalize s.abandonAll = w at hBefore ⊢
  rw [hBefore]

/-- The change to PARKED of a part in which no group measures. -/
def State.parkedFrom (s : State) : State := { s with
  mode := .parked, parkedPending := false, park := .due, rotation := allNodes.filter fun l => (s.groups[l]).isSome }

theorem changeMode_parkedFrom {s : State} (h : ∀ l : GroupId, seriesOf s l = .none) : s.changeMode .parked = s.parkedFrom := by
  have hIdle : s.abandonAll = s := abandonAll_idle fun l hActive => by
    rw [h l] at hActive
    rcases hActive with e | e | e <;> exact nomatch e
  have hFrame := changeMode_parkedFrame s
  rw [hIdle] at hFrame
  exact hFrame

theorem parkedFrom_waits {s : State} (hIntake : s.intake = [])
    (hRest : ∀ c : Chan, s.seqs[c].run = .none → s.seqs[c].coupling = .detached)
    (hReady : ∀ (l : GroupId) (g : Group) (c : Chan) (p : PlanId), ¬ readyToMeasure s l g c p) :
    s.parkedFrom.schedule = s.parkedFrom :=
  schedule_turnWaits (s := s.parkedFrom) rfl (noneWaits_empty hIntake) hRest hReady

/-- The leaders below one of the list stand before it. -/
theorem allNodes_filter_ahead {keep : NodeId → Bool} {l : NodeId} (h : keep l = true) :
    ∃ ahead behind, allNodes.filter keep = ahead ++ l :: behind ∧ ∀ m ∈ ahead, m < l := by
  obtain ⟨ahead, behind, hSplit⟩ := List.append_of_mem (List.mem_filter.mpr ⟨mem_allNodes l, h⟩)
  have hSorted : (allNodes.filter keep).Pairwise (· < ·) := List.Pairwise.filter _ (by decide)
  rw [hSplit] at hSorted
  exact ⟨ahead, behind, hSplit, fun m hm => (List.pairwise_append.mp hSorted).2.2 m hm l List.mem_cons_self⟩

/-- The first ready group takes the first turn (R110). -/
theorem parkedFrom_turn {s : State} (hIntake : s.intake = [])
    (hRest : ∀ c : Chan, s.seqs[c].run = .none → s.seqs[c].coupling = .detached) (hSeries : ∀ m : GroupId, seriesOf s m = .none)
    {l : GroupId} {g : Group} {c : Chan} {p : PlanId} (hReady : readyToMeasure s l g c p) (hRun : s.seqs[c].run = .none)
    (hFirst : ∀ (m : GroupId) (g' : Group) (d : Chan) (q : PlanId), m < l → ¬ readyToMeasure s m g' d q) :
    ∃ (q : Seq) (x : ChanSafety), q.run = .triple ∧ q.owner = none ∧ q.copy = runCopy s c p
      ∧ s.parkedFrom.schedule = { s.parkedFrom with
          groups := upd s.groups l (some (ownGroup s g .turn p)), seqs := upd s.seqs c q, safety := upd s.safety c x, park := .stopped } := by
  have hSome : (s.groups[l]).isSome = true := by rw [hReady.1]; rfl
  obtain ⟨ahead, behind, hSplit, hAhead⟩ := allNodes_filter_ahead (keep := fun l => (s.groups[l]).isSome) hSome
  obtain ⟨hKind, hOwner, hCopy⟩ := runStarted_shape s.parkedFrom c .triple none (runCopy s c p)
  have hTurn := schedule_turnTaken (s := s.parkedFrom) rfl rfl (noneWaits_empty hIntake) (fun m => checkInProgress_empty hIntake m)
    hRest hSeries hSplit hReady hRun fun m hm g' d q => hFirst m g' d q (hAhead m hm)
  exact ⟨_, _, hKind, hOwner, hCopy, hTurn⟩

/-- Settles O34: a request for PARKED forms the list and gives the first turn; with orders of two groups in flight it waits. -/
theorem parkedRequestTakesTurns : Obligations.ParkedRequestTakesTurns := by
  unfold Obligations.ParkedRequestTakesTurns
  refine ⟨fun s hServed ⟨hMode, hIntake, hRest⟩ hFew hPending => ?_, fun s hServed hMode hPending hMany hNoSeries hRest => ?_,
    fun s hServed hMode hPending hWaits hNoSeries hRest => ?_⟩
  · have hFewCount : ¬ 2 ≤ orderGroups (s.controlStart s.hold) := (fewOrders_iff s).mp hFew
    have hTake : (s.controlStart s.hold).takeRequest .parked = ((s.requested .parked).changeMode .parked).schedule := by
      unfold State.takeRequest
      dsimp only
      rw [if_neg (show ¬ (s.controlStart s.hold).starting = true by
          rw [show (s.controlStart s.hold).starting = s.starting from rfl, hServed.1]; decide), if_pos rfl, if_neg, if_neg hFewCount]
      · rfl
      · rintro (h | h)
        · exact nomatch hMode.symm.trans h
        · exact nomatch hPending.symm.trans h
    have hExec := exec_takesRequest hServed (by rw [hMode]; decide) (f := 2) (m := .parked) rfl (by decide)
    rw [hTake] at hExec
    refine ⟨_, hExec, ?_⟩
    have hFrame := changeMode_parkedFrame (s.requested .parked)
    have hWorking := (Working.schedule ((s.requested .parked).changeMode .parked)).measuring
    have hModeV : ((s.requested .parked).changeMode .parked).mode = .parked := by rw [hFrame]
    have hPendingV : ((s.requested .parked).changeMode .parked).parkedPending = false := by rw [hFrame]
    have hRequestV : ((s.requested .parked).changeMode .parked).request = .parked := by rw [hFrame]; rfl
    have hIntakeV : ((s.requested .parked).changeMode .parked).intake = [] := by rw [hFrame]; exact hIntake
    have hRotation := (schedule_rotation (noneWaits_empty hIntakeV) hModeV).trans (changeMode_list (s.requested .parked))
    have hCalm := hWorking.calm hPendingV
    have hRequest := schedule_request ((s.requested .parked).changeMode .parked)
    have hQuiet (hSeries : ∀ l : GroupId, seriesOf s l = .none) :=
      congrArg State.schedule (changeMode_parkedFrom (s := s.requested .parked) hSeries)
    rw [hModeV] at hCalm
    rw [hRequestV] at hRequest
    clear hExec hTake hWorking hFrame hIntakeV hModeV hPendingV hRequestV
    generalize ((s.requested .parked).changeMode .parked).schedule = t at *
    refine ⟨hCalm.1, hRequest, hRotation, fun hReady hSeries => ?_, fun l g c p hReady hSeries hFirst hRun => ?_⟩
    · rw [hQuiet hSeries, parkedFrom_waits (s := s.requested .parked) hIntake hRest hReady]
      exact ⟨rfl, rfl, rfl⟩
    · obtain ⟨q, x, hKind, hOwner, hCopy, hTurn⟩ := parkedFrom_turn (s := s.requested .parked) hIntake hRest hSeries hReady hRun hFirst
      rw [(hQuiet hSeries).trans hTurn]
      exact ⟨rfl, upd_same _ _ _, fun m hm => upd_other _ _ _ _ (Ne.symm hm), (congrArg Seq.run (upd_same _ _ _)).trans hKind,
        (congrArg Seq.owner (upd_same _ _ _)).trans hOwner, (congrArg Seq.copy (upd_same _ _ _)).trans hCopy⟩
  · have hCount : 2 ≤ orderGroups (s.controlStart s.hold) := not_not.mp ((fewOrders_iff s).not.mp hMany)
    have hTake : (s.controlStart s.hold).takeRequest .parked =
        ({ s.requested .parked with parkedPending := true } : State).schedule := by
      unfold State.takeRequest
      dsimp only
      rw [if_neg (show ¬ (s.controlStart s.hold).starting = true by
          rw [show (s.controlStart s.hold).starting = s.starting from rfl, hServed.1]; decide), if_pos rfl, if_neg, if_pos hCount,
        if_pos (show (s.controlStart s.hold).mode = .idle from hMode)]
      · rfl
      · rintro (h | h)
        · exact nomatch hMode.symm.trans h
        · exact nomatch hPending.symm.trans h
    rw [exec_takesRequest hServed (by rw [hMode]; decide) (m := .parked) rfl (by decide), hTake,
      schedule_pending (s := { s.requested .parked with parkedPending := true }) rfl hMode hNoSeries hRest]
    rfl
  · have hTake : (s.controlStart s.hold).takeRequest .idle =
        ({ s.requested .idle with parkedPending := false } : State).schedule := by
      unfold State.takeRequest
      dsimp only
      rw [if_neg (show ¬ (s.controlStart s.hold).starting = true by
          rw [show (s.controlStart s.hold).starting = s.starting from rfl, hServed.1]; decide), if_neg (by decide),
        if_pos (show .idle = (s.controlStart s.hold).mode from hMode.symm),
        if_pos (show (s.controlStart s.hold).parkedPending = true from hPending)]
      rfl
    rw [exec_takesRequest hServed (by rw [hMode]; decide) (m := .idle) rfl (by decide), hTake,
      schedule_idle (s := { s.requested .idle with parkedPending := false }) hWaits
        (show s.mode ≠ _ by rw [hMode]; decide) (show s.mode ≠ _ by rw [hMode]; decide),
      detachIdle_idle (s := { s.requested .idle with parkedPending := false }) hRest]
    rfl

end Sys2Proof.Machine
end

section
/-! PROOFS. The injector's rotation, and the third edge of a PARKED turn. -/

namespace Sys2Proof.Machine

/-! ### The next injector in line (R107) -/

theorem eligible_iff {s : State} {l : GroupId} {g : Group} (hGroup : s.groups[l] = some g) (c : Chan) :
    eligible s g c = true ↔ mayInject s l c := by
  have hMembers : membersOf s l = g.members := by
    unfold membersOf
    rw [hGroup]
  unfold eligible mayInject serviceable groupPassive
  rw [hMembers]
  simp only [Bool.and_eq_true, decide_eq_true_eq, Bool.not_eq_true', decide_eq_false_iff_not, not_not]
  tauto

/-- The first of the channels with a property is the lowest of them. -/
theorem allChans_find {keep : Chan → Bool} {d : Chan} (h : keep d = true) (hFirst : ∀ e : Chan, e < d → keep e = false) :
    (allChans.find? keep) = some d := by
  cases hFound : allChans.find? keep with
  | none => exact absurd h (List.find?_eq_none.mp hFound d (mem_allChans d))
  | some e =>
    obtain ⟨hKeep, as, bs, hSplit, hAs⟩ := List.find?_eq_some_iff_append.mp hFound
    refine congrArg some ?_
    have hSorted : allChans.Pairwise (· < ·) := by decide
    by_contra hNe
    rcases lt_or_gt_of_ne hNe with hLt | hGt
    · rw [hFirst e hLt] at hKeep
      exact nomatch hKeep
    · have hIn : d ∈ as ++ e :: bs := hSplit ▸ mem_allChans d
      rw [hSplit] at hSorted
      rcases List.mem_append.mp hIn with hAhead | hBehind
      · have hNot := hAs d hAhead
        rw [h] at hNot
        exact nomatch hNot
      · rcases List.mem_cons.mp hBehind with hSame | hLater
        · exact hNe hSame.symm
        · exact absurd (List.rel_of_pairwise_cons (List.pairwise_append.mp hSorted).2.1 hLater) (not_lt_of_gt hGt)

theorem nextInjector_inLine {s : State} {l : GroupId} {g : Group} (hGroup : s.groups[l] = some g) {c d : Chan}
    (h : nextInLine s l c d) : nextInjector s g c = d := by
  obtain ⟨hMay, hLine⟩ := h
  have hNot {e : Chan} (he : ¬ mayInject s l e) : eligible s g e = false := by
    rw [Bool.eq_false_iff]
    exact fun k => he ((eligible_iff hGroup e).mp k)
  unfold nextInjector
  rcases hLine with ⟨hAbove, hBetween⟩ | ⟨hNone, hLowest⟩
  · rw [allChans_find (keep := fun d => decide (c < d) && eligible s g d) (d := d)]
    · exact Bool.and_eq_true_iff.mpr ⟨decide_eq_true hAbove, (eligible_iff hGroup d).mpr hMay⟩
    · intro e he
      by_cases hce : c < e
      · rw [hNot (hBetween e hce he), Bool.and_false]
      · rw [decide_eq_false hce, Bool.false_and]
  · have hEmpty : (allChans.find? fun d => decide (c < d) && eligible s g d) = none := List.find?_eq_none.mpr fun e _ => by
      by_cases hce : c < e
      · rw [hNot (hNone e hce), Bool.and_false]
        decide
      · rw [decide_eq_false hce, Bool.false_and]
        decide
    rw [hEmpty]
    unfold lowestEligible
    dsimp only
    rw [allChans_find ((eligible_iff hGroup d).mpr hMay) fun e he => hNot (hLowest e he)]
    rfl

/-! ### The settle timer started (R12) -/

/-- The group once its settle timer is started by the leader's plan. -/
def settledGroup (plan : Option PlanCopy) (g : Group) : Group :=
  plan.elim { g with settle := none, waitPlan := true, measurable := false } fun p =>
    if p.settle = 0 then { g with settle := none, waitPlan := false, measurable := true }
    else { g with settle := some p.settle, waitPlan := false, measurable := false }

theorem startSettle_eq {s : State} {l : GroupId} {g : Group} (hGroup : s.groups[l] = some g) :
    s.startSettle l = { s with groups := upd s.groups l (some (settledGroup (readyPlan s l) g)) } := by
  unfold State.startSettle settledGroup
  cases readyPlan s l with
  | none => exact modGroup_some hGroup _
  | some p =>
    dsimp only [Option.elim]
    split_ifs
    · exact modGroup_some hGroup _
    · exact modGroup_some hGroup _

/-! ### The rotation (R107) -/

/-- The group whose injector has moved on. -/
def movedGroup (s : State) (l : GroupId) (g : Group) (d : Chan) : Group :=
  settledGroup (readyPlan s l) { g with injector := some d, series := .none, rotation := 0 }

theorem rotate_stays {s : State} {l : GroupId} {g : Group} {c : Chan} (hGroup : s.groups[l] = some g)
    (hInject : g.injector = some c) (hNext : nextInjector s g c = c) : s.rotate l = s := by
  unfold State.rotate
  rw [hGroup]
  dsimp only
  rw [hInject]
  exact if_pos hNext

theorem rotate_moves {s : State} {l : GroupId} {g : Group} {c d : Chan} (hGroup : s.groups[l] = some g)
    (hInject : g.injector = some c) (hNext : nextInjector s g c = d) (hd : d ≠ c) : s.rotate l = { s with
      groups := upd s.groups l (some (movedGroup s l g d)), seqs := upd s.seqs c (stoppedSeq s.seqs[c])
      safety := upd s.safety c (stoppedSafety s.seqs[c] s.safety[c]) } := by
  obtain ⟨u, hu⟩ : ∃ u : State, u = { s with seqs := upd s.seqs c (stoppedSeq s.seqs[c])
                                             safety := upd s.safety c (stoppedSafety s.seqs[c] s.safety[c]) } := ⟨_, rfl⟩
  have hGroupU : u.groups[l] = some g := by
    rw [hu]
    exact hGroup
  have hMoved : u.moveInjector l d =
      { u with groups := upd u.groups l (some { g with injector := some d, series := .none, rotation := 0 }) } := modGroup_some hGroupU _
  unfold State.rotate
  rw [hGroup]
  dsimp only
  rw [hInject]
  dsimp only
  rw [hNext, if_neg hd, stopChannel_eq, ← hu, hMoved, startSettle_eq (upd_same _ _ _)]
  simp only [upd_upd]
  unfold movedGroup
  rw [hu]
  rfl

/-! ### The sequencer that an edge ends (R31) -/

/-- The edge finds the channel's coupling, context and record as they stand, and its run. -/
theorem EndsHalf.keeps {s : State} {c : Chan} {i : Instr} {q : Seq} {flag : Option Cond} {time : Nat} (h : EndsHalf s c i q flag time) :
    q.coupling = s.seqs[c].coupling ∧ q.ctx = s.seqs[c].ctx ∧ q.record = s.seqs[c].record ∧ q.latestUb = s.seqs[c].latestUb
    ∧ q.viewLatched = s.seqs[c].viewLatched ∧ q.run = s.seqs[c].run ∧ q.owner = s.seqs[c].owner := by
  have hLast : (lastWindow s.seqs[c]).coupling = s.seqs[c].coupling ∧ (lastWindow s.seqs[c]).ctx = s.seqs[c].ctx
      ∧ (lastWindow s.seqs[c]).record = s.seqs[c].record ∧ (lastWindow s.seqs[c]).latestUb = s.seqs[c].latestUb
      ∧ (lastWindow s.seqs[c]).viewLatched = s.seqs[c].viewLatched ∧ (lastWindow s.seqs[c]).run = s.seqs[c].run
      ∧ (lastWindow s.seqs[c]).owner = s.seqs[c].owner := by
    unfold lastWindow
    split_ifs <;> exact ⟨rfl, rfl, rfl, rfl, rfl, rfl, rfl⟩
  cases h with
  | ready => exact ⟨rfl, rfl, rfl, rfl, rfl, rfl, rfl⟩
  | unready => exact hLast
  | missedAtMax => exact hLast
  | sync => exact ⟨rfl, rfl, rfl, rfl, rfl, rfl, rfl⟩
  | timeout => exact ⟨rfl, rfl, rfl, rfl, rfl, rfl, rfl⟩
  | selfcheck => exact ⟨rfl, rfl, rfl, rfl, rfl, rfl, rfl⟩

theorem edgeAt_keeps {s : State} {c : Chan} {i : Instr} {q : Seq} {h : List Plateau} (hEdge : edgeAt s c i q h) :
    q.coupling = s.seqs[c].coupling ∧ q.ctx = s.seqs[c].ctx ∧ q.record = s.seqs[c].record ∧ q.latestUb = s.seqs[c].latestUb
    ∧ q.viewLatched = s.seqs[c].viewLatched ∧ q.run = s.seqs[c].run ∧ q.owner = s.seqs[c].owner := by
  obtain ⟨flag, time, p, hEnds, -⟩ := hEdge
  exact hEnds.keeps

/-- Eligibility looks at wiring, standings, contexts, checks and yields alone. -/
theorem eligible_congr {s t : State} {g g' : Group} (hWiring : t.wiring = s.wiring) (hIntake : t.intake = s.intake)
    (hYields : t.yields = s.yields) (hMembers : g'.members = g.members)
    (hStanding : ∀ d : Chan, t.safety[d].health = s.safety[d].health ∧ t.safety[d].disconnected = s.safety[d].disconnected)
    (hCtx : ∀ d : Chan, t.seqs[d].ctx = .held ↔ s.seqs[d].ctx = .held) (d : Chan) : eligible t g' d = eligible s g d := by
  obtain ⟨hHealth, hDisconnected⟩ := hStanding d
  unfold eligible wiredInto serviceable checking groupPassive
  rw [hWiring, hIntake, hYields, hMembers, hHealth, hDisconnected]
  have hHeld : decide (t.seqs[d].ctx ≠ .held) = decide (s.seqs[d].ctx ≠ .held) := decide_eq_decide.mpr (not_congr (hCtx d))
  rw [hHeld]

theorem nextInjector_congr {s t : State} {g g' : Group} (h : ∀ d : Chan, eligible t g' d = eligible s g d) (c : Chan) :
    nextInjector t g' c = nextInjector s g c := by
  unfold nextInjector lowestEligible
  simp only [h]

/-! ### A turn completes (R111) -/

/-- The group after its turn: its measurement is free, and under ROTATE its injector has moved on. -/
def turnedGroup (s : State) (l : GroupId) (g : Group) (c : Chan) : Group :=
  if g.policy = .rotate ∧ nextInjector s g c ≠ c then movedGroup s l { g with series := .none } (nextInjector s g c)
  else { g with series := .none }

/-- The park interval that the memory holds, clamped when read, in milliseconds (R113). -/
theorem parkInterval_eq (m : Memory) : parkInterval m = max 10 (min 3600 (m.read16 0x040)) := by
  unfold parkInterval clampTo
  simp only [show globalBase = 0x040 from rfl]
  split_ifs <;> (dsimp only; omega)

/-- The channel at rest after its run. -/
def restingSeq (q : Seq) : Seq := { q with coupling := .detached }

def verified (x : ChanSafety) : ChanSafety := { x with verify := some 5 }

theorem stoppedSeq_resting {q : Seq} (hRun : q.run = .none) : stoppedSeq (restingSeq q) = restingSeq q := by
  unfold stoppedSeq restingSeq
  rw [if_neg (by rw [show ({ q with coupling := .detached } : Seq).run = q.run from rfl, hRun]; decide)]

/-- The state in which a turn leaves its group, its channel, the rotation list and the park timer. -/
def State.turned (u : State) (l : GroupId) (g : Group) (c : Chan) : State := { u with
  groups := upd u.groups l (some (turnedGroup u l g c)), seqs := upd u.seqs c (restingSeq u.seqs[c])
  safety := upd u.safety c (verified u.safety[c]), rotation := (u.rotation.filter fun x => x ≠ l) ++ [l]
  park := .running (parkInterval u.mem * 1000) }

theorem turnDone_eq {u : State} {l : GroupId} {g : Group} {c : Chan} (hGroup : u.groups[l] = some g)
    (hInject : g.injector = some c) (hRun : u.seqs[c].run = .none) (hAttached : u.seqs[c].coupling = .attached) :
    u.turnDone c l = (u.turned l g c).schedule := by
  obtain ⟨v, hv⟩ : ∃ v : State, v = { u with
    groups := upd u.groups l (some { g with series := .none }), seqs := upd u.seqs c (restingSeq u.seqs[c])
    safety := upd u.safety c (verified u.safety[c]) } := ⟨_, rfl⟩
  have hFree : (u.setSeries l .none).detach c = v := by
    have hSet : u.setSeries l .none = { u with groups := upd u.groups l (some { g with series := .none }) } := modGroup_some hGroup _
    rw [hSet, hv]
    exact detach_attached hRun hAttached
  have hGroupV : v.groups[l] = some { g with series := .none } := by
    rw [hv]
    exact upd_same _ _ _
  have hSeqV : v.seqs[c] = restingSeq u.seqs[c] := by
    rw [hv]
    exact upd_same _ _ _
  have hCtx (d : Chan) : v.seqs[d].ctx = .held ↔ u.seqs[d].ctx = .held := by
    rw [hv]
    show (upd u.seqs c _)[d].ctx = _ ↔ _
    by_cases hd : c = d
    · subst hd
      rw [upd_same]
      rfl
    · rw [upd_other _ _ _ _ hd]
  have hStanding (d : Chan) : v.safety[d].health = u.safety[d].health ∧ v.safety[d].disconnected = u.safety[d].disconnected := by
    rw [hv]
    show (upd u.safety c _)[d].health = _ ∧ (upd u.safety c _)[d].disconnected = _
    by_cases hd : c = d
    · subst hd
      rw [upd_same]
      exact ⟨rfl, rfl⟩
    · rw [upd_other _ _ _ _ hd]
      exact ⟨rfl, rfl⟩
  have hNext : nextInjector v { g with series := .none } c = nextInjector u g c :=
    nextInjector_congr (eligible_congr (by rw [hv]) (by rw [hv]) (by rw [hv]) rfl hStanding hCtx) c
  have hPlan : readyPlan v l = readyPlan u l := by
    rw [hv]
    rfl
  have hTurned : (v.rotateTurn l).afterTurn l = u.turned l g c := by
    have hRotated : v.rotateTurn l = { v with groups := upd v.groups l (some (turnedGroup u l g c)) } := by
      have hSame : v = { v with groups := upd v.groups l (some { g with series := .none }) } := by
        rw [hv]
        simp only [upd_upd]
      unfold State.rotateTurn turnedGroup
      rw [hGroupV]
      dsimp only
      by_cases hRotate : g.policy = .rotate
      · rw [if_pos hRotate]
        by_cases hMoves : nextInjector u g c ≠ c
        · rw [if_pos ⟨hRotate, hMoves⟩, rotate_moves hGroupV hInject hNext hMoves, hSeqV, stoppedSeq_resting hRun,
            show stoppedSafety (restingSeq u.seqs[c]) v.safety[c] = v.safety[c] from if_neg fun e => nomatch e]
          unfold movedGroup
          rw [hPlan, ← hSeqV]
          simp [upd]
        · rw [if_neg fun k => hMoves k.2, rotate_stays hGroupV hInject (hNext.trans (not_not.mp hMoves))]
          exact hSame
      · rw [if_neg hRotate, if_neg fun k => hRotate k.1]
        exact hSame
    rw [hRotated, hv]
    unfold State.afterTurn State.turned
    simp only [upd_upd]
  unfold State.turnDone
  dsimp only
  rw [hFree, hTurned]

/-- Settles O43: the turn's end touches its group and its channel, and the park timer then runs. -/
theorem turnCompletes : Obligations.TurnCompletes := by
  unfold Obligations.TurnCompletes
  intro i s c d q h l g hEdge hRun hHalf hOwner hMode hIntake hInjects hGroup hAttached
  obtain ⟨g', hGroup', hInject⟩ := groupOfInjector_group hInjects
  obtain rfl : g' = g := Option.some.inj (hGroup'.symm.trans hGroup)
  obtain ⟨hCoupling, hCtx, -⟩ := edgeAt_keeps hEdge
  have hExec := exec_edge_turn hEdge hRun (by rw [hHalf]; decide) hOwner hInjects
  have hSeqU : (s.handed c q h (runOver q)).seqs[c] = runOver q := upd_same _ _ _
  rw [turnDone_eq (u := s.handed c q h (runOver q)) hGroup hInject (by rw [hSeqU]; rfl)
    (by rw [hSeqU]; exact hCoupling.trans hAttached)] at hExec
  obtain ⟨u, hu⟩ : ∃ u, u = s.handed c q h (runOver q) := ⟨_, rfl⟩
  rw [← hu] at hExec hSeqU
  have hRest : (u.turned l g' c).schedule = (u.turned l g' c).detachIdle :=
    schedule_parked (s := u.turned l g' c) (noneWaits_empty (by rw [hu]; exact hIntake)) (by rw [hu]; exact hMode)
      fun e => nomatch (show ParkTimer.running _ = .due from e)
  have hFrame := detachIdle_frame (u.turned l g' c)
  obtain ⟨hSeq, hSafety⟩ := detachIdle_chan (u.turned l g' c) c
  have hSeqV : (u.turned l g' c).seqs[c] = { runOver q with coupling := .detached } := (upd_same _ _ _).trans (by rw [hSeqU]; rfl)
  have hSafetyV : (u.turned l g' c).safety[c] = { s.safety[c] with verify := some 5 } := (upd_same _ _ _).trans (by rw [hu]; rfl)
  have hEligible (e : Chan) : eligible u g' e = eligible s g' e := by
    refine eligible_congr ?_ ?_ ?_ rfl (fun _ => ?_) (fun f => ?_) e
    · rw [hu]; rfl
    · rw [hu]; rfl
    · rw [hu]; rfl
    · rw [hu]; exact ⟨rfl, rfl⟩
    · by_cases hf : c = f
      · subst hf
        rw [hSeqU]
        exact iff_of_eq (congrArg (· = CtxKind.held) hCtx)
      · rw [hu]
        exact iff_of_eq (congrArg (fun x : Seq => x.ctx = .held) (upd_other _ _ _ _ hf))
  have hNext := nextInjector_congr hEligible c
  have hGroupV : (u.turned l g' c).groups[l] = some (turnedGroup u l g' c) := upd_same _ _ _
  rw [hRest] at hExec
  rw [hSeqV] at hSeq hSafety
  rw [hSafetyV] at hSafety
  refine ⟨_, hExec, ?_⟩
  have hTriples : (u.turned l g' c).triples = s.triples ++ handedAt s c q h := by rw [hu]; rfl
  have hRotation : (u.turned l g' c).rotation = (s.rotation.filter fun x => x ≠ l) ++ [l] := by rw [hu]; rfl
  have hPark : (u.turned l g' c).park = .running (max 10 (min 3600 (s.mem.read16 0x040)) * 1000) := by
    rw [← parkInterval_eq, hu]; rfl
  have hOthers (m : GroupId) (hm : m ≠ l) : (u.turned l g' c).groups[m] = s.groups[m] :=
    (upd_other _ _ _ _ (Ne.symm hm)).trans (by rw [hu]; rfl)
  have hPlan : readyPlan u l = readyPlan s l := by rw [hu]; rfl
  generalize u.turned l g' c = v at *
  generalize v.detachIdle = t at *
  rw [show t.groups = v.groups by rw [hFrame]]
  refine ⟨by rw [hFrame]; exact hTriples, hSeq.trans rfl, hSafety.trans rfl, by rw [hFrame]; exact hRotation,
    by rw [hFrame]; exact hPark, hOthers, fun hStay => hGroupV.trans ?_, fun hRotate hLine hd p hReady hSettle => hGroupV.trans ?_⟩
  · unfold turnedGroup
    rw [hNext, if_neg]
    rintro ⟨hRotate, hMoves⟩
    rcases hStay with hLowest | hLine
    · rw [hRotate] at hLowest
      exact nomatch hLowest
    · exact hMoves (nextInjector_inLine hGroup hLine)
  · have hNextD := nextInjector_inLine hGroup hLine
    unfold turnedGroup movedGroup settledGroup
    rw [hNext, hNextD, if_pos ⟨hRotate, hd⟩, hPlan, hReady]
    dsimp only [Option.elim]
    rw [if_neg hSettle]

end Sys2Proof.Machine
end

section
/-! PROOFS. The entry into SAFE_STOP, field by field, and the end of start-up. -/

namespace Sys2Proof.Machine

/-! ### What the entry into SAFE_STOP keeps of the safety unit -/

/-- The safety unit's own figures stay: lines, failed verifies, standings, its news and its level. -/
structure SafetyKept (s t : State) : Prop where
  starting : t.starting = s.starting
  lines : t.lines = s.lines
  failMask : t.failMask = s.failMask
  news : t.news.chanSafety = s.news.chanSafety
  level : has8 t.attn.pending 6 = has8 s.attn.pending 6
  standing : ∀ c : Chan, t.safety[c].health = s.safety[c].health ∧ t.safety[c].disconnected = s.safety[c].disconnected

theorem SafetyKept.trans {s t u : State} (h : SafetyKept s t) (k : SafetyKept t u) : SafetyKept s u :=
  ⟨k.starting.trans h.starting, k.lines.trans h.lines, k.failMask.trans h.failMask, k.news.trans h.news,
    k.level.trans h.level, fun c => ⟨(k.standing c).1.trans (h.standing c).1, (k.standing c).2.trans (h.standing c).2⟩⟩

theorem SafetyKept.of_acts {S : SlotId → Prop} {s t : State} (h : Acts S s t) : SafetyKept s t := by
  obtain ⟨hFixed, hLevel, -, -, -, -, -, -, hChan⟩ := h.left
  exact ⟨(congrArg State.starting hFixed :), (congrArg State.lines hFixed :), (congrArg State.failMask hFixed :),
    (congrArg (fun u : State => u.news.chanSafety) hFixed :), hLevel 6 (by decide) (by decide),
    fun c => ⟨(hChan c).health, (hChan c).disconnected⟩⟩

theorem SafetyKept.of_recording {s t : State} (h : Recording s t) (hAttn : t.attn = s.attn) (hNews : t.news = s.news) :
    SafetyKept s t := by
  obtain ⟨hFixed, -, -⟩ := h
  have hSafety : t.safety = s.safety := (congrArg State.safety hFixed :)
  refine ⟨(congrArg State.starting hFixed :), (congrArg State.lines hFixed :), (congrArg State.failMask hFixed :), by rw [hNews],
    by rw [hAttn], fun c => by rw [hSafety]; exact ⟨rfl, rfl⟩⟩

/-- What acts keep of the entry's cause and of the mode. -/
theorem Acts.inSafeStop {S : SlotId → Prop} {s t : State} (h : Acts S s t) (hMode : s.mode = .safeStop) : t.mode = .safeStop :=
  h.keeps (P := fun u => u.mode = .safeStop) (fun u v hAct hu => by
    cases hAct with
    | group l f =>
      unfold State.modGroup
      split <;> exact hu
    | refuse n why => exact (congrArg State.mode (completeSlot_eq u n _ _ _)).trans hu
    | schedule mode pending park rotation hMode => exact hMode.mpr hu
    | _ => exact hu) hMode

theorem setSafeStop_level (a : Attn) (fact : Bool) (k : Level) (hk : k ≠ 0) :
    has8 (a.setSafeStop fact).pending k.val = has8 a.pending k.val := by
  have hNot : (0 : Nat) ≠ k.val := fun e => hk (Fin.ext e.symm)
  unfold Attn.setSafeStop Attn.follow
  split_ifs
  · rfl
  · rfl
  · show has8 (a.pending ||| bit8 0) k.val = _
    rw [has8_add _ _ _ (by decide) k.isLt, decide_eq_false hNot, Bool.or_false]
  · show has8 (a.pending &&& ~~~bit8 0) k.val = _
    rw [has8_remove _ _ _ (by decide) k.isLt, decide_eq_false hNot, Bool.not_false, Bool.and_true]

/-- The state in which the entry hands over to the refusals and the regroup. -/
def State.stopped (s : State) (cause : Cause) (chan : Option Chan) : State :=
  ((forEach allChans (fun c t => t.silence c) (s.setCause cause chan)).dropResults.endHold).stopMode

theorem enterSafeStop_eq {s : State} (h : s.mode ≠ .safeStop) (cause : Cause) (chan : Option Chan) :
    s.enterSafeStop cause chan = ((s.stopped cause chan).refuseTaken .safeStop).regroupCore false := if_neg h

theorem enterSafeStop_same {s : State} (h : s.mode = .safeStop) (cause : Cause) (chan : Option Chan) :
    s.enterSafeStop cause chan = s := if_pos h

theorem silenceAll_acts (s : State) : Acts (fun _ => True) s (forEach allChans (fun c t => t.silence c) s) :=
  Acts.forEach _ _ (fun _ _ => trivial) fun c _ t _ => Acts.silence t c

theorem clearSeries_acts (s : State) : Acts (fun _ => True) s s.clearSeries :=
  Acts.forEach _ _ (fun _ _ => trivial) fun l _ t _ => Acts.seriesOver t l

theorem endHold_ports (s : State) : s.endHold.attn = s.attn ∧ s.endHold.news = s.news := by
  refine forEach_keeps (P := fun t : State => t.attn = s.attn ∧ t.news = s.news) _ _ _ ⟨rfl, rfl⟩ fun n _ t ht => ?_
  split_ifs
  · rw [writeImage_eq]
    exact ht
  · exact ht

theorem stopped_acts (s : State) (cause : Cause) (chan : Option Chan) :
    Acts (fun _ => True) (s.stopped cause chan) (((s.stopped cause chan).refuseTaken .safeStop).regroupCore false) :=
  (Acts.refuseTaken (fun _ _ => trivial) _).trans (Acts.regroupCore (fun _ _ => trivial) false)

theorem stopped_kept (s : State) (cause : Cause) (chan : Option Chan) : SafetyKept s (s.stopped cause chan) := by
  have hSilent : SafetyKept s (forEach allChans (fun c t => t.silence c) (s.setCause cause chan)) :=
    SafetyKept.trans (t := s.setCause cause chan) ⟨rfl, rfl, rfl, rfl, rfl, fun _ => ⟨rfl, rfl⟩⟩ (.of_acts (silenceAll_acts _))
  unfold State.stopped
  generalize forEach allChans (fun c t => t.silence c) (s.setCause cause chan) = u at hSilent ⊢
  have hDropped : SafetyKept s u.dropResults := hSilent.trans ⟨rfl, rfl, rfl, rfl, rfl, fun _ => ⟨rfl, rfl⟩⟩
  generalize u.dropResults = v at hDropped ⊢
  obtain ⟨hAttn, hNews⟩ := endHold_ports v
  have hEnded : SafetyKept s v.endHold := hDropped.trans (.of_recording (Recording.endHold v) hAttn hNews)
  generalize v.endHold = w at hEnded ⊢
  have hCleared := hEnded.trans (.of_acts (clearSeries_acts w))
  have hAttnW : w.clearSeries.attn = w.attn := by
    refine forEach_keeps (P := fun t : State => t.attn = w.attn) _ _ _ rfl fun l _ t ht => ?_
    rw [← ht]
    exact State.modGroup_attn _ _ _
  unfold State.stopMode
  generalize w.clearSeries = x at hCleared hAttnW ⊢
  obtain ⟨hStarting, hLines, hFailMask, hChanSafety, hLevel, hStanding⟩ := hCleared
  refine ⟨hStarting, hLines, hFailMask, hChanSafety, ?_, hStanding⟩
  rw [← hLevel, hAttnW]
  exact setSafeStop_level w.attn true 6 (by decide)

theorem stopped_mode (s : State) (cause : Cause) (chan : Option Chan) : (s.stopped cause chan).mode = .safeStop := by
  unfold State.stopped State.stopMode
  rfl

theorem stopped_cause (s : State) (cause : Cause) (chan : Option Chan) :
    (s.stopped cause chan).cause = cause ∧ (s.stopped cause chan).causeChan = chan := by
  have hSilent := (silenceAll_acts (s.setCause cause chan)).left.fixed
  unfold State.stopped
  generalize forEach allChans (fun c t => t.silence c) (s.setCause cause chan) = u at hSilent ⊢
  have hCause : u.dropResults.cause = cause ∧ u.dropResults.causeChan = chan :=
    ⟨(congrArg State.cause hSilent :), (congrArg State.causeChan hSilent :)⟩
  generalize u.dropResults = v at hCause ⊢
  have hEnded := (Recording.endHold v).fixed
  generalize v.endHold = w at hEnded ⊢
  have hCauseEnd : w.cause = cause ∧ w.causeChan = chan :=
    ⟨(congrArg State.cause hEnded :).trans hCause.1, (congrArg State.causeChan hEnded :).trans hCause.2⟩
  have hCleared := (clearSeries_acts w).left.fixed
  unfold State.stopMode
  generalize w.clearSeries = x at hCleared ⊢
  exact ⟨(congrArg State.cause hCleared :).trans hCauseEnd.1, (congrArg State.causeChan hCleared :).trans hCauseEnd.2⟩

/-- The entry into SAFE_STOP, as far as start-up and the header see it (R150, R152). -/
theorem enterSafeStop_kept {s : State} (h : s.mode ≠ .safeStop) (cause : Cause) (chan : Option Chan) :
    SafetyKept s (s.enterSafeStop cause chan) ∧ (s.enterSafeStop cause chan).mode = .safeStop
    ∧ (s.enterSafeStop cause chan).cause = cause ∧ (s.enterSafeStop cause chan).causeChan = chan := by
  have hActs := stopped_acts s cause chan
  have hKept := stopped_kept s cause chan
  obtain ⟨hCause, hChan⟩ := stopped_cause s cause chan
  have hMode := hActs.inSafeStop (stopped_mode s cause chan)
  have hFixed := hActs.left.fixed
  rw [enterSafeStop_eq h]
  generalize ((s.stopped cause chan).refuseTaken .safeStop).regroupCore false = t at *
  generalize s.stopped cause chan = u at *
  exact ⟨hKept.trans (.of_acts hActs), hMode, (congrArg State.cause hFixed :).trans hCause,
    (congrArg State.causeChan hFixed :).trans hChan⟩

/-! ### The start-up verifies judged (R150) -/

/-- A channel's standing once its start-up verify is judged. -/
def judgedSafety (closed : BitVec 4) (c : Chan) (x : ChanSafety) : ChanSafety :=
  { x with verify := none, health := if closed.getLsbD c.val then .offline else x.health }

/-- The state in which the judging leaves every channel. -/
def State.judged (s : State) (closed : BitVec 4) : State := { s with
  safety := Vector.ofFn fun c => judgedSafety closed c s.safety[c], failMask := s.failMask ||| closed }

theorem getLsbD_chanBit (c : Chan) (i : Nat) (hi : i < 4) : (1#4 <<< c.val).getLsbD i = decide (c.val = i) := by
  rw [← BitVec.twoPow_eq, BitVec.getLsbD_twoPow]
  by_cases h : c.val = i <;> simp [h, hi]

theorem judgeAll_eq (s : State) (closed : BitVec 4) : forEach allChans (fun c t =>
      let x := { t.safety[c] with verify := none }
      if closed.getLsbD c.val then (t.setSafety c { x with health := .offline }).failVerify c else t.setSafety c x) s =
    s.judged closed := by
  obtain ⟨f, hf⟩ : ∃ f : Chan → State → State, f = fun c t =>
      let x := { t.safety[c] with verify := none }
      if closed.getLsbD c.val then (t.setSafety c { x with health := .offline }).failVerify c else t.setSafety c x := ⟨_, rfl⟩
  have hStep (c : Chan) (t : State) : f c t = { t with
      safety := upd t.safety c (judgedSafety closed c t.safety[c])
      failMask := if closed.getLsbD c.val then t.failMask ||| (1#4 <<< c.val) else t.failMask } := by
    rw [hf]
    unfold judgedSafety
    dsimp only
    split_ifs <;> rfl
  have hFrame : forEach allChans f s = { s with
      safety := (forEach allChans f s).safety, failMask := (forEach allChans f s).failMask } :=
    forEach_keeps (P := fun t => t = { s with safety := t.safety, failMask := t.failMask }) _ _ s rfl fun c _ t ht => by
      rw [hStep]
      generalize upd t.safety c _ = safety, (if closed.getLsbD c.val then t.failMask ||| (1#4 <<< c.val) else t.failMask) = mask
      rw [ht]
  have hBit (c d : Chan) (t : State) : (f d t).failMask.getLsbD c.val =
      (t.failMask.getLsbD c.val || decide (d = c) && closed.getLsbD c.val) := by
    rw [hStep]
    dsimp only
    by_cases hd : d = c
    · subst hd
      split_ifs with hc
      · rw [BitVec.getLsbD_or, getLsbD_chanBit _ _ d.isLt, hc]
        simp
      · rw [Bool.eq_false_iff.mpr hc, Bool.and_false, Bool.or_false]
    · have hVal : d.val ≠ c.val := fun e => hd (Fin.ext e)
      split_ifs
      · rw [BitVec.getLsbD_or, getLsbD_chanBit _ _ c.isLt, decide_eq_false hVal, decide_eq_false hd]
        simp
      · simp [hd]
  have hChan (c : Chan) : (forEach allChans f s).safety[c] = judgedSafety closed c s.safety[c] ∧
      (forEach allChans f s).failMask.getLsbD c.val = (s.failMask.getLsbD c.val || closed.getLsbD c.val) := by
    obtain ⟨t, -, hView, hEnd⟩ := (forEach_own f (fun t : State => (t.safety[c], t.failMask.getLsbD c.val)) (fun _ => True) c
      allChans s allChans_nodup trivial (fun _ _ _ _ => trivial) fun d _ hd t _ => by
        refine Prod.ext ?_ ?_
        · rw [hStep]
          exact upd_other _ _ _ _ hd
        · refine (hBit c d t).trans ?_
          simp [hd]).2 (mem_allChans c)
    have hSafety : t.safety[c] = s.safety[c] := congrArg Prod.fst hView
    have hMask : t.failMask.getLsbD c.val = s.failMask.getLsbD c.val := congrArg Prod.snd hView
    have hEndSafety := congrArg Prod.fst hEnd
    have hEndMask := congrArg Prod.snd hEnd
    dsimp only at hEndSafety hEndMask
    rw [hBit, hMask] at hEndMask
    rw [hStep] at hEndSafety
    exact ⟨hEndSafety.trans ((upd_same _ _ _).trans (by rw [hSafety])), hEndMask.trans (by simp)⟩
  rw [← hf, hFrame]
  have hSafety : (forEach allChans f s).safety = Vector.ofFn fun c => judgedSafety closed c s.safety[c] := by
    refine Vector.ext fun i hi => ?_
    rw [Vector.getElem_ofFn]
    exact (hChan ⟨i, hi⟩).1
  have hMask : (forEach allChans f s).failMask = s.failMask ||| closed := BitVec.eq_of_getLsbD_eq fun i hi => by
    rw [BitVec.getLsbD_or]
    exact (hChan ⟨i, hi⟩).2
  rw [hSafety, hMask]
  rfl

/-! ### The news of start-up (R150) -/

theorem startupNews_frame (s : State) (closed : BitVec 4) : s.startupNews closed = { s with
    news := (s.startupNews closed).news, attn := (s.startupNews closed).attn } :=
  forEach_keeps (P := fun t => t = { s with news := t.news, attn := t.attn }) _ _ s rfl fun c _ t ht => by
    have hStep : (t.newsChanSafety c.val).raise 6 =
        { t with news := (t.newsChanSafety c.val).news, attn := t.attn.raise 6 } := rfl
    rw [hStep]
    generalize (t.newsChanSafety c.val).news = news, t.attn.raise 6 = attn
    rw [ht]

theorem startupNews_brings (s : State) (closed : BitVec 4) (q : State → Prop) (r : Chan → Prop)
    (h : ∀ (c : Chan) (t : State), q ((t.newsChanSafety c.val).raise 6) ↔ q t ∨ r c) :
    q (s.startupNews closed) ↔ q s ∨ ∃ c : Chan, closed.getLsbD c.val = true ∧ r c := by
  have hPass := forEach_brings (fun (c : Chan) (t : State) => (t.newsChanSafety c.val).raise 6) (fun _ _ => ()) (fun _ => True) q r
    (allChans.filter fun c => closed.getLsbD c.val) s (allChans_nodup.filter _) trivial (fun _ _ _ _ => trivial)
    (fun _ _ _ _ _ _ => rfl) fun c _ t _ _ => h c t
  refine hPass.trans (or_congr_right (exists_congr fun c => and_congr_left fun _ => ?_))
  exact List.mem_filter.trans (and_iff_right (mem_allChans c))

theorem startupNews_chanSafety (s : State) (closed : BitVec 4) :
    (s.startupNews closed).news.chanSafety = s.news.chanSafety ||| closed.setWidth 8 := has8_ext fun i hi => by
  have hBit := startupNews_brings s closed (fun t => has8 t.news.chanSafety i = true) (fun c => c.val = i) fun c t => by
    show has8 (t.news.chanSafety ||| bit8 c.val) i = true ↔ _
    rw [has8_add _ _ _ (by omega) hi, Bool.or_eq_true, decide_eq_true_iff]
  rw [Bool.eq_iff_iff, hBit, has8_or, Bool.or_eq_true]
  refine or_congr_right ?_
  unfold has8
  rw [BitVec.getLsbD_setWidth, decide_eq_true hi, Bool.true_and]
  constructor
  · rintro ⟨c, hc, rfl⟩
    exact hc
  · exact fun hc => ⟨⟨i, BitVec.lt_of_getLsbD hc⟩, hc, rfl⟩

theorem startupNews_level (s : State) (closed : BitVec 4) :
    has8 (s.startupNews closed).attn.pending 6 = true ↔ has8 s.attn.pending 6 = true ∨ closed ≠ 0 := by
  rw [startupNews_brings s closed (fun t => has8 t.attn.pending 6 = true) (fun _ => True) fun c t => by
    show has8 (t.attn.pending ||| bit8 6) 6 = true ↔ _
    rw [has8_add _ _ _ (by decide) (by decide)]
    simp]
  refine or_congr_right ⟨fun ⟨c, hc, _⟩ hZero => ?_, fun hNe => ?_⟩
  · rw [hZero] at hc
    simp at hc
  · by_contra hNone
    refine hNe (BitVec.eq_of_getLsbD_eq fun i hi => ?_)
    rw [show (0 : BitVec 4) = 0#4 from rfl, BitVec.getLsbD_zero, Bool.eq_false_iff]
    exact fun hBit => hNone ⟨⟨i, hi⟩, hBit, trivial⟩

/-! ### The end of start-up -/

theorem exec_startup {s : State} (h : s.starting = true) (closed lines : BitVec 4) :
    exec (.startupVerifyExpiry closed lines) s = .next
      (({ (s.judgeStartup closed).sampleLines lines with starting := false }.adoptRequest).startupNews closed) := by
  show execStartupVerifyExpiry closed lines s = _
  unfold execStartupVerifyExpiry
  rw [if_pos h]

theorem judgeStartup_judged (s : State) (closed : BitVec 4) : s.judgeStartup closed =
    if closed = 0xF then (s.judged closed).enterSafeStop .startupFailed none else s.judged closed := by
  unfold State.judgeStartup
  dsimp only
  rw [judgeAll_eq]

theorem adoptRequest_same {s : State} (h : s.mode = .safeStop ∨ s.request = .safeStop ∨ s.request = s.mode) :
    s.adoptRequest = s := if_pos h

/-- What start-up's end leaves in every state, whichever way it goes. -/
structure StartupShown (s : State) (closed lines : BitVec 4) (t : State) : Prop where
  lines : t.lines = lines
  failMask : t.failMask = s.failMask ||| closed
  news : t.news.chanSafety = s.news.chanSafety
  level : has8 t.attn.pending 6 = has8 s.attn.pending 6
  standing : ∀ c : Chan, t.safety[c].health = (if closed.getLsbD c.val then .offline else s.safety[c].health)
    ∧ t.safety[c].disconnected = s.safety[c].disconnected

theorem judged_safety (s : State) (closed : BitVec 4) (c : Chan) :
    (s.judged closed).safety[c] = judgedSafety closed c s.safety[c] := Vector.getElem_ofFn _

/-- Judged, with the lines sampled, and nothing more. -/
def State.sampled (s : State) (closed lines : BitVec 4) : State := { s.judged closed with lines := lines }

theorem sampled_shown (s : State) (closed lines : BitVec 4) : StartupShown s closed lines (s.sampled closed lines) :=
  ⟨rfl, rfl, rfl, rfl, fun c => by
    show (s.judged closed).safety[c].health = _ ∧ (s.judged closed).safety[c].disconnected = _
    rw [judged_safety]
    exact ⟨rfl, rfl⟩⟩

theorem StartupShown.kept {s t u : State} {closed lines : BitVec 4} (h : StartupShown s closed lines t) (k : SafetyKept t u) :
    StartupShown s closed lines u :=
  ⟨k.lines.trans h.lines, k.failMask.trans h.failMask, k.news.trans h.news, k.level.trans h.level,
    fun c => ⟨(k.standing c).1.trans (h.standing c).1, (k.standing c).2.trans (h.standing c).2⟩⟩

/-- How start-up ends: SAFE_STOP by four closed switches or an asserted STOP, or else judged and sampled. -/
theorem startup_cases {s : State} (hMode : s.mode ≠ .safeStop) (closed lines : BitVec 4) :
    StartupShown s closed lines ((s.judgeStartup closed).sampleLines lines)
    ∧ (closed = 0xF → ((s.judgeStartup closed).sampleLines lines).mode = .safeStop
        ∧ ((s.judgeStartup closed).sampleLines lines).cause = .startupFailed
        ∧ ((s.judgeStartup closed).sampleLines lines).causeChan = none)
    ∧ (closed ≠ 0xF → lines.getLsbD 3 = true → ((s.judgeStartup closed).sampleLines lines).mode = .safeStop
        ∧ ((s.judgeStartup closed).sampleLines lines).cause = .stopLine
        ∧ ((s.judgeStartup closed).sampleLines lines).causeChan = none)
    ∧ (closed ≠ 0xF → lines.getLsbD 3 = false → (s.judgeStartup closed).sampleLines lines = s.sampled closed lines) := by
  have hShown := sampled_shown s closed lines
  rw [judgeStartup_judged]
  unfold State.sampleLines
  by_cases hClosed : closed = 0xF
  · rw [if_pos hClosed]
    obtain ⟨hKept, hModeE, hCause, hChan⟩ := enterSafeStop_kept (s := s.judged closed) hMode .startupFailed none
    generalize (s.judged closed).enterSafeStop .startupFailed none = e at *
    have hSame : (if lines.getLsbD 3 then ({ e with lines := lines } : State).enterSafeStop .stopLine none
        else { e with lines := lines }) = { e with lines := lines } := by
      rw [enterSafeStop_same (s := { e with lines := lines }) hModeE, ite_self]
    dsimp only
    rw [hSame]
    refine ⟨?_, fun _ => ⟨hModeE, hCause, hChan⟩, fun h => absurd hClosed h, fun h => absurd hClosed h⟩
    exact ⟨rfl, hKept.failMask, hKept.news, hKept.level,
      fun c => ⟨(hKept.standing c).1.trans (hShown.standing c).1, (hKept.standing c).2.trans (hShown.standing c).2⟩⟩
  · rw [if_neg hClosed]
    dsimp only
    refine ⟨?_, fun h => absurd h hClosed, fun _ hStop => ?_, fun _ hStop => ?_⟩
    · split_ifs
      · exact hShown.kept (enterSafeStop_kept (s := s.sampled closed lines) hMode .stopLine none).1
      · exact hShown
    · rw [if_pos hStop]
      exact (enterSafeStop_kept (s := s.sampled closed lines) hMode .stopLine none).2
    · rw [if_neg (by rw [hStop]; decide)]
      rfl

/-- No group measurable, so the change to the mode requested starts nothing (R166). -/
theorem changeMode_adopted {s : State} {m : Mode} (hm : m ≠ .safeStop) (hIntake : s.intake = [])
    (hNone : ∀ (l : GroupId) (g : Group), s.groups[l] = some g → g.measurable = false) :
    (s.changeMode m).schedule.mode = m
    ∧ (m = .parked → (s.changeMode m).schedule.park = .due
        ∧ (s.changeMode m).schedule.rotation = allNodes.filter fun l => (s.groups[l]).isSome) := by
  by_cases hParked : m = .parked
  · subst hParked
    have hFrame := changeMode_parkedFrame s
    have hIntakeV : (s.changeMode .parked).intake = [] := by rw [hFrame]; exact hIntake
    have hModeV : (s.changeMode .parked).mode = .parked := by rw [hFrame]
    have hParkV : (s.changeMode .parked).park = .due := by rw [hFrame]
    have hRotationV := changeMode_list s
    have hStart (l : GroupId) : startable (s.changeMode .parked) l = false := by
      have hGroups : (s.changeMode .parked).groups[l] = s.abandonAll.groups[l] := by rw [hFrame]
      unfold startable
      rw [hGroups]
      cases hGroup : s.groups[l] with
      | none =>
        have hShape := (abandonAll_shaped s).shape l
        rw [hGroup] at hShape
        rw [Option.map_eq_none_iff.mp hShape]
        rfl
      | some g =>
        obtain ⟨hOver, hStays⟩ := abandonAll_group hGroup
        have hMeasurable := hNone l g hGroup
        by_cases hActive : ownActive g.series
        · rw [hOver hActive]
          simp [overGroup, hMeasurable]
        · rw [hStays hActive]
          simp [hMeasurable]
    have hSchedule := schedule_parked (noneWaits_empty hIntakeV) hModeV fun _ _ l _ => hStart l
    have hEnd := detachIdle_frame (s.changeMode .parked)
    rw [hSchedule]
    generalize (s.changeMode .parked).detachIdle = t at *
    generalize s.changeMode .parked = v at *
    rw [hEnd]
    exact ⟨hModeV, fun _ => ⟨hParkV, hRotationV⟩⟩
  · have hFrame := changeMode_frame s hParked
    have hPending : (s.changeMode m).parkedPending = false := by rw [hFrame]
    have hModeV : (s.changeMode m).mode = m := by rw [hFrame]
    have hMeasuring := (Working.schedule (s.changeMode m)).measuring
    generalize (s.changeMode m).schedule = t at *
    exact ⟨(hMeasuring.calm hPending).1.trans hModeV, fun h => absurd h hParked⟩

/-- Settles O10: start-up's end is the judging, the sampling, the mode that was asked for, and the news. -/
theorem startupJudged : Obligations.StartupJudged := by
  unfold Obligations.StartupJudged
  refine ⟨fun closed lines s hStarting hMode hRequest => ?_, fun closed lines s hStarting hMode hRequest hIntake hNone hClosed hStop => ?_⟩
  · have hIdle : s.mode ≠ .safeStop := by rw [hMode]; decide
    have hExec := exec_startup hStarting closed lines
    obtain ⟨hShown, hFailed, hStopped, hPlain⟩ := startup_cases hIdle closed lines
    generalize (s.judgeStartup closed).sampleLines lines = u at *
    have hSame : ({ u with starting := false } : State).adoptRequest = { u with starting := false } := by
      refine adoptRequest_same ?_
      by_cases hClosed : closed = 0xF
      · exact .inl (hFailed hClosed).1
      · cases hBit : lines.getLsbD 3 with
        | true => exact .inl (hStopped hClosed hBit).1
        | false =>
          rw [hPlain hClosed hBit]
          exact .inr (.inr (hRequest.trans hMode.symm))
    rw [hSame] at hExec
    have hFrame := startupNews_frame { u with starting := false } closed
    have hNews := startupNews_chanSafety { u with starting := false } closed
    have hLevel := startupNews_level { u with starting := false } closed
    generalize ({ u with starting := false } : State).startupNews closed = t at *
    obtain ⟨hLines, hFailMask, hChanSafety, hPending, hStanding⟩ := hShown
    refine ⟨t, hExec, by rw [hFrame], by rw [hFrame]; exact hLines, by rw [hFrame]; exact hFailMask, fun c => ?_, ?_, ?_, fun h => ?_,
      fun h1 h2 => ?_, fun h1 h2 => ⟨?_, fun c => ?_⟩⟩
    · rw [hFrame]
      exact hStanding c
    · rw [hNews, ← hChanSafety]
    · rw [hLevel, ← hPending]
    · rw [hFrame]
      exact hFailed h
    · rw [hFrame]
      exact hStopped h1 h2
    · rw [hFrame, hPlain h1 h2, ← hStarting]
      rfl
    · rw [hFrame, hPlain h1 h2]
      exact judged_safety s closed c
  · have hIdle : s.mode ≠ .safeStop := by rw [hMode]; decide
    have hExec := exec_startup hStarting closed lines
    rw [(startup_cases hIdle closed lines).2.2.2 hClosed hStop] at hExec
    obtain ⟨v, hv⟩ : ∃ v : State, v = { s.sampled closed lines with starting := false } := ⟨_, rfl⟩
    rw [← hv] at hExec
    have hModeV : v.mode = .idle := by rw [hv]; exact hMode
    have hRequestV : v.request = s.request := by rw [hv]; rfl
    have hStartingV : v.starting = false := by rw [hv]
    have hGroupsV : v.groups = s.groups := by rw [hv]; rfl
    have hIntakeV : v.intake = [] := by rw [hv]; exact hIntake
    have hFrame := startupNews_frame v.adoptRequest closed
    have hEnds : v.adoptRequest.starting = false ∧ v.adoptRequest.mode = s.request ∧ (s.request = .parked →
        v.adoptRequest.park = .due ∧ v.adoptRequest.rotation = allNodes.filter fun l => (s.groups[l]).isSome) := by
      by_cases hSame : s.request = .idle
      · rw [adoptRequest_same (.inr (.inr (by rw [hRequestV, hModeV, hSame])))]
        exact ⟨hStartingV, hModeV.trans hSame.symm, fun h => absurd (hSame.symm.trans h) (by decide)⟩
      · have hAdopt : v.adoptRequest = (v.changeMode s.request).schedule := by
          unfold State.adoptRequest
          rw [if_neg, hRequestV]
          rw [hModeV, hRequestV]
          rintro (h | h | h)
          · exact nomatch h
          · exact hRequest h
          · exact hSame h
        have hAdopted := changeMode_adopted hRequest hIntakeV (by rw [hGroupsV]; exact hNone)
        rw [hAdopt]
        rw [hGroupsV] at hAdopted
        refine ⟨?_, hAdopted⟩
        have hActs : Acts (fun _ => True) v (v.changeMode s.request).schedule :=
          (Acts.changeMode (fun _ _ => trivial) s.request (by rw [hModeV]; exact ⟨fun h => absurd h hRequest, fun h => nomatch h⟩)).trans
            (Acts.schedule fun _ _ => trivial)
        exact (SafetyKept.of_acts hActs).starting.trans hStartingV
    generalize v.adoptRequest = w at *
    refine ⟨_, hExec, ?_⟩
    rw [hFrame]
    exact hEnds

end Sys2Proof.Machine
end

section
/-! PROOFS. A regroup of a part in which nothing measures: every group has its injector chosen and its timer. -/

namespace Sys2Proof.Machine

/-! ### One group evaluated (R10, R12, R14) -/

/-- Nothing measures: no order is taken, every group's measurement is free, every channel detached. -/
structure Still (s : State) : Prop where
  intake : s.intake = []
  series : ∀ l : GroupId, seriesOf s l = .none
  detached : ∀ c : Chan, s.seqs[c].coupling = .detached

/-- A group as its evaluation leaves it, where nothing measures. -/
def evaluatedGroup (s : State) (formed : Bool) (l : GroupId) (g : Group) : Group :=
  if chooseInjector s l g = none then
    { g with injector := none, settle := none, waitPlan := false, measurable := false }
  else if readyPlan s l = none ∨ formed = true ∨ chooseInjector s l g ≠ g.injector ∨ g.waitPlan = true then
    settledGroup (readyPlan s l) { g with injector := chooseInjector s l g }
  else { g with injector := chooseInjector s l g }

theorem settledGroup_series (plan : Option PlanCopy) (g : Group) : (settledGroup plan g).series = g.series
    ∧ (settledGroup plan g).rotation = g.rotation ∧ (settledGroup plan g).injector = g.injector
    ∧ (settledGroup plan g).members = g.members ∧ (settledGroup plan g).seriesCount = g.seriesCount := by
  unfold settledGroup
  cases plan with
  | none => exact ⟨rfl, rfl, rfl, rfl, rfl⟩
  | some p =>
    dsimp only [Option.elim]
    split_ifs <;> exact ⟨rfl, rfl, rfl, rfl, rfl⟩

theorem evaluatedGroup_series (s : State) (formed : Bool) (l : GroupId) (g : Group) :
    (evaluatedGroup s formed l g).series = g.series ∧ (evaluatedGroup s formed l g).rotation = g.rotation
    ∧ (evaluatedGroup s formed l g).members = g.members ∧ (evaluatedGroup s formed l g).seriesCount = g.seriesCount := by
  unfold evaluatedGroup
  split_ifs
  · exact ⟨rfl, rfl, rfl, rfl⟩
  · obtain ⟨h1, h2, -, h4, h5⟩ := settledGroup_series (readyPlan s l) { g with injector := chooseInjector s l g }
    exact ⟨h1, h2, h4, h5⟩
  · exact ⟨rfl, rfl, rfl, rfl⟩

theorem abandonGroup_still {s : State} (hIntake : s.intake = []) {l : GroupId} (hSeries : seriesOf s l = .none) :
    s.abandonGroup l = s := by
  have hOwn : s.abandonOwn l = s := abandonOwn_idle fun h => by
    rw [hSeries] at h
    rcases h with h | h | h <;> exact nomatch h
  unfold State.abandonGroup
  dsimp only
  rw [hOwn]
  have hNone : runningSpot s l = none := by
    unfold runningSpot
    rw [hIntake]
    rfl
  rw [hNone]

theorem evaluateGroup_still {s : State} (hIntake : s.intake = []) {l : GroupId} {g : Group} (hGroup : s.groups[l] = some g)
    (hSeries : g.series = .none) (formed : Bool) :
    s.evaluateGroup formed l = { s with groups := upd s.groups l (some (evaluatedGroup s formed l g)) } := by
  have hAbandon : (if (decide (chooseInjector s l g ≠ g.injector) && g.injector.isSome) = true then s.abandonGroup l else s) = s := by
    rw [abandonGroup_still hIntake ((seriesOf_some hGroup).trans hSeries), ite_self]
  unfold State.evaluateGroup
  rw [hGroup]
  dsimp only
  rw [hAbandon, modGroup_some hGroup]
  obtain ⟨u, hu⟩ : ∃ u : State, u = { s with groups := upd s.groups l (some { g with injector := chooseInjector s l g }) } := ⟨_, rfl⟩
  have hGroupU : u.groups[l] = some { g with injector := chooseInjector s l g } := by
    rw [hu]
    exact upd_same _ _ _
  have hPlan : readyPlan u l = readyPlan s l := by
    rw [hu]
    rfl
  have hOwn : u.abandonOwn l = u := abandonOwn_idle fun h => by
    rw [seriesOf_some hGroupU] at h
    rcases h with h | h | h <;> exact nomatch hSeries.symm.trans h
  have hSettle := startSettle_eq hGroupU
  have hModule (f : Group → Group) : u.modGroup l f =
      { s with groups := upd s.groups l (some (f { g with injector := chooseInjector s l g })) } := by
    rw [modGroup_some hGroupU, hu]
    simp only [upd_upd]
  rw [← hu]
  unfold State.settleAfter evaluatedGroup
  rw [hGroupU]
  dsimp only
  by_cases hNone : chooseInjector s l g = none
  · rw [if_pos hNone, if_pos hNone, hModule]
    dsimp only
    rw [hNone]
  · rw [if_neg hNone, if_neg hNone, hPlan]
    by_cases hReady : readyPlan s l = none
    · rw [if_pos (by rw [hReady]; rfl), if_pos (.inl hReady), hOwn, hSettle, hPlan, hu]
      simp only [upd_upd]
    · rw [if_neg (by simpa using hReady)]
      by_cases hStart : formed = true ∨ chooseInjector s l g ≠ g.injector ∨ g.waitPlan = true
      · rw [if_pos (by simpa [or_assoc] using hStart), if_pos (.inr hStart), hSettle, hPlan, hu]
        simp only [upd_upd]
      · rw [if_neg (by simpa [or_assoc] using hStart), if_neg (fun h => h.elim hReady hStart), hu]

theorem evaluateGroup_noGroup {s : State} {l : GroupId} (h : s.groups[l] = none) (formed : Bool) : s.evaluateGroup formed l = s := by
  unfold State.evaluateGroup
  rw [h]

/-! ### Every group evaluated -/

theorem evaluatedGroup_groups (s : State) (groups : Vector (Option Group) 8) (formed : Bool) (l : GroupId) (g : Group) :
    evaluatedGroup { s with groups := groups } formed l g = evaluatedGroup s formed l g := rfl

theorem seriesOf_none_iff {s : State} {l : GroupId} : seriesOf s l = .none ↔ ∀ g, s.groups[l] = some g → g.series = .none := by
  unfold seriesOf
  cases s.groups[l] with
  | none => simp
  | some g => simp

theorem evaluateEach_still {s : State} (hIntake : s.intake = []) (hSeries : ∀ l : GroupId, seriesOf s l = .none)
    (formed : GroupId → Bool) : forEach allNodes (fun l t => t.evaluateGroup (formed l) l) s =
      { s with groups := Vector.ofFn fun l => (s.groups[l]).map (evaluatedGroup s (formed l) l) } := by
  have hStep (l : GroupId) (t : State) (hFrame : t = { s with groups := t.groups }) (hNone : ∀ m : GroupId, seriesOf t m = .none) :
      t.evaluateGroup (formed l) l = { s with groups := upd t.groups l ((t.groups[l]).map (evaluatedGroup s (formed l) l)) } := by
    cases hGroup : t.groups[l] with
    | none =>
      rw [evaluateGroup_noGroup hGroup, Option.map_none, ← hGroup]
      simpa [upd] using hFrame
    | some g =>
      have hIntakeT : t.intake = [] := by rw [hFrame]; exact hIntake
      rw [evaluateGroup_still hIntakeT hGroup (seriesOf_none_iff.mp (hNone l) g hGroup), Option.map_some]
      generalize t.groups = groups at hFrame
      rw [hFrame]
      rfl
  have hKeep (l : GroupId) (t : State) (hFrame : t = { s with groups := t.groups }) (hNone : ∀ m : GroupId, seriesOf t m = .none) :
      (t.evaluateGroup (formed l) l = { s with groups := (t.evaluateGroup (formed l) l).groups })
      ∧ ∀ m : GroupId, seriesOf (t.evaluateGroup (formed l) l) m = .none := by
    rw [hStep l t hFrame hNone]
    refine ⟨rfl, fun m => seriesOf_none_iff.mpr fun g hg => ?_⟩
    by_cases hm : l = m
    · subst hm
      replace hg := (upd_same _ _ _).symm.trans hg
      obtain ⟨g', hg', rfl⟩ := Option.map_eq_some_iff.mp hg
      exact (evaluatedGroup_series s _ l g').1.trans (seriesOf_none_iff.mp (hNone l) g' hg')
    · exact seriesOf_none_iff.mp (hNone m) g ((upd_other _ _ _ _ hm).symm.trans hg)
  obtain ⟨hFrame, -⟩ := forEach_keeps (P := fun t : State => t = { s with groups := t.groups } ∧ ∀ m : GroupId, seriesOf t m = .none)
    (fun l t => t.evaluateGroup (formed l) l) allNodes s ⟨rfl, hSeries⟩ fun l _ t ht => hKeep l t ht.1 ht.2
  have hGroups : (forEach allNodes (fun l t => t.evaluateGroup (formed l) l) s).groups =
      Vector.ofFn fun l => (s.groups[l]).map (evaluatedGroup s (formed l) l) := by
    refine Vector.ext fun i hi => ?_
    rw [Vector.getElem_ofFn]
    obtain ⟨t, ⟨hFrameT, hNoneT⟩, hView, hEnd⟩ := (forEach_own (fun (l : GroupId) (t : State) => t.evaluateGroup (formed l) l)
      (fun t : State => t.groups[(⟨i, hi⟩ : GroupId)]) (fun t => t = { s with groups := t.groups } ∧ ∀ m : GroupId, seriesOf t m = .none)
      ⟨i, hi⟩ allNodes s allNodes_nodup ⟨rfl, hSeries⟩ (fun l _ t ht => hKeep l t ht.1 ht.2) fun l _ hl t ht => by
        rw [hStep l t ht.1 ht.2]
        exact upd_other _ _ _ _ hl).2 (mem_allNodes _)
    rw [hStep _ t hFrameT hNoneT] at hEnd
    exact hEnd.trans ((upd_same _ _ _).trans (by rw [hView]))
  rw [hFrame, hGroups]

/-! ### The regroup -/

/-- The group table that a regroup of a still part leaves. -/
def stillGroups (s : State) (fresh : Bool) : Vector (Option Group) 8 :=
  Vector.ofFn fun l => ((newGroups fresh (partition s.links) s.groups)[l]).map
    (evaluatedGroup s (!keepsGroup fresh (partition s.links) s.groups l) l)

theorem newGroups_series {s : State} (h : ∀ l : GroupId, seriesOf s l = .none) (fresh : Bool) {l : GroupId} {g : Group}
    (hg : (newGroups fresh (partition s.links) s.groups)[l] = some g) : g.series = .none := by
  unfold newGroups at hg
  replace hg := (Vector.getElem_ofFn _).symm.trans hg
  split_ifs at hg with h1 h2
  · exact seriesOf_none_iff.mp (h l) g hg
  · cases hg
    rfl

/-- A regroup of a still part outside PARKED touches the group table, and raises level 7 where the watched part changed. -/
theorem regroupCore_still {s : State} (h : Still s) (hMode : s.mode ≠ .parked) (fresh : Bool) : s.regroupCore fresh = { s with
    groups := stillGroups s fresh
    attn := if (fresh || decide (tableSignature s.groups ≠ tableSignature (stillGroups s fresh))) = true then s.attn.raise 7
      else s.attn } := by
  obtain ⟨hIntake, hSeries, hDetached⟩ := h
  have hForm : s.formGroups fresh = { s with groups := newGroups fresh (partition s.links) s.groups } := by
    have hAbandon : s.abandonChanged fresh (partition s.links) = s :=
      forEach_unchanged _ _ _ fun l _ => abandonGroup_still hIntake (hSeries l)
    unfold State.formGroups
    dsimp only
    rw [hAbandon]
  obtain ⟨keeps, hKeeps⟩ : ∃ keeps, keeps = keepsGroup fresh (partition s.links) s.groups := ⟨_, rfl⟩
  obtain ⟨u, hu⟩ : ∃ u : State, u = { s with groups := newGroups fresh (partition s.links) s.groups } := ⟨_, rfl⟩
  have hIntakeU : u.intake = [] := by rw [hu]; exact hIntake
  have hSeriesU (l : GroupId) : seriesOf u l = .none := seriesOf_none_iff.mpr fun g hg => newGroups_series hSeries fresh (by rwa [hu] at hg)
  have hEvaluate : u.evaluateAll keeps = { s with groups := stillGroups s fresh } := by
    have hPlace : u.placeInFlight = u := by
      unfold State.placeInFlight
      rw [hIntakeU]
      rfl
    have hInherit : forEach (allNodes.filter fun l => !keeps l) (fun l t => t.inheritCheck l) u = u :=
      forEach_unchanged _ _ _ fun l _ => by
        unfold State.inheritCheck
        rw [hIntakeU]
        rfl
    have hEach := evaluateEach_still hIntakeU hSeriesU fun l => !keeps l
    have hGroups : (Vector.ofFn fun l => (u.groups[l]).map (evaluatedGroup u (!keeps l) l)) = stillGroups s fresh := by
      rw [hu, hKeeps]
      rfl
    have hDetach (v : State) (hv : ∀ c : Chan, v.seqs[c].coupling = .detached) : v.detachOthers = v :=
      forEach_unchanged _ _ _ fun c _ => by
        split_ifs
        · exact detach_detached (by rw [hv c]; decide)
        · rfl
    unfold State.evaluateAll
    rw [hPlace, hInherit, hEach, hGroups, hDetach _ (by rw [hu]; exact hDetached), hu]
  unfold State.regroupCore
  dsimp only
  rw [hForm, ← hu, ← hKeeps, hEvaluate]
  have hReorder : ({ s with groups := stillGroups s fresh } : State).reorderRotation keeps = { s with groups := stillGroups s fresh } :=
    if_neg hMode
  have hPlaced (v : State) (hv : v.intake = []) : v.placeWaiting = v := by
    unfold State.placeWaiting
    rw [hv]
    rfl
  rw [hReorder]
  unfold State.noticeTable
  split_ifs with hNotice
  · exact hPlaced _ hIntake
  · exact hPlaced _ hIntake

end Sys2Proof.Machine
end

section
/-! PROOFS. SAFE_STOP entered: channels silenced, series gone, TAKEN slots refused, and the regroup of a still part. -/

namespace Sys2Proof.Machine

/-! ### Channels silenced (R43, R152) -/

/-- A channel's sequencer at rest, detached, whatever it drove. -/
def silentSeq (q : Seq) : Seq := { runOver q with coupling := .detached }

def silentSafety (q : Seq) (x : ChanSafety) : ChanSafety :=
  { x with reference := false, verify := if q.coupling = .attached then some 5 else x.verify }

theorem silence_eq (s : State) (c : Chan) : s.silence c = { s with
    seqs := upd s.seqs c (silentSeq s.seqs[c]), safety := upd s.safety c (silentSafety s.seqs[c] s.safety[c]) } := by
  have hDrop : s.dropRun c = { s with
      seqs := upd s.seqs c (runOver s.seqs[c]), safety := upd s.safety c { s.safety[c] with reference := false } } := rfl
  unfold State.silence
  rw [hDrop, detach_eq]
  dsimp only
  rw [upd_same, upd_same, upd_upd, upd_upd]
  have hSeq : (if (runOver s.seqs[c]).coupling = .attached then stoppedSeq (runOver s.seqs[c]) else runOver s.seqs[c]) =
      silentSeq s.seqs[c] := by
    unfold silentSeq
    split_ifs with h
    · exact congrArg (fun q : Seq => { q with coupling := .detached }) (if_neg (runOver_run s.seqs[c]))
    · rw [← (coupling_cases (runOver s.seqs[c])).resolve_left h]
  have hSafety : stoppedSafety (runOver s.seqs[c]) { s.safety[c] with reference := false } = silentSafety s.seqs[c] s.safety[c] := by
    unfold stoppedSafety silentSafety
    rw [show (runOver s.seqs[c]).coupling = s.seqs[c].coupling from rfl]
    split_ifs <;> rfl
  rw [hSeq, hSafety]

/-- A pass over the channels whose step changes its own channel alone, by what stood there. -/
theorem forEach_chans {f : Chan → State → State} (q : Seq → ChanSafety → Seq) (x : Chan → Seq → ChanSafety → ChanSafety)
    (hStep : ∀ (c : Chan) (t : State), f c t = { t with
      seqs := upd t.seqs c (q t.seqs[c] t.safety[c]), safety := upd t.safety c (x c t.seqs[c] t.safety[c]) }) (s : State) :
    forEach allChans f s = { s with
      seqs := Vector.ofFn fun c => q s.seqs[c] s.safety[c], safety := Vector.ofFn fun c => x c s.seqs[c] s.safety[c] } := by
  have hFrame : forEach allChans f s = { s with
      seqs := (forEach allChans f s).seqs, safety := (forEach allChans f s).safety } :=
    forEach_keeps (P := fun t => t = { s with seqs := t.seqs, safety := t.safety }) _ _ s rfl fun c _ t ht => by
      rw [hStep]
      generalize upd t.seqs c _ = seqs, upd t.safety c _ = safety
      rw [ht]
  have hChan (c : Chan) : chanView c (forEach allChans f s) = (q s.seqs[c] s.safety[c], x c s.seqs[c] s.safety[c]) := by
    obtain ⟨t, -, hView, hEnd⟩ := (forEach_own f (chanView c) (fun _ => True) c allChans s allChans_nodup trivial
      (fun _ _ _ _ => trivial) fun d _ hd t _ => by
        rw [hStep]
        exact chanView_eq (upd_other _ _ _ _ hd) (upd_other _ _ _ _ hd)).2 (mem_allChans c)
    rw [hEnd, hStep]
    have hSeq : t.seqs[c] = s.seqs[c] := congrArg Prod.fst hView
    have hSafety : t.safety[c] = s.safety[c] := congrArg Prod.snd hView
    refine Prod.ext ((upd_same _ _ _).trans ?_) ((upd_same _ _ _).trans ?_)
    · rw [hSeq, hSafety]
    · rw [hSeq, hSafety]
  have hSeqs : (forEach allChans f s).seqs = Vector.ofFn fun c => q s.seqs[c] s.safety[c] := Vector.ext fun i hi => by
    rw [Vector.getElem_ofFn]
    exact congrArg Prod.fst (hChan ⟨i, hi⟩)
  have hSafety : (forEach allChans f s).safety = Vector.ofFn fun c => x c s.seqs[c] s.safety[c] := Vector.ext fun i hi => by
    rw [Vector.getElem_ofFn]
    exact congrArg Prod.snd (hChan ⟨i, hi⟩)
  rw [hFrame, hSeqs, hSafety]

theorem silenceAll_eq (s : State) : forEach allChans (fun c t => t.silence c) s = { s with
    seqs := Vector.ofFn fun c => silentSeq s.seqs[c], safety := Vector.ofFn fun c => silentSafety s.seqs[c] s.safety[c] } :=
  forEach_chans (fun q _ => silentSeq q) (fun _ q x => silentSafety q x) (fun c t => silence_eq t c) s

/-! ### Series gone (R116) -/

theorem clearSeries_eq (s : State) : s.clearSeries = { s with groups := Vector.ofFn fun l => (s.groups[l]).map overGroup } := by
  have hStep (l : GroupId) (t : State) : t.seriesOver l = { t with groups := upd t.groups l ((t.groups[l]).map overGroup) } := by
    cases hGroup : t.groups[l] with
    | none =>
      have hSame : t.seriesOver l = t := by
        unfold State.seriesOver State.modGroup
        rw [hGroup]
      rw [hSame, Option.map_none, ← hGroup]
      simp [upd]
    | some g => exact modGroup_some hGroup _
  have hFrame : s.clearSeries = { s with groups := s.clearSeries.groups } :=
    forEach_keeps (P := fun t => t = { s with groups := t.groups }) _ _ s rfl fun l _ t ht => by
      rw [hStep]
      generalize upd t.groups l _ = groups
      rw [ht]
  have hGroups : s.clearSeries.groups = Vector.ofFn fun l => (s.groups[l]).map overGroup := Vector.ext fun i hi => by
    rw [Vector.getElem_ofFn]
    obtain ⟨t, -, hView, hEnd⟩ := (forEach_own (fun (l : GroupId) (t : State) => t.seriesOver l)
      (fun t : State => t.groups[(⟨i, hi⟩ : GroupId)]) (fun _ => True) ⟨i, hi⟩ allNodes s allNodes_nodup trivial
      (fun _ _ _ _ => trivial) fun l _ hl t _ => by
        rw [hStep]
        exact upd_other _ _ _ _ hl).2 (mem_allNodes _)
    rw [hStep] at hEnd
    exact hEnd.trans ((upd_same _ _ _).trans (by rw [hView]))
  rw [hFrame, hGroups]

/-! ### TAKEN slots refused (R137, R138) -/

/-- What the refusal of every TAKEN slot leaves of one slot. -/
structure SlotRefused (why : Reason) (n : SlotId) (s t : State) : Prop where
  taken : s.slots[n] = .taken → t.slots[n] = .refused ∧ t.mem.read (slotAddr n) = 4
    ∧ t.mem.read (slotAddr n + 0x12) = 4 ∧ t.mem.read (slotAddr n + 0x15) = byteOf why.code
    ∧ ∀ k, 1 ≤ k → k < 0x12 → t.mem.read (slotAddr n + k) = s.mem.read (slotAddr n + k)
  other : s.slots[n] ≠ .taken → t.slots[n] = s.slots[n] ∧ ∀ k, k < 64 → t.mem.read (slotAddr n + k) = s.mem.read (slotAddr n + k)
  done : has8 t.news.done n.val = (has8 s.news.done n.val || decide (s.slots[n] = .taken))

/-- One slot as the refusals see it. -/
def slotView (n : SlotId) (s : State) : SlotState × (Fin 64 → Byte) × Bool :=
  (s.slots[n], fun k => s.mem.read (slotAddr n + k.val), has8 s.news.done n.val)

/-- The refusal of one slot, if it is TAKEN. -/
def State.refuseIfTaken (s : State) (why : Reason) (n : SlotId) : State := if s.slots[n] = .taken then s.refuseSlot n why else s

theorem slotView_eq {n : SlotId} {s t : State} (hSlot : t.slots[n] = s.slots[n])
    (hMem : ∀ k, k < 64 → t.mem.read (slotAddr n + k) = s.mem.read (slotAddr n + k))
    (hDone : has8 t.news.done n.val = has8 s.news.done n.val) : slotView n t = slotView n s :=
  Prod.ext hSlot (Prod.ext (funext fun k => hMem k.val k.isLt) hDone)

theorem slotAddr_far {n m : SlotId} (h : n ≠ m) {k : Nat} (hk : k < 64) :
    slotAddr m + k < slotAddr n ∨ slotAddr n + 64 ≤ slotAddr m + k := by
  have hVal : n.val ≠ m.val := fun e => h (Fin.ext e)
  unfold slotAddr
  omega

theorem refuseIfTaken_frame (s : State) (why : Reason) (n : SlotId) : s.refuseIfTaken why n = { s with
    mem := (s.refuseIfTaken why n).mem, slots := (s.refuseIfTaken why n).slots, intake := (s.refuseIfTaken why n).intake
    news := { s.news with done := (s.refuseIfTaken why n).news.done }
    attn := { s.attn with pending := (s.refuseIfTaken why n).attn.pending } } := by
  unfold State.refuseIfTaken
  split_ifs
  · unfold State.refuseSlot
    rw [completeSlot_eq]
    rfl
  · rfl

theorem slotView_completeSlot (s : State) {n m : SlotId} (h : n ≠ m) (final : SlotState) (reason : Byte) (kind : List Byte) :
    slotView m (s.completeSlot n final reason kind) = slotView m s := by
  rw [completeSlot_eq]
  refine slotView_eq (upd_other _ _ _ _ h) (fun k hk => ?_) ?_
  · show (completedMemory s.mem n final reason kind).read _ = _
    exact completedMemory_outside _ _ _ _ _ (slotAddr_far h hk)
  · show has8 (s.news.done ||| bit8 n.val) m.val = _
    rw [has8_addLevel, decide_eq_false (Ne.symm h), Bool.or_false]

theorem refuseIfTaken_other (s : State) (why : Reason) {n m : SlotId} (h : n ≠ m) :
    slotView m (s.refuseIfTaken why n) = slotView m s := by
  unfold State.refuseIfTaken
  split_ifs
  · exact slotView_completeSlot s h _ _ _
  · rfl

theorem completeSlot_own {s : State} {n : SlotId} (hTaken : s.slots[n] = .taken) (why : Reason) (reason : Byte) (kind : List Byte)
    (hReason : reason = byteOf why.code) : SlotRefused why n s (s.completeSlot n .refused reason kind) := by
  rw [completeSlot_eq]
  refine ⟨fun _ => ⟨upd_same _ _ _, ?_⟩, fun h => absurd hTaken h, ?_⟩
  · show (completedMemory s.mem n .refused reason kind).read _ = _ ∧ (completedMemory s.mem n .refused reason kind).read _ = _
      ∧ (completedMemory s.mem n .refused reason kind).read _ = _
      ∧ ∀ k, 1 ≤ k → k < 0x12 → (completedMemory s.mem n .refused reason kind).read _ = _
    exact ⟨completedMemory_state _ _ _ _ _, completedMemory_progress _ _ _ _ _,
      (completedMemory_reason _ _ _ _ _).trans hReason,
      fun k h1 h2 => completedMemory_kept _ _ _ _ _ ⟨h1, by omega, by omega, by omega⟩⟩
  · show has8 (s.news.done ||| bit8 n.val) n.val = _
    rw [has8_addLevel, decide_eq_true hTaken]
    simp

theorem refuseIfTaken_own (s : State) (why : Reason) (n : SlotId) : SlotRefused why n s (s.refuseIfTaken why n) := by
  unfold State.refuseIfTaken
  by_cases hTaken : s.slots[n] = .taken
  · rw [if_pos hTaken]
    exact completeSlot_own hTaken why _ _ rfl
  · rw [if_neg hTaken]
    exact ⟨fun h => absurd h hTaken, fun _ => ⟨rfl, fun _ _ => rfl⟩, by rw [decide_eq_false hTaken, Bool.or_false]⟩

theorem SlotRefused.congr {why : Reason} {n : SlotId} {s s' t t' : State} (h : SlotRefused why n s t)
    (hs : slotView n s = slotView n s') (ht : slotView n t = slotView n t') : SlotRefused why n s' t' := by
  have hSlot : s.slots[n] = s'.slots[n] := congrArg Prod.fst hs
  have hSlotT : t.slots[n] = t'.slots[n] := congrArg Prod.fst ht
  have hRead {k : Nat} (hk : k < 64) : s.mem.read (slotAddr n + k) = s'.mem.read (slotAddr n + k) :=
    congrFun (congrArg (fun v => v.2.1) hs) ⟨k, hk⟩
  have hReadT {k : Nat} (hk : k < 64) : t.mem.read (slotAddr n + k) = t'.mem.read (slotAddr n + k) :=
    congrFun (congrArg (fun v => v.2.1) ht) ⟨k, hk⟩
  have hDone : has8 s.news.done n.val = has8 s'.news.done n.val := congrArg (fun v => v.2.2) hs
  have hDoneT : has8 t.news.done n.val = has8 t'.news.done n.val := congrArg (fun v => v.2.2) ht
  obtain ⟨hTaken, hOther, hNews⟩ := h
  refine ⟨fun h => ?_, fun h => ?_, by rw [← hDoneT, ← hDone, ← hSlot, hNews]⟩
  · obtain ⟨h1, h2, h3, h4, h5⟩ := hTaken (hSlot.trans h)
    exact ⟨hSlotT.symm.trans h1, (hReadT (k := 0) (by decide)).symm.trans h2, (hReadT (by decide)).symm.trans h3,
      (hReadT (by decide)).symm.trans h4, fun k hk1 hk2 =>
        (hReadT (by omega)).symm.trans ((h5 k hk1 hk2).trans (hRead (by omega)))⟩
  · obtain ⟨h1, h2⟩ := hOther (fun e => h (hSlot.symm.trans e))
    exact ⟨hSlotT.symm.trans (h1.trans hSlot), fun k hk => (hReadT hk).symm.trans ((h2 k hk).trans (hRead hk))⟩

theorem refuseTaken_eq (s : State) (why : Reason) :
    s.refuseTaken why = forEach allNodes (fun n t => t.refuseIfTaken why n) s := rfl

theorem refuseTaken_slot (s : State) (why : Reason) (n : SlotId) : SlotRefused why n s (s.refuseTaken why) := by
  rw [refuseTaken_eq]
  obtain ⟨t, -, hView, hEnd⟩ := (forEach_own (fun (n : SlotId) (t : State) => t.refuseIfTaken why n) (slotView n) (fun _ => True) n
    allNodes s allNodes_nodup trivial (fun _ _ _ _ => trivial) fun m _ hm t _ => refuseIfTaken_other t why hm).2 (mem_allNodes n)
  exact (refuseIfTaken_own t why n).congr hView hEnd.symm

/-- Slots, their bytes and news, the order list and the pending levels alone have moved. -/
def slotsMoved (s t : State) : Prop := t = { s with
  mem := t.mem, slots := t.slots, intake := t.intake, news := { s.news with done := t.news.done }
  attn := { s.attn with pending := t.attn.pending } }

theorem slotsMoved.trans {s t u : State} (h : slotsMoved s t) (k : slotsMoved t u) : slotsMoved s u := by
  unfold slotsMoved at *
  generalize u.mem = mem, u.slots = slots, u.intake = intake, u.news.done = done, u.attn.pending = pending at k ⊢
  rw [k, h]

theorem refuseTaken_frame (s : State) (why : Reason) : slotsMoved s (s.refuseTaken why) := by
  rw [refuseTaken_eq]
  exact forEach_keeps (P := slotsMoved s) _ _ s rfl fun n _ t ht => ht.trans (refuseIfTaken_frame t why n)

theorem refuseTaken_memory (s : State) (why : Reason) {a : Nat} (ha : ¬ inSlots a) : (s.refuseTaken why).mem.read a = s.mem.read a :=
  (Measuring.refuseTaken s why).memory a ha

/-- Level 4 alone may join the pending set, and does where a slot was TAKEN. -/
theorem refuseTaken_level (s : State) (why : Reason) (k : Level) : has8 (s.refuseTaken why).attn.pending k.val =
    (has8 s.attn.pending k.val || decide (k = 4 ∧ ∃ n : SlotId, s.slots[n] = .taken)) := by
  rw [Bool.eq_iff_iff, Bool.or_eq_true, decide_eq_true_iff]
  have hOne (n : SlotId) (t : State) (hView : slotView n t = slotView n s) :
      has8 (t.refuseIfTaken why n).attn.pending k.val = true ↔ has8 t.attn.pending k.val = true ∨ (k = 4 ∧ s.slots[n] = .taken) := by
    have hSlot : t.slots[n] = s.slots[n] := congrArg Prod.fst hView
    unfold State.refuseIfTaken
    by_cases hTaken : t.slots[n] = .taken
    · rw [if_pos hTaken]
      unfold State.refuseSlot
      rw [completeSlot_eq]
      show has8 (t.attn.pending ||| bit8 4) k.val = true ↔ _
      rw [has8_add _ _ _ (by decide) k.isLt, Bool.or_eq_true, decide_eq_true_iff, ← hSlot]
      refine or_congr_right ⟨fun h => ⟨Fin.ext h.symm, hTaken⟩, fun h => ?_⟩
      rw [h.1]
      rfl
    · rw [if_neg hTaken]
      exact (or_iff_left fun h => hTaken (hSlot.trans h.2)).symm
  have hBrings (t : State) (ht : t = forEach allNodes (fun n t => t.refuseIfTaken why n) s) :
      has8 t.attn.pending k.val = true ↔ has8 s.attn.pending k.val = true ∨ ∃ n ∈ allNodes, k = 4 ∧ s.slots[n] = .taken := by
    rw [ht]
    exact forEach_brings (α := NodeId) (fun n t => t.refuseIfTaken why n) slotView (fun _ => True)
      (fun t => has8 t.attn.pending k.val = true) (fun n => k = 4 ∧ s.slots[n] = .taken) allNodes s allNodes_nodup trivial
      (fun _ _ _ _ => trivial) (fun n _ m hm t _ => refuseIfTaken_other t why hm) fun n _ t _ hView => hOne n t hView
  rw [hBrings _ (refuseTaken_eq s why)]
  exact or_congr_right ⟨fun ⟨n, _, h4, hn⟩ => ⟨h4, n, hn⟩, fun ⟨h4, n, hn⟩ => ⟨n, mem_allNodes n, h4, hn⟩⟩

/-- Every order stands in a TAKEN slot, so none is left. -/
theorem refuseTaken_intake {s : State} (h : intakeSound s) (why : Reason) : (s.refuseTaken why).intake = [] := by
  have hSound : intakeSound (s.refuseTaken why) := (Tabled.refuseTaken s why).intake h
  have hSlot := fun n => refuseTaken_slot s why n
  generalize s.refuseTaken why = t at *
  rw [List.eq_nil_iff_forall_not_mem]
  intro o ho
  have hTaken := hSound.2 o ho
  by_cases hBefore : s.slots[o.slot] = .taken
  · exact absurd (hTaken.symm.trans ((hSlot o.slot).taken hBefore).1) (by decide)
  · exact hBefore (((hSlot o.slot).other hBefore).1.symm.trans hTaken)

end Sys2Proof.Machine
end

section
/-! PROOFS. SAFE_STOP entered, as STOP and a failed detach verify bring it. -/

namespace Sys2Proof.Machine

/-- The state that the entry hands over to the refusals and the regroup, with the nodes and the memory as the hold's end
leaves them. -/
def State.entering (u : State) (cause : Cause) (chan : Option Chan) (nodes : Vector NodeStatus 8) (mem : Memory) : State := { u with
  cause := cause, causeChan := chan, triples := [], computing := none, results := [], taken := none, hold := none
  seqs := Vector.ofFn fun c => silentSeq u.seqs[c], safety := Vector.ofFn fun c => silentSafety u.seqs[c] u.safety[c]
  nodes := nodes, mem := mem, groups := Vector.ofFn fun l => (u.groups[l]).map overGroup
  mode := .safeStop, parkedPending := false, rotation := [], park := .stopped, attn := u.attn.setSafeStop true }

theorem stopped_entering (u : State) (cause : Cause) (chan : Option Chan) :
    ∃ nodes mem, u.stopped cause chan = u.entering cause chan nodes mem ∧ imagesWritten u (u.entering cause chan nodes mem) := by
  unfold State.stopped
  rw [silenceAll_eq]
  obtain ⟨a, ha⟩ : ∃ a, a = (({ u.setCause cause chan with
    seqs := Vector.ofFn fun c => silentSeq (u.setCause cause chan).seqs[c]
    safety := Vector.ofFn fun c => silentSafety (u.setCause cause chan).seqs[c] (u.setCause cause chan).safety[c] } : State).dropResults) :=
    ⟨_, rfl⟩
  rw [← ha]
  have hFrame := endHold_frame a
  have hImages := imagesWritten_endHold a
  generalize a.endHold = e at hFrame hImages ⊢
  refine ⟨e.nodes, e.mem, ?_, ?_⟩
  · unfold State.stopMode
    rw [clearSeries_eq]
    generalize e.nodes = nodes, e.mem = mem at hFrame ⊢
    rw [hFrame, ha]
    rfl
  · have hNodes : a.nodes = u.nodes := by rw [ha]; rfl
    have hMem : a.mem = u.mem := by rw [ha]; rfl
    unfold imagesWritten at hImages ⊢
    rw [hNodes, hMem] at hImages
    exact hImages

theorem entering_still (u : State) (cause : Cause) (chan : Option Chan) (nodes : Vector NodeStatus 8) (mem : Memory)
    {v : State} (hIntake : v.intake = []) (hGroups : v.groups = (u.entering cause chan nodes mem).groups)
    (hSeqs : v.seqs = (u.entering cause chan nodes mem).seqs) : Still v := by
  refine ⟨hIntake, fun l => seriesOf_none_iff.mpr fun g hg => ?_, fun c => ?_⟩
  · rw [hGroups] at hg
    have hOver : (u.groups[l]).map overGroup = some g := (Vector.getElem_ofFn _).symm.trans hg
    obtain ⟨g', -, rfl⟩ := Option.map_eq_some_iff.mp hOver
    rfl
  · rw [hSeqs]
    exact congrArg Seq.coupling (Vector.getElem_ofFn (f := fun c => silentSeq u.seqs[c]) c.isLt)

theorem setSafeStop_true (a : Attn) : (a.setSafeStop true).safeStopFact = true ∧ (a.setSafeStop true).mask = a.mask
    ∧ (a.setSafeStop true).inService = a.inService ∧ (a.setSafeStop true).faultFact = a.faultFact
    ∧ (a.safeStopFact = false → has8 a.inService 0 = false → has8 (a.setSafeStop true).pending 0 = true) := by
  unfold Attn.setSafeStop Attn.follow
  cases hFact : a.safeStopFact with
  | true => exact ⟨by rw [if_pos rfl]; exact hFact, by rw [if_pos rfl], by rw [if_pos rfl], by rw [if_pos rfl], fun h => nomatch h⟩
  | false =>
    rw [if_neg (by decide)]
    cases hService : has8 a.inService 0 with
    | true => exact ⟨rfl, rfl, rfl, rfl, fun _ h => nomatch h⟩
    | false =>
      refine ⟨rfl, rfl, rfl, rfl, fun _ _ => ?_⟩
      show has8 (a.pending ||| bit8 0) 0 = true
      rw [has8_add _ _ _ (by decide) (by decide), decide_eq_true rfl, Bool.or_true]

/-- Every group that a regroup leaves in a part whose groups' measurements are free has none, and no rotation count. -/
theorem stillGroups_free {v : State} (h : ∀ (l : GroupId) (g : Group), v.groups[l] = some g → g.series = .none ∧ g.rotation = 0)
    (fresh : Bool) {l : GroupId} {g : Group} (hg : (stillGroups v fresh)[l] = some g) : g.series = .none ∧ g.rotation = 0 := by
  have hMap := (Vector.getElem_ofFn (f := fun l => ((newGroups fresh (partition v.links) v.groups)[l]).map
    (evaluatedGroup v (!keepsGroup fresh (partition v.links) v.groups l) l)) l.isLt).symm.trans hg
  obtain ⟨g', hg', rfl⟩ := Option.map_eq_some_iff.mp hMap
  obtain ⟨hSeries, hRotation, -, -⟩ := evaluatedGroup_series v (!keepsGroup fresh (partition v.links) v.groups l) l g'
  unfold newGroups at hg'
  replace hg' := (Vector.getElem_ofFn _).symm.trans hg'
  have hFree : g'.series = .none ∧ g'.rotation = 0 := by
    split_ifs at hg' with h1 h2
    · exact h l g' hg'
    · cases hg'
      exact ⟨rfl, rfl⟩
  exact ⟨hSeries.trans hFree.1, hRotation.trans hFree.2⟩

/-- What the entry into SAFE_STOP leaves: the state handed over, its slots refused, its table regrouped. -/
theorem enterSafeStop_final {u : State} (hMode : u.mode ≠ .safeStop) (hSound : intakeSound u) (cause : Cause) (chan : Option Chan) :
    ∃ (nodes : Vector NodeStatus 8) (mem : Memory) (v : State), imagesWritten u (u.entering cause chan nodes mem)
      ∧ slotsMoved (u.entering cause chan nodes mem) v ∧ v.intake = []
      ∧ (∀ n : SlotId, SlotRefused .safeStop n (u.entering cause chan nodes mem) v)
      ∧ (∀ a, ¬ inSlots a → v.mem.read a = mem.read a)
      ∧ (∀ k, has8 (u.attn.setSafeStop true).pending k = true → has8 v.attn.pending k = true)
      ∧ u.enterSafeStop cause chan = { v with
          groups := stillGroups v false
          attn := if (false || decide (tableSignature v.groups ≠ tableSignature (stillGroups v false))) = true then v.attn.raise 7
            else v.attn } := by
  obtain ⟨nodes, mem, hStopped, hImages⟩ := stopped_entering u cause chan
  rw [enterSafeStop_eq hMode, hStopped]
  have hMoved := refuseTaken_frame (u.entering cause chan nodes mem) .safeStop
  have hIntake := refuseTaken_intake (s := u.entering cause chan nodes mem) hSound .safeStop
  have hSlots := fun n => refuseTaken_slot (u.entering cause chan nodes mem) .safeStop n
  have hMem := fun a => refuseTaken_memory (u.entering cause chan nodes mem) .safeStop (a := a)
  have hPending := (Measuring.refuseTaken (u.entering cause chan nodes mem) .safeStop).pending
  generalize (u.entering cause chan nodes mem).refuseTaken .safeStop = v at *
  have hGroups : v.groups = (u.entering cause chan nodes mem).groups := by rw [hMoved]
  have hSeqs : v.seqs = (u.entering cause chan nodes mem).seqs := by rw [hMoved]
  have hModeV : v.mode = .safeStop := by rw [hMoved]; rfl
  exact ⟨nodes, mem, v, hImages, hMoved, hIntake, hSlots, fun a ha => hMem a ha, hPending,
    regroupCore_still (entering_still u cause chan nodes mem hIntake hGroups hSeqs) (by rw [hModeV]; decide) false⟩

/-- Settles O56: the entry owner by owner; in SAFE_STOP already, the line or the mask alone. -/
theorem safeStopEntered : Obligations.SafeStopEntered := by
  unfold Obligations.SafeStopEntered
  refine ⟨fun i s u cause chan hStarting hCause => ?_, fun s => ⟨fun h => ?_, fun h => ?_, fun h => ?_⟩⟩
  · have hExec : exec i s = .next (u.enterSafeStop cause chan) ∧ u.mode = s.mode ∧ u.intake = s.intake ∧ u.slots = s.slots := by
      rcases hCause with ⟨rfl, hLine, rfl, rfl, rfl⟩ | ⟨c, rfl, hVerify, rfl, rfl, rfl⟩
      · refine ⟨congrArg Host.Outcome.next (if_neg ?_), rfl, rfl, rfl⟩
        rw [hStarting, hLine]
        decide
      · refine ⟨congrArg Host.Outcome.next ?_, rfl, rfl, rfl⟩
        unfold State.verifyExpiry
        rw [if_neg (fun h => h.elim (fun h => by rw [hStarting] at h; exact nomatch h) hVerify)]
        rfl
    obtain ⟨hExec, hModeU, hIntakeU, hSlotsU⟩ := hExec
    refine ⟨fun hStop => ?_, fun hMode hSound => ?_⟩
    · rw [hExec, enterSafeStop_same (hModeU.trans hStop)]
    · have hSoundU : intakeSound u := by
        unfold intakeSound
        rw [hIntakeU, hSlotsU]
        exact hSound
      refine ⟨_, hExec, ?_⟩
      clear hExec hCause
      obtain ⟨nodes, mem, v, hImages, hMoved, hIntake, hSlots, hMem, hPending, hFinal⟩ :=
        enterSafeStop_final (by rw [hModeU]; exact hMode) hSoundU cause chan
      obtain ⟨hFact, hMask, hService, hFault, hLevel⟩ := setSafeStop_true u.attn
      have hStopFields : v.mode = .safeStop ∧ v.cause = cause ∧ v.causeChan = chan ∧ v.parkedPending = false ∧ v.park = .stopped
          ∧ v.rotation = [] ∧ v.hold = none ∧ v.triples = [] ∧ v.computing = none ∧ v.results = [] ∧ v.taken = none := by
        rw [hMoved]
        exact ⟨rfl, rfl, rfl, rfl, rfl, rfl, rfl, rfl, rfl, rfl, rfl⟩
      obtain ⟨h1, h2, h3, h4, h5, h6, h7, h8, h9, h10, h11⟩ := hStopFields
      have hAttn : v.attn.safeStopFact = true ∧ v.attn.mask = u.attn.mask ∧ v.attn.inService = u.attn.inService
          ∧ v.attn.faultFact = u.attn.faultFact := by
        rw [hMoved]
        exact ⟨hFact, hMask, hService, hFault⟩
      obtain ⟨hFactV, hMaskV, hServiceV, hFaultV⟩ := hAttn
      have hSeqs : v.seqs = (u.entering cause chan nodes mem).seqs := by rw [hMoved]
      have hSafety : v.safety = (u.entering cause chan nodes mem).safety := by rw [hMoved]
      have hNodes : v.nodes = nodes := by rw [hMoved]; rfl
      have hGroups : v.groups = Vector.ofFn fun l => (u.groups[l]).map overGroup := by rw [hMoved]; rfl
      have hFixed : { v.fixed with
            cause := u.cause, causeChan := u.causeChan, hold := u.hold, nodes := u.nodes, triples := u.triples
            computing := u.computing, results := u.results, taken := u.taken, attn := u.fixed.attn } = u.fixed := by
        rw [hMoved]
        rfl
      obtain ⟨attn, hA⟩ : ∃ attn, attn = (if (false || decide (tableSignature v.groups ≠ tableSignature (stillGroups v false))) = true
          then v.attn.raise 7 else v.attn) := ⟨_, rfl⟩
      have hRaised : attn.safeStopFact = v.attn.safeStopFact ∧ attn.mask = v.attn.mask ∧ attn.inService = v.attn.inService
          ∧ attn.faultFact = v.attn.faultFact ∧ ∀ k, has8 v.attn.pending k = true → has8 attn.pending k = true := by
        rw [hA]
        split_ifs
        · exact ⟨rfl, rfl, rfl, rfl, fun k => has8_or_left _ _ k⟩
        · exact ⟨rfl, rfl, rfl, rfl, fun _ => id⟩
      obtain ⟨hFactT, hMaskT, hServiceT, hFaultT, hPendingT⟩ := hRaised
      have hOutside {a : Nat} (ha : ¬ inRecords a) (hs : ¬ inSlots a) : v.mem.read a = u.mem.read a :=
        (hMem a hs).trans (hImages.2.2.2.2 a ha)
      have hRecord (n : NodeId) {k : Nat} (hk : k < 32) : ¬ inSlots (recordAddr n + k) := by
        unfold inSlots recordAddr
        omega
      have hSlotOutside (n : SlotId) {k : Nat} (hk : k < 64) : mem.read (slotAddr n + k) = u.mem.read (slotAddr n + k) :=
        hImages.2.2.2.2 _ (by unfold inRecords slotAddr; omega)
      rw [hFinal, ← hA]
      refine ⟨h1, h2, h3, h4, h5, h6, h7, h8, h9, h10, h11, hIntake, ?_, hFactT.trans hFactV, fun hNo hServe =>
        hPendingT 0 (hPending 0 (hLevel hNo hServe)), fun c => ⟨?_, ?_⟩, fun n => ⟨?_, fun hDeferred => ?_, fun hKept k hk => ?_⟩,
        fun n => ⟨fun hTaken => ?_, fun hOther => ?_, ?_⟩, fun l g hg => ?_, fun a ha hs => hOutside ha hs, ?_,
        hMaskT.trans hMaskV, hServiceT.trans hServiceV, hFaultT.trans hFaultV⟩
      · unfold alertAsserted
        rw [h1]
        rfl
      · show v.seqs[c] = _
        rw [hSeqs]
        exact Vector.getElem_ofFn (f := fun c => silentSeq u.seqs[c]) c.isLt
      · show v.safety[c] = _
        rw [hSafety]
        exact Vector.getElem_ofFn (f := fun c => silentSafety u.seqs[c] u.safety[c]) c.isLt
      · show v.nodes[n] = _
        rw [hNodes]
        exact hImages.1 n
      · show recordShows v.mem n v.nodes[n]
        rw [hNodes]
        exact recordShows_congr (fun k hk => hMem _ (hRecord n hk)) (hImages.2.1 n hDeferred)
      · show v.mem.read _ = _
        exact (hMem _ (hRecord n hk)).trans (hImages.2.2.1 n hKept k hk)
      · obtain ⟨hA1, hA2, hA3, hA4, -⟩ := (hSlots n).taken hTaken
        exact ⟨hA1, hA2, hA3, hA4⟩
      · obtain ⟨hB1, hB2⟩ := (hSlots n).other hOther
        exact ⟨hB1, fun k hk => (hB2 k hk).trans (hSlotOutside n hk)⟩
      · exact (hSlots n).done
      · refine stillGroups_free (v := v) (fun l g hg => ?_) false hg
        rw [hGroups] at hg
        obtain ⟨g', -, rfl⟩ := Option.map_eq_some_iff.mp ((Vector.getElem_ofFn (f := fun l => (u.groups[l]).map overGroup) l.isLt).symm.trans hg)
        exact ⟨rfl, rfl⟩
      · exact hFixed
  · exact congrArg Host.Outcome.next (if_neg (by rw [h]; decide))
  · exact congrArg Host.Outcome.next (if_pos h)
  · exact congrArg Host.Outcome.next (if_pos h)

end Sys2Proof.Machine
end

section
/-! PROOFS. The soft reset: nodes forgotten, views unlatched, contexts cleared, and the regroup that forms every group anew. -/

namespace Sys2Proof.Machine

/-! ### Node states forgotten (R79) -/

/-- A node's status once its state is forgotten. -/
def NodeStatus.forgotten (x : NodeStatus) : NodeStatus := { x with state := .unknown, candidate := none, count := 0 }

/-- The soft reset changes the node's image, or one is due. -/
def NodeStatus.imageDue (x : NodeStatus) : Prop := x.state ≠ .unknown ∨ x.candidate ≠ none ∨ x.deferred = true

def State.forgetNode (n : NodeId) (t : State) : State :=
  if t.nodes[n].deferred ∨ t.nodes[n].state ≠ .unknown ∨ t.nodes[n].candidate ≠ none then
    (t.setNode n t.nodes[n].forgotten).writeImage n
  else t.setNode n t.nodes[n].forgotten

theorem softResetNodes_eq (s : State) : s.softResetNodes = (forEach allNodes (fun n t => t.forgetNode n) { s with hold := none }).updateFault := rfl

theorem forgetNode_frame (n : NodeId) (t : State) :
    t.forgetNode n = { t with nodes := (t.forgetNode n).nodes, mem := (t.forgetNode n).mem } := by
  unfold State.forgetNode
  split_ifs <;> rfl

theorem forgetNode_other {n m : NodeId} (h : n ≠ m) (t : State) : nodeView m (t.forgetNode n) = nodeView m t := by
  have hSet (x : NodeStatus) : nodeView m (t.setNode n x) = nodeView m t := nodeView_eq (upd_other _ _ _ _ h) fun _ _ => rfl
  unfold State.forgetNode
  split_ifs
  · exact (writeImage_other _ h).trans (hSet _)
  · exact hSet _

/-- What the soft reset leaves of one node and its record. -/
structure NodeForgotten (n : NodeId) (s t : State) : Prop where
  status : t.nodes[n] = { s.nodes[n] with
    state := .unknown, candidate := none, count := 0, deferred := false
    updateCount := if s.nodes[n].state ≠ .unknown ∨ s.nodes[n].candidate ≠ none ∨ s.nodes[n].deferred = true then
      s.nodes[n].updateCount + 1 else s.nodes[n].updateCount }
  image : s.nodes[n].imageDue → recordShows t.mem n t.nodes[n]
    ∧ ∀ k, 0x1C ≤ k → k < 32 → t.mem.read (recordAddr n + k) = s.mem.read (recordAddr n + k)
  kept : ¬ s.nodes[n].imageDue → ∀ k, k < 32 → t.mem.read (recordAddr n + k) = s.mem.read (recordAddr n + k)

theorem forgetNode_own (s : State) (n : NodeId) : NodeForgotten n s (s.forgetNode n) := by
  have hDue : (s.nodes[n].deferred = true ∨ s.nodes[n].state ≠ .unknown ∨ s.nodes[n].candidate ≠ none) ↔ s.nodes[n].imageDue := by
    unfold NodeStatus.imageDue
    tauto
  unfold State.forgetNode
  by_cases h : s.nodes[n].imageDue
  · rw [if_pos (hDue.mpr h)]
    refine ⟨?_, fun _ => ⟨writeImage_shows _ n, fun k h1 h2 => (writeImage_tail _ n n ⟨h1, h2⟩).trans rfl⟩, fun k => absurd h k⟩
    rw [writeImage_node, show (s.setNode n s.nodes[n].forgotten).nodes[n] = s.nodes[n].forgotten from upd_same _ _ _]
    have hCount : (if s.nodes[n].state ≠ .unknown ∨ s.nodes[n].candidate ≠ none ∨ s.nodes[n].deferred = true then
        s.nodes[n].updateCount + 1 else s.nodes[n].updateCount) = s.nodes[n].updateCount + 1 := if_pos h
    rw [hCount]
    rfl
  · rw [if_neg fun k => h (hDue.mp k)]
    refine ⟨?_, fun k => absurd k h, fun _ _ _ => rfl⟩
    have hKept : s.nodes[n].deferred = false := Bool.eq_false_iff.mpr fun k => h (.inr (.inr k))
    have hCount : (if s.nodes[n].state ≠ .unknown ∨ s.nodes[n].candidate ≠ none ∨ s.nodes[n].deferred = true then
        s.nodes[n].updateCount + 1 else s.nodes[n].updateCount) = s.nodes[n].updateCount := if_neg h
    rw [hCount, show (s.setNode n s.nodes[n].forgotten).nodes[n] = s.nodes[n].forgotten from upd_same _ _ _, ← hKept]
    rfl

theorem NodeForgotten.congr {n : NodeId} {s s' t t' : State} (h : NodeForgotten n s t) (hs : nodeView n s = nodeView n s')
    (ht : nodeView n t = nodeView n t') : NodeForgotten n s' t' := by
  obtain ⟨hStatus, hImage, hKept⟩ := h
  have hNode := nodes_of_nodeView hs
  have hNodeT := nodes_of_nodeView ht
  refine ⟨by rw [← hNodeT, ← hNode]; exact hStatus, fun hDue => ?_, fun hNot k hk => ?_⟩
  · obtain ⟨hShows, hTail⟩ := hImage (by rw [hNode]; exact hDue)
    refine ⟨?_, fun k h1 h2 => (record_of_nodeView ht h2).symm.trans ((hTail k h1 h2).trans (record_of_nodeView hs h2))⟩
    rw [← hNodeT]
    exact recordShows_congr (fun k hk => (record_of_nodeView ht hk).symm) hShows
  · exact (record_of_nodeView ht hk).symm.trans ((hKept (by rw [hNode]; exact hNot) k hk).trans (record_of_nodeView hs hk))

/-- Every node forgotten, and the fact that none is in FAULT handed on (R68, R79). -/
theorem softResetNodes_spec (s : State) : (∀ n : NodeId, NodeForgotten n s s.softResetNodes)
    ∧ s.softResetNodes = { s with
        hold := none, nodes := s.softResetNodes.nodes, mem := s.softResetNodes.mem, attn := s.attn.setFault false } := by
  obtain ⟨u, hu⟩ : ∃ u, u = forEach allNodes (fun n t => t.forgetNode n) { s with hold := none } := ⟨_, rfl⟩
  have hEach (n : NodeId) : NodeForgotten n s u := by
    obtain ⟨t, -, hView, hEnd⟩ := (forEach_own (fun n (t : State) => t.forgetNode n) (nodeView n) (fun _ => True) n allNodes
      { s with hold := none } allNodes_nodup trivial (fun _ _ _ _ => trivial) fun m _ h t _ => forgetNode_other h t).2 (mem_allNodes n)
    rw [← hu] at hEnd
    exact (forgetNode_own t n).congr hView hEnd.symm
  have hFrame : u = { s with hold := none, nodes := u.nodes, mem := u.mem } := by
    rw [hu]
    exact forEach_keeps (P := fun t : State => t = { s with hold := none, nodes := t.nodes, mem := t.mem }) _ _ _ rfl fun n _ t ht => by
      have hStep := forgetNode_frame n t
      generalize t.forgetNode n = w at hStep ⊢
      generalize w.nodes = nodes, w.mem = mem at hStep ⊢
      rw [hStep, ht]
  have hNoFault : anyFault u.nodes = false := by
    unfold anyFault
    rw [List.any_eq_false]
    intro n _
    rw [(hEach n).status]
    exact fun e => nomatch of_decide_eq_true e
  rw [softResetNodes_eq, ← hu]
  have hEnd : u.updateFault = { u with attn := u.attn.setFault false } := by
    unfold State.updateFault
    rw [hNoFault]
  rw [hEnd]
  refine ⟨fun n => (hEach n).congr rfl rfl, ?_⟩
  generalize u.nodes = nodes, u.mem = mem at hFrame ⊢
  rw [hFrame]

/-! ### Views unlatched (R43) -/

/-- A pass that unlatches every view and writes its request byte. -/
theorem resetViews_spec (s : State) : (∃ mem, s.resetViews = { s with
      seqs := Vector.ofFn fun c => { s.seqs[c] with viewLatched := false }, mem := mem })
    ∧ (∀ c : Chan, s.resetViews.mem.read (viewAddr c) = 0)
    ∧ ∀ a, (∀ c : Chan, a ≠ viewAddr c) → s.resetViews.mem.read a = s.mem.read a := by
  obtain ⟨z, hz⟩ : ∃ z : Byte, z = 0 := ⟨_, rfl⟩
  have hStep (c : Chan) (t : State) : t.unlatch c = { t with
      seqs := upd t.seqs c { t.seqs[c] with viewLatched := false }, mem := t.mem.write (viewAddr c) z } := by
    rw [hz]
    rfl
  have hFrame : s.resetViews = { s with seqs := s.resetViews.seqs, mem := s.resetViews.mem } :=
    forEach_keeps (P := fun t : State => t = { s with seqs := t.seqs, mem := t.mem }) _ _ _ rfl fun c _ t ht => by
      rw [hStep]
      generalize upd t.seqs c _ = seqs, t.mem.write (viewAddr c) z = mem
      rw [ht]
  have hApart {c d : Chan} (h : d ≠ c) : viewAddr c ≠ viewAddr d := by
    have hVal : d.val ≠ c.val := fun e => h (Fin.ext e)
    unfold viewAddr
    omega
  have hOwn (c : Chan) : s.resetViews.seqs[c] = { s.seqs[c] with viewLatched := false } ∧ s.resetViews.mem.read (viewAddr c) = 0 := by
    obtain ⟨t, -, hView, hEnd⟩ := (forEach_own (fun (c : Chan) (t : State) => t.unlatch c)
      (fun t : State => (t.seqs[c], t.mem.read (viewAddr c))) (fun _ => True) c allChans s allChans_nodup trivial
      (fun _ _ _ _ => trivial) fun d _ hd t _ => by
        rw [hStep]
        exact Prod.ext (upd_other _ _ _ _ hd) (Memory.read_write_other _ _ _ _ (hApart hd))).2 (mem_allChans c)
    have hSeq : t.seqs[c] = s.seqs[c] := congrArg Prod.fst hView
    rw [hStep] at hEnd
    exact ⟨(congrArg Prod.fst hEnd).trans ((upd_same _ _ _).trans (by rw [hSeq])),
      (congrArg Prod.snd hEnd).trans ((Memory.read_write_same _ _ _).trans hz)⟩
  refine ⟨⟨s.resetViews.mem, ?_⟩, fun c => (hOwn c).2, fun a ha => ?_⟩
  · have hSeqs : s.resetViews.seqs = Vector.ofFn fun c => { s.seqs[c] with viewLatched := false } := Vector.ext fun i hi => by
      rw [Vector.getElem_ofFn]
      exact (hOwn ⟨i, hi⟩).1
    generalize s.resetViews.mem = mem at hFrame ⊢
    rw [hFrame, hSeqs]
  · exact forEach_keeps (P := fun t : State => t.mem.read a = s.mem.read a) _ _ _ rfl fun c _ t ht => by
      rw [hStep]
      exact (Memory.read_write_other _ _ _ _ (ha c)).trans ht

/-! ### Contexts cleared (R98) -/

theorem resetContexts_eq (s : State) : s.resetContexts = { s with
    seqs := Vector.ofFn fun c => { s.seqs[c] with ctx := .none, record := CtxRecord.zero } } := by
  have hPass := forEach_chans (f := fun c t => t.setSeq c { t.seqs[c] with ctx := .none, record := CtxRecord.zero })
    (fun q _ => { q with ctx := .none, record := CtxRecord.zero }) (fun _ _ x => x) (fun c t => by simp [State.setSeq, upd]) s
  unfold State.resetContexts
  rw [hPass]
  have hSame : (Vector.ofFn fun c => s.safety[c]) = s.safety := Vector.ext fun i hi => by
    rw [Vector.getElem_ofFn]
    rfl
  rw [hSame]

end Sys2Proof.Machine
end

section
/-! PROOFS. The soft reset, as every unit takes it. -/

namespace Sys2Proof.Machine

/-- A channel's sequencer after a soft reset. -/
def resetSeq (q : Seq) : Seq := { silentSeq q with viewLatched := false, ctx := .none, record := CtxRecord.zero }

/-- The state that a soft reset hands over to the refusals and the regroup, with the nodes and the memory as its views and
its nodes leave them. -/
def State.resetting (s : State) (nodes : Vector NodeStatus 8) (mem : Memory) : State := { s with
  triples := [], computing := none, results := [], taken := none, hold := none
  seqs := Vector.ofFn fun c => resetSeq s.seqs[c], safety := Vector.ofFn fun c => silentSafety s.seqs[c] s.safety[c]
  nodes := nodes, mem := mem, groups := Vector.ofFn fun l => (s.groups[l]).map overGroup
  mode := .idle, request := .idle, parkedPending := false, rotation := [], park := .stopped
  attn := Attn.setFault { s.attn with pending := 0, inService := 0 } false }

theorem resetting_of (s : State) : ∃ nodes mem,
    (((forEach allChans (fun c t => t.silence c) s).dropResults.resetViews).resetAttn.softResetNodes.resetContexts.resetSchedule =
      s.resetting nodes mem)
    ∧ (∀ n : NodeId, NodeForgotten n s (s.resetting nodes mem)) ∧ (∀ c : Chan, mem.read (viewAddr c) = 0)
    ∧ ∀ a, ¬ inRecords a → (∀ c : Chan, a ≠ viewAddr c) → mem.read a = s.mem.read a := by
  obtain ⟨a, ha⟩ : ∃ a, a = (forEach allChans (fun c t => t.silence c) s).dropResults := ⟨_, rfl⟩
  have hSilent := silenceAll_eq s
  have hMemA : a.mem = s.mem := by
    rw [ha, hSilent]
    rfl
  have hNodesA : a.nodes = s.nodes := by
    rw [ha, hSilent]
    rfl
  rw [← ha]
  obtain ⟨⟨memB, hB⟩, hViews, hElse⟩ := resetViews_spec a
  obtain ⟨b, hb⟩ : ∃ b, b = a.resetViews.resetAttn := ⟨_, rfl⟩
  have hMemB : b.mem = a.resetViews.mem := by rw [hb]; rfl
  rw [← hMemB] at hViews hElse
  obtain ⟨hForgotten, hC⟩ := softResetNodes_spec b
  have hRecordsB := (Recording.softResetNodes b).memory
  rw [← hb]
  generalize b.softResetNodes = e at hForgotten hC hRecordsB ⊢
  have hView (c : Chan) : ¬ inRecords (viewAddr c) := by
    unfold inRecords viewAddr
    omega
  have hRecord (n : NodeId) {k : Nat} (hk : k < 32) (c : Chan) : recordAddr n + k ≠ viewAddr c := by
    unfold recordAddr viewAddr
    omega
  have hNodesB : b.nodes = s.nodes := by
    rw [hb, hB, ← hNodesA]
    rfl
  refine ⟨e.nodes, e.mem, ?_, fun n => ?_, fun c => ?_, fun x hx hv => ?_⟩
  · have hSeq (c : Chan) : e.seqs[c] = { silentSeq s.seqs[c] with viewLatched := false } := by
      have hA : a.seqs[c] = silentSeq s.seqs[c] := by
        rw [ha, hSilent]
        exact Vector.getElem_ofFn (f := fun c => silentSeq s.seqs[c]) c.isLt
      have hViewed : a.resetViews.seqs[c] = { a.seqs[c] with viewLatched := false } := by
        rw [hB]
        exact Vector.getElem_ofFn (f := fun c => ({ a.seqs[c] with viewLatched := false } : Seq)) c.isLt
      rw [← hA, ← hViewed, hC, hb]
      rfl
    have hSeqs : (Vector.ofFn fun c : Chan => ({ e.seqs[c] with ctx := .none, record := CtxRecord.zero } : Seq)) =
        Vector.ofFn fun c : Chan => resetSeq s.seqs[c] := Vector.ext fun i hi => by
      rw [Vector.getElem_ofFn, Vector.getElem_ofFn]
      exact congrArg (fun q : Seq => { q with ctx := .none, record := CtxRecord.zero }) (hSeq ⟨i, hi⟩)
    rw [resetContexts_eq, hSeqs]
    unfold State.resetSchedule
    rw [clearSeries_eq]
    generalize e.nodes = nodes, e.mem = mem at hC ⊢
    rw [hC, hb, hB, ha, hSilent]
    rfl
  · refine (hForgotten n).congr (nodeView_eq (by rw [hNodesB]) fun k hk => ?_) (nodeView_eq rfl fun _ _ => rfl)
    rw [hElse _ (hRecord n hk), hMemA]
  · rw [hRecordsB _ (hView c)]
    exact hViews c
  · rw [hRecordsB x hx, hElse x hv, hMemA]

/-! ### Every group formed anew (R21) -/

/-- What a soft reset's regroup makes of one group. -/
theorem stillGroups_fresh {v : State} {l : GroupId} {g : Group} (hIntake : v.intake = []) (hg : (stillGroups v true)[l] = some g) :
    (partition v.links)[l] = l ∧ g.members = memberMask (partition v.links) l ∧ g.seriesCount = 0 ∧ g.series = .none
    ∧ g.injector = lowestEligible v (Group.formed (memberMask (partition v.links) l))
    ∧ (g.injector = none → g.settle = none ∧ g.measurable = false)
    ∧ (g.injector ≠ none → g = settledGroup (readyPlan v l) { Group.formed (memberMask (partition v.links) l) with injector := g.injector }) := by
  have hMap := (Vector.getElem_ofFn (f := fun l => ((newGroups true (partition v.links) v.groups)[l]).map
    (evaluatedGroup v (!keepsGroup true (partition v.links) v.groups l) l)) l.isLt).symm.trans hg
  obtain ⟨g', hg', hEvaluated⟩ := Option.map_eq_some_iff.mp hMap
  unfold newGroups at hg'
  replace hg' := (Vector.getElem_ofFn _).symm.trans hg'
  have hLeads : (partition v.links)[l] = l := by
    by_contra hNot
    exact nomatch (if_neg hNot).symm.trans hg'
  have hFormed : g' = Group.formed (memberMask (partition v.links) l) := by
    rw [show (if (partition v.links)[l] = l then
        if keepsGroup true (partition v.links) v.groups l then v.groups[l] else some (Group.formed (memberMask (partition v.links) l))
        else none) = some (Group.formed (memberMask (partition v.links) l)) from by rw [if_pos hLeads]; rfl] at hg'
    exact (Option.some.inj hg').symm
  have hChoose : chooseInjector v l (Group.formed (memberMask (partition v.links) l)) =
      lowestEligible v (Group.formed (memberMask (partition v.links) l)) := by
    unfold chooseInjector
    rw [checkInProgress_empty hIntake l]
    rfl
  obtain ⟨hSeries, -, hMembers, hCount⟩ := evaluatedGroup_series v (!keepsGroup true (partition v.links) v.groups l) l g'
  rw [hEvaluated, hFormed] at hSeries hMembers hCount
  refine ⟨hLeads, hMembers, hCount, hSeries, ?_⟩
  unfold evaluatedGroup at hEvaluated
  rw [hFormed, hChoose] at hEvaluated
  by_cases hNone : lowestEligible v (Group.formed (memberMask (partition v.links) l)) = none
  · rw [if_pos hNone] at hEvaluated
    rw [← hEvaluated, hNone]
    exact ⟨rfl, fun _ => ⟨rfl, rfl⟩, fun h => absurd rfl h⟩
  · rw [if_neg hNone, if_pos (.inr (.inl rfl))] at hEvaluated
    have hInject := (settledGroup_series (readyPlan v l) { Group.formed (memberMask (partition v.links) l) with
      injector := lowestEligible v (Group.formed (memberMask (partition v.links) l)) }).2.2.1
    rw [hEvaluated] at hInject
    exact ⟨hInject, fun h => absurd (hInject.symm.trans h) hNone, fun _ => by rw [hInject]; exact hEvaluated.symm⟩

theorem stillGroups_table {v w : State} (hGroups : w.groups = stillGroups v true) (hLinks : w.links = v.links) : tableAgrees w := by
  intro l
  rw [hGroups, hLinks]
  have hMap : (stillGroups v true)[l] = ((newGroups true (partition v.links) v.groups)[l]).map
      (evaluatedGroup v (!keepsGroup true (partition v.links) v.groups l) l) := Vector.getElem_ofFn l.isLt
  have hNew : (newGroups true (partition v.links) v.groups)[l] =
      if (partition v.links)[l] = l then some (Group.formed (memberMask (partition v.links) l)) else none := by
    unfold newGroups
    refine (Vector.getElem_ofFn l.isLt).trans ?_
    rfl
  rw [hMap, hNew]
  split_ifs
  · exact congrArg some (evaluatedGroup_series v _ l _).2.2.1
  · rfl

/-- The injector is the lowest eligible channel exactly where it is what the search finds (R10). -/
theorem lowestInjects_of {t : State} {l : GroupId} {g g' : Group} (hGroup : t.groups[l] = some g)
    (h : g'.injector = lowestEligible t g) : lowestInjects t l g' := by
  refine ⟨fun c hc => ?_, fun hNone c hMay => ?_⟩
  · rw [h] at hc
    obtain ⟨hKeep, as, bs, hSplit, hAs⟩ := List.find?_eq_some_iff_append.mp hc
    refine ⟨(eligible_iff hGroup c).mp hKeep, fun d hd hMay => ?_⟩
    have hSorted : allChans.Pairwise (· < ·) := by decide
    rw [hSplit] at hSorted
    rcases List.mem_append.mp (hSplit ▸ mem_allChans d : d ∈ as ++ c :: bs) with hAhead | hBehind
    · have hNot := hAs d hAhead
      rw [(eligible_iff hGroup d).mpr hMay] at hNot
      exact nomatch hNot
    · rcases List.mem_cons.mp hBehind with hSame | hLater
      · exact absurd hd (hSame ▸ lt_irrefl _)
      · exact absurd (List.rel_of_pairwise_cons (List.pairwise_append.mp hSorted).2.1 hLater) (not_lt_of_gt hd)
  · rw [h] at hNone
    exact absurd ((eligible_iff hGroup c).mpr hMay) (List.find?_eq_none.mp hNone c (mem_allChans c))

theorem settleStarted_of {t : State} {l : GroupId} {g g' : Group}
    (hNone : g.injector = none → g.settle = none ∧ g.measurable = false)
    (hSome : g.injector ≠ none → g = settledGroup (readyPlan t l) g') : settleStarted t l g := by
  refine ⟨hNone, fun hInject hReady => ?_, fun p hInject hReady => ?_⟩
  · rw [hSome hInject, hReady]
    exact ⟨rfl, rfl, rfl⟩
  · rw [hSome hInject, hReady]
    unfold settledGroup
    dsimp only [Option.elim]
    refine ⟨fun hZero => ?_, fun hTime => ?_⟩
    · rw [if_pos hZero]
      exact ⟨rfl, rfl⟩
    · rw [if_neg hTime]
      exact ⟨rfl, rfl⟩

/-! ### The command -/

theorem setFault_false (a : Attn) {k : Nat} (h : has8 a.pending k = false) : has8 (a.setFault false).pending k = false := by
  unfold Attn.setFault Attn.follow
  by_cases hFact : a.faultFact = false
  · rw [if_pos hFact]
    exact h
  · rw [if_neg hFact]
    cases hService : has8 a.inService 1 with
    | true =>
      rw [if_pos rfl]
      exact h
    | false =>
      rw [if_neg Bool.false_ne_true, if_neg Bool.false_ne_true]
      show has8 (a.pending &&& ~~~bit8 1) k = false
      rw [has8_and, h, Bool.false_and]

theorem setFault_cleared (a : Attn) (k : Level) : has8 (Attn.setFault { a with pending := 0, inService := 0 } false).pending k.val = false :=
  setFault_false _ (has8_zero _)

theorem setFault_kept (a : Attn) (fact : Bool) : (a.setFault fact).inService = a.inService ∧ (a.setFault fact).mask = a.mask := by
  have hFrame := setFault_frame_pending a fact
  rw [hFrame]
  exact ⟨rfl, rfl⟩

/-- The regroup of a soft reset, with nothing left for the scheduler. -/
theorem regroupFrom_reset {v : State} (h : Still v) (hMode : v.mode = .idle) : v.regroupFrom 0 true = { v with
    groups := stillGroups v true, attn := v.attn.raise 7 } := by
  have hCore := regroupCore_still h (by rw [hMode]; decide) true
  rw [Bool.true_or, if_pos rfl] at hCore
  unfold State.regroupFrom
  dsimp only
  rw [if_neg (Nat.not_lt_zero _), hCore]
  have hRest : ∀ c : Chan, v.seqs[c].run = .none → v.seqs[c].coupling = .detached := fun c _ => h.detached c
  refine schedule_restful ⟨hMode, h.intake, hRest⟩

theorem exec_softReset {s : State} (hServed : served s) (hMode : s.mode ≠ .safeStop) (m : BitVec 2) (h : Bool) :
    exec (.softReset m h) s = .next (({ afterAddress s [] with holdExpired := false } : State).doSoftReset.shift 0) := by
  have hExec : exec (.softReset m h) s = .next (((afterAddress s []).writeControl (controlByte m h true)).shift 0) :=
    congrArg _ (transactFrom_of_not_dropped (.inl hServed.2) 1 _)
  obtain ⟨-, -, hReset⟩ := controlByte_fields m h true
  rw [hExec]
  unfold State.writeControl
  dsimp only
  rw [if_pos ⟨hReset, hMode, hServed.1⟩]

/-- The state a soft reset leaves, from the one it hands over to the refusals. -/
theorem doSoftReset_final {s : State} (hSound : intakeSound s) : ∃ (nodes : Vector NodeStatus 8) (mem : Memory) (v : State),
    (∀ n : NodeId, NodeForgotten n s (s.resetting nodes mem)) ∧ (∀ c : Chan, mem.read (viewAddr c) = 0)
    ∧ (∀ a, ¬ inRecords a → (∀ c : Chan, a ≠ viewAddr c) → mem.read a = s.mem.read a)
    ∧ slotsMoved (s.resetting nodes mem) v ∧ v.intake = []
    ∧ (∀ n : SlotId, SlotRefused .reset n (s.resetting nodes mem) v) ∧ (∀ a, ¬ inSlots a → v.mem.read a = mem.read a)
    ∧ (∀ k : Level, has8 v.attn.pending k.val = decide (k = 4 ∧ ∃ n : SlotId, s.slots[n] = .taken))
    ∧ s.doSoftReset = { v with groups := stillGroups v true, attn := v.attn.raise 7 } := by
  obtain ⟨nodes, mem, hBefore, hForgotten, hViews, hElse⟩ := resetting_of s
  have hMoved := refuseTaken_frame (s.resetting nodes mem) .reset
  have hIntake := refuseTaken_intake (s := s.resetting nodes mem) hSound .reset
  have hSlots := fun n => refuseTaken_slot (s.resetting nodes mem) .reset n
  have hMem := fun a => refuseTaken_memory (s.resetting nodes mem) .reset (a := a)
  have hLevel := fun k => refuseTaken_level (s.resetting nodes mem) .reset k
  have hDo : s.doSoftReset = ((s.resetting nodes mem).refuseTaken .reset).regroupFrom 0 true := by
    unfold State.doSoftReset
    dsimp only
    rw [hBefore]
  rw [hDo]
  generalize (s.resetting nodes mem).refuseTaken .reset = v at *
  have hStill : Still v := by
    refine ⟨hIntake, fun l => seriesOf_none_iff.mpr fun g hg => ?_, fun c => ?_⟩
    · rw [hMoved] at hg
      obtain ⟨g', -, rfl⟩ := Option.map_eq_some_iff.mp
        ((Vector.getElem_ofFn (f := fun l => (s.groups[l]).map overGroup) l.isLt).symm.trans hg)
      rfl
    · rw [hMoved]
      exact congrArg Seq.coupling (Vector.getElem_ofFn (f := fun c => resetSeq s.seqs[c]) c.isLt)
  have hMode : v.mode = .idle := by rw [hMoved]; rfl
  refine ⟨nodes, mem, v, hForgotten, hViews, hElse, hMoved, hIntake, hSlots, fun a ha => hMem a ha, fun k => ?_,
    regroupFrom_reset hStill hMode⟩
  rw [hLevel k]
  exact (congrArg (· || _) (setFault_cleared s.attn k)).trans (Bool.false_or _)

/-- In SAFE_STOP, and during STARTING, the RESET bit is not heard (R155, R168). -/
theorem exec_softReset_off {s : State} (m : BitVec 2) (h : Bool) (hOff : s.mode = .safeStop ∨ s.starting = true) :
    exec (.softReset m h) s = exec (.modeRequest m h) s := by
  refine congrArg Host.Outcome.next (?_ : s.transactFrom 1 (fun t => (t.writeControl (controlByte m h true)).shift 0) =
    s.transactFrom 1 fun t => (t.writeControl (controlByte m h false)).shift 0)
  unfold State.transactFrom State.transact
  split_ifs
  · rfl
  · obtain ⟨hModeR, hHoldR, -⟩ := controlByte_fields m h true
    obtain ⟨hMode, hHold, hReset⟩ := controlByte_fields m h false
    have hDeaf : ¬ (s.mode ≠ .safeStop ∧ s.starting = false) := fun hHears => hOff.elim hHears.1 fun hStart => by
      rw [hHears.2] at hStart
      exact nomatch hStart
    unfold State.writeControl
    dsimp only
    rw [if_neg fun hHears => hDeaf ⟨hHears.2.1, hHears.2.2⟩, if_neg fun hHears => hDeaf ⟨hHears.2.1, hHears.2.2⟩, hModeR, hHoldR,
      hMode, hHold]

/-- Settles O36: every unit's own reset, then TAKEN slots refused and every group formed anew. -/
theorem softResetResets : Obligations.SoftResetResets := by
  unfold Obligations.SoftResetResets
  refine ⟨fun s m h hOff => exec_softReset_off m h hOff, fun s m h hServed hMode hSound => ?_⟩
  · obtain ⟨nodes, mem, v, hForgotten, hViews, hElse, hMoved, hIntake, hSlots, hMem, hLevel, hFinal⟩ :=
      doSoftReset_final (s := { afterAddress s [] with holdExpired := false }) hSound
    have hExec := exec_softReset hServed hMode m h
    rw [hFinal] at hExec
    refine ⟨_, hExec, ?_⟩
    clear hExec
    obtain ⟨a, ha⟩ : ∃ a : State, a = { afterAddress s [] with holdExpired := false } := ⟨_, rfl⟩
    rw [← ha] at hForgotten hElse hMoved hSlots hLevel
    have hIdle : v.mode = .idle ∧ v.request = .idle ∧ v.parkedPending = false ∧ v.park = .stopped ∧ v.rotation = []
        ∧ v.hold = none ∧ v.holdExpired = false ∧ v.triples = [] ∧ v.computing = none ∧ v.results = [] ∧ v.taken = none := by
      rw [hMoved, ha]
      exact ⟨rfl, rfl, rfl, rfl, rfl, rfl, rfl, rfl, rfl, rfl, rfl⟩
    obtain ⟨h1, h2, h3, h4, h5, h6, h7, h8, h9, h10, h11⟩ := hIdle
    have hAttn : v.attn.inService = 0 ∧ v.attn.mask = s.attn.mask ∧ v.attn.faultFact = false := by
      obtain ⟨hService, hMask⟩ := setFault_kept { s.attn with pending := 0, inService := 0 } false
      rw [hMoved, ha]
      exact ⟨hService, hMask, setFault_faultFact _ _⟩
    obtain ⟨hService, hMask, hFault⟩ := hAttn
    have hKept : v.uptime = s.uptime ∧ v.uptimeLatch = s.uptimeLatch ∧ v.nodePlan = s.nodePlan ∧ v.links = s.links
        ∧ v.wiring = s.wiring ∧ v.plans = s.plans ∧ v.yields = s.yields ∧ v.lines = s.lines ∧ v.cause = s.cause
        ∧ v.causeChan = s.causeChan ∧ v.failMask = s.failMask ∧ v.intakeSeq = s.intakeSeq
        ∧ v.news.nodeState = s.news.nodeState ∧ v.news.nodeStale = s.news.nodeStale
        ∧ v.news.chanCond = s.news.chanCond ∧ v.news.chanSafety = s.news.chanSafety := by
      rw [hMoved, ha]
      exact ⟨rfl, rfl, rfl, rfl, rfl, rfl, rfl, rfl, rfl, rfl, rfl, rfl, rfl, rfl, rfl, rfl⟩
    have hSeqs : v.seqs = (a.resetting nodes mem).seqs := by rw [hMoved]
    have hSafety : v.safety = (a.resetting nodes mem).safety := by rw [hMoved]
    have hNodes : v.nodes = nodes := by rw [hMoved]; rfl
    have hMemA : a.mem = s.mem := by rw [ha]; rfl
    have hSeqA : a.seqs = s.seqs := by rw [ha]; rfl
    have hSafetyA : a.safety = s.safety := by rw [ha]; rfl
    have hNodesA : a.nodes = s.nodes := by rw [ha]; rfl
    have hSlotsA : a.slots = s.slots := by rw [ha]; rfl
    have hNewsA : a.news = s.news := by rw [ha]; rfl
    have hRecord (n : NodeId) {k : Nat} (hk : k < 32) : ¬ inSlots (recordAddr n + k) := by
      unfold inSlots recordAddr
      omega
    have hSlotOutside (n : SlotId) {k : Nat} (hk : k < 64) : mem.read (slotAddr n + k) = s.mem.read (slotAddr n + k) := by
      rw [← hMemA]
      exact hElse _ (by unfold inRecords slotAddr; omega) fun c => by unfold slotAddr viewAddr; omega
    have hViewOutside (c : Chan) : ¬ inSlots (viewAddr c) := by
      unfold inSlots viewAddr
      omega
    refine ⟨h1, h2, h3, h4, h5, h6, h7, h8, h9, h10, hIntake, h11, fun x hs hr hv => ?_, fun c => ⟨?_, ?_, ?_⟩,
      fun n => ⟨?_, fun hDue => ?_, fun hState hCand hDeferred k hk => ?_⟩, fun n => ⟨fun hOther => ?_, fun hTaken => ?_, ?_⟩, fun k => ?_,
      hService, hMask, hFault, ?_, fun l g hg => ?_, hKept⟩
    · exact (hMem x hs).trans ((hElse x hr hv).trans (by rw [hMemA]))
    · exact (hMem _ (hViewOutside c)).trans (hViews c)
    · show v.seqs[c] = _
      rw [hSeqs, ← hSeqA]
      exact Vector.getElem_ofFn (f := fun c => resetSeq a.seqs[c]) c.isLt
    · show v.safety[c] = _
      rw [hSafety, ← hSeqA, ← hSafetyA]
      exact Vector.getElem_ofFn (f := fun c => silentSafety a.seqs[c] a.safety[c]) c.isLt
    · show v.nodes[n] = _
      rw [hNodes, ← hNodesA]
      exact (hForgotten n).status
    · rw [← hNodesA] at hDue
      obtain ⟨hShows, hTail⟩ := (hForgotten n).image hDue
      refine ⟨?_, fun k hk1 hk2 => (hMem _ (hRecord n hk2)).trans ((hTail k hk1 hk2).trans (by rw [hMemA]))⟩
      show recordShows v.mem n v.nodes[n]
      rw [hNodes]
      exact recordShows_congr (fun k hk => hMem _ (hRecord n hk)) hShows
    · have hNot : ¬ a.nodes[n].imageDue := by
        rw [hNodesA]
        rintro (h | h | h)
        · exact h hState
        · exact h hCand
        · rw [hDeferred] at h
          exact nomatch h
      exact (hMem _ (hRecord n hk)).trans (((hForgotten n).kept hNot k hk).trans (by rw [hMemA]))
    · rw [← hSlotsA] at hOther ⊢
      obtain ⟨hSame, hBytes⟩ := (hSlots n).other hOther
      exact ⟨hSame, fun k hk => (hBytes k hk).trans (hSlotOutside n hk)⟩
    · rw [← hSlotsA] at hTaken
      obtain ⟨hRefused, hState, hProgress, hReason, hBytes⟩ := (hSlots n).taken hTaken
      exact ⟨hRefused, hState, hProgress, hReason, fun k hk1 hk2 => (hBytes k hk1 hk2).trans (hSlotOutside n (by omega))⟩
    · rw [← hSlotsA, ← hNewsA]
      exact (hSlots n).done
    · show has8 (v.attn.pending ||| bit8 7) k.val = true ↔ _
      rw [has8_add _ _ _ (by decide) k.isLt, hLevel k, hSlotsA, Bool.or_eq_true, decide_eq_true_iff, decide_eq_true_iff, or_comm]
      exact or_congr_left ⟨fun h => Fin.ext h.symm, fun h => by rw [h]; rfl⟩
    · exact stillGroups_table rfl rfl
    · obtain ⟨-, hMembers, hCount, hSeries, hInjector, hNone, hSome⟩ := stillGroups_fresh hIntake hg
      generalize hF : Group.formed (memberMask (partition v.links) l) = f at hMembers hInjector hSome
      have hFMembers : g.members = f.members := by rw [hMembers, ← hF]; rfl
      refine ⟨hCount, hSeries, lowestInjects_of hg ?_, settleStarted_of hNone hSome⟩
      rw [hInjector]
      exact List.find?_congr fun d _ => (eligible_congr (g := f) (g' := g) rfl rfl rfl hFMembers (fun _ => ⟨rfl, rfl⟩)
        (fun _ => Iff.rfl) d).symm

end Sys2Proof.Machine
end

section
/-! PROOFS. A regroup chooses a group's injector and starts its settle timer, and nothing after it undoes that. -/

namespace Sys2Proof.Machine

/-! ### The group table and the leaders (R6) -/

theorem memberMask_has8 (lab : Labels) (l : GroupId) (n : NodeId) : has8 (memberMask lab l) n.val = true ↔ lab[n] = l := by
  rw [has8_memberMask, decide_eq_true_iff]

theorem leaderOf_find (s : State) (n : NodeId) : leaderOf s n = (allNodes.find? fun l => has8 (membersOf s l) n.val).getD n := by
  unfold leaderOf
  congr 2
  funext l
  unfold membersOf
  cases s.groups[l] with
  | none => exact (has8_zero n.val).symm
  | some g => rfl

/-- Under an agreeing table a node's leader is its label. -/
theorem leaderOf_label {s : State} (h : tableAgrees s) (n : NodeId) : leaderOf s n = (partition s.links)[n] := by
  have hLabels := partition_labels s.links
  rw [leaderOf_find]
  have hOnly (l : GroupId) : has8 (membersOf s l) n.val = true ↔ (partition s.links)[n] = l := by
    have hTable := h l
    unfold membersOf
    cases hg : s.groups[l] with
    | none =>
      rw [hg, Option.map_none] at hTable
      have hNot : (partition s.links)[l] ≠ l := fun hl => nomatch hTable.trans (if_pos hl)
      have hSettled := hLabels.settled n
      exact ⟨fun hf => absurd ((has8_zero n.val).symm.trans hf) (by decide), fun hl => absurd ((label_congr _ hl).symm.trans (hSettled.trans hl)) hNot⟩
    | some g =>
      rw [hg, Option.map_some] at hTable
      by_cases hl : (partition s.links)[l] = l
      · rw [if_pos hl] at hTable
        dsimp only
        rw [Option.some.inj hTable]
        exact memberMask_has8 _ _ _
      · exact nomatch hTable.trans (if_neg hl)
  have hFind : (allNodes.find? fun l => has8 (membersOf s l) n.val) = some (partition s.links)[n] := by
    cases hFind : allNodes.find? fun l => has8 (membersOf s l) n.val with
    | none => exact absurd ((hOnly _).mpr rfl) (List.find?_eq_none.mp hFind _ (mem_allNodes _))
    | some l => rw [(hOnly l).mp (List.find?_some (p := fun l => has8 (membersOf s l) n.val) hFind)]
  rw [hFind]
  rfl

theorem table_group {s : State} (h : tableAgrees s) {l : GroupId} {g : Group} (hg : s.groups[l] = some g) :
    (partition s.links)[l] = l ∧ g.members = memberMask (partition s.links) l := by
  have hTable := h l
  rw [hg, Option.map_some] at hTable
  by_cases hl : (partition s.links)[l] = l
  · rw [if_pos hl] at hTable
    exact ⟨hl, Option.some.inj hTable⟩
  · exact nomatch hTable.trans (if_neg hl)

theorem leaderOf_leader {s : State} (h : tableAgrees s) {l : GroupId} {g : Group} (hg : s.groups[l] = some g) :
    leaderOf s l = l := (leaderOf_label h l).trans (table_group h hg).1

theorem leaderOf_leads {s : State} (h : tableAgrees s) {n : NodeId} {l : GroupId} (hLabel : leaderOf s n = l) :
    ∃ g, s.groups[l] = some g ∧ has8 g.members n.val = true := by
  have hTable := h l
  rw [leaderOf_label h n] at hLabel
  rw [if_pos ((label_congr _ hLabel).symm.trans (((partition_labels s.links).settled n).trans hLabel))] at hTable
  obtain ⟨g, hg, hMembers⟩ := Option.map_eq_some_iff.mp hTable
  refine ⟨g, hg, ?_⟩
  rw [hMembers]
  exact (memberMask_has8 _ _ _).mpr hLabel

end Sys2Proof.Machine
end

section
/-! PROOFS. What of a group an operation leaves standing: its members, injector and settle timer, and who may inject. -/

namespace Sys2Proof.Machine

/-! ### Checks in flight (R8, R10) -/

/-- The order is a SELFCHECK under way. -/
def activeCheck (o : Order) : Bool := decide (o.phase ≠ .waiting) && match o.job with | .selfcheck _ => true | .spot _ _ => false

/-- The SELFCHECKs under way, with their groups. -/
def checksOf (s : State) : List (Job × GroupId) := (s.intake.filter activeCheck).map fun o => (o.job, o.group)

theorem checking_iff (s : State) (c : Chan) : checking s c = true ↔ ∃ x ∈ checksOf s, x.1 = .selfcheck c := by
  unfold checking checksOf
  rw [List.any_eq_true]
  constructor
  · rintro ⟨o, ho, hBoth⟩
    obtain ⟨hJob, hPhase⟩ := Bool.and_eq_true_iff.mp hBoth
    refine ⟨(o.job, o.group), List.mem_map.mpr ⟨o, List.mem_filter.mpr ⟨ho, ?_⟩, rfl⟩, of_decide_eq_true hJob⟩
    unfold activeCheck
    rw [hPhase, of_decide_eq_true hJob]
    rfl
  · rintro ⟨x, hx, hJob⟩
    obtain ⟨o, ho, rfl⟩ := List.mem_map.mp hx
    obtain ⟨hIn, hActive⟩ := List.mem_filter.mp ho
    exact ⟨o, hIn, Bool.and_eq_true_iff.mpr ⟨decide_eq_true hJob, (Bool.and_eq_true_iff.mp hActive).1⟩⟩

theorem checkInProgress_iff (s : State) (l : GroupId) : checkInProgress s l = true ↔ ∃ x ∈ checksOf s, x.2 = l := by
  have hAny : checkInProgress s l = s.intake.any fun o => decide (o.group = l) && activeCheck o := by
    unfold checkInProgress activeCheck
    congr 1
    funext o
    rw [Bool.and_assoc] <;> cases o.job <;> rfl
  rw [hAny, List.any_eq_true]
  unfold checksOf
  constructor
  · rintro ⟨o, ho, hBoth⟩
    obtain ⟨hGroup, hActive⟩ := Bool.and_eq_true_iff.mp hBoth
    exact ⟨(o.job, o.group), List.mem_map.mpr ⟨o, List.mem_filter.mpr ⟨ho, hActive⟩, rfl⟩, of_decide_eq_true hGroup⟩
  · rintro ⟨x, hx, hGroup⟩
    obtain ⟨o, ho, rfl⟩ := List.mem_map.mp hx
    obtain ⟨hIn, hActive⟩ := List.mem_filter.mp ho
    exact ⟨o, hIn, Bool.and_eq_true_iff.mpr ⟨decide_eq_true hGroup, hActive⟩⟩

/-- Two orders of a sound list in one slot are one order. -/
theorem intakeSound.only {s : State} (h : intakeSound s) {o x : Order} (ho : o ∈ s.intake) (hx : x ∈ s.intake)
    (hSlot : x.slot = o.slot) : x = o := List.inj_on_of_nodup_map h.1 hx ho hSlot

theorem checksOf_modOrder {s : State} {n : SlotId} {f : Order → Order}
    (h : ∀ o ∈ s.intake, o.slot = n → activeCheck (f o) = activeCheck o
      ∧ (activeCheck o = true → (f o).job = o.job ∧ (f o).group = o.group)) : checksOf (s.modOrder n f) = checksOf s := by
  unfold checksOf State.modOrder
  dsimp only
  generalize s.intake = os at h
  induction os with
  | nil => rfl
  | cons o rest ih =>
    have hRest := ih fun x hx => h x (List.mem_cons_of_mem _ hx)
    rw [List.map_cons, List.filter_cons, List.filter_cons]
    by_cases hSlot : o.slot = n
    · obtain ⟨hSame, hKept⟩ := h o List.mem_cons_self hSlot
      rw [if_pos hSlot, hSame]
      cases hActive : activeCheck o with
      | false => exact hRest
      | true =>
        obtain ⟨hJob, hGroup⟩ := hKept hActive
        rw [if_pos rfl, if_pos rfl, List.map_cons, List.map_cons, hRest, hJob, hGroup]
    · rw [if_neg hSlot]
      cases activeCheck o with
      | false => exact hRest
      | true => rw [if_pos rfl, if_pos rfl, List.map_cons, List.map_cons, hRest]

theorem checksOf_leave {s t : State} {n : SlotId} (hIntake : t.intake = s.intake.filter fun o => o.slot ≠ n)
    (h : ∀ o ∈ s.intake, o.slot = n → activeCheck o = false) : checksOf t = checksOf s := by
  unfold checksOf
  rw [hIntake, List.filter_filter]
  congr 1
  refine List.filter_congr fun o ho => ?_
  by_cases hSlot : o.slot = n
  · rw [h o ho hSlot]
    rfl
  · rw [decide_eq_true hSlot, Bool.and_true]

/-! ### What stands (R8, R10, R12) -/

/-- What a regroup decides of a group. -/
def Group.stance (g : Group) : BitVec 8 × Option Chan × Option Nat × Bool × Bool :=
  (g.members, g.injector, g.settle, g.waitPlan, g.measurable)

/-- An operation that measures, and of the group leaves what a regroup decided; the checks in flight stay too. -/
structure Stands (l : GroupId) (s t : State) : Prop where
  measuring : Measuring s t
  members : sameMembers s t
  stance : (t.groups[l]).map Group.stance = (s.groups[l]).map Group.stance
  checks : intakeSound s → checksOf t = checksOf s
  intake : intakeSound s → intakeSound t

theorem Stands.refl (l : GroupId) (s : State) : Stands l s s := ⟨Measuring.refl s, fun _ => rfl, rfl, fun _ => rfl, id⟩

theorem Stands.trans {l : GroupId} {s t u : State} (h : Stands l s t) (k : Stands l t u) : Stands l s u where
  measuring := h.measuring.trans k.measuring
  members := fun m => (k.members m).trans (h.members m)
  stance := k.stance.trans h.stance
  checks := fun hs => (k.checks (h.intake hs)).trans (h.checks hs)
  intake := fun hs => k.intake (h.intake hs)

theorem Stands.forEach {α : Type} {l : GroupId} (as : List α) (f : α → State → State) (s : State)
    (h : ∀ a ∈ as, ∀ t, Stands l t (f a t)) : Stands l s (Machine.forEach as f s) :=
  forEach_keeps (P := Stands l s) f as s (Stands.refl l s) fun a ha t ht => ht.trans (h a ha t)

/-- An operation that leaves the table and the list. -/
theorem Stands.of_same {l : GroupId} {s t : State} (m : Measuring s t) (k : Tabled s t) (hGroups : t.groups = s.groups)
    (hIntake : t.intake = s.intake) : Stands l s t :=
  ⟨m, k.members, by rw [hGroups], fun _ => by unfold checksOf; rw [hIntake], k.intake⟩

theorem Stands.modGroup (l : GroupId) (s : State) (m : GroupId) {f : Group → Group} (hMembers : ∀ g, (f g).members = g.members)
    (h : m = l → ∀ g, (f g).stance = g.stance) : Stands l s (s.modGroup m f) where
  measuring := Measuring.modGroup s m f
  members := fun x => modGroup_members s m x f hMembers
  stance := by
    rw [modGroup_get]
    split
    · next hml =>
      rw [Option.map_map]
      exact congrArg (fun f => Option.map f s.groups[l]) (funext fun g => h hml g)
    · rfl
  checks := fun _ => by
    unfold checksOf
    rw [(modGroup_intake s m f).1]
  intake := fun hs => by
    obtain ⟨h1, h2, -⟩ := modGroup_intake s m f
    unfold intakeSound
    rw [h1, h2]
    exact hs

theorem Stands.setSeries (l : GroupId) (s : State) (m : GroupId) (x : SeriesState) : Stands l s (s.setSeries m x) :=
  Stands.modGroup l s m (fun _ => rfl) fun _ _ => rfl

theorem Stands.seriesOver (l : GroupId) (s : State) (m : GroupId) : Stands l s (s.seriesOver m) :=
  Stands.modGroup l s m (fun _ => rfl) fun _ _ => rfl

theorem Stands.countSeries (l : GroupId) (s : State) (m : GroupId) : Stands l s (s.countSeries m) :=
  Stands.modGroup l s m (fun _ => rfl) fun _ _ => rfl

end Sys2Proof.Machine
end

section
/-! PROOFS. What the scheduler's and the regroup's operations leave of a group. -/

namespace Sys2Proof.Machine

/-! ### Operations on channels alone -/

/-- Nothing but channels changes. -/
def OnChans (s t : State) : Prop := t = { s with seqs := t.seqs, safety := t.safety }

theorem OnChans.refl (s : State) : OnChans s s := rfl

theorem OnChans.trans {s t u : State} (h : OnChans s t) (k : OnChans t u) : OnChans s u := by
  unfold OnChans at *
  generalize u.seqs = q, u.safety = x at k ⊢
  rw [k, h]

theorem OnChans.groups {s t : State} (h : OnChans s t) : t.groups = s.groups := (congrArg State.groups h :)

theorem OnChans.intake {s t : State} (h : OnChans s t) : t.intake = s.intake := (congrArg State.intake h :)

theorem OnChans.forEach {α : Type} (as : List α) (f : α → State → State) (s : State) (h : ∀ a ∈ as, ∀ t, OnChans t (f a t)) :
    OnChans s (Machine.forEach as f s) :=
  forEach_keeps (P := OnChans s) f as s (OnChans.refl s) fun a ha t ht => ht.trans (h a ha t)

theorem OnChans.abandonRun (s : State) (c : Chan) : OnChans s (s.abandonRun c) := by
  unfold State.abandonRun
  dsimp only
  split
  · exact rfl
  · exact OnChans.refl s

theorem OnChans.detach (s : State) (c : Chan) : OnChans s (s.detach c) := by
  unfold State.detach
  dsimp only
  split
  · exact (OnChans.abandonRun s c).trans rfl
  · exact OnChans.refl s

theorem OnChans.stopChannel (s : State) (c : Chan) : OnChans s (s.stopChannel c) :=
  (OnChans.abandonRun s c).trans (OnChans.detach _ c)

theorem OnChans.stopInjector (s : State) (l : GroupId) : OnChans s (s.stopInjector l) := by
  unfold State.stopInjector
  split
  · exact OnChans.stopChannel s _
  · exact OnChans.refl s

theorem OnChans.dropRun (s : State) (c : Chan) : OnChans s (s.dropRun c) := rfl

theorem OnChans.tryAttach (s : State) (c : Chan) : OnChans s (s.tryAttach c) := by
  unfold State.tryAttach
  dsimp only
  split
  · exact rfl
  · exact OnChans.refl s

theorem OnChans.tryReference (s : State) (c : Chan) : OnChans s (s.tryReference c) := by
  unfold State.tryReference
  dsimp only
  split
  · exact rfl
  · exact OnChans.refl s

theorem OnChans.startRun (s : State) (c : Chan) (kind : RunKind) (owner : Option SlotId) (copy : RunCopy) :
    OnChans s (s.startRun c kind owner copy) := by
  unfold State.startRun
  dsimp only
  have hClear : OnChans s (if s.seqs[c].run = .none then s else s.dropRun c) := by
    split
    · exact OnChans.refl s
    · exact OnChans.dropRun s c
  generalize (if s.seqs[c].run = .none then s else s.dropRun c) = t at hClear ⊢
  split
  · exact hClear.trans rfl
  · exact hClear.trans (OnChans.trans (t := t.setSeq c (t.seqs[c].setUp kind owner copy)) rfl (OnChans.tryAttach _ c))

theorem OnChans.detachIdle (s : State) : OnChans s s.detachIdle := OnChans.forEach _ _ _ fun c _ t => by
  split
  · exact OnChans.detach t c
  · exact OnChans.refl t

theorem OnChans.detachOthers (s : State) : OnChans s s.detachOthers := OnChans.forEach _ _ _ fun c _ t => by
  split
  · exact OnChans.detach t c
  · exact OnChans.refl t

theorem OnChans.detachInjector (s : State) (l : GroupId) : OnChans s (s.detachInjector l) := by
  unfold State.detachInjector
  split
  · split
    · exact OnChans.detach s _
    · exact OnChans.refl s
  · exact OnChans.refl s

theorem OnChans.stands {s t : State} (h : OnChans s t) (m : Measuring s t) (k : Tabled s t) (l : GroupId) : Stands l s t :=
  Stands.of_same m k h.groups h.intake

theorem Stands.stopChannel (l : GroupId) (s : State) (c : Chan) : Stands l s (s.stopChannel c) :=
  (OnChans.stopChannel s c).stands (Measuring.stopChannel s c) (Tabled.stopChannel s c) l

theorem Stands.abandonRun (l : GroupId) (s : State) (c : Chan) : Stands l s (s.abandonRun c) :=
  (OnChans.abandonRun s c).stands (Measuring.abandonRun s c) (Tabled.abandonRun s c) l

theorem Stands.detach (l : GroupId) (s : State) (c : Chan) : Stands l s (s.detach c) :=
  (OnChans.detach s c).stands (Measuring.detach s c) (Tabled.detach s c) l

theorem Stands.stopInjector (l : GroupId) (s : State) (m : GroupId) : Stands l s (s.stopInjector m) :=
  (OnChans.stopInjector s m).stands (Measuring.stopInjector s m) (Tabled.stopInjector s m) l

theorem Stands.startRun (l : GroupId) {s : State} (hMode : s.mode ≠ .safeStop) (c : Chan) (kind : RunKind)
    (owner : Option SlotId) (copy : RunCopy) : Stands l s (s.startRun c kind owner copy) :=
  (OnChans.startRun s c kind owner copy).stands (Measuring.startRun s c kind owner copy hMode) (Tabled.startRun s c kind owner copy) l

theorem Stands.tryReference (l : GroupId) (s : State) (c : Chan) : Stands l s (s.tryReference c) :=
  (OnChans.tryReference s c).stands (Measuring.tryReference s c) (Tabled.tryReference s c) l

theorem Stands.detachIdle (l : GroupId) (s : State) : Stands l s s.detachIdle :=
  Stands.forEach _ _ _ fun c _ t => by
    split
    · exact Stands.detach l t c
    · exact Stands.refl l t

theorem Stands.detachOthers (l : GroupId) (s : State) : Stands l s s.detachOthers :=
  (OnChans.detachOthers s).stands (Measuring.detachOthers s) (Tabled.detachOthers s) l

theorem Stands.detachInjector (l : GroupId) (s : State) (m : GroupId) : Stands l s (s.detachInjector m) := by
  unfold State.detachInjector
  split
  · split
    · exact Stands.detach l s _
    · exact Stands.refl l s
  · exact Stands.refl l s

/-! ### Orders -/

/-- An order that is no check under way, before and after, changes. -/
theorem Stands.modOrder (l : GroupId) {s : State} {n : SlotId} {f : Order → Order} (hSlot : ∀ o, (f o).slot = o.slot)
    (h : intakeSound s → ∀ o ∈ s.intake, o.slot = n → activeCheck (f o) = activeCheck o
      ∧ (activeCheck o = true → (f o).job = o.job ∧ (f o).group = o.group)) : Stands l s (s.modOrder n f) where
  measuring := Measuring.modOrder s n f
  members := fun _ => rfl
  stance := rfl
  checks := fun hs => checksOf_modOrder (h hs)
  intake := intakeSound_modOrder s n f hSlot

theorem Stands.poke (l : GroupId) (s : State) (n : SlotId) {k : Nat} (hk : k < 64) (b : Byte) : Stands l s (s.poke (slotAddr n + k) b) :=
  Stands.of_same (Measuring.poke s _ b (slotAddr_range n k hk)) (Tabled.poke s _ b) rfl rfl

theorem Stands.setPhase (l : GroupId) {s : State} {n : SlotId} {ph : OrderPhase}
    (h : intakeSound s → ∀ o ∈ s.intake, o.slot = n → activeCheck { o with phase := ph } = activeCheck o) :
    Stands l s (s.setPhase n ph) :=
  (Stands.modOrder l (f := fun o => { o with phase := ph }) (fun _ => rfl)
    fun hs o ho hSlot => ⟨h hs o ho hSlot, fun _ => ⟨rfl, rfl⟩⟩).trans (Stands.poke l _ n (k := 0x12) (by decide) _)

theorem Stands.setOrderGroup (l : GroupId) {s : State} {n : SlotId} {m : GroupId}
    (h : intakeSound s → ∀ o ∈ s.intake, o.slot = n → activeCheck o = false) : Stands l s (s.setOrderGroup n m) :=
  (Stands.modOrder l (f := fun o => { o with group := m }) (fun _ => rfl) fun hs o ho hSlot => ⟨rfl, fun hActive => by
    rw [h hs o ho hSlot] at hActive
    exact nomatch hActive⟩).trans (Stands.poke l _ n (k := 0x13) (by decide) _)

theorem Stands.completeSlot (l : GroupId) {s : State} {n : SlotId} (final : SlotState) (reason : Byte) (kind : List Byte)
    (h : intakeSound s → ∀ o ∈ s.intake, o.slot = n → activeCheck o = false) : Stands l s (s.completeSlot n final reason kind) where
  measuring := Measuring.completeSlot s n final reason kind
  members := (Tabled.completeSlot s n final reason kind).members
  stance := by rw [completeSlot_groups]
  checks := fun hs => checksOf_leave (n := n) (completeSlot_intake s n final reason kind) (h hs)
  intake := (Tabled.completeSlot s n final reason kind).intake

theorem Stands.refuseSlot (l : GroupId) {s : State} {n : SlotId} (why : Reason)
    (h : intakeSound s → ∀ o ∈ s.intake, o.slot = n → activeCheck o = false) : Stands l s (s.refuseSlot n why) :=
  Stands.completeSlot l _ _ _ h

/-- In a sound list an order that is no check under way has its slot to itself. -/
theorem inactive_slot {s : State} {o : Order} (ho : o ∈ s.intake) (hActive : activeCheck o = false) (hs : intakeSound s) :
    ∀ x ∈ s.intake, x.slot = o.slot → activeCheck x = false := fun _ hx hSlot => by
  rw [hs.only ho hx hSlot]
  exact hActive

theorem activeCheck_waiting {o : Order} (h : o.phase = .waiting) : activeCheck o = false := by
  unfold activeCheck
  rw [h]
  rfl

theorem activeCheck_spot {o : Order} {node : NodeId} {p : PlanId} (h : o.job = .spot node p) : activeCheck o = false := by
  unfold activeCheck
  rw [h]
  exact Bool.and_false _

/-! ### Abandonments -/

theorem Stands.spotAbandoned (l : GroupId) {s : State} {o : Order} {node : NodeId} {p : PlanId} (ho : o ∈ s.intake)
    (hJob : o.job = .spot node p) : Stands l s (s.spotAbandoned o) := by
  have hAbandoned : Stands l s (((s.poke (slotAddr o.slot + 0x14) (byteOf (o.abandons + 1))).modOrder o.slot
      fun x => { x with abandons := o.abandons + 1 }).setSeries o.group .none) :=
    ((Stands.poke l s o.slot (k := 0x14) (by decide) _).trans
      (Stands.modOrder l (f := fun x => { x with abandons := o.abandons + 1 }) (fun _ => rfl) fun _ _ _ _ => ⟨rfl, fun _ => ⟨rfl, rfl⟩⟩)).trans
      (Stands.setSeries l _ _ _)
  have hSpot : intakeSound s → ∀ x ∈ (((s.poke (slotAddr o.slot + 0x14) (byteOf (o.abandons + 1))).modOrder o.slot
      fun x => { x with abandons := o.abandons + 1 }).setSeries o.group .none).intake, x.slot = o.slot → x.job = .spot node p := by
    intro hs x hx hSlot
    unfold State.setSeries at hx
    rw [State.modGroup_intake] at hx
    obtain ⟨y, hy, rfl⟩ := List.mem_map.mp hx
    have hSame : y = o := hs.only ho hy (by
      by_cases hEq : y.slot = o.slot
      · exact hEq
      · rw [if_neg hEq] at hSlot
        exact hSlot)
    rw [hSame, if_pos rfl]
    exact hJob
  unfold State.spotAbandoned
  dsimp only
  by_cases hs : intakeSound s
  · split
    · exact hAbandoned.trans (Stands.setPhase l fun _ x hx hSlot => by
        rw [activeCheck_spot (hSpot hs x hx hSlot), activeCheck_spot (o := { x with phase := .waiting }) (hSpot hs x hx hSlot)])
    · exact hAbandoned.trans (Stands.refuseSlot l _ fun _ x hx hSlot => activeCheck_spot (hSpot hs x hx hSlot))
  · have hWork := Tabled.spotAbandoned s o
    have hMeasure := Measuring.spotAbandoned s o
    unfold State.spotAbandoned at hWork hMeasure
    dsimp only at hWork hMeasure
    by_cases hAgain : o.abandons + 1 < 3
    · rw [if_pos hAgain] at hWork hMeasure ⊢
      exact ⟨hMeasure, hWork.members, hAbandoned.stance, fun h => absurd h hs, fun h => absurd h hs⟩
    · rw [if_neg hAgain] at hWork hMeasure ⊢
      refine ⟨hMeasure, hWork.members, ?_, fun h => absurd h hs, fun h => absurd h hs⟩
      rw [State.refuseSlot, completeSlot_groups]
      exact hAbandoned.stance

theorem Stands.abandonOwn (l : GroupId) (s : State) (m : GroupId) : Stands l s (s.abandonOwn m) := by
  have hStop := (Stands.stopInjector l s m).trans (Stands.seriesOver l _ m)
  unfold State.abandonOwn
  split
  · exact Stands.refl l s
  · split
    · exact hStop
    · exact hStop
    · exact hStop.trans (Stands.of_same (Measuring.of_table rfl rfl rfl rfl rfl rfl rfl rfl) (Tabled.of_same rfl rfl rfl rfl) rfl rfl)
    · exact Stands.refl l s
    · exact Stands.refl l s

theorem runningSpot_some {s : State} {l : GroupId} {o : Order} (h : runningSpot s l = some o) :
    o ∈ s.intake ∧ o.phase = .running ∧ o.group = l ∧ ∃ node p, o.job = .spot node p := by
  have hSome := List.find?_some h
  obtain ⟨hBoth, hJob⟩ := Bool.and_eq_true_iff.mp hSome
  obtain ⟨hPhase, hGroup⟩ := Bool.and_eq_true_iff.mp hBoth
  refine ⟨List.mem_of_find?_eq_some h, of_decide_eq_true hPhase, of_decide_eq_true hGroup, ?_⟩
  cases hKind : o.job with
  | spot node p => exact ⟨node, p, rfl⟩
  | selfcheck c =>
    rw [hKind] at hJob
    exact nomatch hJob

theorem Stands.abandonGroup (l : GroupId) (s : State) (m : GroupId) : Stands l s (s.abandonGroup m) := by
  unfold State.abandonGroup
  dsimp only
  split
  · next o ho =>
    obtain ⟨hIn, -, -, node, p, hJob⟩ := runningSpot_some ho
    exact ((Stands.abandonOwn l s m).trans (Stands.stopInjector l _ m)).trans
      (Stands.spotAbandoned l ((OnChans.stopInjector _ m).intake.symm ▸ hIn) hJob)
  · exact Stands.abandonOwn l s m

theorem Stands.inheritCheck (l : GroupId) (s : State) (m : GroupId) : Stands l s (s.inheritCheck m) := by
  unfold State.inheritCheck
  split
  · exact Stands.setSeries l s m _
  · exact Stands.refl l s

/-- A regroup's evaluation of another group. -/
theorem Stands.evaluateGroup {l m : GroupId} (h : m ≠ l) (s : State) (formed : Bool) : Stands l s (s.evaluateGroup formed m) := by
  have hMod (t : State) (f : Group → Group) (hf : ∀ g, (f g).members = g.members) : Stands l t (t.modGroup m f) :=
    Stands.modGroup l t m hf fun hml => absurd hml h
  have hSettle (t : State) : Stands l t (t.startSettle m) := by
    unfold State.startSettle
    split
    · exact hMod t _ fun _ => rfl
    · split
      · exact hMod t _ fun _ => rfl
      · exact hMod t _ fun _ => rfl
  have hAfter (t : State) (changed : Bool) : Stands l t (t.settleAfter m formed changed) := by
    unfold State.settleAfter
    split
    · exact Stands.refl l t
    · split
      · exact hMod t _ fun _ => rfl
      · split
        · exact (Stands.abandonOwn l t m).trans (hSettle _)
        · split
          · exact hSettle t
          · exact Stands.refl l t
  unfold State.evaluateGroup
  split
  · exact Stands.refl l s
  · next g hg =>
    dsimp only
    refine Stands.trans ?_ ((hMod _ (fun x => { x with injector := chooseInjector s m g }) fun _ => rfl).trans (hAfter _ _))
    split
    · exact Stands.abandonGroup l s m
    · exact Stands.refl l s

end Sys2Proof.Machine
end

section
/-! PROOFS. The choice of a regroup: a group's injector is the lowest eligible channel and its timer is started, and so they stay. -/

namespace Sys2Proof.Machine

/-! ### What the operations leave of a choice -/

theorem readyPlan_of {s t : State} (m : Measuring s t) (l : GroupId) : readyPlan t l = readyPlan s l := by
  unfold readyPlan nodePlanCopy
  rw [m.nodePlan_eq, m.plans_eq]

/-- Who may inject after an operation could before it, where no check ended. -/
theorem mayInject_back {s t : State} (m : Measuring s t) {l : GroupId} (hMembers : membersOf t l = membersOf s l)
    (hChecking : ∀ c : Chan, checking s c = true → checking t c = true) {c : Chan} (h : mayInject t l c) : mayInject s l c := by
  obtain ⟨hWired, hHealth, hConnected, hUnchecked, hHeld, hActive⟩ := h
  have hChan := m.chan c
  refine ⟨?_, hChan.health.symm.trans hHealth, hChan.disconnected.symm.trans hConnected, ?_, fun hCtx => ?_, ?_⟩
  · rw [hMembers] at hWired
    unfold wiredInto at hWired ⊢
    rw [m.wiring_eq] at hWired
    exact hWired
  · cases hCheck : checking s c with
    | false => rfl
    | true => exact absurd (hChecking c hCheck) (by rw [hUnchecked]; decide)
  · rcases hChan.ctx with hSame | ⟨hNone, -⟩
    · exact hHeld (hSame.trans hCtx)
    · exact nomatch hNone.symm.trans hCtx
  · rw [hMembers, m.yields_eq] at hActive
    exact hActive

theorem checking_of {s t : State} (h : checksOf t = checksOf s) (c : Chan) : checking t c = checking s c := by
  rw [Bool.eq_iff_iff, checking_iff, checking_iff, h]

theorem checkInProgress_of {s t : State} (h : checksOf t = checksOf s) (l : GroupId) : checkInProgress t l = checkInProgress s l := by
  rw [Bool.eq_iff_iff, checkInProgress_iff, checkInProgress_iff, h]

theorem Stands.mayInject {l m : GroupId} {s t : State} (h : Stands m s t) (hs : intakeSound s) {c : Chan}
    (hMay : mayInject t l c) : Machine.mayInject s l c :=
  mayInject_back h.measuring (membersOf_of_map (h.members l)) (fun d hd => (checking_of (h.checks hs) d).trans hd) hMay

/-! ### A choice made -/

/-- A regroup's choice stands: no lower channel may inject, with no injector none may, and the timer is started. -/
structure Chosen (s : State) (l : GroupId) (g : Group) : Prop where
  lowest : ∀ c : Chan, g.injector = some c → ∀ d : Chan, d < c → ¬ mayInject s l d
  none : g.injector = none → ∀ c : Chan, ¬ mayInject s l c
  settle : settleStarted s l g

/-- The choice stands in the group of a leader, unless a check is in progress there. -/
def ChosenAt (s : State) (l : GroupId) : Prop :=
  ∀ g : Group, s.groups[l] = some g → checkInProgress s l = false → Chosen s l g

theorem settleStarted_stance {s t : State} {l : GroupId} {g g' : Group} (hPlan : readyPlan t l = readyPlan s l)
    (hStance : g'.stance = g.stance) (h : settleStarted s l g) : settleStarted t l g' := by
  obtain ⟨hMembers, hInjector, hSettle, hWait, hMeasurable⟩ : g'.members = g.members ∧ g'.injector = g.injector
      ∧ g'.settle = g.settle ∧ g'.waitPlan = g.waitPlan ∧ g'.measurable = g.measurable := by
    simpa [Group.stance] using hStance
  unfold settleStarted
  rw [hInjector, hSettle, hWait, hMeasurable, hPlan]
  exact h

theorem Chosen.of {s t : State} {l : GroupId} {g g' : Group} (h : Chosen s l g) (m : Measuring s t) (hStance : g'.stance = g.stance)
    (hMay : ∀ c : Chan, mayInject t l c → mayInject s l c) : Chosen t l g' := by
  have hInjector : g'.injector = g.injector := congrArg (·.2.1) hStance
  exact ⟨fun c hc d hd hd' => h.lowest c (hInjector.symm.trans hc) d hd (hMay d hd'),
    fun hn c hc => h.none (hInjector.symm.trans hn) c (hMay c hc), settleStarted_stance (readyPlan_of m l) hStance h.settle⟩

theorem stance_group {s t : State} {l : GroupId} {g' : Group} (h : (t.groups[l]).map Group.stance = (s.groups[l]).map Group.stance)
    (hg : t.groups[l] = some g') : ∃ g, s.groups[l] = some g ∧ g'.stance = g.stance := by
  rw [hg, Option.map_some] at h
  obtain ⟨g, hSome, hStance⟩ := Option.map_eq_some_iff.mp h.symm
  exact ⟨g, hSome, hStance.symm⟩

theorem ChosenAt.stands {s t : State} {l : GroupId} (h : ChosenAt s l) (k : Stands l s t) (hs : intakeSound s) : ChosenAt t l := by
  intro g' hg' hFree
  obtain ⟨g, hg, hStance⟩ := stance_group k.stance hg'
  exact (h g hg ((checkInProgress_of (k.checks hs) l).symm.trans hFree)).of k.measuring hStance fun c hc => k.mayInject hs hc

theorem ChosenAt.shows {s : State} {l : GroupId} {g : Group} (h : ChosenAt s l) (hInjectors : injectorsEligible s)
    (hg : s.groups[l] = some g) (hFree : checkInProgress s l = false) : lowestInjects s l g ∧ settleStarted s l g := by
  have hChosen := h g hg hFree
  have hInjector : injectorOf s l = g.injector := injectorOf_some hg
  exact ⟨⟨fun c hc => ⟨hInjectors l c (hInjector.trans hc), hChosen.lowest c hc⟩, hChosen.none⟩, hChosen.settle⟩

/-! ### One group's evaluation -/

/-- An evaluation leaves the part as it leaves any other group. -/
theorem evaluateGroup_stands (s : State) (formed : Bool) (l : GroupId) : ∃ m : GroupId, Stands m s (s.evaluateGroup formed l) := by
  by_cases h : l = 0
  · exact ⟨1, Stands.evaluateGroup (by rw [h]; decide) s formed⟩
  · exact ⟨0, Stands.evaluateGroup h s formed⟩

/-- What an evaluation decides of its group. -/
theorem evaluateGroup_stance {s : State} {l : GroupId} {g : Group} (hGroup : s.groups[l] = some g) (formed : Bool) :
    ((s.evaluateGroup formed l).groups[l]).map Group.stance = some (evaluatedGroup s formed l g).stance := by
  unfold State.evaluateGroup
  rw [hGroup]
  dsimp only
  have hAbandon : Stands l s (if (decide (chooseInjector s l g ≠ g.injector) && g.injector.isSome) = true then s.abandonGroup l else s) := by
    split
    · exact Stands.abandonGroup l s l
    · exact Stands.refl l s
  generalize (if (decide (chooseInjector s l g ≠ g.injector) && g.injector.isSome) = true then s.abandonGroup l else s) = t at hAbandon ⊢
  obtain ⟨x, hx, hStance⟩ : ∃ x, t.groups[l] = some x ∧ x.stance = g.stance := by
    have hSame := hAbandon.stance
    rw [hGroup, Option.map_some] at hSame
    exact Option.map_eq_some_iff.mp hSame
  obtain ⟨hMembers, -, hSettle, hWait, hMeasurable⟩ : x.members = g.members ∧ x.injector = g.injector
      ∧ x.settle = g.settle ∧ x.waitPlan = g.waitPlan ∧ x.measurable = g.measurable := by
    simpa [Group.stance] using hStance
  generalize hChoice : chooseInjector s l g = inj
  have hModule := modGroup_some hx (fun y => { y with injector := inj })
  generalize hu : (t.modGroup l fun y => { y with injector := inj }) = u at hModule ⊢
  have hGroupU : u.groups[l] = some { x with injector := inj } := by
    rw [hModule]
    exact upd_same _ _ _
  have hPlan : readyPlan u l = readyPlan s l := by
    have hPlanT := readyPlan_of hAbandon.measuring l
    rw [← hPlanT, hModule]
    rfl
  have hStarts (v : State) (hv : Stands l u v) : ((v.startSettle l).groups[l]).map Group.stance =
      some (settledGroup (readyPlan s l) { g with injector := inj }).stance := by
    obtain ⟨y, hy, hStanceY⟩ : ∃ y, v.groups[l] = some y ∧ y.stance = ({ x with injector := inj } : Group).stance := by
      have hSame := hv.stance
      rw [hGroupU, Option.map_some] at hSame
      exact Option.map_eq_some_iff.mp hSame
    obtain ⟨hMembersY, hInjectorY, -⟩ : y.members = x.members ∧ y.injector = inj
        ∧ y.settle = x.settle ∧ y.waitPlan = x.waitPlan ∧ y.measurable = x.measurable := by
      simpa [Group.stance] using hStanceY
    rw [startSettle_eq hy, (readyPlan_of hv.measuring l).trans hPlan]
    dsimp only
    rw [upd_same, Option.map_some]
    unfold settledGroup Group.stance
    cases readyPlan s l with
    | none =>
      dsimp only [Option.elim]
      rw [hMembersY, hMembers, hInjectorY]
    | some p =>
      dsimp only [Option.elim]
      split_ifs
      · dsimp only
        rw [hMembersY, hMembers, hInjectorY]
      · dsimp only
        rw [hMembersY, hMembers, hInjectorY]
  unfold State.settleAfter evaluatedGroup
  rw [hGroupU, hChoice]
  dsimp only
  by_cases hNone : inj = none
  · rw [if_pos hNone, if_pos hNone, modGroup_some hGroupU]
    dsimp only
    rw [upd_same, Option.map_some]
    unfold Group.stance
    dsimp only
    rw [hMembers, hNone]
  · rw [if_neg hNone, if_neg hNone, hPlan]
    by_cases hReady : readyPlan s l = none
    · rw [if_pos (by rw [hReady]; rfl), if_pos (.inl hReady)]
      exact hStarts _ (Stands.abandonOwn l u l)
    · rw [if_neg (by simpa using hReady)]
      by_cases hStart : formed = true ∨ inj ≠ g.injector ∨ g.waitPlan = true
      · rw [if_pos (by simpa [or_assoc, hWait] using hStart), if_pos (.inr hStart)]
        exact hStarts u (Stands.refl l u)
      · rw [if_neg (by simpa [or_assoc, hWait] using hStart), if_neg (fun h => h.elim hReady hStart), hGroupU, Option.map_some]
        unfold Group.stance
        dsimp only
        rw [hMembers, hSettle, hWait, hMeasurable]

theorem evaluatedGroup_chosen {s : State} {l : GroupId} {g : Group} (hGroup : s.groups[l] = some g)
    (hFree : checkInProgress s l = false) (h : g.injector = none ∨ Chosen s l g) (formed : Bool) :
    Chosen s l (evaluatedGroup s formed l g) := by
  have hChoose : chooseInjector s l g = lowestEligible s g ∨ chooseInjector s l g = g.injector ∧ Chosen s l g := by
    unfold chooseInjector
    rw [if_neg (by rw [hFree]; decide)]
    rcases h with hNone | hChosen
    · rw [hNone]
      exact .inl rfl
    · cases hInject : g.injector with
      | none => exact .inl rfl
      | some c =>
        dsimp only
        split_ifs
        · exact .inr ⟨rfl, hChosen⟩
        · exact .inl rfl
  have hInject : (evaluatedGroup s formed l g).injector = chooseInjector s l g := by
    unfold evaluatedGroup
    split_ifs with hNone
    · exact hNone.symm
    · exact (settledGroup_series _ _).2.2.1
    · rfl
  have hLowest : (∀ c : Chan, (evaluatedGroup s formed l g).injector = some c → ∀ d : Chan, d < c → ¬ mayInject s l d)
      ∧ ((evaluatedGroup s formed l g).injector = none → ∀ c : Chan, ¬ mayInject s l c) := by
    rcases hChoose with hLowest | ⟨hKept, hChosen⟩
    · have hShows := lowestInjects_of hGroup (hInject.trans hLowest)
      exact ⟨fun c hc => (hShows.1 c hc).2, hShows.2⟩
    · rw [hInject, hKept]
      exact ⟨hChosen.lowest, hChosen.none⟩
  refine ⟨hLowest.1, hLowest.2, ?_⟩
  unfold evaluatedGroup at hInject ⊢
  by_cases hNone : chooseInjector s l g = none
  · rw [if_pos hNone]
    exact settleStarted_of (g' := g) (fun _ => ⟨rfl, rfl⟩) fun hn => absurd rfl hn
  · rw [if_neg hNone] at hInject ⊢
    split_ifs at hInject ⊢ with hStart
    · exact settleStarted_of (g' := { g with injector := chooseInjector s l g }) (fun hn => absurd (hInject.symm.trans hn) hNone)
        fun _ => rfl
    · have hSame : chooseInjector s l g = g.injector := by
        by_contra hNe
        exact hStart (.inr (.inr (.inl hNe)))
      rcases h with hFirst | hChosen
      · exact absurd (hSame.trans hFirst) hNone
      · exact settleStarted_stance rfl (by unfold Group.stance; dsimp only; rw [hSame]) hChosen.settle

/-- After its evaluation a group that had no injector, or a choice that stands, has one that stands. -/
theorem evaluateGroup_chosen {s : State} {l : GroupId} (hs : intakeSound s) (formed : Bool)
    (h : ∀ g, s.groups[l] = some g → g.injector = none ∨ (checkInProgress s l = false → Chosen s l g)) :
    ChosenAt (s.evaluateGroup formed l) l := by
  intro g' hg' hFree
  obtain ⟨m, hStands⟩ := evaluateGroup_stands s formed l
  have hBefore : checkInProgress s l = false := (checkInProgress_of (hStands.checks hs) l).symm.trans hFree
  cases hGroup : s.groups[l] with
  | none =>
    rw [evaluateGroup_noGroup hGroup, hGroup] at hg'
    exact nomatch hg'
  | some g =>
    have hStance := evaluateGroup_stance hGroup formed
    rw [hg', Option.map_some] at hStance
    have hChosen := evaluatedGroup_chosen hGroup hBefore ((h g hGroup).imp id fun hc => hc hBefore) formed
    exact hChosen.of hStands.measuring (Option.some.inj hStance) fun c hc => hStands.mayInject hs hc

/-- After every group's evaluation. -/
theorem evaluateEach_chosen {s : State} {l : GroupId} (hs : intakeSound s) (formed : GroupId → Bool)
    (h : ∀ g, s.groups[l] = some g → g.injector = none ∨ (checkInProgress s l = false → Chosen s l g)) :
    ChosenAt (forEach allNodes (fun m t => t.evaluateGroup (formed m) m) s) l := by
  obtain ⟨pre, post, hAll, hPre, hPost, hSplit⟩ :=
    forEach_split (fun (m : GroupId) (t : State) => t.evaluateGroup (formed m) m) allNodes_nodup (mem_allNodes l) s
  have hBefore : Stands l s (forEach pre (fun m t => t.evaluateGroup (formed m) m) s) :=
    Stands.forEach pre _ s fun m hm t => Stands.evaluateGroup (fun hml : m = l => hPre (hml ▸ hm)) t (formed m)
  rw [hSplit]
  generalize forEach pre (fun m t => t.evaluateGroup (formed m) m) s = t at hBefore ⊢
  have hAt : ChosenAt (t.evaluateGroup (formed l) l) l := by
    refine evaluateGroup_chosen (hBefore.intake hs) (formed l) fun g' hg' => ?_
    obtain ⟨g, hg, hStance⟩ := stance_group hBefore.stance hg'
    refine (h g hg).imp (fun hn => (congrArg (·.2.1) hStance).trans hn) fun hc hFree => ?_
    exact (hc ((checkInProgress_of (hBefore.checks hs) l).symm.trans hFree)).of hBefore.measuring hStance
      fun c hMay => hBefore.mayInject hs hMay
  obtain ⟨m, hEvaluated⟩ := evaluateGroup_stands t (formed l) l
  exact hAt.stands (Stands.forEach post _ _ fun m hm t => Stands.evaluateGroup (fun hml : m = l => hPost (hml ▸ hm)) t (formed m))
    (hEvaluated.intake (hBefore.intake hs))

end Sys2Proof.Machine
end

section
/-! PROOFS. Where the orders stand after a regroup, and that its choices outlast the scheduler. -/

namespace Sys2Proof.Machine

/-! ### The orders placed (R127, R130) -/

/-- A pass over the intake list that changes, or removes, each order in its turn. -/
theorem forEach_orders {s : State} (hs : intakeSound s) (step : Order → State → State) (f : Order → Option Order)
    (hf : ∀ o x, f o = some x → x.slot = o.slot)
    (hStep : ∀ o ∈ s.intake, ∀ (t : State) (A B : List Order), t.intake = A ++ o :: B → (∀ x ∈ A, x.slot ≠ o.slot) →
      (∀ x ∈ B, x.slot ≠ o.slot) → (step o t).intake = A ++ (f o).toList ++ B) :
    (forEach s.intake step s).intake = s.intake.filterMap f := by
  have hAll : ∀ (rest pre : List Order) (t : State), s.intake = pre ++ rest → t.intake = pre.filterMap f ++ rest →
      (forEach rest step t).intake = (pre ++ rest).filterMap f := by
    intro rest
    induction rest with
    | nil =>
      intro pre t _ ht
      rw [List.append_nil] at ht ⊢
      exact ht
    | cons o rest ih =>
      intro pre t hSplit ht
      have hNodup := hs.1
      rw [hSplit, List.map_append, List.map_cons, List.nodup_append, List.nodup_cons] at hNodup
      obtain ⟨-, ⟨hBehind, -⟩, hApart⟩ := hNodup
      have hAhead : ∀ x ∈ pre.filterMap f, x.slot ≠ o.slot := fun x hx hSlot => by
        obtain ⟨y, hy, hfy⟩ := List.mem_filterMap.mp hx
        exact hApart y.slot (List.mem_map_of_mem hy) o.slot List.mem_cons_self ((hf y x hfy).symm.trans hSlot)
      have hAfter := hStep o (hSplit ▸ List.mem_append_right _ List.mem_cons_self) t _ rest ht hAhead
        fun x hx hSlot => hBehind (hSlot ▸ List.mem_map_of_mem hx)
      have hNext := ih (pre ++ [o]) (step o t) (by rw [hSplit, List.append_assoc]; rfl) (by
        rw [hAfter, List.filterMap_append]
        cases hfo : f o <;> simp [hfo])
      rw [List.append_assoc] at hNext
      exact hNext
  exact hAll s.intake [] s rfl rfl

theorem modOrder_split {t : State} {o : Order} {A B : List Order} {f : Order → Order} (h : t.intake = A ++ o :: B)
    (hA : ∀ x ∈ A, x.slot ≠ o.slot) (hB : ∀ x ∈ B, x.slot ≠ o.slot) : (t.modOrder o.slot f).intake = A ++ f o :: B := by
  have hKeep (os : List Order) (hos : ∀ x ∈ os, x.slot ≠ o.slot) : os.map (fun x => if x.slot = o.slot then f x else x) = os :=
    (List.map_congr_left fun x hx => if_neg (hos x hx)).trans (List.map_id' os)
  rw [State.modOrder_intake, h, List.map_append, List.map_cons, if_pos rfl, hKeep A hA, hKeep B hB]

theorem filter_split {o : Order} {A B : List Order} (hA : ∀ x ∈ A, x.slot ≠ o.slot) (hB : ∀ x ∈ B, x.slot ≠ o.slot) :
    (A ++ o :: B).filter (fun x => decide (x.slot ≠ o.slot)) = A ++ B := by
  have hKeep (os : List Order) (hos : ∀ x ∈ os, x.slot ≠ o.slot) : os.filter (fun x => decide (x.slot ≠ o.slot)) = os :=
    List.filter_eq_self.mpr fun x hx => decide_eq_true (hos x hx)
  rw [List.filter_append, List.filter_cons, if_neg (by simp), hKeep A hA, hKeep B hB]

theorem setOrderGroup_split {t : State} {o : Order} {A B : List Order} {l : GroupId} (h : t.intake = A ++ o :: B)
    (hA : ∀ x ∈ A, x.slot ≠ o.slot) (hB : ∀ x ∈ B, x.slot ≠ o.slot) :
    (t.setOrderGroup o.slot l).intake = A ++ { o with group := l } :: B := modOrder_split h hA hB

/-- Orders in flight pass to the group that now contains their former leader. -/
theorem placeInFlight_intake {s : State} (hs : intakeSound s) : s.placeInFlight.intake =
    s.intake.map fun o => if o.phase = .waiting then o else { o with group := leaderOf s o.group } := by
  have hPlaced := forEach_orders hs
    (fun o t => if o.phase = .waiting then t else t.setOrderGroup o.slot (leaderOf s o.group))
    (fun o => some (if o.phase = .waiting then o else { o with group := leaderOf s o.group }))
    (fun o x hx => by
      rw [← Option.some.inj hx]
      split_ifs <;> rfl)
    fun o _ t A B ht hA hB => by
      split_ifs
      · simpa using ht
      · simpa using setOrderGroup_split ht hA hB
  rw [← List.filterMap_eq_map]
  exact hPlaced

/-- Where a regroup places a waiting order; a SELFCHECK whose channel is wired to no node leaves the list. -/
def placedOrder (s : State) (o : Order) : Option Order :=
  if o.phase = .waiting then (targetGroup s o).map fun l => { o with group := l } else some o

theorem placedOrder_kept {s : State} {o x : Order} (h : placedOrder s o = some x) :
    x.slot = o.slot ∧ x.job = o.job ∧ x.phase = o.phase ∧ x.abandons = o.abandons := by
  unfold placedOrder at h
  split_ifs at h
  · obtain ⟨l, -, rfl⟩ := Option.map_eq_some_iff.mp h
    exact ⟨rfl, rfl, rfl, rfl⟩
  · rw [← Option.some.inj h]
    exact ⟨rfl, rfl, rfl, rfl⟩

theorem placeWaiting_intake {s : State} (hs : intakeSound s) : s.placeWaiting.intake = s.intake.filterMap (placedOrder s) := by
  refine forEach_orders hs _ (placedOrder s) (fun o x hx => (placedOrder_kept hx).1) fun o _ t A B ht hA hB => ?_
  unfold placedOrder targetGroup
  by_cases hWaits : o.phase = .waiting
  · rw [if_pos hWaits, if_pos hWaits]
    have hAt := fun node : NodeId => setOrderGroup_split (l := leaderOf s node) ht hA hB
    cases hJob : o.job with
    | spot node p => simpa [hJob] using hAt node
    | selfcheck c =>
      dsimp only
      cases s.wiring[c].wiredNode with
      | none =>
        dsimp only [Option.map]
        rw [State.refuseSlot, completeSlot_intake, ht, filter_split hA hB]
        simp
      | some node => simpa [hJob] using hAt node
  · rw [if_neg hWaits, if_neg hWaits]
    simpa using ht

/-- A waiting order placed is no check under way. -/
theorem Stands.placeWaiting (l : GroupId) (s : State) : Stands l s s.placeWaiting where
  measuring := Measuring.placeWaiting s
  members := (Tabled.placeWaiting s).members
  stance := by
    have hGroups : s.placeWaiting.groups = s.groups :=
      forEach_keeps (P := fun t : State => t.groups = s.groups) _ _ s rfl fun o _ t ht => by
        split
        · split
          · exact ht
          · split
            · exact ht
            · rw [State.refuseSlot, completeSlot_groups, ht]
        · exact ht
    rw [hGroups]
  checks := fun hs => by
    unfold checksOf
    rw [placeWaiting_intake hs]
    induction s.intake with
    | nil => rfl
    | cons o rest ih =>
      rw [List.filterMap_cons, List.filter_cons]
      by_cases hWaits : o.phase = .waiting
      · rw [activeCheck_waiting hWaits, if_neg Bool.false_ne_true]
        cases hPlaced : placedOrder s o with
        | none => exact ih
        | some x =>
          dsimp only
          rw [List.filter_cons, activeCheck_waiting ((placedOrder_kept hPlaced).2.2.1.trans hWaits), if_neg Bool.false_ne_true]
          exact ih
      · have hPlaced : placedOrder s o = some o := if_neg hWaits
        rw [hPlaced]
        dsimp only
        rw [List.filter_cons]
        split_ifs
        · rw [List.map_cons, List.map_cons, ih]
        · exact ih
  intake := (Tabled.placeWaiting s).intake

/-- The checks under way keep their channels, and in a group that stands their group. -/
theorem placeInFlight_checks {s : State} (hs : intakeSound s) : checksOf s.placeInFlight =
    (checksOf s).map fun x => (x.1, leaderOf s x.2) := by
  unfold checksOf
  rw [placeInFlight_intake hs]
  induction s.intake with
  | nil => rfl
  | cons o rest ih =>
    rw [List.map_cons, List.filter_cons, List.filter_cons]
    by_cases hWaits : o.phase = .waiting
    · rw [if_pos hWaits, activeCheck_waiting hWaits, if_neg Bool.false_ne_true, if_neg Bool.false_ne_true]
      exact ih
    · have hSame : activeCheck { o with group := leaderOf s o.group } = activeCheck o := rfl
      rw [if_neg hWaits, hSame]
      split_ifs
      · rw [List.map_cons, List.map_cons, List.map_cons, ih]
      · exact ih

/-! ### A regroup's choice -/

theorem formGroups_agrees (s : State) (fresh : Bool) : tableAgrees (s.formGroups fresh) := fun l => by
  rw [(Measuring.formGroups s fresh).links_eq]
  exact formGroups_groups s fresh l

/-- After a regroup's first step a group is newly formed, or one that stood, with what was decided of it. -/
theorem formGroups_stance {s : State} {fresh : Bool} {l : GroupId} {g : Group} (hg : (s.formGroups fresh).groups[l] = some g) :
    g = Group.formed (memberMask (partition s.links) l)
      ∨ (keepsGroup fresh (partition s.links) s.groups l = true ∧ ∃ g', s.groups[l] = some g' ∧ g.stance = g'.stance
        ∧ (s.abandonChanged fresh (partition s.links)).groups[l] = some g) := by
  obtain ⟨t, ht⟩ : ∃ t, t = s.abandonChanged fresh (partition s.links) := ⟨_, rfl⟩
  have hStands : Stands l s t := by
    rw [ht]
    exact Stands.forEach _ _ _ fun m _ t => Stands.abandonGroup l t m
  unfold State.formGroups newGroups at hg
  dsimp only at hg
  rw [← ht] at hg ⊢
  replace hg := (Vector.getElem_ofFn l.isLt).symm.trans hg
  split at hg
  · split at hg
    · next hKeeps =>
      obtain ⟨g', hg', hStance⟩ := stance_group hStands.stance hg
      refine .inr ⟨?_, g', hg', hStance, hg⟩
      unfold keepsGroup at hKeeps ⊢
      have hMembers : g.members = g'.members := congrArg (·.1) hStance
      rw [hg] at hKeeps
      rw [hg']
      dsimp only at hKeeps ⊢
      rw [← hMembers]
      exact hKeeps
    · exact .inl (Option.some.inj hg).symm
  · exact nomatch hg

/-- A regroup makes the choice of every group that has no injector, and keeps the choices that stand. -/
theorem regroupCore_chosen {s : State} (hs : intakeSound s) (fresh : Bool) {l : GroupId}
    (h : ∀ g, s.groups[l] = some g → keepsGroup fresh (partition s.links) s.groups l = true →
      g.injector = none ∨ (checkInProgress s l = false → Chosen s l g)) :
    ChosenAt (s.regroupCore fresh) l := by
  unfold State.regroupCore
  dsimp only
  generalize hKeeps : keepsGroup fresh (partition s.links) s.groups = keeps
  obtain ⟨u, hu⟩ : ∃ u, u = s.formGroups fresh := ⟨_, rfl⟩
  have hAbandoned : Stands l s (s.abandonChanged fresh (partition s.links)) :=
    Stands.forEach _ _ _ fun m _ t => Stands.abandonGroup l t m
  have hChecksU : checksOf u = checksOf s := by
    rw [hu, ← hAbandoned.checks hs]
    rfl
  have hSoundU : intakeSound u := by
    rw [hu]
    exact hAbandoned.intake hs
  have hMeasuringU : Measuring s u := hu ▸ Measuring.formGroups s fresh
  have hFormed : ∀ g, u.groups[l] = some g → g.injector = none ∨ (checkInProgress u l = false → Chosen u l g) := by
    intro g hg
    rw [hu] at hg
    rcases formGroups_stance hg with rfl | ⟨hKept, g', hg', hStance, -⟩
    · exact .inl rfl
    · refine (h g' hg' hKept).imp (fun hn => (congrArg (·.2.1) hStance).trans hn) fun hc hFree => ?_
      refine (hc ((checkInProgress_of hChecksU l).symm.trans hFree)).of hMeasuringU hStance fun c hMay => ?_
      refine mayInject_back hMeasuringU ?_ (fun d hd => (checking_of hChecksU d).trans hd) hMay
      have hMembers : g.members = g'.members := congrArg (·.1) hStance
      unfold membersOf
      rw [hg', hu, hg]
      exact hMembers
  have hAgrees : tableAgrees u := hu ▸ formGroups_agrees s fresh
  rw [← hu]
  unfold State.evaluateAll
  have hChecksP := placeInFlight_checks hSoundU
  have hPlaced : ∀ g, u.placeInFlight.groups[l] = some g →
      g.injector = none ∨ (checkInProgress u.placeInFlight l = false → Chosen u.placeInFlight l g) := by
    intro g hg
    have hGroups : u.placeInFlight.groups = u.groups :=
      forEach_keeps (P := fun t : State => t.groups = u.groups) _ _ u rfl fun o _ t ht => by
        split
        · exact ht
        · exact ht
    rw [hGroups] at hg
    refine (hFormed g hg).imp id fun hc hFree => ?_
    have hFreeU : checkInProgress u l = false := by
      cases hCheck : checkInProgress u l with
      | false => rfl
      | true =>
        obtain ⟨x, hx, hGroup⟩ := (checkInProgress_iff u l).mp hCheck
        have hStill : checkInProgress u.placeInFlight l = true := by
          refine (checkInProgress_iff _ l).mpr ⟨(x.1, leaderOf u x.2), ?_, ?_⟩
          · rw [hChecksP]
            exact List.mem_map_of_mem hx
          · dsimp only
            rw [hGroup]
            exact leaderOf_leader hAgrees hg
        exact nomatch hFree.symm.trans hStill
    refine (hc hFreeU).of (Measuring.placeInFlight u) rfl fun c hMay => ?_
    refine mayInject_back (Measuring.placeInFlight u) (membersOf_of_map ((Tabled.placeInFlight u).members l)) (fun d hd => ?_) hMay
    obtain ⟨x, hx, hJob⟩ := (checking_iff u d).mp hd
    refine (checking_iff _ d).mpr ⟨(x.1, leaderOf u x.2), ?_, hJob⟩
    rw [hChecksP]
    exact List.mem_map_of_mem hx
  have hSoundP : intakeSound u.placeInFlight := (Tabled.placeInFlight u).intake hSoundU
  generalize u.placeInFlight = v at hPlaced hSoundP
  have hInherit : Stands l v (forEach (allNodes.filter fun m => !keeps m) (fun m t => t.inheritCheck m) v) :=
    Stands.forEach _ _ _ fun m _ t => Stands.inheritCheck l t m
  have hChosen : ChosenAt (forEach allNodes (fun m t => t.evaluateGroup (!keeps m) m)
      (forEach (allNodes.filter fun m => !keeps m) (fun m t => t.inheritCheck m) v)) l := by
    refine evaluateEach_chosen (hInherit.intake hSoundP) (fun m => !keeps m) fun g' hg' => ?_
    obtain ⟨g, hg, hStance⟩ := stance_group hInherit.stance hg'
    refine (hPlaced g hg).imp (fun hn => (congrArg (·.2.1) hStance).trans hn) fun hc hFree => ?_
    exact (hc ((checkInProgress_of (hInherit.checks hSoundP) l).symm.trans hFree)).of hInherit.measuring hStance
      fun c hMay => hInherit.mayInject hSoundP hMay
  have hSoundE : intakeSound (forEach allNodes (fun m t => t.evaluateGroup (!keeps m) m)
      (forEach (allNodes.filter fun m => !keeps m) (fun m t => t.inheritCheck m) v)) :=
    forEach_keeps (P := intakeSound) _ _ _ (hInherit.intake hSoundP) fun m _ t ht => by
      obtain ⟨m', hStands⟩ := evaluateGroup_stands t (!keeps m) m
      exact hStands.intake ht
  generalize forEach allNodes (fun m t => t.evaluateGroup (!keeps m) m)
    (forEach (allNodes.filter fun m => !keeps m) (fun m t => t.inheritCheck m) v) = w at hChosen hSoundE
  have hRest : Stands l w (((w.detachOthers.reorderRotation keeps).noticeTable fresh s.groups).placeWaiting) := by
    have hReorder (t : State) : Stands l t (t.reorderRotation keeps) := by
      unfold State.reorderRotation
      split
      · exact Stands.of_same (Measuring.of_table rfl rfl rfl rfl rfl rfl rfl rfl) (Tabled.of_same rfl rfl rfl rfl) rfl rfl
      · exact Stands.refl l _
    have hNotice (t : State) : Stands l t (t.noticeTable fresh s.groups) := by
      unfold State.noticeTable
      split
      · exact Stands.of_same (Measuring.raise _ 7) (Tabled.raise _ 7) rfl rfl
      · exact Stands.refl l _
    exact (((Stands.detachOthers l w).trans (hReorder _)).trans (hNotice _)).trans (Stands.placeWaiting l _)
  exact hChosen.stands hRest hSoundE

end Sys2Proof.Machine
end

section
/-! PROOFS. A regroup's choices outlast the scheduler, so a regroup leaves what its claim says. -/

namespace Sys2Proof.Machine

/-! ### The scheduler's operations -/

theorem Stands.requestStop (l : GroupId) (s : State) (m : GroupId) : Stands l s (s.requestStop m) := by
  unfold State.requestStop
  split
  · exact Stands.refl l s
  · split
    · exact Stands.refl l s
    · next c _ =>
      split
      · split
        · exact (Stands.abandonRun l s c).trans (Stands.seriesOver l _ m)
        · have hAsked := Working.setSeq s c { s.seqs[c] with stopRequest := true } rfl rfl rfl rfl rfl rfl
          have hTabled := Tabled.setSeq s c { s.seqs[c] with stopRequest := true } id
          exact (Stands.of_same hAsked.measuring hTabled rfl rfl).trans (Stands.setSeries l _ m _)
      · exact Stands.refl l s

theorem Stands.refuseDispatch (l : GroupId) {s : State} {o : Order} (ho : o ∈ s.intake) (hActive : activeCheck o = false)
    (why : Reason) : Stands l s (s.refuseDispatch o why) :=
  ((Stands.refuseSlot l why fun hs => inactive_slot ho hActive hs).trans (Stands.setSeries l _ _ _)).trans
    (Stands.detachInjector l _ _)

theorem Stands.startSpot (l : GroupId) {s : State} {o : Order} {node : NodeId} {p : PlanId} (hMode : s.mode ≠ .safeStop)
    (ho : o ∈ s.intake) (hJob : o.job = .spot node p) (plan : PlanId) : Stands l s (s.startSpot o plan) := by
  have hActive : activeCheck o = false := activeCheck_spot hJob
  unfold State.startSpot
  split
  · split
    · next c _ =>
      have hPhase : Stands l s (s.setPhase o.slot .running) := Stands.setPhase l fun hs x hx hSlot => by
        rw [hs.only ho hx hSlot, hActive]
        exact activeCheck_spot (o := { o with phase := .running }) hJob
      refine (hPhase.trans (Stands.countSeries l _ o.group)).trans (Stands.startRun l ?_ c _ _ _)
      unfold State.countSeries
      rw [modGroup_mode]
      exact hMode
    · exact Stands.refuseDispatch l ho hActive _
  · exact Stands.refuseDispatch l ho hActive _

theorem Stands.startOwn (l : GroupId) {s : State} (hMode : s.mode ≠ .safeStop) (m : GroupId) (state : SeriesState) (kind : RunKind) :
    Stands l s (s.startOwn m state kind) := by
  unfold State.startOwn
  split
  · next g p _ _ =>
    split
    · next c _ =>
      have hDetach (t : State) : Stands l t (t.detachForTurn c kind) := by
        unfold State.detachForTurn
        split
        · exact Stands.detach l t c
        · exact Stands.refl l t
      have hOwn : Stands l s (s.setOwn m state p) := Stands.modGroup l s m (fun _ => rfl) fun _ _ => rfl
      have hBefore := (hOwn.trans (hDetach _)).trans (Stands.countSeries l _ m)
      exact hBefore.trans (Stands.startRun l (fun hStop => hMode (hBefore.measuring.mode.mp hStop)) c _ _ _)
    · exact Stands.refl l s
  · exact Stands.refl l s

/-- A change that only adds checks to those under way keeps the choices. -/
theorem ChosenAt.grow {s t : State} {l : GroupId} (h : ChosenAt s l) (m : Measuring s t) (hMembers : sameMembers s t)
    (hStance : (t.groups[l]).map Group.stance = (s.groups[l]).map Group.stance) (hChecks : ∀ x ∈ checksOf s, x ∈ checksOf t) :
    ChosenAt t l := by
  intro g' hg' hFree
  obtain ⟨g, hg, hSame⟩ := stance_group hStance hg'
  have hFreeS : checkInProgress s l = false := by
    cases hCheck : checkInProgress s l with
    | false => rfl
    | true =>
      obtain ⟨x, hx, hGroup⟩ := (checkInProgress_iff s l).mp hCheck
      exact nomatch hFree.symm.trans ((checkInProgress_iff t l).mpr ⟨x, hChecks x hx, hGroup⟩)
  exact (h g hg hFreeS).of m hSame fun c hMay => mayInject_back m (membersOf_of_map (hMembers l)) (fun d hd => by
    obtain ⟨x, hx, hJob⟩ := (checking_iff s d).mp hd
    exact (checking_iff t d).mpr ⟨x, hChecks x hx, hJob⟩) hMay

theorem checksOf_started {s : State} (n : SlotId) : ∀ x ∈ checksOf s, x ∈ checksOf (s.setPhase n .running) := by
  intro x hx
  obtain ⟨o, ho, rfl⟩ := List.mem_map.mp hx
  obtain ⟨hIn, hActive⟩ := List.mem_filter.mp ho
  refine List.mem_map.mpr ⟨if o.slot = n then { o with phase := .running } else o, List.mem_filter.mpr ⟨?_, ?_⟩, ?_⟩
  · exact List.mem_map.mpr ⟨o, hIn, rfl⟩
  · split_ifs
    · obtain ⟨-, hJob⟩ := Bool.and_eq_true_iff.mp hActive
      exact Bool.and_eq_true_iff.mpr ⟨rfl, hJob⟩
    · exact hActive
  · split_ifs <;> rfl

/-! ### The scheduler -/

/-- The intake list is sound and the choice of a group stands. -/
structure Settled (l : GroupId) (s : State) : Prop where
  sound : intakeSound s
  chosen : ChosenAt s l

theorem Settled.stands {l : GroupId} {s t : State} (h : Settled l s) (k : Stands l s t) : Settled l t :=
  ⟨k.intake h.sound, h.chosen.stands k h.sound⟩

theorem Settled.startCheck {l : GroupId} {s : State} (h : Settled l s) (hMode : s.mode ≠ .safeStop) (o : Order) (c : Chan) :
    Settled l (s.startCheck o c) := by
  unfold State.startCheck
  dsimp only
  have hClear : Stands l s (if s.seqs[c].run = .none then s else s.dropRun c) := by
    split
    · exact Stands.refl l s
    · exact (OnChans.dropRun s c).stands (Measuring.dropRun s c) (Tabled.dropRun s c) l
  have hRun := clearRun_run s c
  generalize (if s.seqs[c].run = .none then s else s.dropRun c) = t at hClear hRun ⊢
  have hModeT : t.mode ≠ .safeStop := fun hStop => hMode (hClear.measuring.mode.mp hStop)
  obtain ⟨hSound, hChosen⟩ := h.stands hClear
  generalize hq : (t.setPhase o.slot .running).seqs[c].setUp .selfcheck (some o.slot) _ = q
  have hSetUp : Stands l t (t.setSeq c q) := by
    refine Stands.of_same (Measuring.of_seq c q ?_) (Tabled.setSeq t c q fun hAttached => ?_) rfl rfl
    · rw [← hq]
      exact ChanStep.setUp _ _ _ _ _ hModeT fun _ => hRun
    · rw [← hq] at hAttached
      exact hAttached
  obtain ⟨hSoundU, hChosenU⟩ := Settled.stands ⟨hSound, hChosen⟩ hSetUp
  have hSwap : (t.setPhase o.slot .running).setSeq c q = (t.setSeq c q).setPhase o.slot .running := rfl
  rw [hSwap]
  generalize t.setSeq c q = u at hSoundU hChosenU
  have hStarted : ChosenAt (u.setPhase o.slot .running) l :=
    hChosenU.grow (Measuring.setPhase u _ _) (fun _ => rfl) rfl (checksOf_started o.slot)
  have hSoundV : intakeSound (u.setPhase o.slot .running) :=
    intakeSound_modOrder u o.slot (fun x => { x with phase := .running }) (fun _ => rfl) hSoundU
  have hRegrouped : Settled l ((u.setPhase o.slot .running).regroupCore false) :=
    ⟨(regroupCore_sound _ false hSoundV).intake, regroupCore_chosen hSoundV false fun g hg _ => .inr (hStarted g hg)⟩
  exact (hRegrouped.stands (Stands.detach l _ c)).stands (Stands.tryReference l _ c)

theorem grantable_waiting {s : State} {o : Order} (h : grantable s o = true) : o ∈ s.intake ∧ o.phase = .waiting := by
  unfold grantable at h
  have hFront := of_decide_eq_true (Bool.and_eq_true_iff.mp h).1
  have hBoth := List.find?_some hFront
  exact ⟨List.mem_of_find?_eq_some hFront, of_decide_eq_true (Bool.and_eq_true_iff.mp hBoth).1⟩

theorem Settled.grant {l : GroupId} {s : State} (h : Settled l s) {o : Order} (hGrant : grantable s o = true) :
    Settled l (s.grant o) := by
  obtain ⟨ho, hWaits⟩ := grantable_waiting hGrant
  have hMode : (s.setSeries o.group .order).mode ≠ .safeStop := by
    unfold State.setSeries
    rw [modGroup_mode]
    exact grantable_mode hGrant
  have hIn : o ∈ (s.setSeries o.group .order).intake := by
    unfold State.setSeries
    rw [State.modGroup_intake]
    exact ho
  have hSeries := h.stands (Stands.setSeries l s o.group .order)
  unfold State.grant
  dsimp only
  generalize s.setSeries o.group .order = t at hMode hIn hSeries
  split
  · next node plan hJob =>
    split
    · exact hSeries.stands (Stands.refuseDispatch l hIn (activeCheck_waiting hWaits) _)
    · exact hSeries.stands (Stands.startSpot l hMode hIn hJob plan)
  · next c _ =>
    split
    · exact hSeries.stands (Stands.refuseDispatch l hIn (activeCheck_waiting hWaits) _)
    · exact hSeries.startCheck hMode o c

theorem Settled.scheduleOne {l : GroupId} {s t : State} (h : Settled l s) (hOne : scheduleOne s = some t) : Settled l t := by
  unfold Machine.scheduleOne at hOne
  split at hOne
  · next o ho =>
    rw [← Option.some.inj hOne]
    exact h.grant (List.find?_some (p := fun o => grantable s o) ho)
  · split at hOne
    · next hm =>
      split at hOne
      · obtain ⟨m, -, rfl⟩ := Option.map_eq_some_iff.mp hOne
        exact h.stands ((Stands.startOwn l (by rw [hm]; decide) m _ _).trans
          (Stands.of_same (Measuring.of_table rfl rfl rfl rfl rfl rfl rfl rfl) (Tabled.of_same rfl rfl rfl rfl) rfl rfl))
      · exact nomatch hOne
    · next hm =>
      obtain ⟨m, -, rfl⟩ := Option.map_eq_some_iff.mp hOne
      exact h.stands (Stands.startOwn l (by rw [hm]; decide) m _ _)
    · exact nomatch hOne
    · exact nomatch hOne

theorem Settled.scheduleAll {l : GroupId} : ∀ (n : Nat) {s : State}, Settled l s → Settled l (scheduleAll n s)
  | 0, _, h => h
  | n + 1, s, h => by
    unfold Machine.scheduleAll
    dsimp only
    have hAsked := h.stands (Stands.forEach (l := l) allNodes (fun m t => t.requestStop m) s fun m _ t => Stands.requestStop l t m)
    generalize Machine.forEach allNodes (fun m t => t.requestStop m) s = t at hAsked ⊢
    cases hOne : Machine.scheduleOne t with
    | none => exact hAsked
    | some u => exact Settled.scheduleAll n (hAsked.scheduleOne hOne)

theorem Settled.schedule {l : GroupId} {s : State} (h : Settled l s) : Settled l s.schedule :=
  (h.scheduleAll scheduleFuel).stands (Stands.detachIdle l _)

theorem Stands.recount (l : GroupId) (s : State) : Stands l s s.recount := by
  have hMeasuring := (Working.recount s).measuring
  have hAll := Stands.forEach (l := l) allNodes (fun m t => t.abandonOwn m) s fun m _ t => Stands.abandonOwn l t m
  unfold State.recount State.changeMode at hMeasuring ⊢
  dsimp only at hMeasuring ⊢
  rw [if_pos rfl] at hMeasuring ⊢
  generalize Machine.forEach allNodes (fun m t => t.abandonOwn m) s = t at hMeasuring hAll ⊢
  split_ifs at hMeasuring ⊢
  · exact ⟨hMeasuring, hAll.members, hAll.stance, hAll.checks, hAll.intake⟩
  · exact Stands.refl l s

/-- A regroup with all that follows makes the choice of every group that has no injector. -/
theorem regroupFrom_chosen {s : State} (hs : intakeSound s) (running : Nat) (fresh : Bool) {l : GroupId}
    (h : ∀ g, s.groups[l] = some g → keepsGroup fresh (partition s.links) s.groups l = true →
      g.injector = none ∨ (checkInProgress s l = false → Chosen s l g)) :
    ChosenAt (s.regroupFrom running fresh) l := by
  have hCore : Settled l (s.regroupCore fresh) := ⟨(regroupCore_sound s fresh hs).intake, regroupCore_chosen hs fresh h⟩
  unfold State.regroupFrom
  dsimp only
  generalize s.regroupCore fresh = t at hCore
  refine (Settled.schedule (?_ : Settled l (if runningCount t < running then t.recount else t))).chosen
  split_ifs
  · exact hCore.stands (Stands.recount l t)
  · exact hCore

/-- What a regroup leaves where the groups had the injectors of a state before it. -/
theorem regroupFrom_regrouped {s u : State} (hs : intakeSound u) (hInjectors : ∀ l : GroupId, injectorOf u l = injectorOf s l)
    (running : Nat) (fresh : Bool) : regrouped s (u.regroupFrom running fresh) := by
  have hSound := regroupFrom_sound u running fresh hs
  refine ⟨hSound.table, hSound.injectors, hSound.attached, fun l g hg hNone hUnchecked => ?_⟩
  have hChosen : ChosenAt (u.regroupFrom running fresh) l := regroupFrom_chosen hs running fresh fun g' hg' _ => .inl (by
    rw [← injectorOf_some hg', hInjectors]
    exact hNone)
  refine hChosen.shows hSound.injectors hg ?_
  cases hCheck : checkInProgress (u.regroupFrom running fresh) l with
  | false => rfl
  | true =>
    obtain ⟨x, hx, hGroup⟩ := (checkInProgress_iff _ l).mp hCheck
    obtain ⟨o, ho, rfl⟩ := List.mem_map.mp hx
    obtain ⟨hIn, hActive⟩ := List.mem_filter.mp ho
    obtain ⟨hPhase, hJob⟩ := Bool.and_eq_true_iff.mp hActive
    cases hKind : o.job with
    | selfcheck d => exact absurd hKind (hUnchecked o hIn hGroup (of_decide_eq_true hPhase) d)
    | spot node p =>
      rw [hKind] at hJob
      exact nomatch hJob

end Sys2Proof.Machine
end

section
/-! PROOFS. SNAPSHOT, RELEASE and CLEAR_DISCONNECT, with the regroup they bring. -/

namespace Sys2Proof.Machine

/-! ### A SNAPSHOT in a memory whose list is not in order -/

/-- The cells that an answer leaves are in canonical form. -/
def answersCanonical (x : Answer) : Bool :=
  match x with
  | .next t => t.mem.wf
  | .fault _ | .refused _ => true

/-- Channel 0 is held, and the memory lists a cell of its frame before a cell of a lower address. -/
def heldDisordered : State := { State.reset with
  starting := false, seqs := upd State.reset.seqs 0 { State.reset.seqs[(0 : Chan)] with ctx := .held }
  mem := [(0x900, 9), (0x100, 1)] }

/-- The frame's write puts this memory in order, but the slot's write before it does not. -/
theorem heldDisordered_frame : (heldDisordered.mem.writeBytes (frameAddr 0)
    (frameBytes 0 heldDisordered.seqs[(0 : Chan)].ctx heldDisordered.seqs[(0 : Chan)].record)).wf = true := by
  decide

theorem heldDisordered_answer : answersCanonical (exec (.snapshot 0 (byteOf 0)) heldDisordered) = false := by
  decide +kernel

/-- Refutes O25: the claim keeps a canonical memory from the memory with the frame alone written.  Where the memory before
the command is not canonical, writing the frame can put it in order, while the command, which writes the slot first, does
not. -/
theorem not_snapshotAndRelease : ¬ Obligations.SnapshotAndRelease := by
  intro h
  obtain ⟨t, ht, -, -, -, hHeld⟩ := h 0 0 (.snapshot 0 (byteOf 0)) ⟨0, .snapshot, byteOf 0, []⟩ heldDisordered _ (by decide)
    (.inl ⟨rfl, rfl⟩) rfl ⟨⟨rfl, rfl⟩, by decide, fun x hx => nomatch hx⟩
  obtain ⟨-, -, -, hMeasuring⟩ := hHeld (by decide)
  have hAnswer := heldDisordered_answer
  rw [ht] at hAnswer
  exact absurd (hMeasuring.canonical heldDisordered_frame) (by rw [show t.mem.wf = false from hAnswer]; decide)

/-! ### A regroup at an order's intake -/

/-- Slots and slot bytes written measure. -/
theorem Measuring.slotWritten {b u : State} (hFrame : u = { b with slots := u.slots, mem := u.mem })
    (hMem : ∀ a, ¬ inSlots a → u.mem.read a = b.mem.read a) (hCanonical : b.mem.wf = true → u.mem.wf = true) : Measuring b u where
  fixed := by
    have hFixed := congrArg State.fixed hFrame
    exact hFixed
  mode := by
    rw [hFrame]
  pending := fun _ h => by
    rw [hFrame]
    exact h
  done := fun _ h => by
    rw [hFrame]
    exact h
  calm := fun h => by
    rw [hFrame]
    exact ⟨rfl, h⟩
  memory := hMem
  canonical := hCanonical
  chan := fun c => by
    rw [hFrame]
    exact ChanStep.refl _ _ _

theorem takenIn_canonical (s : State) (o : Offer) (h : s.mem.wf = true) : (s.takenIn o).mem.wf = true := by
  rw [takenIn_mem]
  exact Memory.wf_writeBytes _ _ _ (Memory.wf_writeBytes _ _ _ (Memory.wf_write _ _ _ (Memory.wf_writeBytes _ _ _ h)))

/-- The part as an order's intake leaves it, against the part as the order was offered. -/
theorem Measuring.ofTakenIn {i : Instr} {o : Offer} (hOffer : offerOf i = some o) (s : State) :
    Measuring (afterOffer s o) (s.takenIn o) := by
  refine Measuring.slotWritten ?_ (fun a ha => takenIn_outside hOffer s ?_) (takenIn_canonical s o)
  · rw [takenIn_eq]
  · unfold inSlots at ha
    have hBounds := slotAddr_bounds o.slot
    omega

/-- What acts on the orders of the list leave of a slot that none of them stands in. -/
theorem slotAsTaken_acts {s u v : State} {o : Offer} (hActs : Acts (fun n => n ≠ o.slot) u v) (h : slotAsTaken s o u) :
    slotAsTaken s o v := fun k hk => by
  rw [hActs.left.memory _ fun n hn hByte => ?_, h k hk]
  have hFar := slotAddr_far hn hk
  unfold slotByteOf at hByte
  omega

theorem intake_acts {u v : State} {n : SlotId} (hActs : Acts (fun m => m ≠ n) u v) (h : ∀ x ∈ u.intake, x.slot ≠ n) :
    ∀ x ∈ v.intake, x.slot ≠ n := hActs.covers h

theorem regrouped_complete {s v : State} {n : SlotId} (h : regrouped s v) (hIntake : ∀ x ∈ v.intake, x.slot ≠ n) (final : SlotState)
    (reason : Byte) (kind : List Byte) : regrouped s (v.completeSlot n final reason kind) := by
  have hKept : v.intake.filter (fun o => o.slot ≠ n) = v.intake :=
    List.filter_eq_self.mpr fun x hx => decide_eq_true (hIntake x hx)
  rw [completeSlot_eq, hKept]
  exact h

/-- The group table after a completion is that before it. -/
theorem takenIn_sound {s : State} {o : Offer} (h : offerable s o) (hs : intakeSound s) : intakeSound (s.takenIn o) := by
  rw [takenIn_eq]
  refine ⟨hs.1, fun x hx => ?_⟩
  show (upd s.slots o.slot .taken)[x.slot] = .taken
  rw [upd_other _ _ _ _ (Ne.symm (h.2.2 x hx))]
  exact hs.2 x hx

/-- The state a regroup at an order's intake and the order's completion leave, from the state regrouped. -/
theorem exec_regroups {i : Instr} {o : Offer} {s u : State} {kind : List Byte} (hOffer : offerOf i = some o) (h : offerable s o)
    (hCarry : (s.takenIn o).carryOut o.slot = (u.regroup, .done kind)) (hIntake : u.intake = s.intake)
    (hGroups : u.groups = s.groups) (hSlots : u.slots = (s.takenIn o).slots) (hSlot : slotAsTaken s o u) :
    ∃ t : State, exec i s = .next t ∧ t = u.regroup.completeDone o.slot kind ∧ completedAtIntake s t o .done 0 kind
      ∧ (intakeSound s → regrouped s t) ∧ Measuring u t ∧ Left (fun _ => True) u t := by
  have hCovers : Covers (fun n => n ≠ o.slot) u := fun x hx => h.2.2 x (hIntake ▸ hx)
  have hActs : Acts (fun n => n ≠ o.slot) u u.regroup := Acts.regroup hCovers
  have hMeasuring := (Working.regroup u).measuring
  refine ⟨_, ?_, rfl, ?_, fun hs => ?_, hMeasuring.trans (Measuring.completeDone _ _ _), ?_⟩
  · rw [exec_offerable hOffer h, hCarry, conclude_done]
    rfl
  · exact completedAtIntake_completeSlot (slotAsTaken_acts hActs hSlot) _ _ _
  · have hSound : intakeSound u := by
      have hTaken := takenIn_sound h hs
      unfold intakeSound at hTaken ⊢
      rw [hIntake, hSlots]
      rw [takenIn_intake] at hTaken
      exact hTaken
    exact regrouped_complete (regroupFrom_regrouped hSound (fun l => by unfold injectorOf; rw [hGroups]) _ _)
      (intake_acts hActs fun x hx => hCovers x hx) _ _ _
  · have hAll : Acts (fun _ => True) u u.regroup := Acts.regroup fun _ _ => trivial
    exact hAll.left.trans (Left.completeSlot _ _ _ _ _ trivial)

/-! ### CLEAR_DISCONNECT (R143) -/

theorem carryOut_clear {n : SlotId} {c : Chan} {o : Offer} {s : State} (hMode : s.mode ≠ .safeStop)
    (hOffer : offerOf (.clearDisconnect n (byteOf c.val)) = some o) : (s.takenIn o).carryOut o.slot =
      (s.takenIn o).takeClear o.slot ∧ slotParam (s.takenIn o).mem o.slot 2 = byteOf c.val := by
  have hKind : o.kind = .clearDisconnect ∧ o.target = byteOf c.val := by
    cases hOffer
    exact ⟨rfl, rfl⟩
  refine ⟨?_, by rw [takenIn_target, hKind.2]⟩
  rw [carryOut_kind (by rw [takenIn_mode]; exact hMode) (takenIn_kind s o), hKind.1]
  rfl

/-- Settles O28: nothing for a channel that is connected; else the flag cleared and the regroup that follows. -/
theorem clearDisconnectEndsDisconnect : Obligations.ClearDisconnectEndsDisconnect := by
  intro n c o s hMode hOffer h
  obtain rfl : n = o.slot := by
    cases hOffer
    rfl
  obtain ⟨hCarry, hTarget⟩ := carryOut_clear hMode hOffer
  have hSafety : (s.takenIn o).safety = s.safety := takenIn_safety s o
  have hLines : (s.takenIn o).lines = s.lines := takenIn_lines s o
  rw [takeClear_named hTarget, hSafety] at hCarry
  by_cases hConnected : s.safety[c].disconnected = false
  · rw [if_pos hConnected] at hCarry
    refine ⟨_, exec_offerable hOffer h, fun _ => ?_, fun hNot => ?_⟩
    · have hKind : clearResult (s.takenIn o) false false = [0, 0, s.lines.setWidth 8] := by
        unfold clearResult lineByte
        rw [hLines]
        rfl
      rw [hCarry, conclude_done, hKind]
      exact ⟨completedAtIntake_completeSlot (slotAsTaken_takenIn s o) _ _ _, onlySlot_takenIn hOffer h _ _ _⟩
    · rw [hConnected] at hNot
      exact nomatch hNot
  · rw [if_neg hConnected] at hCarry
    by_cases hActive : lineAsserted s c = true
    · refine ⟨_, exec_offerable hOffer h, fun hNot => absurd hNot hConnected, fun _ hQuiet => ?_⟩
      obtain ⟨i, hi, hBoth⟩ := (lineAsserted_iff s c).mp hActive
      exact absurd hBoth (hQuiet i hi)
    · have hQuiet : lineAsserted (s.takenIn o) c = false := by
        unfold lineAsserted at hActive ⊢
        rw [hSafety, hLines]
        exact eq_false_of_ne_true hActive
      rw [hQuiet, if_neg Bool.false_ne_true] at hCarry
      obtain ⟨u, hu⟩ : ∃ u, u = (s.takenIn o).clearDisconnect c := ⟨_, rfl⟩
      rw [← hu] at hCarry
      have hMemU : u.mem = (s.takenIn o).mem := by rw [hu, State.clearDisconnect_mem]
      have hSlotsU : u.slots = (s.takenIn o).slots := by rw [hu, State.clearDisconnect_slots]
      have hSlotU : slotAsTaken s o u := fun k _ => by rw [hMemU]
      have hRegroup := (Working.regroup u).measuring
      have hKind : clearResult u.regroup true false = [1, 0, s.lines.setWidth 8] := by
        unfold clearResult lineByte
        rw [hRegroup.lines_eq, hu]
        exact congrArg (fun x : BitVec 4 => [1, 0, x.setWidth 8]) hLines
      rw [hKind] at hCarry
      obtain ⟨t, ht, -, hDone, hRegrouped, hMeasuring, hLeft⟩ := exec_regroups hOffer h hCarry (by rw [hu]; exact takenIn_intake s o)
        (by rw [hu]; exact takenIn_groups s o) hSlotsU hSlotU
      refine ⟨t, ht, fun hNot => absurd hNot hConnected, fun _ _ => ⟨hDone, ?_, hRegrouped, fun hLevel => ?_, ?_⟩⟩
      · rw [(hMeasuring.chan c).disconnected, hu]
        unfold State.clearDisconnect State.setSafety
        dsimp only
        rw [upd_same]
      · have hSame : has8 t.attn.pending 6 = has8 u.attn.pending 6 := hLeft.level 6 (by decide) (by decide)
        rw [hSame, hu, takenIn_eq] at hLevel
        exact hLevel
      · refine Measuring.trans (Measuring.slotWritten ?_ (fun a ha => ?_) fun hWf => ?_) hMeasuring
        · rw [hu]
          unfold State.clearDisconnect State.setSafety
          rw [hSafety, takenIn_eq]
        · rw [hMemU]
          exact (Measuring.ofTakenIn hOffer s).memory a ha
        · rw [hMemU]
          exact takenIn_canonical s o hWf

end Sys2Proof.Machine
end

section
/-! PROOFS. YIELD and RESUME (R17, R18, R19). -/

namespace Sys2Proof.Machine

theorem leaderOf_congr {s t : State} (h : t.groups = s.groups) (n : NodeId) : leaderOf t n = leaderOf s n := by
  unfold leaderOf
  rw [h]

/-- The group of a leader is PASSIVE exactly where a member's flag stands (R13). -/
theorem groupState_passive {s : State} {l : GroupId} {g : Group} (hg : s.groups[l] = some g) :
    groupState s l = .passive ↔ membersOf s l &&& s.yields ≠ 0 := by
  have hMembers : membersOf s l = g.members := by
    unfold membersOf
    rw [hg]
  have hState : groupState s l = groupStateOf s l g := by
    unfold groupState
    rw [hg]
  have hFlag : groupPassive s g = decide (membersOf s l &&& s.yields ≠ 0) := by rw [hMembers]; rfl
  rw [hState]
  unfold groupStateOf
  rw [hFlag]
  by_cases hPassive : membersOf s l &&& s.yields ≠ 0
  · rw [if_pos (decide_eq_true hPassive)]
    exact ⟨fun _ => hPassive, fun _ => rfl⟩
  · rw [if_neg (by rw [decide_eq_false hPassive]; decide)]
    refine ⟨fun h => ?_, fun h => absurd h hPassive⟩
    split_ifs at h
    cases hMode : s.mode <;> cases hSeries : g.series <;> rw [hMode, hSeries] at h <;> exact nomatch h

theorem passive_uninjected {s : State} {l : GroupId} (h : injectorsEligible s) (hPassive : membersOf s l &&& s.yields ≠ 0) :
    injectorOf s l = none := by
  cases hInject : injectorOf s l with
  | none => rfl
  | some c =>
    obtain ⟨-, -, -, -, -, hActive⟩ := h l c hInject
    exact absurd hActive hPassive

theorem flagged_passive {s : State} {l : GroupId} {g : Group} (hg : s.groups[l] = some g) {node : NodeId}
    (hMember : has8 g.members node.val = true) (hFlag : has8 s.yields node.val = true) : membersOf s l &&& s.yields ≠ 0 := by
  intro hZero
  have hMembers : membersOf s l = g.members := by
    unfold membersOf
    rw [hg]
  have hBoth : has8 (membersOf s l &&& s.yields) node.val = true := by rw [has8_and, hMembers, hMember, hFlag]; rfl
  rw [hZero] at hBoth
  exact absurd ((has8_zero _).symm.trans hBoth) (by decide)

/-- The part with a node's yield flag set or cleared, before the regroup (R17, R18). -/
def State.flagged (s : State) (node : NodeId) (flag : Bool) : State := { s with
  yields := if flag then s.yields ||| bit8 node.val else s.yields &&& ~~~bit8 node.val
  mem := s.mem.write (recordAddr node + 0x1C) (flagByte flag) }

theorem setYield_eq (s : State) (node : NodeId) (flag : Bool) : s.setYield node flag = (s.flagged node flag).regroup := rfl

theorem flagged_yields (s : State) (node : NodeId) (flag : Bool) (m : NodeId) :
    has8 (s.flagged node flag).yields m.val = if m = node then flag else has8 s.yields m.val := by
  have hSame : node.val = m.val ↔ m = node := ⟨fun h => Fin.ext h.symm, fun h => congrArg Fin.val h.symm⟩
  unfold State.flagged
  cases flag with
  | true =>
    show has8 (s.yields ||| bit8 node.val) m.val = _
    rw [has8_add _ _ _ node.isLt m.isLt]
    by_cases hm : m = node
    · rw [if_pos hm, decide_eq_true (hSame.mpr hm), Bool.or_true]
    · rw [if_neg hm, decide_eq_false (fun h => hm (hSame.mp h)), Bool.or_false]
  | false =>
    show has8 (s.yields &&& ~~~bit8 node.val) m.val = _
    rw [has8_remove _ _ _ node.isLt m.isLt]
    by_cases hm : m = node
    · rw [if_pos hm, decide_eq_true (hSame.mpr hm), Bool.not_true, Bool.and_false]
    · rw [if_neg hm, decide_eq_false (fun h => hm (hSame.mp h)), Bool.not_false, Bool.and_true]

theorem flagged_kept (s : State) (node : NodeId) (flag : Bool) : (s.flagged node flag).groups = s.groups
    ∧ (s.flagged node flag).intake = s.intake ∧ (s.flagged node flag).slots = s.slots
    ∧ (s.flagged node flag).mem = s.mem.write (recordAddr node + 0x1C) (flagByte flag) := ⟨rfl, rfl, rfl, rfl⟩

theorem carryOut_yield {n : SlotId} {node : NodeId} {flag : Bool} {i : Instr} {o : Offer} {s : State} (hMode : s.mode ≠ .safeStop)
    (hInstr : i = (if flag then .yieldNode n (byteOf node.val) else .resumeNode n (byteOf node.val))) (hOffer : offerOf i = some o) :
    (s.takenIn o).carryOut o.slot = (((s.takenIn o).flagged node flag).regroup,
      .done [flagByte (has8 s.yields node.val), byteOf (leaderOf ((s.takenIn o).flagged node flag).regroup node).val]) := by
  have hOrder : o.kind = (if flag then .yieldNode else .resumeNode) ∧ o.target = byteOf node.val := by
    cases flag <;> (subst hInstr; cases hOffer; exact ⟨rfl, rfl⟩)
  have hTarget : slotParam (s.takenIn o).mem o.slot 2 = byteOf node.val := by rw [takenIn_target, hOrder.2]
  have hKind : (s.takenIn o).carryKind o.slot o.kind = (s.takenIn o).takeYield o.slot flag := by
    rw [hOrder.1]
    cases flag <;> rfl
  rw [carryOut_kind (by rw [takenIn_mode]; exact hMode) (takenIn_kind s o), hKind, takeYield_named hTarget, setYield_eq,
    takenIn_yields]

/-- Settles O24: the flag and its byte, and the regroup they bring. -/
theorem yieldAndResumeFlagTheNode : Obligations.YieldAndResumeFlagTheNode := by
  intro n node flag i o s hSafe hMode hInstr hOffer h
  have hCarry := carryOut_yield hMode hInstr hOffer
  obtain ⟨u, hu⟩ : ∃ u, u = (s.takenIn o).flagged node flag := ⟨_, rfl⟩
  rw [← hu] at hCarry
  obtain ⟨hGroupsU, hIntakeU, hSlotsU, hMemU⟩ := flagged_kept (s.takenIn o) node flag
  rw [← hu] at hGroupsU hIntakeU hSlotsU hMemU
  rw [takenIn_groups] at hGroupsU
  rw [takenIn_intake] at hIntakeU
  have hYieldsU (m : NodeId) : has8 u.yields m.val = if m = node then flag else has8 s.yields m.val := by
    rw [hu, flagged_yields, takenIn_yields]
  have hRecord : recordAddr node + 0x1C < 0x500 ∨ 0x700 ≤ recordAddr node + 0x1C := by
    unfold recordAddr
    omega
  have hSlotU : slotAsTaken s o u := fun k hk => by
    rw [hMemU, Memory.read_write_other]
    have hBounds := slotAddr_bounds o.slot
    omega
  obtain ⟨t, ht, hState, hDone, hRegrouped, hMeasuring, -⟩ := exec_regroups hOffer h hCarry hIntakeU hGroupsU hSlotsU hSlotU
  have hAfter := hRegrouped hSafe.sound.intake
  have hLeader : leaderOf u.regroup node = leaderOf t node := by
    rw [hState]
    exact (leaderOf_congr (completeSlot_groups _ _ _ _ _) node).symm
  obtain ⟨hTable, hInjectors, -, -⟩ := hAfter
  have hYields : t.yields = u.yields := hMeasuring.yields_eq
  refine ⟨t, ht, ?_⟩
  generalize hl : leaderOf t node = l at hLeader ⊢
  obtain ⟨g, hg, hMember⟩ := leaderOf_leads hTable hl
  have hWritten : u.mem.read (recordAddr node + 0x1C) = (if flag then 1 else 0) := by
    rw [hMemU, Memory.read_write_same]
    rfl
  refine ⟨fun m => by rw [hYields, hYieldsU], ?_, ?_, fun hFlag => ?_, fun _ => groupState_passive hg, hRegrouped hSafe.sound.intake, ?_⟩
  · rw [hMeasuring.memory _ (by unfold inSlots; omega), hWritten]
  · rw [hLeader] at hDone
    exact hDone
  · have hPassive : membersOf t l &&& t.yields ≠ 0 := by
      refine flagged_passive hg hMember ?_
      rw [hYields, hYieldsU, if_pos rfl]
      exact hFlag
    exact ⟨(groupState_passive hg).mpr hPassive, passive_uninjected hInjectors hPassive⟩
  · refine Measuring.trans (Measuring.slotWritten ?_ (fun a ha => ?_) fun _ => ?_) hMeasuring
    · rw [hYields, hu, takenIn_eq]
      rfl
    · rw [hMemU, Memory.read_write, Memory.read_write, (Measuring.ofTakenIn hOffer s).memory a ha]
      rfl
    · rw [hMemU]
      exact Memory.wf_write _ _ _ (takenIn_canonical s o hSafe.1)

end Sys2Proof.Machine
end

section
/-! PROOFS. The evaluation of a self-check (R146, R148). -/

namespace Sys2Proof.Machine

/-- What an evaluation tells before it completes the order: the channel's health, with news and level 6 where it changed. -/
def State.checkTold (s : State) (c : Chan) (after : Health) : State :=
  if s.safety[c].health = after then s.setSafety c { s.safety[c] with health := after }
  else ((s.setSafety c { s.safety[c] with health := after }).newsChanSafety c.val).raise 6

theorem checkTold_eq (s : State) (c : Chan) (after : Health) : s.checkTold c after = { s with
    safety := upd s.safety c { s.safety[c] with health := after }
    news := { s.news with chanSafety := s.news.chanSafety ||| (if after = s.safety[c].health then 0 else bit8 c.val) }
    attn := if after = s.safety[c].health then s.attn else s.attn.raise 6 } := by
  unfold State.checkTold
  by_cases hSame : s.safety[c].health = after
  · have hZero : s.news.chanSafety ||| (0 : Byte) = s.news.chanSafety := BitVec.or_zero
    rw [if_pos hSame, if_pos hSame.symm, if_pos hSame.symm, hZero]
    rfl
  · rw [if_neg hSame, if_neg (Ne.symm hSame), if_neg (Ne.symm hSame)]
    rfl

theorem checkPassed_iff (r : Result) : checkPassed r = true ↔ r.valid = true ∧ ∃ v : Nat, r.rf = some v ∧ 950 ≤ v ∧ v ≤ 1050 := by
  unfold checkPassed
  cases hValid : r.valid with
  | false => simp
  | true =>
    cases hRf : r.rf with
    | none => simp
    | some v =>
      dsimp only
      rw [Bool.and_eq_true, decide_eq_true_iff, decide_eq_true_iff]
      exact ⟨fun ⟨h1, h2⟩ => ⟨rfl, v, rfl, h1, h2⟩, fun ⟨_, _, hv, h1, h2⟩ => Option.some.inj hv ▸ ⟨h1, h2⟩⟩

theorem healthAfter_eq {h : Health} (hServes : h ≠ .offline) (passed : Bool) :
    healthAfter h passed = (if passed then .good else if h = .good then .suspect else .offline) := by
  cases h with
  | offline => exact absurd rfl hServes
  | good => cases passed <;> rfl
  | suspect => cases passed <;> rfl

/-- The evaluation of the check of a FINISHING order. -/
theorem evaluateCheck_eq {s : State} {r : Result} {n : SlotId} {l : GroupId} {k : Nat}
    (hIntake : s.intake = [⟨n, .selfcheck r.chan, .finishing, l, k⟩]) (hSlot : r.slot = some n) : s.evaluateCheck r =
      ((s.checkTold r.chan (healthAfter s.safety[r.chan].health (checkPassed r))).completeDone n
        (selfcheckResult (if checkPassed r then 1 else 2) (r.rf.getD 0) r.conds s.safety[r.chan].health
          (healthAfter s.safety[r.chan].health (checkPassed r)))).regroup := by
  have hWaits : (s.checkTold r.chan (healthAfter s.safety[r.chan].health (checkPassed r))).intake.any
      (fun o => decide (o.slot = n) && decide (o.phase = OrderPhase.finishing)) = true := by
    rw [checkTold_eq, hIntake]
    simp
  unfold State.evaluateCheck
  dsimp only
  rw [hSlot]
  exact congrArg State.regroup (if_pos hWaits)

/-- Settles O48: the outcome told and the slot completed, then the regroup that reselects. -/
theorem selfcheckEvaluated : Obligations.SelfcheckEvaluated := by
  intro s x n l k r before after passed hBusy hResult hSource hSlot hIntake hBefore hServes hPassed hAfter
  have hChan : x.chan = r.chan := by rw [hResult]; rfl
  have hSlotR : r.slot = some n := by rw [hResult]; exact hSlot
  have hSourceR : r.source = .selfcheck := by rw [hResult]; exact hSource
  have hCheck : checkPassed r = passed := by
    rw [Bool.eq_iff_iff, checkPassed_iff, hPassed]
  have hHealth : healthAfter before (checkPassed r) = after := by rw [healthAfter_eq hServes, hCheck, hAfter]
  obtain ⟨a, ha⟩ : ∃ a : State, a = { s with computing := none } := ⟨_, rfl⟩
  have hIntakeA : a.intake = [⟨n, .selfcheck r.chan, .finishing, l, k⟩] := by rw [ha, hResult]; exact hIntake
  have hBeforeA : a.safety[r.chan].health = before := by
    rw [ha, hResult]
    exact hBefore
  have hExec := exec_computationComplete_of_computing hBusy
  rw [← ha, ← hResult] at hExec
  have hHand : a.handResult r = a.evaluateCheck r := if_pos hSourceR
  rw [hHand, evaluateCheck_eq hIntakeA hSlotR, hBeforeA, hHealth, hCheck] at hExec
  obtain ⟨kind, hKind⟩ : ∃ kind, kind = selfcheckResult (if passed then 1 else 2) (r.rf.getD 0) r.conds before after := ⟨_, rfl⟩
  rw [← hKind] at hExec
  obtain ⟨w, hw⟩ : ∃ w, w = a.checkTold r.chan after := ⟨_, rfl⟩
  have hTold := checkTold_eq a r.chan after
  rw [← hw, hBeforeA] at hTold
  rw [← hw] at hExec
  obtain ⟨u, hu⟩ : ∃ u, u = w.completeDone n kind := ⟨_, rfl⟩
  have hDone : u = { w with
      mem := completedMemory w.mem n .done 0 kind, slots := upd w.slots n .done, intake := []
      news := { w.news with done := w.news.done ||| bit8 n.val }, attn := w.attn.raise 4 } := by
    have hNone : w.intake.filter (fun o => o.slot ≠ n) = [] := by
      rw [hTold, hIntakeA]
      simp
    rw [hu]
    unfold State.completeDone
    rw [completeSlot_eq, hNone]
  rw [← hu] at hExec
  have hSound : intakeSound u := by
    rw [hDone]
    exact ⟨.nil, fun x hx => nomatch hx⟩
  have hCovers : Covers (fun _ => False) u := fun x hx => by
    rw [hDone] at hx
    exact nomatch hx
  have hLeft := (Acts.regroup hCovers).left
  have hMeasuring := (Working.regroup u).measuring
  have hRegrouped := regroupFrom_regrouped (s := s) (u := u) hSound (fun m => by
    rw [hDone, hTold, ha]
    rfl) (runningCount u) false
  have hRegroup : u.regroup = u.regroupFrom (runningCount u) false := rfl
  rw [← hRegroup] at hRegrouped
  generalize u.regroup = v at hExec hLeft hMeasuring hRegrouped
  clear hRegroup
  have hIdleV : v.computing = none := by rw [hMeasuring.computing_eq, hDone, hTold, ha]
  rw [takeUp_of_idle hIdleV] at hExec
  have hNoOrder : v.intake = [] := List.eq_nil_iff_forall_not_mem.mpr fun o ho => by
    obtain ⟨o', ho', -⟩ := hLeft.orders o ho
    rw [hDone] at ho'
    exact nomatch ho'
  have hMem (b : Nat) : v.mem.read b = (completedMemory w.mem n .done 0 kind).read b := by
    rw [hLeft.memory b fun _ h => h.elim, hDone]
  have hNews : v.news.chanSafety = w.news.chanSafety := by
    have hSame := congrArg (fun z : State => z.news.chanSafety) hMeasuring.fixed
    rw [hDone] at hSame
    exact hSame
  have hTriples : v.triples = s.triples := by rw [hMeasuring.triples_eq, hDone, hTold, ha]
  obtain ⟨hTable, hInjectors, -, hReselects⟩ := hRegrouped
  refine ⟨_, hExec, ?_, fun c hc => ?_, ?_, ?_, hNoOrder, ?_, ?_, ?_, ?_, fun j hj => ?_, ?_, ?_, ?_, ?_, ?_, ?_, hTable, hInjectors,
    fun m g hg hNone => hReselects m g hg hNone fun o ho => by
      rw [hNoOrder] at ho
      exact nomatch ho⟩
  · have hAt : v.safety[r.chan].health = after := by
      rw [(hMeasuring.chan r.chan).health, hDone, hTold]
      dsimp only
      rw [upd_same]
    rw [hResult] at hAt
    exact hAt
  · show v.safety[c].health = _
    rw [(hMeasuring.chan c).health, hDone, hTold]
    dsimp only
    rw [upd_other _ _ _ _ (by rw [← hChan]; exact Ne.symm hc), ha]
  · show v.news.chanSafety = _
    rw [hNews, hTold, ha, hChan]
  · show has8 v.attn.pending 6 = true ↔ _
    have hLevel : has8 v.attn.pending 6 = has8 u.attn.pending 6 := hLeft.level 6 (by decide) (by decide)
    rw [hLevel, hDone]
    show has8 (w.attn.pending ||| bit8 4) 6 = true ↔ _
    rw [has8_add _ _ _ (by decide) (by decide), hTold, ha]
    by_cases hSame : after = before
    · simp [hSame]
    · simp only [if_neg hSame]
      show (has8 (s.attn.pending ||| bit8 6) 6 || decide (4 = 6)) = true ↔ _
      rw [has8_add _ _ _ (by decide) (by decide)]
      simp [hSame]
  · show v.slots[n] = .done
    rw [hLeft.slots n fun h => h, hDone]
    exact upd_same _ _ _
  · exact (hMem _).trans (completedMemory_state _ _ _ _ _)
  · exact (hMem _).trans (completedMemory_progress _ _ _ _ _)
  · exact (hMem _).trans (completedMemory_reason _ _ _ _ _)
  · refine (hMem _).trans ((completedMemory_kind _ _ _ _ _ hj).trans ?_)
    rw [hKind]
    cases passed <;> rfl
  · refine hLeft.news n.val ?_
    rw [hDone]
    show has8 (w.news.done ||| bit8 n.val) n.val = true
    rw [has8_add _ _ _ n.isLt n.isLt]
    simp
  · refine hLeft.pending 4 ?_
    rw [hDone]
    show has8 (w.attn.pending ||| bit8 4) 4 = true
    rw [has8_add _ _ _ (by decide) (by decide)]
    simp
  · show v.results = s.results
    rw [hMeasuring.results_eq, hDone, hTold, ha]
  · show v.triples.head? = _
    rw [hTriples]
  · show v.triples.tail = _
    rw [hTriples]
  · show v.nodes = s.nodes
    rw [hMeasuring.nodes_eq, hDone, hTold, ha]

end Sys2Proof.Machine
end

section
/-! PROOFS. A channel that injects nowhere starts no measurement, so a result that holds its channel ends its measuring. -/

namespace Sys2Proof.Machine

/-! ### No run started on a channel -/

/-- The channel drives a SERIES or TRIPLE run. -/
def measures (s : State) (c : Chan) : Prop := s.seqs[c].run = .series ∨ s.seqs[c].run = .triple

/-- The operation starts no SERIES or TRIPLE run on the channel. -/
def Unstarted (c : Chan) (s t : State) : Prop := measures t c → measures s c

theorem Unstarted.refl (c : Chan) (s : State) : Unstarted c s s := id

theorem Unstarted.trans {c : Chan} {s t u : State} (h : Unstarted c s t) (k : Unstarted c t u) : Unstarted c s u := h ∘ k

theorem Unstarted.of_seqs {c : Chan} {s t : State} (h : t.seqs = s.seqs) : Unstarted c s t := fun ht => by
  unfold measures at ht ⊢
  rw [h] at ht
  exact ht

theorem Unstarted.forEach {α : Type} {c : Chan} (as : List α) (f : α → State → State) (s : State)
    (h : ∀ a ∈ as, ∀ t, Unstarted c t (f a t)) : Unstarted c s (Machine.forEach as f s) :=
  forEach_keeps (P := Unstarted c s) f as s (Unstarted.refl c s) fun a ha t ht => ht.trans (h a ha t)

theorem Unstarted.setSeq {c d : Chan} {s : State} {q : Seq}
    (h : d = c → q.run = s.seqs[c].run ∨ q.run = .none ∨ q.run = .selfcheck) : Unstarted c s (s.setSeq d q) := by
  intro ht
  by_cases hd : d = c
  · subst hd
    have hAt : (s.setSeq d q).seqs[d] = q := upd_same _ _ _
    unfold measures at ht ⊢
    rw [hAt] at ht
    rcases h rfl with hSame | hNone | hCheck
    · rw [← hSame]
      exact ht
    · rw [hNone] at ht
      exact ht.elim (fun e => nomatch e) fun e => nomatch e
    · rw [hCheck] at ht
      exact ht.elim (fun e => nomatch e) fun e => nomatch e
  · have hAt : (s.setSeq d q).seqs[c] = s.seqs[c] := upd_other _ _ _ _ hd
    unfold measures at ht ⊢
    rw [hAt] at ht
    exact ht

theorem Unstarted.abandonRun (c : Chan) (s : State) (d : Chan) : Unstarted c s (s.abandonRun d) := by
  unfold State.abandonRun
  dsimp only
  split
  · exact Unstarted.setSeq fun _ => .inr (.inl rfl)
  · exact Unstarted.refl c s

theorem Unstarted.detach (c : Chan) (s : State) (d : Chan) : Unstarted c s (s.detach d) := by
  unfold State.detach
  dsimp only
  split
  · refine (Unstarted.abandonRun c s d).trans (Unstarted.trans (Unstarted.setSeq fun hd => .inl ?_) (Unstarted.of_seqs rfl))
    subst hd
    rfl
  · exact Unstarted.refl c s

theorem Unstarted.stopChannel (c : Chan) (s : State) (d : Chan) : Unstarted c s (s.stopChannel d) :=
  (Unstarted.abandonRun c s d).trans (Unstarted.detach c _ d)

theorem Unstarted.stopInjector (c : Chan) (s : State) (l : GroupId) : Unstarted c s (s.stopInjector l) := by
  unfold State.stopInjector
  split
  · exact Unstarted.stopChannel c s _
  · exact Unstarted.refl c s

theorem Unstarted.dropRun (c : Chan) (s : State) (d : Chan) : Unstarted c s (s.dropRun d) :=
  Unstarted.trans (t := s.setSeq d s.seqs[d].endRun) (Unstarted.setSeq fun _ => .inr (.inl rfl)) (Unstarted.of_seqs rfl)

theorem Unstarted.tryReference (c : Chan) (s : State) (d : Chan) : Unstarted c s (s.tryReference d) := by
  unfold State.tryReference
  dsimp only
  split
  · refine Unstarted.trans (t := s.setSeq d (s.seqs[d].beginHalf .pos)) (Unstarted.setSeq fun hd => .inl ?_) (Unstarted.of_seqs rfl)
    subst hd
    rfl
  · exact Unstarted.refl c s

theorem Unstarted.modGroup (c : Chan) (s : State) (l : GroupId) (f : Group → Group) : Unstarted c s (s.modGroup l f) :=
  Unstarted.of_seqs (modGroup_intake s l f).2.2.1

theorem Unstarted.completeSlot (c : Chan) (s : State) (n : SlotId) (final : SlotState) (reason : Byte) (kind : List Byte) :
    Unstarted c s (s.completeSlot n final reason kind) := Unstarted.of_seqs (completeSlot_seqs _ _ _ _ _)

/-- A run started on another channel. -/
theorem Unstarted.startRun {c d : Chan} (h : d ≠ c) (s : State) (kind : RunKind) (owner : Option SlotId) (copy : RunCopy) :
    Unstarted c s (s.startRun d kind owner copy) := by
  unfold State.startRun
  dsimp only
  have hClear : Unstarted c s (if s.seqs[d].run = .none then s else s.dropRun d) := by
    split
    · exact Unstarted.refl c s
    · exact Unstarted.dropRun c s d
  generalize (if s.seqs[d].run = .none then s else s.dropRun d) = t at hClear ⊢
  have hSet (u : State) (q : Seq) : Unstarted c u (u.setSeq d q) := Unstarted.setSeq fun hd => absurd hd h
  split
  · exact hClear.trans (hSet t _)
  · refine hClear.trans ((hSet t (t.seqs[d].setUp kind owner copy)).trans ?_)
    generalize t.setSeq d (t.seqs[d].setUp kind owner copy) = u
    unfold State.tryAttach
    dsimp only
    split
    · exact hSet u _
    · exact Unstarted.refl c u

theorem Unstarted.spotAbandoned (c : Chan) (s : State) (o : Order) : Unstarted c s (s.spotAbandoned o) := by
  have hSeries : Unstarted c s (((s.poke (slotAddr o.slot + 0x14) (byteOf (o.abandons + 1))).modOrder o.slot
      fun x => { x with abandons := o.abandons + 1 }).setSeries o.group .none) :=
    Unstarted.trans (t := (s.poke (slotAddr o.slot + 0x14) (byteOf (o.abandons + 1))).modOrder o.slot
      fun x => { x with abandons := o.abandons + 1 }) (Unstarted.of_seqs rfl) (Unstarted.modGroup c _ _ _)
  unfold State.spotAbandoned
  dsimp only
  split
  · exact hSeries.trans (Unstarted.of_seqs rfl)
  · exact hSeries.trans (Unstarted.completeSlot c _ _ _ _ _)

theorem Unstarted.abandonOwn (c : Chan) (s : State) (l : GroupId) : Unstarted c s (s.abandonOwn l) := by
  have hOver : Unstarted c s ((s.stopInjector l).seriesOver l) :=
    (Unstarted.stopInjector c s l).trans (Unstarted.modGroup c _ _ _)
  unfold State.abandonOwn
  split
  · exact Unstarted.refl c s
  · split
    · exact hOver
    · exact hOver
    · exact hOver.trans (Unstarted.of_seqs rfl)
    · exact Unstarted.refl c s
    · exact Unstarted.refl c s

theorem Unstarted.abandonGroup (c : Chan) (s : State) (l : GroupId) : Unstarted c s (s.abandonGroup l) := by
  unfold State.abandonGroup
  dsimp only
  split
  · exact (Unstarted.abandonOwn c s l).trans ((Unstarted.stopInjector c _ l).trans (Unstarted.spotAbandoned c _ _))
  · exact Unstarted.abandonOwn c s l

theorem Unstarted.startSettle (c : Chan) (s : State) (l : GroupId) : Unstarted c s (s.startSettle l) := by
  unfold State.startSettle
  split
  · exact Unstarted.modGroup c s l _
  · split <;> exact Unstarted.modGroup c s l _

theorem Unstarted.evaluateGroup (c : Chan) (s : State) (formed : Bool) (l : GroupId) : Unstarted c s (s.evaluateGroup formed l) := by
  have hAfter (t : State) (changed : Bool) : Unstarted c t (t.settleAfter l formed changed) := by
    unfold State.settleAfter
    split
    · exact Unstarted.refl c t
    · split
      · exact Unstarted.modGroup c t l _
      · split
        · exact (Unstarted.abandonOwn c t l).trans (Unstarted.startSettle c _ l)
        · split
          · exact Unstarted.startSettle c t l
          · exact Unstarted.refl c t
  unfold State.evaluateGroup
  split
  · exact Unstarted.refl c s
  · dsimp only
    refine Unstarted.trans ?_ ((Unstarted.modGroup c _ l _).trans (hAfter _ _))
    split
    · exact Unstarted.abandonGroup c s l
    · exact Unstarted.refl c s

theorem Unstarted.regroupCore (c : Chan) (s : State) (fresh : Bool) : Unstarted c s (s.regroupCore fresh) := by
  unfold State.regroupCore
  dsimp only
  generalize keepsGroup fresh (partition s.links) s.groups = keeps
  have hForm : Unstarted c s (s.formGroups fresh) :=
    Unstarted.trans (Unstarted.forEach _ (fun l t => t.abandonGroup l) s fun l _ t => Unstarted.abandonGroup c t l) (Unstarted.of_seqs rfl)
  have hInFlight (t : State) : Unstarted c t t.placeInFlight := Unstarted.forEach _ _ _ fun o _ u => by
    split
    · exact Unstarted.refl c u
    · exact Unstarted.of_seqs rfl
  have hInherit (t : State) (l : GroupId) : Unstarted c t (t.inheritCheck l) := by
    unfold State.inheritCheck
    split
    · exact Unstarted.modGroup c t l _
    · exact Unstarted.refl c t
  have hOthers (t : State) : Unstarted c t t.detachOthers := Unstarted.forEach _ _ _ fun d _ u => by
    split
    · exact Unstarted.detach c u d
    · exact Unstarted.refl c u
  have hWaiting (t : State) : Unstarted c t t.placeWaiting := Unstarted.forEach _ _ _ fun o _ u => by
    split
    · split
      · exact Unstarted.of_seqs rfl
      · split
        · exact Unstarted.of_seqs rfl
        · exact Unstarted.completeSlot c _ _ _ _ _
    · exact Unstarted.refl c u
  have hEvaluate (t : State) : Unstarted c t (t.evaluateAll keeps) :=
    ((hInFlight t).trans (Unstarted.forEach _ _ _ fun l _ u => hInherit u l)).trans
      ((Unstarted.forEach _ _ _ fun l _ u => Unstarted.evaluateGroup c u _ l).trans (hOthers _))
  have hReorder (t : State) : Unstarted c t (t.reorderRotation keeps) := by
    unfold State.reorderRotation
    split
    · exact Unstarted.of_seqs rfl
    · exact Unstarted.refl c t
  have hNotice (t : State) : Unstarted c t (t.noticeTable fresh s.groups) := by
    unfold State.noticeTable
    split
    · exact Unstarted.of_seqs rfl
    · exact Unstarted.refl c t
  exact (((hForm.trans (hEvaluate _)).trans (hReorder _)).trans (hNotice _)).trans (hWaiting _)

/-! ### The scheduler passes by a channel that may not inject -/

/-- In a sound state, a channel that is held or disconnected, and so injects in no group (R8). -/
structure Barred (c : Chan) (s : State) : Prop where
  sound : Sound s
  barrier : s.seqs[c].ctx = .held ∨ s.safety[c].disconnected = true

theorem Barred.uninjected {c : Chan} {s : State} (h : Barred c s) (l : GroupId) (d : Chan) (hInject : injectorOf s l = some d) :
    d ≠ c := by
  rintro rfl
  obtain ⟨-, -, hConnected, -, hFree, -⟩ := h.sound.injectors l d hInject
  rcases h.barrier with hHeld | hDisconnected
  · exact hFree hHeld
  · exact nomatch hConnected.symm.trans hDisconnected

theorem barrier_measuring {c : Chan} {s t : State} (m : Measuring s t)
    (h : s.seqs[c].ctx = .held ∨ s.safety[c].disconnected = true) : t.seqs[c].ctx = .held ∨ t.safety[c].disconnected = true := by
  rcases h with hHeld | hDisconnected
  · refine .inl ?_
    rcases (m.chan c).ctx with hSame | ⟨hNone, -⟩
    · exact hSame.trans hHeld
    · exact nomatch hNone.symm.trans hHeld
  · exact .inr ((m.chan c).disconnected.trans hDisconnected)

theorem Barred.working {c : Chan} {s t : State} (h : Barred c s) (w : Working s t) : Barred c t :=
  ⟨w.sound h.sound, barrier_measuring w.measuring h.barrier⟩

theorem Unstarted.detachInjector (c : Chan) (s : State) (l : GroupId) : Unstarted c s (s.detachInjector l) := by
  unfold State.detachInjector
  split
  · split
    · exact Unstarted.detach c s _
    · exact Unstarted.refl c s
  · exact Unstarted.refl c s

theorem Unstarted.refuseDispatch (c : Chan) (s : State) (o : Order) (why : Reason) : Unstarted c s (s.refuseDispatch o why) :=
  ((Unstarted.completeSlot c s _ _ _ _).trans (Unstarted.modGroup c _ _ _)).trans (Unstarted.detachInjector c _ _)

theorem Unstarted.startSpot {c : Chan} {s : State} (o : Order) (hFree : ∀ (l : GroupId) (d : Chan), injectorOf s l = some d → d ≠ c)
    (plan : PlanId) : Unstarted c s (s.startSpot o plan) := by
  unfold State.startSpot
  split
  · next g hg =>
    split
    · next d hd =>
      exact (Unstarted.trans (t := s.setPhase o.slot .running) (Unstarted.of_seqs rfl) (Unstarted.modGroup c _ _ _)).trans
        (Unstarted.startRun (hFree o.group d ((injectorOf_some hg).trans hd)) _ _ _ _)
    · exact Unstarted.refuseDispatch c s o _
  · exact Unstarted.refuseDispatch c s o _

theorem Unstarted.startCheck (c : Chan) (s : State) (o : Order) (d : Chan) : Unstarted c s (s.startCheck o d) := by
  unfold State.startCheck
  dsimp only
  have hClear : Unstarted c s (if s.seqs[d].run = .none then s else s.dropRun d) := by
    split
    · exact Unstarted.refl c s
    · exact Unstarted.dropRun c s d
  generalize (if s.seqs[d].run = .none then s else s.dropRun d) = t at hClear ⊢
  refine hClear.trans (Unstarted.trans (t := t.setPhase o.slot .running) (Unstarted.of_seqs rfl) ?_)
  generalize t.setPhase o.slot .running = u
  refine Unstarted.trans (Unstarted.setSeq fun _ => .inr (.inr rfl)) ((Unstarted.regroupCore c _ false).trans
    ((Unstarted.detach c _ d).trans (Unstarted.tryReference c _ d)))

theorem injectorOf_setSeries (s : State) (l m : GroupId) (x : SeriesState) : injectorOf (s.setSeries l x) m = injectorOf s m :=
  (Tabled.setSeries s l x).injector m

theorem Unstarted.grant {c : Chan} {s : State} (o : Order) (hFree : ∀ (l : GroupId) (d : Chan), injectorOf s l = some d → d ≠ c) :
    Unstarted c s (s.grant o) := by
  have hSeries : Unstarted c s (s.setSeries o.group .order) := Unstarted.modGroup c s _ _
  have hFreeT : ∀ (l : GroupId) (d : Chan), injectorOf (s.setSeries o.group .order) l = some d → d ≠ c := fun l d hd =>
    hFree l d ((injectorOf_setSeries s o.group l .order).symm.trans hd)
  unfold State.grant
  dsimp only
  generalize s.setSeries o.group .order = t at hSeries hFreeT
  split
  · split
    · exact hSeries.trans (Unstarted.refuseDispatch c t o _)
    · exact hSeries.trans (Unstarted.startSpot o hFreeT _)
  · split
    · exact hSeries.trans (Unstarted.refuseDispatch c t o _)
    · exact hSeries.trans (Unstarted.startCheck c t o _)

theorem Unstarted.startOwn {c : Chan} {s : State} (hFree : ∀ (l : GroupId) (d : Chan), injectorOf s l = some d → d ≠ c) (l : GroupId)
    (state : SeriesState) (kind : RunKind) : Unstarted c s (s.startOwn l state kind) := by
  unfold State.startOwn
  split
  · next g p hg _ =>
    split
    · next d hd =>
      have hDetach (t : State) : Unstarted c t (t.detachForTurn d kind) := by
        unfold State.detachForTurn
        split
        · exact Unstarted.detach c t d
        · exact Unstarted.refl c t
      exact (((Unstarted.modGroup c s l _).trans (hDetach _)).trans (Unstarted.modGroup c _ l _)).trans
        (Unstarted.startRun (hFree l d ((injectorOf_some hg).trans hd)) _ _ _ _)
    · exact Unstarted.refl c s
  · exact Unstarted.refl c s

theorem Unstarted.scheduleOne {c : Chan} {s t : State} (hFree : ∀ (l : GroupId) (d : Chan), injectorOf s l = some d → d ≠ c)
    (h : scheduleOne s = some t) : Unstarted c s t := by
  unfold Machine.scheduleOne at h
  split at h
  · rw [← Option.some.inj h]
    exact Unstarted.grant _ hFree
  · split at h
    · split at h
      · obtain ⟨m, -, rfl⟩ := Option.map_eq_some_iff.mp h
        exact (Unstarted.startOwn hFree m _ _).trans (Unstarted.of_seqs rfl)
      · exact nomatch h
    · obtain ⟨m, -, rfl⟩ := Option.map_eq_some_iff.mp h
      exact Unstarted.startOwn hFree m _ _
    · exact nomatch h
    · exact nomatch h

theorem Unstarted.requestStop (c : Chan) (s : State) (l : GroupId) : Unstarted c s (s.requestStop l) := by
  unfold State.requestStop
  split
  · exact Unstarted.refl c s
  · split
    · exact Unstarted.refl c s
    · next d _ =>
      split
      · split
        · exact (Unstarted.abandonRun c s d).trans (Unstarted.modGroup c _ _ _)
        · refine Unstarted.trans (Unstarted.setSeq fun hd => .inl ?_) (Unstarted.modGroup c _ _ _)
          subst hd
          rfl
      · exact Unstarted.refl c s

theorem Unstarted.scheduleAll {c : Chan} : ∀ (n : Nat) {s : State}, Barred c s → Unstarted c s (scheduleAll n s)
  | 0, s, _ => Unstarted.refl c s
  | n + 1, s, h => by
    unfold Machine.scheduleAll
    dsimp only
    have hAsked : Unstarted c s (Machine.forEach allNodes (fun l t => t.requestStop l) s) :=
      Unstarted.forEach allNodes _ s fun l _ t => Unstarted.requestStop c t l
    have hBarred := h.working (Working.requestStops s)
    generalize Machine.forEach allNodes (fun l t => t.requestStop l) s = t at hAsked hBarred ⊢
    cases hOne : Machine.scheduleOne t with
    | none => exact hAsked
    | some u =>
      exact hAsked.trans ((Unstarted.scheduleOne hBarred.uninjected hOne).trans
        (Unstarted.scheduleAll n (hBarred.working (Working.scheduleOne hOne))))

theorem Unstarted.schedule {c : Chan} {s : State} (h : Barred c s) : Unstarted c s s.schedule :=
  (Unstarted.scheduleAll scheduleFuel h).trans (Unstarted.forEach _ _ _ fun d _ t => by
    split
    · exact Unstarted.detach c t d
    · exact Unstarted.refl c t)

theorem Unstarted.recount (c : Chan) (s : State) : Unstarted c s s.recount := by
  have hAll : Unstarted c s (Machine.forEach allNodes (fun l t => t.abandonOwn l) s) :=
    Unstarted.forEach allNodes _ s fun l _ t => Unstarted.abandonOwn c t l
  have hParked : Unstarted c s (s.changeMode .parked) := by
    unfold State.changeMode
    dsimp only
    rw [if_pos rfl]
    generalize Machine.forEach allNodes (fun l t => t.abandonOwn l) s = t at hAll ⊢
    exact hAll.trans (Unstarted.of_seqs rfl)
  unfold State.recount
  split
  · exact hParked
  · exact Unstarted.refl c s

/-- A regroup starts no measurement on a channel that is held or disconnected. -/
theorem Unstarted.regroupFrom {c : Chan} {s : State} (hs : intakeSound s) (h : s.seqs[c].ctx = .held ∨ s.safety[c].disconnected = true)
    (running : Nat) (fresh : Bool) : Unstarted c s (s.regroupFrom running fresh) := by
  have hCore := Unstarted.regroupCore c s fresh
  have hBarred : Barred c (s.regroupCore fresh) :=
    ⟨regroupCore_sound s fresh hs, barrier_measuring (Measuring.regroupCore s fresh) h⟩
  unfold State.regroupFrom
  dsimp only
  generalize s.regroupCore fresh = t at hCore hBarred ⊢
  split_ifs
  · exact (hCore.trans (Unstarted.recount c t)).trans (Unstarted.schedule (hBarred.working (Working.recount t)))
  · exact hCore.trans (Unstarted.schedule hBarred)

/-- What a regroup leaves of a channel that is held or disconnected: it is detached, with its verify, and injects nowhere. -/
theorem regroupFrom_barred {c : Chan} {s : State} (hs : intakeSound s) (h : s.seqs[c].ctx = .held ∨ s.safety[c].disconnected = true)
    (running : Nat) (fresh : Bool) : (∀ l : GroupId, injectorOf (s.regroupFrom running fresh) l ≠ some c)
      ∧ (s.regroupFrom running fresh).seqs[c].coupling = .detached
      ∧ (s.seqs[c].coupling = .attached ∨ s.safety[c].verify = some 5 → (s.regroupFrom running fresh).safety[c].verify = some 5) := by
  have hBarred : Barred c (s.regroupFrom running fresh) :=
    ⟨regroupFrom_sound s running fresh hs, barrier_measuring (Working.regroupFrom s running fresh).measuring h⟩
  have hLeft : Left (fun _ => True) s (s.regroupFrom running fresh) := (Acts.regroupFrom (fun _ _ => trivial) running fresh).left
  generalize s.regroupFrom running fresh = t at hBarred hLeft
  have hNone : ∀ l : GroupId, injectorOf t l ≠ some c := fun l hl => hBarred.uninjected l c hl rfl
  have hDetached : t.seqs[c].coupling = .detached := by
    cases hCoupling : t.seqs[c].coupling with
    | detached => rfl
    | attached =>
      obtain ⟨l, hl⟩ := hBarred.sound.attached c hCoupling
      exact absurd hl (hNone l)
  refine ⟨hNone, hDetached, fun hBefore => ?_⟩
  rcases (hLeft.chan c).verify hBefore with hAttached | hVerify
  · rw [hDetached] at hAttached
    exact nomatch hAttached
  · exact hVerify

/-! ### A result that holds its channel (R84) -/

theorem finishResult_holds {u : State} {r : Result} (hHold : actionClass r.conds r.actions = .hold)
    (hFree : u.seqs[r.chan].ctx ≠ .held) : ∃ v : State,
      v = ((u.reported r).setSeq r.chan { u.seqs[r.chan] with ctx := .held, record := recordOf r }).abandonRun r.chan
      ∧ (u.finishResult r = v.regroup ∨ u.finishResult r = v.regroup.completeSpot r) := by
  have hFreeR : (u.reported r).seqs[r.chan].ctx ≠ .held := by rw [reported_seqs]; exact hFree
  have hHolds : (u.reported r).holdChannel r.chan (recordOf r) =
      (((u.reported r).setSeq r.chan { u.seqs[r.chan] with ctx := .held, record := recordOf r }).abandonRun r.chan).regroup := by
    unfold State.holdChannel
    rw [if_neg hFreeR, reported_seqs]
  refine ⟨_, rfl, ?_⟩
  rw [← hHolds]
  have hFinish : u.finishResult r = (fun v : State => if r.source = .spot then v.completeSpot r else v)
      (if actionClass r.conds r.actions = .hold then (u.reported r).holdChannel r.chan (recordOf r) else u.reported r) := rfl
  rw [hFinish, if_pos hHold]
  by_cases hSpot : r.source = .spot
  · exact .inr (if_pos hSpot)
  · exact .inl (if_neg hSpot)

theorem completeSpot_kept (s : State) (r : Result) : (s.completeSpot r).seqs = s.seqs ∧ (s.completeSpot r).safety = s.safety
    ∧ Tabled s (s.completeSpot r) ∧ Measuring s (s.completeSpot r) := by
  unfold State.completeSpot
  split
  · exact ⟨rfl, rfl, Tabled.refl s, Measuring.refl s⟩
  · split
    · exact ⟨completeSlot_seqs _ _ _ _ _, completeSlot_safety _ _ _ _ _, Tabled.completeDone _ _ _, Measuring.completeDone _ _ _⟩
    · exact ⟨rfl, rfl, Tabled.refl s, Measuring.refl s⟩

theorem actionClass_hold {conds : CondSet} {acts : Vector Action 7} (h : classIs conds acts .hold) : actionClass conds acts = .hold := by
  unfold actionClass
  rw [if_pos ((asks_iff conds acts .hold).mpr h)]

theorem abandonRun_measures (s : State) (c : Chan) : ¬ measures (s.abandonRun c) c := by
  unfold State.abandonRun measures
  dsimp only
  split_ifs with hRun
  · have hAt : (s.setSeq c s.seqs[c].endRun).seqs[c] = s.seqs[c].endRun := upd_same _ _ _
    rw [hAt]
    exact fun h => h.elim (fun e => nomatch e) fun e => nomatch e
  · exact hRun

/-- Settles O50: the context is HELD and the regroup after it leaves the channel without a run or a group. -/
theorem holdTakesTheChannel : Obligations.HoldTakesTheChannel := by
  intro s u r rest hTaken hCut _ hSound hClass hFree
  have hHold := actionClass_hold hClass
  obtain ⟨hFrame, -, -, hHeld, hSeqs⟩ := resultTaken_kept hTaken
  have hFreeU : u.seqs[r.chan].ctx ≠ .held := fun h => hFree (hHeld.mp h)
  have hCoupling : u.seqs[r.chan].coupling = s.seqs[r.chan].coupling := by rw [hSeqs r.chan]
  obtain ⟨hResults, hTakenAfter, -, hNews, -⟩ := finishResult_kept u r
  have hLevel : has8 (u.finishResult r).attn.pending 3 = has8 (u.reported r).attn.pending 3 :=
    finishResult_level u r (k := 3) (by decide) (by decide)
  have hRaised : has8 (u.reported r).attn.pending 3 = true := (reported_level u r 3).mpr (.inr ⟨rfl, by rw [hHold]; decide⟩)
  obtain ⟨v, hv, hFinish⟩ := finishResult_holds hHold hFreeU
  have hSeq : v.seqs[r.chan].ctx = .held ∧ v.seqs[r.chan].record = recordOf r ∧ v.seqs[r.chan].coupling = u.seqs[r.chan].coupling := by
    have hSet : ((u.reported r).setSeq r.chan { u.seqs[r.chan] with ctx := .held, record := recordOf r }).seqs[r.chan] =
        { u.seqs[r.chan] with ctx := .held, record := recordOf r } := upd_same _ _ _
    have hAbandon := (Measuring.abandonRun ((u.reported r).setSeq r.chan { u.seqs[r.chan] with ctx := .held, record := recordOf r }) r.chan).chan r.chan
    rw [← hv, hSet] at hAbandon
    refine ⟨?_, hAbandon.record, ?_⟩
    · rcases hAbandon.ctx with hSame | ⟨hNone, -⟩
      · exact hSame
      · exact nomatch hNone
    · rw [hv, abandonRun_coupling, hSet]
  have hUnmeasured : ¬ measures v r.chan := hv ▸ abandonRun_measures _ _
  have hList : v.intake = s.intake ∧ v.slots = s.slots := by
    have hChans := OnChans.abandonRun ((u.reported r).setSeq r.chan { u.seqs[r.chan] with ctx := .held, record := recordOf r }) r.chan
    rw [← hv] at hChans
    have hReported := reported_frame u r
    have hIntake : (u.reported r).intake = u.intake := (congrArg State.intake hReported :)
    have hSlots : (u.reported r).slots = u.slots := (congrArg State.slots hReported :)
    have hIntakeU : u.intake = s.intake := (congrArg State.intake hFrame :)
    have hSlotsU : u.slots = s.slots := (congrArg State.slots hFrame :)
    exact ⟨hChans.intake.trans (hIntake.trans hIntakeU), ((congrArg State.slots hChans :).trans hSlots).trans hSlotsU⟩
  have hSoundV : intakeSound v := by
    unfold intakeSound
    rw [hList.1, hList.2]
    exact hSound
  obtain ⟨hNone, hDetached, hVerify⟩ := regroupFrom_barred hSoundV (.inl hSeq.1) (runningCount v) false
  have hStarted := Unstarted.regroupFrom hSoundV (.inl hSeq.1) (runningCount v) false
  have hTable := regroup_sound v hSoundV
  have hMeasuring := (Working.regroup v).measuring
  have hRegroup : v.regroup = v.regroupFrom (runningCount v) false := rfl
  rw [← hRegroup] at hNone hDetached hVerify hStarted
  clear hRegroup
  generalize v.regroup = w at *
  have hSpot := completeSpot_kept w r
  obtain ⟨x, hx, hSame⟩ : ∃ x, u.finishResult r = x ∧ (x.seqs = w.seqs ∧ x.safety = w.safety ∧ Tabled w x ∧ Measuring w x) := by
    rcases hFinish with hPlain | hDone
    · exact ⟨w, hPlain, rfl, rfl, Tabled.refl w, Measuring.refl w⟩
    · exact ⟨_, hDone, hSpot⟩
  rw [hx] at hResults hTakenAfter hNews hLevel
  obtain ⟨hSeqsX, hSafetyX, hTabled, hMeasuringX⟩ := hSame
  have hSoundX := hTable.step hMeasuringX hTabled
  have hUnmeasuredX : ¬ measures x r.chan := fun h => hUnmeasured (hStarted ((Unstarted.of_seqs hSeqsX) h))
  refine ⟨x, by rw [exec_conditionResult hTaken hCut, hx], hResults.trans (congrArg State.results hFrame :),
    hTakenAfter.trans (congrArg State.taken hFrame :), ?_, ?_, ?_, fun h => hUnmeasuredX (.inl h), fun h => hUnmeasuredX (.inr h),
    fun hAttached => ?_, fun l => ?_, hSoundX.table, hSoundX.injectors, hSoundX.attached, ?_, ?_⟩
  · rw [hSeqsX]
    rcases (hMeasuring.chan r.chan).ctx with hKept | ⟨hZero, -⟩
    · exact hKept.trans hSeq.1
    · exact nomatch hZero.symm.trans hSeq.1
  · rw [hSeqsX, recordFrom_iff]
    exact (hMeasuring.chan r.chan).record.trans hSeq.2.1
  · rw [hSeqsX]
    exact hDetached
  · rw [hSafetyX]
    exact hVerify (.inl (hSeq.2.2.trans (hCoupling.trans hAttached)))
  · rw [hTabled.injector l]
    exact hNone l
  · rw [hNews, if_neg (by rw [hHold]; decide), has8_add _ _ _ (by omega) (by omega)]
    simp
  · rw [hLevel]
    exact hRaised

end Sys2Proof.Machine
end

section
/-! PROOFS. A regroup where no order is taken: which groups and channels it leaves, which it forms, which it stops. -/

namespace Sys2Proof.Machine

/-! ### One group's evaluation, told from outside -/

/-- Where the table agrees with the links, a channel is wired into one group at most. -/
theorem tableAgrees.wired_unique {s : State} (h : tableAgrees s) {c : Chan} {l m : GroupId}
    (hl : wiredInto s c (membersOf s l) = true) (hm : wiredInto s c (membersOf s m) = true) : l = m := by
  unfold wiredInto at hl hm
  split at hl
  · next n hn =>
    rw [hn] at hm
    exact (h.has8_membersOf hl).1.symm.trans (h.has8_membersOf hm).1
  · exact nomatch hl

theorem sameOrStopped.trans {c : Chan} {s t u : State} (h : sameOrStopped c s t) (k : sameOrStopped c t u) :
    sameOrStopped c s u := by
  rcases k with hSame | hStopped
  · unfold sameOrStopped
    rw [hSame]
    exact h
  · right
    rw [hStopped]
    rcases h with hView | hView
    · rw [show t.seqs[c] = s.seqs[c] from congrArg Prod.fst hView, show t.safety[c] = s.safety[c] from congrArg Prod.snd hView]
    · rw [show t.seqs[c] = _ from congrArg Prod.fst hView, show t.safety[c] = _ from congrArg Prod.snd hView,
        stoppedSeq_idem, stoppedSafety_idem]

/-- A channel that is stopped stays as it is when it is stopped again. -/
theorem sameOrStopped.stopped {c : Chan} {s t : State} (h : sameOrStopped c s t) {q : Seq} {x : ChanSafety}
    (hView : chanView c s = (stoppedSeq q, stoppedSafety q x)) : chanView c t = (stoppedSeq q, stoppedSafety q x) := by
  rcases h with hSame | hStopped
  · exact hSame.trans hView
  · rw [hStopped, show s.seqs[c] = _ from congrArg Prod.fst hView, show s.safety[c] = _ from congrArg Prod.snd hView,
      stoppedSeq_idem, stoppedSafety_idem]

/-- Only the group table, the channels and the park timer moved, and every channel is as it was, or stopped. -/
structure Halts (s t : State) : Prop where
  frame : t = { s with groups := t.groups, seqs := t.seqs, safety := t.safety, park := t.park }
  chans : ∀ c : Chan, sameOrStopped c s t

theorem Halts.refl (s : State) : Halts s s := ⟨rfl, fun _ => .inl rfl⟩

theorem Halts.trans {s t u : State} (h : Halts s t) (k : Halts t u) : Halts s u where
  frame := by
    have hFrame := k.frame
    have hBefore := h.frame
    generalize u.groups = groups, u.seqs = seqs, u.safety = safety, u.park = park at hFrame ⊢
    rw [hFrame, hBefore]
  chans := fun c => (h.chans c).trans (k.chans c)

theorem Halts.forEach {α : Type} (f : α → State → State) (l : List α) (s : State) (h : ∀ a ∈ l, ∀ t, Halts s t → Halts t (f a t)) :
    Halts s (forEach l f s) :=
  forEach_keeps (P := Halts s) f l s (Halts.refl s) fun a ha t ht => ht.trans (h a ha t ht)

theorem Halts.ofGroups (s : State) (groups : Vector (Option Group) 8) : Halts s { s with groups := groups } :=
  ⟨rfl, fun _ => .inl rfl⟩

theorem Halts.abandonOwn (s : State) (l : GroupId) : Halts s (s.abandonOwn l) :=
  ⟨(abandonOwn_reaches s l).frame, fun _ => abandonOwn_sameOrStopped (.inl rfl) l⟩

theorem Halts.detach (s : State) (c : Chan) : Halts s (s.detach c) := by
  refine ⟨by rw [detach_eq], fun d => ?_⟩
  by_cases hd : c = d
  · subst hd
    by_cases hCoupling : s.seqs[c].coupling = .attached
    · right
      rw [detach_eq, if_pos hCoupling]
      exact Prod.ext (upd_same _ _ _) (upd_same _ _ _)
    · left
      rw [detach_detached hCoupling]
  · left
    rw [detach_eq]
    exact chanView_eq (upd_other _ _ _ _ hd) (upd_other _ _ _ _ hd)

theorem Halts.modGroup (s : State) (l : GroupId) (f : Group → Group) : Halts s (s.modGroup l f) := by
  unfold State.modGroup
  split
  · exact Halts.ofGroups s _
  · exact Halts.refl s

theorem Halts.startSettle (s : State) (l : GroupId) : Halts s (s.startSettle l) := by
  unfold State.startSettle
  split
  · exact Halts.modGroup s l _
  · split
    · exact Halts.modGroup s l _
    · exact Halts.modGroup s l _

theorem Halts.settleAfter (s : State) (l : GroupId) (formed changed : Bool) : Halts s (s.settleAfter l formed changed) := by
  unfold State.settleAfter
  split
  · exact Halts.refl s
  · split_ifs
    · exact Halts.modGroup s l _
    · exact (Halts.abandonOwn s l).trans (Halts.startSettle _ l)
    · exact Halts.startSettle s l
    · exact Halts.refl s

theorem abandonGroup_spotless {s : State} {l : GroupId} (h : runningSpot (s.abandonOwn l) l = none) : s.abandonGroup l = s.abandonOwn l := by
  unfold State.abandonGroup
  dsimp only
  rw [h]

theorem runningSpot_empty {s : State} (h : s.intake = []) (l : GroupId) : runningSpot s l = none := by
  unfold runningSpot
  rw [h]
  rfl

theorem abandonGroup_bare {s : State} (h : s.intake = []) (l : GroupId) : s.abandonGroup l = s.abandonOwn l :=
  abandonGroup_spotless (runningSpot_empty (by rw [(Halts.abandonOwn s l).frame]; exact h) l)

theorem Halts.evaluateGroup {s : State} (h : s.intake = []) (formed : Bool) (l : GroupId) : Halts s (s.evaluateGroup formed l) := by
  unfold State.evaluateGroup
  split
  · exact Halts.refl s
  · refine Halts.trans (Halts.trans ?_ (Halts.modGroup _ l _)) (Halts.settleAfter _ l _ _)
    split_ifs
    · rw [abandonGroup_bare h]
      exact Halts.abandonOwn s l
    · exact Halts.refl s

/-- What the operations on one group leave: the others, and every channel that injects in it neither before nor after. -/
structure Touches (l : GroupId) (s t : State) : Prop where
  others : ∀ m : GroupId, m ≠ l → t.groups[m] = s.groups[m]
  chans : ∀ d : Chan, injectorOf s l ≠ some d → injectorOf t l ≠ some d → chanView d t = chanView d s

theorem Reaches.injectorOf {l : GroupId} {s t : State} (h : Reaches l s t) (m : GroupId) : injectorOf t m = injectorOf s m := by
  have hShape := h.shape m
  unfold Machine.injectorOf
  cases hs : s.groups[m] <;> cases ht : t.groups[m] <;> simp_all

theorem modGroup_others (s : State) (l : GroupId) (f : Group → Group) {m : GroupId} (h : m ≠ l) :
    (s.modGroup l f).groups[m] = s.groups[m] := by
  rw [modGroup_get, if_neg (Ne.symm h)]

theorem startSettle_others (s : State) (l : GroupId) {m : GroupId} (h : m ≠ l) : (s.startSettle l).groups[m] = s.groups[m] := by
  unfold State.startSettle
  split
  · exact modGroup_others s l _ h
  · split
    · exact modGroup_others s l _ h
    · exact modGroup_others s l _ h

theorem modGroup_chan (s : State) (l : GroupId) (f : Group → Group) (d : Chan) : chanView d (s.modGroup l f) = chanView d s := by
  unfold State.modGroup
  split <;> rfl

theorem startSettle_chan (s : State) (l : GroupId) (d : Chan) : chanView d (s.startSettle l) = chanView d s := by
  unfold State.startSettle
  split
  · exact modGroup_chan s l _ d
  · split
    · exact modGroup_chan s l _ d
    · exact modGroup_chan s l _ d

theorem settleAfter_touches (s : State) (l : GroupId) (formed changed : Bool) : (∀ m : GroupId, m ≠ l →
      (s.settleAfter l formed changed).groups[m] = s.groups[m])
    ∧ ∀ d : Chan, injectorOf s l ≠ some d → chanView d (s.settleAfter l formed changed) = chanView d s := by
  unfold State.settleAfter
  split
  · exact ⟨fun _ _ => rfl, fun _ _ => rfl⟩
  · split_ifs
    · exact ⟨fun m hm => modGroup_others s l _ hm, fun d _ => modGroup_chan s l _ d⟩
    · have hReach := abandonOwn_reaches s l
      exact ⟨fun m hm => (startSettle_others _ l hm).trans (hReach.others m hm),
        fun d hd => (startSettle_chan _ l d).trans (hReach.chans d hd)⟩
    · exact ⟨fun m hm => startSettle_others s l hm, fun d _ => startSettle_chan s l d⟩
    · exact ⟨fun _ _ => rfl, fun _ _ => rfl⟩

theorem evaluateGroup_touches {s : State} (h : s.intake = []) (formed : Bool) (l : GroupId) :
    Touches l s (s.evaluateGroup formed l) := by
  unfold State.evaluateGroup
  cases hGroup : s.groups[l] with
  | none => exact ⟨fun _ _ => rfl, fun _ _ _ => rfl⟩
  | some g =>
    dsimp only
    have hAbandoned : Reaches l s (if (decide (chooseInjector s l g ≠ g.injector) && g.injector.isSome) = true then s.abandonGroup l else s) := by
      split_ifs
      · rw [abandonGroup_bare h]
        exact abandonOwn_reaches s l
      · exact Reaches.refl l s
    generalize (if (decide (chooseInjector s l g ≠ g.injector) && g.injector.isSome) = true then s.abandonGroup l else s) = t at hAbandoned ⊢
    generalize chooseInjector s l g = inj
    obtain ⟨hOthers, hChans⟩ := settleAfter_touches (t.modGroup l fun g => { g with injector := inj }) l formed (decide (inj ≠ g.injector))
    have hInjector := (Tabled.settleAfter (t.modGroup l fun g => { g with injector := inj }) l formed (decide (inj ≠ g.injector))).injector l
    refine ⟨fun m hm => (hOthers m hm).trans ((modGroup_others t l _ hm).trans (hAbandoned.others m hm)), fun d hBefore hAfter => ?_⟩
    rw [hInjector] at hAfter
    exact (hChans d hAfter).trans ((modGroup_chan t l _ d).trans (hAbandoned.chans d hBefore))

end Sys2Proof.Machine
end

section
/-! PROOFS. A regroup with no order taken, as one pass: kept groups, formed groups, stopped channels, and level 7. -/

namespace Sys2Proof.Machine

/-! ### The passes -/

theorem Halts.intake {s t : State} (h : Halts s t) (hs : s.intake = []) : t.intake = [] := by
  rw [h.frame]
  exact hs

theorem abandonChanged_halts {s : State} (h : s.intake = []) (fresh : Bool) (lab : Labels) : Halts s (s.abandonChanged fresh lab) :=
  Halts.forEach _ _ s fun l _ t ht => by
    rw [abandonGroup_bare (ht.intake h)]
    exact Halts.abandonOwn t l

theorem formGroups_halts {s : State} (h : s.intake = []) (fresh : Bool) : Halts s (s.formGroups fresh) :=
  (abandonChanged_halts h fresh _).trans (Halts.ofGroups _ _)

theorem evaluateEach_halts {s : State} (h : s.intake = []) (formed : GroupId → Bool) (l : List GroupId) :
    Halts s (forEach l (fun m t => t.evaluateGroup (formed m) m) s) :=
  Halts.forEach _ _ s fun m _ _ ht => Halts.evaluateGroup (ht.intake h) (formed m) m

theorem detachOthers_halts (s : State) : Halts s s.detachOthers :=
  Halts.forEach _ _ s fun c _ t _ => by
    split_ifs
    · exact Halts.detach t c
    · exact Halts.refl t

/-- The group table and the channels as a regroup without orders leaves them. -/
def State.regroupTable (s : State) (fresh : Bool) : State :=
  (forEach allNodes (fun l t => t.evaluateGroup (!keepsGroup fresh (partition s.links) s.groups l) l) (s.formGroups fresh)).detachOthers

theorem regroupTable_halts {s : State} (h : s.intake = []) (fresh : Bool) : Halts s (s.regroupTable fresh) :=
  ((formGroups_halts h fresh).trans (evaluateEach_halts ((formGroups_halts h fresh).intake h) _ _)).trans (detachOthers_halts _)

theorem placeInFlight_empty {s : State} (h : s.intake = []) : s.placeInFlight = s := by
  unfold State.placeInFlight
  rw [h]
  rfl

theorem placeWaiting_empty {s : State} (h : s.intake = []) : s.placeWaiting = s := by
  unfold State.placeWaiting
  rw [h]
  rfl

theorem inheritChecks_empty {s : State} (h : s.intake = []) (l : List GroupId) : forEach l (fun m t => t.inheritCheck m) s = s :=
  forEach_unchanged _ _ _ fun m _ => by
    unfold State.inheritCheck
    rw [h]
    rfl

/-- With no order taken and outside PARKED a regroup is its table and its notice. -/
theorem regroupCore_empty {s : State} (h : s.intake = []) (hMode : s.mode ≠ .parked) (fresh : Bool) :
    s.regroupCore fresh = { s.regroupTable fresh with
      attn := if (fresh || decide (tableSignature s.groups ≠ tableSignature (s.regroupTable fresh).groups)) = true then s.attn.raise 7
        else s.attn } := by
  have hFormed := formGroups_halts h fresh
  have hTable := regroupTable_halts h fresh
  have hMade : (s.formGroups fresh).evaluateAll (keepsGroup fresh (partition s.links) s.groups) = s.regroupTable fresh := by
    unfold State.evaluateAll State.regroupTable
    rw [placeInFlight_empty (hFormed.intake h), inheritChecks_empty (hFormed.intake h)]
  unfold State.regroupCore
  dsimp only
  rw [hMade]
  generalize s.regroupTable fresh = w at hTable ⊢
  have hAttn : w.attn = s.attn := by
    have hFrame := hTable.frame
    generalize w.groups = groups, w.seqs = seqs, w.safety = safety, w.park = park at hFrame
    rw [hFrame]
  have hModeW : w.mode = s.mode := by
    have hFrame := hTable.frame
    generalize w.groups = groups, w.seqs = seqs, w.safety = safety, w.park = park at hFrame
    rw [hFrame]
  have hReorder : w.reorderRotation (keepsGroup fresh (partition s.links) s.groups) = w := if_neg (by rw [hModeW]; exact hMode)
  rw [hReorder]
  unfold State.noticeTable
  split_ifs
  · rw [placeWaiting_empty (s := w.raise 7) (hTable.intake h)]
    unfold State.raise
    rw [hAttn]
  · rw [placeWaiting_empty (hTable.intake h), ← hAttn]

/-! ### Groups and channels that a regroup leaves alone -/

/-- A group that a regroup keeps, with an injector of its own that stays eligible, and a READY plan. -/
structure Undisturbed (s : State) (fresh : Bool) (l : GroupId) (g : Group) (c : Chan) : Prop where
  group : s.groups[l] = some g
  kept : keepsGroup fresh (partition s.links) s.groups l = true
  injector : g.injector = some c
  own : ownInjector s l c
  may : mayInject s l c
  ready : readyPlan s l ≠ none
  waits : g.waitPlan = false

/-- A group whose choice stands is left by its evaluation. -/
theorem evaluateGroup_kept {s : State} (hIntake : s.intake = []) {l : GroupId} {g : Group} {c : Chan} (hGroup : s.groups[l] = some g)
    (hInjector : g.injector = some c) (hMay : mayInject s l c) (hReady : readyPlan s l ≠ none) (hWaits : g.waitPlan = false) :
    s.evaluateGroup false l = s := by
  have hChoose : chooseInjector s l g = g.injector := by
    unfold chooseInjector
    rw [if_neg (by rw [checkInProgress_empty hIntake]; decide), hInjector]
    exact if_pos ((eligible_iff hGroup c).mpr hMay)
  have hSame : (s.modGroup l fun x => { x with injector := g.injector }) = s := by
    rw [modGroup_some hGroup]
    have hUpd : upd s.groups l (some g) = s.groups := by
      rw [← hGroup]
      simp [upd]
    exact congrArg (fun groups => { s with groups := groups }) hUpd
  unfold State.evaluateGroup
  rw [hGroup]
  dsimp only
  rw [hChoose, decide_eq_false (not_not_intro rfl), Bool.false_and, if_neg Bool.false_ne_true, hSame]
  unfold State.settleAfter
  rw [hGroup]
  dsimp only
  rw [if_neg (by rw [hInjector]; exact fun e => nomatch e), if_neg (by simpa using hReady), hWaits, if_neg (by decide)]

theorem Halts.mayInject {s t : State} (h : Halts s t) {l : GroupId} (hMembers : membersOf t l = membersOf s l) {c : Chan}
    (hMay : Machine.mayInject s l c) : Machine.mayInject t l c := by
  obtain ⟨hWired, hHealth, hConnected, hUnchecked, hHeld, hActive⟩ := hMay
  have hFrame := h.frame
  have hChan : t.safety[c].health = s.safety[c].health ∧ t.safety[c].disconnected = s.safety[c].disconnected
      ∧ t.seqs[c].ctx = s.seqs[c].ctx := by
    rcases h.chans c with hSame | hStopped
    · rw [show t.seqs[c] = s.seqs[c] from congrArg Prod.fst hSame, show t.safety[c] = s.safety[c] from congrArg Prod.snd hSame]
      exact ⟨rfl, rfl, rfl⟩
    · rw [show t.seqs[c] = _ from congrArg Prod.fst hStopped, show t.safety[c] = _ from congrArg Prod.snd hStopped]
      unfold stoppedSafety stoppedSeq
      refine ⟨?_, ?_, ?_⟩ <;> split_ifs <;> rfl
  obtain ⟨hHealthT, hConnectedT, hCtxT⟩ := hChan
  generalize t.groups = groups, t.seqs = seqs, t.safety = safety, t.park = park at hFrame
  refine ⟨?_, hHealthT.trans hHealth, hConnectedT.trans hConnected, ?_, fun e => hHeld (hCtxT.symm.trans e), ?_⟩
  · rw [hMembers]
    unfold wiredInto at hWired ⊢
    rw [hFrame]
    exact hWired
  · rw [hFrame]
    exact hUnchecked
  · rw [hMembers, hFrame]
    exact hActive

theorem Halts.readyPlan {s t : State} (h : Halts s t) (l : GroupId) : readyPlan t l = readyPlan s l := by
  have hFrame := h.frame
  generalize t.groups = groups, t.seqs = seqs, t.safety = safety, t.park = park at hFrame
  rw [hFrame]
  rfl

theorem Halts.wiring {s t : State} (h : Halts s t) : t.wiring = s.wiring := by
  have hFrame := h.frame
  generalize t.groups = groups, t.seqs = seqs, t.safety = safety, t.park = park at hFrame
  rw [hFrame]

/-- The group of a leader and its injector stand, no other group has the channel as its injector, and it is wired into none. -/
structure Apart (base : State) (l : GroupId) (g : Group) (c : Chan) (t : State) : Prop where
  halts : Halts base t
  group : t.groups[l] = some g
  chan : chanView c t = chanView c base
  others : ∀ m : GroupId, m ≠ l → injectorOf t m ≠ some c
  wired : ∀ m : GroupId, m ≠ l → wiredInto t c (membersOf t m) = false

theorem formGroups_apart {s : State} (hIntake : s.intake = []) {fresh : Bool} {l : GroupId} {g : Group} {c : Chan}
    (h : Undisturbed s fresh l g c) : Apart s l g c (s.formGroups fresh) := by
  have hHalts := formGroups_halts hIntake fresh
  have hAbandoned : Shaped s (s.abandonChanged fresh (partition s.links))
      ∧ (s.abandonChanged fresh (partition s.links)).groups[l] = some g
      ∧ chanView c (s.abandonChanged fresh (partition s.links)) = chanView c s := by
    refine forEach_keeps (P := fun t : State => Shaped s t ∧ t.groups[l] = some g ∧ chanView c t = chanView c s) _ _ s
      ⟨Shaped.refl s, h.group, rfl⟩ fun m hm t ht => ?_
    obtain ⟨hShaped, hGroup, hChan⟩ := ht
    have hOther : m ≠ l := by
      rintro rfl
      have hChanged := (List.mem_filter.mp hm).2
      rw [h.kept] at hChanged
      simp at hChanged
    have hReach := abandonOwn_reaches t m
    rw [abandonGroup_bare (by rw [hShaped.frame]; exact hIntake)]
    refine ⟨hShaped.step hReach, (hReach.others l (Ne.symm hOther)).trans hGroup, (hReach.chans c fun hInject => ?_).trans hChan⟩
    exact hOther (h.own m ((hShaped.injectorOf m).symm.trans hInject))
  obtain ⟨hShaped, hGroupA, hChanA⟩ := hAbandoned
  have hGroup : (s.formGroups fresh).groups[l] = some g := by
    have hKept : keepsGroup fresh (partition s.links) (s.abandonChanged fresh (partition s.links)).groups l = true := by
      have hKept := h.kept
      unfold keepsGroup at hKept ⊢
      rw [hGroupA]
      rw [h.group] at hKept
      exact hKept
    unfold State.formGroups newGroups
    dsimp only
    refine (Vector.getElem_ofFn l.isLt).trans ?_
    have hLeads : (partition s.links)[l] = l := by
      have hKept := h.kept
      unfold keepsGroup at hKept
      simp only [Bool.and_eq_true, decide_eq_true_eq] at hKept
      exact hKept.1.2
    rw [if_pos hLeads, if_pos hKept]
    exact hGroupA
  have hAgrees := formGroups_agrees s fresh
  have hOwnWired : wiredInto (s.formGroups fresh) c (membersOf (s.formGroups fresh) l) = true := by
    have hMembers : membersOf (s.formGroups fresh) l = membersOf s l := by
      unfold membersOf
      rw [hGroup, h.group]
    rw [hMembers]
    have hWired := h.may.1
    unfold wiredInto at hWired ⊢
    rw [hHalts.wiring]
    exact hWired
  refine ⟨hHalts, hGroup, hChanA, fun m hm hInject => ?_, fun m hm => ?_⟩
  · cases hGroupM : (s.formGroups fresh).groups[m] with
    | none =>
      unfold injectorOf at hInject
      rw [hGroupM] at hInject
      exact nomatch hInject
    | some x =>
      rw [injectorOf_some hGroupM] at hInject
      rcases formGroups_stance hGroupM with rfl | ⟨-, x', hx', hStance, -⟩
      · exact nomatch hInject
      · refine hm (h.own m ((injectorOf_some hx').trans ?_))
        have hSame : x.injector = x'.injector := congrArg (·.2.1) hStance
        rw [← hSame, hInject]
  · cases hWired : wiredInto (s.formGroups fresh) c (membersOf (s.formGroups fresh) m) with
    | false => rfl
    | true => exact absurd (hAgrees.wired_unique hWired hOwnWired) hm

theorem evaluateGroup_apart {base t : State} (hIntake : base.intake = []) {l : GroupId} {g : Group} {c : Chan}
    (hInjector : g.injector = some c) (hMay : ∀ u : State, Halts base u → u.groups[l] = some g → mayInject u l c)
    (hReady : readyPlan base l ≠ none) (hWaits : g.waitPlan = false) (h : Apart base l g c t) (formed : GroupId → Bool)
    (hFormed : formed l = false) (m : GroupId) : Apart base l g c (t.evaluateGroup (formed m) m) := by
  have hIntakeT := h.halts.intake hIntake
  by_cases hm : m = l
  · subst hm
    rw [hFormed, evaluateGroup_kept hIntakeT h.group hInjector (hMay t h.halts h.group)
      (by rw [h.halts.readyPlan]; exact hReady) hWaits]
    exact h
  · have hTouches := evaluateGroup_touches hIntakeT (formed m) m
    have hEvaluated := evaluateGroup_spec t (formed m) m
    have hHalts := Halts.evaluateGroup hIntakeT (formed m) m
    have hOthers : ∀ m' : GroupId, m' ≠ l → injectorOf (t.evaluateGroup (formed m) m) m' ≠ some c := by
      intro m' hm' hInject
      by_cases hSame : m' = m
      · subst hSame
        have hWired := (hEvaluated.own c hInject).1
        rw [membersOf_of_map (hEvaluated.members m')] at hWired
        unfold wiredInto at hWired
        rw [hEvaluated.measuring.wiring_eq] at hWired
        exact nomatch (h.wired m' hm').symm.trans hWired
      · exact h.others m' hm' ((hEvaluated.others m' hSame).symm.trans hInject)
    refine ⟨h.halts.trans hHalts, (hTouches.others l (Ne.symm hm)).trans h.group,
      (hTouches.chans c (h.others m hm) (hOthers m hm)).trans h.chan, hOthers, fun m' hm' => ?_⟩
    rw [membersOf_of_map (hEvaluated.members m')]
    unfold wiredInto
    rw [hEvaluated.measuring.wiring_eq]
    exact h.wired m' hm'

theorem detachOthers_injector {s : State} {l : GroupId} {c : Chan} (h : injectorOf s l = some c) :
    chanView c s.detachOthers = chanView c s := by
  refine (forEach_keeps (P := fun t : State => t.groups = s.groups ∧ chanView c t = chanView c s) _ _ s ⟨rfl, rfl⟩ fun d _ t ht => ?_).2
  obtain ⟨hGroups, hView⟩ := ht
  split_ifs with hNone
  · have hOther : d ≠ c := by
      rintro rfl
      have hInjects : injectorOf t l = some d := by
        unfold injectorOf at h ⊢
        rw [hGroups]
        exact h
      cases hGroup : t.groups[l] with
      | none =>
        unfold injectorOf at hInjects
        rw [hGroup] at hInjects
        exact nomatch hInjects
      | some x =>
        have hNot := List.find?_eq_none.mp (Option.isNone_iff_eq_none.mp hNone) l (mem_allNodes l)
        rw [hGroup] at hNot
        rw [injectorOf_some hGroup] at hInjects
        simp [hInjects] at hNot
    refine ⟨?_, ?_⟩
    · rw [detach_eq]
      exact hGroups
    · rw [← hView, detach_eq]
      exact chanView_eq (upd_other _ _ _ _ hOther) (upd_other _ _ _ _ hOther)
  · exact ⟨hGroups, hView⟩

theorem detachOthers_groups (s : State) : s.detachOthers.groups = s.groups :=
  forEach_keeps (P := fun t : State => t.groups = s.groups) _ _ s rfl fun c _ t ht => by
    split_ifs
    · rw [detach_eq]
      exact ht
    · exact ht

/-- A regroup leaves a kept group whose injector stays eligible, and that injector. -/
theorem regroupTable_undisturbed {s : State} (hIntake : s.intake = []) {fresh : Bool} {l : GroupId} {g : Group} {c : Chan}
    (h : Undisturbed s fresh l g c) : (s.regroupTable fresh).groups[l] = some g
      ∧ chanView c (s.regroupTable fresh) = chanView c s := by
  have hMembers (u : State) (hu : u.groups[l] = some g) : membersOf u l = membersOf s l := by
    unfold membersOf
    rw [hu, h.group]
  have hPass : Apart s l g c (forEach allNodes
      (fun m t => t.evaluateGroup (!keepsGroup fresh (partition s.links) s.groups m) m) (s.formGroups fresh)) :=
    forEach_keeps (P := Apart s l g c) _ _ _ (formGroups_apart hIntake h) fun m _ t ht =>
      evaluateGroup_apart hIntake h.injector (fun u hu hGroup => hu.mayInject (hMembers u hGroup) h.may) h.ready h.waits ht
        (fun m => !keepsGroup fresh (partition s.links) s.groups m) (by rw [h.kept]; rfl) m
  unfold State.regroupTable
  generalize forEach allNodes (fun m t => t.evaluateGroup (!keepsGroup fresh (partition s.links) s.groups m) m) (s.formGroups fresh) = w
    at hPass ⊢
  refine ⟨?_, (detachOthers_injector ((injectorOf_some hPass.group).trans h.injector)).trans hPass.chan⟩
  rw [detachOthers_groups]
  exact hPass.group

/-! ### Groups that a regroup forms -/

/-- A newly formed group has no series yet. -/
theorem regroupTable_formed {s : State} (hIntake : s.intake = []) {fresh : Bool} {l : GroupId} {g : Group}
    (hNew : keepsGroup fresh (partition s.links) s.groups l = false) (hGroup : (s.regroupTable fresh).groups[l] = some g) :
    g.series = .none ∧ g.seriesCount = 0 := by
  have hFormed := formGroups_halts hIntake fresh
  have hGroups : (s.regroupTable fresh).groups = (forEach allNodes
      (fun m t => t.evaluateGroup (!keepsGroup fresh (partition s.links) s.groups m) m) (s.formGroups fresh)).groups :=
    detachOthers_groups _
  rw [hGroups] at hGroup
  obtain ⟨t, ht, hView, hEnd⟩ := (forEach_own
    (fun (m : GroupId) (t : State) => t.evaluateGroup (!keepsGroup fresh (partition s.links) s.groups m) m)
    (fun t : State => t.groups[l]) (fun t => t.intake = []) l allNodes (s.formGroups fresh) allNodes_nodup (hFormed.intake hIntake)
    (fun m _ t ht => (Halts.evaluateGroup ht _ m).intake ht)
    fun m _ hm t ht => (evaluateGroup_touches ht _ m).others l (Ne.symm hm)).2 (mem_allNodes l)
  replace hEnd := hEnd.symm.trans hGroup
  cases hBefore : t.groups[l] with
  | none =>
    rw [evaluateGroup_noGroup hBefore] at hEnd
    exact nomatch hBefore.symm.trans hEnd
  | some x =>
    rcases formGroups_stance (hView.symm.trans hBefore) with rfl | ⟨hKept, -⟩
    · rw [evaluateGroup_still ht hBefore rfl] at hEnd
      replace hEnd := Option.some.inj ((upd_same _ _ _).symm.trans hEnd)
      obtain ⟨hSeries, -, -, hCount⟩ := evaluatedGroup_series t (!keepsGroup fresh (partition s.links) s.groups l) l
        (Group.formed (memberMask (partition s.links) l))
      rw [← hEnd]
      exact ⟨hSeries, hCount⟩
    · rw [hNew] at hKept
      exact nomatch hKept

/-! ### Channels that a regroup stops -/

/-- The injector of a group that measured and is kept no longer is stopped. -/
theorem regroupTable_stopped {s : State} (hIntake : s.intake = []) {fresh : Bool} {l : GroupId} {g : Group} {c : Chan}
    (hGroup : s.groups[l] = some g) (hLost : keepsGroup fresh (partition s.links) s.groups l = false)
    (hActive : ownActive g.series) (hInject : g.injector = some c) :
    chanView c (s.regroupTable fresh) = (stoppedSeq s.seqs[c], stoppedSafety s.seqs[c] s.safety[c]) := by
  have hMem : l ∈ allNodes.filter fun l => s.groups[l].isSome && !keepsGroup fresh (partition s.links) s.groups l :=
    List.mem_filter.mpr ⟨mem_allNodes l, by rw [hLost, hGroup]; rfl⟩
  obtain ⟨pre, post, -, hPre, -, hEnd⟩ := forEach_split (fun (l : GroupId) (t : State) => t.abandonGroup l)
    (allNodes_nodup.filter fun l => s.groups[l].isSome && !keepsGroup fresh (partition s.links) s.groups l) hMem s
  have hBefore : (forEach pre (fun (l : GroupId) t => t.abandonGroup l) s).groups[l] = some g
      ∧ Halts s (forEach pre (fun (l : GroupId) t => t.abandonGroup l) s) :=
    forEach_keeps (P := fun t : State => t.groups[l] = some g ∧ Halts s t) _ _ s ⟨hGroup, Halts.refl s⟩ fun m hm t ht => by
      rw [abandonGroup_bare (ht.2.intake hIntake)]
      exact ⟨((abandonOwn_reaches t m).others l fun e => hPre (e ▸ hm)).trans ht.1, ht.2.trans (Halts.abandonOwn t m)⟩
  have hAbandoned : s.abandonChanged fresh (partition s.links) = forEach post (fun l t => t.abandonGroup l)
      ((forEach pre (fun (l : GroupId) t => t.abandonGroup l) s).abandonGroup l) := hEnd
  generalize forEach pre (fun (l : GroupId) t => t.abandonGroup l) s = t at hBefore hAbandoned
  obtain ⟨hGroupT, hHalts⟩ := hBefore
  have hIntakeT := hHalts.intake hIntake
  rw [abandonGroup_bare hIntakeT] at hAbandoned
  have hHere : chanView c (t.abandonOwn l) = (stoppedSeq s.seqs[c], stoppedSafety s.seqs[c] s.safety[c]) := by
    rw [abandonOwn_active hGroupT hActive hInject]
    rcases hHalts.chans c with h | h
    · rw [← show t.seqs[c] = s.seqs[c] from congrArg Prod.fst h, ← show t.safety[c] = s.safety[c] from congrArg Prod.snd h]
      exact Prod.ext (upd_same _ _ _) (upd_same _ _ _)
    · refine Prod.ext ((upd_same _ _ _).trans ?_) ((upd_same _ _ _).trans ?_)
      · rw [show t.seqs[c] = _ from congrArg Prod.fst h, stoppedSeq_idem]
      · rw [show t.seqs[c] = _ from congrArg Prod.fst h, show t.safety[c] = _ from congrArg Prod.snd h, stoppedSafety_idem]
  have hIntakeU := (Halts.abandonOwn t l).intake hIntakeT
  generalize t.abandonOwn l = u at hHere hIntakeU hAbandoned
  have hPost : Halts u (s.abandonChanged fresh (partition s.links)) := by
    rw [hAbandoned]
    exact Halts.forEach _ _ u fun m _ v hv => by
      rw [abandonGroup_bare (hv.intake hIntakeU)]
      exact Halts.abandonOwn v m
  have hForm : Halts u (s.formGroups fresh) := hPost.trans (Halts.ofGroups _ _)
  have hAll : Halts u (s.regroupTable fresh) :=
    (hForm.trans (evaluateEach_halts (hForm.intake hIntakeU) _ _)).trans (detachOthers_halts _)
  exact (hAll.chans c).stopped hHere

end Sys2Proof.Machine
end

section
/-! PROOFS. The regroup that a write of node settings and links brings, with no order taken. -/

namespace Sys2Proof.Machine

/-! ### The write's end -/

/-- The working copies of a write of node settings and links. -/
theorem exec_nodesLinks {s : State} {nodes : BitVec 8} {links : BitVec 16} (hEnd : s.endPending = true)
    (hWatch : s.watch = { Watch.empty with nodes := nodes, links := links }) (hWritten : nodes ≠ 0 ∨ links ≠ 0) :
    ∃ u : State, u = { s.endTaken with nodePlan := u.nodePlan, links := u.links }
      ∧ exec .writeTransactionEnd s = .next (u.regroupFrom (runningCount s) false) := by
  have hHandle := handleEnd_copies (s := s) (by rw [hWatch]; exact empty_slot) (by rw [hWatch]; exact empty_view) (by
    rw [hWatch]
    unfold Watch.regroups
    simp only [Bool.or_eq_true, decide_eq_true_eq]
    exact .inl (.inl hWritten))
  rw [show s.watch.news = Watch.empty.news by rw [hWatch], clearNews_unwritten,
    takePlans_unwritten _ (by rw [hWatch]; exact fun p => empty_plan p), takeDisconnect_unwritten _ (by rw [hWatch]; rfl)] at hHandle
  refine ⟨s.endTaken.takeTopology s.watch, ?_, by rw [exec_writeTransactionEnd hEnd, hHandle]⟩
  have hWiring : (s.endTaken.takeTopology s.watch).wiring = s.endTaken.wiring := by
    refine Vector.ext fun i hi => ?_
    unfold State.takeTopology
    dsimp only
    rw [Vector.getElem_ofFn, hWatch]
    exact if_neg (by simp [Watch.empty])
  have hFrame : s.endTaken.takeTopology s.watch = { s.endTaken with
      nodePlan := (s.endTaken.takeTopology s.watch).nodePlan, links := (s.endTaken.takeTopology s.watch).links
      wiring := (s.endTaken.takeTopology s.watch).wiring } := rfl
  generalize s.endTaken.takeTopology s.watch = u at hWiring hFrame ⊢
  rw [hWiring] at hFrame
  exact hFrame

/-! ### Kept groups, told from the table left -/

theorem kept_members {u t : State} (hTable : tableAgrees t) (hLinks : t.links = u.links) {l : GroupId}
    (h : keepsGroup false (partition u.links) u.groups l = true) :
    (t.groups[l]).map (·.members) = (u.groups[l]).map (·.members) := by
  unfold keepsGroup at h
  simp only [Bool.and_eq_true, decide_eq_true_eq] at h
  obtain ⟨⟨-, hLeads⟩, hMembers⟩ := h
  have hHere := hTable l
  rw [hLinks, if_pos hLeads] at hHere
  cases hGroup : u.groups[l] with
  | none =>
    rw [hGroup] at hMembers
    exact nomatch hMembers
  | some g =>
    rw [hGroup] at hMembers
    rw [hHere, Option.map_some, of_decide_eq_true hMembers]

theorem keeps_of_members {u t : State} (hTable : tableAgrees t) (hLinks : t.links = u.links) {l : GroupId} {g : Group}
    (hGroup : u.groups[l] = some g) (hMembers : (t.groups[l]).map (·.members) = some g.members) :
    keepsGroup false (partition u.links) u.groups l = true := by
  have hHere := hTable l
  rw [hLinks, hMembers] at hHere
  unfold keepsGroup
  rw [hGroup]
  split_ifs at hHere with hLeads
  · simp only [Bool.not_false, Bool.true_and, Bool.and_eq_true, decide_eq_true_eq]
    exact ⟨hLeads, Option.some.inj hHere⟩

theorem not_kept {u t : State} (hTable : tableAgrees t) (hLinks : t.links = u.links) {l : GroupId} {x : Option (BitVec 8)}
    (hMembers : (t.groups[l]).map (·.members) = x) (hChanged : (u.groups[l]).map (·.members) ≠ x) :
    keepsGroup false (partition u.links) u.groups l = false := by
  cases h : keepsGroup false (partition u.links) u.groups l with
  | false => rfl
  | true => exact absurd ((kept_members hTable hLinks h).symm.trans hMembers) hChanged

/-- No order is taken and each channel is wired into one group at most. -/
structure Bare (u : State) : Prop where
  intake : u.intake = []
  unique : ∀ (l m : GroupId) (c : Chan), injectorOf u m = some c → wiredInto u c (membersOf u l) = true → m = l

/-- A group that shows the same members after a regroup, with an injector that may inject on, was left by it. -/
theorem undisturbed_of {u t : State} (hBare : Bare u) (m : Measuring u t) (hTable : tableAgrees t) {l : GroupId} {g : Group} {c : Chan}
    (hGroup : u.groups[l] = some g) (hMembers : (t.groups[l]).map (·.members) = some g.members) (hInject : g.injector = some c)
    (hMay : mayInject t l c) (hReady : readyPlan t l ≠ none) (hWaits : g.waitPlan = false) : Undisturbed u false l g c := by
  have hLinks : t.links = u.links := m.links_eq
  have hMembersOf : membersOf t l = membersOf u l := membersOf_of_map (by rw [hMembers, hGroup, Option.map_some])
  have hMayU : mayInject u l c := mayInject_back m hMembersOf (fun d hd => by
    unfold checking at hd
    rw [hBare.intake] at hd
    exact nomatch hd) hMay
  exact ⟨hGroup, keeps_of_members hTable hLinks hGroup hMembers, hInject, fun k hk => hBare.unique l k c hk hMayU.1, hMayU,
    by rw [← readyPlan_of m]; exact hReady, hWaits⟩

/-! ### What level 7 watches (R7) -/

theorem tableSignature_ne_iff (s t : State) : tableSignature s.groups ≠ tableSignature t.groups ↔
    ∃ l : GroupId, (t.groups[l]).map (·.members) ≠ (s.groups[l]).map (·.members) ∨ injectorOf t l ≠ injectorOf s l := by
  have hSame : tableSignature s.groups = tableSignature t.groups ↔
      ∀ l : GroupId, (t.groups[l]).map (·.members) = (s.groups[l]).map (·.members) ∧ injectorOf t l = injectorOf s l := by
    unfold tableSignature
    rw [List.map_inj_left]
    have hOne (l : GroupId) : ((s.groups[l]).map (fun g => (g.members, g.injector)) = (t.groups[l]).map fun g => (g.members, g.injector))
        ↔ (t.groups[l]).map (·.members) = (s.groups[l]).map (·.members) ∧ injectorOf t l = injectorOf s l := by
      unfold injectorOf
      cases s.groups[l] with
      | none => cases t.groups[l] <;> simp
      | some g =>
        cases t.groups[l] with
        | none => simp
        | some x => simp [eq_comm]
    exact ⟨fun h l => (hOne l).mp (h l (mem_allNodes l)), fun h l _ => (hOne l).mpr (h l)⟩
  rw [ne_eq, hSame, not_forall]
  exact exists_congr fun l => not_and_or

theorem noticed_iff (s t : State) : has8 (if (false || decide (tableSignature s.groups ≠ tableSignature t.groups)) = true
      then s.attn.raise 7 else s.attn).pending 7 = true ↔ has8 s.attn.pending 7 = true
    ∨ ∃ l : GroupId, (t.groups[l]).map (·.members) ≠ (s.groups[l]).map (·.members) ∨ injectorOf t l ≠ injectorOf s l := by
  rw [← tableSignature_ne_iff s t, Bool.false_or]
  by_cases h : tableSignature s.groups = tableSignature t.groups
  · simp [h]
  · rw [if_pos (decide_eq_true h)]
    unfold Attn.raise
    dsimp only
    rw [has8_or, has8_bit8 7 7 (by decide) (by decide)]
    simp [h]

/-! ### The two modes -/

/-- A group that a regroup forms has the lowest eligible channel, with its timer started, after what follows too. -/
theorem regroupFrom_formed {u : State} (hs : intakeSound u) (running : Nat) {l : GroupId} {g : Group}
    (hNew : keepsGroup false (partition u.links) u.groups l = false) (hGroup : (u.regroupFrom running false).groups[l] = some g)
    (hUnchecked : checkInProgress (u.regroupFrom running false) l = false) :
    lowestInjects (u.regroupFrom running false) l g ∧ settleStarted (u.regroupFrom running false) l g :=
  (regroupFrom_chosen hs running false fun _ _ hKept => nomatch hNew.symm.trans hKept).shows
    (regroupFrom_sound u running false hs).injectors hGroup hUnchecked

/-- With no order taken a regroup is its table, its notice, and the scheduler. -/
theorem regroupFrom_empty {u : State} (hIntake : u.intake = []) (hMode : u.mode ≠ .parked) : u.regroupFrom 0 false =
    ({ u.regroupTable false with
      attn := if (false || decide (tableSignature u.groups ≠ tableSignature (u.regroupTable false).groups)) = true then u.attn.raise 7
        else u.attn } : State).schedule := by
  unfold State.regroupFrom
  dsimp only
  rw [if_neg (Nat.not_lt_zero _), regroupCore_empty hIntake hMode]

theorem Halts.rests {s t : State} (h : Halts s t) (hRest : ∀ c : Chan, s.seqs[c].run = .none → s.seqs[c].coupling = .detached)
    (c : Chan) (hRun : t.seqs[c].run = .none) : t.seqs[c].coupling = .detached := by
  rcases h.chans c with hSame | hStopped
  · have hSeq : t.seqs[c] = s.seqs[c] := congrArg Prod.fst hSame
    rw [hSeq] at hRun ⊢
    exact hRest c hRun
  · rw [show t.seqs[c] = _ from congrArg Prod.fst hStopped]
    rfl

theorem runningCount_empty {s : State} (h : s.intake = []) : runningCount s = 0 := by
  unfold runningCount
  rw [h]
  rfl

theorem Safe.bare {s u : State} (h : Safe s) (hIntake : u.intake = []) (hGroups : u.groups = s.groups) (hWiring : u.wiring = s.wiring) :
    Bare u := by
  refine ⟨hIntake, fun l m c hInject hWired => h.injects_wired (c := c) ?_ ?_⟩
  · unfold injectorOf at hInject ⊢
    rw [hGroups] at hInject
    exact hInject
  · unfold wiredInto membersOf at hWired ⊢
    rw [hGroups, hWiring] at hWired
    exact hWired

/-- What a regroup leaves in IDLE with no order taken. -/
theorem regroup_idle {u : State} (hBare : Bare u) (hSound : intakeSound u) (hMode : u.mode = .idle)
    (hRest : ∀ c : Chan, u.seqs[c].run = .none → u.seqs[c].coupling = .detached) :
    (∀ (l : GroupId) (g : Group) (c : Chan), u.groups[l] = some g →
        ((u.regroupFrom 0 false).groups[l]).map (·.members) = some g.members → g.injector = some c →
        mayInject (u.regroupFrom 0 false) l c → readyPlan (u.regroupFrom 0 false) l ≠ none → g.waitPlan = false →
        (u.regroupFrom 0 false).groups[l] = some g)
    ∧ (∀ (l : GroupId) (g : Group), (u.regroupFrom 0 false).groups[l] = some g → (u.groups[l]).map (·.members) ≠ some g.members →
        g.seriesCount = 0 ∧ g.series = .none ∧ lowestInjects (u.regroupFrom 0 false) l g ∧ settleStarted (u.regroupFrom 0 false) l g)
    ∧ (has8 (u.regroupFrom 0 false).attn.pending 7 = true ↔ has8 u.attn.pending 7 = true ∨ ∃ l : GroupId,
        ((u.regroupFrom 0 false).groups[l]).map (·.members) ≠ (u.groups[l]).map (·.members)
        ∨ injectorOf (u.regroupFrom 0 false) l ≠ injectorOf u l) := by
  have hHalts := regroupTable_halts hBare.intake false
  have hMeasuring := (Working.regroupFrom u 0 false).measuring
  have hTable := (regroupFrom_sound u 0 false hSound).table
  have hFormed := fun (l : GroupId) (g : Group) => regroupFrom_formed hSound 0 (l := l) (g := g)
  have hAlone := fun (l : GroupId) (g : Group) (c : Chan) => regroupTable_undisturbed hBare.intake (fresh := false) (l := l) (g := g) (c := c)
  have hNew := fun (l : GroupId) (g : Group) => regroupTable_formed hBare.intake (fresh := false) (l := l) (g := g)
  have hNoticed := noticed_iff u (u.regroupTable false)
  have hEnd := regroupFrom_empty hBare.intake (by rw [hMode]; decide)
  have hIntakeEnd : (u.regroupFrom 0 false).intake = [] ∧ (u.regroupFrom 0 false).groups = (u.regroupTable false).groups
      ∧ (u.regroupFrom 0 false).attn = if (false || decide (tableSignature u.groups ≠ tableSignature (u.regroupTable false).groups)) = true
        then u.attn.raise 7 else u.attn := by
    have hIntake := hHalts.intake hBare.intake
    have hModeT : (u.regroupTable false).mode = .idle := by
      rw [hHalts.frame]
      exact hMode
    have hRests := hHalts.rests hRest
    rw [hEnd]
    generalize u.regroupTable false = w at hIntake hModeT hRests ⊢
    obtain ⟨v, hv⟩ : ∃ v : State, v = { w with
      attn := if (false || decide (tableSignature u.groups ≠ tableSignature w.groups)) = true then u.attn.raise 7 else u.attn } := ⟨_, rfl⟩
    rw [← hv, schedule_idle (noneWaits_empty (by rw [hv]; exact hIntake)) (by rw [hv]; show w.mode ≠ _; rw [hModeT]; decide)
      (by rw [hv]; show w.mode ≠ _; rw [hModeT]; decide), detachIdle_idle (by rw [hv]; exact hRests), hv]
    exact ⟨hIntake, rfl, rfl⟩
  clear hEnd
  generalize u.regroupFrom 0 false = t at *
  obtain ⟨hIntakeEnd, hGroups, hAttn⟩ := hIntakeEnd
  refine ⟨fun l g c hGroup hMembers hInject hMay hReady hWaits => ?_, fun l g hGroup hChanged => ?_, ?_⟩
  · rw [hGroups]
    exact (hAlone l g c (undisturbed_of hBare hMeasuring hTable hGroup hMembers hInject hMay hReady hWaits)).1
  · have hLost := not_kept hTable hMeasuring.links_eq (by rw [hGroup, Option.map_some]) hChanged
    obtain ⟨hSeries, hCount⟩ := hNew l g hLost (by rw [← hGroups]; exact hGroup)
    exact ⟨hCount, hSeries, hFormed l g hLost hGroup (checkInProgress_empty hIntakeEnd l)⟩
  · rw [hAttn, hNoticed]
    unfold injectorOf
    rw [hGroups]

end Sys2Proof.Machine
end

section
/-! PROOFS. The regroup of RUN with no order taken, and what a write of node settings and links brings. -/

namespace Sys2Proof.Machine

theorem Sound.ownInjector {s : State} (h : Sound s) {l : GroupId} {c : Chan} (hInject : injectorOf s l = some c) : ownInjector s l c :=
  fun m hm => h.table.wired_unique (h.injectors m c hm).1 (h.injectors l c hInject).1

/-- A stopped series that starts again on the same channel waits for the channel's verify. -/
theorem waitingRun_stopped {q : Seq} (hRun : q.run = .series) (copy : RunCopy) :
    waitingRun (stoppedSeq q) .series none copy = { waitingRun q .series none copy with coupling := .detached } := by
  unfold stoppedSeq
  rw [if_pos (.inl hRun)]
  rfl

theorem runStarted_held {s : State} {c : Chan} (hDetached : s.seqs[c].coupling = .detached) (hVerify : s.safety[c].verify ≠ none)
    (kind : RunKind) (owner : Option SlotId) (copy : RunCopy) :
    runStarted s c kind owner copy = waitingRun s.seqs[c] kind owner copy := by
  refine if_neg ?_
  rintro (h | h)
  · rw [hDetached] at h
    exact nomatch h
  · cases hFound : groupOfInjector s c with
    | none =>
      unfold mayAttach at h
      rw [hFound] at h
      exact nomatch h
    | some l =>
      obtain ⟨g, hGroup, -⟩ := groupOfInjector_group hFound
      exact hVerify (((mayAttach_iff hFound hGroup).mp h).2 c (.inl rfl))

/-- The scheduler in RUN with no order taken, told of one group and of one channel. -/
structure Started (v t : State) : Prop where
  shape : ∀ m : GroupId, (t.groups[m]).map (fun g => (g.members, g.injector)) = (v.groups[m]).map fun g => (g.members, g.injector)
  idle : ∀ l : GroupId, startable v l = false → t.groups[l] = v.groups[l]
  started : ∀ (l : GroupId) (g : Group) (c : Chan) (p : PlanId), readyToMeasure v l g c p →
    t.groups[l] = some (ownGroup v g .series p) ∧ t.seqs[c] = runStarted v c .series none (runCopy v c p)
      ∧ t.safety[c] = safetyStarted v c
  chans : ∀ c : Chan, (v.seqs[c].run = .none → v.seqs[c].coupling = .detached) →
    (∀ l : GroupId, startable v l = true → injectorOf v l ≠ some c) → chanView c t = chanView c v

theorem schedule_runs {v : State} (h : Sound v) (hIntake : v.intake = []) (hMode : v.mode = .run) : Started v v.schedule := by
  have hNone := noneWaits_empty hIntake
  have hSchedule : v.schedule = v.startAll.detachIdle := schedule_run hNone hMode
  have hGroups : v.schedule.groups = v.startAll.groups := by
    rw [hSchedule, detachIdle_frame]
  have hView (c : Chan) (hRest : v.startAll.seqs[c].run = .none → v.startAll.seqs[c].coupling = .detached) :
      chanView c v.schedule = chanView c v.startAll := by
    obtain ⟨hSeq, hSafety⟩ := detachIdle_chan v.startAll c
    rw [hSchedule]
    exact chanView_eq (hSeq.trans (restedSeq_self hRest)) (hSafety.trans (restedSafety_self hRest _))
  refine ⟨fun m => ?_, fun l hl => ?_, fun l g c p hReady => ?_, fun c hRest hNot => ?_⟩
  · rw [hGroups]
    exact (startAll_runs v).shape m
  · rw [hGroups]
    exact startAll_group hl
  · have hInject : injectorOf v l = some c := (injectorOf_some hReady.1).trans hReady.2.2.2.1
    obtain ⟨hGroup, hSeq, hSafety⟩ := startAll_started hNone hReady (checkInProgress_empty hIntake l) (h.ownInjector hInject)
    have hRunning : v.startAll.seqs[c].run = .none → v.startAll.seqs[c].coupling = .detached := by
      intro hRun
      rw [hSeq] at hRun
      unfold runStarted at hRun
      split_ifs at hRun <;> exact nomatch hRun
    have hSame := hView c hRunning
    refine ⟨?_, (congrArg Prod.fst hSame).trans hSeq, (congrArg Prod.snd hSame).trans hSafety⟩
    rw [hGroups]
    exact hGroup
  · have hSame := startAll_chan hNot
    refine (hView c ?_).trans hSame
    rw [show v.startAll.seqs[c] = v.seqs[c] from congrArg Prod.fst hSame]
    exact hRest

/-- A regroup in RUN with no order taken: the state before the scheduler acts, and what it starts. -/
structure RunRegroup (u v t : State) : Prop where
  measuring : Measuring u t
  table : tableAgrees t
  sound : Sound v
  starts : Started v t
  intake : v.intake = []
  plans : v.nodePlan = u.nodePlan ∧ v.plans = u.plans ∧ v.wiring = u.wiring
  chosen : ∀ (l : GroupId) (g : Group), keepsGroup false (partition u.links) u.groups l = false → t.groups[l] = some g →
    lowestInjects t l g ∧ settleStarted t l g
  formed : ∀ (l : GroupId) (g : Group), keepsGroup false (partition u.links) u.groups l = false → v.groups[l] = some g →
    g.series = .none ∧ g.seriesCount = 0
  kept : ∀ (l : GroupId) (g : Group) (c : Chan), Undisturbed u false l g c → v.groups[l] = some g ∧ chanView c v = chanView c u
  stopped : ∀ (l : GroupId) (g : Group) (c : Chan), u.groups[l] = some g → keepsGroup false (partition u.links) u.groups l = false →
    ownActive g.series → g.injector = some c → chanView c v = (stoppedSeq u.seqs[c], stoppedSafety u.seqs[c] u.safety[c])

theorem Halts.fields {s t : State} (h : Halts s t) : t.mode = s.mode ∧ t.nodePlan = s.nodePlan ∧ t.plans = s.plans
    ∧ t.wiring = s.wiring := by
  have hFrame := h.frame
  generalize t.groups = groups, t.seqs = seqs, t.safety = safety, t.park = park at hFrame
  rw [hFrame]
  exact ⟨rfl, rfl, rfl, rfl⟩

theorem regroupFrom_run {u : State} (hIntake : u.intake = []) (hSound : intakeSound u) (hMode : u.mode = .run) :
    ∃ v : State, RunRegroup u v (u.regroupFrom 0 false) := by
  have hHalts := regroupTable_halts hIntake false
  have hMeasuring := (Working.regroupFrom u 0 false).measuring
  have hTable := (regroupFrom_sound u 0 false hSound).table
  have hChosen := fun (l : GroupId) (g : Group) => regroupFrom_formed hSound 0 (l := l) (g := g)
  have hKept := fun (l : GroupId) (g : Group) (c : Chan) => regroupTable_undisturbed hIntake (fresh := false) (l := l) (g := g) (c := c)
  have hFormed := fun (l : GroupId) (g : Group) => regroupTable_formed hIntake (fresh := false) (l := l) (g := g)
  have hStopped := fun (l : GroupId) (g : Group) (c : Chan) => regroupTable_stopped hIntake (fresh := false) (l := l) (g := g) (c := c)
  have hEnd := regroupFrom_empty hIntake (by rw [hMode]; decide)
  have hSoundV := regroupCore_sound u false hSound
  rw [regroupCore_empty hIntake (by rw [hMode]; decide) false] at hSoundV
  have hIntakeW := hHalts.intake hIntake
  obtain ⟨hModeW, hPlansW⟩ := hHalts.fields
  generalize u.regroupTable false = w at *
  generalize hv : ({ w with
    attn := if (false || decide (tableSignature u.groups ≠ tableSignature w.groups)) = true then u.attn.raise 7
      else u.attn } : State) = v at *
  have hIntakeV : v.intake = [] := by
    rw [← hv]
    exact hIntakeW
  have hModeV : v.mode = .run := by
    rw [← hv]
    exact hModeW.trans hMode
  have hStarts := schedule_runs hSoundV hIntakeV hModeV
  have hIntakeEnd : (u.regroupFrom 0 false).intake = [] := by
    have hOwn := (startAll_runs v).frame
    rw [hEnd, show v.schedule = v.startAll.detachIdle from schedule_run (noneWaits_empty hIntakeV) hModeV, detachIdle_frame]
    generalize v.startAll = x at hOwn
    show x.intake = []
    rw [hOwn]
    exact hIntakeV
  rw [← hEnd] at hStarts
  refine ⟨v, hMeasuring, hTable, hSoundV, hStarts, hIntakeV, ?_, fun l g hLost hGroup =>
    hChosen l g hLost hGroup (checkInProgress_empty hIntakeEnd l), ?_, ?_, ?_⟩
  · rw [← hv]
    exact hPlansW
  · rw [← hv]
    exact hFormed
  · rw [← hv]
    exact hKept
  · rw [← hv]
    exact hStopped

theorem RunRegroup.ready {u v t : State} (h : RunRegroup u v t) (l : GroupId) : readyPlan v l = readyPlan t l := by
  obtain ⟨hNodePlan, hPlans, -⟩ := h.plans
  rw [readyPlan_of h.measuring l]
  unfold readyPlan nodePlanCopy
  rw [hNodePlan, hPlans]

theorem RunRegroup.startable {u v t : State} (h : RunRegroup u v t) {l : GroupId} (hl : Machine.startable v l = true) :
    ∃ (g : Group) (c : Chan) (p : PlanId), readyToMeasure v l g c p :=
  ((startable_iff (noneWaits_empty h.intake) l).mp hl).1

theorem RunRegroup.busy {u v t : State} (h : RunRegroup u v t) {l : GroupId} {g : Group} (hGroup : v.groups[l] = some g)
    (hBusy : g.series ≠ .none) : Machine.startable v l = false := by
  cases hl : Machine.startable v l with
  | false => rfl
  | true =>
    obtain ⟨x, c, p, hx, -, hFree, -⟩ := h.startable hl
    rw [hGroup] at hx
    rw [Option.some.inj hx] at hBusy
    exact absurd hFree hBusy

/-- A newly formed group that is measurable is one that the scheduler starts. -/
theorem RunRegroup.measurable {u v t : State} (h : RunRegroup u v t) {l : GroupId} {g : Group}
    (hNew : keepsGroup false (partition u.links) u.groups l = false) (hGroup : v.groups[l] = some g)
    (hEnd : t.groups[l] = some g) (hMeasurable : g.measurable = true) : Machine.startable v l = true := by
  obtain ⟨-, hNone, hUnready, -⟩ := h.chosen l g hNew hEnd
  cases hInject : g.injector with
  | none => exact absurd ((hNone hInject).2.symm.trans hMeasurable) (by decide)
  | some c =>
    have hPlan : readyPlan v l ≠ none := fun hNo =>
      absurd ((hUnready (by rw [hInject]; exact fun e => nomatch e) ((h.ready l).symm.trans hNo)).2.1.symm.trans hMeasurable) (by decide)
    obtain ⟨p, hNodePlan, hReady⟩ := readyPlan_isSome.mp (Option.isSome_iff_ne_none.mpr hPlan)
    exact (startable_iff (noneWaits_empty h.intake) l).mpr
      ⟨⟨g, c, p, hGroup, hMeasurable, (h.formed l g hNew hGroup).1, hInject, hNodePlan, hReady⟩, checkInProgress_empty h.intake l⟩

/-- A newly formed group has no series, or its first. -/
theorem RunRegroup.formed_series {u v t : State} (h : RunRegroup u v t) {l : GroupId} {g : Group}
    (hNew : keepsGroup false (partition u.links) u.groups l = false) (hGroup : t.groups[l] = some g) :
    (g.measurable = false → g.series = .none ∧ g.seriesCount = 0) ∧ (g.measurable = true → g.series = .series ∧ g.seriesCount = 1) := by
  cases hCan : Machine.startable v l with
  | true =>
    obtain ⟨x, c, p, hReady⟩ := h.startable hCan
    obtain ⟨-, hCount⟩ := h.formed l x hNew hReady.1
    have hHere := Option.some.inj (hGroup.symm.trans (h.starts.started l x c p hReady).1)
    rw [hHere]
    refine ⟨fun hNot => absurd (hReady.2.1.symm.trans hNot) (by decide), fun _ => ⟨rfl, ?_⟩⟩
    show x.seriesCount + 1 = 1
    rw [hCount]
    rfl
  | false =>
    have hGroupV : v.groups[l] = some g := (h.starts.idle l hCan).symm.trans hGroup
    exact ⟨fun _ => h.formed l g hNew hGroupV, fun hMeasurable =>
      nomatch hCan.symm.trans (h.measurable hNew hGroupV hGroup hMeasurable)⟩

/-- The channel of a series whose group a regroup does not keep: stopped, and started again where a group has it then. -/
theorem RunRegroup.stopped_chan {u v t : State} (h : RunRegroup u v t) (hBare : Bare u) {l : GroupId} {g : Group} {c : Chan}
    (hGroup : u.groups[l] = some g) (hInject : g.injector = some c) (hLost : keepsGroup false (partition u.links) u.groups l = false)
    (hActive : ownActive g.series) (hRun : u.seqs[c].run = .series) :
    (u.seqs[c].coupling = .attached → t.safety[c] = { u.safety[c] with verify := some 5 })
    ∧ ((∀ (m : GroupId) (x : Group), t.groups[m] = some x → x.injector = some c → x.measurable = false) →
        t.seqs[c] = { runOver u.seqs[c] with coupling := .detached })
    ∧ ∀ (m : GroupId) (x : Group) (p : PlanId), t.groups[m] = some x → x.injector = some c → x.measurable = true →
        t.nodePlan[m] = some p → u.seqs[c].coupling = .attached →
        t.seqs[c] = { waitingRun u.seqs[c] .series none ⟨t.plans[p], some p, u.wiring[c].rm, u.wiring[c].rs⟩ with
          coupling := .detached } := by
  obtain ⟨hNodePlan, hPlans, hWiring⟩ := h.plans
  have hStopped := h.stopped l g c hGroup hLost hActive hInject
  have hSeq : v.seqs[c] = stoppedSeq u.seqs[c] := congrArg Prod.fst hStopped
  have hSafety : v.safety[c] = stoppedSafety u.seqs[c] u.safety[c] := congrArg Prod.snd hStopped
  have hOver : stoppedSeq u.seqs[c] = { runOver u.seqs[c] with coupling := .detached } := by
    unfold stoppedSeq
    rw [if_pos (.inl hRun)]
  have hVerify (hAttached : u.seqs[c].coupling = .attached) : v.safety[c] = { u.safety[c] with verify := some 5 } := by
    rw [hSafety]
    exact if_pos hAttached
  have hNoRun : v.seqs[c].run = .none := by
    rw [hSeq, hOver]
    rfl
  have hFree (hNot : ∀ m : GroupId, Machine.startable v m = true → injectorOf v m ≠ some c) :
      t.seqs[c] = v.seqs[c] ∧ t.safety[c] = v.safety[c] := by
    have hSame := h.starts.chans c (fun _ => by rw [hSeq]; rfl) hNot
    exact ⟨congrArg Prod.fst hSame, congrArg Prod.snd hSame⟩
  have hTaken (m : GroupId) (hm : Machine.startable v m = true) (hInj : injectorOf v m = some c) :
      ∃ (x : Group) (p : PlanId), readyToMeasure v m x c p := by
    obtain ⟨x, d, p, hReady⟩ := h.startable hm
    have hSame : some d = some c := hReady.2.2.2.1.symm.trans ((injectorOf_some hReady.1).symm.trans hInj)
    exact ⟨x, p, Option.some.inj hSame ▸ hReady⟩
  refine ⟨fun hAttached => ?_, fun hNone => ?_, fun m x p hm hInj hMeasurable hPlan hAttached => ?_⟩
  · by_cases hAny : ∃ m : GroupId, Machine.startable v m = true ∧ injectorOf v m = some c
    · obtain ⟨m, hm, hInj⟩ := hAny
      obtain ⟨x, p, hReady⟩ := hTaken m hm hInj
      rw [(h.starts.started m x c p hReady).2.2]
      unfold safetyStarted
      rw [if_pos hNoRun, hVerify hAttached]
    · rw [(hFree fun m hm hInj => hAny ⟨m, hm, hInj⟩).2, hVerify hAttached]
  · rw [(hFree fun m hm hInj => ?_).1, hSeq, hOver]
    obtain ⟨x, p, hReady⟩ := hTaken m hm hInj
    have hHere := hNone m _ (h.starts.started m x c p hReady).1 hReady.2.2.2.1
    exact absurd (hReady.2.1.symm.trans hHere) (by decide)
  · obtain ⟨y, hy, hSame⟩ : ∃ y : Group, v.groups[m] = some y ∧ (y.members, y.injector) = (x.members, x.injector) := by
      have hShape := h.starts.shape m
      rw [hm, Option.map_some] at hShape
      exact Option.map_eq_some_iff.mp hShape.symm
    have hMembersY : y.members = x.members := congrArg Prod.fst hSame
    have hInjY : y.injector = some c := (congrArg Prod.snd hSame).trans hInj
    have hInjV : injectorOf v m = some c := (injectorOf_some hy).trans hInjY
    have hNewM : keepsGroup false (partition u.links) u.groups m = false := by
      cases hKept : keepsGroup false (partition u.links) u.groups m with
      | false => rfl
      | true =>
        have hWired := (h.sound.injectors m c hInjV).1
        have hMembers : membersOf v m = membersOf u m := by
          refine membersOf_of_map (Eq.trans ?_ (kept_members h.table h.measuring.links_eq hKept))
          rw [hy, hm, Option.map_some, Option.map_some, hMembersY]
        rw [hMembers] at hWired
        unfold wiredInto at hWired
        rw [hWiring] at hWired
        have hOwn := hBare.unique m l c ((injectorOf_some hGroup).trans hInject) hWired
        rw [hOwn, hKept] at hLost
        exact nomatch hLost
    have hCan : Machine.startable v m = true := by
      cases hCan : Machine.startable v m with
      | true => rfl
      | false =>
        have hEqual := Option.some.inj (hm.symm.trans ((h.starts.idle m hCan).trans hy))
        rw [hEqual] at hm hMeasurable
        exact hCan.symm.trans (h.measurable hNewM hy hm hMeasurable)
    obtain ⟨y', p', hReady⟩ := hTaken m hCan hInjV
    have hPlanSame : p' = p := Option.some.inj (hReady.2.2.2.2.1.symm.trans (by rw [hNodePlan, ← h.measuring.nodePlan_eq, hPlan]))
    subst hPlanSame
    rw [(h.starts.started m y' c p' hReady).2.1, runStarted_held (by rw [hSeq]; rfl)
      (by rw [hVerify hAttached]; exact fun e => nomatch e), hSeq, waitingRun_stopped hRun]
    unfold runCopy
    rw [hPlans, hWiring, h.measuring.plans_eq]

/-- The series of a group that a regroup keeps goes on undisturbed. -/
theorem RunRegroup.kept_series {u v t : State} (h : RunRegroup u v t) {l : GroupId} {g : Group} {c : Chan}
    (hKept : Undisturbed u false l g c) (hActive : g.series = .series ∨ g.series = .stopping) (hRun : u.seqs[c].run = .series) :
    t.groups[l] = some g ∧ t.seqs[c] = u.seqs[c] ∧ t.safety[c] = u.safety[c] := by
  obtain ⟨hGroup, hView⟩ := h.kept l g c hKept
  have hSeq : v.seqs[c] = u.seqs[c] := congrArg Prod.fst hView
  have hSafety : v.safety[c] = u.safety[c] := congrArg Prod.snd hView
  have hBusy := h.busy hGroup (by rcases hActive with e | e <;> rw [e] <;> exact fun e => nomatch e)
  have hSame := h.starts.chans c (fun hNone => by rw [hSeq, hRun] at hNone; exact nomatch hNone) fun m hm hInj => by
    have hOwn := h.sound.ownInjector ((injectorOf_some hGroup).trans hKept.injector) m hInj
    rw [hOwn, hBusy] at hm
    exact nomatch hm
  exact ⟨(h.starts.idle l hBusy).trans hGroup, (congrArg Prod.fst hSame).trans hSeq, (congrArg Prod.snd hSame).trans hSafety⟩

/-- Settles O21: with no order taken every group is kept undisturbed, stopped, or newly formed, and the scheduler starts what is
ready. -/
theorem regroupFormsGroups : Obligations.RegroupFormsGroups := by
  unfold Obligations.RegroupFormsGroups
  refine ⟨fun s nodes links hEnd hSafe ⟨hMode, hIntake, hRest⟩ hWatch hWritten => ?_,
    fun s nodes links hEnd hSafe hMode hIntake hPending hRest hWatch hWritten => ?_⟩
  · obtain ⟨u, hFrame, hExec⟩ := exec_nodesLinks hEnd hWatch hWritten
    rw [runningCount_empty hIntake] at hExec
    obtain ⟨hGroups, hSeqs, hWiring, hIntakeU, hSlots, hModeU, hAttn⟩ : u.groups = s.groups ∧ u.seqs = s.seqs ∧ u.wiring = s.wiring
        ∧ u.intake = s.intake ∧ u.slots = s.slots ∧ u.mode = s.mode ∧ u.attn = s.attn := by
      rw [hFrame]
      exact ⟨rfl, rfl, rfl, rfl, rfl, rfl, rfl⟩
    have hSound : intakeSound u := by
      unfold intakeSound
      rw [hIntakeU, hSlots]
      exact hSafe.sound.intake
    have hLeft := regroup_idle (hSafe.bare (hIntakeU.trans hIntake) hGroups hWiring) hSound (hModeU.trans hMode)
      (by rw [hSeqs]; exact hRest)
    rw [hGroups, hAttn] at hLeft
    have hInjectors (l : GroupId) : injectorOf u l = injectorOf s l := by
      unfold injectorOf
      rw [hGroups]
    simp only [hInjectors] at hLeft
    exact ⟨_, hExec, hLeft⟩
  · obtain ⟨u, hFrame, hExec⟩ := exec_nodesLinks hEnd hWatch hWritten
    rw [runningCount_empty hIntake] at hExec
    obtain ⟨hGroups, hSeqs, hWiring, hIntakeU, hSlots, hModeU, hSafety, hPendingU⟩ : u.groups = s.groups ∧ u.seqs = s.seqs
        ∧ u.wiring = s.wiring ∧ u.intake = s.intake ∧ u.slots = s.slots ∧ u.mode = s.mode ∧ u.safety = s.safety
        ∧ u.parkedPending = s.parkedPending := by
      rw [hFrame]
      exact ⟨rfl, rfl, rfl, rfl, rfl, rfl, rfl, rfl⟩
    have hSound : intakeSound u := by
      unfold intakeSound
      rw [hIntakeU, hSlots]
      exact hSafe.sound.intake
    have hBare := hSafe.bare (hIntakeU.trans hIntake) hGroups hWiring
    obtain ⟨v, hRun⟩ := regroupFrom_run (hIntakeU.trans hIntake) hSound (hModeU.trans hMode)
    refine ⟨_, hExec, ?_⟩
    generalize u.regroupFrom 0 false = t at hRun
    have hLinks := hRun.measuring.links_eq
    rw [← hGroups, ← hSeqs, ← hSafety, ← hWiring]
    refine ⟨(hRun.measuring.calm (hPendingU.trans hPending)).1.trans (hModeU.trans hMode), fun l g hGroup hChanged => ?_,
      fun l g c hGroup hInject hChanged hActive hSeries => ?_,
      fun l g c hGroup hMembers hInject hMay hReady hWaits hActive hSeries => ?_⟩
    · have hNew := not_kept hRun.table hLinks (by rw [hGroup, Option.map_some]) hChanged
      obtain ⟨hLowest, hSettle⟩ := hRun.chosen l g hNew hGroup
      exact ⟨hLowest, hSettle, hRun.formed_series hNew hGroup⟩
    · have hLost : keepsGroup false (partition u.links) u.groups l = false := by
        cases hKept : keepsGroup false (partition u.links) u.groups l with
        | false => rfl
        | true => exact absurd ((kept_members hRun.table hLinks hKept).trans (by rw [hGroup, Option.map_some])) hChanged
      exact hRun.stopped_chan hBare hGroup hInject hLost (hActive.imp id .inl) hSeries
    · exact hRun.kept_series (undisturbed_of hBare hRun.measuring hRun.table hGroup hMembers hInject hMay hReady hWaits) hActive hSeries

end Sys2Proof.Machine
end

section
/-! PROOFS. The scheduler where one SPOT waits: when it is granted, and what goes on where it is not. -/

namespace Sys2Proof.Machine

/-! ### The dispatch check of a SPOT (R126) -/

theorem spotCheck_none {s : State} {l : GroupId} {g : Group} (hGroup : s.groups[l] = some g) (p : PlanId) :
    spotCheck s l p = none ↔ s.plans[p].ready = true ∧ groupPassive s g = false ∧ lowestEligible s g ≠ none := by
  have hState : groupState s l = groupStateOf s l g := by
    unfold groupState
    rw [hGroup]
  have hOther : groupPassive s g = false → lowestEligible s g ≠ none →
      groupStateOf s l g ≠ .passive ∧ groupStateOf s l g ≠ .held ∧ groupStateOf s l g ≠ .noChannel := by
    intro hActive hSome
    unfold groupStateOf
    rw [hActive, if_neg Bool.false_ne_true, if_neg (by simpa using hSome)]
    split_ifs
    · decide
    · decide
    · decide
    · cases s.mode <;> cases g.series <;> decide
  unfold spotCheck
  rw [hState]
  cases hReady : s.plans[p].ready with
  | false => simp
  | true =>
    rw [if_neg (by decide)]
    cases hPassive : groupPassive s g with
    | true =>
      have hHere : groupStateOf s l g = .passive := by
        unfold groupStateOf
        rw [hPassive, if_pos rfl]
      rw [hHere]
      simp
    | false =>
      by_cases hLowest : lowestEligible s g = none
      · have hHere : groupStateOf s l g = .held ∨ groupStateOf s l g = .noChannel := by
          unfold groupStateOf
          rw [hPassive, hLowest, if_neg Bool.false_ne_true, Option.isNone_none, if_pos rfl]
          split_ifs
          · exact .inl rfl
          · exact .inr rfl
        rcases hHere with hHere | hHere <;> rw [hHere] <;> simp [hLowest]
      · obtain ⟨h1, h2, h3⟩ := hOther hPassive hLowest
        cases hKind : groupStateOf s l g <;> simp_all

/-- A group whose state is neither PASSIVE nor HELD nor NO_CHANNEL has an eligible channel. -/
theorem groupState_admits {s : State} {l : GroupId} {g : Group} (hGroup : s.groups[l] = some g) (hPassive : groupState s l ≠ .passive)
    (hHeld : groupState s l ≠ .held) (hChannel : groupState s l ≠ .noChannel) :
    groupPassive s g = false ∧ lowestEligible s g ≠ none := by
  have hState : groupState s l = groupStateOf s l g := by
    unfold groupState
    rw [hGroup]
  rw [hState] at hPassive hHeld hChannel
  unfold groupStateOf at hPassive hHeld hChannel
  refine ⟨?_, fun hNone => ?_⟩
  · cases h : groupPassive s g with
    | false => rfl
    | true =>
      rw [h, if_pos rfl] at hPassive
      exact absurd rfl hPassive
  · cases h : groupPassive s g with
    | true =>
      rw [h, if_pos rfl] at hPassive
      exact absurd rfl hPassive
    | false =>
      rw [h, hNone, if_neg Bool.false_ne_true, Option.isNone_none, if_pos rfl] at hHeld hChannel
      split_ifs at hHeld hChannel <;> contradiction

/-- What a SPOT's dispatch check reads stands: members and yields, and who is eligible. -/
theorem spotCheck_congr {s t : State} {l : GroupId} {g g' : Group} {p : PlanId} (hGroup : t.groups[l] = some g')
    (hReady : t.plans[p].ready = true) (hMembers : g'.members = g.members) (hYields : t.yields = s.yields)
    (hEligible : ∀ d : Chan, eligible t g' d = eligible s g d) (h : groupPassive s g = false ∧ lowestEligible s g ≠ none) :
    spotCheck t l p = none := by
  refine (spotCheck_none hGroup p).mpr ⟨hReady, ?_, ?_⟩
  · unfold groupPassive
    rw [hMembers, hYields]
    exact h.1
  · have hSame : lowestEligible t g' = lowestEligible s g := by
      unfold lowestEligible
      exact congrArg (fun f => List.find? f allChans) (funext hEligible)
    rw [hSame]
    exact h.2

/-! ### A SPOT granted (R104, R126, R132) -/

/-- The intake list once an order of a slot runs. -/
def runningNow (intake : List Order) (n : SlotId) : List Order := intake.map fun o => if o.slot = n then { o with phase := .running } else o

theorem grant_spot {s : State} {o : Order} {node : NodeId} {p : PlanId} {g : Group} {c : Chan} (hJob : o.job = .spot node p)
    (hGroup : s.groups[o.group] = some g) (hInject : g.injector = some c) (hReady : s.plans[p].ready = true)
    (hAdmits : groupPassive s g = false ∧ lowestEligible s g ≠ none) : s.grant o = { s with
      groups := upd s.groups o.group (some { g with series := .order, seriesCount := g.seriesCount + 1 })
      intake := runningNow s.intake o.slot, mem := s.mem.write (slotAddr o.slot + 0x12) 2
      seqs := upd s.seqs c (runStarted s c .triple (some o.slot) (runCopy s c p)), safety := upd s.safety c (safetyStarted s c) } := by
  have hOrder : s.setSeries o.group .order = { s with groups := upd s.groups o.group (some { g with series := .order }) } :=
    modGroup_some hGroup _
  obtain ⟨u, hu⟩ : ∃ u : State, u = { s with groups := upd s.groups o.group (some { g with series := .order }) } := ⟨_, rfl⟩
  have hGroupU : u.groups[o.group] = some { g with series := .order } := by
    rw [hu]
    exact upd_same _ _ _
  have hCheck : spotCheck u o.group p = none := by
    refine spotCheck_congr (s := s) (g := g) hGroupU (by rw [hu]; exact hReady) rfl (by rw [hu]) (fun d => ?_) hAdmits
    rw [hu]
    rfl
  have hCounted : (u.setPhase o.slot .running).countSeries o.group = { u with
      groups := upd u.groups o.group (some { g with series := .order, seriesCount := g.seriesCount + 1 })
      intake := runningNow u.intake o.slot, mem := u.mem.write (slotAddr o.slot + 0x12) 2 } :=
    modGroup_some (s := u.setPhase o.slot .running) hGroupU _
  obtain ⟨v, hv⟩ : ∃ v : State, v = { u with
      groups := upd u.groups o.group (some { g with series := .order, seriesCount := g.seriesCount + 1 })
      intake := runningNow u.intake o.slot, mem := u.mem.write (slotAddr o.slot + 0x12) 2 } := ⟨_, rfl⟩
  have hMay : mayAttach v c = mayAttach s c := by
    refine mayAttach_congr (fun m => ?_) (by rw [hv, hu]) (by rw [hv, hu]) (fun d => by rw [hv, hu]) c
    rw [hv, hu]
    show ((upd (upd s.groups o.group _) o.group _)[m]).map _ = _
    by_cases hm : o.group = m
    · subst hm
      rw [upd_same, hGroup]
      rfl
    · rw [upd_other _ _ _ _ hm, upd_other _ _ _ _ hm]
  have hStarted : runStarted v c .triple (some o.slot) (runCopy u c p) = runStarted s c .triple (some o.slot) (runCopy s c p) := by
    have hCopy : runCopy u c p = runCopy s c p := by
      rw [hu]
      rfl
    rw [hCopy]
    exact runStarted_congr (by rw [hv, hu]) hMay _ _ _
  have hSafety : safetyStarted v c = safetyStarted s c := by
    unfold safetyStarted
    rw [hv, hu]
  unfold State.grant
  dsimp only
  rw [hOrder, ← hu, hJob]
  dsimp only
  rw [hCheck]
  unfold State.startSpot
  rw [hGroupU]
  dsimp only
  rw [hInject]
  dsimp only
  rw [hCounted, ← hv, startRun_eq (.inr rfl), hStarted, hSafety, hv, hu]
  simp only [upd_upd, hInject]

/-! ### One order waits -/

/-- One order waits, and no other. -/
structure SoleWaits (s : State) (o : Order) : Prop where
  mem : o ∈ s.intake
  waits : o.phase = .waiting
  sole : ∀ x ∈ s.intake, x.phase = .waiting → x = o

theorem SoleWaits.front {s : State} {o : Order} (h : SoleWaits s o) : frontOf s o.group = some o := by
  unfold frontOf
  cases hFound : s.intake.find? fun x => decide (x.phase = .waiting) && decide (x.group = o.group) with
  | none =>
    have hNot := List.find?_eq_none.mp hFound o h.mem
    simp [h.waits] at hNot
  | some x =>
    have hx := List.find?_some hFound
    rw [Bool.and_eq_true, decide_eq_true_eq, decide_eq_true_eq] at hx
    rw [h.sole x (List.mem_of_find?_eq_some hFound) hx.1]

theorem SoleWaits.frontElse {s : State} {o : Order} (h : SoleWaits s o) {l : GroupId} (hl : l ≠ o.group) : frontOf s l = none := by
  refine List.find?_eq_none.mpr fun x hx => ?_
  rw [Bool.and_eq_true, decide_eq_true_eq, decide_eq_true_eq]
  rintro ⟨hWaits, hGroup⟩
  rw [h.sole x hx hWaits] at hGroup
  exact hl hGroup.symm

theorem requestStop_noFront {s : State} {l : GroupId} (h : frontOf s l = none) : s.requestStop l = s := by
  unfold State.requestStop
  cases s.groups[l] with
  | none => rfl
  | some g =>
    cases hInjector : g.injector with
    | none => simp [hInjector]
    | some c => simp [hInjector, h]

theorem SoleWaits.requestStops {s : State} {o : Order} (h : SoleWaits s o) (hSeries : seriesOf s o.group ≠ .series) :
    forEach allNodes (fun l t => t.requestStop l) s = s :=
  forEach_unchanged _ _ _ fun l _ => by
    by_cases hl : l = o.group
    · subst hl
      exact requestStop_noSeries hSeries
    · exact requestStop_noFront (h.frontElse hl)

theorem SoleWaits.grantable_eq {s : State} {o x : Order} (h : SoleWaits s o) (hx : grantable s x = true) : x = o := by
  obtain ⟨hIn, hWaits⟩ := grantable_waiting hx
  exact h.sole x hIn hWaits

theorem SoleWaits.schedule_grants {s : State} {o : Order} (h : SoleWaits s o) (hGrant : grantable s o = true) :
    s.schedule = (scheduleAll 19 (s.grant o)).detachIdle := by
  have hSeries : seriesOf s o.group ≠ .series := by
    unfold grantable at hGrant
    rw [Bool.and_eq_true] at hGrant
    cases hGroup : s.groups[o.group] with
    | none =>
      rw [hGroup] at hGrant
      exact nomatch hGrant.2
    | some g =>
      rw [hGroup] at hGrant
      simp only [Bool.and_eq_true, decide_eq_true_eq] at hGrant
      rw [seriesOf_some hGroup, hGrant.2.1.1.1.1.1]
      decide
  have hOne : scheduleOne s = some (s.grant o) := by
    unfold scheduleOne
    have hFound : (s.intake.find? fun x => grantable s x) = some o := by
      cases hFind : s.intake.find? fun x => grantable s x with
      | none => exact absurd hGrant (List.find?_eq_none.mp hFind o h.mem)
      | some x => rw [h.grantable_eq (List.find?_some (p := fun x => grantable s x) hFind)]
    rw [hFound]
  unfold State.schedule scheduleFuel
  rw [scheduleAll]
  rw [h.requestStops hSeries, hOne]

/-! ### The waiting order's group does not let it go -/

/-- The measurement of the order's group is not free, or its timer runs. -/
structure Stuck (s : State) (o : Order) : Prop where
  sole : SoleWaits s o
  group : ∀ g : Group, s.groups[o.group] = some g → g.series ≠ .series ∧ (g.series ≠ .none ∨ g.settle ≠ none)

theorem Stuck.requestStops {s : State} {o : Order} (h : Stuck s o) : forEach allNodes (fun l t => t.requestStop l) s = s := by
  refine h.sole.requestStops ?_
  unfold seriesOf
  cases hGroup : s.groups[o.group] with
  | none => exact fun e => nomatch e
  | some g => exact (h.group g hGroup).1

theorem Stuck.ungranted {s : State} {o : Order} (h : Stuck s o) : (s.intake.find? fun x => grantable s x) = none := by
  refine List.find?_eq_none.mpr fun x _ hx => ?_
  have hSame := h.sole.grantable_eq hx
  subst hSame
  unfold grantable at hx
  rw [Bool.and_eq_true] at hx
  cases hGroup : s.groups[x.group] with
  | none =>
    rw [hGroup] at hx
    exact nomatch hx.2
  | some g =>
    rw [hGroup] at hx
    simp only [Bool.and_eq_true, decide_eq_true_eq, Option.isNone_iff_eq_none] at hx
    rcases (h.group g hGroup).2 with hBusy | hSettles
    · exact hBusy hx.2.1.1.1.1.1
    · exact hSettles hx.2.1.1.1.1.2

theorem Stuck.unstartable {s : State} {o : Order} (h : Stuck s o) : startable s o.group = false := by
  unfold startable
  rw [h.sole.front]
  simp

/-- A startable group is ready to measure. -/
theorem startable_ready {s : State} {l : GroupId} (h : startable s l = true) :
    ∃ (g : Group) (c : Chan) (p : PlanId), readyToMeasure s l g c p := by
  unfold startable at h
  simp only [Bool.and_eq_true, readyPlan_isSome] at h
  obtain ⟨⟨⟨hGroup, -⟩, p, hPlan, hReady⟩, -⟩ := h
  cases hg : s.groups[l] with
  | none =>
    rw [hg] at hGroup
    exact nomatch hGroup
  | some g =>
    rw [hg] at hGroup
    simp only [Bool.and_eq_true, decide_eq_true_eq, Option.isSome_iff_exists] at hGroup
    obtain ⟨⟨hMeasurable, hSeries⟩, c, hInject⟩ := hGroup
    exact ⟨g, c, p, hg, hMeasurable, hSeries, hInject, hPlan, hReady⟩

theorem startable_afterOwn {s : State} {l : GroupId} (hl : startable s l = true) (m : GroupId) :
    startable (s.startOwn l .series .series) m = (startable s m && decide (m ≠ l)) := by
  have hOwn := startOwn_ownRun s l
  obtain ⟨g, c, p, hGroup, -, -, hInject, hPlan, -⟩ := startable_ready hl
  by_cases hm : m = l
  · subst hm
    rw [startOwn_series hGroup hPlan hInject]
    have hNot : startable { s with
        groups := upd s.groups m (some (ownGroup s g .series p)), seqs := upd s.seqs c (runStarted s c .series none (runCopy s c p))
        safety := upd s.safety c (safetyStarted s c) } m = false := by
      unfold startable
      dsimp only
      rw [upd_same]
      simp [ownGroup]
    rw [hNot, decide_eq_false (not_not_intro rfl), Bool.and_false]
  · rw [decide_eq_true hm, Bool.and_true]
    have hFrame := hOwn.frame
    have hOther := hOwn.others m hm
    generalize s.startOwn l .series .series = t at hFrame hOther ⊢
    refine startable_congr hOther ?_ ?_ ?_
    · rw [hFrame]
    · rw [hFrame]
    · rw [hFrame]

theorem startables_afterOwn {s : State} {l : GroupId} {rest : List GroupId} (hl : startables s = l :: rest) :
    startables (s.startOwn l .series .series) = rest := by
  have hMem : startable s l = true := mem_startables.mp (hl ▸ List.mem_cons_self)
  have hNodup := startables_nodup s
  rw [hl] at hNodup
  have hNot := (List.nodup_cons.mp hNodup).1
  have hFilter : startables (s.startOwn l .series .series) = (startables s).filter fun m => decide (m ≠ l) := by
    unfold startables
    rw [List.filter_filter]
    exact List.filter_congr fun m _ => (startable_afterOwn hMem m).trans (Bool.and_comm _ _)
  rw [hFilter, hl, List.filter_cons_of_neg (by simp)]
  exact List.filter_eq_self.mpr fun m hm => decide_eq_true fun e => hNot (e ▸ hm)

theorem Stuck.startOwn {s : State} {o : Order} (h : Stuck s o) {l : GroupId} (hl : startable s l = true) :
    Stuck (s.startOwn l .series .series) o := by
  have hOther : o.group ≠ l := fun e => by
    rw [← e, h.unstartable] at hl
    exact nomatch hl
  have hOwn := startOwn_ownRun s l
  have hIntake : (s.startOwn l .series .series).intake = s.intake := by rw [hOwn.frame]
  refine ⟨⟨?_, h.sole.waits, ?_⟩, fun g hg => h.group g ((hOwn.others _ hOther).symm.trans hg)⟩
  · rw [hIntake]
    exact h.sole.mem
  · rw [hIntake]
    exact h.sole.sole

theorem Stuck.scheduleOne {s : State} {o : Order} (h : Stuck s o) (hMode : s.mode ≠ .parked) : scheduleOne s =
    if s.mode = .run then (allNodes.find? fun l => startable s l).map fun l => s.startOwn l .series .series else none := by
  unfold Machine.scheduleOne
  rw [h.ungranted]
  cases hKind : s.mode <;> simp_all

/-- While the order waits on, the scheduler starts in RUN every startable group. -/
theorem Stuck.scheduleAll_run {o : Order} : ∀ (n : Nat) (s : State), Stuck s o → s.mode = .run → (startables s).length ≤ n →
    scheduleAll n s = forEach (startables s) (fun l t => t.startOwn l .series .series) s := by
  intro n
  induction n with
  | zero =>
    intro s _ _ hLength
    rw [List.length_eq_zero_iff.mp (Nat.le_zero.mp hLength)]
    rfl
  | succ n ih =>
    intro s h hMode hLength
    have hOne := h.scheduleOne (by rw [hMode]; decide)
    rw [if_pos hMode, ← List.head?_filter] at hOne
    cases hList : startables s with
    | nil =>
      rw [show (allNodes.filter fun l => startable s l) = [] from hList] at hOne
      rw [scheduleAll]
      rw [h.requestStops, hOne]
      rfl
    | cons l rest =>
      rw [show (allNodes.filter fun l => startable s l) = l :: rest from hList] at hOne
      replace hOne : Machine.scheduleOne s = some (s.startOwn l .series .series) := hOne
      have hStart : startable s l = true := mem_startables.mp (hList ▸ List.mem_cons_self)
      have hRest := startables_afterOwn hList
      rw [scheduleAll]
      rw [h.requestStops, hOne]
      dsimp only
      rw [ih _ (h.startOwn hStart) (by rw [(startOwn_ownRun s l).frame]; exact hMode)
        (by rw [hRest]; rw [hList] at hLength; simpa using hLength), hRest]
      rfl

theorem Stuck.schedule_run {s : State} {o : Order} (h : Stuck s o) (hMode : s.mode = .run) : s.schedule = s.startAll.detachIdle := by
  have hLength : (startables s).length ≤ scheduleFuel := (List.length_filter_le _ _).trans (by decide)
  unfold State.schedule
  rw [Stuck.scheduleAll_run _ s h hMode hLength]
  rfl

theorem Stuck.schedule_idle {s : State} {o : Order} (h : Stuck s o) (hMode : s.mode = .idle) : s.schedule = s.detachIdle := by
  have hOne := h.scheduleOne (by rw [hMode]; decide)
  rw [if_neg (by rw [hMode]; decide)] at hOne
  unfold State.schedule scheduleFuel
  rw [scheduleAll]
  rw [h.requestStops, hOne]

end Sys2Proof.Machine
end

section
/-! PROOFS. The edges at which a series stops or its group's injector moves on. -/

namespace Sys2Proof.Machine

/-! ### What an edge does to the group of a series -/

/-- The group once an edge is counted, or its series is over. -/
def countedGroup (g : Group) (handed stopped : Bool) : Group :=
  if stopped then overGroup g else { g with rotation := counterAfter g handed }

theorem countEdge_eq {u : State} {l : GroupId} {g : Group} (hGroup : u.groups[l] = some g) (handed stopped : Bool) :
    u.countEdge l g handed stopped = { u with groups := upd u.groups l (some (countedGroup g handed stopped)) } := by
  unfold State.countEdge countedGroup
  cases stopped with
  | true => exact modGroup_some hGroup _
  | false => exact modGroup_some hGroup _

theorem movedGroup_cleared (s : State) (l : GroupId) (g : Group) (d : Chan) :
    { movedGroup s l g d with rotation := 0 } = movedGroup s l g d := by
  unfold movedGroup settledGroup
  cases readyPlan s l with
  | none => rfl
  | some p =>
    dsimp only [Option.elim]
    split_ifs <;> rfl

theorem movedGroup_counted (s : State) (l : GroupId) (g : Group) (handed stopped : Bool) (d : Chan) :
    movedGroup s l (countedGroup g handed stopped) d = movedGroup s l g d := by
  unfold movedGroup countedGroup
  cases stopped <;> rfl

theorem movedGroup_settles {s : State} {l : GroupId} {p : PlanCopy} (hPlan : readyPlan s l = some p) (hSettle : p.settle ≠ 0)
    (g : Group) (d : Chan) : movedGroup s l g d = { g with
      injector := some d, settle := some p.settle, waitPlan := false, measurable := false, series := .none, rotation := 0 } := by
  unfold movedGroup settledGroup
  rw [hPlan]
  exact if_neg hSettle

theorem nextInjector_counted (u : State) (g : Group) (handed stopped : Bool) (groups : Vector (Option Group) 8) (c : Chan) :
    nextInjector { u with groups := groups } (countedGroup g handed stopped) c = nextInjector u g c := by
  have hMembers : (countedGroup g handed stopped).members = g.members := by
    unfold countedGroup
    cases stopped <;> rfl
  exact nextInjector_congr (eligible_congr rfl rfl rfl hMembers (fun _ => ⟨rfl, rfl⟩) fun _ => Iff.rfl) c

theorem countedGroup_injector (g : Group) (handed stopped : Bool) : (countedGroup g handed stopped).injector = g.injector := by
  unfold countedGroup
  cases stopped <;> rfl

theorem detachUnclaimed_claimed {s : State} {l : GroupId} {stopped : Bool} (h : stopped = true → frontOf s l ≠ none) :
    s.detachUnclaimed l stopped = s := by
  unfold State.detachUnclaimed
  cases stopped with
  | false => rfl
  | true =>
    refine if_neg ?_
    simpa using h rfl

/-- The edge at which the injector of a group moves on (R107, R108). -/
theorem seriesEdge_moves {u : State} {l : GroupId} {g : Group} {c d : Chan} {handed stopped : Bool} (hGroup : u.groups[l] = some g)
    (hInject : g.injector = some c) (hDue : rotationDue g handed = true) (hNext : nextInjector u g c = d) (hd : d ≠ c)
    (hClaimed : stopped = true → frontOf u l ≠ none) : u.seriesEdge l handed stopped = ({ u with
      groups := upd u.groups l (some (movedGroup u l g d)), seqs := upd u.seqs c (stoppedSeq u.seqs[c])
      safety := upd u.safety c (stoppedSafety u.seqs[c] u.safety[c]) } : State).schedule := by
  obtain ⟨v, hv⟩ : ∃ v : State, v = { u with groups := upd u.groups l (some (countedGroup g handed stopped)) } := ⟨_, rfl⟩
  have hGroupV : v.groups[l] = some (countedGroup g handed stopped) := by
    rw [hv]
    exact upd_same _ _ _
  have hNextV : nextInjector v (countedGroup g handed stopped) c = d := by
    rw [hv, nextInjector_counted u g handed stopped _ c, hNext]
  have hMovedV : movedGroup v l (countedGroup g handed stopped) d = movedGroup u l g d := by
    rw [movedGroup_counted, hv]
    rfl
  have hCleared (w : State) (hw : w.groups[l] = some (movedGroup u l g d)) : w.clearCounter l = w := by
    unfold State.clearCounter
    rw [modGroup_some hw, movedGroup_cleared, ← hw]
    simp [upd]
  unfold State.seriesEdge
  rw [hGroup]
  dsimp only
  rw [countEdge_eq hGroup, ← hv, hDue, Bool.true_or, if_pos rfl]
  unfold State.rotateDue
  rw [if_pos rfl, rotate_moves hGroupV ((countedGroup_injector g handed stopped).trans hInject) hNextV hd, hMovedV, hv]
  simp only [upd_upd]
  rw [hCleared _ (upd_same _ _ _)]
  exact congrArg State.schedule (detachUnclaimed_claimed fun h => hClaimed h)

/-- The edge at which the rotation finds the present injector the only eligible channel (R107). -/
theorem seriesEdge_stays {u : State} {l : GroupId} {g : Group} {c : Chan} {handed : Bool} (hGroup : u.groups[l] = some g)
    (hInject : g.injector = some c) (hDue : rotationDue g handed = true) (hNext : nextInjector u g c = c) :
    u.seriesEdge l handed false = ({ u with groups := upd u.groups l (some { g with rotation := 0 }) } : State).schedule := by
  obtain ⟨v, hv⟩ : ∃ v : State, v = { u with groups := upd u.groups l (some (countedGroup g handed false)) } := ⟨_, rfl⟩
  have hGroupV : v.groups[l] = some (countedGroup g handed false) := by
    rw [hv]
    exact upd_same _ _ _
  have hNextV : nextInjector v (countedGroup g handed false) c = c := by
    rw [hv, nextInjector_counted u g handed false _ c, hNext]
  unfold State.seriesEdge
  rw [hGroup]
  dsimp only
  rw [countEdge_eq hGroup, ← hv, hDue, Bool.true_or, if_pos rfl]
  unfold State.rotateDue
  rw [if_pos rfl, rotate_stays hGroupV ((countedGroup_injector g handed false).trans hInject) hNextV,
    show (v.clearCounter l).detachUnclaimed l false = v.clearCounter l from rfl]
  unfold State.clearCounter
  rw [modGroup_some hGroupV, hv]
  simp only [upd_upd]
  rfl

/-- The edge at which a series stops, with no rotation due (R37, R105). -/
theorem seriesEdge_stops {u : State} {l : GroupId} {g : Group} {handed : Bool} (hGroup : u.groups[l] = some g)
    (hDue : rotationDue g handed = false) : u.seriesEdge l handed true =
      (({ u with groups := upd u.groups l (some (overGroup g)) } : State).detachUnclaimed l true).schedule := by
  unfold State.seriesEdge
  rw [hGroup]
  dsimp only
  rw [countEdge_eq hGroup, hDue, Bool.false_or, if_pos rfl]
  rfl

/-! ### What the scheduler then leaves alone -/

theorem startAll_leaves {v t : State} (hEnd : t = v.startAll.detachIdle) {l : GroupId} {c : Chan}
    (hl : startable v l = false) (hc : ∀ m : GroupId, startable v m = true → injectorOf v m ≠ some c)
    (hRest : v.seqs[c].run = .none → v.seqs[c].coupling = .detached) :
    t.groups[l] = v.groups[l] ∧ t.seqs[c] = v.seqs[c] ∧ t.safety[c] = v.safety[c] := by
  have hGroup := startAll_group hl
  have hSame := startAll_chan hc
  have hSeq : v.startAll.seqs[c] = v.seqs[c] := congrArg Prod.fst hSame
  have hSafety : v.startAll.safety[c] = v.safety[c] := congrArg Prod.snd hSame
  obtain ⟨hSeqEnd, hSafetyEnd⟩ := detachIdle_chan v.startAll c
  have hFrame := detachIdle_frame v.startAll
  rw [hSeq] at hSeqEnd hSafetyEnd
  rw [hEnd]
  refine ⟨?_, hSeqEnd.trans (restedSeq_self hRest), ?_⟩
  · rw [hFrame]
    exact hGroup
  · rw [hSafetyEnd, restedSafety_self hRest, hSafety]

theorem startAll_frame {v t : State} (hEnd : t = v.startAll.detachIdle) :
    t = { v with groups := t.groups, seqs := t.seqs, safety := t.safety } := by
  have hRuns := (startAll_runs v).frame
  have hFrame := detachIdle_frame v.startAll
  rw [← hEnd] at hFrame
  generalize v.startAll = w at hRuns hFrame
  have hGroups : t.groups = w.groups := (congrArg State.groups hFrame :)
  rw [hGroups]
  generalize t.seqs = seqs, t.safety = safety at hFrame ⊢
  generalize w.groups = groups, w.seqs = seqsW, w.safety = safetyW at hRuns ⊢
  rw [hFrame, hRuns]

/-! ### The sequencer of an edge -/

/-- The state between an edge and what it brings: the triple is handed, the sequencer has moved on. -/
structure Handed (s : State) (c : Chan) (after : Seq) (handed : List Triple) (u : State) : Prop where
  frame : u = { s with triples := s.triples ++ handed, seqs := upd s.seqs c after }
  ctx : after.ctx = s.seqs[c].ctx

theorem handed_handed {s : State} {c : Chan} {q after : Seq} {h : List Plateau} (hCtx : after.ctx = s.seqs[c].ctx) :
    Handed s c after (handedAt s c q h) (s.handed c q h after) := ⟨rfl, hCtx⟩

theorem Handed.seq {s : State} {c : Chan} {after : Seq} {handed : List Triple} {u : State} (h : Handed s c after handed u) :
    u.seqs[c] = after := by
  rw [h.frame]
  exact upd_same _ _ _

theorem Handed.groups {s : State} {c : Chan} {after : Seq} {handed : List Triple} {u : State} (h : Handed s c after handed u) :
    u.groups = s.groups ∧ (∀ m : GroupId, injectorOf u m = injectorOf s m) ∧ ∀ m : GroupId, readyPlan u m = readyPlan s m := by
  rw [h.frame]
  exact ⟨rfl, fun _ => rfl, fun _ => rfl⟩

theorem Handed.eligible {s : State} {c : Chan} {after : Seq} {handed : List Triple} {u : State} (h : Handed s c after handed u)
    (g : Group) (e : Chan) : eligible u g e = eligible s g e := by
  refine eligible_congr (by rw [h.frame]) (by rw [h.frame]) (by rw [h.frame]) rfl (fun _ => by rw [h.frame]; exact ⟨rfl, rfl⟩)
    (fun f => ?_) e
  rw [h.frame]
  show (upd s.seqs c after)[f].ctx = _ ↔ _
  by_cases hf : c = f
  · subst hf
    rw [upd_same, h.ctx]
  · rw [upd_other _ _ _ _ hf]

theorem exec_edge_own {i : Instr} {s : State} {c : Chan} {q : Seq} {h : List Plateau} {l : GroupId} (hEdge : edgeAt s c i q h)
    (hRun : q.run = .series) (hInjects : groupOfInjector s c = some l) :
    ∃ u : State, Handed s c (seriesAfter q h) (handedAt s c q h) u
      ∧ exec i s = .next (u.seriesEdge l (decide (handedAt s c q h ≠ [])) q.stopRequest) := by
  obtain ⟨-, hCtx, -⟩ := edgeAt_keeps hEdge
  have hExec := exec_edge_series hEdge hRun
  rw [hInjects] at hExec
  refine ⟨_, handed_handed (Eq.trans ?_ hCtx), hExec⟩
  unfold seriesAfter
  split_ifs <;> rfl

theorem stoppedSeq_over {q : Seq} (hRun : q.run = .series) : stoppedSeq q = { runOver q with coupling := .detached } := by
  unfold stoppedSeq
  rw [if_pos (.inl hRun)]

theorem stoppedSeq_rested {q : Seq} (hRun : q.run = .none) : stoppedSeq q = { q with coupling := .detached } := by
  unfold stoppedSeq
  rw [if_neg (by rw [hRun]; decide)]

/-- A channel that injects in one group alone injects in no startable group where that one is none. -/
theorem unstarted_of {s v : State} {l : GroupId} {c : Chan} (hOwn : ownInjector s l c)
    (hInjectors : ∀ m : GroupId, m ≠ l → injectorOf v m = injectorOf s m) (hBusy : startable v l = false) (m : GroupId)
    (hm : startable v m = true) : injectorOf v m ≠ some c := fun hInj => by
  by_cases hml : m = l
  · rw [hml, hBusy] at hm
    exact nomatch hm
  · exact hml (hOwn m ((hInjectors m hml).symm.trans hInj))

theorem unstartable_busy {v : State} {l : GroupId} {g : Group} (hGroup : v.groups[l] = some g)
    (h : g.series ≠ .none ∨ g.measurable = false) : startable v l = false := by
  cases hCan : startable v l with
  | false => rfl
  | true =>
    obtain ⟨y, -, -, hy, hMeasurable, hFree, -⟩ := startable_ready hCan
    rw [hGroup] at hy
    rw [← Option.some.inj hy] at hMeasurable hFree
    rcases h with h | h
    · exact absurd hFree h
    · exact nomatch h.symm.trans hMeasurable

/-- The state after a rotation that moved the injector. -/
structure Moved (s : State) (l : GroupId) (c : Chan) (after : Seq) (g : Group) (handed : List Triple) (v : State) : Prop where
  frame : v = { s with
    triples := s.triples ++ handed, groups := upd s.groups l (some g), seqs := upd s.seqs c (stoppedSeq after)
    safety := upd s.safety c (stoppedSafety after s.safety[c]) }

theorem Moved.of {s u : State} {l : GroupId} {c : Chan} {after : Seq} {g : Group} {handed : List Triple}
    (h : Handed s c after handed u) : Moved s l c after g handed { u with
      groups := upd u.groups l (some g), seqs := upd u.seqs c (stoppedSeq u.seqs[c])
      safety := upd u.safety c (stoppedSafety u.seqs[c] u.safety[c]) } := by
  refine ⟨?_⟩
  rw [h.seq, h.frame]
  simp only [upd_upd]

/-- What the scheduler leaves of a group whose injector has just moved, and of the channel it moved from. -/
theorem Moved.leaves {s v : State} {l : GroupId} {c : Chan} {after : Seq} {g : Group} {handed : List Triple}
    (h : Moved s l c after g handed v) (hSchedule : v.schedule = v.startAll.detachIdle) (hOwn : ownInjector s l c)
    (hMeasurable : g.measurable = false) : v.schedule.groups[l] = some g ∧ v.schedule.seqs[c] = stoppedSeq after
      ∧ v.schedule.safety[c] = stoppedSafety after s.safety[c] := by
  have hGroup : v.groups[l] = some g := by
    rw [h.frame]
    exact upd_same _ _ _
  have hSeq : v.seqs[c] = stoppedSeq after := by
    rw [h.frame]
    exact upd_same _ _ _
  have hSafety : v.safety[c] = stoppedSafety after s.safety[c] := by
    rw [h.frame]
    exact upd_same _ _ _
  have hInjectors (m : GroupId) (hm : m ≠ l) : injectorOf v m = injectorOf s m := by
    rw [h.frame]
    unfold injectorOf
    dsimp only
    rw [upd_other _ _ _ _ (Ne.symm hm)]
  have hBusy := unstartable_busy hGroup (.inr hMeasurable)
  obtain ⟨hGroupT, hSeqT, hSafetyT⟩ := startAll_leaves (c := c) hSchedule hBusy (unstarted_of hOwn hInjectors hBusy)
    (by rw [hSeq]; exact fun _ => rfl)
  exact ⟨hGroupT.trans hGroup, hSeqT.trans hSeq, hSafetyT.trans hSafety⟩

/-- Settles O40: the edge's rotation moves the injector or finds it alone, and the scheduler finds the group busy, settling or
with an order that waits on. -/
theorem rotationMovesTheInjector : Obligations.RotationMovesTheInjector := by
  unfold Obligations.RotationMovesTheInjector
  refine ⟨fun i s c d q h l g hEdge hRun hStop hMode hIntake hInjects hGroup hOwn hSeries hPolicy hHanded hCount hLine => ?_,
    fun i s c d q h l g n node p k x hEdge hRun hStop hMode hIntake hInjects hGroup hOwn hRotates hLine hd hPlan hSettle hAttached => ?_⟩
  · obtain ⟨g', hGroup', hInject⟩ := groupOfInjector_group hInjects
    obtain rfl : g' = g := Option.some.inj (hGroup'.symm.trans hGroup)
    obtain ⟨hCoupling, -⟩ := edgeAt_keeps hEdge
    obtain ⟨u, hHanded', hExec⟩ := exec_edge_own hEdge hRun hInjects
    rw [show seriesAfter q h = nextHalf q h from if_neg (by rw [hStop]; decide)] at hHanded'
    have hDue : rotationDue g' (decide (handedAt s c q h ≠ [])) = true := rotates_eq.mpr ⟨hPolicy, hHanded, hCount⟩
    have hNext : nextInjector u g' c = d :=
      (nextInjector_congr (hHanded'.eligible g') c).trans (nextInjector_inLine hGroup hLine)
    obtain ⟨hGroups, hInjectors, hReady⟩ := hHanded'.groups
    have hGroupU : u.groups[l] = some g' := by rw [hGroups]; exact hGroup
    rw [hStop] at hExec
    by_cases hd : d = c
    · subst hd
      rw [seriesEdge_stays hGroupU hInject hDue hNext] at hExec
      generalize hv : ({ u with groups := upd u.groups l (some { g' with rotation := 0 }) } : State) = v at hExec
      have hSchedule : v.schedule = v.startAll.detachIdle :=
        schedule_run (noneWaits_empty (by rw [← hv, hHanded'.frame]; exact hIntake)) (by rw [← hv, hHanded'.frame]; exact hMode)
      have hGroupV : v.groups[l] = some { g' with rotation := 0 } := by
        rw [← hv]
        exact upd_same _ _ _
      have hSeqV : v.seqs[d] = nextHalf q h := by
        rw [← hv]
        exact hHanded'.seq
      have hBusy := unstartable_busy hGroupV (.inl (show g'.series ≠ .none by rw [hSeries]; decide))
      obtain ⟨hGroupT, hSeqT, -⟩ := startAll_leaves (c := d) hSchedule hBusy (unstarted_of hOwn (fun m hm => by
        rw [← hInjectors, ← hv]
        unfold injectorOf
        dsimp only
        rw [upd_other _ _ _ _ (Ne.symm hm)]) hBusy) (by rw [hSeqV]; exact fun e => nomatch hRun.symm.trans e)
      have hFrame := startAll_frame hSchedule
      have hFields : v.triples = s.triples ++ handedAt s d q h ∧ v.attn = s.attn ∧ v.mem = s.mem := by
        rw [← hv, hHanded'.frame]
        exact ⟨rfl, rfl, rfl⟩
      refine ⟨_, hExec, ?_, ?_, ?_, fun p hNot => absurd rfl hNot, fun _ => ⟨hGroupT.trans hGroupV, hSeqT.trans hSeqV⟩⟩
      · rw [hFrame]
        exact hFields.1
      · rw [hFrame]
        exact hFields.2.1
      · rw [hFrame]
        exact hFields.2.2
    · rw [seriesEdge_moves (stopped := false) hGroupU hInject hDue hNext hd fun e => nomatch e] at hExec
      have hMoved := Moved.of (l := l) (g := movedGroup u l g' d) hHanded'
      generalize ({ u with
        groups := upd u.groups l (some (movedGroup u l g' d)), seqs := upd u.seqs c (stoppedSeq u.seqs[c])
        safety := upd u.safety c (stoppedSafety u.seqs[c] u.safety[c]) } : State) = v at hExec hMoved
      have hSchedule : v.schedule = v.startAll.detachIdle :=
        schedule_run (noneWaits_empty (by rw [hMoved.frame]; exact hIntake)) (by rw [hMoved.frame]; exact hMode)
      have hFrame := startAll_frame hSchedule
      have hFields : v.triples = s.triples ++ handedAt s c q h ∧ v.attn = s.attn ∧ v.mem = s.mem := by
        rw [hMoved.frame]
        exact ⟨rfl, rfl, rfl⟩
      refine ⟨_, hExec, ?_, ?_, ?_, fun p _ hPlan hSettle hAttached => ?_, fun hSame => absurd hSame hd⟩
      · rw [hFrame]
        exact hFields.1
      · rw [hFrame]
        exact hFields.2.1
      · rw [hFrame]
        exact hFields.2.2
      · rw [movedGroup_settles ((hReady l).trans hPlan) hSettle] at hMoved
        obtain ⟨hGroupT, hSeqT, hSafetyT⟩ := hMoved.leaves hSchedule hOwn rfl
        refine ⟨hGroupT, hSeqT.trans (stoppedSeq_over hRun), ?_⟩
        rw [hSafetyT]
        unfold stoppedSafety
        rw [if_pos (show (nextHalf q h).coupling = .attached from hCoupling.trans hAttached)]
  · obtain ⟨g', hGroup', hInject⟩ := groupOfInjector_group hInjects
    obtain rfl : g' = g := Option.some.inj (hGroup'.symm.trans hGroup)
    obtain ⟨hCoupling, -⟩ := edgeAt_keeps hEdge
    obtain ⟨u, hHanded, hExec⟩ := exec_edge_own hEdge hRun hInjects
    rw [show seriesAfter q h = runOver q from if_pos hStop] at hHanded
    have hDue : rotationDue g' (decide (handedAt s c q h ≠ [])) = true := rotates_eq.mpr hRotates
    have hNext : nextInjector u g' c = d := (nextInjector_congr (hHanded.eligible g') c).trans (nextInjector_inLine hGroup hLine)
    obtain ⟨hGroups, -, hReady⟩ := hHanded.groups
    have hGroupU : u.groups[l] = some g' := by rw [hGroups]; exact hGroup
    have hSole (v : State) (hv : v.intake = s.intake) : SoleWaits v ⟨n, .spot node p, .waiting, l, k⟩ := by
      refine ⟨?_, rfl, fun y hy _ => ?_⟩
      · rw [hv, hIntake]
        exact List.mem_singleton_self _
      · rw [hv, hIntake] at hy
        exact List.mem_singleton.mp hy
    rw [hStop, seriesEdge_moves (stopped := true) hGroupU hInject hDue hNext hd fun _ => by
      rw [(hSole u (by rw [hHanded.frame])).front]
      exact fun e => nomatch e] at hExec
    have hMoved := Moved.of (l := l) (g := movedGroup u l g' d) hHanded
    generalize ({ u with
      groups := upd u.groups l (some (movedGroup u l g' d)), seqs := upd u.seqs c (stoppedSeq u.seqs[c])
      safety := upd u.safety c (stoppedSafety u.seqs[c] u.safety[c]) } : State) = v at hExec hMoved
    rw [movedGroup_settles ((hReady l).trans hPlan) hSettle] at hMoved
    have hFields : v.triples = s.triples ++ handedAt s c q h ∧ v.attn = s.attn ∧ v.mem = s.mem ∧ v.intake = s.intake
        ∧ v.slots = s.slots ∧ v.mode = s.mode := by
      rw [hMoved.frame]
      exact ⟨rfl, rfl, rfl, rfl, rfl, rfl⟩
    obtain ⟨hTriples, hAttn, hMem, hIntakeV, hSlots, hModeV⟩ := hFields
    have hStuck : Stuck v ⟨n, .spot node p, .waiting, l, k⟩ := by
      refine ⟨hSole v hIntakeV, fun y hy => ?_⟩
      rw [hMoved.frame] at hy
      replace hy := Option.some.inj ((upd_same _ _ _).symm.trans hy)
      rw [← hy]
      exact ⟨fun e => (nomatch e), .inr fun e => nomatch e⟩
    have hSchedule := hStuck.schedule_run (hModeV.trans hMode)
    have hFrame := startAll_frame hSchedule
    obtain ⟨hGroupT, hSeqT, hSafetyT⟩ := hMoved.leaves hSchedule hOwn rfl
    refine ⟨_, hExec, ?_, ?_, ?_, ?_, ?_, hGroupT, hSeqT.trans (stoppedSeq_rested rfl), ?_⟩
    · rw [hFrame]
      exact hTriples
    · rw [hFrame]
      exact hAttn
    · rw [hFrame]
      exact hMem
    · rw [hFrame]
      exact hIntakeV
    · rw [hFrame]
      exact hSlots
    · rw [hSafetyT]
      unfold stoppedSafety
      rw [if_pos (show (runOver q).coupling = .attached from hCoupling.trans hAttached)]

end Sys2Proof.Machine
end

section
/-! PROOFS. A stopped series gives way to the SPOT that waits for it, or starts again detached. -/

namespace Sys2Proof.Machine

/-! ### A SPOT granted, and what the scheduler then does -/

theorem grantable_spot {s : State} {o : Order} {node : NodeId} {p : PlanId} {g : Group} (hFront : frontOf s o.group = some o)
    (hJob : o.job = .spot node p) (hGroup : s.groups[o.group] = some g) (hSeries : g.series = .none) (hSettle : g.settle = none)
    (hCheck : checkInProgress s o.group = false) (hPending : s.parkedPending = false) (hMode : s.mode ≠ .safeStop)
    (hParked : s.mode = .parked → permissionFree s = true) : grantable s o = true := by
  unfold grantable awaitsCheck
  rw [hGroup, hJob]
  dsimp only
  rw [hFront, hSeries, hSettle, hCheck, hPending]
  simpa [hMode] using imp_iff_not_or.mp hParked

theorem SoleWaits.noneAfter {s w : State} {o : Order} (h : SoleWaits s o) (hIntake : w.intake = runningNow s.intake o.slot) :
    noneWaits w := by
  intro y hy
  rw [hIntake] at hy
  obtain ⟨x, hx, rfl⟩ := List.mem_map.mp hy
  split_ifs with hSlot
  · exact fun e => nomatch e
  · exact fun e => hSlot (congrArg Order.slot (h.sole x hx e))

theorem SoleWaits.granted_run {s w : State} {o : Order} (h : SoleWaits s o) (hGrant : grantable s o = true) (hw : s.grant o = w)
    (hIntake : w.intake = runningNow s.intake o.slot) (hMode : w.mode = .run) : s.schedule = w.startAll.detachIdle := by
  have hLength : (startables w).length ≤ 19 := (List.length_filter_le _ _).trans (by decide)
  rw [h.schedule_grants hGrant, hw, scheduleAll_run 19 w (h.noneAfter hIntake) hMode hLength]
  rfl

theorem SoleWaits.granted_rest {s w : State} {o : Order} (h : SoleWaits s o) (hGrant : grantable s o = true) (hw : s.grant o = w)
    (hIntake : w.intake = runningNow s.intake o.slot) (hMode : w.mode ≠ .run) (hParked : w.mode = .parked → permissionFree w = false) :
    s.schedule = w.detachIdle := by
  have hNone := h.noneAfter hIntake
  rw [h.schedule_grants hGrant, hw, scheduleAll_none hNone]
  rw [scheduleOne_noneWaits hNone, if_neg hMode, if_neg]
  rintro ⟨hm, -, hFree⟩
  rw [hParked hm] at hFree
  exact nomatch hFree

/-- What a SPOT's grant leaves: its group, its channel, its order and its progress byte have moved. -/
structure Spotted (s : State) (o : Order) (p : PlanId) (g : Group) (c : Chan) (w : State) : Prop where
  frame : w = { s with
    groups := upd s.groups o.group (some { g with series := .order, seriesCount := g.seriesCount + 1 })
    intake := runningNow s.intake o.slot, mem := s.mem.write (slotAddr o.slot + 0x12) 2
    seqs := upd s.seqs c (runStarted s c .triple (some o.slot) (runCopy s c p)), safety := upd s.safety c (safetyStarted s c) }

theorem Spotted.granted {s : State} {o : Order} {node : NodeId} {p : PlanId} {g : Group} {c : Chan} (hJob : o.job = .spot node p)
    (hGroup : s.groups[o.group] = some g) (hInject : g.injector = some c) (hReady : s.plans[p].ready = true)
    (hAdmits : groupPassive s g = false ∧ lowestEligible s g ≠ none) : Spotted s o p g c (s.grant o) :=
  ⟨grant_spot hJob hGroup hInject hReady hAdmits⟩

theorem Spotted.group {s w : State} {o : Order} {p : PlanId} {g : Group} {c : Chan} (h : Spotted s o p g c w) :
    w.groups[o.group] = some { g with series := .order, seriesCount := g.seriesCount + 1 } := by
  rw [h.frame]
  exact upd_same _ _ _

theorem Spotted.chan {s w : State} {o : Order} {p : PlanId} {g : Group} {c : Chan} (h : Spotted s o p g c w) :
    w.seqs[c] = runStarted s c .triple (some o.slot) (runCopy s c p) ∧ w.safety[c] = safetyStarted s c := by
  rw [h.frame]
  exact ⟨upd_same _ _ _, upd_same _ _ _⟩

theorem Spotted.runs {s w : State} {o : Order} {p : PlanId} {g : Group} {c : Chan} (h : Spotted s o p g c w) :
    w.seqs[c].run = .triple := by
  rw [h.chan.1]
  exact (runStarted_shape _ _ _ _ _).1

/-- With the SPOT granted nothing else starts on its group or its channel, and each other channel is left to the scheduler. -/
theorem Spotted.leaves {s w t : State} {o : Order} {p : PlanId} {g : Group} {c : Chan} (h : Spotted s o p g c w)
    (hOwn : ∀ m : GroupId, m ≠ o.group → injectorOf s m ≠ some c) (hEnd : t = w.startAll.detachIdle) :
    t.groups[o.group] = some { g with series := .order, seriesCount := g.seriesCount + 1 }
      ∧ t.seqs[c] = runStarted s c .triple (some o.slot) (runCopy s c p) ∧ t.safety[c] = safetyStarted s c := by
  have hBusy := unstartable_busy h.group (.inl fun e => nomatch e)
  obtain ⟨hGroup, hSeq, hSafety⟩ := startAll_leaves (c := c) hEnd hBusy (fun m hm hInj => by
    by_cases hml : m = o.group
    · rw [hml, hBusy] at hm
      exact nomatch hm
    · refine hOwn m hml ?_
      rw [← hInj, h.frame]
      unfold injectorOf
      dsimp only
      rw [upd_other _ _ _ _ (Ne.symm hml)]) (by rw [h.runs]; exact fun e => nomatch e)
  exact ⟨hGroup.trans h.group, hSeq.trans h.chan.1, hSafety.trans h.chan.2⟩

theorem firstHalf_congr {q r : Seq} (hCtx : q.ctx = r.ctx) (hRecord : q.record = r.record) (hUb : q.latestUb = r.latestUb)
    (hView : q.viewLatched = r.viewLatched) (kind : RunKind) (owner : Option SlotId) (copy : RunCopy) (pol : Polarity) (x : Coupling) :
    { firstHalf q kind owner copy pol with coupling := x } = { firstHalf r kind owner copy pol with coupling := x } := by
  unfold firstHalf
  rw [hCtx, hRecord, hUb, hView]

theorem waitingRun_congr {q r : Seq} (hCtx : q.ctx = r.ctx) (hRecord : q.record = r.record) (hUb : q.latestUb = r.latestUb)
    (hView : q.viewLatched = r.viewLatched) (hPolarity : q.polarity = r.polarity) (kind : RunKind) (owner : Option SlotId)
    (copy : RunCopy) (x : Coupling) :
    { waitingRun q kind owner copy with coupling := x } = { waitingRun r kind owner copy with coupling := x } := by
  unfold waitingRun firstHalf
  rw [hCtx, hRecord, hUb, hView, hPolarity]

theorem lastWindow_polarity (q : Seq) : (lastWindow q).polarity = q.polarity := by
  unfold lastWindow
  split_ifs <;> rfl

theorem edgeAt_polarity {s : State} {c : Chan} {i : Instr} {q : Seq} {h : List Plateau} (hEdge : edgeAt s c i q h) :
    q.polarity = s.seqs[c].polarity := by
  obtain ⟨flag, time, p, hEnds, -⟩ := hEdge
  cases hEnds with
  | ready => rfl
  | unready => exact lastWindow_polarity _
  | missedAtMax => exact lastWindow_polarity _
  | sync => rfl
  | timeout => rfl
  | selfcheck => rfl

theorem runStarted_attached {s : State} {c : Chan} (h : s.seqs[c].coupling = .attached) (kind : RunKind) (owner : Option SlotId)
    (copy : RunCopy) : runStarted s c kind owner copy =
      { firstHalf s.seqs[c] kind owner copy copy.plan.startPol with coupling := .attached } := if_pos (.inl h)

/-! ### A stopped series -/

theorem checkInProgress_spots {s : State} (h : ∀ o ∈ s.intake, ∀ d : Chan, o.phase ≠ .waiting → o.job ≠ .selfcheck d) (l : GroupId) :
    checkInProgress s l = false := by
  cases hCheck : checkInProgress s l with
  | false => rfl
  | true =>
    obtain ⟨x, hx, -⟩ := (checkInProgress_iff s l).mp hCheck
    obtain ⟨o, ho, rfl⟩ := List.mem_map.mp hx
    obtain ⟨hIn, hActive⟩ := List.mem_filter.mp ho
    obtain ⟨hPhase, hJob⟩ := Bool.and_eq_true_iff.mp hActive
    cases hKind : o.job with
    | selfcheck d => exact absurd hKind (h o hIn d (of_decide_eq_true hPhase))
    | spot node p =>
      rw [hKind] at hJob
      exact nomatch hJob

theorem groupPassive_over {s v : State} {g : Group} (hYields : v.yields = s.yields) (h : groupPassive s g = false)
    (g' : Group) (hMembers : g'.members = g.members) : groupPassive v g' = false := by
  unfold groupPassive at h ⊢
  rw [hMembers, hYields]
  exact h

theorem lowestEligible_congr {s v : State} {g g' : Group} (h : ∀ d : Chan, eligible v g' d = eligible s g d) :
    lowestEligible v g' = lowestEligible s g := by
  unfold lowestEligible
  exact congrArg (fun f => List.find? f allChans) (funext h)

/-- The state once a stopped series is over, the triple handed. -/
structure Ended (s : State) (c : Chan) (q : Seq) (h : List Plateau) (l : GroupId) (g : Group) (v : State) : Prop where
  frame : v = { s with
    triples := s.triples ++ handedAt s c q h, seqs := upd s.seqs c (runOver q), groups := upd s.groups l (some (overGroup g)) }

theorem Ended.injectorOf {s v : State} {c : Chan} {q : Seq} {h : List Plateau} {l : GroupId} {g : Group} (k : Ended s c q h l g v)
    (hGroup : s.groups[l] = some g) (m : GroupId) : injectorOf v m = injectorOf s m := by
  rw [k.frame]
  unfold Machine.injectorOf
  dsimp only
  by_cases hm : l = m
  · subst hm
    rw [upd_same, hGroup]
    rfl
  · rw [upd_other _ _ _ _ hm]

theorem exec_edge_stops {i : Instr} {s : State} {c : Chan} {q : Seq} {h : List Plateau} {l : GroupId} {g : Group}
    (hEdge : edgeAt s c i q h) (hRun : q.run = .series) (hStop : q.stopRequest = true) (hInjects : groupOfInjector s c = some l)
    (hGroup : s.groups[l] = some g) (hRotates : ¬ rotates g (handedAt s c q h)) :
    ∃ v : State, Ended s c q h l g v ∧ exec i s = .next (v.detachUnclaimed l true).schedule := by
  obtain ⟨u, hHanded, hExec⟩ := exec_edge_own hEdge hRun hInjects
  rw [show seriesAfter q h = runOver q from if_pos hStop] at hHanded
  have hDue : rotationDue g (decide (handedAt s c q h ≠ [])) = false := by
    rw [← Bool.not_eq_true, rotates_eq]
    exact hRotates
  have hGroupU : u.groups[l] = some g := by
    rw [hHanded.groups.1]
    exact hGroup
  rw [hStop, seriesEdge_stops hGroupU hDue] at hExec
  refine ⟨_, ⟨?_⟩, hExec⟩
  rw [hHanded.frame]

/-- Settles O41: the series is over at its edge, and its group free for the SPOT at its front, or for a series on a channel that
is detached first. -/
theorem stoppedSeriesGivesWayToSpot : Obligations.StoppedSeriesGivesWayToSpot := by
  unfold Obligations.StoppedSeriesGivesWayToSpot
  refine ⟨fun i s c q h l g n node p k hEdge hRun hStop hMode hPending hIntake hInjects hGroup hOwn hSettle hRotates hAttached hReady
      hPassive hHeld hChannel => ?_,
    fun i s c q h l g p hEdge hRun hStop hMode hIntake hInjects hGroup hOwn hMeasurable hRotates hAttached hPlan hReady => ?_⟩
  · obtain ⟨g', hGroup', hInject⟩ := groupOfInjector_group hInjects
    obtain rfl : g' = g := Option.some.inj (hGroup'.symm.trans hGroup)
    obtain ⟨hCoupling, hCtx, hRecord, hUb, hView, -⟩ := edgeAt_keeps hEdge
    obtain ⟨v, hEnded, hExec⟩ := exec_edge_stops hEdge hRun hStop hInjects hGroup hRotates
    obtain ⟨o, ho⟩ : ∃ o : Order, o = ⟨n, .spot node p, .waiting, l, k⟩ := ⟨_, rfl⟩
    have hIntakeV : v.intake = [o] := by
      rw [hEnded.frame, ho]
      exact hIntake
    have hSole : SoleWaits v o := ⟨by rw [hIntakeV]; exact List.mem_singleton_self _, by rw [ho], fun y hy _ => by
      rw [hIntakeV] at hy
      exact List.mem_singleton.mp hy⟩
    have hAt : o.group = l := by rw [ho]
    have hJob : o.job = .spot node p := by rw [ho]
    have hGroupV : v.groups[o.group] = some (overGroup g') := by
      have hHere : v.groups[l] = some (overGroup g') := by
        rw [hEnded.frame]
        exact upd_same _ _ _
      subst ho
      exact hHere
    have hSeqV : v.seqs[c] = runOver q := by
      rw [hEnded.frame]
      exact upd_same _ _ _
    have hEligible (e : Chan) : eligible v (overGroup g') e = eligible s g' e := by
      refine eligible_congr (by rw [hEnded.frame]) ?_ (by rw [hEnded.frame]) rfl (fun _ => by rw [hEnded.frame]; exact ⟨rfl, rfl⟩)
        (fun f => ?_) e
      · rw [hIntakeV, hIntake, ho]
      · by_cases hf : c = f
        · subst hf
          rw [hSeqV]
          exact iff_of_eq (congrArg (· = CtxKind.held) hCtx)
        · rw [hEnded.frame]
          exact iff_of_eq (congrArg (fun x : Seq => x.ctx = .held) (upd_other _ _ _ _ hf))
    have hAdmits := groupState_admits hGroup hPassive hHeld hChannel
    have hAdmitsV : groupPassive v (overGroup g') = false ∧ lowestEligible v (overGroup g') ≠ none :=
      ⟨groupPassive_over (by rw [hEnded.frame]) hAdmits.1 _ rfl, by rw [lowestEligible_congr hEligible]; exact hAdmits.2⟩
    have hModeV : v.mode = .run := by rw [hEnded.frame]; exact hMode
    have hPlansV : v.plans = s.plans ∧ v.wiring = s.wiring := by rw [hEnded.frame]; exact ⟨rfl, rfl⟩
    have hGrant : grantable v o = true := grantable_spot hSole.front hJob hGroupV rfl (show g'.settle = none from hSettle)
      (checkInProgress_spots (fun x hx d hNot => absurd (by rw [hIntakeV] at hx; rw [List.mem_singleton.mp hx, ho]) hNot) _)
      (by rw [hEnded.frame]; exact hPending) (by rw [hModeV]; decide) (fun e => nomatch hModeV.symm.trans e)
    have hSpotted := Spotted.granted (c := c) hJob hGroupV (show g'.injector = some c from hInject)
      (by rw [hPlansV.1]; exact hReady) hAdmitsV
    have hUnclaimed : v.detachUnclaimed l true = v := detachUnclaimed_claimed fun _ => by
      rw [← hAt, hSole.front]
      exact fun e => nomatch e
    rw [hUnclaimed] at hExec
    have hIntakeW : (v.grant o).intake = runningNow v.intake o.slot := by rw [hSpotted.frame]
    have hEnd := hSole.granted_run hGrant rfl hIntakeW (by rw [hSpotted.frame]; exact hModeV)
    generalize v.grant o = w at hSpotted hIntakeW hEnd
    have hFrame := startAll_frame hEnd
    obtain ⟨hGroupT, hSeqT, -⟩ := hSpotted.leaves (fun m hm hInj => hm (by
      rw [hAt]
      exact hOwn m ((hEnded.injectorOf hGroup m).symm.trans hInj))) hEnd
    have hFields : w.triples = s.triples ++ handedAt s c q h ∧ w.mem = s.mem.write (slotAddr n + 0x12) 2 ∧ w.slots = s.slots
        ∧ w.attn = s.attn := by
      rw [hSpotted.frame, hEnded.frame, ho]
      exact ⟨rfl, rfl, rfl, rfl⟩
    obtain ⟨hTriples, hMem, hSlots, hAttn⟩ := hFields
    refine ⟨_, hExec, ?_, ?_, ?_, ?_, ?_, ?_, ?_⟩
    · rw [hFrame]
      exact hTriples
    · rw [hFrame]
      refine hIntakeW.trans ?_
      rw [hIntakeV, ho]
      exact congrArg (fun x => [x]) (if_pos rfl)
    · rw [hFrame]
      exact hMem
    · subst ho
      exact hGroupT
    · rw [hSeqT, runStarted_attached (by rw [hSeqV]; exact hCoupling.trans hAttached), hSeqV]
      have hCopy : runCopy v c p = ⟨s.plans[p], some p, s.wiring[c].rm, s.wiring[c].rs⟩ := by
        unfold runCopy
        rw [hPlansV.1, hPlansV.2]
      rw [hCopy, ho]
      exact firstHalf_congr hCtx hRecord hUb hView _ _ _ _ _
    · rw [hFrame]
      exact hSlots
    · rw [hFrame]
      exact hAttn
  · obtain ⟨g', hGroup', hInject⟩ := groupOfInjector_group hInjects
    obtain rfl : g' = g := Option.some.inj (hGroup'.symm.trans hGroup)
    obtain ⟨hCoupling, hCtx, hRecord, hUb, hView, -⟩ := edgeAt_keeps hEdge
    obtain ⟨v, hEnded, hExec⟩ := exec_edge_stops hEdge hRun hStop hInjects hGroup hRotates
    have hIntakeV : v.intake = [] := by
      rw [hEnded.frame]
      exact hIntake
    have hSeqV : v.seqs[c] = runOver q := by
      rw [hEnded.frame]
      exact upd_same _ _ _
    have hDetach : v.detachUnclaimed l true =
        (v.setSeq c { runOver q with coupling := .detached }).setSafety c { s.safety[c] with verify := some 5 } := by
      unfold State.detachUnclaimed
      rw [frontOf_noneWaits (noneWaits_empty hIntakeV)]
      refine (if_pos rfl).trans ?_
      unfold State.detachInjector
      rw [hEnded.injectorOf hGroup, injectorOf_some hGroup, hInject]
      dsimp only
      rw [hSeqV]
      refine (if_pos rfl).trans ?_
      rw [detach_attached (by rw [hSeqV]; rfl) (by rw [hSeqV]; exact hCoupling.trans hAttached), hSeqV, hEnded.frame]
    obtain ⟨w, hw⟩ : ∃ w : State, w = { s with
      triples := s.triples ++ handedAt s c q h, seqs := upd s.seqs c { runOver q with coupling := .detached }
      groups := upd s.groups l (some (overGroup g')), safety := upd s.safety c { s.safety[c] with verify := some 5 } } := ⟨_, rfl⟩
    have hDetached : v.detachUnclaimed l true = w := by
      rw [hDetach, hw, hEnded.frame]
      unfold State.setSeq State.setSafety
      simp only [upd_upd]
    rw [hDetached] at hExec
    have hNone : noneWaits w := noneWaits_empty (by rw [hw]; exact hIntake)
    have hEnd : w.schedule = w.startAll.detachIdle := schedule_run hNone (by rw [hw]; exact hMode)
    have hGroupW : w.groups[l] = some (overGroup g') := by
      rw [hw]
      exact upd_same _ _ _
    have hInjectors (m : GroupId) : injectorOf w m = injectorOf s m := by
      rw [← hEnded.injectorOf hGroup m, hw, hEnded.frame]
      rfl
    have hReadyW : readyToMeasure w l (overGroup g') c p := by
      refine ⟨hGroupW, hMeasurable, rfl, hInject, ?_, ?_⟩
      · rw [hw]
        exact hPlan
      · rw [hw]
        exact hReady
    obtain ⟨hGroupT, hSeqT, hSafetyT⟩ := startAll_started hNone hReadyW (checkInProgress_empty (by rw [hw]; exact hIntake) l)
      fun m hm => hOwn m ((hInjectors m).symm.trans hm)
    have hSeqW : w.seqs[c] = { runOver q with coupling := .detached } := by
      rw [hw]
      exact upd_same _ _ _
    have hSafetyW : w.safety[c] = { s.safety[c] with verify := some 5 } := by
      rw [hw]
      exact upd_same _ _ _
    have hHeldBack := runStarted_held (s := w) (c := c) (congrArg Seq.coupling hSeqW) (by rw [hSafetyW]; exact fun e => nomatch e) .series none (runCopy w c p)
    have hCopy : runCopy w c p = ⟨s.plans[p], some p, s.wiring[c].rm, s.wiring[c].rs⟩ := by
      rw [hw]
      rfl
    have hRuns : w.startAll.seqs[c].run ≠ .none := by
      rw [hSeqT, hHeldBack]
      exact fun e => nomatch e
    have hFrame := startAll_frame hEnd
    obtain ⟨hSeqEnd, hSafetyEnd⟩ := detachIdle_chan w.startAll c
    have hGroupsEnd : w.schedule.groups = w.startAll.groups := by
      rw [hEnd, detachIdle_frame]
    have hFields : w.triples = s.triples ++ handedAt s c q h ∧ w.mem = s.mem ∧ w.attn = s.attn := by
      rw [hw]
      exact ⟨rfl, rfl, rfl⟩
    refine ⟨_, hExec, ?_, ?_, ?_, ?_, ?_, ?_⟩
    · rw [hFrame]
      exact hFields.1
    · rw [hFrame]
      exact hFields.2.1
    · rw [hFrame]
      exact hFields.2.2
    · rw [hGroupsEnd, hGroupT, hw]
      rfl
    · rw [hEnd, hSeqEnd, restedSeq_self fun e => absurd e hRuns, hSeqT, hHeldBack, hSeqW, hCopy]
      exact waitingRun_congr hCtx hRecord hUb hView (edgeAt_polarity hEdge) _ _ _ _
    · rw [hEnd, hSafetyEnd, restedSafety_self fun e => absurd e hRuns, hSafetyT]
      unfold safetyStarted
      rw [hSeqW]
      exact (if_pos rfl).trans hSafetyW

end Sys2Proof.Machine
end

section
/-! PROOFS. The third edge of an order's run: the order finishes, its group is free, and the scheduler acts. -/

namespace Sys2Proof.Machine

/-! ### The order finishes (R133, R135) -/

/-- The group table once the measurement of a leader's group is free. -/
def freedGroups (s : State) (l : GroupId) : Vector (Option Group) 8 :=
  (s.groups[l]).elim s.groups fun g => upd s.groups l (some { g with series := .none })

theorem setSeries_none (s : State) (l : GroupId) : s.setSeries l .none = { s with groups := freedGroups s l } := by
  unfold freedGroups
  cases hGroup : s.groups[l] with
  | none =>
    unfold State.setSeries State.modGroup
    rw [hGroup]
    rfl
  | some g => exact modGroup_some hGroup _

theorem freedGroups_some {s : State} {l : GroupId} {g : Group} (h : s.groups[l] = some g) :
    freedGroups s l = upd s.groups l (some { g with series := .none }) := by
  unfold freedGroups
  rw [h]
  rfl

theorem freedGroups_shape (s : State) (l m : GroupId) : ((freedGroups s l)[m]).map (fun g => (g.members, g.injector)) =
    (s.groups[m]).map fun g => (g.members, g.injector) := by
  cases hGroup : s.groups[l] with
  | none =>
    unfold freedGroups
    rw [hGroup]
    rfl
  | some g =>
    rw [freedGroups_some hGroup]
    exact shape_upd (g' := { g with series := .none }) hGroup rfl rfl m

/-- The run of the order at the head of the list is over (R133, R135, R148). -/
theorem orderRunDone_eq {w : State} {n : SlotId} {job : Job} {l : GroupId} {k : Nat} {rest : List Order}
    (hIntake : w.intake = ⟨n, job, .running, l, k⟩ :: rest)
    (hRest : ∀ o ∈ rest, o.slot ≠ n ∧ ¬ (o.phase = .running ∧ o.group = l)) : w.orderRunDone n = ({ w with
      intake := ⟨n, job, .finishing, l, k⟩ :: rest, mem := w.mem.write (slotAddr n + 0x12) 3
      groups := freedGroups w l } : State).recount.schedule := by
  have hFound : (w.intake.find? fun o => decide (o.slot = n) && decide (o.phase = .running)) = some ⟨n, job, .running, l, k⟩ := by
    rw [hIntake]
    simp
  have hOthers : rest.map (fun o => if o.slot = n then { o with phase := .finishing } else o) = rest := by
    refine (List.map_congr_left fun o ho => if_neg (hRest o ho).1).trans ?_
    exact List.map_id' rest
  have hPhase : w.setPhase n .finishing = { w with
      intake := ⟨n, job, .finishing, l, k⟩ :: rest, mem := w.mem.write (slotAddr n + 0x12) 3 } := by
    unfold State.setPhase State.modOrder
    rw [hIntake, List.map_cons, if_pos rfl, hOthers]
    rfl
  unfold State.orderRunDone
  rw [hFound]
  dsimp only
  rw [hPhase]
  unfold State.freeMeasurement
  rw [if_neg, setSeries_none]
  · rfl
  · rw [Bool.not_eq_true, List.any_eq_false]
    intro o ho
    rcases List.mem_cons.mp ho with rfl | ho
    · simp
    · simpa using (hRest o ho).2

/-- The part once an order's run is over, before its channel is detached: the triple is handed, the order FINISHING, the group
free, the reference of a SELFCHECK open. -/
structure RunDone (s : State) (c : Chan) (q : Seq) (h : List Plateau) (l : GroupId) (n : SlotId) (intake : List Order) (v : State) :
    Prop where
  frame : v = { s with
    triples := s.triples ++ handedAt s c q h, intake := intake, mem := s.mem.write (slotAddr n + 0x12) 3, groups := freedGroups s l
    seqs := upd s.seqs c (runOver q)
    safety := upd s.safety c { s.safety[c] with reference := s.safety[c].reference && decide (q.run ≠ .selfcheck) } }

theorem exec_edge_order {i : Instr} {s : State} {c : Chan} {q : Seq} {h : List Plateau} {l : GroupId} {n : SlotId} {job : Job}
    {k : Nat} {rest : List Order} (hEdge : edgeAt s c i q h) (hRun : q.run = .triple ∨ q.run = .selfcheck) (hHalf : q.half = 3)
    (hOwner : q.owner = some n) (hIntake : s.intake = ⟨n, job, .running, l, k⟩ :: rest)
    (hRest : ∀ o ∈ rest, o.slot ≠ n ∧ ¬ (o.phase = .running ∧ o.group = l)) :
    ∃ v : State, RunDone s c q h l n (⟨n, job, .finishing, l, k⟩ :: rest) v ∧ exec i s = .next v.recount.schedule := by
  have hThird : ¬ q.half < 3 := by rw [hHalf]; decide
  rcases hRun with hRun | hRun
  · have hExec := exec_edge_spot hEdge hRun hThird hOwner
    rw [orderRunDone_eq (w := s.handed c q h (runOver q)) (job := job) (l := l) (k := k) (rest := rest) hIntake hRest] at hExec
    refine ⟨_, ⟨?_⟩, hExec⟩
    have hSafety : upd s.safety c { s.safety[c] with reference := s.safety[c].reference && decide (q.run ≠ .selfcheck) } = s.safety := by
      rw [hRun, show decide (RunKind.triple ≠ RunKind.selfcheck) = true from rfl, Bool.and_true]
      show upd s.safety c s.safety[c] = s.safety
      simp [upd]
    rw [hSafety]
    rfl
  · have hExec := exec_edge_selfcheck hEdge hRun hThird hOwner
    rw [orderRunDone_eq (w := (s.handed c q h (runOver q)).openReference c) (job := job) (l := l) (k := k) (rest := rest) hIntake
      hRest] at hExec
    refine ⟨_, ⟨?_⟩, hExec⟩
    rw [hRun, show decide (RunKind.selfcheck ≠ RunKind.selfcheck) = false from rfl, Bool.and_false]
    rfl

/-! ### The channel of the run, detached -/

/-- The channel alone is left ATTACHED without a run. -/
theorem detachIdle_one {v : State} {c : Chan} (hRun : v.seqs[c].run = .none) (hOthers : othersRest v c) : v.detachIdle = { v with
    seqs := upd v.seqs c { v.seqs[c] with coupling := .detached }
    safety := upd v.safety c (if v.seqs[c].coupling = .attached then { v.safety[c] with verify := some 5 } else v.safety[c]) } := by
  have hFrame := detachIdle_frame v
  have hSeqs : v.detachIdle.seqs = upd v.seqs c { v.seqs[c] with coupling := .detached } := by
    refine Vector.ext fun i hi => ?_
    obtain ⟨hSeq, -⟩ := detachIdle_chan v ⟨i, hi⟩
    refine hSeq.trans ?_
    by_cases hd : c = ⟨i, hi⟩
    · subst hd
      refine Eq.trans ?_ (upd_same _ _ _).symm
      unfold restedSeq
      rw [if_pos hRun]
    · refine Eq.trans ?_ (upd_other _ _ _ _ hd).symm
      exact restedSeq_self (hOthers _ (Ne.symm hd))
  have hSafety : v.detachIdle.safety =
      upd v.safety c (if v.seqs[c].coupling = .attached then { v.safety[c] with verify := some 5 } else v.safety[c]) := by
    refine Vector.ext fun i hi => ?_
    obtain ⟨-, hSafe⟩ := detachIdle_chan v ⟨i, hi⟩
    refine hSafe.trans ?_
    by_cases hd : c = ⟨i, hi⟩
    · subst hd
      refine Eq.trans ?_ (upd_same _ _ _).symm
      unfold restedSafety
      simp only [hRun, true_and]
    · refine Eq.trans ?_ (upd_other _ _ _ _ hd).symm
      exact restedSafety_self (hOthers _ (Ne.symm hd)) _
  rw [hFrame, hSeqs, hSafety]

theorem recount_calm {v : State} (h : v.parkedPending = false) : v.recount = v := by
  unfold State.recount
  rw [h]
  exact if_neg fun k => nomatch k.1

theorem RunDone.seq {s v : State} {c : Chan} {q : Seq} {h : List Plateau} {l : GroupId} {n : SlotId} {intake : List Order}
    (k : RunDone s c q h l n intake v) : v.seqs[c] = runOver q := by
  rw [k.frame]
  exact upd_same _ _ _

theorem RunDone.othersRest {s v : State} {c : Chan} {q : Seq} {h : List Plateau} {l : GroupId} {n : SlotId} {intake : List Order}
    (k : RunDone s c q h l n intake v) (hOthers : Machine.othersRest s c) : Machine.othersRest v c := by
  intro d hd hRun
  have hSame : v.seqs[d] = s.seqs[d] := by
    rw [k.frame]
    exact upd_other _ _ _ _ (Ne.symm hd)
  rw [hSame] at hRun ⊢
  exact hOthers d hd hRun

/-- The group table of a statement that frees a group's measurement. -/
theorem freed_eq {s : State} {l : GroupId} {groups : Vector (Option Group) 8}
    (hNone : s.groups[l] = none → groups = s.groups)
    (hSome : ∀ g, s.groups[l] = some g → groups = upd s.groups l (some { g with series := .none })) : groups = freedGroups s l := by
  cases hGroup : s.groups[l] with
  | none =>
    unfold freedGroups
    rw [hGroup, hNone hGroup]
    rfl
  | some g => rw [freedGroups_some hGroup, hSome g hGroup]

/-- The state in which the channel of an order's run is detached, and nothing else has followed. -/
structure Rested (s : State) (c : Chan) (q : Seq) (h : List Plateau) (l : GroupId) (n : SlotId) (intake : List Order) (u : State) :
    Prop where
  frame : u = { s with
    triples := s.triples ++ handedAt s c q h, intake := intake, mem := s.mem.write (slotAddr n + 0x12) 3, groups := freedGroups s l
    seqs := upd s.seqs c { runOver q with coupling := .detached }
    safety := upd s.safety c { s.safety[c] with
      reference := s.safety[c].reference && decide (q.run ≠ .selfcheck)
      verify := if s.seqs[c].coupling = .attached then some 5 else s.safety[c].verify } }

theorem RunDone.rested {s v u : State} {c : Chan} {q : Seq} {h : List Plateau} {l : GroupId} {n : SlotId} {intake : List Order}
    (k : RunDone s c q h l n intake v) (m : Rested s c q h l n intake u) (hCoupling : q.coupling = s.seqs[c].coupling)
    (hOthers : Machine.othersRest s c) : v.detachIdle = u := by
  have hSafety : v.safety[c] = { s.safety[c] with reference := s.safety[c].reference && decide (q.run ≠ .selfcheck) } := by
    rw [k.frame]
    exact upd_same _ _ _
  rw [detachIdle_one (by rw [k.seq]; rfl) (k.othersRest hOthers), k.seq, hSafety, m.frame, k.frame]
  simp only [upd_upd, show (runOver q).coupling = q.coupling from rfl, hCoupling]
  split_ifs <;> rfl

/-- What a rest leaves of the run's channel, whatever becomes of the others. -/
theorem RunDone.rested_chan {s v u : State} {c : Chan} {q : Seq} {h : List Plateau} {l : GroupId} {n : SlotId} {intake : List Order}
    (k : RunDone s c q h l n intake v) (m : Rested s c q h l n intake u) (hCoupling : q.coupling = s.seqs[c].coupling) :
    restedSeq v.seqs[c] = u.seqs[c] ∧ restedSafety v.seqs[c] v.safety[c] = u.safety[c] := by
  have hSafety : v.safety[c] = { s.safety[c] with reference := s.safety[c].reference && decide (q.run ≠ .selfcheck) } := by
    rw [k.frame]
    exact upd_same _ _ _
  rw [k.seq, hSafety, m.frame]
  refine ⟨(upd_same _ _ _).symm, Eq.trans ?_ (upd_same _ _ _).symm⟩
  unfold restedSafety
  rw [show (runOver q).coupling = q.coupling from rfl, hCoupling]
  simp only [show (runOver q).run = RunKind.none from rfl, true_and]
  split_ifs <;> rfl

end Sys2Proof.Machine
end

section
/-! PROOFS. What follows the third edge of an order's run, mode by mode. -/

namespace Sys2Proof.Machine

/-! ### What the done run leaves to the scheduler -/

section
variable {s v u : State} {c : Chan} {q : Seq} {h : List Plateau} {l : GroupId} {n : SlotId} {intake : List Order}

theorem RunDone.fields (k : RunDone s c q h l n intake v) : v.mode = s.mode ∧ v.parkedPending = s.parkedPending ∧ v.park = s.park
    ∧ v.rotation = s.rotation ∧ v.intake = intake ∧ v.plans = s.plans ∧ v.nodePlan = s.nodePlan ∧ v.wiring = s.wiring
    ∧ v.yields = s.yields ∧ v.groups = freedGroups s l := by
  rw [k.frame]
  exact ⟨rfl, rfl, rfl, rfl, rfl, rfl, rfl, rfl, rfl, rfl⟩

theorem RunDone.safety (k : RunDone s c q h l n intake v) (hRun : q.run = .triple) : v.safety = s.safety := by
  rw [k.frame]
  show upd s.safety c { s.safety[c] with reference := s.safety[c].reference && decide (q.run ≠ .selfcheck) } = s.safety
  rw [hRun, show decide (RunKind.triple ≠ RunKind.selfcheck) = true from rfl, Bool.and_true]
  show upd s.safety c s.safety[c] = s.safety
  simp [upd]

theorem RunDone.injectorOf (k : RunDone s c q h l n intake v) (m : GroupId) : injectorOf v m = injectorOf s m := by
  have hGroups : v.groups = freedGroups s l := by rw [k.frame]
  have hShape := freedGroups_shape s l m
  unfold Machine.injectorOf
  rw [hGroups]
  cases hs : s.groups[m] <;> cases hf : (freedGroups s l)[m] <;> simp_all

theorem RunDone.group (k : RunDone s c q h l n intake v) {g : Group} (hGroup : s.groups[l] = some g) :
    v.groups[l] = some { g with series := .none } := by
  rw [k.frame]
  show (freedGroups s l)[l] = _
  rw [freedGroups_some hGroup]
  exact upd_same _ _ _

theorem RunDone.groups_other (k : RunDone s c q h l n intake v) {m : GroupId} (hm : m ≠ l) : v.groups[m] = s.groups[m] := by
  rw [k.frame]
  show (freedGroups s l)[m] = _
  unfold freedGroups
  cases s.groups[l] with
  | none => rfl
  | some g => exact upd_other _ _ _ _ (Ne.symm hm)

theorem RunDone.series (k : RunDone s c q h l n intake v) (m : GroupId) : seriesOf v m = if m = l then .none else seriesOf s m := by
  by_cases hm : m = l
  · subst hm
    rw [if_pos rfl]
    cases hGroup : s.groups[m] with
    | none =>
      have hNone : v.groups[m] = none := by
        rw [k.frame]
        show (freedGroups s m)[m] = none
        unfold freedGroups
        rw [hGroup]
        exact hGroup
      unfold seriesOf
      rw [hNone]
    | some g => rw [seriesOf_some (k.group hGroup)]
  · rw [if_neg hm]
    unfold seriesOf
    rw [k.groups_other hm]

theorem RunDone.ctx (k : RunDone s c q h l n intake v) (hCtx : q.ctx = s.seqs[c].ctx) (d : Chan) : v.seqs[d].ctx = s.seqs[d].ctx := by
  by_cases hd : c = d
  · subst hd
    rw [k.seq]
    exact hCtx
  · rw [k.frame]
    exact congrArg Seq.ctx (upd_other _ _ _ _ hd)

theorem Rested.groups (m : Rested s c q h l n intake u) (k : RunDone s c q h l n intake v) : u.groups = v.groups
    ∧ u.nodePlan = v.nodePlan ∧ u.plans = v.plans ∧ u.triples = v.triples ∧ u.intake = v.intake ∧ u.mem = v.mem := by
  rw [m.frame, k.frame]
  exact ⟨rfl, rfl, rfl, rfl, rfl, rfl⟩

/-- In IDLE, and in PARKED with no turn due, nothing follows but the detach of the channel. -/
theorem RunDone.quiet (k : RunDone s c q h l n intake v) (m : Rested s c q h l n intake u) (hCoupling : q.coupling = s.seqs[c].coupling)
    (hNone : noneWaits v) (hPending : s.parkedPending = false) (hOthers : Machine.othersRest s c)
    (hMode : s.mode = .idle ∨ (s.mode = .parked ∧ s.park ≠ .due)) : v.recount.schedule = u := by
  obtain ⟨hModeV, hPendingV, hParkV, -⟩ := k.fields
  rw [recount_calm (hPendingV.trans hPending)]
  rcases hMode with hIdle | ⟨hParked, hPark⟩
  · rw [schedule_idle hNone (by rw [hModeV, hIdle]; decide) (by rw [hModeV, hIdle]; decide)]
    exact k.rested m hCoupling hOthers
  · rw [schedule_parked hNone (hModeV.trans hParked) fun hDue => absurd (hParkV.symm.trans hDue) hPark]
    exact k.rested m hCoupling hOthers

/-- In RUN the series of a measurable group follows on the channel, which stays ATTACHED. -/
theorem RunDone.series_follows (k : RunDone s c q h l n intake v) (hRun : q.run = .triple) (hNone : noneWaits v)
    (hMode : s.mode = .run) (hCheck : checkInProgress v l = false) {g : Group} {p : PlanId} (hInjects : groupOfInjector s c = some l)
    (hOwn : ownInjector s l c) (hGroup : s.groups[l] = some g) (hMeasurable : g.measurable = true) (hPlan : s.nodePlan[l] = some p)
    (hReady : s.plans[p].ready = true) (hAttached : q.coupling = .attached) :
    v.schedule = { v with groups := v.schedule.groups, seqs := v.schedule.seqs, safety := v.schedule.safety }
    ∧ v.schedule.groups[l] = some { g with
        series := .series, policy := s.plans[p].policy, rotateCount := s.plans[p].rotate, rotation := 0, seriesCount := g.seriesCount + 1 }
    ∧ v.schedule.seqs[c] = { firstHalf q .series none ⟨s.plans[p], some p, s.wiring[c].rm, s.wiring[c].rs⟩ s.plans[p].startPol with
        coupling := .attached }
    ∧ v.schedule.safety[c] = s.safety[c] := by
  obtain ⟨g', hGroup', hInject⟩ := groupOfInjector_group hInjects
  obtain rfl : g' = g := Option.some.inj (hGroup'.symm.trans hGroup)
  obtain ⟨hModeV, -, -, -, -, hPlansV, hNodePlanV, hWiringV, -⟩ := k.fields
  have hEnd : v.schedule = v.startAll.detachIdle := schedule_run hNone (hModeV.trans hMode)
  have hReadyV : readyToMeasure v l { g' with series := .none } c p := by
    refine ⟨k.group hGroup, hMeasurable, rfl, hInject, ?_, ?_⟩
    · rw [hNodePlanV]
      exact hPlan
    · rw [hPlansV]
      exact hReady
  obtain ⟨hGroupT, hSeqT, hSafetyT⟩ := startAll_started hNone hReadyV hCheck fun m hm => hOwn m ((k.injectorOf m).symm.trans hm)
  have hStarted := runStarted_attached (s := v) (c := c) (by rw [k.seq]; exact hAttached) .series none (runCopy v c p)
  have hRuns : v.startAll.seqs[c].run ≠ .none := by
    rw [hSeqT, hStarted]
    exact fun e => nomatch e
  obtain ⟨hSeqEnd, hSafetyEnd⟩ := detachIdle_chan v.startAll c
  have hGroupsEnd : v.schedule.groups = v.startAll.groups := by rw [hEnd, detachIdle_frame]
  refine ⟨startAll_frame hEnd, ?_, ?_, ?_⟩
  · rw [hGroupsEnd, hGroupT]
    unfold ownGroup
    rw [hPlansV]
  · rw [hEnd, hSeqEnd, restedSeq_self fun e => absurd e hRuns, hSeqT, hStarted, k.seq]
    unfold runCopy
    rw [hPlansV, hWiringV]
    exact firstHalf_congr rfl rfl rfl rfl _ _ _ _ _
  · rw [hEnd, hSafetyEnd, restedSafety_self fun e => absurd e hRuns, hSafetyT]
    unfold safetyStarted
    rw [k.seq, k.safety hRun]
    exact if_pos rfl

/-! ### A due turn (R114) -/

theorem permissionFree_none {s : State} (h : ∀ m : GroupId, seriesOf s m = .none) : permissionFree s = true :=
  List.all_eq_true.mpr fun m _ => by
    rw [h m]
    rfl

/-- In PARKED with a turn due the first group in list order that is ready takes it. -/
theorem turn_follows {v : State} (hMode : v.mode = .parked) (hPark : v.park = .due) (hNone : noneWaits v)
    (hCheck : ∀ m, checkInProgress v m = false) (hSeries : ∀ m : GroupId, seriesOf v m = .none) {m : GroupId} {g : Group} {d : Chan}
    {p : PlanId} {ahead behind : List GroupId} (hRotation : v.rotation = ahead ++ m :: behind) (hReady : readyToMeasure v m g d p)
    (hAhead : ∀ x ∈ ahead, ∀ (g' : Group) (e : Chan) (r : PlanId), ¬ readyToMeasure v x g' e r) :
    ∃ w : State, v.schedule = w.detachIdle ∧ w = { v with
      groups := upd v.groups m (some (ownGroup v g .turn p))
      seqs := upd v.seqs d (runStarted (v.detach d) d .triple none (runCopy v d p))
      safety := upd v.safety d (safetyStarted (v.detach d) d), park := .stopped } := by
  obtain ⟨hGroup, -, -, hInject, hPlan, -⟩ := id hReady
  have hStartable : startable v m = true := (startable_iff hNone m).mpr ⟨⟨g, d, p, hReady⟩, hCheck m⟩
  have hFirst : (v.rotation.find? fun m => startable v m) = some m := by
    rw [hRotation, List.find?_append, List.find?_eq_none.mpr fun x hx hs => ?_]
    · simp [hStartable]
    · obtain ⟨⟨g', e, r, hReadyX⟩, -⟩ := (startable_iff hNone x).mp hs
      exact hAhead x hx g' e r hReadyX
  have hTurn := startTurn_eq hGroup hPlan hInject
  refine ⟨v.startTurn m, ?_, hTurn⟩
  exact schedule_turn hNone hMode hPark (permissionFree_none hSeries) hFirst (by rw [hTurn]) (by rw [hTurn])

end

/-! ### A pending PARKED request (R102) -/

theorem changeMode_parkedQuiet {s : State} (h : ∀ l : GroupId, ¬ ownActive (seriesOf s l)) : s.changeMode .parked = s.parkedFrom := by
  have hFrame := changeMode_parkedFrame s
  rw [abandonAll_idle h] at hFrame
  exact hFrame

/-- In PARKED, with no order waiting, the scheduler touches groups, channels and park timer alone. -/
theorem schedule_parkedFrame {s : State} (h : noneWaits s) (hMode : s.mode = .parked) : s.schedule = { s with
    groups := s.schedule.groups, seqs := s.schedule.seqs, safety := s.schedule.safety, park := s.schedule.park } := by
  by_cases hTurn : s.park = .due ∧ permissionFree s = true ∧ (s.rotation.find? fun l => startable s l) ≠ none
  · obtain ⟨hPark, hFree, hFound⟩ := hTurn
    obtain ⟨l, hFirst⟩ := Option.ne_none_iff_exists'.mp hFound
    have hFrame := startTurn_frame s l
    have hIntake : (s.startTurn l).intake = s.intake := by rw [hFrame]
    have hModeAfter : (s.startTurn l).mode = s.mode := by rw [hFrame]
    have hEnd := schedule_turn h hMode hPark hFree hFirst hIntake hModeAfter
    have hIdle := detachIdle_frame (s.startTurn l)
    rw [← hEnd] at hIdle
    generalize s.schedule = t at hIdle ⊢
    generalize s.startTurn l = w at hFrame hIdle
    have hGroups : t.groups = w.groups := (congrArg State.groups hIdle :)
    have hParkT : t.park = w.park := (congrArg State.park hIdle :)
    rw [hGroups, hParkT]
    generalize t.seqs = seqs, t.safety = safety at hIdle ⊢
    have hParkW : w.park = .stopped := (congrArg State.park hFrame :)
    rw [hParkW]
    generalize w.groups = groups, w.seqs = seqsW, w.safety = safetyW at hFrame ⊢
    rw [hIdle, hFrame]
  · have hEnd := schedule_parked h hMode fun hPark hFree l hl => Bool.eq_false_iff.mpr fun hs => hTurn ⟨hPark, hFree, fun e =>
      List.find?_eq_none.mp e l hl hs⟩
    have hIdle := detachIdle_frame s
    rw [← hEnd] at hIdle
    have hGroups : s.schedule.groups = s.groups := (congrArg State.groups hIdle :)
    have hPark : s.schedule.park = s.park := (congrArg State.park hIdle :)
    rw [hGroups, hPark]
    exact hIdle

section
variable {s v u : State} {c : Chan} {q : Seq} {h : List Plateau} {l : GroupId} {n : SlotId} {intake : List Order}

/-- With orders of two groups still in flight the request pends on. -/
theorem RunDone.pends (k : RunDone s c q h l n intake v) (hNone : noneWaits v) (hMode : s.mode = .idle)
    (hMany : ¬ fewOrders v) : v.recount.schedule = v.detachIdle := by
  obtain ⟨hModeV, -⟩ := k.fields
  have hCalm : v.recount = v := by
    unfold State.recount
    refine if_neg fun hMet => hMany ?_
    rw [fewOrders_iff]
    omega
  rw [hCalm, schedule_idle hNone (by rw [hModeV, hMode]; decide) (by rw [hModeV, hMode]; decide)]

/-- With orders of one group at most in flight PARKED is taken up. -/
theorem RunDone.parks (k : RunDone s c q h l n intake v) (hMode : s.mode = .idle) (hPending : s.parkedPending = true)
    (hSeries : ∀ m : GroupId, seriesOf s m = .none ∨ seriesOf s m = .order) (hFew : fewOrders v) : v.recount = v.parkedFrom := by
  obtain ⟨hModeV, hPendingV, -⟩ := k.fields
  have hMet : v.recount = v.changeMode .parked := by
    unfold State.recount
    refine if_pos ⟨hPendingV.trans hPending, hModeV.trans hMode, ?_⟩
    have := (fewOrders_iff v).mp hFew
    omega
  rw [hMet, changeMode_parkedQuiet fun m => ?_]
  rw [k.series m]
  split_ifs
  · rintro (e | e | e) <;> exact nomatch e
  · rcases hSeries m with e | e <;> rw [e] <;> rintro (e | e | e) <;> exact nomatch e

end

/-! ### A SPOT that waits behind a SPOT (R104) -/

theorem checksOf_spots {s : State} (h : ∀ o ∈ s.intake, ∀ d : Chan, o.job ≠ .selfcheck d) : checksOf s = [] := by
  unfold checksOf
  rw [List.filter_eq_nil_iff.mpr fun o ho hActive => ?_]
  · rfl
  · obtain ⟨-, hJob⟩ := Bool.and_eq_true_iff.mp hActive
    cases hKind : o.job with
    | selfcheck d => exact absurd hKind (h o ho d)
    | spot node p =>
      rw [hKind] at hJob
      exact nomatch hJob

/-- Eligibility looks at wiring, standings, contexts, checks and yields alone. -/
theorem eligible_checks {s t : State} {g g' : Group} (hWiring : t.wiring = s.wiring) (hChecks : checksOf t = checksOf s)
    (hYields : t.yields = s.yields) (hMembers : g'.members = g.members)
    (hStanding : ∀ d : Chan, t.safety[d].health = s.safety[d].health ∧ t.safety[d].disconnected = s.safety[d].disconnected)
    (hCtx : ∀ d : Chan, t.seqs[d].ctx = .held ↔ s.seqs[d].ctx = .held) (d : Chan) : eligible t g' d = eligible s g d := by
  obtain ⟨hHealth, hDisconnected⟩ := hStanding d
  have hHeld : decide (t.seqs[d].ctx ≠ .held) = decide (s.seqs[d].ctx ≠ .held) := decide_eq_decide.mpr (not_congr (hCtx d))
  unfold eligible wiredInto serviceable groupPassive
  rw [checking_of hChecks, hWiring, hYields, hMembers, hHealth, hDisconnected, hHeld]

theorem Spotted.rests {s w t : State} {o : Order} {p : PlanId} {g : Group} {c : Chan} (h : Spotted s o p g c w)
    (hEnd : t = w.detachIdle) : t.groups[o.group] = some { g with series := .order, seriesCount := g.seriesCount + 1 }
      ∧ t.seqs[c] = runStarted s c .triple (some o.slot) (runCopy s c p) ∧ t.safety[c] = safetyStarted s c := by
  obtain ⟨hSeq, hSafety⟩ := detachIdle_chan w c
  have hFrame := detachIdle_frame w
  have hRuns : w.seqs[c].run ≠ .none := by
    rw [h.runs]
    exact fun e => nomatch e
  rw [hEnd]
  refine ⟨?_, ?_, ?_⟩
  · rw [hFrame]
    exact h.group
  · rw [hSeq, restedSeq_self fun e => absurd e hRuns, h.chan.1]
  · rw [hSafety, restedSafety_self fun e => absurd e hRuns, h.chan.2]

/-- A SPOT granted in any mode: its group, its channel, and what of the part moves at all. -/
theorem SoleWaits.spot_runs {s : State} {o : Order} {node : NodeId} {p : PlanId} {g : Group} {c : Chan} (h : SoleWaits s o)
    (hJob : o.job = .spot node p) (hGroup : s.groups[o.group] = some g) (hSeries : g.series = .none) (hSettle : g.settle = none)
    (hCheck : checkInProgress s o.group = false) (hPending : s.parkedPending = false) (hMode : s.mode ≠ .safeStop)
    (hParked : s.mode = .parked → permissionFree s = true) (hInject : g.injector = some c)
    (hOwn : ∀ m : GroupId, m ≠ o.group → injectorOf s m ≠ some c) (hReady : s.plans[p].ready = true)
    (hAdmits : groupPassive s g = false ∧ lowestEligible s g ≠ none) :
    s.schedule = { s with
      intake := runningNow s.intake o.slot, mem := s.mem.write (slotAddr o.slot + 0x12) 2
      groups := s.schedule.groups, seqs := s.schedule.seqs, safety := s.schedule.safety }
    ∧ s.schedule.groups[o.group] = some { g with series := .order, seriesCount := g.seriesCount + 1 }
    ∧ s.schedule.seqs[c] = runStarted s c .triple (some o.slot) (runCopy s c p) ∧ s.schedule.safety[c] = safetyStarted s c := by
  have hGrant := grantable_spot h.front hJob hGroup hSeries hSettle hCheck hPending hMode hParked
  have hSpotted := Spotted.granted (c := c) hJob hGroup hInject hReady hAdmits
  have hIntake : (s.grant o).intake = runningNow s.intake o.slot := by rw [hSpotted.frame]
  have hModeW : (s.grant o).mode = s.mode := by rw [hSpotted.frame]
  by_cases hRun : s.mode = .run
  · have hEnd := h.granted_run hGrant rfl hIntake (hModeW.trans hRun)
    generalize s.grant o = w at hSpotted hEnd
    refine ⟨?_, hSpotted.leaves hOwn hEnd⟩
    have hFrame := startAll_frame hEnd
    have hW := hSpotted.frame
    generalize s.schedule.groups = groups, s.schedule.seqs = seqs, s.schedule.safety = safety at hFrame ⊢
    rw [hFrame, hW]
  · have hBusy : permissionFree (s.grant o) = false := by
      rw [← Bool.not_eq_true]
      intro hFree
      have hHere := List.all_eq_true.mp hFree o.group (mem_allNodes _)
      rw [seriesOf_some hSpotted.group] at hHere
      exact nomatch hHere
    have hEnd := h.granted_rest hGrant rfl hIntake (by rw [hModeW]; exact hRun) fun _ => hBusy
    generalize s.grant o = w at hSpotted hEnd
    refine ⟨?_, hSpotted.rests hEnd⟩
    have hFrame := detachIdle_frame w
    rw [← hEnd] at hFrame
    have hW := hSpotted.frame
    have hGroups : s.schedule.groups = w.groups := (congrArg State.groups hFrame :)
    rw [hGroups]
    generalize s.schedule.seqs = seqs, s.schedule.safety = safety at hFrame ⊢
    rw [hFrame, hW]

end Sys2Proof.Machine
end

section
/-! PROOFS. The third edge of an order's run in each mode, and with a SPOT behind it. -/

namespace Sys2Proof.Machine

section
variable {s v u : State} {c : Chan} {q : Seq} {h : List Plateau} {l : GroupId} {n : SlotId} {job : Job} {k : Nat} {rest : List Order}

theorem noneWaits_finishing (hDone : RunDone s c q h l n (⟨n, job, .finishing, l, k⟩ :: rest) v)
    (hRest : ∀ o ∈ rest, o.phase ≠ .waiting) : noneWaits v := by
  obtain ⟨-, -, -, -, hIntake, -⟩ := hDone.fields
  intro o ho
  rw [hIntake] at ho
  rcases List.mem_cons.mp ho with rfl | ho
  · exact fun e => nomatch e
  · exact hRest o ho

/-- In PARKED with a turn due, the turn that follows the order's run (R114). -/
theorem RunDone.turn_follows (hDone : RunDone s c q h l n (⟨n, job, .finishing, l, k⟩ :: rest) v)
    (hRested : Rested s c q h l n (⟨n, job, .finishing, l, k⟩ :: rest) u) (hCoupling : q.coupling = s.seqs[c].coupling)
    (hNone : noneWaits v) (hCheck : ∀ m, checkInProgress v m = false) (hMode : s.mode = .parked) (hPark : s.park = .due)
    (hSeries : ∀ x : GroupId, seriesOf u x = .none) {m : GroupId} {g : Group} {d : Chan} {p : PlanId} {ahead behind : List GroupId}
    (hRotation : s.rotation = ahead ++ m :: behind)
    (hAhead : ∀ x ∈ ahead, ∀ (g' : Group) (e : Chan) (r : PlanId), ¬ readyToMeasure u x g' e r) (hReady : readyToMeasure u m g d p) :
    v.schedule.park = .stopped ∧ v.schedule.rotation = s.rotation ∧ v.schedule.intake = u.intake
      ∧ v.schedule.groups = upd u.groups m (some { g with
          series := .turn, policy := s.plans[p].policy, rotateCount := s.plans[p].rotate, rotation := 0
          seriesCount := g.seriesCount + 1 })
      ∧ v.schedule.seqs[d].run = .triple ∧ v.schedule.seqs[d].owner = none
      ∧ v.schedule.seqs[d].copy = ⟨s.plans[p], some p, s.wiring[d].rm, s.wiring[d].rs⟩
      ∧ (d ≠ c → v.schedule.seqs[c] = u.seqs[c] ∧ v.schedule.safety[c] = u.safety[c])
      ∧ (d = c → s.seqs[c].coupling = .attached → v.schedule.seqs[c].phase = .waitAttach ∧ v.schedule.safety[c].verify = some 5) := by
  obtain ⟨hModeV, -, hParkV, hRotationV, hIntakeV, hPlansV, hNodePlanV, hWiringV, -⟩ := hDone.fields
  obtain ⟨hGroups, hNodePlan, hPlans, -, hIntakeU, -⟩ := hRested.groups hDone
  have hSame (x : GroupId) (g' : Group) (e : Chan) (r : PlanId) (hx : readyToMeasure v x g' e r) : readyToMeasure u x g' e r := by
    unfold readyToMeasure at hx ⊢
    rw [hGroups, hNodePlan, hPlans]
    exact hx
  have hReadyV : readyToMeasure v m g d p := by
    unfold readyToMeasure at hReady ⊢
    rw [hGroups, hNodePlan, hPlans] at hReady
    exact hReady
  have hSeriesV (x : GroupId) : seriesOf v x = .none := by
    have hx := hSeries x
    unfold seriesOf at hx ⊢
    rw [hGroups] at hx
    exact hx
  obtain ⟨w, hEnd, hW⟩ := Machine.turn_follows (hModeV.trans hMode) (hParkV.trans hPark) hNone hCheck hSeriesV (hRotationV.trans hRotation)
    hReadyV fun x hx g' e r hNot => hAhead x hx g' e r (hSame x g' e r hNot)
  have hFrame := detachIdle_frame w
  have hSeqW : w.seqs[d] = runStarted (v.detach d) d .triple none (runCopy v d p) := by
    rw [hW]
    exact upd_same _ _ _
  obtain ⟨hKind, hOwner, hCopy⟩ := runStarted_shape (v.detach d) d .triple none (runCopy v d p)
  have hRuns : w.seqs[d].run ≠ .none := by
    rw [hSeqW, hKind]
    exact fun e => nomatch e
  obtain ⟨hSeqD, hSafetyD⟩ := detachIdle_chan w d
  rw [← hEnd] at hFrame hSeqD hSafetyD
  rw [restedSeq_self fun e => absurd e hRuns] at hSeqD
  rw [restedSafety_self fun e => absurd e hRuns] at hSafetyD
  have hChanC := detachIdle_chan w c
  rw [← hEnd] at hChanC
  have hRested' := hDone.rested_chan hRested hCoupling
  generalize v.schedule = t at *
  refine ⟨?_, ?_, ?_, ?_, ?_, ?_, ?_, fun hd => ?_, fun hd hAttached => ?_⟩
  · rw [hFrame, hW]
  · rw [hFrame, hW]
    exact hRotationV
  · rw [hFrame, hW]
    exact hIntakeU.symm
  · rw [hFrame, hW, hGroups]
    unfold ownGroup
    rw [hPlansV]
  · rw [hSeqD, hSeqW, hKind]
  · rw [hSeqD, hSeqW, hOwner]
  · rw [hSeqD, hSeqW, hCopy]
    unfold runCopy
    rw [hPlansV, hWiringV]
  · have hSeqC : w.seqs[c] = v.seqs[c] := by
      rw [hW]
      exact upd_other _ _ _ _ hd
    have hSafetyC : w.safety[c] = v.safety[c] := by
      rw [hW]
      exact upd_other _ _ _ _ hd
    rw [hSeqC, hSafetyC] at hChanC
    exact ⟨hChanC.1.trans hRested'.1, hChanC.2.trans hRested'.2⟩
  · subst hd
    have hDetach := detach_attached (s := v) (c := d) (by rw [hDone.seq]; rfl)
      (by rw [hDone.seq]; exact hCoupling.trans hAttached)
    have hSeqDet : (v.detach d).seqs[d].coupling = .detached := by
      rw [hDetach]
      exact congrArg Seq.coupling (upd_same _ _ _)
    have hVerify : (v.detach d).safety[d].verify = some 5 := by
      rw [hDetach]
      exact congrArg ChanSafety.verify (upd_same _ _ _)
    refine ⟨?_, ?_⟩
    · rw [hSeqD, hSeqW, runStarted_held hSeqDet (by rw [hVerify]; exact fun e => nomatch e)]
      rfl
    · rw [hSafetyD, hW]
      refine (congrArg ChanSafety.verify (upd_same _ _ _)).trans ?_
      rw [safetyStarted_verify, hVerify]

/-- A pending PARKED request at the completion of an order's run (R102). -/
theorem RunDone.pending_met (hDone : RunDone s c q h l n (⟨n, job, .finishing, l, k⟩ :: rest) v)
    (hRested : Rested s c q h l n (⟨n, job, .finishing, l, k⟩ :: rest) u) (hNone : noneWaits v) (hMode : s.mode = .idle)
    (hPending : s.parkedPending = true) (hSeries : ∀ m : GroupId, seriesOf s m = .none ∨ seriesOf s m = .order) :
    v.recount.schedule.triples = u.triples ∧ v.recount.schedule.intake = u.intake
      ∧ (¬ fewOrders u → v.recount.schedule.mode = .idle ∧ v.recount.schedule.parkedPending = true ∧ v.recount.schedule.park = s.park
          ∧ v.recount.schedule.rotation = s.rotation ∧ v.recount.schedule.groups = u.groups)
      ∧ (fewOrders u → v.recount.schedule.mode = .parked ∧ v.recount.schedule.parkedPending = false
          ∧ v.recount.schedule.rotation = allNodes.filter (fun m => (s.groups[m]).isSome)
          ∧ ((∃ m : GroupId, seriesOf u m = .order)
              ∨ (∀ (m : GroupId) (g : Group) (d : Chan) (p : PlanId), ¬ readyToMeasure u m g d p) →
            v.recount.schedule.park = .due ∧ v.recount.schedule.groups = u.groups)) := by
  obtain ⟨hModeV, hPendingV, hParkV, hRotationV, -, -, -, -, -, hGroupsV⟩ := hDone.fields
  obtain ⟨hGroups, hNodePlan, hPlans, hTriples, hIntakeU, -⟩ := hRested.groups hDone
  have hFewSame : fewOrders u ↔ fewOrders v := by
    unfold fewOrders seriesOf
    rw [hGroups]
  rw [hFewSame]
  by_cases hFew : fewOrders v
  · rw [hDone.parks hMode hPending hSeries hFew]
    have hNoneW : noneWaits v.parkedFrom := hNone
    have hFrame := schedule_parkedFrame (s := v.parkedFrom) hNoneW rfl
    have hList : v.parkedFrom.rotation = allNodes.filter (fun m => (s.groups[m]).isSome) := by
      refine List.filter_congr fun m _ => ?_
      have hSome := congrArg Option.isSome (freedGroups_shape s l m)
      rw [hGroupsV]
      rwa [Option.isSome_map, Option.isSome_map] at hSome
    have hStays : ((∃ m : GroupId, seriesOf u m = .order)
        ∨ (∀ (m : GroupId) (g : Group) (d : Chan) (p : PlanId), ¬ readyToMeasure u m g d p)) →
        v.parkedFrom.schedule = v.parkedFrom.detachIdle := fun hStay => by
      refine schedule_parked hNoneW rfl fun _ hFree x _ => ?_
      rcases hStay with ⟨m, hm⟩ | hUnready
      · have hHere := List.all_eq_true.mp hFree m (mem_allNodes m)
        have hOrder : seriesOf v.parkedFrom m = .order := by
          unfold seriesOf at hm ⊢
          rw [hGroups] at hm
          exact hm
        rw [hOrder] at hHere
        exact nomatch hHere
      · refine Bool.eq_false_iff.mpr fun hx => ?_
        obtain ⟨⟨g, d, p, hReady⟩, -⟩ := (startable_iff hNoneW x).mp hx
        refine hUnready x g d p ?_
        unfold readyToMeasure at hReady ⊢
        rw [hGroups, hNodePlan, hPlans]
        exact hReady
    have hIdle := detachIdle_frame v.parkedFrom
    obtain ⟨w, hw⟩ : ∃ w, w = v.parkedFrom := ⟨_, rfl⟩
    obtain ⟨hModeW, hPendingW, hParkW, hGroupsW, hTriplesW, hIntakeW⟩ : w.mode = .parked ∧ w.parkedPending = false ∧ w.park = .due
        ∧ w.groups = v.groups ∧ w.triples = v.triples ∧ w.intake = v.intake := by
      rw [hw]
      exact ⟨rfl, rfl, rfl, rfl, rfl, rfl⟩
    rw [← hw] at hFrame hList hStays hIdle ⊢
    refine ⟨?_, ?_, fun hNot => absurd hFew hNot, fun _ => ⟨?_, ?_, ?_, fun hStay => ?_⟩⟩
    · rw [hFrame]
      exact hTriplesW.trans hTriples.symm
    · rw [hFrame]
      exact hIntakeW.trans hIntakeU.symm
    · rw [hFrame]
      exact hModeW
    · rw [hFrame]
      exact hPendingW
    · rw [hFrame]
      exact hList
    · rw [hStays hStay, hIdle]
      exact ⟨hParkW, hGroupsW.trans hGroups.symm⟩
  · rw [hDone.pends hNone hMode hFew]
    have hIdle := detachIdle_frame v
    generalize v.detachIdle = t at hIdle ⊢
    refine ⟨?_, ?_, fun _ => ⟨?_, ?_, ?_, ?_, ?_⟩, fun hNot => absurd hNot hFew⟩
    · rw [hIdle]
      exact hTriples.symm
    · rw [hIdle]
      exact hIntakeU.symm
    · rw [hIdle]
      exact hModeV.trans hMode
    · rw [hIdle]
      exact hPendingV.trans hPending
    · rw [hIdle]
      exact hParkV
    · rw [hIdle]
      exact hRotationV
    · rw [hIdle]
      exact hGroups.symm

/-- A SPOT that waits behind a SPOT starts at once on the channel (R104, R132). -/
theorem RunDone.spot_follows {o : Order} {x y : NodeId} {r p : PlanId} {g : Group}
    (hDone : RunDone s c q h l n [⟨n, .spot x r, .finishing, l, k⟩, o] v) (hIntake : s.intake = [⟨n, .spot x r, .running, l, k⟩, o])
    (hRun : q.run = .triple) (hJob : o.job = .spot y p) (hWaits : o.phase = .waiting) (hAt : o.group = l) (hSlot : o.slot ≠ n)
    (hMode : s.mode ≠ .safeStop) (hPending : s.parkedPending = false)
    (hParked : s.mode = .parked → ∀ m : GroupId, m ≠ l → seriesOf s m = .none) (hInjects : groupOfInjector s c = some l)
    (hOwn : ownInjector s l c) (hGroup : s.groups[l] = some g) (hSettle : g.settle = none) (hReady : s.plans[p].ready = true)
    (hAdmits : groupPassive s g = false ∧ lowestEligible s g ≠ none) (hCtx : q.ctx = s.seqs[c].ctx) (hAttached : q.coupling = .attached) :
    v.schedule.triples = v.triples ∧ v.schedule.intake = [⟨n, .spot x r, .finishing, l, k⟩, { o with phase := .running }]
      ∧ v.schedule.mem = v.mem.write (slotAddr o.slot + 0x12) 2
      ∧ v.schedule.groups[l] = some { g with series := .order, seriesCount := g.seriesCount + 1 }
      ∧ v.schedule.seqs[c] = { firstHalf q .triple (some o.slot) ⟨s.plans[p], some p, s.wiring[c].rm, s.wiring[c].rs⟩
          s.plans[p].startPol with coupling := .attached }
      ∧ v.schedule.safety[c] = s.safety[c] := by
  subst hAt
  obtain ⟨g', hGroup', hInject⟩ := groupOfInjector_group hInjects
  obtain rfl : g' = g := Option.some.inj (hGroup'.symm.trans hGroup)
  obtain ⟨hModeV, hPendingV, -, -, hIntakeV, hPlansV, -, hWiringV, hYieldsV, -⟩ := hDone.fields
  have hSole : SoleWaits v o := by
    refine ⟨by rw [hIntakeV]; simp, hWaits, fun z hz hzWaits => ?_⟩
    rw [hIntakeV] at hz
    rcases List.mem_cons.mp hz with rfl | hz
    · exact nomatch hzWaits
    · exact List.mem_singleton.mp hz
  have hSpotsV : ∀ z ∈ v.intake, ∀ d : Chan, z.job ≠ .selfcheck d := by
    intro z hz d
    rw [hIntakeV] at hz
    rcases List.mem_cons.mp hz with rfl | hz
    · exact fun e => nomatch e
    · rw [List.mem_singleton.mp hz, hJob]
      exact fun e => nomatch e
  have hSpots : ∀ z ∈ s.intake, ∀ d : Chan, z.job ≠ .selfcheck d := by
    intro z hz d
    rw [hIntake] at hz
    rcases List.mem_cons.mp hz with rfl | hz
    · exact fun e => nomatch e
    · rw [List.mem_singleton.mp hz, hJob]
      exact fun e => nomatch e
  have hEligible (e : Chan) : eligible v { g' with series := .none } e = eligible s g' e :=
    eligible_checks hWiringV (by rw [checksOf_spots hSpotsV, checksOf_spots hSpots]) hYieldsV rfl
      (fun d => by rw [hDone.safety hRun]; exact ⟨rfl, rfl⟩) (fun d => by rw [hDone.ctx hCtx]) e
  obtain ⟨hFrame, hGroupT, hSeqT, hSafetyT⟩ := hSole.spot_runs hJob (hDone.group hGroup) rfl hSettle
    (checkInProgress_spots (fun z hz d _ => hSpotsV z hz d) _) (hPendingV.trans hPending) (by rw [hModeV]; exact hMode)
    (fun hm => permissionFree_none fun m => by
      rw [hDone.series m]
      split_ifs with hml
      · rfl
      · exact hParked (hModeV.symm.trans hm) m hml)
    hInject (fun m hm hInj => hm (hOwn m ((hDone.injectorOf m).symm.trans hInj))) (by rw [hPlansV]; exact hReady)
    ⟨groupPassive_over hYieldsV hAdmits.1 _ rfl, by rw [lowestEligible_congr hEligible]; exact hAdmits.2⟩
  refine ⟨?_, ?_, ?_, hGroupT, ?_, ?_⟩
  · rw [hFrame]
  · rw [hFrame]
    show runningNow v.intake o.slot = _
    rw [hIntakeV]
    unfold runningNow
    rw [List.map_cons, List.map_cons, List.map_nil, if_neg (Ne.symm hSlot), if_pos rfl]
  · rw [hFrame]
  · rw [hSeqT, runStarted_attached (by rw [hDone.seq]; exact hAttached), hDone.seq]
    unfold runCopy
    rw [hPlansV, hWiringV]
    exact firstHalf_congr rfl rfl rfl rfl _ _ _ _ _
  · rw [hSafetyT]
    unfold safetyStarted
    rw [hDone.seq, hDone.safety hRun]
    exact if_pos rfl

end

/-- Settles O42: the run's end frees the group and detaches the channel, unless the mode has something to follow on it. -/
theorem orderRunCompletes : Obligations.OrderRunCompletes := by
  unfold Obligations.OrderRunCompletes
  intro i s u c q h l n job k rest hEdge hKind hHalf hOwner hIntake hu
  have hRested : Rested s c q h l n (⟨n, job, .finishing, l, k⟩ :: rest) u := by
    have hFreed : u.groups = freedGroups s l := by
      refine freed_eq (fun hNone => ?_) fun g hSome => ?_
      · rw [hu]
        simp only [hNone]
      · rw [hu]
        simp only [hSome]
    refine ⟨?_⟩
    rw [← hFreed, hu]
  clear hu
  obtain ⟨hCoupling, hCtx, hRecord, hUb, hView, -⟩ := edgeAt_keeps hEdge
  refine ⟨fun hRest hPending hOthers hMode => ?_,
    fun node r p g hRest hJob hRun hMode hPending hInjects hOwn hGroup hMeasurable hPlan hReady hAttached => ?_,
    fun node r p m g d ahead behind hRest hJob hRun hMode hPending hPark hOthers hSeries hRotation hAhead hReady hFree hSame => ?_,
    fun hMode hPending hRest hSeries => ?_,
    fun o x y r p g hRest hJob hRun hJobO hWaits hAt hSlot hMode hPending hParked hInjects hOwn hGroup hSettle hReady hPassive hHeld
      hChannel hAttached => ?_⟩
  · subst hRest
    obtain ⟨v, hDone, hExec⟩ := exec_edge_order hEdge hKind hHalf hOwner hIntake (fun o ho => nomatch ho)
    rw [hExec, hDone.quiet hRested hCoupling (noneWaits_finishing hDone fun o ho => nomatch ho) hPending hOthers hMode]
  · subst hRest hJob
    obtain ⟨v, hDone, hExec⟩ := exec_edge_order hEdge hKind hHalf hOwner hIntake (fun o ho => nomatch ho)
    obtain ⟨-, hPendingV, -, -, hIntakeV, -⟩ := hDone.fields
    have hNone := noneWaits_finishing hDone fun o ho => nomatch ho
    have hCheck : checkInProgress v l = false := checkInProgress_spots (fun o ho e _ => by
      rw [hIntakeV] at ho
      rw [List.mem_singleton.mp ho]
      exact fun e => nomatch e) l
    obtain ⟨-, -, -, hTriples, hIntakeU, hMem⟩ := hRested.groups hDone
    rw [recount_calm (hPendingV.trans hPending)] at hExec
    obtain ⟨hFrame, hGroupT, hSeqT, hSafetyT⟩ := hDone.series_follows hRun hNone hMode hCheck hInjects hOwn hGroup hMeasurable hPlan
      hReady (hCoupling.trans hAttached)
    refine ⟨_, hExec, ?_, ?_, ?_, hGroupT, ?_, hSafetyT⟩
    · rw [hFrame]
      exact hTriples.symm
    · rw [hFrame]
      exact hIntakeU.symm
    · rw [hFrame]
      exact hMem.symm
    · rw [hSeqT]
      exact firstHalf_congr hCtx hRecord hUb hView _ _ _ _ _
  · subst hRest hJob
    obtain ⟨v, hDone, hExec⟩ := exec_edge_order hEdge hKind hHalf hOwner hIntake (fun o ho => nomatch ho)
    obtain ⟨-, hPendingV, -, -, hIntakeV, -⟩ := hDone.fields
    have hCheck (m : GroupId) : checkInProgress v m = false := checkInProgress_spots (fun o ho e _ => by
      rw [hIntakeV] at ho
      rw [List.mem_singleton.mp ho]
      exact fun e => nomatch e) m
    rw [recount_calm (hPendingV.trans hPending)] at hExec
    exact ⟨_, hExec, hDone.turn_follows hRested hCoupling (noneWaits_finishing hDone fun o ho => nomatch ho) hCheck hMode hPark hSeries
      hRotation hAhead hReady⟩
  · obtain ⟨v, hDone, hExec⟩ := exec_edge_order hEdge hKind hHalf hOwner hIntake fun o ho =>
      ⟨(hRest o ho).2.2, fun hBoth => (hRest o ho).2.1 hBoth.2⟩
    exact ⟨_, hExec, hDone.pending_met hRested (noneWaits_finishing hDone fun o ho => by rw [(hRest o ho).1]; decide) hMode hPending
      hSeries⟩
  · subst hRest hJob
    obtain ⟨v, hDone, hExec⟩ := exec_edge_order hEdge hKind hHalf hOwner hIntake fun z hz => by
      rw [List.mem_singleton.mp hz, hWaits]
      exact ⟨hSlot, fun hBoth => nomatch hBoth.1⟩
    obtain ⟨-, hPendingV, -⟩ := hDone.fields
    obtain ⟨-, -, -, hTriples, -, hMem⟩ := hRested.groups hDone
    rw [recount_calm (hPendingV.trans hPending)] at hExec
    obtain ⟨hTriplesT, hIntakeT, hMemT, hGroupT, hSeqT, hSafetyT⟩ := hDone.spot_follows hIntake hRun hJobO hWaits hAt hSlot hMode
      hPending hParked hInjects hOwn hGroup hSettle hReady (groupState_admits hGroup hPassive hHeld hChannel) hCtx
      (hCoupling.trans hAttached)
    refine ⟨_, hExec, hTriplesT.trans hTriples.symm, hIntakeT, ?_, hGroupT, ?_, hSafetyT⟩
    · rw [hMemT, hMem]
    · rw [hSeqT]
      exact firstHalf_congr hCtx hRecord hUb hView _ _ _ _ _

end Sys2Proof.Machine
end

section
/-! PROOFS. A measurement order that passes its intake: it stands in the list, and a SPOT is granted, waits, or stops the series of
its group. -/

namespace Sys2Proof.Machine

/-! ### An order taken in and enlisted (R120, R124) -/

/-- An order taken in that joined the intake list (R120, R124). -/
def State.enlisted (s : State) (o : Offer) (job : Job) (l : GroupId) : State := { afterOffer s o with
  slots := upd s.slots o.slot .taken
  mem := ((s.takenIn o).mem.write (slotAddr o.slot + 0x12) 1).write (slotAddr o.slot + 0x13) (byteOf l.val)
  intake := s.intake ++ [⟨o.slot, job, .waiting, l, 0⟩] }

theorem enlist_takenIn {s : State} {o : Offer} {node : NodeId} {l : GroupId} (hLeader : leaderOf s node = l) (job : Job) :
    (s.takenIn o).enlist o.slot job node = s.enlisted o job l := by
  obtain ⟨m, hm⟩ : ∃ m, m = (s.takenIn o).mem := ⟨_, rfl⟩
  have hTaken : s.takenIn o = { afterOffer s o with slots := upd s.slots o.slot .taken, mem := m } := by
    rw [hm, takenIn_mem]
    exact takenIn_eq s o
  unfold State.enlist State.enlisted
  rw [leaderOf_takenIn, hLeader, ← hm, hTaken]
  rfl

/-- A SPOT that passes the checks of its intake. -/
theorem exec_spot {n : SlotId} {node : NodeId} {p : PlanId} {o : Offer} {s : State} {l : GroupId} {g : Group}
    (hOffer : offerOf (.spot n (byteOf node.val) (byteOf p.val)) = some o) (h : offerable s o) (hMode : s.mode ≠ .safeStop)
    (hLeader : leaderOf s node = l) (hGroup : s.groups[l] = some g) (hReady : s.plans[p].ready = true)
    (hAdmits : groupPassive s g = false ∧ lowestEligible s g ≠ none) :
    exec (.spot n (byteOf node.val) (byteOf p.val)) s = .next (s.enlisted o (.spot node p) l).schedule := by
  have hSpells : o.kind = .spot ∧ o.target = byteOf node.val ∧ o.bytes[3]? = some (byteOf p.val) := by
    cases hOffer
    exact ⟨rfl, rfl, rfl⟩
  obtain ⟨hIsSpot, hNames, hNamesPlan⟩ := hSpells
  have hTarget := (takenIn_target s o).trans hNames
  have hKind := takenIn_kind s o
  rw [hIsSpot] at hKind
  have hPlan : slotParam (s.takenIn o).mem o.slot 3 = byteOf p.val := by
    refine (takenIn_host o s (k := 3) (by decide)).trans ?_
    rw [List.getD_eq_getElem?_getD, hNamesPlan]
    rfl
  have hCheck : spotCheck (s.takenIn o) (leaderOf (s.takenIn o) node) p = none := by
    have hHere : spotCheck s l p = none := (spotCheck_none hGroup p).mpr ⟨hReady, hAdmits⟩
    unfold spotCheck at hHere ⊢
    rw [takenIn_plans, groupState_takenIn, leaderOf_takenIn, hLeader]
    exact hHere
  have hModeTaken : (s.takenIn o).mode ≠ .safeStop := by
    rw [takenIn_mode]
    exact hMode
  rw [exec_offerable hOffer h, ← enlist_takenIn hLeader]
  generalize s.takenIn o = u at hTarget hKind hPlan hCheck hModeTaken ⊢
  rw [carryOut_kind hModeTaken hKind]
  unfold State.carryKind State.conclude
  dsimp only
  rw [takeSpot_checked hTarget hPlan, hCheck]

/-! ### The bytes of a slot whose order is in the list (section 11.6) -/

theorem takenAtIntake_of {s t : State} {o : Offer} {ph : OrderPhase} {l : GroupId} (hSlot : t.slots[o.slot] = .taken)
    (hMem : ∀ k, k < 64 → t.mem.read (slotAddr o.slot + k) =
      if k = 0x12 then byteOf ph.code else if k = 0x13 then byteOf l.val else (s.takenIn o).mem.read (slotAddr o.slot + k)) :
    takenAtIntake s t o ph l := by
  refine ⟨hSlot, ⟨?_, fun k hLow hHigh => ?_⟩, fun k hk => ?_⟩
  · refine (hMem 0 (by decide)).trans ?_
    rw [if_neg (by decide), if_neg (by decide), Nat.add_zero, takenIn_mem]
    exact stampedMemory_state _ _ _
  · rw [hMem k (by omega), if_neg (by omega), if_neg (by omega)]
    exact takenIn_host o s ⟨hLow, hHigh⟩
  · rw [Nat.add_assoc, hMem (0x10 + k) (by omega)]
    split_ifs with hProgress hGroup
    · obtain rfl : k = 2 := by omega
      rfl
    · obtain rfl : k = 3 := by omega
      rfl
    · rw [takenIn_mem, ← Nat.add_assoc]
      obtain hSeq | hRest := Nat.lt_or_ge k 2
      · rw [stampedMemory_seq _ _ _ hSeq, List.getD_append _ _ _ _ (by rw [le16_length]; exact hSeq)]
      · rw [show slotAddr o.slot + 0x10 + k = slotAddr o.slot + 0x13 + (k - 3) by omega, stampedMemory_rest _ _ _ (by omega),
          if_neg (by omega), List.getD_append_right _ _ _ _ (by rw [le16_length]; exact hRest), le16_length,
          List.getD_eq_default _ _ (by simp; omega)]

theorem enlisted_waits {s t : State} {o : Offer} {job : Job} {l : GroupId} (hSlots : t.slots = upd s.slots o.slot .taken)
    (hMem : t.mem = (s.enlisted o job l).mem) : takenAtIntake s t o .waiting l := by
  refine takenAtIntake_of (by rw [hSlots]; exact upd_same _ _ _) fun k hk => ?_
  rw [hMem]
  unfold State.enlisted
  dsimp only
  split_ifs with hProgress hGroup
  · subst hProgress
    rw [Memory.read_write_other _ _ _ _ (by omega), Memory.read_write_same]
    rfl
  · subst hGroup
    rw [Memory.read_write_same]
  · rw [Memory.read_write_other _ _ _ _ (by omega), Memory.read_write_other _ _ _ _ (by omega)]

theorem enlisted_runs {s t : State} {o : Offer} {job : Job} {l : GroupId} (hSlots : t.slots = upd s.slots o.slot .taken)
    (hMem : t.mem = (s.enlisted o job l).mem.write (slotAddr o.slot + 0x12) 2) : takenAtIntake s t o .running l := by
  refine takenAtIntake_of (by rw [hSlots]; exact upd_same _ _ _) fun k hk => ?_
  rw [hMem]
  unfold State.enlisted
  dsimp only
  split_ifs with hProgress hGroup
  · subst hProgress
    rw [Memory.read_write_same]
    rfl
  · subst hGroup
    rw [Memory.read_write_other _ _ _ _ (by omega), Memory.read_write_same]
  · rw [Memory.read_write_other _ _ _ _ (by omega), Memory.read_write_other _ _ _ _ (by omega),
      Memory.read_write_other _ _ _ _ (by omega)]

theorem enlisted_outside {i : Instr} {o : Offer} (hOffer : offerOf i = some o) (s : State) (job : Job) (l : GroupId) {a : Nat}
    (h : ¬ (slotAddr o.slot ≤ a ∧ a < slotAddr o.slot + 64)) : (s.enlisted o job l).mem.read a = s.mem.read a := by
  unfold State.enlisted
  dsimp only
  rw [Memory.read_write_other _ _ _ _ (by omega), Memory.read_write_other _ _ _ _ (by omega), takenIn_outside hOffer s (by omega)]

theorem enlisted_sole {s : State} (hIntake : s.intake = []) (o : Offer) (job : Job) (l : GroupId) :
    SoleWaits (s.enlisted o job l) ⟨o.slot, job, .waiting, l, 0⟩ := by
  have hList : (s.enlisted o job l).intake = [⟨o.slot, job, .waiting, l, 0⟩] := by
    unfold State.enlisted
    rw [hIntake]
    rfl
  exact ⟨by rw [hList]; exact List.mem_singleton_self _, rfl, fun x hx _ => by rw [hList] at hx; exact List.mem_singleton.mp hx⟩

theorem enlisted_eligible {s : State} (hIntake : s.intake = []) (o : Offer) (job : Job) (l : GroupId) (g : Group) (d : Chan) :
    eligible (s.enlisted o job l) g d = eligible s g d := by
  have hChecking (c : Chan) : checking (s.enlisted o job l) c = checking s c := by
    unfold checking State.enlisted
    simp [hIntake]
  unfold eligible serviceable
  rw [hChecking]
  rfl

theorem enlisted_admits {s : State} (hIntake : s.intake = []) (o : Offer) (job : Job) (l : GroupId) {g : Group}
    (h : groupPassive s g = false ∧ lowestEligible s g ≠ none) :
    groupPassive (s.enlisted o job l) g = false ∧ lowestEligible (s.enlisted o job l) g ≠ none := by
  refine ⟨h.1, ?_⟩
  rw [lowestEligible_congr (enlisted_eligible hIntake o job l g)]
  exact h.2

theorem enlisted_spots {s : State} (hIntake : s.intake = []) (o : Offer) (job : Job) (l m : GroupId) :
    checkInProgress (s.enlisted o job l) m = false := by
  refine checkInProgress_spots (fun x hx d hNot => ?_) m
  unfold State.enlisted at hx
  dsimp only at hx
  rw [hIntake] at hx
  rw [List.mem_singleton.mp hx] at hNot
  exact absurd rfl hNot

/-! ### A series asked to stop (R104, R105) -/

theorem abandonRun_intake (s : State) (c : Chan) : (s.abandonRun c).intake = s.intake := by
  rw [abandonRun_eq]
  rfl

theorem requestStop_frontOf (s : State) (l m : GroupId) : frontOf (s.requestStop l) m = frontOf s m := by
  have hIntake : (s.requestStop l).intake = s.intake := by
    unfold State.requestStop
    split
    · rfl
    · split
      · rfl
      · split_ifs
        · exact (State.modGroup_intake _ _ _).trans (abandonRun_intake _ _)
        · exact State.modGroup_intake _ _ _
        · rfl
  unfold frontOf
  rw [hIntake]

theorem requestStop_asks {s : State} {l : GroupId} {g : Group} {c : Chan} {o : Order} (hGroup : s.groups[l] = some g)
    (hSeries : g.series = .series) (hInject : g.injector = some c) (hFront : frontOf s l = some o) : s.requestStop l =
      if s.seqs[c].phase = .waitAttach then (s.abandonRun c).seriesOver l
      else { s with
        seqs := upd s.seqs c { s.seqs[c] with stopRequest := true }, groups := upd s.groups l (some { g with series := .stopping }) } := by
  unfold State.requestStop
  rw [hGroup]
  dsimp only
  rw [hInject]
  dsimp only
  rw [if_pos ⟨hSeries, by rw [hFront]; rfl⟩]
  refine if_congr Iff.rfl rfl ?_
  generalize ({ s.seqs[c] with stopRequest := true } : Seq) = q
  rw [← hInject]
  exact modGroup_some (s := s.setSeq c q) hGroup fun g => { g with series := .stopping }

/-- Where one order waits, the stop requests ask its group alone, and the decisions begin from there. -/
theorem SoleWaits.schedule_asked {s : State} {o : Order} (h : SoleWaits s o) (hAsked : seriesOf (s.requestStop o.group) o.group ≠ .series) :
    s.schedule = (s.requestStop o.group).schedule := by
  have hPass : forEach allNodes (fun l t => t.requestStop l) s = s.requestStop o.group := by
    have hElse : ∀ (list : List GroupId) (t : State), (∀ m : GroupId, m ≠ o.group → frontOf t m = none) →
        o.group ∉ list → forEach list (fun l t => t.requestStop l) t = t := fun list t hNone hNot =>
      forEach_unchanged _ _ _ fun m hm => requestStop_noFront (hNone m fun e => hNot (e ▸ hm))
    obtain ⟨before, after, -, hBefore, hAfter, hSplit⟩ := forEach_split (fun l t => t.requestStop l) allNodes_nodup (mem_allNodes o.group) s
    rw [hSplit, hElse before s (fun m hm => h.frontElse hm) hBefore]
    exact hElse after _ (fun m hm => by rw [requestStop_frontOf]; exact h.frontElse hm) hAfter
  have hAgain : forEach allNodes (fun l t => t.requestStop l) (s.requestStop o.group) = s.requestStop o.group :=
    forEach_unchanged _ _ _ fun m _ => by
      by_cases hml : m = o.group
      · rw [hml]
        exact requestStop_noSeries hAsked
      · exact requestStop_noFront (by rw [requestStop_frontOf]; exact h.frontElse hml)
  unfold State.schedule scheduleFuel
  rw [scheduleAll, scheduleAll]
  rw [hPass, hAgain]

end Sys2Proof.Machine
end

section
/-! PROOFS. A SPOT with no other order, in IDLE and in RUN. -/

namespace Sys2Proof.Machine

theorem offerOf_slot {n : SlotId} {node p : Byte} {o : Offer} (h : offerOf (.spot n node p) = some o) : o.slot = n := by
  cases h
  rfl

/-! ### In IDLE (R104, R124, R132) -/

theorem spot_waits_idle {n : SlotId} {node : NodeId} {p : PlanId} {l : GroupId} {g : Group} {o : Offer} {s : State}
    (hOffer : offerOf (.spot n (byteOf node.val) (byteOf p.val)) = some o) (h : offerable s o) (hRest : restful s)
    (hLeader : leaderOf s node = l) (hGroup : s.groups[l] = some g) (hSeries : g.series = .none) (hReady : s.plans[p].ready = true)
    (hAdmits : groupPassive s g = false ∧ lowestEligible s g ≠ none) (hSettle : g.settle ≠ none) :
    exec (.spot n (byteOf node.val) (byteOf p.val)) s = .next (s.enlisted o (.spot node p) l) := by
  obtain ⟨hMode, hIntake, hDetached⟩ := hRest
  have hStuck : Stuck (s.enlisted o (.spot node p) l) ⟨o.slot, .spot node p, .waiting, l, 0⟩ := by
    refine ⟨enlisted_sole hIntake o _ l, fun g' hg => ?_⟩
    obtain rfl : g = g' := Option.some.inj (hGroup.symm.trans hg)
    exact ⟨by rw [hSeries]; decide, .inr hSettle⟩
  rw [exec_spot hOffer h (by rw [hMode]; decide) hLeader hGroup hReady hAdmits, hStuck.schedule_idle hMode]
  exact congrArg _ (detachIdle_idle hDetached)

theorem spot_runs_idle {n : SlotId} {node : NodeId} {p : PlanId} {l : GroupId} {g : Group} {c : Chan} {o : Offer} {s : State}
    (hOffer : offerOf (.spot n (byteOf node.val) (byteOf p.val)) = some o) (h : offerable s o) (hRest : restful s)
    (hPending : s.parkedPending = false) (hLeader : leaderOf s node = l) (hGroup : s.groups[l] = some g) (hSeries : g.series = .none)
    (hInject : g.injector = some c) (hRun : s.seqs[c].run = .none) (hReady : s.plans[p].ready = true)
    (hAdmits : groupPassive s g = false ∧ lowestEligible s g ≠ none) (hSettle : g.settle = none) :
    exec (.spot n (byteOf node.val) (byteOf p.val)) s = .next { s.enlisted o (.spot node p) l with
      groups := upd s.groups l (some { g with series := .order, seriesCount := g.seriesCount + 1 })
      intake := [⟨o.slot, .spot node p, .running, l, 0⟩]
      mem := (s.enlisted o (.spot node p) l).mem.write (slotAddr o.slot + 0x12) 2
      seqs := upd s.seqs c (runStarted s c .triple (some o.slot) (runCopy s c p)) } := by
  obtain ⟨hMode, hIntake, hDetached⟩ := hRest
  obtain ⟨v, hv⟩ : ∃ v : State, v = s.enlisted o (.spot node p) l := ⟨_, rfl⟩
  obtain ⟨x, hx⟩ : ∃ x : Order, x = ⟨o.slot, .spot node p, .waiting, l, 0⟩ := ⟨_, rfl⟩
  have hSole : SoleWaits v x := by
    rw [hv, hx]
    exact enlisted_sole hIntake o _ l
  have hAt : x.group = l := by rw [hx]
  have hGroupV : v.groups[x.group] = some g := by
    subst hx hv
    exact hGroup
  have hAdmitsV : groupPassive v g = false ∧ lowestEligible v g ≠ none := by
    rw [hv]
    exact enlisted_admits hIntake o _ l hAdmits
  have hGrant : grantable v x = true := grantable_spot hSole.front (by rw [hx]) hGroupV hSeries hSettle
    (by rw [hv]; exact enlisted_spots hIntake o _ l _) (by rw [hv]; exact hPending)
    (by rw [hv]; exact fun e => nomatch (show s.mode = .safeStop from e).symm.trans hMode)
    fun e => nomatch (show s.mode = .parked by rw [hv] at e; exact e).symm.trans hMode
  have hSpotted := Spotted.granted (c := c) (p := p) (node := node) (by rw [hx]) hGroupV hInject (by rw [hv]; exact hReady) hAdmitsV
  have hSafety : upd v.safety c (safetyStarted v c) = s.safety := by
    have hSame : safetyStarted v c = s.safety[c] := by
      rw [hv]
      exact if_pos hRun
    rw [hSame, hv]
    exact upd_self s.safety c
  have hStarted : runStarted v c .triple (some x.slot) (runCopy v c p) = runStarted s c .triple (some o.slot) (runCopy s c p) := by
    rw [hx, hv]
    exact runStarted_congr (s := s) (by rfl) (mayAttach_congr (fun _ => rfl) rfl rfl (fun _ => rfl) c) _ _ _
  have hList : runningNow v.intake x.slot = [⟨o.slot, .spot node p, .running, l, 0⟩] := by
    have hIntakeV : v.intake = [x] := by
      rw [hv, hx]
      unfold State.enlisted
      rw [hIntake]
      rfl
    rw [hIntakeV, hx]
    exact congrArg (fun y => [y]) (if_pos rfl)
  have hModeV : (v.grant x).mode = .idle := by
    rw [hSpotted.frame, hv]
    exact hMode
  have hIntakeW : (v.grant x).intake = runningNow v.intake x.slot := by rw [hSpotted.frame]
  have hEnd := hSole.granted_rest hGrant rfl hIntakeW (by rw [hModeV]; decide) fun e => nomatch hModeV.symm.trans e
  rw [exec_spot hOffer h (by rw [hMode]; decide) hLeader hGroup hReady hAdmits, ← hv, hEnd]
  have hFrame := hSpotted.frame
  have hRests : ∀ d : Chan, (v.grant x).seqs[d].run = .none → (v.grant x).seqs[d].coupling = .detached := fun d => by
    by_cases hd : c = d
    · subst hd
      rw [hSpotted.runs]
      exact fun e => nomatch e
    · rw [hFrame]
      dsimp only
      rw [upd_other _ _ _ _ hd, hv]
      exact hDetached d
  rw [detachIdle_idle hRests, hFrame, hSafety, hStarted, hList, hAt, hv, hx]
  rfl

/-! ### In RUN (R37, R104, R105) -/

section
variable {job : Job} {node : NodeId} {p : PlanId} {l : GroupId} {g : Group} {c : Chan} {o : Offer} {s : State}

theorem order_stops_run (hMode : s.mode = .run) (hIntake : s.intake = []) (hGroup : s.groups[l] = some g) (hSeries : g.series = .series)
    (hInject : g.injector = some c) (hOwn : ownInjector s l c) (hRun : s.seqs[c].run = .series) (hPhase : s.seqs[c].phase ≠ .waitAttach) :
    ∃ t : State, (s.enlisted o job l).schedule = t
      ∧ t = { s.enlisted o job l with groups := t.groups, seqs := t.seqs, safety := t.safety }
      ∧ t.groups[l] = some { g with series := .stopping } ∧ t.seqs[c] = { s.seqs[c] with stopRequest := true }
      ∧ t.safety[c] = s.safety[c]
      ∧ ∀ d : Chan, d ≠ c → (∀ m : GroupId, injectorOf s m ≠ some d) → s.seqs[d].coupling = .detached → t.safety[d] = s.safety[d] := by
  obtain ⟨v, hv⟩ : ∃ v : State, v = s.enlisted o job l := ⟨_, rfl⟩
  obtain ⟨x, hx⟩ : ∃ x : Order, x = ⟨o.slot, job, .waiting, l, 0⟩ := ⟨_, rfl⟩
  have hSole : SoleWaits v x := by
    rw [hv, hx]
    exact enlisted_sole hIntake o _ l
  have hAt : x.group = l := by rw [hx]
  have hAsk : v.requestStop l = { v with
      seqs := upd s.seqs c { s.seqs[c] with stopRequest := true }, groups := upd s.groups l (some { g with series := .stopping }) } := by
    rw [requestStop_asks (s := v) (by rw [hv]; exact hGroup) hSeries hInject (hAt ▸ hSole.front), hv]
    exact if_neg hPhase
  obtain ⟨w, hw⟩ : ∃ w : State, w = v.requestStop l := ⟨_, rfl⟩
  rw [← hw] at hAsk
  have hGroupW : w.groups[l] = some { g with series := .stopping } := by
    rw [hAsk]
    exact upd_same _ _ _
  have hAsked : v.schedule = w.schedule := by
    have h := hSole.schedule_asked
    rw [hAt, ← hw] at h
    exact h (by rw [seriesOf_some hGroupW]; exact fun e => nomatch e)
  have hStuck : Stuck w x := by
    refine ⟨⟨?_, hSole.waits, ?_⟩, fun g' hg => ?_⟩
    · rw [hAsk]
      exact hSole.mem
    · rw [hAsk]
      exact hSole.sole
    · rw [show w.groups[x.group] = w.groups[l] by subst hx; rfl, hGroupW] at hg
      obtain rfl := Option.some.inj hg
      exact ⟨(fun e => nomatch e), .inl fun e => nomatch e⟩
  have hEnd := hStuck.schedule_run (by rw [hAsk, hv]; exact hMode)
  have hSeqW : w.seqs[c] = { s.seqs[c] with stopRequest := true } := by
    rw [hAsk]
    exact upd_same _ _ _
  have hBusy : startable w l = false := hAt ▸ hStuck.unstartable
  have hInjectors (m : GroupId) (hm : startable w m = true) : injectorOf w m = injectorOf s m := by
    have hml : m ≠ l := fun e => by
      rw [e, hBusy] at hm
      exact nomatch hm
    rw [hAsk, hv]
    unfold injectorOf
    dsimp only
    rw [upd_other _ _ _ _ (Ne.symm hml)]
  have hSafetyW (d : Chan) : w.safety[d] = s.safety[d] := by
    rw [hAsk, hv]
    rfl
  obtain ⟨hGroupT, hSeqT, hSafetyT⟩ := startAll_leaves (c := c) hEnd hBusy (fun m hm hInj => by
    rw [hInjectors m hm] at hInj
    rw [hOwn m hInj, hBusy] at hm
    exact nomatch hm) (by rw [hSeqW]; exact fun e => nomatch hRun.symm.trans e)
  have hOthers (d : Chan) (hd : d ≠ c) (hNone : ∀ m : GroupId, injectorOf s m ≠ some d) (hDetached : s.seqs[d].coupling = .detached) :=
    (startAll_leaves (c := d) hEnd hBusy (fun m hm hInj => hNone m ((hInjectors m hm).symm.trans hInj)) fun _ => by
      rw [hAsk]
      dsimp only
      rw [upd_other _ _ _ _ (Ne.symm hd)]
      exact hDetached).2.2
  have hFrame := startAll_frame hEnd
  rw [← hAsked] at hGroupT hSeqT hSafetyT hFrame hOthers
  rw [← hv]
  refine ⟨_, rfl, ?_, hGroupT.trans hGroupW, hSeqT.trans hSeqW, hSafetyT.trans (hSafetyW c),
    fun d hd hNone hDetached => (hOthers d hd hNone hDetached).trans (hSafetyW d)⟩
  generalize v.schedule.groups = groups, v.schedule.seqs = seqs, v.schedule.safety = safety at hFrame ⊢
  rw [hFrame, hAsk]

/-- A series that waits for its attach ends at once, and the decisions begin from there. -/
theorem order_asks_waiting (hIntake : s.intake = []) (hGroup : s.groups[l] = some g) (hSeries : g.series = .series)
    (hInject : g.injector = some c) (hRun : s.seqs[c].run = .series) (hPhase : s.seqs[c].phase = .waitAttach) :
    ∃ w : State, (s.enlisted o job l).schedule = w.schedule ∧ w = { s.enlisted o job l with
      seqs := upd s.seqs c (runOver s.seqs[c]), groups := upd s.groups l (some (overGroup g)) } ∧ Working (s.enlisted o job l) w := by
  obtain ⟨v, hv⟩ : ∃ v : State, v = s.enlisted o job l := ⟨_, rfl⟩
  have hSole : SoleWaits v ⟨o.slot, job, .waiting, l, 0⟩ := by
    rw [hv]
    exact enlisted_sole hIntake o _ l
  have hAbandoned : (v.abandonRun c).seriesOver l = { v with
      seqs := upd s.seqs c (runOver s.seqs[c]), groups := upd s.groups l (some (overGroup g)) } := by
    have hDropped : v.abandonRun c = { v with seqs := upd s.seqs c (runOver s.seqs[c]) } := by
      unfold State.abandonRun
      rw [hv]
      exact if_pos (.inl hRun)
    rw [hDropped]
    exact modGroup_some (s := { v with seqs := upd s.seqs c (runOver s.seqs[c]) }) (by rw [hv]; exact hGroup) _ |>.trans (by rw [hv]; rfl)
  have hAsk : v.requestStop l = { v with
      seqs := upd s.seqs c (runOver s.seqs[c]), groups := upd s.groups l (some (overGroup g)) } := by
    rw [requestStop_asks (s := v) (by rw [hv]; exact hGroup) hSeries hInject hSole.front, hAbandoned]
    exact if_pos (by rw [hv]; exact hPhase)
  obtain ⟨w, hw⟩ : ∃ w : State, w = v.requestStop l := ⟨_, rfl⟩
  rw [← hw] at hAsk
  have hGroupW : w.groups[l] = some (overGroup g) := by
    rw [hAsk]
    exact upd_same _ _ _
  rw [← hv]
  refine ⟨w, ?_, hAsk, hw ▸ Working.requestStop v l⟩
  rw [hw]
  exact hSole.schedule_asked (by rw [← hw, seriesOf_some hGroupW]; exact fun e => nomatch e)

/-- A series that waits for its attach ends at once, and the SPOT is granted. -/
theorem spot_takes_run (hMode : s.mode = .run) (hPending : s.parkedPending = false) (hIntake : s.intake = [])
    (hGroup : s.groups[l] = some g) (hSeries : g.series = .series) (hInject : g.injector = some c) (hOwn : ownInjector s l c)
    (hRun : s.seqs[c].run = .series) (hReady : s.plans[p].ready = true) (hAdmits : groupPassive s g = false ∧ lowestEligible s g ≠ none)
    (hPhase : s.seqs[c].phase = .waitAttach) (hSettle : g.settle = none) :
    ∃ t : State, (s.enlisted o (.spot node p) l).schedule = t
      ∧ t = { s.enlisted o (.spot node p) l with
          intake := [⟨o.slot, .spot node p, .running, l, 0⟩]
          mem := (s.enlisted o (.spot node p) l).mem.write (slotAddr o.slot + 0x12) 2
          groups := t.groups, seqs := t.seqs, safety := t.safety }
      ∧ t.groups[l] = some { g with series := .order, rotation := 0, seriesCount := g.seriesCount + 1 }
      ∧ t.seqs[c] = runStarted s c .triple (some o.slot) (runCopy s c p) ∧ t.safety[c] = s.safety[c] := by
  obtain ⟨v, hv⟩ : ∃ v : State, v = s.enlisted o (.spot node p) l := ⟨_, rfl⟩
  obtain ⟨x, hx⟩ : ∃ x : Order, x = ⟨o.slot, .spot node p, .waiting, l, 0⟩ := ⟨_, rfl⟩
  have hSole : SoleWaits v x := by
    rw [hv, hx]
    exact enlisted_sole hIntake o _ l
  have hAt : x.group = l := by rw [hx]
  obtain ⟨w, hAsked, hAsk, -⟩ := order_asks_waiting (o := o) (job := .spot node p) hIntake hGroup hSeries hInject hRun hPhase
  rw [← hv] at hAsked hAsk
  have hGroupW : w.groups[l] = some (overGroup g) := by
    rw [hAsk]
    exact upd_same _ _ _
  have hSeqW : w.seqs[c] = runOver s.seqs[c] := by
    rw [hAsk]
    exact upd_same _ _ _
  have hIntakeW : w.intake = v.intake := by rw [hAsk]
  have hModeW : w.mode = .run := by
    rw [hAsk, hv]
    exact hMode
  have hSoleW : SoleWaits w x := ⟨hIntakeW ▸ hSole.mem, hSole.waits, hIntakeW ▸ hSole.sole⟩
  have hEligible (d : Chan) : eligible w (overGroup g) d = eligible s g d := by
    rw [← enlisted_eligible hIntake o (.spot node p) l g d, ← hv]
    refine eligible_congr (by rw [hAsk]) (by rw [hIntakeW]) (by rw [hAsk]) rfl (fun _ => by rw [hAsk]; exact ⟨rfl, rfl⟩) (fun f => ?_) d
    by_cases hf : c = f
    · subst hf
      rw [hSeqW, hv]
      exact Iff.rfl
    · rw [hAsk, hv]
      exact iff_of_eq (congrArg (fun x : Seq => x.ctx = .held) (upd_other _ _ _ _ hf))
  have hAdmitsW : groupPassive w (overGroup g) = false ∧ lowestEligible w (overGroup g) ≠ none :=
    ⟨groupPassive_over (by rw [hAsk, hv]; rfl) hAdmits.1 _ rfl, by rw [lowestEligible_congr hEligible]; exact hAdmits.2⟩
  have hInjectors (m : GroupId) : injectorOf w m = injectorOf s m := by
    rw [hAsk, hv]
    unfold injectorOf
    dsimp only
    by_cases hm : l = m
    · subst hm
      rw [upd_same, hGroup]
      rfl
    · rw [upd_other _ _ _ _ hm]
  have hChecks (m : GroupId) : checkInProgress w m = false := by
    have h := enlisted_spots hIntake o (.spot node p) l m
    unfold checkInProgress at h ⊢
    rw [hIntakeW, hv]
    exact h
  obtain ⟨hFrame, hGroupT, hSeqT, hSafetyT⟩ := hSoleW.spot_runs (node := node) (p := p) (g := overGroup g) (c := c) (by rw [hx])
    (by subst hx; exact hGroupW) rfl hSettle (hChecks _) (by rw [hAsk, hv]; exact hPending) (by rw [hModeW]; decide)
    (fun e => nomatch hModeW.symm.trans e) hInject (fun m hm hInj => hm (by rw [hAt]; exact hOwn m ((hInjectors m).symm.trans hInj)))
    (by rw [hAsk, hv]; exact hReady) hAdmitsW
  have hMay : mayAttach w c = mayAttach s c := by
    refine mayAttach_congr (fun m => ?_) (by rw [hAsk, hv]; rfl) (by rw [hAsk, hv]; rfl) (fun d => by rw [hAsk, hv]; rfl) c
    rw [hAsk]
    dsimp only
    by_cases hm : l = m
    · subst hm
      rw [upd_same, hGroup]
      rfl
    · rw [upd_other _ _ _ _ hm]
  have hCopy : runCopy w c p = runCopy s c p := by
    rw [hAsk, hv]
    rfl
  have hStarted : runStarted w c .triple (some x.slot) (runCopy w c p) = runStarted s c .triple (some o.slot) (runCopy s c p) := by
    rw [hCopy, hx]
    unfold runStarted
    rw [hMay, hSeqW]
    rfl
  have hSafety : safetyStarted w c = s.safety[c] := by
    unfold safetyStarted
    rw [hSeqW]
    exact (if_pos rfl).trans (by rw [hAsk, hv]; rfl)
  rw [← hAsked] at hFrame hGroupT hSeqT hSafetyT
  rw [← hv]
  refine ⟨_, rfl, ?_, ?_, hSeqT.trans hStarted, hSafetyT.trans hSafety⟩
  · have hList : runningNow w.intake x.slot = [⟨o.slot, .spot node p, .running, l, 0⟩] := by
      have hIntakeV : v.intake = [x] := by
        rw [hv, hx]
        unfold State.enlisted
        rw [hIntake]
        rfl
      rw [hIntakeW, hIntakeV, hx]
      exact congrArg (fun y => [y]) (if_pos rfl)
    generalize v.schedule.groups = groups, v.schedule.seqs = seqs, v.schedule.safety = safety at hFrame ⊢
    rw [hFrame, hList, hAsk, hx]
  · subst hx
    exact hGroupT

/-- Where the group settles, the order waits on, and the series is over. -/
theorem order_waits_run (hMode : s.mode = .run) (hIntake : s.intake = []) (hGroup : s.groups[l] = some g) (hSeries : g.series = .series)
    (hInject : g.injector = some c) (hRun : s.seqs[c].run = .series) (hPhase : s.seqs[c].phase = .waitAttach) (hSettle : g.settle ≠ none) :
    ∃ t : State, (s.enlisted o job l).schedule = t
      ∧ t = { s.enlisted o job l with groups := t.groups, seqs := t.seqs, safety := t.safety } := by
  obtain ⟨w, hAsked, hAsk, -⟩ := order_asks_waiting (o := o) (job := job) hIntake hGroup hSeries hInject hRun hPhase
  have hGroupW : w.groups[l] = some (overGroup g) := by
    rw [hAsk]
    exact upd_same _ _ _
  have hSole := enlisted_sole hIntake o job l
  have hStuck : Stuck w ⟨o.slot, job, .waiting, l, 0⟩ := by
    refine ⟨⟨?_, rfl, ?_⟩, fun g' hg => ?_⟩
    · rw [hAsk]
      exact hSole.mem
    · rw [hAsk]
      exact hSole.sole
    · obtain rfl := Option.some.inj (hGroupW.symm.trans hg)
      exact ⟨(fun e => nomatch e), .inr hSettle⟩
  have hFrame := startAll_frame (hStuck.schedule_run (by rw [hAsk]; exact hMode))
  rw [← hAsked] at hFrame
  refine ⟨_, rfl, ?_⟩
  generalize (s.enlisted o job l).schedule = t at hFrame ⊢
  obtain ⟨groups, hGroups⟩ : ∃ x, x = t.groups := ⟨_, rfl⟩
  obtain ⟨seqs, hSeqs⟩ : ∃ x, x = t.seqs := ⟨_, rfl⟩
  obtain ⟨safety, hSafety⟩ : ∃ x, x = t.safety := ⟨_, rfl⟩
  rw [← hGroups, ← hSeqs, ← hSafety] at hFrame ⊢
  rw [hFrame, hAsk]

end

/-- Settles O29: the SPOT alone waits, and its group's series decides what the first decisions do with it. -/
theorem spotIsTakenIn : Obligations.SpotIsTakenIn := by
  unfold Obligations.SpotIsTakenIn
  refine ⟨fun n node p l g c o s hOffer h hRest hPending hLeader hGroup hSeries hInject hOwn hRun hReady hPassive hHeld hChannel => ?_,
    fun n node p l g c o s hOffer h hMode hPending hIntake hLeader hGroup hSeries hInject hOwn hRun hReady hPassive hHeld hChannel => ?_⟩
  · have hAdmits := groupState_admits hGroup hPassive hHeld hChannel
    have hSlot := offerOf_slot hOffer
    have hOutside := fun a ha => enlisted_outside hOffer s (.spot node p) l (a := a) ha
    rw [hSlot] at hOutside
    have hOwned := groupOfInjector_own ((injectorOf_some hGroup).trans hInject) hOwn
    by_cases hSettle : g.settle = none
    · obtain ⟨hAttaches, hWaits⟩ := runStarted_detached hOwned hGroup (by rw [hRest.1]; decide) (hRest.2.2 c hRun) .triple (some n)
        (runCopy s c p)
      refine ⟨_, spot_runs_idle hOffer h hRest hPending hLeader hGroup hSeries hInject hRun hReady hAdmits hSettle, fun a ha => ?_,
        fun hNot => absurd hSettle hNot, fun _ => ⟨enlisted_runs rfl rfl, ?_, fun hC hMembers => ?_, fun hVerify => ?_⟩⟩
      · dsimp only
        rw [hSlot, Memory.read_write_other _ _ _ _ (by omega)]
        exact hOutside a ha
      · dsimp only
        rw [upd_same, hSlot]
        unfold State.enlisted
        rw [hSlot]
      · dsimp only
        rw [upd_same, hSlot]
        refine hAttaches fun d hd => ?_
        rcases hd with rfl | hd
        · exact hC
        · exact hMembers d hd
      · dsimp only
        rw [upd_same, hSlot]
        refine hWaits ?_
        rcases hVerify with hC | ⟨d, hd, hBusy⟩
        · exact ⟨c, .inl rfl, hC⟩
        · exact ⟨d, .inr hd, hBusy⟩
    · refine ⟨_, spot_waits_idle hOffer h hRest hLeader hGroup hSeries hReady hAdmits hSettle, hOutside,
        fun _ => ⟨enlisted_waits rfl rfl, ?_⟩, fun hNot => absurd hNot hSettle⟩
      unfold State.enlisted
      rw [hSlot, hRest.2.1]
      rfl
  · have hAdmits := groupState_admits hGroup hPassive hHeld hChannel
    have hSlot := offerOf_slot hOffer
    have hOutside := fun a ha => enlisted_outside hOffer s (.spot node p) l (a := a) ha
    rw [hSlot] at hOutside
    have hOwned := groupOfInjector_own ((injectorOf_some hGroup).trans hInject) hOwn
    have hExec := exec_spot hOffer h (by rw [hMode]; decide) hLeader hGroup hReady hAdmits
    by_cases hPhase : s.seqs[c].phase = .waitAttach
    · by_cases hSettle : g.settle = none
      · obtain ⟨t, ht, hFrame, hGroupT, hSeqT, hSafetyT⟩ := spot_takes_run (o := o) (node := node) hMode hPending hIntake hGroup hSeries
          hInject hOwn hRun hReady hAdmits hPhase hSettle
        rw [ht] at hExec
        rw [hSlot] at hFrame hSeqT
        refine ⟨t, hExec, fun a ha => ?_, ?_, ?_, fun hNot => absurd hPhase hNot,
          fun _ hDetached _ => ⟨enlisted_runs (job := .spot node p) ?_ ?_, ?_, hGroupT, hSafetyT, ?_⟩⟩
        · rw [hFrame]
          dsimp only
          rw [Memory.read_write_other _ _ _ _ (by omega)]
          exact hOutside a ha
        · rw [hFrame]
          rfl
        · rw [hFrame]
          rfl
        · rw [hFrame]
          rfl
        · rw [hFrame, hSlot]
        · rw [hFrame]
        · rw [hSeqT]
          exact runStarted_detached hOwned hGroup (by rw [hMode]; decide) hDetached .triple (some n) (runCopy s c p)
      · obtain ⟨t, ht, hFrame⟩ := order_waits_run (o := o) (job := .spot node p) hMode hIntake hGroup hSeries hInject hRun hPhase hSettle
        rw [ht] at hExec
        refine ⟨t, hExec, fun a ha => ?_, ?_, ?_, fun hNot => absurd hPhase hNot, fun _ _ hNot => absurd hNot hSettle⟩
        · rw [hFrame]
          exact hOutside a ha
        · rw [hFrame]
          rfl
        · rw [hFrame]
          rfl
    · obtain ⟨t, ht, hFrame, hGroupT, hSeqT, hSafetyT, -⟩ := order_stops_run (o := o) (job := .spot node p) hMode hIntake hGroup hSeries
        hInject hOwn hRun hPhase
      rw [ht] at hExec
      refine ⟨t, hExec, fun a ha => ?_, ?_, ?_, fun _ => ⟨enlisted_waits (job := .spot node p) ?_ ?_, ?_, hGroupT, hSeqT, hSafetyT⟩, fun hNot => absurd hNot hPhase⟩
      · rw [hFrame]
        exact hOutside a ha
      · rw [hFrame]
        rfl
      · rw [hFrame]
        rfl
      · rw [hFrame]
        rfl
      · rw [hFrame]
      · rw [hFrame]
        unfold State.enlisted
        rw [hSlot, hIntake]
        rfl

end Sys2Proof.Machine
end

section
/-! PROOFS. A re-evaluation of the disconnects: each channel, what it tells the host, and the checks it aborts. -/

namespace Sys2Proof.Machine

/-! ### What a re-evaluation leaves, the disconnect flags apart -/

/-- The part with these disconnect flags. -/
def State.disconnects (s : State) (f : Chan → Bool) : State :=
  { s with safety := Vector.ofFn fun c => { s.safety[c] with disconnected := f c } }

theorem disconnects_safety (s : State) (f : Chan → Bool) (c : Chan) :
    (s.disconnects f).safety[c] = { s.safety[c] with disconnected := f c } := Vector.getElem_ofFn c.isLt

/-- All that moved, beside the disconnect flags, is what acts on the slots `S` move. -/
structure Told (S : SlotId → Prop) (s t : State) : Prop where
  left : Left S (s.disconnects fun c => t.safety[c].disconnected) t

theorem Told.refl (S : SlotId → Prop) (s : State) : Told S s s := by
  refine ⟨rfl, fun _ _ _ => rfl, fun _ => id, fun _ _ => rfl, fun _ _ => rfl, fun _ _ => rfl, fun _ => id,
    fun o ho => ⟨o, ho, rfl, rfl⟩, fun c => ?_⟩
  rw [disconnects_safety]
  exact ChanLeft.refl _ _

theorem Told.step {S : SlotId → Prop} {s t u : State} (h : Told S s t) (k : Left S t u) : Told S s u := by
  refine ⟨(k.fixed.trans h.left.fixed :), fun n h4 h7 => (k.level n h4 h7).trans (h.left.level n h4 h7),
    fun n a => k.pending n (h.left.pending n a), fun a ha => (k.memory a ha).trans (h.left.memory a ha),
    fun n hn => (k.slots n hn).trans (h.left.slots n hn), fun n hn => (k.done n hn).trans (h.left.done n hn),
    fun n a => k.news n (h.left.news n a), fun o ho => ?_, fun c => ?_⟩
  · obtain ⟨o', ho', hSlot, hJob⟩ := k.orders o ho
    obtain ⟨o'', ho'', hSlot', hJob'⟩ := h.left.orders o' ho'
    exact ⟨o'', ho'', hSlot'.trans hSlot, hJob'.trans hJob⟩
  · have hStep := (h.left.chan c).trans (k.chan c)
    rw [disconnects_safety] at hStep ⊢
    rw [(k.chan c).disconnected]
    exact hStep

theorem Told.flag {S : SlotId → Prop} {s t : State} (h : Told S s t) (c : Chan) (b : Bool) :
    Told S s (t.setSafety c { t.safety[c] with disconnected := b }) := by
  refine ⟨h.left.fixed, h.left.level, h.left.pending, h.left.memory, h.left.slots, h.left.done, h.left.news, h.left.orders, fun d => ?_⟩
  have hChan := h.left.chan d
  rw [disconnects_safety] at hChan ⊢
  obtain ⟨h1, h2, h3, h4, h5, -, h7, h8, h9⟩ := hChan
  by_cases hd : c = d
  · subst hd
    rw [State.setSafety_safety, upd_same]
    exact ⟨h1, h2, h3, h4, h5, rfl, h7, h8, h9⟩
  · rw [State.setSafety_safety, upd_other _ _ _ _ hd]
    exact ⟨h1, h2, h3, h4, h5, rfl, h7, h8, h9⟩

/-! ### A check aborted (R149) -/

/-- The channel's check run, if one is under way, is over (R149). -/
def State.checkDropped (s : State) (c : Chan) : State := if s.seqs[c].run = .selfcheck then s.dropRun c else s

theorem checkDropped_intake (s : State) (c : Chan) : (s.checkDropped c).intake = s.intake := by
  unfold State.checkDropped
  split_ifs <;> rfl

theorem checkDropped_chan (s : State) (c : Chan) : (s.checkDropped c).seqs[c].coupling = s.seqs[c].coupling
    ∧ (s.checkDropped c).safety[c].verify = s.safety[c].verify
    ∧ (s.seqs[c].run ≠ .selfcheck → (s.checkDropped c).seqs[c] = s.seqs[c]) := by
  unfold State.checkDropped
  split_ifs with hRun
  · have hSeq : (s.dropRun c).seqs[c] = s.seqs[c].endRun := upd_same _ _ _
    have hSafety : (s.dropRun c).safety[c] = { s.safety[c] with reference := false } := upd_same _ _ _
    rw [hSeq, hSafety]
    exact ⟨rfl, rfl, fun hNot => absurd hRun hNot⟩
  · exact ⟨rfl, rfl, fun _ => rfl⟩

theorem freeMeasurement_chan (s : State) (l : GroupId) (d : Chan) : chanView d (s.freeMeasurement l) = chanView d s := by
  unfold State.freeMeasurement State.setSeries
  split_ifs
  · rfl
  · exact modGroup_chan s l _ d

theorem completeSlot_chan (s : State) (n : SlotId) (final : SlotState) (reason : Byte) (kind : List Byte) (d : Chan) :
    chanView d (s.completeSlot n final reason kind) = chanView d s := by
  rw [completeSlot_eq]
  rfl

theorem freeMeasurement_intake (s : State) (l : GroupId) : (s.freeMeasurement l).intake = s.intake := by
  unfold State.freeMeasurement State.setSeries
  split_ifs
  · rfl
  · exact State.modGroup_intake s l _

/-- Where no check of the channel runs, none is aborted. -/
theorem abortCheck_none {s : State} {c : Chan} (h : ∀ o ∈ s.intake, o.job = .selfcheck c → o.phase ≠ .running) : s.abortCheck c = s := by
  have hNone : (s.intake.find? fun o => decide (o.job = .selfcheck c) && decide (o.phase = .running)) = none :=
    List.find?_eq_none.mpr fun o ho hBoth => by
      obtain ⟨hJob, hPhase⟩ := Bool.and_eq_true_iff.mp hBoth
      exact h o ho (of_decide_eq_true hJob) (of_decide_eq_true hPhase)
  unfold State.abortCheck
  rw [hNone]

/-- An aborted check completes DONE, and its group's measurement is freed; where none runs nothing happens. -/
theorem abortCheck_cases (s : State) (c : Chan) : s.abortCheck c = s ∨ ∃ o ∈ s.intake, o.job = .selfcheck c ∧ o.phase = .running
    ∧ s.abortCheck c = ((s.checkDropped c).completeDone o.slot
        (selfcheckResult 3 0 0 (s.checkDropped c).safety[c].health (s.checkDropped c).safety[c].health)).freeMeasurement o.group := by
  cases hFound : s.intake.find? fun o => decide (o.job = .selfcheck c) && decide (o.phase = .running) with
  | none =>
    left
    unfold State.abortCheck
    rw [hFound]
  | some o =>
    right
    have ho := List.find?_some hFound
    rw [Bool.and_eq_true, decide_eq_true_eq, decide_eq_true_eq] at ho
    refine ⟨o, List.mem_of_find?_eq_some hFound, ho.1, ho.2, ?_⟩
    unfold State.abortCheck
    rw [hFound]
    rfl

theorem abortCheck_left {S : SlotId → Prop} {s : State} (hs : Covers S s) (c : Chan) : Left S s (s.abortCheck c) := by
  rcases abortCheck_cases s c with hNone | ⟨o, ho, -, -, hAborted⟩
  · rw [hNone]
    exact Left.refl s
  · have hDropped : Left S s (s.checkDropped c) := by
      unfold State.checkDropped
      split_ifs
      · exact (Act.dropRun s c).acts.left
      · exact Left.refl s
    rw [hAborted]
    exact (hDropped.trans (Left.completeSlot _ _ _ _ _ (hs o ho))).trans (Acts.freeMeasurement _ _).left

theorem abortCheck_other (s : State) {c d : Chan} (h : c ≠ d) : chanView d (s.abortCheck c) = chanView d s := by
  rcases abortCheck_cases s c with hNone | ⟨o, -, -, -, hAborted⟩
  · rw [hNone]
  · rw [hAborted, freeMeasurement_chan, State.completeDone, completeSlot_chan]
    unfold State.checkDropped
    split_ifs
    · exact chanView_eq (upd_other _ _ _ _ h) (upd_other _ _ _ _ h)
    · rfl

theorem abortCheck_chan (s : State) (c : Chan) : (s.abortCheck c).seqs[c].coupling = s.seqs[c].coupling
    ∧ (s.abortCheck c).safety[c].verify = s.safety[c].verify
    ∧ (s.seqs[c].run ≠ .selfcheck → (s.abortCheck c).seqs[c] = s.seqs[c]) := by
  rcases abortCheck_cases s c with hNone | ⟨o, -, -, -, hAborted⟩
  · rw [hNone]
    exact ⟨rfl, rfl, fun _ => rfl⟩
  · have hView : chanView c (s.abortCheck c) = chanView c (s.checkDropped c) := by
      rw [hAborted, freeMeasurement_chan, State.completeDone, completeSlot_chan]
    rw [show (s.abortCheck c).seqs[c] = _ from congrArg Prod.fst hView, show (s.abortCheck c).safety[c] = _ from congrArg Prod.snd hView]
    exact checkDropped_chan s c

theorem Unstarted.abortCheck (c : Chan) (s : State) (d : Chan) : Unstarted c s (s.abortCheck d) := by
  rcases abortCheck_cases s d with hNone | ⟨o, -, -, -, hAborted⟩
  · rw [hNone]
    exact Unstarted.refl c s
  · have hDropped : Unstarted c s (s.checkDropped d) := by
      unfold State.checkDropped
      split_ifs
      · exact Unstarted.dropRun c s d
      · exact Unstarted.refl c s
    have hFree (t : State) (l : GroupId) : Unstarted c t (t.freeMeasurement l) := by
      unfold State.freeMeasurement
      split_ifs
      · exact Unstarted.refl c t
      · exact Unstarted.modGroup c _ _ _
    rw [hAborted]
    exact hDropped.trans (Unstarted.trans (Unstarted.completeSlot c _ _ _ _ _) (hFree _ _))

theorem abortCheck_orders {s : State} (hs : intakeSound s) (c : Chan) : (s.abortCheck c).intake.Sublist s.intake
    ∧ ∀ o ∈ s.intake, o.phase ≠ .running → o ∈ (s.abortCheck c).intake := by
  rcases abortCheck_cases s c with hNone | ⟨x, hx, -, hRuns, hAborted⟩
  · rw [hNone]
    exact ⟨List.Sublist.refl _, fun o ho _ => ho⟩
  · have hIntake : (s.abortCheck c).intake = s.intake.filter fun o => o.slot ≠ x.slot := by
      rw [hAborted, freeMeasurement_intake, State.completeDone, completeSlot_intake, checkDropped_intake]
    rw [hIntake]
    refine ⟨List.filter_sublist, fun o ho hPhase => List.mem_filter.mpr ⟨ho, decide_eq_true fun hSlot => hPhase ?_⟩⟩
    rw [hs.only hx ho hSlot]
    exact hRuns

/-! ### One disconnect begins (R140) -/

/-- The channel's sequencer once its disconnect has begun. -/
def begunSeq (q : Seq) : Seq := if q.coupling = .attached then stoppedSeq q else q

theorem beginDisconnect_eq (s : State) (c : Chan) : s.beginDisconnect c = ({ s with
    seqs := upd s.seqs c (begunSeq s.seqs[c])
    safety := upd s.safety c { stoppedSafety s.seqs[c] s.safety[c] with disconnected := true } } : State).abortCheck c := by
  unfold State.beginDisconnect begunSeq
  dsimp only
  by_cases hAttached : s.seqs[c].coupling = .attached
  · rw [if_pos (show (s.setSafety c _).seqs[c].coupling = .attached from hAttached), if_pos hAttached, stopChannel_eq]
    unfold State.setSafety stoppedSafety
    dsimp only
    rw [upd_same, upd_upd, if_pos hAttached, if_pos hAttached]
  · rw [if_neg (show ¬ (s.setSafety c _).seqs[c].coupling = .attached from hAttached), if_neg hAttached]
    unfold stoppedSafety
    rw [if_neg hAttached, upd_self]
    rfl

/-- What is told of a pass that begins disconnects. -/
structure Disconnects (s t : State) : Prop where
  told : Told (fun n => ∃ o ∈ s.intake, o.slot = n) s t
  members : sameMembers s t
  injectors : ∀ l : GroupId, injectorOf t l = injectorOf s l
  sound : intakeSound t
  orders : t.intake.Sublist s.intake
  kept : ∀ o ∈ s.intake, o.phase ≠ .running → o ∈ t.intake

theorem Disconnects.refl {s : State} (hs : intakeSound s) : Disconnects s s :=
  ⟨Told.refl _ s, fun _ => rfl, fun _ => rfl, hs, List.Sublist.refl _, fun _ ho _ => ho⟩

theorem Disconnects.begins {s t : State} (h : Disconnects s t) (c : Chan) : Disconnects s (t.beginDisconnect c) := by
  rw [beginDisconnect_eq]
  obtain ⟨u, hu⟩ : ∃ u : State, u = { t with
      seqs := upd t.seqs c (begunSeq t.seqs[c])
      safety := upd t.safety c { stoppedSafety t.seqs[c] t.safety[c] with disconnected := true } } := ⟨_, rfl⟩
  have hCovers : Covers (fun n => ∃ o ∈ s.intake, o.slot = n) u := fun o ho => by
    rw [hu] at ho
    exact ⟨o, h.orders.subset ho, rfl⟩
  have hTold : Told (fun n => ∃ o ∈ s.intake, o.slot = n) s u := by
    have hStop : Told (fun n => ∃ o ∈ s.intake, o.slot = n) s (t.detach c) := h.told.step (Acts.detach t c).left
    have hFlag := hStop.flag c true
    rw [detach_eq] at hFlag
    rw [hu]
    unfold begunSeq
    simp only [State.setSafety, upd_upd, upd_same] at hFlag
    exact hFlag
  have hSoundU : intakeSound u := by
    have hIntake : u.intake = t.intake ∧ u.slots = t.slots := by
      rw [hu]
      exact ⟨rfl, rfl⟩
    have hSound := h.sound
    unfold intakeSound at hSound ⊢
    rw [hIntake.1, hIntake.2]
    exact hSound
  have hTabled := Tabled.abortCheck u c
  obtain ⟨hSublist, hKept⟩ := abortCheck_orders hSoundU c
  rw [← hu]
  refine ⟨hTold.step (abortCheck_left hCovers c), fun l => (hTabled.members l).trans ?_, fun l => (hTabled.injector l).trans ?_,
    hTabled.intake hSoundU, hSublist.trans ?_, fun o ho hPhase => hKept o ?_ hPhase⟩
  · rw [hu]
    exact h.members l
  · rw [hu]
    exact h.injectors l
  · rw [hu]
    exact h.orders
  · rw [hu]
    exact h.kept o ho hPhase

theorem Disconnects.clears {s t : State} (h : Disconnects s t) (c : Chan) : Disconnects s (t.clearDisconnect c) :=
  ⟨h.told.flag c false, h.members, h.injectors, h.sound, h.orders, h.kept⟩

theorem beginDisconnect_other (s : State) {c d : Chan} (h : c ≠ d) : chanView d (s.beginDisconnect c) = chanView d s := by
  rw [beginDisconnect_eq, abortCheck_other _ h]
  exact chanView_eq (upd_other _ _ _ _ h) (upd_other _ _ _ _ h)

/-- What a begun disconnect makes of its channel. -/
structure Begun (q : Seq) (x : ChanSafety) (c : Chan) (t : State) : Prop where
  disconnected : t.safety[c].disconnected = true
  detached : t.seqs[c].coupling = .detached
  verify : q.coupling = .attached → t.safety[c].verify = some 5
  unmeasured : q.coupling = .attached → ¬ measures t c
  kept : q.coupling = .detached → q.run ≠ .selfcheck → t.seqs[c] = q

theorem beginDisconnect_chan (s : State) (c : Chan) : Begun s.seqs[c] s.safety[c] c (s.beginDisconnect c) := by
  rw [beginDisconnect_eq]
  obtain ⟨u, hu⟩ : ∃ u : State, u = { s with
      seqs := upd s.seqs c (begunSeq s.seqs[c])
      safety := upd s.safety c { stoppedSafety s.seqs[c] s.safety[c] with disconnected := true } } := ⟨_, rfl⟩
  have hSeq : u.seqs[c] = begunSeq s.seqs[c] := by
    rw [hu]
    exact upd_same _ _ _
  have hSafety : u.safety[c] = { stoppedSafety s.seqs[c] s.safety[c] with disconnected := true } := by
    rw [hu]
    exact upd_same _ _ _
  obtain ⟨hCoupling, hVerify, hKept⟩ := abortCheck_chan u c
  have hLeft : Left (fun _ => True) u (u.abortCheck c) := abortCheck_left (fun _ _ => trivial) c
  have hUnstarted := Unstarted.abortCheck c u c
  rw [← hu]
  refine ⟨?_, ?_, fun hAttached => ?_, fun hAttached hMeasures => ?_, fun hDetached hRun => ?_⟩
  · rw [(hLeft.chan c).disconnected, hSafety]
  · rw [hCoupling, hSeq]
    unfold begunSeq
    rcases coupling_cases s.seqs[c] with hAttached | hDetached
    · rw [if_pos hAttached]
      rfl
    · rw [if_neg (by rw [hDetached]; decide)]
      exact hDetached
  · rw [hVerify, hSafety]
    unfold stoppedSafety
    rw [if_pos hAttached]
  · have hBefore := hUnstarted hMeasures
    unfold measures at hBefore
    rw [hSeq] at hBefore
    unfold begunSeq stoppedSeq at hBefore
    rw [if_pos hAttached] at hBefore
    by_cases hRun : s.seqs[c].run = .series ∨ s.seqs[c].run = .triple
    · rw [if_pos hRun] at hBefore
      exact runOver_run s.seqs[c] hBefore
    · rw [if_neg hRun] at hBefore
      exact hRun hBefore
  · have hSame : u.seqs[c] = s.seqs[c] := by
      rw [hSeq]
      exact if_neg (by rw [hDetached]; decide)
    rw [hKept (by rw [hSame]; exact hRun), hSame]

/-! ### A re-evaluation (R139 to R142) -/

/-- What a re-evaluation of some channels leaves, with the flags it changes and what it tells of them. -/
structure Reevaluated (s : State) (begins ends : Chan → Prop) (v : State) : Prop where
  passed : ∃ t : State, Disconnects s t ∧ v = { t with news := { t.news with chanSafety := v.news.chanSafety }, attn := v.attn }
    ∧ ((∃ c, begins c ∨ ends c) → v.attn = t.attn.raise 6) ∧ ((¬ ∃ c, begins c ∨ ends c) → v.attn = t.attn)
  begun : ∀ c, begins c → Begun s.seqs[c] s.safety[c] c v
  ended : ∀ c, ends c → v.safety[c].disconnected = false ∧ v.seqs[c] = s.seqs[c]
  other : ∀ c, ¬ begins c → ¬ ends c → chanView c v = chanView c s
  news : ∀ c : Chan, has8 v.news.chanSafety c.val = true ↔ has8 s.news.chanSafety c.val = true ∨ begins c ∨ ends c

theorem newsChanSafeties (l : List Chan) (s : State) :
    forEach l (fun c t => t.newsChanSafety c.val) s = { s with
      news := { s.news with chanSafety := (forEach l (fun c t => t.newsChanSafety c.val) s).news.chanSafety } }
    ∧ ∀ d : Chan, has8 (forEach l (fun c t => t.newsChanSafety c.val) s).news.chanSafety d.val = true ↔
        has8 s.news.chanSafety d.val = true ∨ d ∈ l := by
  induction l generalizing s with
  | nil => exact ⟨rfl, fun d => by simp [forEach]⟩
  | cons c rest ih =>
    obtain ⟨hFrame, hNews⟩ := ih (s.newsChanSafety c.val)
    refine ⟨hFrame, fun d => ?_⟩
    refine (hNews d).trans ?_
    unfold State.newsChanSafety
    dsimp only
    rw [has8_add _ _ _ (by omega) (by omega), Bool.or_eq_true, decide_eq_true_eq, List.mem_cons, or_assoc, Fin.val_inj, eq_comm (a := c)]

theorem reevaluate_spec {s : State} (hs : intakeSound s) {chans : List Chan} (hNodup : chans.Nodup) {begins ends : Chan → Prop}
    (hBegins : ∀ c, begins c ↔ c ∈ chans ∧ disconnectBegins s c = true) (hEnds : ∀ c, ends c ↔ c ∈ chans ∧ disconnectEnds s c = true) :
    Reevaluated s begins ends (s.reevaluate chans) := by
  obtain ⟨bs, hbs⟩ : ∃ bs, bs = chans.filter fun c => disconnectBegins s c := ⟨_, rfl⟩
  obtain ⟨es, hes⟩ : ∃ es, es = chans.filter fun c => disconnectEnds s c := ⟨_, rfl⟩
  have hMemB (c : Chan) : c ∈ bs ↔ begins c := by rw [hbs, List.mem_filter, hBegins]
  have hMemE (c : Chan) : c ∈ es ↔ ends c := by rw [hes, List.mem_filter, hEnds]
  have hApart (c : Chan) (hb : begins c) (he : ends c) : False := by
    have h1 := ((hBegins c).mp hb).2
    have h2 := ((hEnds c).mp he).2
    unfold disconnectBegins at h1
    unfold disconnectEnds at h2
    simp only [Bool.and_eq_true, Bool.not_eq_true'] at h1 h2
    exact nomatch h1.1.symm.trans h2.1.1
  have hNodupB : bs.Nodup := hbs ▸ hNodup.filter _
  have hNodupE : es.Nodup := hes ▸ hNodup.filter _
  obtain ⟨v, hv⟩ : ∃ v, v = forEach bs (fun c t => t.beginDisconnect c) s := ⟨_, rfl⟩
  obtain ⟨t, ht⟩ : ∃ t, t = forEach es (fun c t => t.clearDisconnect c) v := ⟨_, rfl⟩
  have hPassV : Disconnects s v := hv ▸ forEach_keeps (P := Disconnects s) _ bs s (Disconnects.refl hs) fun c _ t h => h.begins c
  have hPass : Disconnects s t := ht ▸ forEach_keeps (P := Disconnects s) _ es v hPassV fun c _ t h => h.clears c
  have hOwnB (c : Chan) := forEach_own (fun c (t : State) => t.beginDisconnect c) (chanView c) (fun _ => True) c bs s hNodupB trivial
    (fun _ _ _ _ => trivial) fun d _ hd t _ => beginDisconnect_other t hd
  have hOwnE (c : Chan) := forEach_own (fun c (t : State) => t.clearDisconnect c) (chanView c) (fun _ => True) c es v hNodupE trivial
    (fun _ _ _ _ => trivial) fun d _ hd t _ => chanView_eq rfl (upd_other _ _ _ _ hd)
  rw [← hv] at hOwnB
  rw [← ht] at hOwnE
  obtain ⟨hFrame, hNews⟩ := newsChanSafeties (bs ++ es) t
  have hEnd : s.reevaluate chans = if (bs ++ es).isEmpty = true then forEach (bs ++ es) (fun c t => t.newsChanSafety c.val) t
      else (forEach (bs ++ es) (fun c t => t.newsChanSafety c.val) t).raise 6 := by
    unfold State.reevaluate
    dsimp only
    rw [← hbs, ← hes, ← hv, ← ht]
  generalize forEach (bs ++ es) (fun c t => t.newsChanSafety c.val) t = w at hFrame hNews hEnd
  have hSome : (bs ++ es).isEmpty = true ↔ ¬ ∃ c, begins c ∨ ends c := by
    rw [List.isEmpty_iff, List.eq_nil_iff_forall_not_mem, not_exists]
    exact forall_congr' fun c => by rw [List.mem_append, hMemB, hMemE]
  obtain ⟨x, hx⟩ : ∃ x, x = s.reevaluate chans := ⟨_, rfl⟩
  have hTold : x = { t with news := { t.news with chanSafety := x.news.chanSafety }, attn := x.attn }
      ∧ ((∃ c, begins c ∨ ends c) → x.attn = t.attn.raise 6) ∧ ((¬ ∃ c, begins c ∨ ends c) → x.attn = t.attn)
      ∧ x.news.chanSafety = w.news.chanSafety := by
    generalize w.news.chanSafety = news at hFrame
    rw [hx, hEnd, hFrame]
    by_cases hNone : (bs ++ es).isEmpty = true
    · rw [if_pos hNone]
      exact ⟨rfl, fun h => absurd h (hSome.mp hNone), fun _ => rfl, rfl⟩
    · rw [if_neg hNone]
      exact ⟨rfl, fun _ => rfl, fun h => absurd (hSome.mpr h) hNone, rfl⟩
  rw [← hx]
  obtain ⟨hSame, hRaised, hStill, hNewsX⟩ := hTold
  have hView (c : Chan) : chanView c x = chanView c t := by
    generalize x.news.chanSafety = news, x.attn = attn at hSame
    rw [hSame]
    rfl
  refine ⟨⟨t, hPass, hSame, hRaised, hStill⟩, fun c hc => ?_, fun c hc => ?_, fun c hb he => ?_, fun c => ?_⟩
  · have hNot : c ∉ es := fun he => hApart c hc ((hMemE c).mp he)
    obtain ⟨u, -, hu, hLast⟩ := (hOwnB c).2 ((hMemB c).mpr hc)
    have hAll := (hView c).trans (((hOwnE c).1 hNot).trans hLast)
    obtain ⟨h1, h2, h3, h4, h5⟩ := beginDisconnect_chan u c
    rw [show u.seqs[c] = s.seqs[c] from congrArg Prod.fst hu] at h3 h4 h5
    have hSeq : x.seqs[c] = (u.beginDisconnect c).seqs[c] := congrArg Prod.fst hAll
    have hSafety : x.safety[c] = (u.beginDisconnect c).safety[c] := congrArg Prod.snd hAll
    unfold measures at h4
    rw [← hSeq] at h2 h4 h5
    rw [← hSafety] at h1 h3
    exact ⟨h1, h2, h3, h4, h5⟩
  · have hNot : c ∉ bs := fun hb => hApart c ((hMemB c).mp hb) hc
    obtain ⟨u, -, hu, hLast⟩ := (hOwnE c).2 ((hMemE c).mpr hc)
    have hAll := (hView c).trans hLast
    have hBefore := hu.trans ((hOwnB c).1 hNot)
    refine ⟨?_, ?_⟩
    · rw [show x.safety[c] = _ from congrArg Prod.snd hAll]
      exact congrArg ChanSafety.disconnected (upd_same _ _ _)
    · rw [show x.seqs[c] = _ from congrArg Prod.fst hAll]
      exact congrArg Prod.fst hBefore
  · exact (hView c).trans (((hOwnE c).1 fun h => he ((hMemE c).mp h)).trans ((hOwnB c).1 fun h => hb ((hMemB c).mp h)))
  · rw [hNewsX, hNews, List.mem_append, hMemB, hMemE]
    have hNewsT : t.news.chanSafety = s.news.chanSafety := (congrArg (fun u : State => u.news.chanSafety) hPass.told.left.fixed :)
    rw [hNewsT]

end Sys2Proof.Machine
end

section
/-! PROOFS. A disconnect line's change: the channels it reaches, and the check it aborts. -/

namespace Sys2Proof.Machine

/-! ### The re-evaluated part against the part before -/

section
variable {s v : State} {begins ends : Chan → Prop}

theorem Reevaluated.fixed (h : Reevaluated s begins ends v) :
    v.fixed = { s.fixed with news := { s.fixed.news with chanSafety := v.news.chanSafety } } := by
  obtain ⟨t, hPass, hSame, hRaised, hStill⟩ := h.passed
  have hAttn : ({ v.attn with pending := 0 } : Attn) = { t.attn with pending := 0 } := by
    by_cases hSome : ∃ c, begins c ∨ ends c
    · rw [hRaised hSome]
      rfl
    · rw [hStill hSome]
  have hFixed : t.fixed = s.fixed := hPass.told.left.fixed
  have hEnd : v.fixed = { t.fixed with news := { t.fixed.news with chanSafety := v.news.chanSafety }, attn := { v.attn with pending := 0 } } := by
    generalize v.news.chanSafety = news, v.attn = attn at hSame
    rw [hSame]
    rfl
  rw [hEnd, hAttn, ← hFixed]
  rfl

theorem Reevaluated.level6 (h : Reevaluated s begins ends v) :
    has8 v.attn.pending 6 = true ↔ has8 s.attn.pending 6 = true ∨ ∃ c, begins c ∨ ends c := by
  obtain ⟨t, hPass, -, hRaised, hStill⟩ := h.passed
  have hBefore : has8 t.attn.pending 6 = has8 s.attn.pending 6 := hPass.told.left.level 6 (by decide) (by decide)
  by_cases hSome : ∃ c, begins c ∨ ends c
  · rw [hRaised hSome]
    have hRaise : has8 (t.attn.raise 6).pending 6 = true := by
      show has8 (t.attn.pending ||| bit8 6) 6 = true
      rw [has8_add _ _ _ (by decide) (by decide)]
      simp
    exact ⟨fun _ => .inr hSome, fun _ => hRaise⟩
  · rw [hStill hSome, hBefore]
    exact ⟨.inl, fun hOr => hOr.resolve_right hSome⟩

theorem Reevaluated.pending (h : Reevaluated s begins ends v) (k : Nat) (hk : has8 s.attn.pending k = true) :
    has8 v.attn.pending k = true := by
  obtain ⟨t, hPass, -, hRaised, hStill⟩ := h.passed
  have hBefore : has8 t.attn.pending k = true := hPass.told.left.pending k hk
  by_cases hSome : ∃ c, begins c ∨ ends c
  · rw [hRaised hSome]
    exact has8_or_left _ _ k hBefore
  · rw [hStill hSome]
    exact hBefore

theorem Reevaluated.stands (h : Reevaluated s begins ends v) (c : Chan) : v.safety[c].health = s.safety[c].health
    ∧ v.safety[c].discMask = s.safety[c].discMask ∧ v.safety[c].discMode = s.safety[c].discMode := by
  obtain ⟨t, hPass, hSame, -, -⟩ := h.passed
  have hChan := hPass.told.left.chan c
  rw [disconnects_safety] at hChan
  have hSafety : v.safety = t.safety := by
    generalize v.news.chanSafety = news, v.attn = attn at hSame
    rw [hSame]
  rw [hSafety]
  exact ⟨hChan.health, hChan.discMask, hChan.discMode⟩

theorem Reevaluated.table (h : Reevaluated s begins ends v) : sameMembers s v ∧ (∀ l : GroupId, injectorOf v l = injectorOf s l)
    ∧ intakeSound v := by
  obtain ⟨t, hPass, hSame, -, -⟩ := h.passed
  generalize v.news.chanSafety = news, v.attn = attn at hSame
  rw [hSame]
  exact ⟨hPass.members, hPass.injectors, hPass.sound⟩

theorem Reevaluated.bytes (h : Reevaluated s begins ends v) {a : Nat} (ha : ¬ inSlots a) : v.mem.read a = s.mem.read a := by
  obtain ⟨t, hPass, hSame, -, -⟩ := h.passed
  have hMem : v.mem = t.mem := by
    generalize v.news.chanSafety = news, v.attn = attn at hSame
    rw [hSame]
  rw [hMem]
  refine hPass.told.left.memory a fun n _ hByte => ha ?_
  have hBounds := slotAddr_bounds n
  unfold slotByteOf at hByte
  unfold inSlots
  omega

end

/-! ### No check starts where no order is taken -/

/-- Where no order is taken, none comes, and the channel has no check run it had not. -/
def Uncheckable (c : Chan) (s t : State) : Prop :=
  s.intake = [] → t.intake = [] ∧ (t.seqs[c].run = .selfcheck → s.seqs[c].run = .selfcheck)

theorem Uncheckable.trans {c : Chan} {s t u : State} (h : Uncheckable c s t) (k : Uncheckable c t u) : Uncheckable c s u := fun hs => by
  obtain ⟨hIntake, hRun⟩ := h hs
  obtain ⟨hIntake', hRun'⟩ := k hIntake
  exact ⟨hIntake', hRun ∘ hRun'⟩

theorem Uncheckable.of_same {c : Chan} {s t : State} (hSeqs : t.seqs = s.seqs) (hIntake : t.intake = s.intake) : Uncheckable c s t :=
  fun hs => ⟨hIntake.trans hs, fun h => by rwa [hSeqs] at h⟩

theorem Halts.uncheckable {s t : State} (h : Halts s t) (c : Chan) : Uncheckable c s t := fun hs => by
  refine ⟨h.intake hs, fun hRun => ?_⟩
  rcases h.chans c with hSame | hStopped
  · rwa [show t.seqs[c] = s.seqs[c] from congrArg Prod.fst hSame] at hRun
  · rw [show t.seqs[c] = _ from congrArg Prod.fst hStopped] at hRun
    unfold stoppedSeq at hRun
    split_ifs at hRun
    · exact nomatch hRun
    · exact hRun

theorem detachIdle_halts (s : State) : Halts s s.detachIdle :=
  Halts.forEach _ _ s fun c _ t _ => by
    split_ifs
    · exact Halts.detach t c
    · exact Halts.refl t

/-- What of a regroup without orders reaches groups and channels. -/
theorem regroupCore_table {s : State} (h : s.intake = []) (fresh : Bool) : (s.regroupCore fresh).seqs = (s.regroupTable fresh).seqs
    ∧ (s.regroupCore fresh).intake = [] := by
  have hFormed := formGroups_halts h fresh
  have hTable := regroupTable_halts h fresh
  have hMade : (s.formGroups fresh).evaluateAll (keepsGroup fresh (partition s.links) s.groups) = s.regroupTable fresh := by
    unfold State.evaluateAll State.regroupTable
    rw [placeInFlight_empty (hFormed.intake h), inheritChecks_empty (hFormed.intake h)]
  unfold State.regroupCore
  dsimp only
  rw [hMade]
  have hIntake := hTable.intake h
  generalize s.regroupTable fresh = w at hIntake ⊢
  have hLast : ((w.reorderRotation (keepsGroup fresh (partition s.links) s.groups)).noticeTable fresh s.groups).intake = []
      ∧ ((w.reorderRotation (keepsGroup fresh (partition s.links) s.groups)).noticeTable fresh s.groups).seqs = w.seqs := by
    unfold State.noticeTable State.reorderRotation
    split_ifs <;> exact ⟨hIntake, rfl⟩
  rw [placeWaiting_empty hLast.1]
  exact ⟨hLast.2, hLast.1⟩

theorem Uncheckable.regroupCore (c : Chan) (s : State) (fresh : Bool) : Uncheckable c s (s.regroupCore fresh) := fun hs => by
  obtain ⟨hSeqs, hIntake⟩ := regroupCore_table hs fresh
  refine ⟨hIntake, ?_⟩
  rw [hSeqs]
  exact ((regroupTable_halts hs fresh).uncheckable c hs).2

theorem Uncheckable.recount (c : Chan) (s : State) : Uncheckable c s s.recount := by
  unfold State.recount
  split_ifs
  · have hAll : Halts s s.abandonAll := Halts.forEach _ _ s fun l _ t _ => Halts.abandonOwn t l
    rw [changeMode_parked]
    generalize s.abandonAll = w at hAll ⊢
    exact (hAll.uncheckable c).trans (Uncheckable.of_same rfl rfl)
  · exact Uncheckable.of_same rfl rfl

/-- A run of the scheduler's own is no check. -/
theorem Uncheckable.started {c d : Chan} {s t : State} {kind : RunKind} {copy : RunCopy} {v : State} (hKind : kind ≠ .selfcheck)
    (hSeqs : t.seqs = upd s.seqs d (runStarted v d kind none copy)) (hIntake : t.intake = s.intake) : Uncheckable c s t := fun hs => by
  refine ⟨hIntake.trans hs, fun hRun => ?_⟩
  rw [hSeqs] at hRun
  by_cases hd : d = c
  · subst hd
    rw [upd_same, (runStarted_shape _ _ _ _ _).1] at hRun
    exact absurd hRun hKind
  · rwa [upd_other _ _ _ _ hd] at hRun

theorem Uncheckable.startOwn (c : Chan) (s : State) (l : GroupId) : Uncheckable c s (s.startOwn l .series .series) := by
  by_cases h : ∃ (g : Group) (d : Chan) (p : PlanId), s.groups[l] = some g ∧ g.injector = some d ∧ s.nodePlan[l] = some p
  · obtain ⟨g, d, p, hGroup, hInject, hPlan⟩ := h
    rw [startOwn_series hGroup hPlan hInject]
    exact Uncheckable.started (kind := .series) (by decide) rfl rfl
  · rw [startOwn_nothing fun g d p hGroup hInject hPlan => h ⟨g, d, p, hGroup, hInject, hPlan⟩]
    exact Uncheckable.of_same rfl rfl

theorem Uncheckable.startTurn (c : Chan) {s : State} {l : GroupId} (hReady : startable s l = true) : Uncheckable c s (s.startTurn l) := by
  obtain ⟨g, d, p, hGroup, -, -, hInject, hPlan, -⟩ := startable_ready hReady
  rw [startTurn_eq hGroup hPlan hInject]
  exact Uncheckable.started (kind := .triple) (by decide) rfl rfl

theorem Uncheckable.scheduleAll (c : Chan) : ∀ (n : Nat) (s : State), Uncheckable c s (scheduleAll n s)
  | 0, _ => Uncheckable.of_same rfl rfl
  | n + 1, s => fun hs => by
    have hNone := noneWaits_empty hs
    cases hOne : scheduleOne s with
    | none =>
      rw [scheduleAll_none hNone hOne]
      exact ⟨hs, id⟩
    | some t =>
      have hStep : Uncheckable c s t := by
        rw [scheduleOne_noneWaits hNone] at hOne
        split_ifs at hOne
        · obtain ⟨l, -, rfl⟩ := Option.map_eq_some_iff.mp hOne
          exact Uncheckable.startOwn c s l
        · obtain ⟨l, hFound, rfl⟩ := Option.map_eq_some_iff.mp hOne
          exact Uncheckable.startTurn c (List.find?_some (p := fun l => startable s l) hFound)
      rw [scheduleAll_some hNone hOne]
      exact hStep.trans (Uncheckable.scheduleAll c n t) hs

theorem Uncheckable.regroupFrom (c : Chan) (s : State) (running : Nat) (fresh : Bool) : Uncheckable c s (s.regroupFrom running fresh) := by
  have hSchedule (t : State) : Uncheckable c t t.schedule := (Uncheckable.scheduleAll c _ t).trans ((detachIdle_halts _).uncheckable c)
  have hCore := Uncheckable.regroupCore c s fresh
  unfold State.regroupFrom
  dsimp only
  split_ifs
  · exact (hCore.trans (Uncheckable.recount c _)).trans (hSchedule _)
  · exact hCore.trans (hSchedule _)

/-! ### The re-evaluations of a line's change -/

/-- The channels that enable a line. -/
def enables (s : State) (line : Fin 3) : List Chan := allChans.filter fun c => s.safety[c].discMask.getLsbD line.val

theorem exec_lineChange {s u : State} {line : Fin 3} {asserted : Bool} (hFrame : u = { s with lines := u.lines })
    (hLines : ∀ i, u.lines.getLsbD i = if i = line.val then asserted else s.lines.getLsbD i) (hStarting : s.starting = false)
    (hChange : s.lines.getLsbD line.val ≠ asserted) : exec (.disconnectLineChange line asserted) s = .next
      (if disconnectChange u (enables u line) = true then (u.reevaluate (enables u line)).regroupFrom (runningCount s) false
        else u.reevaluate (enables u line)) := by
  have hSet : s.setLine line asserted = u := by
    have hLine : (s.setLine line asserted).lines = u.lines := by
      refine BitVec.eq_of_getLsbD_eq fun i hi => ?_
      rw [hLines]
      unfold State.setLine
      dsimp only
      have hBit : (1#4 <<< line.val).getLsbD i = decide (i = line.val) := by
        have hAll : ∀ (x : Fin 3) (j : Fin 4), (1#4 <<< x.val).getLsbD j.val = decide (j.val = x.val) := by decide
        exact hAll line ⟨i, hi⟩
      cases asserted with
      | true =>
        rw [if_pos rfl, BitVec.getLsbD_or, hBit]
        by_cases h : i = line.val <;> simp [h]
      | false =>
        rw [if_neg Bool.false_ne_true, BitVec.getLsbD_and, BitVec.getLsbD_not, hBit]
        by_cases h : i = line.val <;> simp [h, hi]
    rw [hFrame, ← hLine]
    rfl
  have hExec : exec (.disconnectLineChange line asserted) s = .next (s.lineChange line asserted) := rfl
  rw [hExec]
  unfold State.lineChange
  rw [if_neg (by rw [hStarting]; exact fun h => h.elim (fun e => nomatch e) hChange), hSet]
  rfl

end Sys2Proof.Machine
end

section
/-! PROOFS. The check that a beginning disconnect aborts. -/

namespace Sys2Proof.Machine

/-- What the host sees of the orders, and one channel. -/
def orderView (c : Chan) (s : State) : List Order × Vector SlotState 8 × Memory × Seq × ChanSafety :=
  (s.intake, s.slots, s.mem, s.seqs[c], s.safety[c])

theorem beginDisconnect_quiet {s : State} {c : Chan} (h : ∀ o ∈ s.intake, o.job = .selfcheck c → o.phase ≠ .running) :
    s.beginDisconnect c = { s with
      seqs := upd s.seqs c (begunSeq s.seqs[c])
      safety := upd s.safety c { stoppedSafety s.seqs[c] s.safety[c] with disconnected := true } } := by
  rw [beginDisconnect_eq]
  generalize begunSeq s.seqs[c] = q, ({ stoppedSafety s.seqs[c] s.safety[c] with disconnected := true } : ChanSafety) = x
  exact abortCheck_none h

/-- A disconnect that begins on another channel, whose check does not run. -/
theorem beginDisconnect_apart {s : State} {c d : Chan} (h : d ≠ c) (hNone : ∀ o ∈ s.intake, o.job = .selfcheck d → o.phase ≠ .running) :
    orderView c (s.beginDisconnect d) = orderView c s := by
  have hChan := beginDisconnect_other s (c := d) (d := c) h
  have hOrders : (s.beginDisconnect d).intake = s.intake ∧ (s.beginDisconnect d).slots = s.slots ∧ (s.beginDisconnect d).mem = s.mem := by
    rw [beginDisconnect_quiet hNone]
    exact ⟨rfl, rfl, rfl⟩
  unfold orderView
  rw [hOrders.1, hOrders.2.1, hOrders.2.2, show (s.beginDisconnect d).seqs[c] = s.seqs[c] from congrArg Prod.fst hChan,
    show (s.beginDisconnect d).safety[c] = s.safety[c] from congrArg Prod.snd hChan]

theorem abortCheck_sole {s : State} {n : SlotId} {c : Chan} {l : GroupId} {k : Nat} (h : s.intake = [⟨n, .selfcheck c, .running, l, k⟩]) :
    (s.abortCheck c).intake = [] ∧ (s.abortCheck c).slots = upd s.slots n .done
    ∧ (s.abortCheck c).mem = completedMemory s.mem n .done 0 (selfcheckResult 3 0 0 s.safety[c].health s.safety[c].health)
    ∧ (s.seqs[c].run = .selfcheck → (s.abortCheck c).seqs[c].run = .none ∧ (s.abortCheck c).safety[c].reference = false) := by
  have hAborted : s.abortCheck c = ((s.checkDropped c).completeDone n
      (selfcheckResult 3 0 0 (s.checkDropped c).safety[c].health (s.checkDropped c).safety[c].health)).freeMeasurement l := by
    have hFound : (s.intake.find? fun o => decide (o.job = .selfcheck c) && decide (o.phase = .running)) =
        some ⟨n, .selfcheck c, .running, l, k⟩ := by
      rw [h]
      exact List.find?_cons_of_pos (by simp)
    unfold State.abortCheck
    rw [hFound]
    rfl
  have hDropped : (s.checkDropped c).slots = s.slots ∧ (s.checkDropped c).mem = s.mem
      ∧ (s.checkDropped c).safety[c].health = s.safety[c].health := by
    unfold State.checkDropped
    split_ifs
    · exact ⟨rfl, rfl, (congrArg ChanSafety.health (upd_same s.safety c { s.safety[c] with reference := false }) :)⟩
    · exact ⟨rfl, rfl, rfl⟩
  have hFree (t : State) : (t.freeMeasurement l).slots = t.slots ∧ (t.freeMeasurement l).mem = t.mem := by
    unfold State.freeMeasurement State.setSeries
    split_ifs
    · exact ⟨rfl, rfl⟩
    · exact ⟨State.modGroup_slots _ _ _, State.modGroup_mem _ _ _⟩
  have hView : chanView c (s.abortCheck c) = chanView c (s.checkDropped c) := by
    rw [hAborted, freeMeasurement_chan, State.completeDone, completeSlot_chan]
  have hIntake := checkDropped_intake s c
  obtain ⟨hSlots, hMem, hHealth⟩ := hDropped
  refine ⟨?_, ?_, ?_, fun hRun => ?_⟩
  · rw [hAborted, freeMeasurement_intake, State.completeDone, completeSlot_intake, hIntake, h]
    simp
  · rw [hAborted, (hFree _).1, State.completeDone, completeSlot_slots, hSlots]
  · rw [hAborted, (hFree _).2, State.completeDone, completeSlot_eq, hHealth, hMem]
  · have hDrop : s.checkDropped c = s.dropRun c := if_pos hRun
    rw [hDrop] at hView
    rw [show (s.abortCheck c).seqs[c] = (s.dropRun c).seqs[c] from congrArg Prod.fst hView,
      show (s.abortCheck c).safety[c] = (s.dropRun c).safety[c] from congrArg Prod.snd hView]
    exact ⟨congrArg Seq.run (upd_same _ _ _), congrArg ChanSafety.reference (upd_same _ _ _)⟩

/-- A channel's RUNNING check, the one order taken, is aborted where the channel's disconnect begins (R149). -/
theorem reevaluate_aborts {s : State} {chans : List Chan} (hNodup : chans.Nodup) {n : SlotId} {c : Chan} {l : GroupId} {k : Nat}
    (h : s.intake = [⟨n, .selfcheck c, .running, l, k⟩]) (hMem : c ∈ chans) (hBegins : disconnectBegins s c = true) :
    (s.reevaluate chans).intake = [] ∧ (s.reevaluate chans).slots = upd s.slots n .done
    ∧ (s.reevaluate chans).mem = completedMemory s.mem n .done 0 (selfcheckResult 3 0 0 s.safety[c].health s.safety[c].health)
    ∧ (s.seqs[c].run = .selfcheck → (s.reevaluate chans).seqs[c].run = .none ∧ (s.reevaluate chans).safety[c].reference = false) := by
  have hNotEnds : c ∉ chans.filter fun d => disconnectEnds s d := fun hIn => by
    have h1 := (List.mem_filter.mp hIn).2
    unfold disconnectBegins at hBegins
    unfold disconnectEnds at h1
    simp only [Bool.and_eq_true, Bool.not_eq_true'] at h1 hBegins
    exact nomatch hBegins.1.symm.trans h1.1.1
  obtain ⟨pre, post, -, hPre, hPost, hSplit⟩ := forEach_split (fun (d : Chan) (t : State) => t.beginDisconnect d)
    (hNodup.filter fun d => disconnectBegins s d) (List.mem_filter.mpr ⟨hMem, hBegins⟩) s
  have hBefore : orderView c (forEach pre (fun (d : Chan) (t : State) => t.beginDisconnect d) s) = orderView c s :=
    forEach_keeps (P := fun t => orderView c t = orderView c s) _ pre s rfl fun d hd t ht => by
      refine (beginDisconnect_apart (fun e : d = c => hPre (e ▸ hd)) fun o ho hJob => ?_).trans ht
      rw [show t.intake = s.intake from congrArg Prod.fst ht, h] at ho
      rw [List.mem_singleton.mp ho] at hJob
      exact absurd (Job.selfcheck.inj hJob) fun e : c = d => hPre (e ▸ hd)
  generalize forEach pre (fun (d : Chan) (t : State) => t.beginDisconnect d) s = t at hBefore hSplit
  have hIntakeT : t.intake = s.intake := congrArg Prod.fst hBefore
  have hSlotsT : t.slots = s.slots := congrArg (fun x => x.2.1) hBefore
  have hMemT : t.mem = s.mem := congrArg (fun x => x.2.2.1) hBefore
  have hSeqT : t.seqs[c] = s.seqs[c] := congrArg (fun x => x.2.2.2.1) hBefore
  have hSafetyT : t.safety[c] = s.safety[c] := congrArg (fun x => x.2.2.2.2) hBefore
  have hHere : (t.beginDisconnect c).intake = [] ∧ (t.beginDisconnect c).slots = upd s.slots n .done
      ∧ (t.beginDisconnect c).mem = completedMemory s.mem n .done 0 (selfcheckResult 3 0 0 s.safety[c].health s.safety[c].health)
      ∧ (s.seqs[c].run = .selfcheck → (t.beginDisconnect c).seqs[c].run = .none ∧ (t.beginDisconnect c).safety[c].reference = false) := by
    rw [beginDisconnect_eq]
    obtain ⟨w, hw⟩ : ∃ w : State, w = { t with
        seqs := upd t.seqs c (begunSeq t.seqs[c])
        safety := upd t.safety c { stoppedSafety t.seqs[c] t.safety[c] with disconnected := true } } := ⟨_, rfl⟩
    have hFields : w.intake = s.intake ∧ w.slots = s.slots ∧ w.mem = s.mem ∧ w.seqs[c] = begunSeq s.seqs[c]
        ∧ w.safety[c].health = s.safety[c].health := by
      rw [hw]
      refine ⟨hIntakeT, hSlotsT, hMemT, (upd_same _ _ _).trans (by rw [hSeqT]), (congrArg ChanSafety.health (upd_same _ _ _)).trans ?_⟩
      rw [hSafetyT]
      unfold stoppedSafety
      split_ifs <;> rfl
    obtain ⟨hIntakeW, hSlotsW, hMemW, hSeqW, hHealthW⟩ := hFields
    have hAborted := abortCheck_sole (hIntakeW.trans h)
    rw [hSlotsW, hMemW, hHealthW, hSeqW] at hAborted
    rw [← hw]
    refine ⟨hAborted.1, hAborted.2.1, hAborted.2.2.1, fun hRun => hAborted.2.2.2 ?_⟩
    unfold begunSeq stoppedSeq
    split_ifs with hAttached hMeasures
    · rw [hRun] at hMeasures
      exact absurd hMeasures (by decide)
    · exact hRun
    · exact hRun
  generalize t.beginDisconnect c = w at hHere hSplit
  have hAfter : orderView c (forEach post (fun (d : Chan) (t : State) => t.beginDisconnect d) w) = orderView c w :=
    forEach_keeps (P := fun t => orderView c t = orderView c w) _ post w rfl fun d hd t ht => by
      refine (beginDisconnect_apart (fun e : d = c => hPost (e ▸ hd)) fun o ho => ?_).trans ht
      rw [show t.intake = w.intake from congrArg Prod.fst ht, hHere.1] at ho
      exact nomatch ho
  have hClears (v : State) : orderView c (forEach (chans.filter fun d => disconnectEnds s d) (fun d t => t.clearDisconnect d) v) = orderView c v :=
    forEach_keeps (P := fun t => orderView c t = orderView c v) _ _ v rfl fun d hd t ht => by
      rw [← ht]
      unfold orderView
      rw [show (t.clearDisconnect d).safety[c] = t.safety[c] from upd_other _ _ _ _ fun e => hNotEnds (e ▸ hd)]
      rfl
  have hNews (l : List Chan) (v : State) : orderView c (forEach l (fun d t => t.newsChanSafety d.val) v) = orderView c v := by
    rw [(newsChanSafeties l v).1]
    rfl
  have hAll : orderView c (s.reevaluate chans) = orderView c w := by
    unfold State.reevaluate
    dsimp only
    rw [hSplit]
    split_ifs
    · rw [hNews, hClears, hAfter]
    · refine Eq.trans (b := orderView c (forEach _ (fun (d : Chan) t => t.newsChanSafety d.val) _)) rfl ?_
      rw [hNews, hClears, hAfter]
  rw [show (s.reevaluate chans).intake = w.intake from congrArg Prod.fst hAll,
    show (s.reevaluate chans).slots = w.slots from congrArg (fun x => x.2.1) hAll,
    show (s.reevaluate chans).mem = w.mem from congrArg (fun x => x.2.2.1) hAll,
    show (s.reevaluate chans).seqs[c] = w.seqs[c] from congrArg (fun x => x.2.2.2.1) hAll,
    show (s.reevaluate chans).safety[c] = w.safety[c] from congrArg (fun x => x.2.2.2.2) hAll]
  exact hHere

/-! ### Where no check runs -/

/-- A re-evaluation that aborts no check leaves everything but channels, news and level 6. -/
theorem reevaluate_quiet {s : State} (h : ∀ o ∈ s.intake, ∀ d : Chan, o.job = .selfcheck d → o.phase ≠ .running) (chans : List Chan) :
    s.reevaluate chans = { s with
      seqs := (s.reevaluate chans).seqs, safety := (s.reevaluate chans).safety, news := (s.reevaluate chans).news
      attn := (s.reevaluate chans).attn } := by
  have hBegins : OnChans s (forEach (chans.filter fun d => disconnectBegins s d) (fun d t => t.beginDisconnect d) s) :=
    forEach_keeps (P := OnChans s) _ _ s (OnChans.refl s) fun d _ t ht => by
      refine ht.trans ?_
      rw [beginDisconnect_quiet fun o ho => h o (ht.intake ▸ ho) d]
      rfl
  have hPass : OnChans s (forEach (chans.filter fun d => disconnectEnds s d) (fun d t => t.clearDisconnect d)
      (forEach (chans.filter fun d => disconnectBegins s d) (fun d t => t.beginDisconnect d) s)) :=
    hBegins.trans (OnChans.forEach _ _ _ fun d _ t => rfl)
  unfold State.reevaluate
  dsimp only
  generalize forEach (chans.filter fun d => disconnectEnds s d) (fun d t => t.clearDisconnect d)
      (forEach (chans.filter fun d => disconnectBegins s d) (fun d t => t.beginDisconnect d) s) = t at hPass ⊢
  have hFrame := (newsChanSafeties ((chans.filter fun d => disconnectBegins s d) ++ chans.filter fun d => disconnectEnds s d) t).1
  unfold OnChans at hPass
  generalize forEach ((chans.filter fun d => disconnectBegins s d) ++ chans.filter fun d => disconnectEnds s d)
    (fun c t => t.newsChanSafety c.val) t = w at hFrame ⊢
  generalize w.news.chanSafety = news at hFrame
  generalize t.seqs = seqs, t.safety = safety at hPass
  rw [hFrame, hPass]
  split_ifs <;> rfl

end Sys2Proof.Machine
end

section
/-! PROOFS. A regroup whose table agrees with the links already, and what becomes there of the one SPOT that runs. -/

namespace Sys2Proof.Machine

/-! ### Every group is kept (R6) -/

theorem keeps_agreeing {s : State} (h : tableAgrees s) (l : GroupId) :
    keepsGroup false (partition s.links) s.groups l = (s.groups[l]).isSome := by
  unfold keepsGroup
  cases hGroup : s.groups[l] with
  | none => simp
  | some g =>
    obtain ⟨hLeads, hMembers⟩ := table_group h hGroup
    simp [show (partition s.links)[l] = l from hLeads, hMembers]

theorem formGroups_agreeing {s : State} (h : tableAgrees s) : s.formGroups false = s := by
  have hAbandon : s.abandonChanged false (partition s.links) = s := by
    have hNone : (allNodes.filter fun l => s.groups[l].isSome && !keepsGroup false (partition s.links) s.groups l) = [] :=
      List.filter_eq_nil_iff.mpr fun l _ => by
        rw [keeps_agreeing h l]
        cases s.groups[l] <;> exact fun e => nomatch e
    unfold State.abandonChanged
    rw [hNone]
    rfl
  have hGroups : newGroups false (partition s.links) s.groups = s.groups := by
    refine Vector.ext fun i hi => ?_
    unfold newGroups
    rw [Vector.getElem_ofFn]
    have hHere := h ⟨i, hi⟩
    have hKeeps := keeps_agreeing h ⟨i, hi⟩
    rw [hKeeps]
    cases hGroup : s.groups[(⟨i, hi⟩ : GroupId)] with
    | none =>
      rw [hGroup] at hHere
      by_cases hLeads : (partition s.links)[(⟨i, hi⟩ : GroupId)] = ⟨i, hi⟩
      · rw [if_pos hLeads] at hHere
        exact nomatch hHere
      · exact if_neg hLeads
    | some g =>
      rw [if_pos (table_group h hGroup).1]
      rfl
  unfold State.formGroups
  dsimp only
  rw [hAbandon, hGroups]

theorem inheritCheck_noGroup {s : State} {l : GroupId} (h : s.groups[l] = none) : s.inheritCheck l = s := by
  unfold State.inheritCheck State.setSeries State.modGroup
  split_ifs
  · rw [h]
  · rfl

theorem inheritChecks_agreeing {s t : State} (h : tableAgrees s) (hGroups : t.groups = s.groups) :
    forEach (allNodes.filter fun l => !keepsGroup false (partition s.links) s.groups l) (fun l u => u.inheritCheck l) t = t :=
  forEach_unchanged _ _ _ fun l hl => inheritCheck_noGroup (by
    have hLost := (List.mem_filter.mp hl).2
    rw [keeps_agreeing h l] at hLost
    rw [hGroups]
    cases hGroup : s.groups[l] with
    | none => rfl
    | some g =>
      rw [hGroup] at hLost
      exact nomatch hLost)

/-- A regroup of an agreeing table: the orders in flight placed, every group evaluated, and the waiting orders placed. -/
theorem regroupCore_agreeing {s : State} (h : tableAgrees s) (hMode : s.mode ≠ .parked) (hPending : s.parkedPending = false) : ∃ w : State,
    w = (forEach allNodes (fun l t => t.evaluateGroup (!(s.groups[l]).isSome) l) s.placeInFlight).detachOthers
      ∧ s.regroupCore false = (w.noticeTable false s.groups).placeWaiting := by
  have hKeeps : keepsGroup false (partition s.links) s.groups = fun l => (s.groups[l]).isSome := funext (keeps_agreeing h)
  have hPlaced : s.placeInFlight.groups = s.groups :=
    forEach_keeps (P := fun t : State => t.groups = s.groups) _ _ s rfl fun o _ t ht => by
      split_ifs
      · exact ht
      · exact ht
  refine ⟨_, rfl, ?_⟩
  have hAll : s.evaluateAll (keepsGroup false (partition s.links) s.groups) =
      (forEach allNodes (fun l t => t.evaluateGroup (!(s.groups[l]).isSome) l) s.placeInFlight).detachOthers := by
    unfold State.evaluateAll
    rw [inheritChecks_agreeing h hPlaced, hKeeps]
  have hModeEnd := ((Measuring.evaluateAll s (keepsGroup false (partition s.links) s.groups)).calm hPending).1
  unfold State.regroupCore
  dsimp only
  rw [formGroups_agreeing h]
  have hReorder (k : GroupId → Bool) : (s.evaluateAll (keepsGroup false (partition s.links) s.groups)).reorderRotation k =
      s.evaluateAll (keepsGroup false (partition s.links) s.groups) := if_neg (by rw [hModeEnd]; exact hMode)
  rw [hReorder, hAll]

/-! ### Groups without a running SPOT -/

theorem runningSpot_intake {s t : State} (h : t.intake = s.intake) (l : GroupId) : runningSpot t l = runningSpot s l := by
  unfold runningSpot
  rw [h]

theorem abandonOwn_intake (s : State) (l : GroupId) : (s.abandonOwn l).intake = s.intake := by
  rw [(Halts.abandonOwn s l).frame]

theorem abandonGroup_noSpot {s : State} {l : GroupId} (h : runningSpot s l = none) : s.abandonGroup l = s.abandonOwn l :=
  abandonGroup_spotless ((runningSpot_intake (abandonOwn_intake s l) l).trans h)

theorem Halts.evaluated {s : State} {l : GroupId} (h : runningSpot s l = none) (formed : Bool) : Halts s (s.evaluateGroup formed l) := by
  unfold State.evaluateGroup
  split
  · exact Halts.refl s
  · refine Halts.trans (Halts.trans ?_ (Halts.modGroup _ l _)) (Halts.settleAfter _ l _ _)
    split_ifs
    · rw [abandonGroup_noSpot h]
      exact Halts.abandonOwn s l
    · exact Halts.refl s

theorem evaluated_others {s : State} {l : GroupId} (h : runningSpot s l = none) (formed : Bool) {m : GroupId} (hm : m ≠ l) :
    (s.evaluateGroup formed l).groups[m] = s.groups[m] := by
  unfold State.evaluateGroup
  split
  · rfl
  · rw [(settleAfter_touches _ l _ _).1 m hm, modGroup_others _ l _ hm]
    split_ifs
    · rw [abandonGroup_noSpot h]
      exact (abandonOwn_reaches s l).others m hm
    · rfl

/-! ### The one running SPOT, in a group that loses its injector (R14, R128) -/

/-- A group whose measurement is free, with its timer at rest where it has no injector. -/
def Freed (s : State) (l : GroupId) : Prop :=
  ∃ g, s.groups[l] = some g ∧ g.series = .none ∧ (g.injector = none → g.settle = none)

theorem settleAfter_freed {s : State} {l : GroupId} {g : Group} (hGroup : s.groups[l] = some g) (hSeries : g.series = .none) (formed : Bool) :
    Freed (s.settleAfter l formed true) l := by
  have hStart : Freed (s.startSettle l) l ∨ g.injector = none := by
    by_cases hInject : g.injector = none
    · exact .inr hInject
    · left
      rw [startSettle_eq hGroup]
      obtain ⟨hSeries', -, hInject', -⟩ := settledGroup_series (readyPlan s l) g
      exact ⟨_, upd_same _ _ _, hSeries'.trans hSeries, fun hNone => absurd (hInject'.symm.trans hNone) hInject⟩
  unfold State.settleAfter
  rw [hGroup]
  dsimp only
  by_cases hInject : g.injector = none
  · rw [if_pos hInject, modGroup_some hGroup]
    exact ⟨_, upd_same _ _ _, hSeries, fun _ => rfl⟩
  · have hFreed := hStart.resolve_right hInject
    have hOwn : s.abandonOwn l = s := abandonOwn_idle fun h => by
      rw [seriesOf_some hGroup, hSeries] at h
      rcases h with h | h | h <;> exact nomatch h
    rw [if_neg hInject, hOwn]
    split_ifs
    · exact hFreed
    · exact hFreed
    · rename_i hNot
      simp at hNot

/-- The state in which the SPOT's abandonment has been counted: it waits again, or it is refused (R128). -/
structure Recounted (s : State) (n : SlotId) (node : NodeId) (p : PlanId) (l : GroupId) (k : Nat) (t : State) : Prop where
  frame : t = { s with
    groups := t.groups, seqs := t.seqs, safety := t.safety, park := t.park, intake := t.intake, mem := t.mem, slots := t.slots
    news := t.news, attn := t.attn }
  waits : k + 1 < 3 → t.intake = [⟨n, .spot node p, .waiting, l, k + 1⟩] ∧ t.slots = s.slots
    ∧ t.mem = (s.mem.write (slotAddr n + 0x14) (byteOf (k + 1))).write (slotAddr n + 0x12) 1
  refused : 3 ≤ k + 1 → t.intake = [] ∧ t.slots = upd s.slots n .refused
    ∧ (∃ kind : List Byte, t.mem = completedMemory (s.mem.write (slotAddr n + 0x14) (byteOf (k + 1))) n .refused
          (byteOf Reason.topology.code) kind
        ∧ (s.mem.read (slotAddr n + 1) = 1 → kind = spotRefused (s.mem.read (slotAddr n + 3))))
    ∧ has8 t.news.done n.val = true ∧ has8 t.attn.pending 4 = true

theorem Halts.orders {s t : State} (h : Halts s t) : t.intake = s.intake ∧ t.slots = s.slots ∧ t.mem = s.mem ∧ t.news = s.news
    ∧ t.attn = s.attn := by
  have hFrame := h.frame
  generalize t.groups = groups, t.seqs = seqs, t.safety = safety, t.park = park at hFrame
  rw [hFrame]
  exact ⟨rfl, rfl, rfl, rfl, rfl⟩

theorem Recounted.halts {s t u : State} {n : SlotId} {node : NodeId} {p : PlanId} {l : GroupId} {k : Nat}
    (h : Recounted s n node p l k t) (hu : Halts t u) : Recounted s n node p l k u := by
  obtain ⟨hIntake, hSlots, hMem, hNews, hAttn⟩ := hu.orders
  refine ⟨?_, ?_, ?_⟩
  · have hFrame := h.frame
    have hLast := hu.frame
    rw [hIntake, hSlots, hMem, hNews, hAttn]
    generalize u.groups = groups, u.seqs = seqs, u.safety = safety, u.park = park at hLast ⊢
    generalize t.intake = intake, t.mem = mem, t.slots = slots, t.news = news, t.attn = attn at hFrame ⊢
    rw [hLast, hFrame]
  · rw [hIntake, hSlots, hMem]
    exact h.waits
  · rw [hIntake, hSlots, hMem, hNews, hAttn]
    exact h.refused

theorem Halts.recounted {s t u : State} {n : SlotId} {node : NodeId} {p : PlanId} {l : GroupId} {k : Nat}
    (h : Halts s t) (hu : Recounted t n node p l k u) : Recounted s n node p l k u := by
  obtain ⟨-, hSlots, hMem, -, -⟩ := h.orders
  have hWaits := hu.waits
  have hRefused := hu.refused
  rw [hSlots, hMem] at hWaits hRefused
  refine ⟨?_, hWaits, hRefused⟩
  have hFrame := h.frame
  have hLast := hu.frame
  generalize u.groups = groups, u.seqs = seqs, u.safety = safety, u.park = park, u.intake = intake, u.mem = mem, u.slots = slots,
    u.news = news, u.attn = attn at hLast ⊢
  rw [hLast, hFrame]

section
variable {s : State} {n : SlotId} {node : NodeId} {p : PlanId} {l : GroupId} {k : Nat}

/-- A SPOT abandoned, as the order unit takes notice of it. -/
theorem spotAbandoned_recounted (hIntake : s.intake = [⟨n, .spot node p, .running, l, k⟩]) :
    Recounted s n node p l k (s.spotAbandoned ⟨n, .spot node p, .running, l, k⟩) := by
  obtain ⟨u, hu⟩ : ∃ u : State, u = (((s.poke (slotAddr n + 0x14) (byteOf (k + 1))).modOrder n
      fun x => { x with abandons := k + 1 }).setSeries l .none) := ⟨_, rfl⟩
  have hFrame : u = { s with
      groups := u.groups, mem := s.mem.write (slotAddr n + 0x14) (byteOf (k + 1)), intake := [⟨n, .spot node p, .running, l, k + 1⟩] } := by
    have hCounted : (s.poke (slotAddr n + 0x14) (byteOf (k + 1))).modOrder n (fun x => { x with abandons := k + 1 }) = { s with
        mem := s.mem.write (slotAddr n + 0x14) (byteOf (k + 1)), intake := [⟨n, .spot node p, .running, l, k + 1⟩] } := by
      unfold State.modOrder State.poke
      rw [hIntake]
      exact congrArg (fun x => { s with mem := s.mem.write (slotAddr n + 0x14) (byteOf (k + 1)), intake := [x] }) (if_pos rfl)
    rw [hCounted] at hu
    rw [hu]
    unfold State.setSeries State.modGroup
    split <;> rfl
  have hAbandoned : s.spotAbandoned ⟨n, .spot node p, .running, l, k⟩ =
      if k + 1 < 3 then u.setPhase n .waiting else u.refuseSlot n .topology := by
    rw [hu]
    rfl
  rw [hAbandoned]
  generalize u.groups = groups at hFrame
  by_cases hAgain : k + 1 < 3
  · rw [if_pos hAgain]
    have hPhase : u.setPhase n .waiting = { s with
        groups := groups, mem := (s.mem.write (slotAddr n + 0x14) (byteOf (k + 1))).write (slotAddr n + 0x12) 1
        intake := [⟨n, .spot node p, .waiting, l, k + 1⟩] } := by
      rw [hFrame]
      unfold State.setPhase State.modOrder State.poke
      exact congrArg (fun x => { s with
        groups := groups, mem := (s.mem.write (slotAddr n + 0x14) (byteOf (k + 1))).write (slotAddr n + 0x12) 1, intake := [x] })
        (if_pos rfl)
    rw [hPhase]
    exact ⟨rfl, fun _ => ⟨rfl, rfl, rfl⟩, fun hNot => absurd hAgain (by omega)⟩
  · obtain ⟨kind, hk⟩ : ∃ kind, kind = refusedResult u n := ⟨_, rfl⟩
    obtain ⟨m, hm⟩ : ∃ m, m = s.mem.write (slotAddr n + 0x14) (byteOf (k + 1)) := ⟨_, rfl⟩
    have hMemU : u.mem = m := by rw [hFrame, hm]
    have hKind : s.mem.read (slotAddr n + 1) = 1 → kind = spotRefused (s.mem.read (slotAddr n + 3)) := fun hSpot => by
      have hRead (j : Nat) (hj : j < 4) : u.mem.read (slotAddr n + j) = s.mem.read (slotAddr n + j) := by
        rw [hMemU, hm]
        exact Memory.read_write_other _ _ _ _ (by omega)
      have hByte : slotParam u.mem n 1 = 1 := (hRead 1 (by decide)).trans hSpot
      have hPlan : slotParam u.mem n 3 = s.mem.read (slotAddr n + 3) := hRead 3 (by decide)
      rw [hk]
      unfold refusedResult
      rw [hByte, hPlan]
      rfl
    rw [if_neg hAgain, State.refuseSlot, ← hk, completeSlot_eq]
    rw [← hm] at hFrame
    rw [hFrame]
    refine ⟨rfl, fun hNot => absurd hNot hAgain, fun _ => ⟨by simp, rfl, ⟨kind, by rw [← hm], hKind⟩, ?_, ?_⟩⟩
    · show has8 (s.news.done ||| bit8 n.val) n.val = true
      rw [has8_add _ _ _ n.isLt n.isLt]
      simp
    · show has8 (s.attn.pending ||| bit8 4) 4 = true
      rw [has8_add _ _ _ (by decide) (by decide)]
      simp

theorem spotAbandoned_group {g : Group} (hGroup : s.groups[l] = some g) (o : Order) (ho : o.group = l) :
    (s.spotAbandoned o).groups[l] = some { g with series := .none } := by
  have hSet : ((((s.poke (slotAddr o.slot + 0x14) (byteOf (o.abandons + 1))).modOrder o.slot
      fun x => { x with abandons := o.abandons + 1 }).setSeries o.group .none)).groups[l] = some { g with series := .none } := by
    rw [ho]
    unfold State.setSeries
    rw [modGroup_get, if_pos rfl]
    exact congrArg (Option.map fun g => { g with series := .none }) hGroup
  unfold State.spotAbandoned
  dsimp only
  split_ifs
  · exact hSet
  · exact (congrArg (fun groups : Vector (Option Group) 8 => groups[l]) (completeSlot_groups _ _ _ _ _)).trans hSet

/-- The group of a running SPOT loses its injector: the SPOT's abandonment is counted, and the measurement is free. -/
theorem evaluateGroup_spot {g : Group} {c : Chan} (hIntake : s.intake = [⟨n, .spot node p, .running, l, k⟩])
    (hGroup : s.groups[l] = some g) (hInject : g.injector = some c) (hLost : eligible s g c = false) (formed : Bool) :
    Recounted s n node p l k (s.evaluateGroup formed l) ∧ Freed (s.evaluateGroup formed l) l := by
  have hChanged : chooseInjector s l g ≠ g.injector := by
    rw [hInject]
    unfold chooseInjector
    rw [hInject]
    split_ifs
    · exact fun e => nomatch e
    · dsimp only
      rw [hLost, if_neg Bool.false_ne_true]
      intro hLowest
      have hFound := List.find?_some (p := fun c => eligible s g c) hLowest
      rw [hLost] at hFound
      exact nomatch hFound
  have hOwn := Halts.abandonOwn s l
  obtain ⟨hIntakeOwn, -⟩ := hOwn.orders
  have hReach := abandonOwn_reaches s l
  have hSpot : runningSpot (s.abandonOwn l) l = some ⟨n, .spot node p, .running, l, k⟩ := by
    unfold runningSpot
    rw [hIntakeOwn, hIntake]
    exact List.find?_cons_of_pos (by simp)
  obtain ⟨g', hGroupOwn, -⟩ : ∃ g', (s.abandonOwn l).groups[l] = some g' ∧ g'.members = g.members := by
    have hShape := hReach.shape l
    rw [hGroup] at hShape
    obtain ⟨g', hg', hPair⟩ := Option.map_eq_some_iff.mp hShape
    exact ⟨g', hg', congrArg Prod.fst hPair⟩
  have hStop : Halts (s.abandonOwn l) ((s.abandonOwn l).stopInjector l) ∧ ((s.abandonOwn l).stopInjector l).groups = (s.abandonOwn l).groups := by
    unfold State.stopInjector
    split
    · next d _ =>
      refine ⟨⟨by rw [stopChannel_eq], fun e => ?_⟩, by rw [stopChannel_eq]⟩
      by_cases he : d = e
      · subst he
        right
        rw [stopChannel_eq]
        exact Prod.ext (upd_same _ _ _) (upd_same _ _ _)
      · left
        rw [stopChannel_eq]
        exact chanView_eq (upd_other _ _ _ _ he) (upd_other _ _ _ _ he)
    · exact ⟨Halts.refl _, rfl⟩
  have hBoth := hOwn.trans hStop.1
  have hGroupStop := hStop.2
  have hAbandoned : s.abandonGroup l = ((s.abandonOwn l).stopInjector l).spotAbandoned ⟨n, .spot node p, .running, l, k⟩ := by
    unfold State.abandonGroup
    dsimp only
    rw [hSpot]
  generalize (s.abandonOwn l).stopInjector l = b at hBoth hGroupStop hAbandoned
  have hGroupB : b.groups[l] = some g' := by
    rw [hGroupStop]
    exact hGroupOwn
  have hCounted := hBoth.recounted (spotAbandoned_recounted (hBoth.orders.1.trans hIntake))
  have hFree := spotAbandoned_group hGroupB ⟨n, .spot node p, .running, l, k⟩ rfl
  unfold State.evaluateGroup
  rw [hGroup]
  dsimp only
  rw [hInject] at hChanged ⊢
  rw [decide_eq_true hChanged, Option.isSome_some, Bool.and_self, if_pos rfl, hAbandoned]
  generalize b.spotAbandoned ⟨n, .spot node p, .running, l, k⟩ = t at hCounted hFree
  generalize chooseInjector s l g = inj
  refine ⟨(hCounted.halts (Halts.modGroup t l _)).halts (Halts.settleAfter _ l _ _), settleAfter_freed (g := { g' with
    series := .none, injector := inj }) ?_ rfl formed⟩
  rw [modGroup_get, if_pos rfl, hFree]
  rfl

/-! ### A regroup with that SPOT alone (R127, R128) -/

theorem leaderOf_members {s t : State} (h : sameMembers s t) (node : NodeId) : leaderOf t node = leaderOf s node := by
  rw [leaderOf_find, leaderOf_find]
  have hMembers (m : GroupId) : membersOf t m = membersOf s m := membersOf_of_map (h m)
  simp only [hMembers]

theorem Halts.disconnected {s t : State} (h : Halts s t) (c : Chan) : t.safety[c].disconnected = s.safety[c].disconnected := by
  rcases h.chans c with hSame | hStopped
  · rw [show t.safety[c] = s.safety[c] from congrArg Prod.snd hSame]
  · rw [show t.safety[c] = _ from congrArg Prod.snd hStopped]
    unfold stoppedSafety
    split_ifs <;> rfl

theorem Recounted.noSpot {t : State} (h : Recounted s n node p l k t) (m : GroupId) : runningSpot t m = none := by
  unfold runningSpot
  obtain hAgain | hLast := Nat.lt_or_ge (k + 1) 3
  · rw [(h.waits hAgain).1]
    exact List.find?_eq_none.mpr fun x hx => by
      rw [List.mem_singleton.mp hx]
      simp
  · rw [(h.refused hLast).1]
    rfl

theorem evaluateEach_spot {g : Group} {c : Chan} (hIntake : s.intake = [⟨n, .spot node p, .running, l, k⟩])
    (hGroup : s.groups[l] = some g) (hInject : g.injector = some c) (hLost : s.safety[c].disconnected = true) (formed : GroupId → Bool) :
    Recounted s n node p l k (forEach allNodes (fun m t => t.evaluateGroup (formed m) m) s)
      ∧ Freed (forEach allNodes (fun m t => t.evaluateGroup (formed m) m) s) l := by
  obtain ⟨pre, post, -, hPre, hPost, hSplit⟩ := forEach_split (fun (m : GroupId) (t : State) => t.evaluateGroup (formed m) m)
    allNodes_nodup (mem_allNodes l) s
  have hBefore : Halts s (forEach pre (fun (m : GroupId) (t : State) => t.evaluateGroup (formed m) m) s)
      ∧ (forEach pre (fun (m : GroupId) (t : State) => t.evaluateGroup (formed m) m) s).groups[l] = some g :=
    forEach_keeps (P := fun t => Halts s t ∧ t.groups[l] = some g) _ pre s ⟨Halts.refl s, hGroup⟩ fun m hm t ht => by
      have hml : m ≠ l := fun e => hPre (e ▸ hm)
      have hNone : runningSpot t m = none := by
        unfold runningSpot
        rw [ht.1.orders.1, hIntake]
        exact List.find?_eq_none.mpr fun x hx => by
          rw [List.mem_singleton.mp hx]
          simp [Ne.symm hml]
      exact ⟨ht.1.trans (Halts.evaluated hNone _), (evaluated_others hNone _ (Ne.symm hml)).trans ht.2⟩
  rw [hSplit]
  generalize forEach pre (fun (m : GroupId) (t : State) => t.evaluateGroup (formed m) m) s = t at hBefore
  obtain ⟨hHalts, hGroupT⟩ := hBefore
  have hLostT : eligible t g c = false := by
    unfold eligible serviceable
    rw [hHalts.disconnected c, hLost]
    simp
  have hHere := evaluateGroup_spot (hHalts.orders.1.trans hIntake) hGroupT hInject hLostT (formed l)
  refine forEach_keeps (P := fun u => Recounted s n node p l k u ∧ Freed u l) _ post _ ⟨hHalts.recounted hHere.1, hHere.2⟩ fun m hm u hu => ?_
  have hml : m ≠ l := fun e => hPost (e ▸ hm)
  have hNone := hu.1.noSpot m
  obtain ⟨g', hg', hSeries, hSettle⟩ := hu.2
  exact ⟨hu.1.halts (Halts.evaluated hNone _), g', (evaluated_others hNone _ (Ne.symm hml)).trans hg', hSeries, hSettle⟩

/-- The state a regroup leaves of the one SPOT that ran, its group having lost its injector. -/
structure SpotLost (s : State) (n : SlotId) (node : NodeId) (p : PlanId) (l : GroupId) (k : Nat) (w : State) : Prop where
  freed : Freed w l
  waits : k + 1 < 3 → w.intake = [⟨n, .spot node p, .waiting, l, k + 1⟩] ∧ w.slots = s.slots
    ∧ w.mem.read (slotAddr n + 0x12) = 1 ∧ w.mem.read (slotAddr n + 0x13) = byteOf l.val
    ∧ w.mem.read (slotAddr n + 0x14) = byteOf (k + 1)
  refused : 3 ≤ k + 1 → w.intake = [] ∧ w.slots = upd s.slots n .refused
    ∧ (∃ (m : Memory) (kind : List Byte), w.mem = completedMemory m n .refused (byteOf Reason.topology.code) kind
        ∧ (∀ j, j < 0x10 → m.read (slotAddr n + j) = s.mem.read (slotAddr n + j)) ∧ m.read (slotAddr n + 0x14) = byteOf (k + 1)
        ∧ (s.mem.read (slotAddr n + 1) = 1 → kind = spotRefused (s.mem.read (slotAddr n + 3))))
    ∧ has8 w.news.done n.val = true ∧ has8 w.attn.pending 4 = true

theorem placeInFlight_spot (hIntake : s.intake = [⟨n, .spot node p, .running, l, k⟩]) (hLeads : leaderOf s l = l) :
    s.placeInFlight = { s with mem := s.mem.write (slotAddr n + 0x13) (byteOf l.val) } := by
  unfold State.placeInFlight
  rw [hIntake]
  show (if OrderPhase.running = .waiting then s else s.setOrderGroup n (leaderOf s l)) = _
  rw [if_neg (by decide), hLeads]
  unfold State.setOrderGroup State.modOrder State.poke
  rw [hIntake]
  show { s with intake := [if n = n then _ else _], mem := _ } = _
  rw [if_pos rfl, ← hIntake]

theorem placeWaiting_spot (hIntake : s.intake = [⟨n, .spot node p, .waiting, l, k⟩]) (hLeads : leaderOf s node = l) :
    s.placeWaiting = { s with mem := s.mem.write (slotAddr n + 0x13) (byteOf l.val) } := by
  unfold State.placeWaiting
  rw [hIntake]
  show s.setOrderGroup n (leaderOf s node) = _
  rw [hLeads]
  unfold State.setOrderGroup State.modOrder State.poke
  rw [hIntake]
  show { s with intake := [if n = n then _ else _], mem := _ } = _
  rw [if_pos rfl, ← hIntake]

theorem regroupCore_spot {g : Group} {c : Chan} (hTable : tableAgrees s) (hMode : s.mode ≠ .parked) (hPending : s.parkedPending = false)
    (hIntake : s.intake = [⟨n, .spot node p, .running, l, k⟩]) (hLeader : leaderOf s node = l) (hGroup : s.groups[l] = some g)
    (hInject : g.injector = some c) (hLost : s.safety[c].disconnected = true) : SpotLost s n node p l k (s.regroupCore false) := by
  obtain ⟨w, hw, hCore⟩ := regroupCore_agreeing hTable hMode hPending
  have hPlaced := placeInFlight_spot hIntake (leaderOf_leader hTable hGroup)
  obtain ⟨v, hv⟩ : ∃ v : State, v = { s with mem := s.mem.write (slotAddr n + 0x13) (byteOf l.val) } := ⟨_, rfl⟩
  rw [hPlaced, ← hv] at hw
  have hEach := evaluateEach_spot (s := v) (n := n) (node := node) (p := p) (l := l) (k := k) (g := g) (c := c) (by rw [hv]; exact hIntake)
    (by rw [hv]; exact hGroup) hInject (by rw [hv]; exact hLost) fun m => !(s.groups[m]).isSome
  have hMembers : sameMembers v (forEach allNodes (fun m t => t.evaluateGroup (!(s.groups[m]).isSome) m) v) :=
    forEach_keeps (P := sameMembers v) _ _ v (fun _ => rfl) fun m _ t ht x =>
      ((evaluateGroup_spec t (!(s.groups[m]).isSome) m).members x).trans (ht x)
  generalize forEach allNodes (fun m t => t.evaluateGroup (!(s.groups[m]).isSome) m) v = t at hw hEach hMembers
  obtain ⟨hCounted, g', hg', hSeries, hSettle⟩ := hEach
  have hGroupsW : w.groups = t.groups := by
    rw [hw]
    exact detachOthers_groups t
  have hCountedW : Recounted v n node p l k w := by
    rw [hw]
    exact hCounted.halts (detachOthers_halts t)
  have hLeadsW : leaderOf w node = l := by
    rw [leaderOf_congr hGroupsW, leaderOf_members hMembers, hv]
    exact hLeader
  obtain ⟨x, hx⟩ : ∃ x : State, x = w.noticeTable false s.groups := ⟨_, rfl⟩
  have hNotice : x.groups = w.groups ∧ x.intake = w.intake ∧ x.slots = w.slots ∧ x.mem = w.mem ∧ x.news = w.news
      ∧ (has8 w.attn.pending 4 = true → has8 x.attn.pending 4 = true) := by
    rw [hx]
    unfold State.noticeTable
    split_ifs
    · exact ⟨rfl, rfl, rfl, rfl, rfl, fun h => has8_or_left _ _ 4 h⟩
    · exact ⟨rfl, rfl, rfl, rfl, rfl, id⟩
  obtain ⟨hGroupsX, hIntakeX, hSlotsX, hMemX, hNewsX, hLevelX⟩ := hNotice
  have hSlotsV : v.slots = s.slots := by rw [hv]
  have hReadV (j : Nat) (hj : j ≠ 0x13) : v.mem.read (slotAddr n + j) = s.mem.read (slotAddr n + j) := by
    rw [hv]
    exact Memory.read_write_other _ _ _ _ (by omega)
  have hFreedX : Freed x l := ⟨g', by rw [hGroupsX, hGroupsW]; exact hg', hSeries, hSettle⟩
  rw [hCore, ← hx]
  obtain hAgain | hLast := Nat.lt_or_ge (k + 1) 3
  · obtain ⟨hIntakeW, hSlotsW, hMemW⟩ := hCountedW.waits hAgain
    have hWaiting := placeWaiting_spot (hIntakeX.trans hIntakeW) (by rw [leaderOf_congr hGroupsX]; exact hLeadsW)
    rw [hWaiting]
    refine ⟨hFreedX, fun _ => ⟨hIntakeX.trans hIntakeW, hSlotsX.trans (hSlotsW.trans hSlotsV), ?_, Memory.read_write_same _ _ _, ?_⟩,
      fun hNot => absurd hAgain (by omega)⟩
    · show (x.mem.write _ _).read _ = _
      rw [Memory.read_write_other _ _ _ _ (by omega), hMemX, hMemW, Memory.read_write_same]
    · show (x.mem.write _ _).read _ = _
      rw [Memory.read_write_other _ _ _ _ (by omega), hMemX, hMemW, Memory.read_write_other _ _ _ _ (by omega), Memory.read_write_same]
  · obtain ⟨hIntakeW, hSlotsW, ⟨kind, hMemW, hKind⟩, hDone, hLevel⟩ := hCountedW.refused hLast
    rw [placeWaiting_empty (hIntakeX.trans hIntakeW)]
    refine ⟨hFreedX, fun hNot => absurd hNot (by omega), fun _ => ⟨hIntakeX.trans hIntakeW, by rw [hSlotsX, hSlotsW, hSlotsV],
      ⟨_, kind, hMemX.trans hMemW, fun j hj => ?_, Memory.read_write_same _ _ _, fun hSpot => ?_⟩, by rw [hNewsX]; exact hDone, hLevelX hLevel⟩⟩
    · rw [Memory.read_write_other _ _ _ _ (by omega)]
      exact hReadV j (by omega)
    · rw [← hReadV 3 (by decide)]
      exact hKind ((hReadV 1 (by decide)).trans hSpot)

end

end Sys2Proof.Machine
end

section
/-! PROOFS. The scheduler with one waiting SPOT whose group's measurement is free, in IDLE and in RUN. -/

namespace Sys2Proof.Machine

/-! ### Who may inject after an operation -/

theorem Measuring.serviceable {s t : State} (m : Measuring s t) {c : Chan} (hUnchecked : checking t c = false)
    (h : serviceable s c = true) : Machine.serviceable t c = true := by
  unfold Machine.serviceable at h ⊢
  rw [(m.chan c).health, (m.chan c).disconnected, hUnchecked]
  rw [Bool.and_eq_true] at h
  simpa using h.1

theorem Measuring.wiredInto {s t : State} (m : Measuring s t) (c : Chan) (members : BitVec 8) :
    wiredInto t c members = Machine.wiredInto s c members := by
  unfold Machine.wiredInto
  rw [m.wiring_eq]

theorem Measuring.held_iff {s t : State} (m : Measuring s t) (c : Chan) : t.seqs[c].ctx = .held ↔ s.seqs[c].ctx = .held := by
  rcases (m.chan c).ctx with hSame | ⟨hNone, hIdle⟩
  · rw [hSame]
  · rw [hNone, hIdle]
    exact ⟨(fun e => nomatch e), fun e => nomatch e⟩

theorem Measuring.passive {s t : State} (m : Measuring s t) {g g' : Group} (hMembers : g'.members = g.members) :
    groupPassive t g' = groupPassive s g := by
  unfold groupPassive
  rw [m.yields_eq, hMembers]

theorem Measuring.eligible {s t : State} (m : Measuring s t) {g g' : Group} (hMembers : g'.members = g.members) {c : Chan}
    (hUnchecked : checking t c = false) (h : eligible s g c = true) : Machine.eligible t g' c = true := by
  unfold Machine.eligible at h ⊢
  simp only [Bool.and_eq_true, decide_eq_true_eq] at h ⊢
  obtain ⟨⟨⟨hWired, hServes⟩, hHeld⟩, hActive⟩ := h
  rw [m.wiredInto, hMembers, m.passive hMembers]
  exact ⟨⟨⟨hWired, m.serviceable hUnchecked hServes⟩, fun e => hHeld ((m.held_iff c).mp e)⟩, hActive⟩

theorem Measuring.heldOnly {s t : State} (m : Measuring s t) {g g' : Group} (hMembers : g'.members = g.members) {c : Chan}
    (hUnchecked : checking t c = false) (h : heldOnly s g c = true) : Machine.heldOnly t g' c = true := by
  unfold Machine.heldOnly at h ⊢
  simp only [Bool.and_eq_true, decide_eq_true_eq] at h ⊢
  obtain ⟨⟨hWired, hServes⟩, hHeld⟩ := h
  rw [m.wiredInto, hMembers]
  exact ⟨⟨hWired, m.serviceable hUnchecked hServes⟩, (m.held_iff c).mpr hHeld⟩

theorem groupState_noChannel {s : State} {l : GroupId} {g : Group} (hGroup : s.groups[l] = some g) : groupState s l = .noChannel ↔
    groupPassive s g = false ∧ lowestEligible s g = none ∧ ∀ c : Chan, heldOnly s g c = false := by
  have hState : groupState s l = groupStateOf s l g := by
    unfold groupState
    rw [hGroup]
  rw [hState]
  cases hPassive : groupPassive s g with
  | true =>
    unfold groupStateOf
    rw [hPassive, if_pos rfl]
    simp
  | false =>
    cases hLowest : lowestEligible s g with
    | none =>
      have hAny : (allChans.any fun c => heldOnly s g c) = false ↔ ∀ c : Chan, heldOnly s g c = false := by
        rw [List.any_eq_false]
        exact ⟨fun h c => by simpa using h c (mem_allChans c), fun h c _ => by simp [h c]⟩
      unfold groupStateOf
      rw [hPassive, hLowest, if_neg Bool.false_ne_true, Option.isNone_none, if_pos rfl]
      rw [← hAny]
      cases allChans.any fun c => heldOnly s g c <;> simp
    | some d =>
      have hOther : groupStateOf s l g ≠ .noChannel := by
        unfold groupStateOf
        rw [hPassive, hLowest, if_neg Bool.false_ne_true, if_neg (by simp)]
        split_ifs
        · decide
        · decide
        · decide
        · cases s.mode <;> cases g.series <;> decide
      simp [hOther]

/-! ### A SPOT refused at its grant (R126) -/

theorem refuseDispatch_orders (s : State) (o : Order) (why : Reason) :
    (s.refuseDispatch o why).intake = s.intake.filter (fun x => x.slot ≠ o.slot)
    ∧ (s.refuseDispatch o why).slots = upd s.slots o.slot .refused
    ∧ (s.refuseDispatch o why).mem = completedMemory s.mem o.slot .refused (byteOf why.code) (refusedResult s o.slot)
    ∧ (s.refuseDispatch o why).mode = s.mode := by
  have hOrders (u : State) (l : GroupId) : (u.detachInjector l).intake = u.intake ∧ (u.detachInjector l).slots = u.slots
      ∧ (u.detachInjector l).mem = u.mem ∧ (u.detachInjector l).mode = u.mode := by
    have hFrame : OnChans u (u.detachInjector l) := OnChans.detachInjector u l
    unfold OnChans at hFrame
    generalize (u.detachInjector l).seqs = seqs, (u.detachInjector l).safety = safety at hFrame
    rw [hFrame]
    exact ⟨rfl, rfl, rfl, rfl⟩
  have hSet (u : State) : (u.setSeries o.group .none).intake = u.intake ∧ (u.setSeries o.group .none).slots = u.slots
      ∧ (u.setSeries o.group .none).mem = u.mem ∧ (u.setSeries o.group .none).mode = u.mode :=
    ⟨State.modGroup_intake _ _ _, State.modGroup_slots _ _ _, State.modGroup_mem _ _ _, State.modGroup_mode _ _ _⟩
  unfold State.refuseDispatch
  obtain ⟨h1, h2, h3, h4⟩ := hOrders ((s.refuseSlot o.slot why).setSeries o.group .none) o.group
  obtain ⟨k1, k2, k3, k4⟩ := hSet (s.refuseSlot o.slot why)
  rw [h1, h2, h3, h4, k1, k2, k3, k4, State.refuseSlot, completeSlot_eq]
  exact ⟨rfl, rfl, rfl, rfl⟩

/-! ### What follows a grant, in IDLE and in RUN -/

theorem Stands.startAll (l : GroupId) {s : State} (hMode : s.mode ≠ .safeStop) : Stands l s s.startAll :=
  (forEach_keeps (P := fun t : State => t.mode ≠ .safeStop ∧ Stands l s t) (fun m (t : State) => t.startOwn m .series .series)
    (startables s) s ⟨hMode, Stands.refl l s⟩ fun m _ t ht => by
      refine ⟨?_, ht.2.trans (Stands.startOwn l ht.1 m _ _)⟩
      rw [(startOwn_ownRun t m).frame]
      exact ht.1).2

/-- With no order waiting, the decisions that remain in IDLE and in RUN start series alone. -/
theorem scheduleAll_rest {x : State} (hNone : noneWaits x) (hMode : x.mode = .idle ∨ x.mode = .run) (l : GroupId) :
    (scheduleAll 19 x).detachIdle = { x with
      groups := (scheduleAll 19 x).detachIdle.groups, seqs := (scheduleAll 19 x).detachIdle.seqs
      safety := (scheduleAll 19 x).detachIdle.safety }
    ∧ Stands l x (scheduleAll 19 x).detachIdle := by
  rcases hMode with hIdle | hRun
  · have hEnd : scheduleAll 19 x = x := scheduleAll_none hNone (by
      rw [scheduleOne_noneWaits hNone, if_neg (by rw [hIdle]; decide), if_neg fun h => by rw [hIdle] at h; exact nomatch h.1])
    rw [hEnd]
    have hFrame := detachIdle_frame x
    refine ⟨?_, Stands.detachIdle l x⟩
    have hGroups : x.detachIdle.groups = x.groups := (congrArg State.groups hFrame :)
    rw [hGroups]
    exact hFrame
  · have hLength : (startables x).length ≤ 19 := (List.length_filter_le _ _).trans (by decide)
    have hEnd : (scheduleAll 19 x).detachIdle = x.startAll.detachIdle := by
      rw [scheduleAll_run 19 x hNone hRun hLength]
      rfl
    rw [hEnd]
    exact ⟨startAll_frame rfl, (Stands.startAll l (by rw [hRun]; decide)).trans (Stands.detachIdle l _)⟩

/-! ### The one waiting SPOT -/

section
variable {w : State} {n : SlotId} {node : NodeId} {p : PlanId} {l : GroupId} {k : Nat}

/-- What the scheduler makes of the one waiting SPOT of a group whose measurement is free. -/
structure SpotServed (w : State) (n : SlotId) (l : GroupId) (t : State) : Prop where
  abandons : t.mem.read (slotAddr n + 0x14) = w.mem.read (slotAddr n + 0x14)
  waits : (t.groups[l]).bind (·.settle) ≠ none → t.intake = w.intake ∧ t.slots = w.slots ∧ t.mem = w.mem
  lost : groupState t l = .noChannel → t.intake = [] ∧ t.slots[n] = .refused ∧ t.mem.read (slotAddr n + 0x15) = byteOf Reason.noChannel.code

theorem sole_of (hIntake : w.intake = [⟨n, .spot node p, .waiting, l, k⟩]) : SoleWaits w ⟨n, .spot node p, .waiting, l, k⟩ :=
  ⟨by rw [hIntake]; exact List.mem_singleton_self _, rfl, fun x hx _ => by rw [hIntake] at hx; exact List.mem_singleton.mp hx⟩

theorem unchecked_spot {s t : State} (hIntake : s.intake = [⟨n, .spot node p, .waiting, l, k⟩])
    (hOrders : ∀ x ∈ t.intake, ∃ y ∈ s.intake, y.slot = x.slot ∧ y.job = x.job) (c : Chan) : checking t c = false := by
  unfold checking
  rw [List.any_eq_false]
  intro x hx
  obtain ⟨y, hy, -, hJob⟩ := hOrders x hx
  rw [hIntake] at hy
  rw [List.mem_singleton.mp hy] at hJob
  rw [← hJob]
  simp

/-- A group that has a channel in service still has one after an operation that leaves its members. -/
theorem spotServed_of {t : State} {g : Group} (hGroup : w.groups[l] = some g) (hStands : Stands l w t)
    (hUnchecked : ∀ c : Chan, checking t c = false) : groupState t l = .noChannel →
    groupPassive w g = false ∧ lowestEligible w g = none ∧ ∀ c : Chan, heldOnly w g c = false := by
  intro hLost
  obtain ⟨g', hg', hStance⟩ : ∃ g', t.groups[l] = some g' ∧ g'.stance = g.stance := by
    have hHere := hStands.stance
    rw [hGroup] at hHere
    exact Option.map_eq_some_iff.mp hHere
  have hMembers : g'.members = g.members := congrArg Prod.fst hStance
  have m := hStands.measuring
  obtain ⟨hActive, hNone, hHeld⟩ := (groupState_noChannel hg').mp hLost
  refine ⟨(m.passive hMembers).symm.trans hActive, ?_, fun c => ?_⟩
  · refine List.find?_eq_none.mpr fun c _ hc => ?_
    exact List.find?_eq_none.mp hNone c (mem_allChans c) (m.eligible hMembers (hUnchecked c) hc)
  · cases hc : heldOnly w g c with
    | false => rfl
    | true => exact absurd (m.heldOnly hMembers (hUnchecked c) hc) (by rw [hHeld c]; decide)

theorem grant_spotRefused (hIntake : w.intake = [⟨n, .spot node p, .waiting, l, k⟩]) (hMode : w.mode = .idle ∨ w.mode = .run)
    {why : Reason} {u : State} (hu : u = w.setSeries l .order) (hEnd : w.grant ⟨n, .spot node p, .waiting, l, k⟩ =
      u.refuseDispatch ⟨n, .spot node p, .waiting, l, k⟩ why) : ∃ x : State,
      w.grant ⟨n, .spot node p, .waiting, l, k⟩ = x ∧ noneWaits x ∧ (x.mode = .idle ∨ x.mode = .run) ∧ Stands l w x
      ∧ x.mem.read (slotAddr n + 0x14) = w.mem.read (slotAddr n + 0x14) ∧ x.intake = [] ∧ x.slots[n] = .refused
      ∧ x.mem.read (slotAddr n + 0x15) = byteOf why.code := by
  obtain ⟨hOrders, hSlots, hMem, hModeX⟩ := refuseDispatch_orders u ⟨n, .spot node p, .waiting, l, k⟩ why
  have hSame : u.intake = w.intake ∧ u.mem = w.mem ∧ u.mode = w.mode := by
    rw [hu]
    exact ⟨State.modGroup_intake _ _ _, State.modGroup_mem _ _ _, State.modGroup_mode _ _ _⟩
  obtain ⟨hIntakeU, hMemU, hModeU⟩ := hSame
  have hStands : Stands l w (u.refuseDispatch ⟨n, .spot node p, .waiting, l, k⟩ why) := by
    have hSet : Stands l w u := hu ▸ Stands.setSeries l w l .order
    exact hSet.trans (Stands.refuseDispatch l (by rw [hIntakeU, hIntake]; exact List.mem_singleton_self _) (activeCheck_waiting rfl) why)
  have hNone : (u.refuseDispatch ⟨n, .spot node p, .waiting, l, k⟩ why).intake = [] := by
    rw [hOrders, hIntakeU, hIntake]
    simp
  rw [hEnd]
  refine ⟨_, rfl, noneWaits_empty hNone, by rw [hModeX, hModeU]; exact hMode, hStands, ?_, hNone, by rw [hSlots]; exact upd_same _ _ _, ?_⟩
  · rw [hMem, hMemU]
    exact completedMemory_kept _ _ _ _ _ (by decide)
  · rw [hMem]
    exact completedMemory_reason _ _ _ _ _

/-- The one waiting SPOT granted: it runs, or it is refused for what its group is. -/
theorem grant_spotOutcome {g : Group} (hIntake : w.intake = [⟨n, .spot node p, .waiting, l, k⟩]) (hGroup : w.groups[l] = some g)
    (hMode : w.mode = .idle ∨ w.mode = .run) (hReady : w.plans[p].ready = true) : ∃ x : State,
      w.grant ⟨n, .spot node p, .waiting, l, k⟩ = x ∧ noneWaits x ∧ (x.mode = .idle ∨ x.mode = .run) ∧ Stands l w x
      ∧ x.mem.read (slotAddr n + 0x14) = w.mem.read (slotAddr n + 0x14)
      ∧ (groupPassive w g = false ∧ lowestEligible w g = none ∧ (∀ c : Chan, heldOnly w g c = false) →
        x.intake = [] ∧ x.slots[n] = .refused ∧ x.mem.read (slotAddr n + 0x15) = byteOf Reason.noChannel.code) := by
  obtain ⟨u, hu⟩ : ∃ u : State, u = w.setSeries l .order := ⟨_, rfl⟩
  have hGroupU : u.groups[l] = some { g with series := .order } := by
    rw [hu]
    unfold State.setSeries
    rw [modGroup_get, if_pos rfl, hGroup]
    rfl
  have hSetEq : u = { w with groups := upd w.groups l (some { g with series := .order }) } := hu.trans (modGroup_some hGroup _)
  have hSet : Stands l w u := hu ▸ Stands.setSeries l w l .order
  have hGrant : w.grant ⟨n, .spot node p, .waiting, l, k⟩ = (match spotCheck u l p with
      | some why => u.refuseDispatch ⟨n, .spot node p, .waiting, l, k⟩ why
      | none => u.startSpot ⟨n, .spot node p, .waiting, l, k⟩ p) := by
    rw [hu]
    rfl
  have hReadyU : u.plans[p].ready = true := by
    rw [hSet.measuring.plans_eq]
    exact hReady
  cases hCheck : spotCheck u l p with
  | some why =>
    rw [hCheck] at hGrant
    obtain ⟨x, hx, hNone, hModeX, hStands, hAbandons, hEmpty, hRefused, hWhy⟩ := grant_spotRefused hIntake hMode hu hGrant
    refine ⟨x, hx, hNone, hModeX, hStands, hAbandons, fun ⟨hActive, hLowest, hHeld⟩ => ⟨hEmpty, hRefused, ?_⟩⟩
    have hState : groupState u l = .noChannel := by
      refine (groupState_noChannel hGroupU).mpr ⟨?_, ?_, ?_⟩
      · rw [hSetEq]
        exact hActive
      · rw [hSetEq]
        exact hLowest
      · rw [hSetEq]
        exact hHeld
    unfold spotCheck at hCheck
    rw [if_neg (by rw [hReadyU]; decide), hState] at hCheck
    rw [hWhy, ← Option.some.inj hCheck]
  | none =>
    rw [hCheck] at hGrant
    obtain ⟨-, hActive, hSome⟩ := (spotCheck_none hGroupU p).mp hCheck
    have hAdmits : groupPassive w g = false ∧ lowestEligible w g ≠ none := by
      rw [hSetEq] at hActive hSome
      exact ⟨hActive, hSome⟩
    cases hInject : g.injector with
    | none =>
      have hStart : w.grant ⟨n, .spot node p, .waiting, l, k⟩ = u.refuseDispatch ⟨n, .spot node p, .waiting, l, k⟩ .noChannel := by
        rw [hGrant]
        unfold State.startSpot
        dsimp only
        rw [hGroupU]
        dsimp only
        rw [hInject]
      obtain ⟨x, hx, hNone, hModeX, hStands, hAbandons, -⟩ := grant_spotRefused hIntake hMode hu hStart
      exact ⟨x, hx, hNone, hModeX, hStands, hAbandons, fun h => absurd h.2.1 hAdmits.2⟩
    | some c =>
      have hSpotted := (Spotted.granted (c := c) (o := ⟨n, .spot node p, .waiting, l, k⟩) rfl hGroup hInject hReady hAdmits).frame
      have hStands : Stands l w (w.grant ⟨n, .spot node p, .waiting, l, k⟩) := by
        rw [hGrant]
        refine hSet.trans (Stands.startSpot l ?_ ?_ rfl p)
        · rw [hu, show (w.setSeries l .order).mode = w.mode from State.modGroup_mode _ _ _]
          rcases hMode with h | h <;> rw [h] <;> decide
        · rw [hu, show (w.setSeries l .order).intake = w.intake from State.modGroup_intake _ _ _, hIntake]
          exact List.mem_singleton_self _
      refine ⟨_, rfl, (sole_of hIntake).noneAfter (by rw [hSpotted]), by rw [hSpotted]; exact hMode, hStands, ?_, fun h => absurd h.2.1 hAdmits.2⟩
      rw [hSpotted]
      dsimp only
      rw [Memory.read_write_other _ _ _ _ (by omega)]

theorem schedule_spot (hIntake : w.intake = [⟨n, .spot node p, .waiting, l, k⟩]) (hFreed : Freed w l) (hSound : injectorsEligible w)
    (hMode : w.mode = .idle ∨ w.mode = .run) (hPending : w.parkedPending = false) (hReady : w.plans[p].ready = true) :
    SpotServed w n l w.schedule := by
  obtain ⟨g, hGroup, hSeries, hSettle⟩ := hFreed
  have hSole := sole_of hIntake
  have hOrders : ∀ x ∈ w.schedule.intake, ∃ y ∈ w.intake, y.slot = x.slot ∧ y.job = x.job :=
    (Acts.schedule (S := fun _ => True) fun _ _ => trivial).left.orders
  have hUnchecked := unchecked_spot hIntake hOrders
  by_cases hTimer : g.settle = none
  · have hChecks : checkInProgress w l = false := checkInProgress_spots (fun x hx d hNot => absurd (by
      rw [hIntake] at hx
      rw [List.mem_singleton.mp hx]) hNot) l
    have hGrant := grantable_spot (node := node) (p := p) hSole.front rfl hGroup hSeries hTimer hChecks hPending
      (by rcases hMode with h | h <;> rw [h] <;> decide) fun e => by
        rcases hMode with h | h <;> exact nomatch h.symm.trans e
    have hEnd := hSole.schedule_grants hGrant
    obtain ⟨x, hx, hNone, hModeX, hStandsX, hAbandons, hLostX⟩ := grant_spotOutcome hIntake hGroup hMode hReady
    obtain ⟨hFrame, hStandsT⟩ := scheduleAll_rest hNone hModeX l
    rw [hx] at hEnd
    rw [← hEnd] at hFrame hStandsT
    have hStands := hStandsX.trans hStandsT
    have hLost := spotServed_of hGroup hStands hUnchecked
    have hStance := hStands.stance
    clear hOrders hUnchecked hEnd
    generalize w.schedule = t at hFrame hStands hLost hStance hStandsT ⊢
    have hSame : t.intake = x.intake ∧ t.slots = x.slots ∧ t.mem = x.mem := by
      generalize t.groups = groups, t.seqs = seqs, t.safety = safety at hFrame
      rw [hFrame]
      exact ⟨rfl, rfl, rfl⟩
    refine ⟨by rw [hSame.2.2]; exact hAbandons, fun hNot => absurd ?_ hNot, fun hNoChannel => ?_⟩
    · rw [hGroup] at hStance
      obtain ⟨g', hg', hSameStance⟩ := Option.map_eq_some_iff.mp hStance
      have hTimerT : g'.settle = g.settle := congrArg (fun x => x.2.2.1) hSameStance
      rw [hg']
      exact hTimerT.trans hTimer
    · rw [hSame.1, hSame.2.1, hSame.2.2]
      exact hLostX (hLost hNoChannel)
  · have hStuck : Stuck w ⟨n, .spot node p, .waiting, l, k⟩ := ⟨hSole, fun g' hg => by
      obtain rfl := Option.some.inj (hGroup.symm.trans hg)
      exact ⟨by rw [hSeries]; decide, .inr hTimer⟩⟩
    have hEnd : Stands l w w.schedule ∧ w.schedule = { w with
        groups := w.schedule.groups, seqs := w.schedule.seqs, safety := w.schedule.safety } := by
      rcases hMode with hIdle | hRun
      · have hFrame := detachIdle_frame w
        rw [hStuck.schedule_idle hIdle]
        refine ⟨Stands.detachIdle l w, ?_⟩
        have hGroups : w.detachIdle.groups = w.groups := (congrArg State.groups hFrame :)
        rw [hGroups]
        exact hFrame
      · rw [hStuck.schedule_run hRun]
        exact ⟨(Stands.startAll l (by rw [hRun]; decide)).trans (Stands.detachIdle l _), startAll_frame rfl⟩
    obtain ⟨hStands, hFrame⟩ := hEnd
    have hLost := spotServed_of hGroup hStands hUnchecked
    clear hOrders hUnchecked
    generalize w.schedule = t at hFrame hLost hStands ⊢
    have hSame : t.intake = w.intake ∧ t.slots = w.slots ∧ t.mem = w.mem := by
      generalize t.groups = groups, t.seqs = seqs, t.safety = safety at hFrame
      rw [hFrame]
      exact ⟨rfl, rfl, rfl⟩
    refine ⟨by rw [hSame.2.2], fun _ => hSame, fun hNone => ?_⟩
    obtain ⟨-, hLowest, -⟩ := hLost hNone
    cases hInject : g.injector with
    | none => exact absurd (hSettle hInject) hTimer
    | some c =>
      have hMay := (eligible_iff hGroup c).mpr (hSound l c ((injectorOf_some hGroup).trans hInject))
      exact absurd hMay (List.find?_eq_none.mp hLowest c (mem_allChans c))

end

end Sys2Proof.Machine
end

section
/-! PROOFS. A disconnect line's change, settled. -/

namespace Sys2Proof.Machine

/-! ### A run on a channel that no longer injects -/

theorem evaluateGroup_drops {s : State} {l : GroupId} {g : Group} {c : Chan} (hGroup : s.groups[l] = some g) (hInject : g.injector = some c)
    (hActive : ownActive g.series) (hLost : eligible s g c = false) (formed : Bool) : ¬ measures (s.evaluateGroup formed l) c := by
  have hOwn : ¬ measures (s.abandonOwn l) c := by
    rw [abandonOwn_active hGroup hActive hInject]
    unfold measures
    dsimp only
    rw [upd_same]
    unfold stoppedSeq
    split_ifs with hRun
    · exact runOver_run s.seqs[c]
    · exact hRun
  have hGone : ¬ measures (s.abandonGroup l) c := by
    unfold State.abandonGroup
    dsimp only
    split
    · exact fun h => hOwn (((Unstarted.stopInjector c _ l).trans (Unstarted.spotAbandoned c _ _)) h)
    · exact hOwn
  have hChanged : chooseInjector s l g ≠ some c := by
    unfold chooseInjector
    rw [hInject]
    dsimp only
    rw [hLost, if_neg Bool.false_ne_true]
    split_ifs
    · exact fun e => nomatch e
    · intro hLowest
      have hFound := List.find?_some (p := fun c => eligible s g c) hLowest
      rw [hLost] at hFound
      exact nomatch hFound
  have hAfter (t : State) (changed : Bool) : Unstarted c t (t.settleAfter l formed changed) := by
    unfold State.settleAfter
    split
    · exact Unstarted.refl c t
    · split_ifs
      · exact Unstarted.modGroup c t l _
      · exact (Unstarted.abandonOwn c t l).trans (Unstarted.startSettle c _ l)
      · exact Unstarted.startSettle c t l
      · exact Unstarted.refl c t
  unfold State.evaluateGroup
  rw [hGroup]
  dsimp only
  rw [hInject, decide_eq_true hChanged, Option.isSome_some, Bool.and_self, if_pos rfl]
  exact fun h => hGone (Unstarted.modGroup c _ l _ (hAfter _ _ h))

theorem regroupCore_drops {s : State} (hTable : tableAgrees s) (hIntake : s.intake = []) {l : GroupId} {g : Group} {c : Chan}
    (hGroup : s.groups[l] = some g) (hInject : g.injector = some c) (hActive : ownActive g.series)
    (hLost : s.safety[c].disconnected = true) : ¬ measures (s.regroupCore false) c := by
  have hSeqs := (regroupCore_table hIntake false).1
  have hSame : measures (s.regroupCore false) c ↔ measures (s.regroupTable false) c := by
    unfold measures
    rw [hSeqs]
  rw [hSame]
  unfold State.regroupTable
  rw [formGroups_agreeing hTable]
  obtain ⟨formed, hFormed⟩ : ∃ formed : GroupId → Bool, formed = fun m => !keepsGroup false (partition s.links) s.groups m := ⟨_, rfl⟩
  obtain ⟨pre, post, -, hPre, -, hSplit⟩ := forEach_split (fun (m : GroupId) (t : State) => t.evaluateGroup (formed m) m)
    allNodes_nodup (mem_allNodes l) s
  have hBefore : Halts s (forEach pre (fun (m : GroupId) (t : State) => t.evaluateGroup (formed m) m) s)
      ∧ (forEach pre (fun (m : GroupId) (t : State) => t.evaluateGroup (formed m) m) s).groups[l] = some g :=
    forEach_keeps (P := fun t => Halts s t ∧ t.groups[l] = some g) _ pre s ⟨Halts.refl s, hGroup⟩ fun m hm t ht => by
      have hNone := runningSpot_empty (ht.1.intake hIntake) m
      exact ⟨ht.1.trans (Halts.evaluated hNone _), (evaluated_others hNone _ fun e : l = m => hPre (e ▸ hm)).trans ht.2⟩
  have hPass : forEach allNodes (fun m t => t.evaluateGroup (!keepsGroup false (partition s.links) s.groups m) m) s =
      forEach post (fun (m : GroupId) (t : State) => t.evaluateGroup (formed m) m)
        ((forEach pre (fun (m : GroupId) (t : State) => t.evaluateGroup (formed m) m) s).evaluateGroup (formed l) l) := by
    rw [← hSplit, hFormed]
  rw [hPass]
  generalize forEach pre (fun (m : GroupId) (t : State) => t.evaluateGroup (formed m) m) s = t at hBefore
  obtain ⟨hHalts, hGroupT⟩ := hBefore
  have hLostT : eligible t g c = false := by
    unfold eligible serviceable
    rw [hHalts.disconnected c, hLost]
    simp
  have hHere := evaluateGroup_drops hGroupT hInject hActive hLostT (formed l)
  have hDetach (u : State) : Unstarted c u u.detachOthers := Unstarted.forEach _ _ _ fun d _ v => by
    split_ifs
    · exact Unstarted.detach c v d
    · exact Unstarted.refl c v
  exact fun h => hHere (Unstarted.forEach post _ _ (fun m _ u => Unstarted.evaluateGroup c u (formed m) m) (hDetach _ h))

/-- What follows a regroup's choices starts no measurement on a channel that is held or disconnected. -/
theorem Unstarted.afterCore {c : Chan} {s : State} (hs : intakeSound s) (h : s.seqs[c].ctx = .held ∨ s.safety[c].disconnected = true)
    (running : Nat) (fresh : Bool) : Unstarted c (s.regroupCore fresh) (s.regroupFrom running fresh) := by
  have hBarred : Barred c (s.regroupCore fresh) :=
    ⟨regroupCore_sound s fresh hs, barrier_measuring (Measuring.regroupCore s fresh) h⟩
  unfold State.regroupFrom
  dsimp only
  generalize s.regroupCore fresh = t at hBarred ⊢
  split_ifs
  · exact (Unstarted.recount c t).trans (Unstarted.schedule (hBarred.working (Working.recount t)))
  · exact Unstarted.schedule hBarred

/-! ### What a re-evaluation and its regroup make of every channel -/

/-- What the host finds of the channels after a re-evaluation and the regroup that follows. -/
structure Reached (s : State) (begins ends : Chan → Prop) (t : State) : Prop where
  begun : ∀ c, begins c → t.safety[c].disconnected = true ∧ t.seqs[c].coupling = .detached
    ∧ (s.seqs[c].coupling = .attached → t.safety[c].verify = some 5) ∧ (s.seqs[c].coupling = .attached → ¬ measures t c)
  ended : ∀ c, ends c → t.safety[c].disconnected = false
  other : ∀ c, ¬ begins c → ¬ ends c → t.safety[c].disconnected = s.safety[c].disconnected
  health : ∀ c : Chan, t.safety[c].health = s.safety[c].health
  news : ∀ c : Chan, has8 t.news.chanSafety c.val = true ↔ has8 s.news.chanSafety c.val = true ∨ begins c ∨ ends c
  level6 : has8 t.attn.pending 6 = true ↔ has8 s.attn.pending 6 = true ∨ ∃ c, begins c ∨ ends c

theorem Reevaluated.reached {s v w : State} {begins ends : Chan → Prop} (h : Reevaluated s begins ends v)
    (hSame : w.seqs = v.seqs ∧ w.safety = v.safety ∧ w.news = v.news ∧ w.attn = v.attn) (hs : intakeSound w) (running : Nat) :
    Reached s begins ends (w.regroupFrom running false) := by
  obtain ⟨hSeqs, hSafety, hNews, hAttn⟩ := hSame
  have hLeft : Left (fun _ => True) w (w.regroupFrom running false) := (Acts.regroupFrom (fun _ _ => trivial) running false).left
  have hBarred (c : Chan) (hc : begins c) := regroupFrom_barred (c := c) hs (.inr (by rw [hSafety]; exact (h.begun c hc).disconnected)) running false
  have hUnstarted (c : Chan) (hc : begins c) : Unstarted c w (w.regroupFrom running false) :=
    Unstarted.regroupFrom hs (.inr (by rw [hSafety]; exact (h.begun c hc).disconnected)) running false
  generalize w.regroupFrom running false = t at hLeft hBarred hUnstarted
  have hFlag (c : Chan) : t.safety[c].disconnected = v.safety[c].disconnected := by
    rw [(hLeft.chan c).disconnected, hSafety]
  refine ⟨fun c hc => ?_, fun c hc => ?_, fun c hb he => ?_, fun c => ?_, fun c => ?_, ?_⟩
  · obtain ⟨hDisconnected, -, hVerify, hUnmeasured, -⟩ := h.begun c hc
    obtain ⟨-, hDetached, hVerifyT⟩ := hBarred c hc
    refine ⟨(hFlag c).trans hDisconnected, hDetached, fun hAttached => hVerifyT (.inr ?_), fun hAttached hMeasures => ?_⟩
    · rw [hSafety]
      exact hVerify hAttached
    · have hBefore := hUnstarted c hc hMeasures
      unfold measures at hBefore
      rw [hSeqs] at hBefore
      exact hUnmeasured hAttached hBefore
  · exact (hFlag c).trans (h.ended c hc).1
  · rw [hFlag, show v.safety[c] = s.safety[c] from congrArg Prod.snd (h.other c hb he)]
  · rw [(hLeft.chan c).health, hSafety]
    exact (h.stands c).1
  · have hNewsT : t.news.chanSafety = w.news.chanSafety := (congrArg (fun u : State => u.news.chanSafety) hLeft.fixed :)
    rw [hNewsT, hNews]
    exact h.news c
  · have hLevel : has8 t.attn.pending 6 = has8 w.attn.pending 6 := hLeft.level 6 (by decide) (by decide)
    rw [hLevel, hAttn]
    exact h.level6

/-! ### A SPOT whose group loses its injector to a disconnect -/

section Spot
variable {v : State} {n : SlotId} {node : NodeId} {p : PlanId} {l : GroupId} {k : Nat} {g : Group} {c : Chan}

/-- What the host finds of a SPOT once the regroup after its abandonment is over. -/
structure SpotLeft (v : State) (n : SlotId) (node : NodeId) (p : PlanId) (l : GroupId) (k : Nat) (t : State) : Prop where
  abandons : t.mem.read (slotAddr n + 0x14) = byteOf (k + 1)
  refused : 3 ≤ k + 1 → t.intake = [] ∧ spotRefusedTopology v t n
  waits : k + 1 < 3 → (t.groups[l]).bind (·.settle) ≠ none →
    t.intake = [⟨n, .spot node p, .waiting, l, k + 1⟩] ∧ t.slots = v.slots
      ∧ t.mem.read (slotAddr n + 0x12) = 1 ∧ t.mem.read (slotAddr n + 0x13) = byteOf l.val
  lost : k + 1 < 3 → groupState t l = .noChannel →
    t.intake = [] ∧ t.slots[n] = .refused ∧ t.mem.read (slotAddr n + 0x15) = byteOf Reason.noChannel.code

theorem SpotLost.refusedTopology {w : State} (h : SpotLost v n node p l k w) (hLast : 3 ≤ k + 1) :
    w.intake = [] ∧ w.mem.read (slotAddr n + 0x14) = byteOf (k + 1) ∧ spotRefusedTopology v w n := by
  obtain ⟨hIntake, hSlots, ⟨m, kind, hMem, hHost, hAbandons, hKind⟩, hNews, hLevel⟩ := h.refused hLast
  refine ⟨hIntake, ?_, ?_, ?_, ?_, ?_, fun hSpot j hj => ?_, fun j h1 h2 => ?_, hNews, hLevel⟩
  · rw [hMem, completedMemory_kept _ _ _ _ _ (by omega), hAbandons]
  · rw [hSlots]
    exact upd_same _ _ _
  · rw [hMem, completedMemory_state]
    rfl
  · rw [hMem, completedMemory_progress]
  · rw [hMem, completedMemory_reason]
  · rw [hMem, completedMemory_kind _ _ _ _ _ hj, hKind hSpot]
    rfl
  · rw [hMem, completedMemory_kept _ _ _ _ _ (by omega), hHost j h2]

/-- Nothing of an intake list that is empty: the slots, the news of orders and the memory stay. -/
theorem schedule_empty {w : State} (h : w.intake = []) : w.schedule.intake = [] ∧ w.schedule.mem.read = w.mem.read
    ∧ (∀ n : SlotId, w.schedule.slots[n] = w.slots[n]) ∧ (∀ k, has8 w.news.done k = true → has8 w.schedule.news.done k = true)
    ∧ (∀ k, has8 w.attn.pending k = true → has8 w.schedule.attn.pending k = true) := by
  have hLeft : Left (fun _ => False) w w.schedule := (Acts.schedule fun o ho => by
    rw [h] at ho
    exact nomatch ho).left
  refine ⟨List.eq_nil_iff_forall_not_mem.mpr fun o ho => ?_, funext fun a => hLeft.memory a fun _ hNo => hNo.elim,
    fun n => hLeft.slots n id, hLeft.news, hLeft.pending⟩
  obtain ⟨o', ho', -⟩ := hLeft.orders o ho
  rw [h] at ho'
  exact nomatch ho'

theorem regroupFrom_spot (hTable : tableAgrees v) (hs : intakeSound v) (hMode : v.mode = .idle ∨ v.mode = .run)
    (hPending : v.parkedPending = false) (hIntake : v.intake = [⟨n, .spot node p, .running, l, k⟩]) (hLeader : leaderOf v node = l)
    (hGroup : v.groups[l] = some g) (hInject : g.injector = some c) (hLost : v.safety[c].disconnected = true)
    (hReady : v.plans[p].ready = true) (running : Nat) : SpotLeft v n node p l k (v.regroupFrom running false) := by
  have hCore := regroupCore_spot hTable (by rcases hMode with h | h <;> rw [h] <;> decide) hPending hIntake hLeader hGroup hInject hLost
  have m := Measuring.regroupCore v false
  have hSound := (regroupCore_sound v false hs).injectors
  obtain ⟨hModeW, hPendingW⟩ := m.calm hPending
  have hRecount : (v.regroupCore false).recount = v.regroupCore false := by
    unfold State.recount
    rw [if_neg fun h => by
      rw [hPendingW] at h
      exact nomatch h.1]
  have hFrom : v.regroupFrom running false = (v.regroupCore false).schedule := by
    unfold State.regroupFrom
    dsimp only
    rw [hRecount, ite_self]
  have hReadyW : (v.regroupCore false).plans[p].ready = true := by rw [m.plans_eq, hReady]
  rw [hFrom]
  generalize v.regroupCore false = w at hCore hSound hModeW hPendingW hReadyW
  by_cases hLast : 3 ≤ k + 1
  · obtain ⟨hNone, hAbandons, hSlot, hState, hProgress, hReason, hKind, hHost, hNews, hLevel⟩ := hCore.refusedTopology hLast
    obtain ⟨hIntakeT, hMem, hSlots, hDone, hPend⟩ := schedule_empty hNone
    refine ⟨by rw [hMem, hAbandons], fun _ => ⟨hIntakeT, ?_, ?_, ?_, ?_, ?_, ?_, hDone _ hNews, hPend _ hLevel⟩,
      fun h => by omega, fun h => by omega⟩
    · rw [hSlots, hSlot]
    · rw [hMem, hState]
    · rw [hMem, hProgress]
    · rw [hMem, hReason]
    · rw [hMem]
      exact hKind
    · rw [hMem]
      exact hHost
  · obtain ⟨hIntakeW, hSlots, hProgress, hPlace, hAbandons⟩ := hCore.waits (by omega)
    have hServed := schedule_spot hIntakeW hCore.freed hSound (by rw [hModeW]; exact hMode) hPendingW hReadyW
    refine ⟨hServed.abandons.trans hAbandons, fun h => absurd h hLast, fun _ hSettle => ?_, fun _ => hServed.lost⟩
    obtain ⟨hIntakeT, hSlotsT, hMemT⟩ := hServed.waits hSettle
    exact ⟨hIntakeT.trans hIntakeW, hSlotsT.trans hSlots, by rw [hMemT, hProgress], by rw [hMemT, hPlace]⟩

end Spot

/-! ### The line's change -/

section Line
variable {s u v t : State} {line : Fin 3} {begins ends : Chan → Prop}

/-- The channels whose disconnect begins and ends, in the words of the re-evaluation. -/
theorem begins_enabled {c : Chan} (hFrame : u = { s with lines := u.lines }) : (c ∈ enables u line ∧ disconnectBegins u c = true) ↔
    s.safety[c].discMask.getLsbD line.val = true ∧ s.safety[c].disconnected = false
      ∧ ∃ i, i < 3 ∧ s.safety[c].discMask.getLsbD i = true ∧ u.lines.getLsbD i = true := by
  have hSafety : u.safety = s.safety := by rw [hFrame]
  unfold enables disconnectBegins
  rw [List.mem_filter, Bool.and_eq_true, Bool.not_eq_true', lineAsserted_iff, hSafety]
  exact ⟨fun ⟨⟨_, h1⟩, h2, h3⟩ => ⟨h1, h2, h3⟩, fun ⟨h1, h2, h3⟩ => ⟨⟨mem_allChans c, h1⟩, h2, h3⟩⟩

theorem lineAsserted_eq_false (s : State) (c : Chan) : lineAsserted s c = false ↔
    ∀ i, i < 3 → s.safety[c].discMask.getLsbD i = true → s.lines.getLsbD i = false := by
  rw [← Bool.not_eq_true, lineAsserted_iff]
  push Not
  exact forall_congr' fun i => forall_congr' fun _ => forall_congr' fun _ => by rw [ne_eq, Bool.not_eq_true]

theorem ends_enabled {c : Chan} (hFrame : u = { s with lines := u.lines }) : (c ∈ enables u line ∧ disconnectEnds u c = true) ↔
    s.safety[c].discMask.getLsbD line.val = true ∧ s.safety[c].disconnected = true
      ∧ s.safety[c].discMode = .follow ∧ ∀ i, i < 3 → s.safety[c].discMask.getLsbD i = true → u.lines.getLsbD i = false := by
  have hSafety : u.safety = s.safety := by rw [hFrame]
  unfold enables disconnectEnds
  rw [List.mem_filter, Bool.and_eq_true, Bool.and_eq_true, Bool.not_eq_true', decide_eq_true_eq, lineAsserted_eq_false, hSafety]
  exact ⟨fun ⟨⟨_, h1⟩, ⟨h2, h3⟩, h4⟩ => ⟨h1, h2, h3, h4⟩, fun ⟨h1, h2, h3, h4⟩ => ⟨⟨mem_allChans c, h1⟩, ⟨h2, h3⟩, h4⟩⟩

theorem disconnectChange_iff (s : State) (chans : List Chan) : disconnectChange s chans = true ↔
    ∃ c, (c ∈ chans ∧ disconnectBegins s c = true) ∨ (c ∈ chans ∧ disconnectEnds s c = true) := by
  unfold disconnectChange
  rw [List.any_eq_true]
  refine exists_congr fun c => ?_
  rw [Bool.or_eq_true, and_or_left]

theorem group_of_injector {l : GroupId} {c : Chan} (h : injectorOf s l = some c) : ∃ g, s.groups[l] = some g ∧ g.injector = some c := by
  unfold injectorOf at h
  split at h
  · next g hGroup => exact ⟨g, hGroup, h⟩
  · exact nomatch h

/-- A channel that is disconnected, without a run, and without an order: the regroup gives it none. -/
theorem regroupFrom_unchecked {c : Chan} (hs : intakeSound v) (hNone : v.intake = []) (hDisconnected : v.safety[c].disconnected = true)
    (hReference : v.safety[c].reference = false) (hRun : v.seqs[c].run = .none) (running : Nat) :
    (v.regroupFrom running false).seqs[c].run = .none ∧ (v.regroupFrom running false).safety[c].reference = false := by
  have hUnstarted : Unstarted c v (v.regroupFrom running false) := Unstarted.regroupFrom hs (.inr hDisconnected) running false
  obtain ⟨-, hUncheck⟩ := Uncheckable.regroupFrom c v running false hNone
  have m := (Working.regroupFrom v running false).measuring
  generalize v.regroupFrom running false = t at hUnstarted hUncheck m
  have hNotCheck : t.seqs[c].run ≠ .selfcheck := fun h => by
    rw [hUncheck h] at hRun
    exact nomatch hRun
  have hNotMeasures : ¬ measures t c := fun h => by
    have hBefore := hUnstarted h
    unfold measures at hBefore
    rw [hRun] at hBefore
    rcases hBefore with e | e <;> exact nomatch e
  constructor
  · unfold measures at hNotMeasures
    generalize t.seqs[c].run = run at hNotCheck hNotMeasures
    cases run with
    | none => rfl
    | series => exact absurd (.inl rfl) hNotMeasures
    | triple => exact absurd (.inr rfl) hNotMeasures
    | selfcheck => exact absurd rfl hNotCheck
  · rw [Bool.eq_false_iff]
    exact fun h => hNotCheck (((m.chan c).apart fun hRef => by
      rw [hReference] at hRef
      exact nomatch hRef) h).2

theorem reevaluated_unmeasured {chans : List Chan} {c : Chan} {l : GroupId} (hTable : tableAgrees u) (hIntake : u.intake = [])
    (hs : intakeSound (u.reevaluate chans)) (hLost : (u.reevaluate chans).safety[c].disconnected = true)
    (hInject : injectorOf u l = some c) (hSeries : seriesOf u l = .series) (running : Nat) :
    ¬ measures ((u.reevaluate chans).regroupFrom running false) c := by
  have hFrame := reevaluate_quiet (s := u) (fun o ho => by
    rw [hIntake] at ho
    exact nomatch ho) chans
  generalize u.reevaluate chans = v at hFrame hs hLost
  obtain ⟨g, hGroup, hInjector⟩ := group_of_injector hInject
  have hGroupsV : v.groups = u.groups := (congrArg State.groups hFrame :)
  have hLinksV : v.links = u.links := (congrArg State.links hFrame :)
  have hIntakeV : v.intake = u.intake := (congrArg State.intake hFrame :)
  have hTableV : tableAgrees v := by
    unfold tableAgrees
    rw [hGroupsV, hLinksV]
    exact hTable
  have hActive : ownActive g.series := .inl ((seriesOf_some hGroup).symm.trans hSeries)
  have hCore := regroupCore_drops hTableV (hIntakeV.trans hIntake) (by rw [hGroupsV]; exact hGroup) hInjector hActive hLost
  exact fun h => hCore (Unstarted.afterCore hs (.inr hLost) running false h)

/-- A SPOT that runs on a channel whose disconnect the re-evaluation begins. -/
theorem reevaluated_spot {chans : List Chan} {c : Chan} {n : SlotId} {node : NodeId} {p : PlanId} {l : GroupId} {k : Nat}
    (hTable : tableAgrees u) (hs : intakeSound (u.reevaluate chans)) (hLost : (u.reevaluate chans).safety[c].disconnected = true)
    (hMode : u.mode = .idle ∨ u.mode = .run) (hPending : u.parkedPending = false) (hInject : injectorOf u l = some c)
    (hLeader : leaderOf u node = l) (hIntake : u.intake = [⟨n, .spot node p, .running, l, k⟩]) (hReady : u.plans[p].ready = true)
    (running : Nat) : SpotLeft u n node p l k ((u.reevaluate chans).regroupFrom running false) := by
  have hFrame := reevaluate_quiet (s := u) (fun o ho d hJob => by
    rw [hIntake, List.mem_singleton] at ho
    rw [ho] at hJob
    exact nomatch hJob) chans
  generalize u.reevaluate chans = v at hFrame hs hLost
  obtain ⟨g, hGroup, hInjector⟩ := group_of_injector hInject
  have hGroupsV : v.groups = u.groups := (congrArg State.groups hFrame :)
  have hLinksV : v.links = u.links := (congrArg State.links hFrame :)
  have hMem : v.mem = u.mem := (congrArg State.mem hFrame :)
  have hSlots : v.slots = u.slots := (congrArg State.slots hFrame :)
  have hTableV : tableAgrees v := by
    unfold tableAgrees
    rw [hGroupsV, hLinksV]
    exact hTable
  have hLeaderV : leaderOf v node = l := by
    rw [← hLeader]
    unfold leaderOf
    rw [hGroupsV]
  have hModeV : v.mode = u.mode := (congrArg State.mode hFrame :)
  have hPendingV : v.parkedPending = u.parkedPending := (congrArg State.parkedPending hFrame :)
  have hIntakeV : v.intake = u.intake := (congrArg State.intake hFrame :)
  have hPlansV : v.plans = u.plans := (congrArg State.plans hFrame :)
  have hSpot := regroupFrom_spot hTableV hs (by rw [hModeV]; exact hMode) (hPendingV.trans hPending) (hIntakeV.trans hIntake) hLeaderV
    (by rw [hGroupsV]; exact hGroup) hInjector hLost (by rw [hPlansV]; exact hReady) running
  refine ⟨hSpot.abandons, fun hLast => ?_, fun hMore hSettle => ?_, hSpot.lost⟩
  · obtain ⟨hNone, hRefused⟩ := hSpot.refused hLast
    unfold spotRefusedTopology at hRefused ⊢
    rw [hMem] at hRefused
    exact ⟨hNone, hRefused⟩
  · rw [← hSlots]
    exact hSpot.waits hMore hSettle

/-- A check that runs on a channel whose disconnect the re-evaluation begins. -/
theorem reevaluated_check {chans : List Chan} (hNodup : chans.Nodup) {c : Chan} {n : SlotId} {l : GroupId} {k : Nat}
    (hs : intakeSound (u.reevaluate chans)) (hLost : (u.reevaluate chans).safety[c].disconnected = true) (hMem : c ∈ chans)
    (hBegins : disconnectBegins u c = true) (hIntake : u.intake = [⟨n, .selfcheck c, .running, l, k⟩]) (running : Nat)
    (t : State) (ht : t = (u.reevaluate chans).regroupFrom running false) : t.intake = [] ∧ t.slots[n] = .done ∧ t.mem.read (slotAddr n) = 3
      ∧ (u.seqs[c].run = .selfcheck → t.seqs[c].run = .none ∧ t.safety[c].reference = false)
      ∧ ∀ j, j < 40 → t.mem.read (slotAddr n + 0x18 + j) =
          [3, 0, 0, 0, byteOf u.safety[c].health.code, byteOf u.safety[c].health.code].getD j 0 := by
  obtain ⟨hNone, hSlots, hMemory, hRun⟩ := reevaluate_aborts hNodup hIntake hMem hBegins
  generalize u.reevaluate chans = v at hs hLost hNone hSlots hMemory hRun ht
  have hLeft : Left (fun _ => False) v t := ht ▸ (Acts.regroupFrom (fun o ho => by
    rw [hNone] at ho
    exact nomatch ho) running false).left
  have hBytes (a : Nat) : t.mem.read a = v.mem.read a := hLeft.memory a fun _ hNo => hNo.elim
  refine ⟨?_, ?_, ?_, fun hCheck => ?_, fun j hj => ?_⟩
  · rw [ht]
    exact (Uncheckable.regroupFrom c v running false hNone).1
  · rw [hLeft.slots n id, hSlots]
    exact upd_same _ _ _
  · rw [hBytes, hMemory, completedMemory_state]
    rfl
  · obtain ⟨hOver, hReference⟩ := hRun hCheck
    rw [ht]
    exact regroupFrom_unchecked hs hNone hLost hReference hOver running
  · rw [hBytes, hMemory, completedMemory_kind _ _ _ _ _ hj]
    rfl

end Line

/-- Settles O57: what a re-evaluation and its regroup make of every channel, of a check that runs and of a SPOT that runs. -/
theorem disconnectLineReachesChannels : Obligations.DisconnectLineReachesChannels := by
  unfold Obligations.DisconnectLineReachesChannels
  intro s u line asserted begins ends hBeginsIff hEndsIff hFrame hLines
  refine ⟨fun h => ?_, fun hStarting hChange hs => ?_⟩
  · show Host.Outcome.next (s.lineChange line asserted) = _
    unfold State.lineChange
    rw [if_pos h]
  have hBegins (c : Chan) : begins c ↔ c ∈ enables u line ∧ disconnectBegins u c = true :=
    (hBeginsIff c).trans (begins_enabled hFrame).symm
  have hEnds (c : Chan) : ends c ↔ c ∈ enables u line ∧ disconnectEnds u c = true := (hEndsIff c).trans (ends_enabled hFrame).symm
  have hSome : disconnectChange u (enables u line) = true ↔ ∃ c, begins c ∨ ends c :=
    (disconnectChange_iff u _).trans (exists_congr fun c => by rw [hBegins, hEnds])
  have hsU : intakeSound u := by
    rw [hFrame]
    exact hs
  have hRe := reevaluate_spec hsU (chans := enables u line) (allChans_nodup.filter _) hBegins hEnds
  have hExec := exec_lineChange hFrame hLines hStarting hChange
  have hsV : intakeSound (u.reevaluate (enables u line)) := hRe.table.2.2
  by_cases hAny : ∃ c, begins c ∨ ends c
  case neg =>
    have hStill : disconnectChange u (enables u line) = false := by
      rw [Bool.eq_false_iff]
      exact fun h => hAny (hSome.mp h)
    have hNo (c : Chan) : ¬ begins c ∧ ¬ ends c := ⟨fun h => hAny ⟨c, .inl h⟩, fun h => hAny ⟨c, .inr h⟩⟩
    rw [hStill, if_neg Bool.false_ne_true, reevaluate_idle u _ hStill] at hExec
    have hSafety : u.safety = s.safety := by rw [hFrame]
    have hNews : u.news = s.news := by rw [hFrame]
    have hAttn : u.attn = s.attn := by rw [hFrame]
    refine ⟨u, hExec, rfl, fun _ => rfl, fun c => ?_, ?_, fun h => absurd h hAny, fun c _ _ _ h => absurd h (hNo c).1,
      fun c _ _ _ _ _ h => absurd h (hNo c).1⟩
    · obtain ⟨hb, he⟩ := hNo c
      rw [hSafety, hNews]
      exact ⟨fun h => absurd h hb, fun h => absurd h he, fun _ _ => rfl, rfl, fun h => .inl h, fun h => h.elim id fun h => (h.elim hb he).elim⟩
    · rw [hAttn]
      exact ⟨fun h => .inl h, fun h => h.elim id fun h => absurd h hAny⟩
  case pos =>
    have hSafety : u.safety = s.safety := by rw [hFrame]
    have hSeqs : u.seqs = s.seqs := by rw [hFrame]
    have hNews : u.news = s.news := by rw [hFrame]
    have hAttn : u.attn = s.attn := by rw [hFrame]
    have hGroups : u.groups = s.groups := by rw [hFrame]
    have hLinks : u.links = s.links := by rw [hFrame]
    have hIntake : u.intake = s.intake := by rw [hFrame]
    have hMem : u.mem = s.mem := by rw [hFrame]
    have hSlots : u.slots = s.slots := by rw [hFrame]
    have hMode : u.mode = s.mode := by rw [hFrame]
    have hPending : u.parkedPending = s.parkedPending := by rw [hFrame]
    have hPlans : u.plans = s.plans := by rw [hFrame]
    rw [if_pos (hSome.mpr hAny)] at hExec
    have hReached := hRe.reached ⟨rfl, rfl, rfl, rfl⟩ hsV (runningCount s)
    have hSound := regroupFrom_sound _ (runningCount s) false hsV
    have hTable (hSafe : Safe s) : tableAgrees u := by
      have hs' := hSafe.sound.table
      unfold tableAgrees
      rw [hGroups, hLinks]
      exact hs'
    have hInjector (l : GroupId) : injectorOf u l = injectorOf s l := by
      unfold injectorOf
      rw [hGroups]
    have hSeries (l : GroupId) : seriesOf u l = seriesOf s l := by
      unfold seriesOf
      rw [hGroups]
    have hLeader (node : NodeId) : leaderOf u node = leaderOf s node := by
      unfold leaderOf
      rw [hGroups]
    refine ⟨_, hExec, ?_, fun h => ?_, fun c => ⟨fun hb => ?_, hReached.ended c, fun hb he => ?_, ?_, ?_⟩, ?_, fun _ =>
      ⟨hSound.table, hSound.injectors, hSound.attached⟩, fun c n l k hb hOrder => ?_, fun c n node p l k hb hSafe hM hP hInj hLead hOrder hReady => ?_⟩
    · have hLinesV : (u.reevaluate (enables u line)).lines = u.lines := (congrArg State.lines hRe.fixed :)
      exact ((Working.regroupFrom _ (runningCount s) false).measuring.lines_eq).trans hLinesV
    · obtain ⟨c, hc⟩ := hAny
      exact (hc.elim (h c).1 (h c).2).elim
    · obtain ⟨hLost, hDetached, hVerify, hUnmeasured⟩ := hReached.begun c hb
      rw [hSeqs] at hVerify hUnmeasured
      refine ⟨hLost, hDetached, hVerify, fun hRun => not_or.mp ?_⟩
      rcases hRun with hAttached | ⟨hNone, hSafe, l, hInj, hSer⟩
      · exact hUnmeasured hAttached
      · exact reevaluated_unmeasured (hTable hSafe) (hIntake.trans hNone) hsV (hRe.begun c hb).disconnected ((hInjector l).trans hInj)
          ((hSeries l).trans hSer) _
    · rw [hReached.other c hb he, hSafety]
    · rw [hReached.health c, hSafety]
    · rw [← hNews]
      exact hReached.news c
    · rw [← hAttn]
      exact hReached.level6
    · obtain ⟨hMemC, hBeginsC⟩ := (hBegins c).mp hb
      rw [← hSeqs, ← hSafety]
      exact reevaluated_check (allChans_nodup.filter _) hsV (hRe.begun c hb).disconnected hMemC hBeginsC (hIntake.trans hOrder) _ _ rfl
    · have hSpot := reevaluated_spot (hTable hSafe) hsV (hRe.begun c hb).disconnected (by rw [hMode]; exact hM) (hPending.trans hP)
        ((hInjector l).trans hInj) ((hLeader node).trans hLead) (hIntake.trans hOrder) (by rw [hPlans]; exact hReady) (runningCount s)
      refine ⟨hSpot.abandons, fun hLast => ?_, fun hMore hSettle => ?_, hSpot.lost⟩
      · obtain ⟨hNone, hRefused⟩ := hSpot.refused hLast
        unfold spotRefusedTopology at hRefused ⊢
        rw [hMem] at hRefused
        exact ⟨hNone, hRefused⟩
      · obtain ⟨hWaits, hSlotsT, hBytes⟩ := hSpot.waits hMore hSettle
        refine ⟨hWaits, ?_, hBytes⟩
        rw [hSlotsT, hSlots]
        exact hs.2 _ (by rw [hOrder]; exact List.mem_singleton_self _)

end Sys2Proof.Machine
end

section
/-! PROOFS. RESTORE: the context set from a frame, and what it leaves of every slot, record and byte. -/

namespace Sys2Proof.Machine

/-! ### The frame's record -/

theorem frameRecord_congr {m m' : Memory} {c : Chan} (h : ∀ k, k < 64 → m'.read (frameAddr c + k) = m.read (frameAddr c + k)) :
    frameRecord m' c = frameRecord m c := by
  have h16 (k : Nat) (hk : k + 1 < 64) : m'.read16 (frameAddr c + k) = m.read16 (frameAddr c + k) :=
    read16_congr (h k (by omega)) (h (k + 1) hk)
  have h32 (k : Nat) (hk : k + 3 < 64) : m'.read32 (frameAddr c + k) = m.read32 (frameAddr c + k) :=
    read32_congr fun j hj => by rw [Nat.add_assoc, h (k + j) (by omega)]
  unfold frameRecord Memory.readInt16 Memory.readInt32
  dsimp only
  rw [h 4 (by decide), h 2 (by decide), h16 0x08 (by decide), h16 0x0A (by decide), h16 0x0C (by decide), h16 0x0E (by decide),
    h32 0x10 (by decide), h32 0x14 (by decide)]

theorem frameRecord_gives (m : Memory) (c : Chan) : frameGives m c (frameRecord m c) :=
  ⟨rfl, rfl, rfl, rfl, rfl, rfl, rfl, rfl, rfl⟩

theorem frameRecord_takenIn {i : Instr} {o : Offer} (hOffer : offerOf i = some o) (s : State) (c : Chan) :
    frameRecord (s.takenIn o).mem c = frameRecord s.mem c :=
  frameRecord_congr fun k _ => takenIn_outside hOffer s (by
    have := slotAddr_bounds o.slot
    unfold frameAddr
    omega)

/-! ### The steps of a RESTORE -/

/-- The part once the run is abandoned and the context is set, before anything starts again. -/
def State.restoredTo (u : State) (c : Chan) (kind : CtxKind) : State :=
  (u.restoreAbandon c).setSeq c ((u.restoreAbandon c).seqs[c].restored kind (frameRecord u.mem c))

/-- What follows the context's change. -/
def State.restoreRest (u : State) (running : Nat) (held : Bool) : State :=
  if held then u.regroupFrom running false else (if runningCount u < running then u.recount else u).schedule

theorem doRestore_eq (u : State) (c : Chan) (kind : CtxKind) : u.doRestore c kind =
    (u.restoredTo c kind).restoreRest (runningCount u) (decide (u.seqs[c].ctx = .held) != decide (kind = .held)) := by
  unfold State.restoreRest
  by_cases h : decide (u.seqs[c].ctx = .held) = decide (kind = .held)
  · rw [bne_eq_false_iff_eq.mpr h, if_neg Bool.false_ne_true]
    exact if_pos h
  · rw [bne_iff_ne.mpr h, if_pos rfl]
    exact if_neg h

section
variable {S : SlotId → Prop}

theorem Acts.restoreAbandon {s : State} (hs : Covers S s) (c : Chan) : Acts S s (s.restoreAbandon c) := by
  unfold State.restoreAbandon
  dsimp only
  split_ifs
  · split
    · exact (Acts.abandonGroup hs _).trans (Acts.stopChannel _ c)
    · exact Acts.stopChannel s c
  · exact Acts.refl s

theorem Acts.restoreRest {s : State} (hs : Covers S s) (running : Nat) (held : Bool) : Acts S s (s.restoreRest running held) := by
  unfold State.restoreRest
  split_ifs
  · exact Acts.regroupFrom hs running false
  · exact (Acts.recount hs).andThen hs fun ht => Acts.schedule ht
  · exact Acts.schedule hs

/-- A RESTORE acts, but for the one context it sets. -/
theorem doRestore_acts {u : State} (hs : Covers S u) (c : Chan) (kind : CtxKind) :
    Acts S u (u.restoreAbandon c) ∧ Acts S (u.restoredTo c kind) (u.doRestore c kind) := by
  have hAbandon := Acts.restoreAbandon hs c
  refine ⟨hAbandon, ?_⟩
  rw [doRestore_eq]
  exact Acts.restoreRest (s := u.restoredTo c kind) (hAbandon.covers hs) _ _

end

theorem restored_record (q : Seq) (kind : CtxKind) (r : CtxRecord) :
    (q.restored kind r).record = if kind = .none then CtxRecord.zero else r := by
  cases kind <;> rfl

/-! ### What every RESTORE leaves -/

/-- What a RESTORE of a kind makes of the part, whatever ran. -/
structure Restores (u : State) (c : Chan) (kind : CtxKind) (t : State) : Prop where
  ctx : t.seqs[c].ctx = kind ∨ kind = .none ∧ t.seqs[c].ctx = .idle
  record : t.seqs[c].record = if kind = .none then CtxRecord.zero else frameRecord u.mem c
  others : ∀ d : Chan, d ≠ c → t.seqs[d].record = u.seqs[d].record
  fixed : t.fixed = u.fixed

theorem doRestore_restores (u : State) (c : Chan) (kind : CtxKind) : Restores u c kind (u.doRestore c kind) := by
  obtain ⟨hAbandon, hRest⟩ := doRestore_acts (S := fun _ => True) (u := u) (fun _ _ => trivial) c kind
  obtain ⟨a, r⟩ := And.intro hAbandon.left hRest.left
  have hSeq : (u.restoredTo c kind).seqs[c] = (u.restoreAbandon c).seqs[c].restored kind (frameRecord u.mem c) := upd_same _ _ _
  have hOther (d : Chan) (hd : d ≠ c) : (u.restoredTo c kind).seqs[d] = (u.restoreAbandon c).seqs[d] := upd_other _ _ _ _ (Ne.symm hd)
  have hChan := r.chan c
  rw [hSeq] at hChan
  refine ⟨?_, ?_, fun d hd => ?_, r.fixed.trans a.fixed⟩
  · have hCtx := hChan.ctx
    rw [(restored_frame _ _ _).2.2] at hCtx
    exact hCtx
  · rw [hChan.record, restored_record]
  · rw [(r.chan d).record, hOther d hd, (a.chan d).record]

/-- The bytes of a slot that holds no order of the list, and everything outside the slots. -/
theorem doRestore_memory {u : State} {n : SlotId} (hs : Covers (fun m => m ≠ n) u) (c : Chan) (kind : CtxKind) :
    (∀ k, k < 64 → (u.doRestore c kind).mem.read (slotAddr n + k) = u.mem.read (slotAddr n + k))
      ∧ (∀ a, ¬ inSlots a → (u.doRestore c kind).mem.read a = u.mem.read a)
      ∧ ∀ x ∈ (u.doRestore c kind).intake, x.slot ≠ n := by
  obtain ⟨hAbandon, hRest⟩ := doRestore_acts hs c kind
  refine ⟨fun k hk => ?_, fun a ha => ?_, hRest.covers (hAbandon.covers hs)⟩
  · have hClear (m : SlotId) (hm : m ≠ n) : ¬ slotByteOf m (slotAddr n + k) := fun hByte => by
      have hFar := slotAddr_far hm hk
      unfold slotByteOf at hByte
      omega
    exact (hRest.left.memory _ hClear).trans (hAbandon.left.memory _ hClear)
  · have hClear (m : SlotId) (_ : m ≠ n) : ¬ slotByteOf m a := fun hByte => ha (by
      have := slotAddr_bounds m
      unfold slotByteOf at hByte
      unfold inSlots
      omega)
    exact (hRest.left.memory a hClear).trans (hAbandon.left.memory a hClear)

/-- A safe part whose channel is HELD: the channel is detached and injects nowhere. -/
theorem Safe.held_rests {s : State} (h : Safe s) {c : Chan} (hHeld : s.seqs[c].ctx = .held) :
    s.seqs[c].coupling = .detached ∧ ∀ l : GroupId, injectorOf s l ≠ some c := by
  have hNone (l : GroupId) (hInject : injectorOf s l = some c) : False := by
    obtain ⟨-, -, -, -, hNot, -⟩ := h.sound.injectors l c hInject
    exact hNot hHeld
  refine ⟨?_, hNone⟩
  rcases coupling_cases s.seqs[c] with hAttached | hDetached
  · obtain ⟨l, hInject⟩ := h.sound.attached c hAttached
    exact (hNone l hInject).elim
  · exact hDetached

theorem Safe.takenIn {o : Offer} {s : State} (h : offerable s o) (hSafe : Safe s) :
    Safe (s.takenIn o) := by
  have hOffered : Safe (s.offered o) :=
    Safe.congr (hSafe.pokes (slotAddr o.slot) o.bytes) rfl rfl rfl rfl rfl rfl rfl rfl rfl rfl rfl h.1.2.symm
  exact (hOffered.stampSlot o.slot h.2.1).1

/-- An order that ends with RESTORE's answer, in words of the state it leaves before it completes. -/
theorem exec_restore {n : SlotId} {c : Chan} {kind : CtxKind} {o : Offer} {s : State} (hMode : s.mode ≠ .safeStop)
    (hOffer : offerOf (.restore n (byteOf c.val)) = some o) (h : offerable s o) (hKind : s.mem.read (frameAddr c) = byteOf kind.code)
    (hChan : s.mem.read (frameAddr c + 1) = byteOf c.val) : exec (.restore n (byteOf c.val)) s =
      .next (((s.takenIn o).doRestore c kind).completeSlot o.slot .done 0 [byteOf s.seqs[c].ctx.code, byteOf kind.code]) := by
  have hO : o.kind = .restore ∧ o.target = byteOf c.val := by
    cases hOffer
    exact ⟨rfl, rfl⟩
  have hFrame (k : Nat) (hk : k < 64) : (s.takenIn o).mem.read (frameAddr c + k) = s.mem.read (frameAddr c + k) :=
    takenIn_outside hOffer s (by
      have := slotAddr_bounds o.slot
      unfold frameAddr
      omega)
  have hByte : CtxKind.ofByte ((s.takenIn o).mem.read (frameAddr c)) = some kind := by
    rw [show (s.takenIn o).mem.read (frameAddr c) = s.mem.read (frameAddr c) from hFrame 0 (by decide), hKind]
    cases kind <;> rfl
  have hTake := takeContext_restore (u := s.takenIn o) (n := o.slot) (c := c) (by rw [takenIn_target, hO.2]) hByte
    ((hFrame 1 (by decide)).trans hChan)
  rw [exec_offerable hOffer h, carryOut_kind (by rw [takenIn_mode]; exact hMode) (takenIn_kind s o), hO.1]
  show Host.Outcome.next (State.conclude ((s.takenIn o).takeContext o.slot .restore) o.slot) = _
  rw [hTake, conclude_done, takenIn_seqs]
  rfl

end Sys2Proof.Machine
end

section
/-! PROOFS. RESTORE: the runs it abandons, and what starts again once the context is set. -/

namespace Sys2Proof.Machine

/-! ### What the abandonment leaves -/

theorem Tabled.restoreAbandon (s : State) (c : Chan) : Tabled s (s.restoreAbandon c) := by
  unfold State.restoreAbandon
  dsimp only
  split_ifs
  · split
    · exact (Tabled.abandonGroup s _).trans (Tabled.stopChannel _ c)
    · exact Tabled.stopChannel s c
  · exact Tabled.refl s

theorem restoreAbandon_rests {s : State} {c : Chan} (h : ¬ (s.seqs[c].coupling = .attached ∧ measures s c)) : s.restoreAbandon c = s :=
  if_neg h

theorem restoreAbandon_injector {s : State} {c : Chan} {l : GroupId} (hAttached : s.seqs[c].coupling = .attached) (hRun : measures s c)
    (hInject : injectorOf s l = some c) (hOwn : ownInjector s l c) : s.restoreAbandon c = (s.abandonGroup l).stopChannel c := by
  unfold State.restoreAbandon
  dsimp only
  rw [if_pos ⟨hAttached, hRun⟩, groupOfInjector_own hInject hOwn]

/-- A channel that is stopped already is left by the second stop. -/
theorem stopChannel_stopped {s : State} {c : Chan} {q : Seq} {x : ChanSafety} (hSeq : s.seqs[c] = stoppedSeq q)
    (hSafety : s.safety[c] = x) : s.stopChannel c = s := by
  rw [stopChannel_eq, hSeq, stoppedSeq_idem, ← hSeq, hSafety, hSeq, stoppedSafety_idem, ← hSeq, ← hSafety]
  have hSeqs : upd s.seqs c s.seqs[c] = s.seqs := by simp [upd]
  have hSafeties : upd s.safety c s.safety[c] = s.safety := by simp [upd]
  rw [hSeqs, hSafeties]

/-- The context set on a channel whose run was stopped. -/
theorem restored_stopped {q : Seq} (hRun : q.run = .series ∨ q.run = .triple) {kind : CtxKind} (hKind : kind ≠ .held) (r : CtxRecord) :
    (stoppedSeq q).restored kind r =
      runOver { q with coupling := .detached, ctx := kind, record := if kind = .none then CtxRecord.zero else r } := by
  have hStopped : stoppedSeq q = { runOver q with coupling := .detached } := by
    unfold stoppedSeq
    rw [if_pos hRun]
  rw [hStopped]
  cases kind with
  | none => rfl
  | idle => rfl
  | held => exact absurd rfl hKind

theorem restored_check {q : Seq} (hRun : q.run = .selfcheck) (kind : CtxKind) (r : CtxRecord) :
    q.restored kind r = { q with ctx := kind, record := if kind = .none then CtxRecord.zero else r } := by
  unfold Seq.restored
  rw [hRun]
  cases kind <;> rfl

/-- With no order running, or none whose count a PARKED request awaits, only the scheduler follows. -/
theorem restoreRest_unheld {u : State} {running : Nat} (h : u.parkedPending = false ∨ running = 0) :
    u.restoreRest running false = u.schedule := by
  unfold State.restoreRest
  rw [if_neg Bool.false_ne_true]
  rcases h with hCalm | hZero
  · rw [recount_calm hCalm, ite_self]
  · rw [if_neg (by omega)]

theorem restoreRest_held (u : State) (running : Nat) : u.restoreRest running true = u.regroupFrom running false := if_pos rfl

/-- An injector of a safe part admits a SPOT to its group. -/
theorem admits_of_mayInject {s : State} {l : GroupId} {g : Group} {c : Chan} (hGroup : s.groups[l] = some g) (h : mayInject s l c) :
    groupPassive s g = false ∧ lowestEligible s g ≠ none := by
  have hEligible := (eligible_iff hGroup c).mpr h
  refine ⟨?_, fun hNone => List.find?_eq_none.mp hNone c (mem_allChans c) hEligible⟩
  unfold eligible at hEligible
  rw [Bool.and_eq_true, Bool.not_eq_true'] at hEligible
  exact hEligible.2

theorem Halts.stopChannel (s : State) (c : Chan) : Halts s (s.stopChannel c) := by
  refine ⟨by rw [stopChannel_eq], fun e => ?_⟩
  rw [stopChannel_eq]
  by_cases he : c = e
  · subst he
    exact .inr (Prod.ext (upd_same _ _ _) (upd_same _ _ _))
  · exact .inl (chanView_eq (upd_other _ _ _ _ he) (upd_other _ _ _ _ he))

theorem restoreAbandon_halts {u : State} (h : ∀ l, runningSpot u l = none) (c : Chan) : Halts u (u.restoreAbandon c) := by
  unfold State.restoreAbandon
  dsimp only
  split_ifs
  · split
    · next l _ =>
      rw [abandonGroup_noSpot (h l)]
      exact (Halts.abandonOwn u l).trans (Halts.stopChannel _ c)
    · exact Halts.stopChannel u c
  · exact Halts.refl u

/-! ### In IDLE with no order taken (R95, R96) -/

theorem restoreAbandon_groups {s : State} {c : Chan} : ∀ m, injectorOf (s.restoreAbandon c) m = injectorOf s m :=
  (Tabled.restoreAbandon s c).injector

theorem restedSeq_ctx (q : Seq) : (restedSeq q).ctx = q.ctx ∧ (restedSeq q).history = q.history := by
  unfold restedSeq
  split_ifs <;> exact ⟨rfl, rfl⟩

theorem doRestore_idle {u : State} {c : Chan} {kind : CtxKind} (hMode : u.mode = .idle) (hIntake : u.intake = []) (hKind : kind ≠ .held)
    (hHeld : u.seqs[c].ctx ≠ .held) : (u.doRestore c kind).seqs[c].ctx = kind
      ∧ (∀ m, injectorOf (u.doRestore c kind) m = injectorOf u m)
      ∧ (u.seqs[c].run = .none → (u.doRestore c kind).seqs[c].history = []) := by
  have hHalts := restoreAbandon_halts (runningSpot_empty hIntake) c
  have hInjectors := (Tabled.restoreAbandon u c).injector
  have hRests (hRun : u.seqs[c].run = .none) : u.restoreAbandon c = u := restoreAbandon_rests fun h => by
    unfold measures at h
    rw [hRun] at h
    rcases h.2 with e | e <;> exact nomatch e
  have hSame : (decide (u.seqs[c].ctx = .held) != decide (kind = .held)) = false := by
    rw [decide_eq_false hHeld, decide_eq_false hKind]
    rfl
  have hIntakeV : (u.restoredTo c kind).intake = [] := hHalts.intake hIntake
  have hModeW : (u.restoreAbandon c).mode = u.mode := (congrArg State.mode hHalts.frame :)
  have hModeV : (u.restoredTo c kind).mode = .idle := hModeW.trans hMode
  rw [doRestore_eq, hSame, restoreRest_unheld (.inr (runningCount_empty hIntake)),
    schedule_idle (noneWaits_empty hIntakeV) (by rw [hModeV]; decide) (by rw [hModeV]; decide)]
  have hSeq : (u.restoredTo c kind).seqs[c] = (u.restoreAbandon c).seqs[c].restored kind (frameRecord u.mem c) := upd_same _ _ _
  obtain ⟨hCtx, hHistory⟩ := restedSeq_ctx (u.restoredTo c kind).seqs[c]
  have hFrame := detachIdle_frame (u.restoredTo c kind)
  rw [(detachIdle_chan _ c).1]
  refine ⟨?_, fun m => ?_, fun hRun => ?_⟩
  · rw [hCtx, hSeq, (restored_frame _ _ _).2.2]
  · refine Eq.trans ?_ (hInjectors m)
    have hGroups : (u.restoredTo c kind).detachIdle.groups = (u.restoreAbandon c).groups := (congrArg State.groups hFrame :)
    unfold injectorOf
    rw [hGroups]
  · rw [hHistory, hSeq, hRests hRun]
    unfold Seq.restored
    rw [hRun]
    cases kind with
    | none => rfl
    | idle => rfl
    | held => exact absurd rfl hKind

/-! ### With a SELFCHECK that runs on the channel (R96, R130) -/

section Check
variable {v : State} {m : SlotId} {c : Chan} {l : GroupId} {k : Nat}

theorem sameOrStopped.checks {s t : State} (h : sameOrStopped c s t) (hRun : s.seqs[c].run = .selfcheck)
    (hDetached : s.seqs[c].coupling = .detached) : t.seqs[c] = s.seqs[c] := by
  rcases h with hSame | hStopped
  · exact congrArg Prod.fst hSame
  · rw [show t.seqs[c] = stoppedSeq s.seqs[c] from congrArg Prod.fst hStopped]
    unfold stoppedSeq
    rw [hRun, if_neg (by decide)]
    conv_rhs => rw [← show ({ s.seqs[c] with coupling := s.seqs[c].coupling } : Seq) = s.seqs[c] from rfl, hDetached]

/-- What a regroup of an agreeing table leaves where one check runs: its order stands in its group, which has no injector. -/
structure Checked (v : State) (m : SlotId) (c : Chan) (l : GroupId) (k : Nat) (y : State) : Prop where
  frame : y = { v with
    groups := y.groups, seqs := y.seqs, safety := y.safety, park := y.park, attn := y.attn
    intake := [⟨m, .selfcheck c, .running, leaderOf v l, k⟩], mem := v.mem.write (slotAddr m + 0x13) (byteOf (leaderOf v l).val) }
  chans : ∀ d : Chan, sameOrStopped d v y
  leaders : ∀ n : NodeId, leaderOf y n = leaderOf v n
  group : ∀ g : Group, v.groups[l] = some g → g.series = .order →
    y.groups[l] = some { g with injector := none, settle := none, waitPlan := false, measurable := false }

/-- The group under check gives its injector up, and its measurement stays the order's. -/
theorem evaluateGroup_checked {s : State} {g : Group} (hGroup : s.groups[l] = some g) (hSeries : g.series = .order)
    (hCheck : checkInProgress s l = true) (hNone : runningSpot s l = none) (formed : Bool) :
    (s.evaluateGroup formed l).groups[l] = some { g with injector := none, settle := none, waitPlan := false, measurable := false } := by
  have hChoice : chooseInjector s l g = none := if_pos hCheck
  have hStays : s.abandonGroup l = s := by
    rw [abandonGroup_noSpot hNone]
    exact abandonOwn_idle (by
      rw [seriesOf_some hGroup, hSeries]
      unfold ownActive
      decide)
  have hBoth : (if (decide (none ≠ g.injector) && g.injector.isSome) = true then s.abandonGroup l else s) = s := by
    rw [hStays, ite_self]
  unfold State.evaluateGroup
  rw [hGroup]
  dsimp only
  rw [hChoice, hBoth]
  have hHere : (s.modGroup l fun g => { g with injector := none }).groups[l] = some { g with injector := none } := by
    rw [modGroup_get, if_pos rfl, hGroup]
    rfl
  unfold State.settleAfter
  rw [hHere]
  dsimp only
  rw [if_pos rfl, modGroup_get, if_pos rfl, hHere]
  rfl

theorem regroupCore_check (hTable : tableAgrees v) (hMode : v.mode ≠ .parked) (hPending : v.parkedPending = false)
    (hIntake : v.intake = [⟨m, .selfcheck c, .running, l, k⟩]) : Checked v m c l k (v.regroupCore false) := by
  obtain ⟨w, hw, hCore⟩ := regroupCore_agreeing hTable hMode hPending
  obtain ⟨x, hx⟩ : ∃ x : State, x = { v with
      intake := [⟨m, .selfcheck c, .running, leaderOf v l, k⟩], mem := v.mem.write (slotAddr m + 0x13) (byteOf (leaderOf v l).val) } := ⟨_, rfl⟩
  have hPlaced : v.placeInFlight = x := by
    unfold State.placeInFlight
    rw [hIntake]
    show (if OrderPhase.running = .waiting then v else v.setOrderGroup m (leaderOf v l)) = _
    rw [if_neg (by decide)]
    unfold State.setOrderGroup State.modOrder State.poke
    rw [hIntake, hx]
    show { v with intake := [if m = m then _ else _], mem := _ } = _
    rw [if_pos rfl]
  have hOrders (t : State) (ht : Halts x t) : t.intake = [⟨m, .selfcheck c, .running, leaderOf v l, k⟩] := ht.orders.1.trans (by rw [hx])
  have hSpots (t : State) (ht : Halts x t) (n : GroupId) : runningSpot t n = none := by
    unfold runningSpot
    rw [hOrders t ht]
    exact List.find?_eq_none.mpr fun o ho => by
      rw [List.mem_singleton.mp ho]
      simp
  have hEach : Halts x (forEach allNodes (fun n t => t.evaluateGroup (!(v.groups[n]).isSome) n) x) :=
    Halts.forEach _ _ x fun n _ t ht => Halts.evaluated (hSpots t ht n) _
  have hMembers : sameMembers x (forEach allNodes (fun n t => t.evaluateGroup (!(v.groups[n]).isSome) n) x) :=
    forEach_keeps (P := sameMembers x) _ _ x (fun _ => rfl) fun n _ t ht y =>
      ((evaluateGroup_spec t (!(v.groups[n]).isSome) n).members y).trans (ht y)
  have hGroupEach (g : Group) (hGroup : v.groups[l] = some g) (hSeries : g.series = .order) :
      (forEach allNodes (fun n t => t.evaluateGroup (!(v.groups[n]).isSome) n) x).groups[l] =
        some { g with injector := none, settle := none, waitPlan := false, measurable := false } := by
    obtain ⟨t, hHalts, hView, hEnd⟩ := (forEach_own (fun (n : GroupId) (t : State) => t.evaluateGroup (!(v.groups[n]).isSome) n)
      (fun t : State => t.groups[l]) (Halts x) l allNodes x allNodes_nodup (Halts.refl x)
      (fun n _ t ht => ht.trans (Halts.evaluated (hSpots t ht n) _))
      fun n _ hn t ht => evaluated_others (hSpots t ht n) _ (Ne.symm hn)).2 (mem_allNodes l)
    have hGroupT : t.groups[l] = some g := hView.trans (by rw [hx]; exact hGroup)
    refine hEnd.trans (evaluateGroup_checked hGroupT hSeries ?_ (hSpots t hHalts l) _)
    unfold checkInProgress
    rw [hOrders t hHalts, leaderOf_leader hTable hGroup]
    simp
  rw [hPlaced] at hw
  generalize forEach allNodes (fun n t => t.evaluateGroup (!(v.groups[n]).isSome) n) x = e at hw hEach hMembers hGroupEach
  have hHalts : Halts x w := hw ▸ hEach.trans (detachOthers_halts e)
  have hGroupsW : w.groups = e.groups := by
    rw [hw]
    exact detachOthers_groups e
  obtain ⟨y, hy⟩ : ∃ y : State, y = w.noticeTable false v.groups := ⟨_, rfl⟩
  have hNotice : y = { w with attn := y.attn } := by
    rw [hy]
    unfold State.noticeTable
    split_ifs <;> rfl
  have hGroupsY : y.groups = w.groups := (congrArg State.groups hNotice :)
  have hIntakeY : y.intake = w.intake := (congrArg State.intake hNotice :)
  have hWaiting : y.placeWaiting = y := by
    unfold State.placeWaiting
    rw [hIntakeY, hOrders w hHalts]
    rfl
  rw [hCore, ← hy, hWaiting]
  refine ⟨?_, fun d => ?_, fun n => ?_, fun g hGroup hSeries => ?_⟩
  · have hFrame := hHalts.frame
    have hSeqsY : y.seqs = w.seqs := (congrArg State.seqs hNotice :)
    have hSafetyY : y.safety = w.safety := (congrArg State.safety hNotice :)
    have hParkY : y.park = w.park := (congrArg State.park hNotice :)
    rw [hGroupsY, hSeqsY, hSafetyY, hParkY]
    generalize w.groups = groups, w.seqs = seqs, w.safety = safety, w.park = park at hFrame
    generalize y.attn = attn at hNotice ⊢
    rw [hNotice, hFrame, hx]
  · have hView : chanView d y = chanView d w := by
      rw [hNotice]
      rfl
    have hStep := hHalts.chans d
    unfold sameOrStopped at hStep ⊢
    rw [hView]
    rw [hx] at hStep
    exact hStep
  · rw [leaderOf_congr hGroupsY, leaderOf_congr hGroupsW, leaderOf_members hMembers, hx]
    rfl
  · rw [hGroupsY, hGroupsW]
    exact hGroupEach g hGroup hSeries

/-- A regroup of an agreeing table in IDLE, with one check that runs: the order passes to its group's leader, the channel
runs on. -/
theorem regroupFrom_check (hTable : tableAgrees v) (hMode : v.mode = .idle) (hPending : v.parkedPending = false)
    (hIntake : v.intake = [⟨m, .selfcheck c, .running, l, k⟩]) (hRun : v.seqs[c].run = .selfcheck)
    (hDetached : v.seqs[c].coupling = .detached) (running : Nat) : (v.regroupFrom running false).seqs[c] = v.seqs[c]
      ∧ (v.regroupFrom running false).intake = [⟨m, .selfcheck c, .running, leaderOf v l, k⟩]
      ∧ leaderOf (v.regroupFrom running false) l = leaderOf v l := by
  have hChecked := regroupCore_check hTable (by rw [hMode]; decide) hPending hIntake
  have hModeY := (Measuring.regroupCore v false).calm hPending
  have hFrom : v.regroupFrom running false = (v.regroupCore false).detachIdle := by
    have hIntakeY : (v.regroupCore false).intake = [⟨m, .selfcheck c, .running, leaderOf v l, k⟩] := (congrArg State.intake hChecked.frame :)
    unfold State.regroupFrom
    dsimp only
    rw [recount_calm hModeY.2, ite_self]
    refine schedule_idle (fun o ho => ?_) (by rw [hModeY.1, hMode]; decide) (by rw [hModeY.1, hMode]; decide)
    rw [hIntakeY] at ho
    rw [List.mem_singleton.mp ho]
    exact fun e => nomatch e
  rw [hFrom]
  generalize v.regroupCore false = y at hChecked
  have hFrame := detachIdle_frame y
  have hGroupsEnd : y.detachIdle.groups = y.groups := (congrArg State.groups hFrame :)
  have hIntakeEnd : y.detachIdle.intake = y.intake := (congrArg State.intake hFrame :)
  refine ⟨?_, ?_, ?_⟩
  · rw [(detachIdle_chan y c).1, (hChecked.chans c).checks hRun hDetached]
    unfold restedSeq
    rw [hRun, if_neg (by decide)]
  · rw [hIntakeEnd]
    exact (congrArg State.intake hChecked.frame :)
  · rw [leaderOf_congr hGroupsEnd, hChecked.leaders]

/-- RESTORE of the channel under check. -/
theorem doRestore_check {u : State} {kind : CtxKind} (hTable : tableAgrees u) (hMode : u.mode = .idle) (hPending : u.parkedPending = false)
    (hIntake : u.intake = [⟨m, .selfcheck c, .running, l, k⟩]) (hRun : u.seqs[c].run = .selfcheck)
    (hDetached : u.seqs[c].coupling = .detached) :
    (u.doRestore c kind).seqs[c] = { u.seqs[c] with ctx := kind, record := (u.doRestore c kind).seqs[c].record }
      ∧ ((u.doRestore c kind).intake = u.intake
        ∨ u.groups[l] = none ∧ (u.doRestore c kind).intake = [⟨m, .selfcheck c, .running, leaderOf (u.doRestore c kind) l, k⟩]) := by
  have hRests : u.restoreAbandon c = u := restoreAbandon_rests fun h => by
    rw [hDetached] at h
    exact nomatch h.1
  obtain ⟨v, hv⟩ : ∃ v, v = u.restoredTo c kind := ⟨_, rfl⟩
  have hSet : v = u.setSeq c (u.seqs[c].restored kind (frameRecord u.mem c)) := by
    rw [hv]
    unfold State.restoredTo
    rw [hRests]
  have hSeqV : v.seqs[c] = { u.seqs[c] with ctx := kind, record := if kind = .none then CtxRecord.zero else frameRecord u.mem c } := by
    rw [hSet, setSeq_seq, restored_check hRun]
  have hRecord := (doRestore_restores u c kind).record
  have hFinish (t : State) (ht : t.seqs[c] = v.seqs[c]) (hr : t.seqs[c].record = if kind = .none then CtxRecord.zero else frameRecord u.mem c) :
      t.seqs[c] = { u.seqs[c] with ctx := kind, record := t.seqs[c].record } := by
    rw [hr, ht, hSeqV]
  have hPendingV : v.parkedPending = false := by rw [hSet]; exact hPending
  have hIntakeV : v.intake = [⟨m, .selfcheck c, .running, l, k⟩] := by rw [hSet]; exact hIntake
  have hModeV : v.mode = .idle := by rw [hSet]; exact hMode
  have hGroupsV : v.groups = u.groups := (congrArg State.groups hSet :)
  have hLinksV : v.links = u.links := (congrArg State.links hSet :)
  rw [doRestore_eq, ← hv] at hRecord ⊢
  generalize (decide (u.seqs[c].ctx = .held) != decide (kind = .held)) = held at hRecord ⊢
  cases held with
  | false =>
    have hSchedule : v.restoreRest (runningCount u) false = v.detachIdle := by
      rw [restoreRest_unheld (.inl hPendingV)]
      refine schedule_idle (fun o ho => ?_) (by rw [hModeV]; decide) (by rw [hModeV]; decide)
      rw [hIntakeV] at ho
      rw [List.mem_singleton.mp ho]
      exact fun e => nomatch e
    rw [hSchedule] at hRecord ⊢
    refine ⟨hFinish _ ?_ hRecord, .inl ?_⟩
    · rw [(detachIdle_chan v c).1]
      unfold restedSeq
      rw [hSeqV, hRun, if_neg (by decide)]
    · rw [hIntake, ← hIntakeV]
      exact (congrArg State.intake (detachIdle_frame v) :)
  | true =>
    have hTableV : tableAgrees v := by
      unfold tableAgrees
      rw [hGroupsV, hLinksV]
      exact hTable
    obtain ⟨hSeq, hOrders, hLeads⟩ := regroupFrom_check hTableV hModeV hPendingV hIntakeV (by rw [hSeqV]; exact hRun)
      (by rw [hSeqV]; exact hDetached) (runningCount u)
    rw [restoreRest_held] at hRecord ⊢
    refine ⟨hFinish _ hSeq hRecord, ?_⟩
    cases hGroup : u.groups[l] with
    | none =>
      right
      refine ⟨rfl, ?_⟩
      rw [hOrders, hLeads]
    | some g =>
      left
      rw [hOrders, leaderOf_congr hGroupsV, leaderOf_leader hTable hGroup, hIntake]

end Check

end Sys2Proof.Machine
end

section
/-! PROOFS. RESTORE of a channel that injects: the series that starts again, and the SPOT that is abandoned. -/

namespace Sys2Proof.Machine

/-- The context a RESTORE sets on a channel whose run it stopped, before a run starts again. -/
def restoredRun (m : Memory) (c : Chan) (kind : CtxKind) (q : Seq) : Seq :=
  { q with coupling := .detached, ctx := kind, record := if kind = .none then CtxRecord.zero else frameRecord m c }

theorem waitingRun_runOver (q : Seq) (kind : RunKind) (owner : Option SlotId) (copy : RunCopy) :
    waitingRun (runOver q) kind owner copy = waitingRun q kind owner copy := rfl

/-- A series that starts in RUN while the verify of its channel runs. -/
theorem schedule_held {v : State} {l : GroupId} {g : Group} {c : Chan} {p : PlanId} (hMode : v.mode = .run) (hIntake : v.intake = [])
    (hReady : readyToMeasure v l g c p) (hOwn : ownInjector v l c) (hDetached : v.seqs[c].coupling = .detached)
    (hRun : v.seqs[c].run = .none) (hVerify : v.safety[c].verify ≠ none) : v.schedule.groups[l] = some (ownGroup v g .series p)
      ∧ v.schedule.safety[c] = v.safety[c] ∧ v.schedule.seqs[c] = waitingRun v.seqs[c] .series none (runCopy v c p) := by
  have hNone := noneWaits_empty hIntake
  obtain ⟨hGroup, hSeq, hSafety⟩ := startAll_started hNone hReady (checkInProgress_empty hIntake l) hOwn
  have hStays : safetyStarted v c = v.safety[c] := if_pos hRun
  rw [runStarted_held hDetached hVerify] at hSeq
  rw [hStays] at hSafety
  have hRuns : v.startAll.seqs[c].run ≠ .none := by
    rw [hSeq]
    exact fun e => nomatch e
  obtain ⟨hSeqEnd, hSafetyEnd⟩ := detachIdle_chan v.startAll c
  have hGroups : v.startAll.detachIdle.groups = v.startAll.groups := (congrArg State.groups (detachIdle_frame v.startAll) :)
  have hSchedule : v.schedule = v.startAll.detachIdle := schedule_run hNone hMode
  rw [hSchedule, hGroups, hSeqEnd, hSafetyEnd]
  refine ⟨hGroup, ?_, ?_⟩
  · unfold restedSafety
    rw [if_neg fun h => hRuns h.1, hSafety]
  · unfold restedSeq
    rw [if_neg hRuns, hSeq]

section
variable {u : State} {c : Chan} {kind : CtxKind} {l : GroupId} {g : Group} {p : PlanId}

/-- A RESTORE that neither begins nor ends a hold. -/
theorem doRestore_unheld (hKind : kind ≠ .held) (hHeld : u.seqs[c].ctx ≠ .held) :
    u.doRestore c kind = (u.restoredTo c kind).restoreRest (runningCount u) false := by
  rw [doRestore_eq, decide_eq_false hHeld, decide_eq_false hKind]
  rfl

theorem restoreAbandon_series (hIntake : u.intake = []) (hAttached : u.seqs[c].coupling = .attached) (hRun : u.seqs[c].run = .series)
    (hGroup : u.groups[l] = some g) (hInject : g.injector = some c) (hOwn : ownInjector u l c)
    (hSeries : g.series = .series ∨ g.series = .stopping) : u.restoreAbandon c = { u with
      groups := upd u.groups l (some (overGroup g)), seqs := upd u.seqs c (stoppedSeq u.seqs[c])
      safety := upd u.safety c { u.safety[c] with verify := some 5 } } := by
  have hActive : ownActive g.series := hSeries.elim .inl fun h => .inr (.inl h)
  have hNotTurn : g.series ≠ .turn := by
    rcases hSeries with h | h <;> rw [h] <;> exact fun e => nomatch e
  have hVerify : stoppedSafety u.seqs[c] u.safety[c] = { u.safety[c] with verify := some 5 } := if_pos hAttached
  have hOver := abandonOwn_active hGroup hActive hInject
  rw [if_neg hNotTurn, hVerify] at hOver
  rw [restoreAbandon_injector hAttached (.inl hRun) ((injectorOf_some hGroup).trans hInject) hOwn,
    abandonGroup_noSpot (runningSpot_empty hIntake l), hOver]
  exact stopChannel_stopped (upd_same _ _ _) rfl

/-- In RUN the series starts again on the channel, its attach held back by the verify (R95, R106). -/
theorem doRestore_series (hMode : u.mode = .run) (hIntake : u.intake = []) (hKind : kind ≠ .held) (hHeld : u.seqs[c].ctx ≠ .held)
    (hAttached : u.seqs[c].coupling = .attached) (hRun : u.seqs[c].run = .series) (hGroup : u.groups[l] = some g)
    (hInject : g.injector = some c) (hOwn : ownInjector u l c) (hSeries : g.series = .series ∨ g.series = .stopping)
    (hMeasurable : g.measurable = true) (hPlan : u.nodePlan[l] = some p) (hReady : u.plans[p].ready = true) :
    (u.doRestore c kind).groups[l] = some (ownGroup u g .series p)
      ∧ (u.doRestore c kind).safety[c] = { u.safety[c] with verify := some 5 }
      ∧ (u.doRestore c kind).seqs[c] = waitingRun (restoredRun u.mem c kind u.seqs[c]) .series none (runCopy u c p) := by
  have hAbandon := restoreAbandon_series hIntake hAttached hRun hGroup hInject hOwn hSeries
  obtain ⟨v, hv⟩ : ∃ v, v = u.restoredTo c kind := ⟨_, rfl⟩
  have hSeqV : v.seqs[c] = runOver (restoredRun u.mem c kind u.seqs[c]) := by
    rw [hv]
    unfold State.restoredTo
    rw [setSeq_seq, hAbandon]
    dsimp only
    rw [upd_same, restored_stopped (.inl hRun) hKind]
    rfl
  have hFrame : v = { u with groups := upd u.groups l (some (overGroup g)), seqs := v.seqs, safety := upd u.safety c { u.safety[c] with verify := some 5 } } := by
    rw [hv]
    unfold State.restoredTo
    rw [hAbandon]
    rfl
  have hGroupV : v.groups[l] = some (overGroup g) := by
    rw [hFrame]
    exact upd_same _ _ _
  have hSafetyV : v.safety[c] = { u.safety[c] with verify := some 5 } := by
    rw [hFrame]
    exact upd_same _ _ _
  have hOwnV : ownInjector v l c := fun m hm => hOwn m (by
    rw [← hm, hv]
    exact ((Tabled.restoreAbandon u c).injector m).symm)
  have hIntakeV : v.intake = [] := by rw [hFrame]; exact hIntake
  have hModeV : v.mode = .run := by rw [hFrame]; exact hMode
  have hPlansV : v.plans = u.plans ∧ v.nodePlan = u.nodePlan ∧ v.wiring = u.wiring := by
    rw [hFrame]
    exact ⟨rfl, rfl, rfl⟩
  obtain ⟨hPlans, hNodePlan, hWiring⟩ := hPlansV
  rw [doRestore_unheld hKind hHeld, restoreRest_unheld (.inr (runningCount_empty hIntake)), ← hv]
  have hReadyV : readyToMeasure v l (overGroup g) c p :=
    ⟨hGroupV, hMeasurable, rfl, hInject, by rw [hNodePlan]; exact hPlan, by rw [hPlans]; exact hReady⟩
  have hCopy : runCopy v c p = runCopy u c p := by
    unfold runCopy
    rw [hPlans, hWiring]
  have hOwnGroup : ownGroup v (overGroup g) .series p = ownGroup u g .series p := by
    unfold ownGroup
    rw [hPlans]
    rfl
  obtain ⟨hGroupT, hSafetyT, hSeqT⟩ := schedule_held hModeV hIntakeV hReadyV hOwnV (by rw [hSeqV]; rfl) (by rw [hSeqV]; rfl)
    (by rw [hSafetyV]; exact fun e => nomatch e)
  rw [hGroupT, hSafetyT, hSeqT, hOwnGroup, hSafetyV, hSeqV, hCopy, waitingRun_runOver]
  exact ⟨rfl, rfl, rfl⟩

variable {m : SlotId} {node : NodeId} {k : Nat}

theorem spotAbandoned_chans (s : State) (o : Order) : (s.spotAbandoned o).seqs = s.seqs ∧ (s.spotAbandoned o).safety = s.safety := by
  have hSet (t : State) (n : GroupId) (x : SeriesState) : (t.setSeries n x).seqs = t.seqs ∧ (t.setSeries n x).safety = t.safety := by
    unfold State.setSeries State.modGroup
    split <;> exact ⟨rfl, rfl⟩
  unfold State.spotAbandoned
  dsimp only
  split_ifs
  · exact hSet _ _ _
  · unfold State.refuseSlot
    rw [completeSlot_eq]
    exact hSet _ _ _

/-- A SPOT's run abandoned on its attached channel (R95, R128). -/
theorem restoreAbandon_spot (hIntake : u.intake = [⟨m, .spot node p, .running, l, k⟩]) (hAttached : u.seqs[c].coupling = .attached)
    (hRun : u.seqs[c].run = .triple) (hGroup : u.groups[l] = some g) (hInject : g.injector = some c) (hOwn : ownInjector u l c)
    (hSeries : g.series = .order) : Recounted u m node p l k (u.restoreAbandon c)
      ∧ (u.restoreAbandon c).groups[l] = some { g with series := .none }
      ∧ (u.restoreAbandon c).seqs = upd u.seqs c (stoppedSeq u.seqs[c])
      ∧ (u.restoreAbandon c).safety = upd u.safety c { u.safety[c] with verify := some 5 } := by
  have hInjects : injectorOf u l = some c := (injectorOf_some hGroup).trans hInject
  have hOver : u.abandonOwn l = u := abandonOwn_idle (by
    rw [seriesOf_some hGroup, hSeries]
    unfold ownActive
    decide)
  have hSpot : runningSpot u l = some ⟨m, .spot node p, .running, l, k⟩ := by
    unfold runningSpot
    rw [hIntake]
    exact List.find?_cons_of_pos (by simp)
  obtain ⟨b, hb⟩ : ∃ b, b = u.stopChannel c := ⟨_, rfl⟩
  have hVerify : stoppedSafety u.seqs[c] u.safety[c] = { u.safety[c] with verify := some 5 } := if_pos hAttached
  have hHalts : Halts u b := hb ▸ Halts.stopChannel u c
  rw [stopChannel_eq, hVerify] at hb
  have hGroupB : b.groups[l] = some g := by rw [hb]; exact hGroup
  have hSeqsB : b.seqs = upd u.seqs c (stoppedSeq u.seqs[c]) := by rw [hb]
  have hSafetyB : b.safety = upd u.safety c { u.safety[c] with verify := some 5 } := by rw [hb]
  have hAbandon : u.abandonGroup l = b.spotAbandoned ⟨m, .spot node p, .running, l, k⟩ := by
    unfold State.abandonGroup State.stopInjector
    dsimp only
    rw [hOver, hSpot]
    dsimp only
    rw [hInjects]
    dsimp only
    rw [stopChannel_eq, hVerify, ← hb]
  have hCounted := hHalts.recounted (spotAbandoned_recounted (hHalts.orders.1.trans hIntake))
  have hFree := spotAbandoned_group hGroupB ⟨m, .spot node p, .running, l, k⟩ rfl
  have hSeqs : (b.spotAbandoned ⟨m, .spot node p, .running, l, k⟩).seqs = b.seqs := (spotAbandoned_chans b _).1
  have hSafety : (b.spotAbandoned ⟨m, .spot node p, .running, l, k⟩).safety = b.safety := (spotAbandoned_chans b _).2
  rw [restoreAbandon_injector hAttached (.inr hRun) hInjects hOwn, hAbandon,
    stopChannel_stopped (q := u.seqs[c]) (by rw [hSeqs, hSeqsB, upd_same]) rfl]
  exact ⟨hCounted, hFree, hSeqs.trans hSeqsB, hSafety.trans hSafetyB⟩

/-- What becomes of a SPOT whose channel a RESTORE takes. -/
structure SpotRestored (u : State) (c : Chan) (kind : CtxKind) (g : Group) (m : SlotId) (node : NodeId) (p : PlanId) (l : GroupId)
    (k : Nat) (t : State) : Prop where
  safety : t.safety[c] = { u.safety[c] with verify := some 5 }
  abandons : t.mem.read (slotAddr m + 0x14) = byteOf (k + 1)
  again : k + 1 < 3 → t.intake = [⟨m, .spot node p, .running, l, k + 1⟩]
    ∧ t.groups[l] = some { g with seriesCount := g.seriesCount + 1 }
    ∧ t.seqs[c] = waitingRun (restoredRun u.mem c kind u.seqs[c]) .triple (some m) (runCopy u c p)
  last : 3 ≤ k + 1 → t.intake = [] ∧ t.groups[l] = some { g with series := .none }
    ∧ t.seqs[c] = runOver (restoredRun u.mem c kind u.seqs[c]) ∧ spotRefusedTopology u t m

theorem Recounted.refusedTopology {v : State} (h : Recounted u m node p l k v) (hLast : 3 ≤ k + 1) :
    v.intake = [] ∧ v.mem.read (slotAddr m + 0x14) = byteOf (k + 1) ∧ spotRefusedTopology u v m := by
  obtain ⟨hIntake, hSlots, ⟨bytes, hMem, hBytes⟩, hNews, hLevel⟩ := h.refused hLast
  have hKept (j : Nat) (hj : 1 ≤ j ∧ j < 0x18 ∧ j ≠ 0x12 ∧ j ≠ 0x15) (hCount : j ≠ 0x14) :
      v.mem.read (slotAddr m + j) = u.mem.read (slotAddr m + j) := by
    rw [hMem, completedMemory_kept _ _ _ _ _ hj, Memory.read_write_other _ _ _ _ (by omega)]
  refine ⟨hIntake, ?_, ?_, ?_, ?_, ?_, fun hSpot j hj => ?_, fun j h1 h2 => hKept j (by omega) (by omega), hNews, hLevel⟩
  · rw [hMem, completedMemory_kept _ _ _ _ _ (by decide), Memory.read_write_same]
  · rw [hSlots]
    exact upd_same _ _ _
  · rw [hMem, completedMemory_state]
    rfl
  · rw [hMem, completedMemory_progress]
  · rw [hMem, completedMemory_reason]
  · rw [hMem, completedMemory_kind _ _ _ _ _ hj, hBytes hSpot]
    rfl

theorem doRestore_spot (hSafe : Safe u) (hMode : u.mode = .idle) (hPending : u.parkedPending = false) (hKind : kind ≠ .held)
    (hHeld : u.seqs[c].ctx ≠ .held) (hIntake : u.intake = [⟨m, .spot node p, .running, l, k⟩]) (hAttached : u.seqs[c].coupling = .attached)
    (hRun : u.seqs[c].run = .triple) (hGroup : u.groups[l] = some g) (hInject : g.injector = some c) (hOwn : ownInjector u l c)
    (hSeries : g.series = .order) (hSettle : g.settle = none) (hReady : u.plans[p].ready = true) :
    SpotRestored u c kind g m node p l k (u.doRestore c kind) := by
  obtain ⟨hCounted, hFree, hSeqsW, hSafetyW⟩ := restoreAbandon_spot hIntake hAttached hRun hGroup hInject hOwn hSeries
  have hInjectors := (Tabled.restoreAbandon u c).injector
  have hSafeW := hSafe.working (Working.restoreAbandon u c)
  rw [doRestore_unheld hKind hHeld]
  unfold State.restoredTo
  generalize u.restoreAbandon c = w at hCounted hFree hSeqsW hSafetyW hInjectors hSafeW
  have hSeqW : w.seqs[c] = stoppedSeq u.seqs[c] := by rw [hSeqsW, upd_same]
  have hSafeV : Safe (w.setSeq c (w.seqs[c].restored kind (frameRecord u.mem c))) := by
    obtain ⟨hCoupling, hRuns, hCtx⟩ := restored_frame w.seqs[c] kind (frameRecord u.mem c)
    exact hSafeW.setCtx c _ hCoupling hRuns fun h => absurd (hCtx.symm.trans h) hKind
  obtain ⟨v, hv⟩ : ∃ v, v = w.setSeq c (w.seqs[c].restored kind (frameRecord u.mem c)) := ⟨_, rfl⟩
  have hSeqV : v.seqs[c] = runOver (restoredRun u.mem c kind u.seqs[c]) := by
    rw [hv, setSeq_seq, hSeqW, restored_stopped (.inr hRun) hKind]
    rfl
  rw [← hv] at hSafeV ⊢
  have hCountedV : Recounted u m node p l k v := by
    have hFrame := hCounted.frame
    rw [hv]
    refine ⟨?_, hCounted.waits, hCounted.refused⟩
    unfold State.setSeq
    generalize w.groups = groups, w.seqs = seqs, w.safety = safety, w.park = park, w.intake = intake, w.mem = mem, w.slots = slots,
      w.news = news, w.attn = attn at hFrame ⊢
    rw [hFrame]
  have hGroupV : v.groups[l] = some { g with series := .none } := by rw [hv]; exact hFree
  have hSafetyV : v.safety[c] = { u.safety[c] with verify := some 5 } := by
    rw [hv]
    show w.safety[c] = _
    rw [hSafetyW, upd_same]
  have hInjectorsV (n : GroupId) : injectorOf v n = injectorOf u n := by
    rw [← hInjectors n, hv]
    rfl
  have hFrame := hCountedV.frame
  have hModeV : v.mode = u.mode := (congrArg State.mode hFrame :)
  have hPendingV : v.parkedPending = u.parkedPending := (congrArg State.parkedPending hFrame :)
  have hPlansV : v.plans = u.plans := (congrArg State.plans hFrame :)
  have hWiringV : v.wiring = u.wiring := (congrArg State.wiring hFrame :)
  have hVerify : v.safety[c].verify ≠ none := by
    rw [hSafetyV]
    exact fun e => nomatch e
  have hDetached : v.seqs[c].coupling = .detached := by
    rw [hSeqV]
    rfl
  have hRunV : v.seqs[c].run = .none := by
    rw [hSeqV]
    rfl
  clear hv
  rw [restoreRest_unheld (.inl (hPendingV.trans hPending))]
  obtain hAgain | hLast := Nat.lt_or_ge (k + 1) 3
  · obtain ⟨hIntakeV, -, hMemV⟩ := hCountedV.waits hAgain
    have hMay := hSafeV.sound.injectors l c ((hInjectorsV l).trans ((injectorOf_some hGroup).trans hInject))
    obtain ⟨hFrameT, hGroupT, hSeqT, hSafetyT⟩ := (sole_of hIntakeV).spot_runs (node := node) (p := p) (c := c) rfl hGroupV rfl hSettle
      (checkInProgress_spots (fun x hx d _ => by
        rw [hIntakeV] at hx
        rw [List.mem_singleton.mp hx]
        exact fun e => nomatch e) l)
      (hPendingV.trans hPending) (by rw [hModeV, hMode]; decide) (fun h => by
        rw [hModeV, hMode] at h
        exact nomatch h) hInject (fun n hn => by
        rw [hInjectorsV n]
        exact fun h => hn (hOwn n h)) (by rw [hPlansV]; exact hReady) (admits_of_mayInject hGroupV hMay)
    have hIntakeT : v.schedule.intake = runningNow v.intake m := (congrArg State.intake hFrameT :)
    have hMemT : v.schedule.mem = v.mem.write (slotAddr m + 0x12) 2 := (congrArg State.mem hFrameT :)
    rw [runStarted_held hDetached hVerify, hSeqV, waitingRun_runOver] at hSeqT
    refine ⟨?_, ?_, fun _ => ⟨?_, ?_, ?_⟩, fun h => by omega⟩
    · rw [hSafetyT, ← hSafetyV]
      exact if_pos hRunV
    · rw [hMemT, Memory.read_write_other _ _ _ _ (by omega), hMemV, Memory.read_write_other _ _ _ _ (by omega), Memory.read_write_same]
    · rw [hIntakeT, hIntakeV]
      exact congrArg (fun o => [o]) (if_pos rfl)
    · rw [hGroupT, ← hSeries]
    · rw [hSeqT]
      unfold runCopy
      rw [hPlansV, hWiringV]
  · obtain ⟨hIntakeV, hAbandons, hSlot, hState, hProgress, hReason, hBytes, hHost, hNews, hLevel⟩ := hCountedV.refusedTopology hLast
    rw [schedule_idle (noneWaits_empty hIntakeV) (by rw [hModeV, hMode]; decide) (by rw [hModeV, hMode]; decide)]
    obtain ⟨hSeqT, hSafetyT⟩ := detachIdle_chan v c
    have hFrameT := detachIdle_frame v
    obtain ⟨hIntakeT, hSlotsT, hMemT, hNewsT, hAttnT⟩ := (detachIdle_halts v).orders
    have hGroupsT : v.detachIdle.groups = v.groups := (congrArg State.groups hFrameT :)
    have hRefused : spotRefusedTopology u v.detachIdle m := by
      unfold spotRefusedTopology
      rw [hSlotsT, hMemT, hNewsT, hAttnT]
      exact ⟨hSlot, hState, hProgress, hReason, hBytes, hHost, hNews, hLevel⟩
    refine ⟨?_, by rw [hMemT, hAbandons], fun h => by omega, fun _ => ⟨hIntakeT.trans hIntakeV, by rw [hGroupsT, hGroupV], ?_, hRefused⟩⟩
    · rw [hSafetyT, ← hSafetyV]
      unfold restedSafety
      rw [if_neg fun h => by
        rw [hDetached] at h
        exact nomatch h.2]
    · rw [hSeqT, restedSeq_self fun _ => hDetached, hSeqV]

end

end Sys2Proof.Machine
end

section
/-! PROOFS. RESTORE, settled. -/

namespace Sys2Proof.Machine

/-- What the completion of an order that stands in no list leaves of everything but its own slot. -/
structure Completes (w t : State) (n : SlotId) : Prop where
  seqs : t.seqs = w.seqs
  safety : t.safety = w.safety
  groups : t.groups = w.groups
  intake : t.intake = w.intake
  fixed : t.fixed = w.fixed
  memory : ∀ a, a < slotAddr n ∨ slotAddr n + 64 ≤ a → t.mem.read a = w.mem.read a
  slots : ∀ m : SlotId, m ≠ n → t.slots[m] = w.slots[m]
  news : ∀ k, has8 w.news.done k = true → has8 t.news.done k = true
  pending : ∀ k, has8 w.attn.pending k = true → has8 t.attn.pending k = true

theorem completeSlot_completes {w : State} {n : SlotId} (hIntake : ∀ x ∈ w.intake, x.slot ≠ n) (final : SlotState) (reason : Byte)
    (kind : List Byte) : Completes w (w.completeSlot n final reason kind) n := by
  have hKept : w.intake.filter (fun o => o.slot ≠ n) = w.intake := List.filter_eq_self.mpr fun x hx => decide_eq_true (hIntake x hx)
  rw [completeSlot_eq, hKept]
  exact ⟨rfl, rfl, rfl, rfl, rfl, fun _ ha => completedMemory_outside _ _ _ _ _ ha, fun m hm => upd_other _ _ _ _ (Ne.symm hm),
    fun k h => has8_or_left _ _ k h, fun k h => has8_or_left _ _ k h⟩

/-- A part as an order's intake leaves it, in what a RESTORE reads of it. -/
theorem takenIn_reads (s : State) (o : Offer) : (s.takenIn o).parkedPending = s.parkedPending ∧ (s.takenIn o).plans = s.plans
    ∧ (s.takenIn o).nodePlan = s.nodePlan ∧ (s.takenIn o).wiring = s.wiring := by
  rw [takenIn_eq]
  exact ⟨rfl, rfl, rfl, rfl⟩

/-- A SPOT's refusal shows the same against the part as the order in another slot was offered. -/
theorem spotRefusedTopology_complete {i : Instr} {o : Offer} {s w t : State} {m : SlotId} (hOffer : offerOf i = some o)
    (hm : m ≠ o.slot) (hDone : Completes w t o.slot) (h : spotRefusedTopology (s.takenIn o) w m) : spotRefusedTopology s t m := by
  obtain ⟨hSlot, hState, hProgress, hReason, hBytes, hHost, hNews, hLevel⟩ := h
  have hFar (j : Nat) (hj : j < 64) : slotAddr m + j < slotAddr o.slot ∨ slotAddr o.slot + 64 ≤ slotAddr m + j :=
    slotAddr_far (Ne.symm hm) hj
  have hEnd (j : Nat) (hj : j < 64) := hDone.memory _ (hFar j hj)
  have hStart (j : Nat) (hj : j < 64) : (s.takenIn o).mem.read (slotAddr m + j) = s.mem.read (slotAddr m + j) :=
    takenIn_outside hOffer s (hFar j hj)
  refine ⟨(hDone.slots m hm).trans hSlot, (hEnd 0 (by decide)).trans hState, (hEnd 0x12 (by decide)).trans hProgress,
    (hEnd 0x15 (by decide)).trans hReason, fun hSpot j hj => ?_, fun j h1 h2 => ?_, hDone.news _ hNews, hDone.pending _ hLevel⟩
  · rw [Nat.add_assoc, hEnd (0x18 + j) (by omega), ← Nat.add_assoc, ← hStart 3 (by decide)]
    exact hBytes ((hStart 1 (by decide)).trans hSpot) j hj
  · rw [hEnd j (by omega), hHost j h1 h2, hStart j (by omega)]

/-- Settles O26: the context set, and clause by clause what the abandonment and the scheduler make of the run in flight. -/
theorem restoreSetsTheContext : Obligations.RestoreSetsTheContext := by
  intro n c kind o s hSafe hMode hOffer h hKindByte hChanByte
  have hExec := exec_restore hMode hOffer h hKindByte hChanByte
  obtain rfl : n = o.slot := by
    cases hOffer
    rfl
  obtain ⟨u, hu⟩ : ∃ u, u = s.takenIn o := ⟨_, rfl⟩
  have hSafeU : Safe u := hu ▸ hSafe.takenIn h
  have hIntakeU : u.intake = s.intake := hu ▸ takenIn_intake s o
  have hSeqsU : u.seqs = s.seqs := hu ▸ takenIn_seqs s o
  have hSafetyU : u.safety = s.safety := hu ▸ takenIn_safety s o
  have hGroupsU : u.groups = s.groups := hu ▸ takenIn_groups s o
  have hModeU : u.mode = s.mode := hu ▸ takenIn_mode s o
  obtain ⟨hPendingU, hPlansU, hNodePlanU, hWiringU⟩ := takenIn_reads s o
  have hFixedU : (s.takenIn o).fixed = (afterOffer s o).fixed := (Measuring.ofTakenIn hOffer s).fixed
  rw [← hu] at hPendingU hPlansU hNodePlanU hWiringU hFixedU
  have hCovers : Covers (fun m => m ≠ o.slot) u := fun x hx => h.2.2 x (hIntakeU ▸ hx)
  obtain ⟨hSlotBytes, hOutside, hApart⟩ := doRestore_memory hCovers c kind
  have hRestores := doRestore_restores u c kind
  have hSafeW := hSafeU.doRestore c kind
  have hRecordU : frameRecord u.mem c = frameRecord s.mem c := hu ▸ frameRecord_takenIn hOffer s c
  rw [← hu] at hExec
  obtain ⟨w, hw⟩ : ∃ w, w = u.doRestore c kind := ⟨_, rfl⟩
  rw [← hw] at hExec hSlotBytes hOutside hApart hRestores hSafeW
  obtain ⟨t, ht⟩ : ∃ t, t = w.completeSlot o.slot .done 0 [byteOf s.seqs[c].ctx.code, byteOf kind.code] := ⟨_, rfl⟩
  have hDone : Completes w t o.slot := ht ▸ completeSlot_completes hApart _ _ _
  have hInjector : injectorOf t = injectorOf w := by
    funext l
    unfold injectorOf
    rw [hDone.groups]
  have hSeqT : t.seqs[c] = w.seqs[c] := by rw [hDone.seqs]
  have hSafetyT : t.safety[c] = w.safety[c] := by rw [hDone.safety]
  have hRecordT : t.seqs[c].record = if kind = .none then CtxRecord.zero else frameRecord s.mem c := by
    rw [hSeqT, hRestores.record, hRecordU]
  have hCtxT : t.seqs[c].ctx = kind ∨ kind = .none ∧ t.seqs[c].ctx = .idle := by
    rw [hSeqT]
    exact hRestores.ctx
  have hRestored : restoredRun u.mem c kind s.seqs[c] = { s.seqs[c] with coupling := .detached, ctx := kind, record := t.seqs[c].record } := by
    unfold restoredRun
    rw [hRecordT, hRecordU]
  refine ⟨t, by rw [hExec, ht], ?_, hCtxT, fun hNone => ?_, fun hNot => ?_, fun hHeld => ?_, fun a ha => ?_, ?_, fun d hd => ?_,
    fun hKind hWas hIdle hEmpty => ?_, fun m l k hIdle hPending hOrders hRun hDetached => ?_,
    fun l g q hKind hWas hAttached hGroup hInject hOwn hq => ⟨fun p hRunMode hEmpty hRun hSeries hMeasurable hPlan hReady => ?_,
      fun m node p k hIdle hPending hOrders hRun hSeries hSettle hReady => ?_⟩⟩
  · rw [ht]
    exact completedAtIntake_completeSlot (fun k hk => by rw [hSlotBytes k hk, hu]) _ _ _
  · rw [hRecordT, if_pos hNone]
  · rw [hRecordT, if_neg hNot]
    exact frameRecord_gives _ _
  · have hHeldW : w.seqs[c].ctx = .held := by
      rw [← hSeqT]
      rcases hCtxT with hCtx | ⟨hNone, -⟩
      · exact hCtx.trans hHeld
      · rw [hHeld] at hNone
        exact nomatch hNone
    rw [hSeqT, hInjector]
    exact hSafeW.held_rests hHeldW
  · have hFarA : a < slotAddr o.slot ∨ slotAddr o.slot + 64 ≤ a := by
      have := slotAddr_bounds o.slot
      unfold inSlots at ha
      omega
    rw [hDone.memory a hFarA, hOutside a ha, hu, takenIn_outside hOffer s hFarA]
  · rw [hDone.fixed, hRestores.fixed, hFixedU]
  · rw [hDone.seqs, hRestores.others d hd, hSeqsU]
  · obtain ⟨hCtx, hInjectors, hHistory⟩ := doRestore_idle (u := u) (c := c) (hModeU.trans hIdle) (hIntakeU.trans hEmpty) hKind
      (by rw [hSeqsU]; exact hWas)
    rw [← hw] at hCtx hInjectors hHistory
    rw [hSeqsU] at hHistory
    refine ⟨by rw [hSeqT, hCtx], ?_, fun hRun => by rw [hSeqT, hHistory hRun]⟩
    rw [hInjector]
    funext l
    rw [hInjectors l]
    unfold injectorOf
    rw [hGroupsU]
  · have hTableU := hSafeU.sound.table
    obtain ⟨hSeq, hOrder⟩ := doRestore_check (kind := kind) hTableU (hModeU.trans hIdle) (hPendingU.trans hPending)
      (hIntakeU.trans hOrders) (by rw [hSeqsU]; exact hRun) (by rw [hSeqsU]; exact hDetached)
    rw [← hw] at hSeq hOrder
    rw [hSeqsU] at hSeq
    rw [hIntakeU, hGroupsU] at hOrder
    rw [hSeqT, hDone.intake, leaderOf_congr hDone.groups]
    exact ⟨hSeq, hOrder⟩
  · have hOwnU : ownInjector u l c := fun x hx => hOwn x (by
      unfold injectorOf at hx ⊢
      rw [← hGroupsU]
      exact hx)
    obtain ⟨hGroupW, hSafetyW, hSeqW⟩ := doRestore_series (u := u) (kind := kind) (hModeU.trans hRunMode) (hIntakeU.trans hEmpty) hKind
      (by rw [hSeqsU]; exact hWas) (by rw [hSeqsU]; exact hAttached) (by rw [hSeqsU]; exact hRun) (by rw [hGroupsU]; exact hGroup) hInject
      hOwnU hSeries hMeasurable (by rw [hNodePlanU]; exact hPlan) (by rw [hPlansU]; exact hReady)
    rw [← hw] at hGroupW hSafetyW hSeqW
    unfold ownGroup at hGroupW
    unfold runCopy at hSeqW
    rw [hPlansU] at hGroupW
    rw [hPlansU, hWiringU, hSeqsU, hRestored, ← hq] at hSeqW
    rw [hSafetyU] at hSafetyW
    exact ⟨by rw [hDone.groups, hGroupW], hSafetyT.trans hSafetyW, hSeqT.trans hSeqW⟩
  · have hOwnU : ownInjector u l c := fun x hx => hOwn x (by
      unfold injectorOf at hx ⊢
      rw [← hGroupsU]
      exact hx)
    have hSpot := doRestore_spot (kind := kind) hSafeU (hModeU.trans hIdle) (hPendingU.trans hPending) hKind (by rw [hSeqsU]; exact hWas)
      (hIntakeU.trans hOrders) (by rw [hSeqsU]; exact hAttached) (by rw [hSeqsU]; exact hRun) (by rw [hGroupsU]; exact hGroup) hInject hOwnU
      hSeries hSettle (by rw [hPlansU]; exact hReady)
    rw [← hw] at hSpot
    have hm : m ≠ o.slot := h.2.2 ⟨m, .spot node p, .running, l, k⟩ (by rw [hOrders]; exact List.mem_singleton_self _)
    have hSafetyW := hSpot.safety
    rw [hSafetyU] at hSafetyW
    refine ⟨hSafetyT.trans hSafetyW, ?_, fun hAgain => ?_, fun hLast => ?_⟩
    · rw [hDone.memory _ (slotAddr_far (Ne.symm hm) (by decide)), hSpot.abandons]
    · obtain ⟨hIntakeW, hGroupW, hSeqW⟩ := hSpot.again hAgain
      unfold runCopy at hSeqW
      rw [hPlansU, hWiringU, hSeqsU, hRestored, ← hq] at hSeqW
      exact ⟨hDone.intake.trans hIntakeW, by rw [hDone.groups, hGroupW], hSeqT.trans hSeqW⟩
    · obtain ⟨hIntakeW, hGroupW, hSeqW, hRefused⟩ := hSpot.last hLast
      rw [hSeqsU, hRestored, ← hq] at hSeqW
      rw [hu] at hRefused
      exact ⟨hDone.intake.trans hIntakeW, by rw [hDone.groups, hGroupW], hSeqT.trans hSeqW,
        spotRefusedTopology_complete hOffer hm hDone hRefused⟩

end Sys2Proof.Machine
end

section
/-! PROOFS. A SELFCHECK granted: its group without an injector, and the reference it drives. -/

namespace Sys2Proof.Machine

/-- The copy of the fixed figures a check runs with (R40). -/
def checkCopy (s : State) (c : Chan) : RunCopy := ⟨selfcheckPlan, none, s.wiring[c].rm, s.wiring[c].rs⟩

theorem sameOrStopped.rests {s t : State} {c : Chan} (h : sameOrStopped c s t) (hRun : s.seqs[c].run = .none)
    (hDetached : s.seqs[c].coupling = .detached) : chanView c t = chanView c s := by
  rcases h with hSame | hStopped
  · exact hSame
  · rw [hStopped]
    refine Prod.ext ?_ (if_neg (by rw [hDetached]; exact fun e => nomatch e))
    show stoppedSeq s.seqs[c] = s.seqs[c]
    unfold stoppedSeq
    rw [hRun, if_neg (by decide)]
    conv_rhs => rw [← show ({ s.seqs[c] with coupling := s.seqs[c].coupling } : Seq) = s.seqs[c] from rfl, hDetached]

section
variable {v : State} {n : SlotId} {c : Chan} {l : GroupId} {g : Group}

/-- What the grant of the one waiting SELFCHECK leaves. -/
structure CheckGranted (v : State) (n : SlotId) (c : Chan) (l : GroupId) (g : Group) (z : State) : Prop where
  frame : z = { v with
    groups := z.groups, seqs := z.seqs, safety := z.safety, park := z.park, attn := z.attn
    intake := [⟨n, .selfcheck c, .running, l, 0⟩]
    mem := (v.mem.write (slotAddr n + 0x12) 2).write (slotAddr n + 0x13) (byteOf l.val) }
  group : z.groups[l] = some { g with series := .order, injector := none, settle := none, waitPlan := false, measurable := false }
  others : ∀ d : Chan, d ≠ c → sameOrStopped d v z
  drives : v.safety[c].verify = none → z.safety[c].reference = true
    ∧ z.seqs[c] = firstHalf v.seqs[c] .selfcheck (some n) (checkCopy v c) .pos
  waits : v.safety[c].verify ≠ none → z.safety[c] = v.safety[c]
    ∧ z.seqs[c] = waitingRun v.seqs[c] .selfcheck (some n) (checkCopy v c)

theorem grant_check (hTable : tableAgrees v) (hMode : v.mode ≠ .parked) (hPending : v.parkedPending = false)
    (hIntake : v.intake = [⟨n, .selfcheck c, .waiting, l, 0⟩]) (hGroup : v.groups[l] = some g)
    (hHealth : v.safety[c].health ≠ .offline) (hConnected : v.safety[c].disconnected = false) (hRun : v.seqs[c].run = .none)
    (hDetached : v.seqs[c].coupling = .detached) : CheckGranted v n c l g (v.grant ⟨n, .selfcheck c, .waiting, l, 0⟩) := by
  obtain ⟨y, hy⟩ : ∃ y : State, y = { v with
      groups := upd v.groups l (some { g with series := .order }), intake := [⟨n, .selfcheck c, .running, l, 0⟩]
      mem := v.mem.write (slotAddr n + 0x12) 2, seqs := upd v.seqs c (v.seqs[c].setUp .selfcheck (some n) (checkCopy v c)) } := ⟨_, rfl⟩
  have hOrder : v.setSeries l .order = { v with groups := upd v.groups l (some { g with series := .order }) } := modGroup_some hGroup _
  have hPasses : selfcheckCheck (v.setSeries l .order) c = none := by
    unfold selfcheckCheck
    rw [hOrder]
    dsimp only
    rw [if_neg hHealth, hConnected, if_neg Bool.false_ne_true]
  have hStart : v.grant ⟨n, .selfcheck c, .waiting, l, 0⟩ = ((y.regroupCore false).detach c).tryReference c := by
    unfold State.grant
    dsimp only
    rw [hPasses]
    unfold State.startCheck
    dsimp only
    rw [hOrder]
    dsimp only
    rw [if_pos hRun]
    refine congrArg (fun x : State => ((x.regroupCore false).detach c).tryReference c) ?_
    have hPhase : ({ v with groups := upd v.groups l (some { g with series := .order }) } : State).setPhase n .running = { v with
        groups := upd v.groups l (some { g with series := .order }), intake := [⟨n, .selfcheck c, .running, l, 0⟩]
        mem := v.mem.write (slotAddr n + 0x12) 2 } := by
      unfold State.setPhase State.modOrder State.poke
      dsimp only
      rw [hIntake]
      exact congrArg (fun x : Order => { v with
        groups := upd v.groups l (some { g with series := .order }), intake := [x], mem := v.mem.write (slotAddr n + 0x12) 2 }) (if_pos rfl)
    rw [hPhase, hy]
    rfl
  have hSeqY : y.seqs[c] = v.seqs[c].setUp .selfcheck (some n) (checkCopy v c) := by
    rw [hy]
    exact upd_same _ _ _
  have hSafetyY : y.safety[c] = v.safety[c] := by rw [hy]
  have hGroupY : y.groups[l] = some { g with series := .order } := by
    rw [hy]
    exact upd_same _ _ _
  have hTableY : tableAgrees y := fun m => by
    have hHere := hTable m
    rw [hy]
    dsimp only
    by_cases hm : l = m
    · subst hm
      rw [hGroup] at hHere
      rw [upd_same]
      exact hHere
    · rw [upd_other _ _ _ _ hm]
      exact hHere
  have hLeads : leaderOf y l = l := leaderOf_leader hTableY hGroupY
  have hChecked := regroupCore_check (m := n) (c := c) (l := l) (k := 0) hTableY (by rw [hy]; exact hMode) (by rw [hy]; exact hPending)
    (by rw [hy])
  have hGroupZ := hChecked.group _ hGroupY rfl
  have hFrameZ := hChecked.frame
  rw [hLeads] at hFrameZ
  have hChans := hChecked.chans
  have hDetachedY : y.seqs[c].coupling = .detached := by
    rw [hSeqY]
    exact hDetached
  have hSeqZ : (y.regroupCore false).seqs[c] = y.seqs[c] := (hChans c).checks (by rw [hSeqY]; rfl) hDetachedY
  have hSafetyZ : (y.regroupCore false).safety[c] = v.safety[c] := by
    rw [← hSafetyY]
    rcases hChans c with hSame | hStopped
    · exact congrArg Prod.snd hSame
    · refine (congrArg Prod.snd hStopped).trans (if_neg ?_)
      rw [hDetachedY]
      exact fun e => nomatch e
  have hOthers (d : Chan) (hd : d ≠ c) : sameOrStopped d v (y.regroupCore false) := by
    have hSeqD : y.seqs[d] = v.seqs[d] := by
      rw [hy]
      exact upd_other _ _ _ _ (Ne.symm hd)
    have hSafetyD : y.safety[d] = v.safety[d] := by rw [hy]
    have hStep := hChans d
    unfold sameOrStopped chanView at hStep ⊢
    rw [hSeqD, hSafetyD] at hStep
    exact hStep
  rw [hStart]
  generalize y.regroupCore false = z at hGroupZ hFrameZ hSeqZ hSafetyZ hOthers
  rw [detach_detached (by rw [hSeqZ, hDetachedY]; exact fun e => nomatch e)]
  have hWaits : waitsForReference z c := by
    unfold waitsForReference
    rw [hSeqZ, hSeqY]
    exact ⟨rfl, rfl, hDetached⟩
  by_cases hVerify : v.safety[c].verify = none
  · rw [tryReference_waiting (by rw [hSafetyZ]; exact hVerify) hWaits]
    refine ⟨?_, hGroupZ, fun d hd => ?_, fun _ => ⟨?_, ?_⟩, fun h => absurd hVerify h⟩
    · unfold State.setSafety State.setSeq
      dsimp only
      generalize z.groups = groups, z.seqs = seqs, z.safety = safety, z.park = park, z.attn = attn at hFrameZ ⊢
      rw [hFrameZ, hy]
    · have hStep := hOthers d hd
      unfold sameOrStopped chanView at hStep ⊢
      have hSeqD : (upd z.seqs c (halfBegun z.seqs[c] .pos))[d] = z.seqs[d] := upd_other _ _ _ _ (Ne.symm hd)
      have hSafetyD : (upd z.safety c { z.safety[c] with reference := true })[d] = z.safety[d] := upd_other _ _ _ _ (Ne.symm hd)
      rw [← hSeqD, ← hSafetyD] at hStep
      exact hStep
    · show (upd z.safety c _)[c].reference = true
      rw [upd_same]
    · show (upd z.seqs c _)[c] = _
      rw [upd_same, hSeqZ, hSeqY]
      rfl
  · have hNot : z.tryReference c = z := if_neg fun h => hVerify (by
      rw [← hSafetyZ]
      exact h.2.2.2)
    rw [hNot]
    refine ⟨?_, hGroupZ, hOthers, fun h => absurd h hVerify, fun _ => ⟨hSafetyZ, ?_⟩⟩
    · generalize z.groups = groups, z.seqs = seqs, z.safety = safety, z.park = park, z.attn = attn at hFrameZ ⊢
      rw [hFrameZ, hy]
    · rw [hSeqZ, hSeqY]
      rfl

/-! ### After the grant -/

theorem grantable_check {x : Order} (hSole : SoleWaits v x) (hJob : x.job = .selfcheck c) (hGroup : v.groups[x.group] = some g)
    (hSeries : g.series = .none) (hSettle : g.settle = none) (hFree : checking v c = false) (hPending : v.parkedPending = false)
    (hMode : v.mode = .idle ∨ v.mode = .run) : grantable v x = true := by
  have hStop : v.mode ≠ .safeStop ∧ v.mode ≠ .parked := by
    rcases hMode with h | h <;> rw [h] <;> decide
  unfold grantable awaitsCheck
  rw [hGroup, hJob]
  dsimp only
  rw [hSole.front, hSeries, hSettle, hFree, hPending]
  simp [hStop]

/-- The scheduler after a grant, in IDLE and in RUN: the other groups' series start, and what does not run is detached. -/
theorem SoleWaits.granted_follows {x : Order} (hSole : SoleWaits v x) (hGrant : grantable v x = true)
    (hIntake : (v.grant x).intake = runningNow v.intake x.slot) (hModeZ : (v.grant x).mode = v.mode) (hMode : v.mode = .idle ∨ v.mode = .run)
    (hBusy : startable (v.grant x) l = false) : v.schedule = { v.grant x with
        groups := v.schedule.groups, seqs := v.schedule.seqs, safety := v.schedule.safety }
      ∧ v.schedule.groups[l] = (v.grant x).groups[l]
      ∧ ∀ d : Chan, (∀ m : GroupId, injectorOf (v.grant x) m ≠ some d) →
          ((v.grant x).seqs[d].run = .none → (v.grant x).seqs[d].coupling = .detached) →
          v.schedule.seqs[d] = (v.grant x).seqs[d] ∧ v.schedule.safety[d] = (v.grant x).safety[d] := by
  rcases hMode with hIdle | hRun
  · have hEnd := hSole.granted_rest hGrant rfl hIntake (by rw [hModeZ, hIdle]; decide) fun h => by
      rw [hModeZ, hIdle] at h
      exact nomatch h
    rw [hEnd]
    generalize v.grant x = z
    have hFrame := detachIdle_frame z
    have hGroups : z.detachIdle.groups = z.groups := (congrArg State.groups hFrame :)
    refine ⟨?_, by rw [hGroups], fun d _ hRest => ?_⟩
    · rw [hGroups]
      exact hFrame
    · obtain ⟨hSeq, hSafety⟩ := detachIdle_chan z d
      exact ⟨hSeq.trans (restedSeq_self hRest), hSafety.trans (restedSafety_self hRest _)⟩
  · have hEnd : v.schedule = (v.grant x).startAll.detachIdle := hSole.granted_run hGrant rfl hIntake (hModeZ.trans hRun)
    generalize v.schedule = t at hEnd ⊢
    generalize v.grant x = z at hEnd hBusy ⊢
    refine ⟨startAll_frame (v := z) hEnd, ?_, fun d hNone hRest => (startAll_leaves (v := z) hEnd hBusy (fun m _ => hNone m) hRest).2⟩
    have hFrame := detachIdle_frame z.startAll
    have hGroups : z.startAll.detachIdle.groups = z.startAll.groups := (congrArg State.groups hFrame :)
    rw [hEnd, hGroups]
    exact startAll_group hBusy

/-- The scheduler with one waiting SELFCHECK that it grants. -/
theorem schedule_check (hSound : Sound v) (hMode : v.mode = .idle ∨ v.mode = .run) (hPending : v.parkedPending = false)
    (hIntake : v.intake = [⟨n, .selfcheck c, .waiting, l, 0⟩]) (hGroup : v.groups[l] = some g) (hSeries : g.series = .none)
    (hSettle : g.settle = none) (hHealth : v.safety[c].health ≠ .offline) (hConnected : v.safety[c].disconnected = false)
    (hRun : v.seqs[c].run = .none) (hDetached : v.seqs[c].coupling = .detached) :
    CheckGranted v n c l g (v.grant ⟨n, .selfcheck c, .waiting, l, 0⟩)
      ∧ v.schedule = { v.grant ⟨n, .selfcheck c, .waiting, l, 0⟩ with
          groups := v.schedule.groups, seqs := v.schedule.seqs, safety := v.schedule.safety }
      ∧ v.schedule.groups[l] = some { g with series := .order, injector := none, settle := none, waitPlan := false, measurable := false }
      ∧ (v.safety[c].verify = none → v.schedule.safety[c].reference = true
          ∧ v.schedule.seqs[c] = firstHalf v.seqs[c] .selfcheck (some n) (checkCopy v c) .pos)
      ∧ (v.safety[c].verify ≠ none → v.schedule.safety[c] = v.safety[c]
          ∧ v.schedule.seqs[c] = waitingRun v.seqs[c] .selfcheck (some n) (checkCopy v c))
      ∧ ∀ d : Chan, d ≠ c → wiredInto v d g.members = true → v.seqs[d].run = .none → v.seqs[d].coupling = .detached →
          v.schedule.seqs[d] = v.seqs[d] ∧ v.schedule.safety[d] = v.safety[d] := by
  have hSole : SoleWaits v ⟨n, .selfcheck c, .waiting, l, 0⟩ :=
    ⟨by rw [hIntake]; exact List.mem_singleton_self _, rfl, fun x hx _ => by rw [hIntake] at hx; exact List.mem_singleton.mp hx⟩
  have hFree : checking v c = false := by
    unfold checking
    rw [hIntake]
    simp
  have hGrantable := grantable_check hSole rfl hGroup hSeries hSettle hFree hPending hMode
  have hNotStop : v.mode ≠ .safeStop := by rcases hMode with h | h <;> rw [h] <;> decide
  have hNotParked : v.mode ≠ .parked := by rcases hMode with h | h <;> rw [h] <;> decide
  have hGranted := grant_check hSound.table hNotParked hPending hIntake hGroup hHealth hConnected hRun hDetached
  have hSoundZ := (Working.grant v ⟨n, .selfcheck c, .waiting, l, 0⟩ hNotStop hSole.mem).sound hSound
  have hIntakeZ : (v.grant ⟨n, .selfcheck c, .waiting, l, 0⟩).intake = [⟨n, .selfcheck c, .running, l, 0⟩] :=
    (congrArg State.intake hGranted.frame :)
  have hModeZ : (v.grant ⟨n, .selfcheck c, .waiting, l, 0⟩).mode = v.mode := (congrArg State.mode hGranted.frame :)
  have hWiringZ : (v.grant ⟨n, .selfcheck c, .waiting, l, 0⟩).wiring = v.wiring := (congrArg State.wiring hGranted.frame :)
  have hBusy : startable (v.grant ⟨n, .selfcheck c, .waiting, l, 0⟩) l = false := by
    unfold startable
    rw [hGranted.group]
    simp
  obtain ⟨hFrame, hGroupT, hChans⟩ := hSole.granted_follows hGrantable (l := l) (by
    rw [hIntakeZ, hIntake]
    exact congrArg (fun o => [o]) (if_pos rfl).symm) hModeZ hMode hBusy
  generalize v.grant ⟨n, .selfcheck c, .waiting, l, 0⟩ = z at *
  have hNotC (m : GroupId) : injectorOf z m ≠ some c := fun hInject => by
    obtain ⟨-, -, -, hUnchecked, -⟩ := hSoundZ.injectors m c hInject
    unfold checking at hUnchecked
    rw [hIntakeZ] at hUnchecked
    simp at hUnchecked
  have hNotD (d : Chan) (hWired : wiredInto v d g.members = true) (m : GroupId) : injectorOf z m ≠ some d := fun hInject => by
    have hHere : wiredInto z d (membersOf z l) = true := by
      unfold membersOf
      rw [hGranted.group]
      unfold wiredInto at hWired ⊢
      rw [hWiringZ]
      exact hWired
    have hSame : m = l := hSoundZ.table.wired_unique (hSoundZ.injectors m d hInject).1 hHere
    rw [hSame, injectorOf_some hGranted.group] at hInject
    exact nomatch hInject
  refine ⟨hGranted, hFrame, hGroupT.trans hGranted.group, fun hVerify => ?_, fun hVerify => ?_, fun d hd hWired hRunD hDetachedD => ?_⟩
  · obtain ⟨hReference, hSeq⟩ := hGranted.drives hVerify
    obtain ⟨hSeqT, hSafetyT⟩ := hChans c hNotC (by
      rw [hSeq]
      exact fun e => nomatch e)
    rw [hSeqT, hSafetyT]
    exact ⟨hReference, hSeq⟩
  · obtain ⟨hSafety, hSeq⟩ := hGranted.waits hVerify
    obtain ⟨hSeqT, hSafetyT⟩ := hChans c hNotC (by
      rw [hSeq]
      exact fun e => nomatch e)
    rw [hSeqT, hSafetyT]
    exact ⟨hSafety, hSeq⟩
  · have hStays := (hGranted.others d hd).rests hRunD hDetachedD
    obtain ⟨hSeqD, hSafetyD⟩ : z.seqs[d] = v.seqs[d] ∧ z.safety[d] = v.safety[d] := ⟨congrArg Prod.fst hStays, congrArg Prod.snd hStays⟩
    obtain ⟨hSeqT, hSafetyT⟩ := hChans d (hNotD d hWired) fun _ => by
      rw [hSeqD]
      exact hDetachedD
    exact ⟨hSeqT.trans hSeqD, hSafetyT.trans hSafetyD⟩

end

end Sys2Proof.Machine
end

section
/-! PROOFS. A SELFCHECK with no other order, in IDLE and in RUN. -/

namespace Sys2Proof.Machine

section
variable {n : SlotId} {c : Chan} {node : NodeId} {l : GroupId} {o : Offer} {s : State}

theorem selfcheckOffer_slot (h : offerOf (.selfcheck n (byteOf c.val)) = some o) : o.slot = n := by
  cases h
  rfl

/-- A SELFCHECK that passes the checks of its intake. -/
theorem exec_selfcheck (hOffer : offerOf (.selfcheck n (byteOf c.val)) = some o) (h : offerable s o) (hMode : s.mode ≠ .safeStop)
    (hWired : s.wiring[c].wiredNode = some node) (hLeader : leaderOf s node = l) (hHealth : s.safety[c].health ≠ .offline)
    (hConnected : s.safety[c].disconnected = false) :
    exec (.selfcheck n (byteOf c.val)) s = .next (s.enlisted o (.selfcheck c) l).schedule := by
  have hSpells : o.kind = .selfcheck ∧ o.target = byteOf c.val := by
    cases hOffer
    exact ⟨rfl, rfl⟩
  have hTarget := (takenIn_target s o).trans hSpells.2
  have hKind := takenIn_kind s o
  rw [hSpells.1] at hKind
  have hModeTaken : (s.takenIn o).mode ≠ .safeStop := by
    rw [takenIn_mode]
    exact hMode
  have hWiringTaken : (s.takenIn o).wiring = s.wiring := (takenIn_reads s o).2.2.2
  have hCheck : selfcheckCheck (s.takenIn o) c = none := by
    unfold selfcheckCheck
    rw [takenIn_safety, if_neg hHealth, hConnected, if_neg Bool.false_ne_true]
  rw [exec_offerable hOffer h, ← enlist_takenIn hLeader]
  generalize s.takenIn o = u at hTarget hKind hModeTaken hWiringTaken hCheck ⊢
  rw [carryOut_kind hModeTaken hKind]
  unfold State.carryKind State.conclude
  dsimp only
  rw [takeSelfcheck_checked hTarget (by rw [hWiringTaken]; exact hWired), hCheck]

/-- The state a waiting order stands in is safe, and measures what the offer's port left. -/
theorem enlisted_safe (hLeader : leaderOf s node = l) (h : offerable s o) (hSafe : Safe s) (job : Job) : Safe (s.enlisted o job l) := by
  rw [← enlist_takenIn hLeader]
  refine (hSafe.takenIn h).enlist o.slot job node ⟨?_, fun x hx => h.2.2 x (by rwa [takenIn_intake] at hx)⟩
  rw [takenIn_eq]
  exact upd_same _ _ _

theorem enlisted_measuring {i : Instr} (hOffer : offerOf i = some o) (s : State) (job : Job) (l : GroupId) :
    Measuring (afterOffer s o) (s.enlisted o job l) where
  fixed := rfl
  mode := Iff.rfl
  pending := fun _ h => h
  done := fun _ h => h
  calm := fun h => ⟨rfl, h⟩
  memory := fun a ha => by
    refine enlisted_outside hOffer s job l ?_
    have hBounds := slotAddr_bounds o.slot
    unfold inSlots at ha
    omega
  canonical := fun h => Memory.wf_write _ _ _ (Memory.wf_write _ _ _ (takenIn_canonical s o h))
  chan := fun c => ChanStep.refl _ _ _

/-- The slot of an order that runs at once, its group written again by the regroup that its run brings. -/
theorem enlisted_checked {t : State} {job : Job} (hSlots : t.slots = upd s.slots o.slot .taken)
    (hMem : t.mem = ((s.enlisted o job l).mem.write (slotAddr o.slot + 0x12) 2).write (slotAddr o.slot + 0x13) (byteOf l.val)) :
    takenAtIntake s t o .running l := by
  refine takenAtIntake_of (by rw [hSlots]; exact upd_same _ _ _) fun k hk => ?_
  rw [hMem]
  unfold State.enlisted
  dsimp only
  split_ifs with hProgress hGroup
  · subst hProgress
    rw [Memory.read_write_other _ _ _ _ (by omega), Memory.read_write_same]
    rfl
  · subst hGroup
    rw [Memory.read_write_same]
  · rw [Memory.read_write_other _ _ _ _ (by omega), Memory.read_write_other _ _ _ _ (by omega),
      Memory.read_write_other _ _ _ _ (by omega), Memory.read_write_other _ _ _ _ (by omega)]

/-- A channel wired to a member of a safe part's group is wired into that group. -/
theorem wiredInto_leader {s : State} (hTable : tableAgrees s) {g : Group} (hWired : s.wiring[c].wiredNode = some node)
    (hLeader : leaderOf s node = l) (hGroup : s.groups[l] = some g) : wiredInto s c g.members = true := by
  obtain ⟨g', hGroup', hMember⟩ := leaderOf_leads hTable hLeader
  obtain rfl := Option.some.inj (hGroup.symm.trans hGroup')
  unfold wiredInto
  rw [hWired]
  exact hMember

/-- What the host finds of a SELFCHECK that its group's measurement is given to, where it was taken from a state `v`. -/
structure CheckTaken (s v : State) (o : Offer) (c : Chan) (l : GroupId) (g : Group) (t : State) : Prop where
  slot : takenAtIntake s t o .running l
  intake : t.intake = [⟨o.slot, .selfcheck c, .running, l, 0⟩]
  group : t.groups[l] = some { g with series := .order, injector := none, settle := none, waitPlan := false, measurable := false }
  drives : v.safety[c].verify = none → t.safety[c].reference = true
    ∧ t.seqs[c] = firstHalf v.seqs[c] .selfcheck (some o.slot) (checkCopy v c) .pos
  waits : v.safety[c].verify ≠ none → t.safety[c] = v.safety[c]
    ∧ t.seqs[c] = waitingRun v.seqs[c] .selfcheck (some o.slot) (checkCopy v c)
  rests : ∀ d : Chan, d ≠ c → wiredInto v d g.members = true → v.seqs[d].run = .none → v.seqs[d].coupling = .detached →
    t.seqs[d] = v.seqs[d] ∧ t.safety[d] = v.safety[d]

/-- The check's grant from a state that differs from the enlisted one in groups and channels alone. -/
theorem schedule_checkTaken {v : State} {g : Group} (hFrame : v = { s.enlisted o (.selfcheck c) l with groups := v.groups, seqs := v.seqs })
    (hSound : Sound v) (hIntake : s.intake = []) (hMode : s.mode = .idle ∨ s.mode = .run) (hPending : s.parkedPending = false)
    (hGroup : v.groups[l] = some g) (hSeries : g.series = .none) (hSettle : g.settle = none) (hHealth : s.safety[c].health ≠ .offline)
    (hConnected : s.safety[c].disconnected = false) (hRun : v.seqs[c].run = .none) (hDetached : v.seqs[c].coupling = .detached) :
    CheckTaken s v o c l g v.schedule := by
  have hModeV : v.mode = s.mode := (congrArg State.mode hFrame :)
  have hPendingV : v.parkedPending = s.parkedPending := (congrArg State.parkedPending hFrame :)
  have hSafetyV : v.safety = s.safety := (congrArg State.safety hFrame :)
  have hSlotsV : v.slots = upd s.slots o.slot .taken := (congrArg State.slots hFrame :)
  have hMemV : v.mem = (s.enlisted o (.selfcheck c) l).mem := (congrArg State.mem hFrame :)
  have hIntakeV : v.intake = [⟨o.slot, .selfcheck c, .waiting, l, 0⟩] := by
    refine (congrArg State.intake hFrame :).trans ?_
    unfold State.enlisted
    rw [hIntake]
    rfl
  obtain ⟨hGranted, hFrameT, hGroupT, hDrives, hWaits, hRests⟩ := schedule_check hSound (by rw [hModeV]; exact hMode) (hPendingV.trans hPending)
    hIntakeV hGroup hSeries hSettle (by rw [hSafetyV]; exact hHealth) (by rw [hSafetyV]; exact hConnected) hRun hDetached
  have hFrameZ := hGranted.frame
  generalize v.grant ⟨o.slot, .selfcheck c, .waiting, l, 0⟩ = z at hFrameT hFrameZ
  have hSlotsZ : z.slots = v.slots := (congrArg State.slots hFrameZ :)
  have hMemZ : z.mem = (v.mem.write (slotAddr o.slot + 0x12) 2).write (slotAddr o.slot + 0x13) (byteOf l.val) := (congrArg State.mem hFrameZ :)
  have hIntakeZ : z.intake = [⟨o.slot, .selfcheck c, .running, l, 0⟩] := (congrArg State.intake hFrameZ :)
  have hSlotsT : v.schedule.slots = z.slots := (congrArg State.slots hFrameT :)
  have hMemT : v.schedule.mem = z.mem := (congrArg State.mem hFrameT :)
  have hIntakeT : v.schedule.intake = z.intake := (congrArg State.intake hFrameT :)
  exact ⟨enlisted_checked (job := .selfcheck c) (by rw [hSlotsT, hSlotsZ, hSlotsV]) (by rw [hMemT, hMemZ, hMemV]), hIntakeT.trans hIntakeZ,
    hGroupT, hDrives, hWaits, hRests⟩

end

/-- Settles O30: the check alone waits, and its group's series decides what the first decisions do with it. -/
theorem selfcheckIsTakenIn : Obligations.SelfcheckIsTakenIn := by
  unfold Obligations.SelfcheckIsTakenIn
  refine ⟨fun n c node l g o s hOffer h hSafe hRest hPending hWired hLeader hGroup hSeries hSettle hRun hHealth hConnected => ?_,
    fun n c d node l g o s hOffer h hSafe hMode hPending hIntake hWired hLeader hGroup hSeries hInject hRun hHealth hConnected => ?_⟩
  · obtain rfl := selfcheckOffer_slot hOffer
    have hSafeV := enlisted_safe hLeader h hSafe (.selfcheck c)
    have hTaken := schedule_checkTaken (v := s.enlisted o (.selfcheck c) l) (g := g) rfl hSafeV.sound hRest.2.1 (.inl hRest.1) hPending hGroup
      hSeries hSettle hHealth hConnected hRun (hRest.2.2 c hRun)
    have hMeasuring := (enlisted_measuring hOffer s (.selfcheck c) l).trans (Working.schedule (s.enlisted o (.selfcheck c) l)).measuring
    have hExec := exec_selfcheck hOffer h (by rw [hRest.1]; decide) hWired hLeader hHealth hConnected
    refine ⟨_, hExec, hTaken.slot, hTaken.intake, injectorOf_some hTaken.group, ?_, ?_, hTaken.drives, hTaken.waits, rfl, rfl, rfl, rfl, rfl,
      hMeasuring⟩
    · rw [hTaken.group]
      rfl
    · rw [hTaken.group]
      rfl
  · obtain rfl := selfcheckOffer_slot hOffer
    have hInjects : injectorOf s l = some d := (injectorOf_some hGroup).trans hInject
    have hOwn : ownInjector s l d := hSafe.sound.ownInjector hInjects
    have hWiredC := wiredInto_leader hSafe.sound.table hWired hLeader hGroup
    have hMembers : membersOf s l = g.members := by
      unfold membersOf
      rw [hGroup]
    have hNotElse (hcd : c ≠ d) (m : GroupId) (hm : injectorOf s m = some c) : False := by
      have hSame : m = l := hSafe.injects_wired hm (by rw [hMembers]; exact hWiredC)
      rw [hSame, hInjects] at hm
      exact hcd (Option.some.inj hm).symm
    have hRests (hcd : c ≠ d) : s.seqs[c].coupling = .detached := by
      rcases coupling_cases s.seqs[c] with hAttached | hDetached
      · obtain ⟨m, hm⟩ := hSafe.sound.attached c hAttached
        exact (hNotElse hcd m hm).elim
      · exact hDetached
    have hMeasuring := (enlisted_measuring hOffer s (.selfcheck c) l).trans (Working.schedule (s.enlisted o (.selfcheck c) l)).measuring
    have hExec := exec_selfcheck hOffer h (by rw [hMode]; decide) hWired hLeader hHealth hConnected
    refine ⟨_, hExec, hMeasuring, fun hPhase => ?_, fun hPhase hDetached hSettle hOther => ?_⟩
    · obtain ⟨t, ht, hFrame, hGroupT, hSeqT, hSafetyT, hOthers⟩ := order_stops_run (o := o) (job := .selfcheck c) hMode hIntake hGroup hSeries
        hInject hOwn hRun hPhase
      rw [ht]
      refine ⟨enlisted_waits (job := .selfcheck c) (congrArg State.slots hFrame :) (congrArg State.mem hFrame :), ?_, hGroupT, hSeqT, hSafetyT, ?_⟩
      · refine (congrArg State.intake hFrame :).trans ?_
        unfold State.enlisted
        rw [hIntake]
        rfl
      · by_cases hcd : c = d
        · rw [hcd]
          exact hSafetyT
        · exact hOthers c hcd (hNotElse hcd) (hRests hcd)
    · obtain ⟨w, hAsked, hAsk, hWorking⟩ := order_asks_waiting (o := o) (job := .selfcheck c) hIntake hGroup hSeries hInject hRun hPhase
      have hSoundW := hWorking.sound (enlisted_safe hLeader h hSafe (.selfcheck c)).sound
      have hSeqD : w.seqs[d] = runOver s.seqs[d] := by
        rw [hAsk]
        exact upd_same _ _ _
      have hSeqC : w.seqs[c].run = .none ∧ w.seqs[c].coupling = .detached ∧ (w.seqs[c] = s.seqs[c] ∨ w.seqs[c] = runOver s.seqs[c]) := by
        by_cases hcd : c = d
        · rw [hcd, hSeqD]
          exact ⟨rfl, hDetached, .inr rfl⟩
        · have hSame : w.seqs[c] = s.seqs[c] := by
            rw [hAsk]
            exact upd_other _ _ _ _ (Ne.symm hcd)
          rw [hSame]
          exact ⟨hOther.resolve_left hcd, hRests hcd, .inl rfl⟩
      obtain ⟨hRunC, hDetachedC, hSameC⟩ := hSeqC
      have hFirst (pol : Polarity) : firstHalf w.seqs[c] .selfcheck (some o.slot) (checkCopy s c) pol =
          firstHalf s.seqs[c] .selfcheck (some o.slot) (checkCopy s c) pol := by
        rcases hSameC with e | e
        · rw [e]
        · rw [e]
          rfl
      have hWaitsRun : waitingRun w.seqs[c] .selfcheck (some o.slot) (checkCopy s c) =
          waitingRun s.seqs[c] .selfcheck (some o.slot) (checkCopy s c) := by
        rcases hSameC with e | e
        · rw [e]
        · rw [e]
          rfl
      have hFrameW : w = { s.enlisted o (.selfcheck c) l with groups := w.groups, seqs := w.seqs } := by
        rw [hAsk]
      have hSafetyW : w.safety = s.safety := (congrArg State.safety hFrameW :)
      have hWiringW : w.wiring = s.wiring := (congrArg State.wiring hFrameW :)
      have hGroupW : w.groups[l] = some (overGroup g) := by
        rw [hAsk]
        exact upd_same _ _ _
      have hCopy : checkCopy w c = checkCopy s c := by
        unfold checkCopy
        rw [hWiringW]
      have hTaken := schedule_checkTaken hFrameW hSoundW hIntake (.inr hMode) hPending hGroupW rfl hSettle hHealth hConnected hRunC hDetachedC
      have hDrives := hTaken.drives
      have hWaits := hTaken.waits
      rw [hSafetyW, hCopy, hFirst] at hDrives
      rw [hSafetyW, hCopy, hWaitsRun] at hWaits
      rw [hAsked]
      refine ⟨hTaken.slot, hTaken.intake, injectorOf_some hTaken.group, ?_, ?_, fun hdc => ?_, hDrives, hWaits⟩
      · rw [hTaken.group]
        rfl
      · rw [hTaken.group]
        rfl
      · have hWiredD : wiredInto w d (overGroup g).members = true := by
          have hHere := (hSafe.sound.injectors l d hInjects).1
          rw [hMembers] at hHere
          unfold wiredInto at hHere ⊢
          rw [hWiringW]
          exact hHere
        obtain ⟨hSeqT, hSafetyT⟩ := hTaken.rests d hdc hWiredD (by rw [hSeqD]; rfl) (by rw [hSeqD]; exact hDetached)
        rw [hSafetyW] at hSafetyT
        exact ⟨hSeqT.trans hSeqD, hSafetyT⟩

end Sys2Proof.Machine
end

section
/-! PROOFS. A write's end kind by kind: what its handling leaves of the port, and the order of the kinds (R162). -/

namespace Sys2Proof.Machine

/-! ### The port while an end is handled -/

/-- What the port keeps of a write transaction whose end waits. -/
def portView (s : State) : Bool × Watch := (s.endPending, s.watch)

/-- The operation leaves what the port keeps. -/
def PortKept (s t : State) : Prop := portView t = portView s

theorem PortKept.refl (s : State) : PortKept s s := rfl

theorem PortKept.trans {s t u : State} (h : PortKept s t) (k : PortKept t u) : PortKept s u := Eq.trans k h

theorem PortKept.fixed {s t : State} (h : t.fixed = s.fixed) : PortKept s t :=
  Prod.ext (congrArg State.endPending h :) (congrArg State.watch h :)

theorem PortKept.working {s t : State} (w : Working s t) : PortKept s t := PortKept.fixed w.measuring.fixed

theorem PortKept.forEach {α : Type} (f : α → State → State) (l : List α) (s : State) (h : ∀ a t, PortKept t (f a t)) :
    PortKept s (forEach l f s) :=
  forEach_keeps (P := PortKept s) f l s (PortKept.refl s) fun a _ t ht => ht.trans (h a t)

theorem PortKept.complete (s : State) (n : SlotId) (final : SlotState) (reason : Byte) (kind : List Byte) :
    PortKept s (s.completeSlot n final reason kind) := by
  rw [completeSlot_eq]
  rfl

theorem PortKept.abortCheck (s : State) (c : Chan) : PortKept s (s.abortCheck c) :=
  PortKept.fixed (abortCheck_left (S := fun _ => True) (fun _ _ => trivial) c).fixed

theorem PortKept.beginDisconnect (s : State) (c : Chan) : PortKept s (s.beginDisconnect c) := by
  rw [beginDisconnect_eq]
  exact PortKept.abortCheck _ c

theorem PortKept.setSeq (s : State) (c : Chan) (q : Seq) : PortKept s (s.setSeq c q) := rfl

theorem PortKept.clearDisconnect (s : State) (c : Chan) : PortKept s (s.clearDisconnect c) := rfl

theorem PortKept.newsChanSafety (s : State) (k : Nat) : PortKept s (s.newsChanSafety k) := rfl

theorem PortKept.raise (s : State) (k : Nat) : PortKept s (s.raise k) := rfl

theorem PortKept.pokes (s : State) (a : Nat) (bytes : List Byte) : PortKept s (s.pokes a bytes) := rfl

theorem PortKept.enlist (s : State) (n : SlotId) (job : Job) (node : NodeId) : PortKept s (s.enlist n job node) := rfl

theorem PortKept.flagged (s : State) (node : NodeId) (flag : Bool) : PortKept s (s.flagged node flag) := rfl

theorem PortKept.reevaluate (s : State) (chans : List Chan) : PortKept s (s.reevaluate chans) := by
  have hBegins := PortKept.forEach (fun c t => State.beginDisconnect t c) (chans.filter fun c => disconnectBegins s c) s
    fun c t => PortKept.beginDisconnect t c
  have hEnds := hBegins.trans (PortKept.forEach (fun c t => State.clearDisconnect t c) (chans.filter fun c => disconnectEnds s c) _
    fun c t => PortKept.clearDisconnect t c)
  have hNews := hEnds.trans (PortKept.forEach (fun c t => State.newsChanSafety t c.val)
    ((chans.filter fun c => disconnectBegins s c) ++ chans.filter fun c => disconnectEnds s c) _ fun c t => PortKept.newsChanSafety t c.val)
  unfold State.reevaluate
  dsimp only
  split_ifs
  · exact hNews
  · exact hNews.trans (PortKept.raise _ 6)

/-! ### The copies and the topology (R1 to R5, R139) -/

/-- Steps 1 to 4 of an end, with their one regroup. -/
def State.takeCopies (s : State) (w : Watch) (running : Nat) : State :=
  if w.regroups then ((((s.clearNews w.news).takePlans w).takeDisconnect w).takeTopology w).regroupFrom running false
  else (((s.clearNews w.news).takePlans w).takeDisconnect w).takeTopology w

theorem handleEnd_eq (s : State) :
    s.handleEnd = ((s.endTaken.takeCopies s.watch (runningCount s)).takeSlots s.watch).takeViews s.watch := rfl

theorem PortKept.takePlans (s : State) (w : Watch) : PortKept s (s.takePlans w) :=
  PortKept.forEach _ _ s fun p t => by
    split
    · unfold State.takePlan
      split_ifs <;> rfl
    · rfl

theorem PortKept.takeDisconnect (s : State) (w : Watch) : PortKept s (s.takeDisconnect w) :=
  (PortKept.forEach (fun (c : Chan) (t : State) =>
    t.setSafety c { t.safety[c] with discMask := readDiscMask t.mem c, discMode := readDiscMode t.mem c }) _ s fun _ _ => rfl).trans
      (PortKept.reevaluate _ _)

theorem PortKept.takeCopies (s : State) (w : Watch) (running : Nat) : PortKept s (s.takeCopies w running) := by
  have hCopies : PortKept s ((((s.clearNews w.news).takePlans w).takeDisconnect w).takeTopology w) :=
    (PortKept.takePlans (s.clearNews w.news) w).trans (PortKept.takeDisconnect _ w)
  unfold State.takeCopies
  split_ifs
  · exact hCopies.trans (PortKept.working (Working.regroupFrom _ running false))
  · exact hCopies

/-! ### The slots (R119, R120) -/

theorem PortKept.takeContext (s : State) (n : SlotId) (kind : OrderKind) : PortKept s (s.takeContext n kind).1 := by
  have hUnhold (t : State) (c : Chan) : PortKept t (t.unhold c) := by
    unfold State.unhold
    split_ifs
    · exact (PortKept.setSeq t c _).trans (PortKept.working (Working.regroup _))
    · exact PortKept.refl t
  unfold State.takeContext
  split
  · exact PortKept.refl s
  · next c _ =>
    cases kind with
    | snapshot => exact (PortKept.pokes s _ _).trans (hUnhold _ c)
    | release => exact hUnhold s c
    | _ =>
      dsimp only
      split
      · exact PortKept.refl s
      · split_ifs
        · exact PortKept.fixed (doRestore_restores s _ _).fixed
        · exact PortKept.refl s

theorem PortKept.carryOut (s : State) (n : SlotId) : PortKept s (s.carryOut n).1 := by
  have hWaits (job : Job) (node : NodeId) : PortKept s (s.enlist n job node).schedule :=
    (PortKept.enlist s n job node).trans (PortKept.working (Working.schedule _))
  have hSpot : PortKept s (s.takeSpot n).1 := by
    unfold State.takeSpot
    split
    · exact PortKept.refl s
    · split
      · exact PortKept.refl s
      · split
        · exact PortKept.refl s
        · dsimp only
          exact hWaits _ _
  have hCheck : PortKept s (s.takeSelfcheck n).1 := by
    unfold State.takeSelfcheck
    split
    · exact PortKept.refl s
    · split
      · exact PortKept.refl s
      · split
        · exact PortKept.refl s
        · dsimp only
          exact hWaits _ _
  have hAck : PortKept s (s.takeAck n).1 := by
    unfold State.takeAck
    split
    · exact PortKept.refl s
    · split_ifs
      · have hRecording := Recording.acknowledge s
        exact Prod.ext (hRecording _ _).endPending_eq (congrArg State.watch (hRecording _ _).fixed :)
      · exact PortKept.refl s
  have hYield (flag : Bool) : PortKept s (s.takeYield n flag).1 := by
    unfold State.takeYield
    split
    · exact PortKept.refl s
    · dsimp only
      rw [setYield_eq]
      exact (PortKept.flagged s _ flag).trans (PortKept.working (Working.regroup _))
  have hClear : PortKept s (s.takeClear n).1 := by
    unfold State.takeClear
    split
    · exact PortKept.refl s
    · next c _ =>
      have hEnd : PortKept s (s.clearDisconnect c).regroup :=
        (PortKept.clearDisconnect s c).trans (PortKept.working (Working.regroup (s.clearDisconnect c)))
      dsimp only
      split_ifs
      · exact PortKept.refl s
      · exact PortKept.refl s
      · dsimp only
        exact hEnd
  unfold State.carryOut
  split_ifs
  · exact PortKept.refl s
  · split
    · exact PortKept.refl s
    · exact hSpot
    · exact hCheck
    · exact PortKept.takeContext s n _
    · exact PortKept.takeContext s n _
    · exact PortKept.takeContext s n _
    · exact hAck
    · exact hYield _
    · exact hYield _
    · exact hClear

theorem PortKept.intakeSlot (s : State) (n : SlotId) : PortKept s (s.intakeSlot n) := by
  have hStamp : PortKept s (s.stampSlot n) := by
    unfold PortKept portView
    rw [stampSlot_eq]
  have hCarry := hStamp.trans (PortKept.carryOut (s.stampSlot n) n)
  unfold State.intakeSlot State.conclude
  generalize (s.stampSlot n).carryOut n = r at hCarry ⊢
  obtain ⟨t, ending⟩ := r
  cases ending with
  | waits => exact hCarry
  | done kind => exact hCarry.trans (PortKept.complete t n .done 0 kind)
  | refused why => exact hCarry.trans (PortKept.complete t n .refused (byteOf why.code) (refusedResult t n))

theorem PortKept.takeSlotState (s : State) (n : SlotId) (b : Byte) : PortKept s (s.takeSlotState n b) := by
  unfold State.takeSlotState
  split
  · exact PortKept.refl s
  · split_ifs
    · exact PortKept.intakeSlot s n
    · rfl
    · rfl

theorem PortKept.takeSlots (s : State) (w : Watch) : PortKept s (s.takeSlots w) :=
  PortKept.forEach _ _ s fun n t => by
    split
    · exact PortKept.takeSlotState t n _
    · exact PortKept.refl t

theorem PortKept.takeViews (s : State) (w : Watch) : PortKept s (s.takeViews w) :=
  PortKept.forEach _ _ s fun c t => by
    split_ifs
    · unfold State.takeView
      split_ifs
      · exact PortKept.refl t
      · exact (PortKept.pokes t _ _).trans (PortKept.setSeq _ c _)
    · exact PortKept.refl t

/-! ### The kinds in turn -/

/-- Where nothing of an end waits, taking it up is nothing. -/
theorem endTaken_taken {s : State} (h : portView s = (false, Watch.empty)) : s.endTaken = s := by
  have hPending : s.endPending = false := congrArg Prod.fst h
  have hWatch : s.watch = Watch.empty := congrArg Prod.snd h
  unfold State.endTaken
  rw [← hPending, ← hWatch]

theorem endsAs_iff (s : State) (w : Watch) (t : State) : endsAs s w t ↔
    t = ((s.endTaken.takeCopies w (runningCount s)).takeSlots w).takeViews w := by
  have hEnd : exec .writeTransactionEnd { s with endPending := true, watch := w } =
      .next (((s.endTaken.takeCopies w (runningCount s)).takeSlots w).takeViews w) := rfl
  unfold endsAs
  rw [hEnd]
  exact ⟨fun h => by injection h with h; exact h.symm, fun h => by rw [h]⟩

theorem takeCopies_unwritten {s : State} {w : Watch} (hNodes : w.nodes = 0) (hLinks : w.links = 0) (hWiring : w.wiring = 0)
    (hPlans : ∀ p : PlanId, w.plans[p] = none) (running : Nat) : s.takeCopies w running = s.clearNews w.news := by
  unfold State.takeCopies
  rw [takePlans_unwritten _ hPlans, takeDisconnect_unwritten _ hWiring, takeTopology_unwritten _ hNodes hLinks hWiring,
    regroups_eq_false hNodes hLinks hWiring hPlans, if_neg Bool.false_ne_true]

theorem allNodes_parts (n : SlotId) :
    allNodes = (allNodes.filter fun k => decide (k < n)) ++ allNodes.filter fun k => !decide (k < n) := by
  revert n
  decide

/-- A list split at a place: the entries below it, then those from it on. -/
theorem forEach_below {f g h : SlotId → State → State} (n : SlotId) (hBelow : ∀ k, k < n → g k = f k ∧ ∀ t, h k t = t)
    (hAbove : ∀ k, ¬ k < n → h k = f k ∧ ∀ t, g k t = t) (s : State) :
    forEach allNodes f s = forEach allNodes h (forEach allNodes g s) := by
  have hLow (list : List SlotId) (hl : ∀ k ∈ list, k < n) (t : State) : forEach list g t = forEach list f t ∧ forEach list h t = t := by
    refine ⟨?_, forEach_unchanged _ _ _ fun k hk => (hBelow k (hl k hk)).2 t⟩
    induction list generalizing t with
    | nil => rfl
    | cons k rest ih =>
      show forEach rest g (g k t) = forEach rest f (f k t)
      rw [(hBelow k (hl k List.mem_cons_self)).1]
      exact ih (fun j hj => hl j (List.mem_cons_of_mem k hj)) _
  have hHigh (list : List SlotId) (hl : ∀ k ∈ list, ¬ k < n) (t : State) : forEach list h t = forEach list f t ∧ forEach list g t = t := by
    refine ⟨?_, forEach_unchanged _ _ _ fun k hk => (hAbove k (hl k hk)).2 t⟩
    induction list generalizing t with
    | nil => rfl
    | cons k rest ih =>
      show forEach rest h (h k t) = forEach rest f (f k t)
      rw [(hAbove k (hl k List.mem_cons_self)).1]
      exact ih (fun j hj => hl j (List.mem_cons_of_mem k hj)) _
  have hIn : ∀ k ∈ allNodes.filter fun k => decide (k < n), k < n := fun k hk => of_decide_eq_true (List.mem_filter.mp hk).2
  have hOut : ∀ k ∈ allNodes.filter fun k => !decide (k < n), ¬ k < n := fun k hk => by
    have hNot := (List.mem_filter.mp hk).2
    rw [Bool.not_eq_true', decide_eq_false_iff_not] at hNot
    exact hNot
  have hAppend (f : SlotId → State → State) (t : State) : forEach allNodes f t =
      forEach (allNodes.filter fun k => !decide (k < n)) f (forEach (allNodes.filter fun k => decide (k < n)) f t) := by
    conv_lhs => rw [allNodes_parts n]
    unfold forEach
    rw [List.foldl_append]
  rw [hAppend f, hAppend g, hAppend h, (hLow _ hIn s).1, (hHigh _ hOut _).2, (hLow _ hIn _).2, (hHigh _ hOut _).1]

theorem takeSlots_split (s : State) (w : Watch) (n : SlotId) : s.takeSlots w =
    (s.takeSlots { Watch.empty with slots := Vector.ofFn fun k => if k < n then w.slots[k] else none }).takeSlots
      { Watch.empty with slots := Vector.ofFn fun k => if k < n then none else w.slots[k] } := by
  refine forEach_below n (fun k hk => ?_) (fun k hk => ?_) s
  · have hLow : (Vector.ofFn fun k : SlotId => if k < n then w.slots[k] else none)[k] = w.slots[k] :=
      (Vector.getElem_ofFn k.isLt).trans (if_pos hk)
    have hHigh : (Vector.ofFn fun k : SlotId => if k < n then none else w.slots[k])[k] = none :=
      (Vector.getElem_ofFn k.isLt).trans (if_pos hk)
    refine ⟨?_, fun t => ?_⟩
    · funext t
      dsimp only
      rw [hLow]
    · dsimp only
      rw [hHigh]
  · have hLow : (Vector.ofFn fun k : SlotId => if k < n then w.slots[k] else none)[k] = none :=
      (Vector.getElem_ofFn k.isLt).trans (if_neg hk)
    have hHigh : (Vector.ofFn fun k : SlotId => if k < n then none else w.slots[k])[k] = w.slots[k] :=
      (Vector.getElem_ofFn k.isLt).trans (if_neg hk)
    refine ⟨?_, fun t => ?_⟩
    · funext t
      dsimp only
      rw [hHigh]
    · dsimp only
      rw [hLow]

end Sys2Proof.Machine
end

section
/-! PROOFS. A write's end: news masks, slot states and live views, and the kinds in R162's order. -/

namespace Sys2Proof.Machine

/-! ### Where nothing of an end waits -/

theorem endsAs_noTopology {s t : State} {w : Watch} (hNodes : w.nodes = 0) (hLinks : w.links = 0) (hWiring : w.wiring = 0)
    (hPlans : ∀ p : PlanId, w.plans[p] = none) (h : endsAs s w t) : t = ((s.endTaken.clearNews w.news).takeSlots w).takeViews w := by
  rw [endsAs_iff, takeCopies_unwritten hNodes hLinks hWiring hPlans] at h
  exact h

theorem endsAs_slots {s t : State} {v : Vector (Option Byte) 8} (hIdle : portView s = (false, Watch.empty))
    (h : endsAs s { Watch.empty with slots := v } t) : t = s.takeSlots { Watch.empty with slots := v } := by
  obtain ⟨w, hw⟩ : ∃ w : Watch, w = { Watch.empty with slots := v } := ⟨_, rfl⟩
  rw [← hw] at h ⊢
  have hAll := endsAs_noTopology (w := w) (by rw [hw]; rfl) (by rw [hw]; rfl) (by rw [hw]; rfl) (by rw [hw]; exact empty_plan) h
  have hNews : w.news = Watch.empty.news := by rw [hw]
  rw [hAll, endTaken_taken hIdle, hNews, clearNews_unwritten, takeViews_unwritten _ (by rw [hw]; exact empty_view)]

theorem endsAs_views {s t : State} {v : Vector (Option Byte) 4} (hIdle : portView s = (false, Watch.empty))
    (h : endsAs s { Watch.empty with views := v } t) : t = s.takeViews { Watch.empty with views := v } := by
  obtain ⟨w, hw⟩ : ∃ w : Watch, w = { Watch.empty with views := v } := ⟨_, rfl⟩
  rw [← hw] at h ⊢
  have hAll := endsAs_noTopology (w := w) (by rw [hw]; rfl) (by rw [hw]; rfl) (by rw [hw]; rfl) (by rw [hw]; exact empty_plan) h
  have hNews : w.news = Watch.empty.news := by rw [hw]
  rw [hAll, endTaken_taken hIdle, hNews, clearNews_unwritten, takeSlots_unwritten _ (by rw [hw]; exact empty_slot)]

theorem endsAs_news {s t : State} {v : News} (h : endsAs s { Watch.empty with news := v } t) : t = s.endTaken.clearNews v := by
  obtain ⟨w, hw⟩ : ∃ w : Watch, w = { Watch.empty with news := v } := ⟨_, rfl⟩
  rw [← hw] at h
  have hAll := endsAs_noTopology (w := w) (by rw [hw]; rfl) (by rw [hw]; rfl) (by rw [hw]; rfl) (by rw [hw]; exact empty_plan) h
  have hNews : w.news = v := by rw [hw]
  rw [hAll, hNews, takeSlots_unwritten _ (by rw [hw]; exact empty_slot), takeViews_unwritten _ (by rw [hw]; exact empty_view)]

theorem endsAs_copies {s t : State} {w : Watch} (hIdle : portView s = (false, Watch.empty))
    (h : endsAs s { w with news := Watch.empty.news, slots := Watch.empty.slots, views := Watch.empty.views } t) (u : State)
    (hu : s = u.clearNews w.news) : t = u.takeCopies w (runningCount s) := by
  obtain ⟨x, hx⟩ : ∃ x : Watch, x = { w with news := Watch.empty.news, slots := Watch.empty.slots, views := Watch.empty.views } := ⟨_, rfl⟩
  rw [← hx, endsAs_iff, endTaken_taken hIdle, takeSlots_unwritten _ (by rw [hx]; exact empty_slot),
    takeViews_unwritten _ (by rw [hx]; exact empty_view)] at h
  have hClear : s.clearNews x.news = u.clearNews w.news := by
    rw [hx]
    exact (clearNews_unwritten s).trans hu
  have hRegroups : x.regroups = w.regroups := by
    rw [hx]
    rfl
  have hPlans (y : State) : y.takePlans x = y.takePlans w := by
    rw [hx]
    rfl
  have hDisconnect (y : State) : y.takeDisconnect x = y.takeDisconnect w := by
    rw [hx]
    rfl
  have hTopology (y : State) : y.takeTopology x = y.takeTopology w := by
    rw [hx]
    rfl
  rw [h]
  unfold State.takeCopies
  rw [hClear, hRegroups, hPlans, hDisconnect, hTopology]

/-- The kinds of one end, each handled by an end of its own. -/
theorem ends_in_turn {s t0 t1 t2 t3 t : State} {w : Watch} {n : SlotId} (h0 : endsAs s { Watch.empty with news := w.news } t0)
    (h1 : endsAs t0 { w with news := Watch.empty.news, slots := Watch.empty.slots, views := Watch.empty.views } t1)
    (h2 : endsAs t1 { Watch.empty with slots := Vector.ofFn fun k => if k < n then w.slots[k] else none } t2)
    (h3 : endsAs t2 { Watch.empty with slots := Vector.ofFn fun k => if k < n then none else w.slots[k] } t3)
    (h4 : endsAs t3 { Watch.empty with views := w.views } t) : endsAs s w t := by
  have e0 := endsAs_news h0
  have hIdle0 : portView t0 = (false, Watch.empty) := by
    rw [e0]
    rfl
  have e1 := endsAs_copies hIdle0 h1 s.endTaken e0
  have hRunning : runningCount t0 = runningCount s := by
    rw [e0]
    rfl
  have hIdle1 : portView t1 = (false, Watch.empty) := by
    rw [e1]
    exact PortKept.takeCopies s.endTaken w _
  have e2 := endsAs_slots hIdle1 h2
  have hIdle2 : portView t2 = (false, Watch.empty) := by
    rw [e2]
    exact Eq.trans (PortKept.takeSlots t1 _) hIdle1
  have e3 := endsAs_slots hIdle2 h3
  have hIdle3 : portView t3 = (false, Watch.empty) := by
    rw [e3]
    exact Eq.trans (PortKept.takeSlots t2 _) hIdle2
  have e4 := endsAs_views hIdle3 h4
  rw [endsAs_iff, e4, e3, e2, ← takeSlots_split, e1, hRunning]
  rfl

end Sys2Proof.Machine
end

section
/-! PROOFS. A slot's state byte written: taken in, freed, or written back; orders refused at their intake. -/

namespace Sys2Proof.Machine

/-! ### An order refused at its intake -/

section
variable {u : State} {n : SlotId} {why : Reason}

theorem stampSlot_param (u : State) (n : SlotId) {k : Nat} (hk : 1 ≤ k ∧ k < 0x10) :
    slotParam (u.stampSlot n).mem n k = u.mem.read (slotAddr n + k) := by
  have hMem : (u.stampSlot n).mem = stampedMemory u.mem n u.intakeSeq := by rw [stampSlot_eq]
  rw [hMem]
  exact stampedMemory_host u.mem n u.intakeSeq hk

/-- A slot's memory once its order is refused. -/
def refusedMemory (u : State) (n : SlotId) (why : Reason) : Memory :=
  completedMemory (stampedMemory u.mem n u.intakeSeq) n .refused (byteOf why.code) (refusedResult (u.stampSlot n) n)

/-- The part after an order's refusal. -/
theorem intakeSlot_refused (hCarry : (u.stampSlot n).carryOut n = (u.stampSlot n, .refused why)) : u.intakeSlot n = { u with
    slots := upd u.slots n .refused, mem := refusedMemory u n why, intakeSeq := u.intakeSeq + 1
    intake := u.intake.filter (fun o => o.slot ≠ n)
    news := { u.news with done := u.news.done ||| bit8 n.val }, attn := u.attn.raise 4 } := by
  have hTwice : upd (upd u.slots n .taken) n .refused = upd u.slots n .refused := by
    unfold upd
    simp
  unfold State.intakeSlot refusedMemory
  rw [hCarry]
  show (u.stampSlot n).completeSlot n .refused (byteOf why.code) (refusedResult (u.stampSlot n) n) = _
  generalize refusedResult (u.stampSlot n) n = kind
  rw [completeSlot_eq, stampSlot_eq]
  dsimp only
  rw [hTwice]

theorem refusedMemory_state (u : State) (n : SlotId) (why : Reason) : (refusedMemory u n why).read (slotAddr n) = 4 :=
  completedMemory_state _ _ _ _ _

theorem refusedMemory_reason (u : State) (n : SlotId) (why : Reason) :
    (refusedMemory u n why).read (slotAddr n + 0x15) = byteOf why.code := completedMemory_reason _ _ _ _ _

theorem refusedMemory_host (u : State) (n : SlotId) (why : Reason) {k : Nat} (hk : 1 ≤ k ∧ k < 0x10) :
    (refusedMemory u n why).read (slotAddr n + k) = u.mem.read (slotAddr n + k) :=
  (completedMemory_kept _ _ _ _ _ (by omega)).trans (stampedMemory_host _ _ _ hk)

theorem refusedMemory_seq (u : State) (n : SlotId) (why : Reason) {k : Nat} (hk : k < 2) :
    (refusedMemory u n why).read (slotAddr n + 0x10 + k) = (le16 u.intakeSeq).getD k 0 := by
  refine Eq.trans ?_ (stampedMemory_seq u.mem n u.intakeSeq hk)
  rw [Nat.add_assoc]
  exact completedMemory_kept _ _ _ _ _ (by omega)

theorem refusedMemory_outside (u : State) (n : SlotId) (why : Reason) {a : Nat} (h : a < slotAddr n ∨ slotAddr n + 64 ≤ a) :
    (refusedMemory u n why).read a = u.mem.read a :=
  (completedMemory_outside _ _ _ _ _ h).trans (stampedMemory_outside _ _ _ h)

end

/-! ### A kind byte that names none of the nine -/

theorem ofByte_none_iff : ∀ b : Byte, OrderKind.ofByte b = none ↔ b.toNat = 0 ∨ 10 ≤ b.toNat := by
  decide

theorem carryOut_badKind {u : State} {n : SlotId} (hMode : u.mode ≠ .safeStop)
    (hKind : OrderKind.ofByte (u.mem.read (slotAddr n + 1)) = none) :
    (u.stampSlot n).carryOut n = (u.stampSlot n, .refused .badKind) ∧ refusedResult (u.stampSlot n) n = [] := by
  have hParam := stampSlot_param u n (k := 1) (by decide)
  have hModeStamp : (u.stampSlot n).mode = u.mode := by rw [stampSlot_eq]
  constructor
  · unfold State.carryOut
    rw [if_neg (by rw [hModeStamp]; exact hMode), hParam, hKind]
  · unfold refusedResult
    rw [hParam, hKind]

/-- The result area of an order of no known kind. -/
theorem refusedMemory_area {u : State} {n : SlotId} {why : Reason} (hNone : refusedResult (u.stampSlot n) n = []) {k : Nat} (hk : k < 48) :
    (refusedMemory u n why).read (slotAddr n + 0x10 + k) = (le16 u.intakeSeq ++ [4, 0xFF, 0, byteOf why.code]).getD k 0 := by
  have hRest (j : Nat) (hj : j < 45) : (stampedMemory u.mem n u.intakeSeq).read (slotAddr n + (0x13 + j)) = if j = 0 then 0xFF else 0 := by
    rw [← Nat.add_assoc]
    exact stampedMemory_rest _ _ _ hj
  have hList : (le16 u.intakeSeq ++ [4, 0xFF, 0, byteOf why.code]).getD k 0 =
      (le16 u.intakeSeq ++ [4, 0xFF, 0, byteOf why.code, 0, 0] ++ []).getD k 0 := by
    obtain h6 | h6 := Nat.lt_or_ge k 6
    · interval_cases k <;> rfl
    · rw [List.getD_eq_default _ _ h6, resultArea_getD _ _ _ hk, if_neg (by omega), if_neg (by omega), if_neg (by omega), if_neg (by omega)]
      simp
  rw [hList, resultArea_getD _ _ _ hk]
  unfold refusedMemory
  rw [hNone]
  split_ifs with h2 hProgress hGroup hReason hZero
  · rw [Nat.add_assoc, completedMemory_kept _ _ _ _ _ (by omega), ← Nat.add_assoc, stampedMemory_seq _ _ _ h2]
  · subst hProgress
    exact completedMemory_progress _ _ _ _ _
  · subst hGroup
    exact (completedMemory_kept _ _ _ _ _ (by decide)).trans (stampedMemory_rest _ _ _ (k := 0) (by decide))
  · subst hReason
    exact completedMemory_reason _ _ _ _ _
  · rw [Nat.add_assoc, completedMemory_kept _ _ _ _ _ (by omega), show 0x10 + k = 0x13 + (k - 3) by omega, hRest _ (by omega),
      if_neg (by omega)]
  · rw [show slotAddr n + 0x10 + k = slotAddr n + 0x18 + (k - 8) by omega, completedMemory_kind _ _ _ _ _ (by omega)]

/-! ### A live view taken (R41) -/

/-- The bytes of a view, with the series count of the group that the channel injects in. -/
theorem viewBytes_gives (s : State) (c : Chan) : ∃ series : BitVec 16,
    viewBytes s c = [byteOf s.seqs[c].coupling.code, byteOf s.seqs[c].run.code, byteOf s.seqs[c].phase.code,
        byteOf s.seqs[c].polarity.code, 0]
      ++ leNat s.seqs[c].windows.length ++ leNat s.seqs[c].elapsed ++ leInt s.seqs[c].lastAverage ++ leNat s.seqs[c].latestUb
      ++ le16 series ++ List.replicate 16 0
    ∧ (∀ (l : GroupId) (g : Group), groupOfInjector s c = some l → s.groups[l] = some g → series = g.seriesCount)
    ∧ (groupOfInjector s c = none → series = 0) := by
  unfold viewBytes
  cases hInjects : groupOfInjector s c with
  | none => exact ⟨0, rfl, (fun _ _ h => nomatch h), fun _ => rfl⟩
  | some l =>
    dsimp only
    cases hGroup : s.groups[l] with
    | none => exact ⟨0, rfl, (fun k g hk hg => by cases hk; exact nomatch hGroup.symm.trans hg), fun h => nomatch h⟩
    | some g =>
      refine ⟨g.seriesCount, rfl, fun k g' hk hg => ?_, fun h => nomatch h⟩
      cases hk
      rw [Option.some.inj (hGroup.symm.trans hg)]

/-- The bytes written show the view. -/
theorem viewShows_viewBytes (s : State) (c : Chan) : viewShows s (s.mem.writeBytes (viewAddr c + 1) (viewBytes s c)) c := by
  obtain ⟨series, hBytes, hSeries, hNone⟩ := viewBytes_gives s c
  obtain ⟨m, hm⟩ : ∃ m, m = s.mem.writeBytes (viewAddr c + 1) (viewBytes s c) := ⟨_, rfl⟩
  have hRead (k : Nat) (hk : 1 ≤ k ∧ k < 32) : m.read (viewAddr c + k) = (viewBytes s c).getD (k - 1) 0 := by
    have hLength : (viewBytes s c).length = 31 := by
      rw [hBytes]
      rfl
    have hAt : viewAddr c + k = viewAddr c + 1 + (k - 1) := by omega
    rw [hm, hAt]
    exact Memory.read_writeBytes_at _ _ _ (by omega)
  have hPair (k : Nat) (v : BitVec 16) (hk : 1 ≤ k ∧ k < 31) (h0 : (viewBytes s c).getD (k - 1) 0 = v.extractLsb' 0 8)
      (h1 : (viewBytes s c).getD k 0 = v.extractLsb' 8 8) : m.read16 (viewAddr c + k) = v.toNat :=
    read16_of_bytes ((hRead k (by omega)).trans h0) ((hRead (k + 1) (by omega)).trans h1)
  rw [← hm]
  rw [hBytes] at hRead hPair
  refine ⟨hRead 1 (by decide), hRead 2 (by decide), hRead 3 (by decide), hRead 4 (by decide),
    (hPair 6 _ (by decide) rfl rfl).trans (BitVec.toNat_ofNat _ _), (hPair 8 _ (by decide) rfl rfl).trans (BitVec.toNat_ofNat _ _),
    hPair 10 _ (by decide) rfl rfl, (hPair 12 _ (by decide) rfl rfl).trans (BitVec.toNat_ofNat _ _), fun l g hl hg => ?_, fun hg => ?_,
    fun k hk => ?_⟩
  · rw [← hSeries l g hl hg]
    exact hPair 14 _ (by decide) rfl rfl
  · rw [hPair 14 series (by decide) rfl rfl, hNone hg]
    rfl
  · rw [hRead k (by omega)]
    obtain rfl | hk := hk
    · rfl
    · obtain ⟨hLow, hHigh⟩ := hk
      interval_cases k <;> rfl

theorem takeViews_one (s : State) {w : Watch} {c : Chan} {b : Byte} (h : w.views = upd Watch.empty.views c (some b)) :
    s.takeViews w = if b = 1 then s.takeView c else s := by
  have hOne : w.views[c] = some b := by
    rw [h]
    exact upd_same _ _ _
  have hOther (d : Chan) (hd : d ≠ c) : w.views[d] ≠ some 1 := by
    rw [h, upd_other _ _ _ _ (Ne.symm hd)]
    exact empty_view d
  unfold State.takeViews
  rw [forEach_single _ c _ _ allChans_nodup (mem_allChans c) fun d _ hd t => if_neg (hOther d hd), hOne]
  by_cases hb : b = 1
  · rw [if_pos hb, if_pos (congrArg some hb)]
  · rw [if_neg hb, if_neg fun e => hb (Option.some.inj e)]

theorem takeView_eq (s : State) (c : Chan) : s.takeView c = if s.seqs[c].viewLatched then s else { s with
    mem := s.mem.writeBytes (viewAddr c + 1) (viewBytes s c)
    seqs := upd s.seqs c { s.seqs[c] with viewLatched := true } } := by
  unfold State.takeView
  generalize viewBytes s c = bytes
  rfl

theorem viewBytes_endTaken (s : State) (c : Chan) : viewBytes s.endTaken c = viewBytes s c := rfl

/-! ### The end of a write, kind by kind -/

/-- Ends that wrote news masks alone, or no end at all (R163). -/
theorem newsEnd_clears : (∀ (s : State) (w : News), s.endPending = true → s.watch = { Watch.empty with news := w } →
    exec .writeTransactionEnd s = .next (s.endTaken.clearNews w))
    ∧ ∀ s : State, s.endPending = false → exec .writeTransactionEnd s = .next s :=
  ⟨fun s w hPending hWatch => by rw [exec_writeTransactionEnd hPending, handleEnd_news s hWatch],
    fun s hPending => by
      have hExec : exec .writeTransactionEnd s = .next (if s.endPending then s.handleEnd else s) := rfl
      rw [hExec, if_neg (by rw [hPending]; decide)]⟩

/-- The end of a write of one view's request byte (R41, R162). -/
theorem viewEnd_shows {s : State} {c : Chan} {b : Byte} (hPending : s.endPending = true)
    (hWatch : s.watch = { Watch.empty with views := upd Watch.empty.views c (some b) }) : ∃ t : State,
    exec .writeTransactionEnd s = .next t
      ∧ (b ≠ 1 ∨ s.seqs[c].viewLatched = true → t = { s with
          endPending := false, watch := Watch.empty })
      ∧ (b = 1 → s.seqs[c].viewLatched = false →
          t = { s with
            endPending := false, watch := Watch.empty, mem := t.mem
            seqs := upd s.seqs c { s.seqs[c] with viewLatched := true } }
          ∧ viewShows s t.mem c ∧ ∀ a, ¬ (viewAddr c < a ∧ a < viewAddr c + 32) → t.mem.read a = s.mem.read a) := by
  have hEnd : s.handleEnd = if b = 1 then s.endTaken.takeView c else s.endTaken := by
    rw [handleEnd_views s hWatch]
    exact takeViews_one _ (by rw [hWatch])
  have hTake : s.endTaken.takeView c = if s.seqs[c].viewLatched then s.endTaken else { s with
      endPending := false, watch := Watch.empty, mem := s.mem.writeBytes (viewAddr c + 1) (viewBytes s c)
      seqs := upd s.seqs c { s.seqs[c] with viewLatched := true } } := by
    rw [takeView_eq, viewBytes_endTaken]
    rfl
  rw [exec_writeTransactionEnd hPending, hEnd]
  refine ⟨_, rfl, fun hNot => ?_, fun hOne hFree => ?_⟩
  · split_ifs with hOne
    · rw [hTake, if_pos (hNot.resolve_left fun h => h hOne)]
      rfl
    · rfl
  · rw [if_pos hOne, hTake, if_neg (by rw [hFree]; decide)]
    have hLength : (viewBytes s c).length = 31 := by
      obtain ⟨series, hBytes, -⟩ := viewBytes_gives s c
      rw [hBytes]
      rfl
    have hShows := viewShows_viewBytes s c
    have hElsewhere (a : Nat) (ha : ¬ (viewAddr c < a ∧ a < viewAddr c + 32)) :
        (s.mem.writeBytes (viewAddr c + 1) (viewBytes s c)).read a = s.mem.read a :=
      Memory.read_writeBytes_other _ _ _ _ (by omega)
    generalize s.mem.writeBytes (viewAddr c + 1) (viewBytes s c) = m at hShows hElsewhere ⊢
    exact ⟨rfl, hShows, hElsewhere⟩

/-- The end of a write of one slot's state byte (R119, R120, R121). -/
theorem slotEnd_taken {s : State} {n : SlotId} {b : Byte} (hPending : s.endPending = true) (hFree : s.slots[n] ≠ .taken)
    (hIntake : ∀ x ∈ s.intake, x.slot ≠ n) (hWatch : s.watch = { Watch.empty with slots := upd Watch.empty.slots n (some b) }) :
    ∃ t : State, exec .writeTransactionEnd s = .next t
      ∧ (b = 0 → t = { s with
          endPending := false, watch := Watch.empty, slots := upd s.slots n .free })
      ∧ (2 ≤ b.toNat → t = { s with
            endPending := false, watch := Watch.empty, mem := t.mem }
          ∧ t.mem.read (slotAddr n) = byteOf s.slots[n].code
          ∧ ∀ a, a ≠ slotAddr n → t.mem.read a = s.mem.read a)
      ∧ (b = 1 → s.mode ≠ .safeStop →
          (s.mem.read (slotAddr n + 1)).toNat = 0 ∨ 10 ≤ (s.mem.read (slotAddr n + 1)).toNat →
          onlySlot { s with
            endPending := false, watch := Watch.empty, intakeSeq := s.intakeSeq + 1 } t n
          ∧ t.slots[n] = .refused ∧ t.mem.read (slotAddr n) = 4
          ∧ (∀ k, 1 ≤ k → k < 0x10 → t.mem.read (slotAddr n + k) = s.mem.read (slotAddr n + k))
          ∧ ∀ k, k < 48 → t.mem.read (slotAddr n + 0x10 + k) =
              (le16 s.intakeSeq ++ [4, 0xFF, 0, byteOf Reason.badKind.code]).getD k 0) := by
  have hEnd : s.handleEnd = s.endTaken.takeSlotState n b := by
    rw [handleEnd_slots s hWatch]
    exact takeSlots_one _ (by rw [hWatch])
  have hTake : s.endTaken.takeSlotState n b = if b = offeredCode then s.endTaken.intakeSlot n
      else if b = 0 then s.endTaken.setSlot n .free else s.endTaken.poke (slotAddr n) (byteOf s.slots[n].code) := by
    unfold State.takeSlotState
    split
    next hTaken => exact absurd hTaken hFree
    next => rfl
  rw [exec_writeTransactionEnd hPending, hEnd, hTake]
  refine ⟨_, rfl, fun hb => ?_, fun hb => ?_, fun hb hMode hKind => ?_⟩
  · subst hb
    rfl
  · rw [if_neg (by rintro rfl; exact absurd hb (by decide)), if_neg (by rintro rfl; exact absurd hb (by decide))]
    exact ⟨rfl, Memory.read_write_same _ _ _, fun a ha => Memory.read_write_other _ _ _ _ ha⟩
  · rw [if_pos (show b = offeredCode from hb)]
    obtain ⟨hCarry, hResult⟩ := carryOut_badKind (u := s.endTaken) hMode ((ofByte_none_iff _).mpr hKind)
    rw [intakeSlot_refused hCarry]
    have hKept : s.intake.filter (fun o => o.slot ≠ n) = s.intake := List.filter_eq_self.mpr fun x hx => decide_eq_true (hIntake x hx)
    have hOutside (a : Nat) (ha : ¬ (slotAddr n ≤ a ∧ a < slotAddr n + 64)) : (refusedMemory s.endTaken n .badKind).read a = s.mem.read a :=
      refusedMemory_outside s.endTaken n .badKind (by omega)
    have hHost (k : Nat) (hLow : 1 ≤ k) (hHigh : k < 0x10) : (refusedMemory s.endTaken n .badKind).read (slotAddr n + k) =
        s.mem.read (slotAddr n + k) := refusedMemory_host s.endTaken n .badKind ⟨hLow, hHigh⟩
    have hState := refusedMemory_state s.endTaken n .badKind
    have hArea (k : Nat) (hk : k < 48) : (refusedMemory s.endTaken n .badKind).read (slotAddr n + 0x10 + k) =
        (le16 s.intakeSeq ++ [4, 0xFF, 0, byteOf Reason.badKind.code]).getD k 0 := refusedMemory_area hResult hk
    generalize refusedMemory s.endTaken n .badKind = m at hOutside hHost hState hArea ⊢
    refine ⟨⟨?_, hOutside⟩, upd_same _ _ _, hState, hHost, hArea⟩
    unfold State.endTaken
    dsimp only
    rw [hKept, upd_same]

end Sys2Proof.Machine
end

section
/-! PROOFS. Several slots of one write in ascending number, and a SPOT that sees what the write before it brought. -/

namespace Sys2Proof.Machine

/-! ### Two slots of one write (R120, R162) -/

theorem two_slots_below {n m : SlotId} (h : n < m) :
    (Vector.ofFn fun k : SlotId => if k < m then (upd (upd Watch.empty.slots n (some 1)) m (some 1))[k] else none)
      = upd Watch.empty.slots n (some 1) := by
  revert n m
  decide

theorem two_slots_above {n m : SlotId} (h : n < m) :
    (Vector.ofFn fun k : SlotId => if k < m then none else (upd (upd Watch.empty.slots n (some 1)) m (some 1))[k])
      = upd Watch.empty.slots m (some 1) := by
  revert n m
  decide

/-- The end of a write that offered two orders takes the lower slot in first. -/
theorem endsAs_twoSlots (s : State) {n m : SlotId} (h : n < m) :
    endsAs s { Watch.empty with slots := upd (upd Watch.empty.slots n (some 1)) m (some 1) }
      ((s.endTaken.takeSlotState n 1).takeSlotState m 1) := by
  obtain ⟨w, hw⟩ : ∃ w : Watch, w = { Watch.empty with slots := upd (upd Watch.empty.slots n (some 1)) m (some 1) } := ⟨_, rfl⟩
  have hSlots : w.slots = upd (upd Watch.empty.slots n (some 1)) m (some 1) := by rw [hw]
  have hTake : s.endTaken.takeSlots w = (s.endTaken.takeSlotState n 1).takeSlotState m 1 := by
    rw [takeSlots_split _ w m, hSlots, two_slots_below h, two_slots_above h, takeSlots_one _ (n := m) (b := 1) rfl,
      takeSlots_one _ (n := n) (b := 1) rfl]
  rw [← hw, endsAs_iff, takeCopies_unwritten (by rw [hw]; rfl) (by rw [hw]; rfl) (by rw [hw]; rfl) (by rw [hw]; exact empty_plan),
    show w.news = Watch.empty.news by rw [hw], clearNews_unwritten, hTake, takeViews_unwritten _ (by rw [hw]; exact empty_view)]

/-- The end of a write that published a plan and offered an order. -/
theorem endsAs_planSlot (s : State) (p : PlanId) (m : SlotId) :
    endsAs s { Watch.empty with
      plans := upd Watch.empty.plans p (some 1), slots := upd Watch.empty.slots m (some 1) }
      (((s.endTaken.takePlan p 1).regroupFrom (runningCount s) false).takeSlotState m 1) := by
  obtain ⟨w, hw⟩ : ∃ w : Watch, w = { Watch.empty with
      plans := upd Watch.empty.plans p (some 1), slots := upd Watch.empty.slots m (some 1) } := ⟨_, rfl⟩
  have hRegroups : w.regroups = true := by
    unfold Watch.regroups
    rw [Bool.or_eq_true, List.any_eq_true]
    exact .inr ⟨p, mem_allPlans p, by rw [hw]; exact (congrArg Option.isSome (upd_same _ _ _)).trans rfl⟩
  rw [← hw, endsAs_iff, takeViews_unwritten _ (by rw [hw]; exact empty_view), takeSlots_one _ (n := m) (b := 1) (by rw [hw])]
  unfold State.takeCopies
  rw [if_pos hRegroups, show w.news = Watch.empty.news by rw [hw], clearNews_unwritten, takePlans_one _ (p := p) (b := 1) (by rw [hw]),
    takeDisconnect_unwritten _ (by rw [hw]; rfl), takeTopology_unwritten _ (by rw [hw]; rfl) (by rw [hw]; rfl) (by rw [hw]; rfl)]

/-! ### Two orders of no known kind -/

theorem takeSlotState_badKind {u : State} {n : SlotId} (hMode : u.mode ≠ .safeStop) (hFree : u.slots[n] ≠ .taken)
    (hKind : OrderKind.ofByte (u.mem.read (slotAddr n + 1)) = none) : u.takeSlotState n 1 = { u with
      slots := upd u.slots n .refused, mem := refusedMemory u n .badKind, intakeSeq := u.intakeSeq + 1
      intake := u.intake.filter (fun o => o.slot ≠ n)
      news := { u.news with done := u.news.done ||| bit8 n.val }, attn := u.attn.raise 4 } :=
  (takeSlotState_offered hFree).trans (intakeSlot_refused (carryOut_badKind hMode hKind).1)

theorem refusedMemory_number (u : State) (n : SlotId) (why : Reason) :
    (refusedMemory u n why).read16 (slotAddr n + 0x10) = u.intakeSeq.toNat :=
  read16_of_bytes (refusedMemory_seq u n why (k := 0) (by decide)) (refusedMemory_seq u n why (k := 1) (by decide))

/-- Intake numbers ascend with the slots of one write (R162). -/
theorem numbers_ascend {s : State} {n m : SlotId} (h : n < m) (hMode : s.mode ≠ .safeStop) (hFreeN : s.slots[n] ≠ .taken)
    (hFreeM : s.slots[m] ≠ .taken) (hKindN : OrderKind.ofByte (s.mem.read (slotAddr n + 1)) = none)
    (hKindM : OrderKind.ofByte (s.mem.read (slotAddr m + 1)) = none) :
    ∃ t : State, endsAs s { Watch.empty with slots := upd (upd Watch.empty.slots n (some 1)) m (some 1) } t
      ∧ t.mem.read16 (slotAddr n + 0x10) = s.intakeSeq.toNat
      ∧ t.mem.read16 (slotAddr m + 0x10) = (s.intakeSeq + 1).toNat ∧ t.intakeSeq = s.intakeSeq + 2
      ∧ t.slots[n] = .refused ∧ t.slots[m] = .refused := by
  have hApart : m ≠ n := (Ne.symm (ne_of_lt h))
  obtain ⟨u, hu⟩ : ∃ u, u = s.endTaken.takeSlotState n 1 := ⟨_, rfl⟩
  have hFirst := hu.trans (takeSlotState_badKind (u := s.endTaken) hMode hFreeN hKindN)
  have hMem : u.mem = refusedMemory s.endTaken n .badKind := by rw [hFirst]
  have hSlots : u.slots = upd s.slots n .refused := by rw [hFirst]; rfl
  have hSeq : u.intakeSeq = s.intakeSeq + 1 := by rw [hFirst]; rfl
  have hModeU : u.mode = s.mode := by rw [hFirst]; rfl
  have hFar (k : Nat) (hk : k < 64) := slotAddr_far (Ne.symm hApart) hk
  have hKindU : OrderKind.ofByte (u.mem.read (slotAddr m + 1)) = none := by
    rw [hMem, refusedMemory_outside s.endTaken n .badKind (hFar 1 (by decide))]
    exact hKindM
  obtain ⟨t, ht⟩ : ∃ t, t = u.takeSlotState m 1 := ⟨_, rfl⟩
  have hSecond := ht.trans (takeSlotState_badKind (hModeU ▸ hMode) (by rw [hSlots, upd_other _ _ _ _ (Ne.symm hApart)]; exact hFreeM) hKindU)
  have hMemT : t.mem = refusedMemory u m .badKind := by rw [hSecond]
  have hSlotsT : t.slots = upd u.slots m .refused := by rw [hSecond]
  have hEnd := endsAs_twoSlots s h
  rw [← hu, ← ht] at hEnd
  have hBack (k : Nat) (hk : k < 64) : t.mem.read (slotAddr n + k) = u.mem.read (slotAddr n + k) := by
    rw [hMemT]
    exact refusedMemory_outside u m .badKind (slotAddr_far hApart hk)
  refine ⟨t, hEnd, ?_, ?_, ?_, ?_, ?_⟩
  · rw [read16_congr (hBack 0x10 (by decide)) (hBack 0x11 (by decide)), hMem]
    exact refusedMemory_number s.endTaken n .badKind
  · rw [hMemT, refusedMemory_number, hSeq]
  · rw [hSecond]
    show u.intakeSeq + 1 = _
    rw [hSeq, BitVec.add_assoc]
    rfl
  · rw [hSlotsT, upd_other _ _ _ _ hApart, hSlots, upd_same]
  · rw [hSlotsT, upd_same]

/-! ### A SPOT of a PASSIVE group -/

theorem carryOut_passive {u : State} {m : SlotId} {node : NodeId} {p : PlanId} {g : Group} (hMode : u.mode ≠ .safeStop)
    (hKind : u.mem.read (slotAddr m + 1) = 1) (hTarget : u.mem.read (slotAddr m + 2) = byteOf node.val)
    (hPlan : u.mem.read (slotAddr m + 3) = byteOf p.val) (hReady : u.plans[p].ready = true)
    (hg : u.groups[leaderOf u node] = some g) (hPassive : g.members &&& u.yields ≠ 0) :
    (u.stampSlot m).carryOut m = (u.stampSlot m, .refused .passive) := by
  have hParam {k : Nat} (hk : 1 ≤ k ∧ k < 0x10) := stampSlot_param u m hk
  obtain ⟨v, hv⟩ : ∃ v, v = u.stampSlot m := ⟨_, rfl⟩
  rw [← hv] at hParam ⊢
  have hFrame := hv.trans (stampSlot_eq u m)
  have hModeV : v.mode = u.mode := by rw [hFrame]
  have hGroups : v.groups = u.groups := by rw [hFrame]
  have hYields : v.yields = u.yields := by rw [hFrame]
  have hPlans : v.plans = u.plans := by rw [hFrame]
  have hState : groupState v (leaderOf v node) = .passive := by
    rw [leaderOf_congr hGroups, groupState_passive (g := g) (by rw [hGroups]; exact hg), hYields]
    unfold membersOf
    rw [hGroups, hg]
    exact hPassive
  rw [carryOut_kind (k := .spot) (by rw [hModeV]; exact hMode) (by rw [hParam (by decide), hKind]; rfl)]
  show v.takeSpot m = _
  rw [takeSpot_checked (node := node) (p := p) ((hParam (by decide)).trans hTarget) ((hParam (by decide)).trans hPlan),
    spotCheck_ready (by rw [hPlans]; exact hReady), hState]

theorem takeSlotState_passive {u : State} {m : SlotId} {node : NodeId} {p : PlanId} {g : Group} (hMode : u.mode ≠ .safeStop)
    (hFree : u.slots[m] ≠ .taken) (hKind : u.mem.read (slotAddr m + 1) = 1) (hTarget : u.mem.read (slotAddr m + 2) = byteOf node.val)
    (hPlan : u.mem.read (slotAddr m + 3) = byteOf p.val) (hReady : u.plans[p].ready = true)
    (hg : u.groups[leaderOf u node] = some g) (hPassive : g.members &&& u.yields ≠ 0) :
    (u.takeSlotState m 1).plans = u.plans ∧ (u.takeSlotState m 1).slots = upd u.slots m .refused
      ∧ (u.takeSlotState m 1).mem.read (slotAddr m + 0x15) = byteOf Reason.passive.code := by
  have hEnd := (takeSlotState_offered hFree).trans
    (intakeSlot_refused (carryOut_passive hMode hKind hTarget hPlan hReady hg hPassive))
  obtain ⟨t, ht⟩ : ∃ t, t = u.takeSlotState m 1 := ⟨_, rfl⟩
  have hState := ht.trans hEnd
  have hMem : t.mem = refusedMemory u m .passive := by rw [hState]
  rw [← ht]
  exact ⟨by rw [hState], by rw [hState], by rw [hMem]; exact refusedMemory_reason u m .passive⟩

/-- Under the same links a node's group has the same members. -/
theorem group_members_kept {s u : State} (hs : tableAgrees s) (hu : tableAgrees u) (hLinks : u.links = s.links) {node : NodeId} {g : Group}
    (hg : s.groups[leaderOf s node] = some g) : ∃ g', u.groups[leaderOf u node] = some g' ∧ g'.members = g.members := by
  have hLeader : leaderOf u node = leaderOf s node := by rw [leaderOf_label hu, leaderOf_label hs, hLinks]
  obtain ⟨g', hg', -⟩ := leaderOf_leads hu rfl
  refine ⟨g', hg', ?_⟩
  rw [(table_group hu hg').2, (table_group hs hg).2, hLeader, hLinks]

/-- What acts on other slots leave of an order that a slot's bytes offer. -/
theorem acts_slot {m : SlotId} {u v : State} (h : Acts (fun n => n ≠ m) u v) : v.slots[m] = u.slots[m]
    ∧ ∀ k, k < 64 → v.mem.read (slotAddr m + k) = u.mem.read (slotAddr m + k) :=
  ⟨h.left.slots m (fun hn => hn rfl), fun k hk => h.left.memory _ fun n hn hByte => by
    have hFar := slotAddr_far hn hk
    unfold slotByteOf at hByte
    omega⟩

end Sys2Proof.Machine
end

section
/-! PROOFS. A SPOT sees the plan published and the YIELD carried out by the same write; the end of a write of news and slots. -/

namespace Sys2Proof.Machine

/-- A plan published, before the regroup. -/
theorem takePlan_published (s : State) (p : PlanId) : ∃ m : Memory, s.takePlan p 1 = { s with
      plans := upd s.plans p (readPlan s.mem p).1, mem := m }
    ∧ ∀ a, a < planAddr p + 0x28 ∨ planAddr p + 0x2C ≤ a → m.read a = s.mem.read a := by
  refine ⟨s.mem.writeBytes (planAddr p + 0x28) (le32 (readPlan s.mem p).2), ?_, fun a ha => ?_⟩
  · unfold State.takePlan
    rw [if_pos rfl]
    rfl
  · exact Memory.read_writeBytes_other _ _ _ _ ha

/-- A SPOT's plan may be published by the SPOT's own write (R162). -/
theorem spot_sees_plan {s : State} {m : SlotId} {p : PlanId} {node : NodeId} {g : Group} (hMode : s.mode ≠ .safeStop) (hTable : tableAgrees s)
    (hSound : intakeSound s) (hFree : s.slots[m] ≠ .taken) (hIntake : ∀ x ∈ s.intake, x.slot ≠ m)
    (hg : s.groups[leaderOf s node] = some g) (hKind : s.mem.read (slotAddr m + 1) = 1)
    (hTarget : s.mem.read (slotAddr m + 2) = byteOf node.val) (hPlan : s.mem.read (slotAddr m + 3) = byteOf p.val)
    (hPassive : g.members &&& s.yields ≠ 0) : ∃ t : State,
      endsAs s { Watch.empty with
        plans := upd Watch.empty.plans p (some 1), slots := upd Watch.empty.slots m (some 1) } t
      ∧ t.plans[p].ready = true ∧ t.slots[m] = .refused ∧ t.mem.read (slotAddr m + 0x15) = byteOf Reason.passive.code := by
  obtain ⟨u, hu⟩ : ∃ u, u = s.endTaken.takePlan p 1 := ⟨_, rfl⟩
  obtain ⟨cells, hCells, hOutside⟩ := takePlan_published s.endTaken p
  have hFrame := hu.trans hCells
  have hMemU : u.mem = cells := by rw [hFrame]
  have hIntakeU : u.intake = s.intake := by rw [hFrame]; rfl
  have hSlotsU : u.slots = s.slots := by rw [hFrame]; rfl
  have hModeU : u.mode = s.mode := by rw [hFrame]; rfl
  have hYieldsU : u.yields = s.yields := by rw [hFrame]; rfl
  have hLinksU : u.links = s.links := by rw [hFrame]; rfl
  have hReadyU : u.plans[p].ready = true := by
    rw [hFrame]
    exact (congrArg PlanCopy.ready (upd_same _ _ _)).trans rfl
  have hSoundU : intakeSound u := by
    unfold intakeSound
    rw [hIntakeU, hSlotsU]
    exact hSound
  have hCovers : Covers (fun n => n ≠ m) u := fun x hx => hIntake x (hIntakeU ▸ hx)
  obtain ⟨v, hv⟩ : ∃ v, v = u.regroupFrom (runningCount s) false := ⟨_, rfl⟩
  have hMeasuring := (Working.regroupFrom u (runningCount s) false).measuring
  have hActs : Acts (fun n => n ≠ m) u (u.regroupFrom (runningCount s) false) := Acts.regroupFrom hCovers _ _
  have hTableV := (regroupFrom_regrouped hSoundU (fun _ => rfl) (runningCount s) false).1
  rw [← hv] at hMeasuring hActs hTableV
  obtain ⟨hSlotV, hByteV⟩ := acts_slot hActs
  have hByte {k : Nat} (hk : k < 64) : v.mem.read (slotAddr m + k) = s.mem.read (slotAddr m + k) := by
    rw [hByteV k hk, hMemU]
    exact hOutside _ (by unfold planAddr slotAddr; omega)
  obtain ⟨g', hg', hMembers⟩ := group_members_kept hTable hTableV (hMeasuring.links_eq.trans hLinksU) hg
  have hEnd := endsAs_planSlot s p m
  rw [← hu, ← hv] at hEnd
  have hReadyV : v.plans[p].ready = true := by
    rw [hMeasuring.plans_eq]
    exact hReadyU
  obtain ⟨hPlans, hSlots, hReason⟩ := takeSlotState_passive (u := v) (m := m) (fun h => hMode (hModeU ▸ hMeasuring.mode.mp h))
    (by rw [hSlotV, hSlotsU]; exact hFree) ((hByte (by decide)).trans hKind) ((hByte (by decide)).trans hTarget)
    ((hByte (by decide)).trans hPlan) hReadyV hg' (by rw [hMembers, hMeasuring.yields_eq, hYieldsU]; exact hPassive)
  exact ⟨_, hEnd, by rw [hPlans]; exact hReadyV, by rw [hSlots, upd_same], hReason⟩

/-- A YIELD taken in outside SAFE_STOP. -/
theorem takeSlotState_yield {s : State} {n : SlotId} {y : NodeId} (hMode : s.mode ≠ .safeStop) (hFree : s.slots[n] ≠ .taken)
    (hKind : s.mem.read (slotAddr n + 1) = 7) (hTarget : s.mem.read (slotAddr n + 2) = byteOf y.val) :
    ∃ kind : List Byte, s.takeSlotState n 1 = ((s.stampSlot n).flagged y true).regroup.completeSlot n .done 0 kind := by
  have hParam {k : Nat} (hk : 1 ≤ k ∧ k < 0x10) := stampSlot_param s n hk
  have hModeStamp : (s.stampSlot n).mode = s.mode := by rw [stampSlot_eq]
  have hCarry : (s.stampSlot n).carryOut n = (s.stampSlot n).takeYield n true := by
    rw [carryOut_kind (k := .yieldNode) (by rw [hModeStamp]; exact hMode) (by rw [hParam (by decide), hKind]; rfl)]
    rfl
  have hOffered : s.takeSlotState n 1 = s.intakeSlot n := takeSlotState_offered hFree
  unfold State.intakeSlot at hOffered
  rw [hCarry, takeYield_named ((hParam (by decide)).trans hTarget), setYield_eq, conclude_done] at hOffered
  exact ⟨_, hOffered⟩

/-- A SPOT sees the YIELD that a lower slot of its own write brought (R162). -/
theorem spot_sees_yield {s : State} {n m : SlotId} {p : PlanId} {node y : NodeId} {g : Group} (h : n < m) (hMode : s.mode ≠ .safeStop)
    (hTable : tableAgrees s) (hSound : intakeSound s) (hFree : s.slots[m] ≠ .taken) (hIntake : ∀ x ∈ s.intake, x.slot ≠ m)
    (hg : s.groups[leaderOf s node] = some g) (hKind : s.mem.read (slotAddr m + 1) = 1)
    (hTarget : s.mem.read (slotAddr m + 2) = byteOf node.val) (hPlan : s.mem.read (slotAddr m + 3) = byteOf p.val)
    (hReady : s.plans[p].ready = true) (hFreeN : s.slots[n] ≠ .taken) (hIntakeN : ∀ x ∈ s.intake, x.slot ≠ n)
    (hYieldKind : s.mem.read (slotAddr n + 1) = 7) (hYieldTarget : s.mem.read (slotAddr n + 2) = byteOf y.val)
    (hMember : has8 g.members y.val = true) : ∃ t : State,
      endsAs s { Watch.empty with slots := upd (upd Watch.empty.slots n (some 1)) m (some 1) } t
      ∧ t.slots[n] = .done ∧ t.slots[m] = .refused ∧ t.mem.read (slotAddr m + 0x15) = byteOf Reason.passive.code := by
  have hApart : m ≠ n := Ne.symm (ne_of_lt h)
  obtain ⟨kind, hYield⟩ := takeSlotState_yield (s := s.endTaken) hMode hFreeN hYieldKind hYieldTarget
  obtain ⟨u, hu⟩ : ∃ u, u = (s.endTaken.stampSlot n).flagged y true := ⟨_, rfl⟩
  have hFrame : u = { s.endTaken with
      slots := upd s.slots n .taken
      mem := (stampedMemory s.mem n s.intakeSeq).write (recordAddr y + 0x1C) (flagByte true)
      intakeSeq := s.intakeSeq + 1, yields := s.yields ||| bit8 y.val } := by
    rw [hu]
    unfold State.flagged
    rw [stampSlot_eq, if_pos rfl]
    unfold State.endTaken
    dsimp only
  have hMemU : u.mem = (stampedMemory s.mem n s.intakeSeq).write (recordAddr y + 0x1C) (flagByte true) := by rw [hFrame]
  have hIntakeU : u.intake = s.intake := by rw [hFrame]; rfl
  have hSlotsU : u.slots = upd s.slots n .taken := by rw [hFrame]
  have hModeU : u.mode = s.mode := by rw [hFrame]; rfl
  have hPlansU : u.plans = s.plans := by rw [hFrame]; rfl
  have hLinksU : u.links = s.links := by rw [hFrame]; rfl
  have hFlagU : has8 u.yields y.val = true := by
    rw [hu, flagged_yields, if_pos rfl]
  have hByteU {k : Nat} (hk : k < 64) : u.mem.read (slotAddr m + k) = s.mem.read (slotAddr m + k) := by
    rw [hMemU, Memory.read_write_other _ _ _ _ (by unfold recordAddr slotAddr; omega),
      stampedMemory_outside _ _ _ (slotAddr_far (Ne.symm hApart) hk)]
  have hSoundU : intakeSound u := by
    refine ⟨by rw [hIntakeU]; exact hSound.1, fun x hx => ?_⟩
    rw [hIntakeU] at hx
    rw [hSlotsU, upd_other _ _ _ _ (Ne.symm (hIntakeN x hx))]
    exact hSound.2 x hx
  have hCovers : Covers (fun k => k ≠ m) u := fun x hx => hIntake x (hIntakeU ▸ hx)
  obtain ⟨v, hv⟩ : ∃ v, v = u.regroup := ⟨_, rfl⟩
  have hMeasuring := (Working.regroup u).measuring
  have hActs : Acts (fun k => k ≠ m) u u.regroup := Acts.regroup hCovers
  have hTableV : tableAgrees u.regroup := (regroupFrom_regrouped hSoundU (fun _ => rfl) (runningCount u) false).1
  rw [← hv] at hMeasuring hActs hTableV
  obtain ⟨hSlotV, hByteV⟩ := acts_slot hActs
  obtain ⟨g', hg', hMembers⟩ := group_members_kept hTable hTableV (hMeasuring.links_eq.trans hLinksU) hg
  have hPassive : g'.members &&& v.yields ≠ 0 := by
    have hMembersOf : membersOf v (leaderOf v node) = g'.members := by
      unfold membersOf
      rw [hg']
    rw [← hMembersOf]
    exact flagged_passive hg' (by rw [hMembers]; exact hMember) (by rw [hMeasuring.yields_eq]; exact hFlagU)
  obtain ⟨w, hw⟩ : ∃ w, w = v.completeSlot n .done 0 kind := ⟨_, rfl⟩
  rw [← hu, ← hv, ← hw] at hYield
  have hDone := hw.trans (completeSlot_eq v n .done 0 kind)
  have hMemW : w.mem = completedMemory v.mem n .done 0 kind := by rw [hDone]
  have hModeW : w.mode = v.mode := by rw [hDone]
  have hSlotsW : w.slots = upd v.slots n .done := by rw [hDone]
  have hPlansW : w.plans = v.plans := by rw [hDone]
  have hYieldsW : w.yields = v.yields := by rw [hDone]
  have hGroupsW : w.groups = v.groups := by rw [hDone]
  have hgW : w.groups[leaderOf w node] = some g' :=
    (congrArg (fun l : GroupId => w.groups[l]) (leaderOf_congr hGroupsW node)).trans (by rw [hGroupsW]; exact hg')
  have hByte {k : Nat} (hk : k < 64) : w.mem.read (slotAddr m + k) = s.mem.read (slotAddr m + k) := by
    rw [hMemW, completedMemory_outside _ _ _ _ _ (slotAddr_far (Ne.symm hApart) hk), hByteV k hk, hByteU hk]
  have hEnd := endsAs_twoSlots s h
  rw [hYield] at hEnd
  obtain ⟨-, hSlots, hReason⟩ := takeSlotState_passive (u := w) (m := m) (node := node) (p := p) (g := g')
    (fun hStop => hMode (hModeU ▸ hMeasuring.mode.mp (hModeW ▸ hStop)))
    (by rw [hSlotsW, upd_other _ _ _ _ (Ne.symm hApart), hSlotV, hSlotsU, upd_other _ _ _ _ (Ne.symm hApart)]; exact hFree)
    ((hByte (by decide)).trans hKind) ((hByte (by decide)).trans hTarget) ((hByte (by decide)).trans hPlan)
    (by rw [hPlansW, hMeasuring.plans_eq, hPlansU]; exact hReady)
    hgW (by rw [hYieldsW]; exact hPassive)
  refine ⟨_, hEnd, ?_, ?_, hReason⟩
  · rw [hSlots, upd_other _ _ _ _ hApart, hSlotsW, upd_same]
  · rw [hSlots, upd_same]

/-- Settles O17: each kind of byte that an end takes, and the kinds in turn. -/
theorem newsAndSlotWritesTaken : Obligations.NewsAndSlotWritesTaken := by
  refine ⟨newsEnd_clears, fun s n b hPending hFree hIntake hWatch => slotEnd_taken hPending hFree hIntake hWatch,
    fun s c b hPending hWatch => viewEnd_shows hPending hWatch, fun s t0 t1 t2 t3 t w n => ends_in_turn,
    fun s n m h hMode hFreeN hFreeM _ hKinds => numbers_ascend h hMode hFreeN hFreeM hKinds.1 hKinds.2,
    fun s m p node g hMode hTable hSound hFree hIntake hg hKind hTarget hPlan => ⟨fun hPassive => ?_,
      fun n y h hReady hFreeN hIntakeN hYieldKind hYieldTarget hMember => ?_⟩⟩
  · exact spot_sees_plan hMode hTable hSound hFree hIntake hg hKind hTarget hPlan hPassive
  · exact spot_sees_yield h hMode hTable hSound hFree hIntake hg hKind hTarget hPlan hReady hFreeN hIntakeN hYieldKind hYieldTarget hMember

end Sys2Proof.Machine
end

section
/-! PROOFS. What an operation that places no order leaves of the orders (R127, R130). -/

namespace Sys2Proof.Machine

/-! ### Operations that place no order -/

/-- The byte of a slot that shows an order's group. -/
def groupByte (s : State) (n : SlotId) : Byte := s.mem.read (slotAddr n + 0x13)

/-- The operation places no order: it moves none to another group, and keeps the orders of the phases `K` as they are. -/
structure Stays (K : OrderPhase → Prop) (s t : State) : Prop where
  bytes : ∀ n : SlotId, groupByte t n = groupByte s n
  sound : intakeSound s → intakeSound t
  slots : (t.intake.map (·.slot)).Sublist (s.intake.map (·.slot))
  orders : ∀ x ∈ t.intake, ∃ o ∈ s.intake, o.slot = x.slot ∧ o.job = x.job ∧ o.group = x.group
  kept : intakeSound s → ∀ o ∈ s.intake, K o.phase → o ∈ t.intake

section
variable {K : OrderPhase → Prop}

theorem Stays.refl (s : State) : Stays K s s :=
  ⟨fun _ => rfl, id, List.Sublist.refl _, fun x hx => ⟨x, hx, rfl, rfl, rfl⟩, fun _ _ ho _ => ho⟩

theorem Stays.trans {s t u : State} (h : Stays K s t) (k : Stays K t u) : Stays K s u := by
  refine ⟨fun n => (k.bytes n).trans (h.bytes n), fun hs => k.sound (h.sound hs), k.slots.trans h.slots, fun x hx => ?_,
    fun hs o ho hK => k.kept (h.sound hs) o (h.kept hs o ho hK) hK⟩
  obtain ⟨y, hy, hSlot, hJob, hGroup⟩ := k.orders x hx
  obtain ⟨o, ho, hSlot', hJob', hGroup'⟩ := h.orders y hy
  exact ⟨o, ho, hSlot'.trans hSlot, hJob'.trans hJob, hGroup'.trans hGroup⟩

theorem Stays.forEach {α : Type} (f : α → State → State) (l : List α) (s : State) (h : ∀ a ∈ l, ∀ t, Stays K t (f a t)) :
    Stays K s (Machine.forEach l f s) :=
  forEach_keeps (P := Stays K s) f l s (Stays.refl s) fun a ha t ht => ht.trans (h a ha t)

/-- An operation that leaves the list, the slots and the memory. -/
theorem Stays.of_same {s t : State} (hIntake : t.intake = s.intake) (hSlots : t.slots = s.slots) (hMem : t.mem = s.mem) : Stays K s t := by
  refine ⟨fun n => by unfold groupByte; rw [hMem], fun hs => ?_, by rw [hIntake], fun x hx => ⟨x, hIntake ▸ hx, rfl, rfl, rfl⟩,
    fun _ o ho _ => hIntake ▸ ho⟩
  unfold intakeSound at hs ⊢
  rw [hIntake, hSlots]
  exact hs

theorem Stays.of_halts {s t : State} (h : Halts s t) : Stays K s t := by
  obtain ⟨hIntake, hSlots, hMem, -⟩ := h.orders
  exact Stays.of_same hIntake hSlots hMem

theorem Stays.of_chans {s t : State} (h : OnChans s t) : Stays K s t :=
  Stays.of_same h.intake (congrArg State.slots h :) (congrArg State.mem h :)

theorem Stays.modGroup (s : State) (l : GroupId) (f : Group → Group) : Stays K s (s.modGroup l f) := Stays.of_halts (Halts.modGroup s l f)

theorem Stays.setSeries (s : State) (l : GroupId) (x : SeriesState) : Stays K s (s.setSeries l x) := Stays.modGroup s l _

/-- An order of a phase not among `K` changes, in its own slot and group. -/
theorem Stays.modOrder {s : State} {n : SlotId} {f : Order → Order}
    (hf : ∀ o, (f o).slot = o.slot ∧ (f o).job = o.job ∧ (f o).group = o.group)
    (h : intakeSound s → ∀ o ∈ s.intake, o.slot = n → ¬ K o.phase) : Stays K s (s.modOrder n f) := by
  have hSame (o : Order) : (if o.slot = n then f o else o).slot = o.slot ∧ (if o.slot = n then f o else o).job = o.job
      ∧ (if o.slot = n then f o else o).group = o.group := by
    split_ifs
    · exact hf o
    · exact ⟨rfl, rfl, rfl⟩
  refine ⟨fun _ => rfl, intakeSound_modOrder s n f fun o => (hf o).1, ?_, fun x hx => ?_, fun hs o ho hK => ?_⟩
  · have hMap : (s.modOrder n f).intake.map (·.slot) = s.intake.map (·.slot) := by
      rw [State.modOrder_intake, List.map_map]
      exact List.map_congr_left fun o _ => (hSame o).1
    rw [hMap]
  · obtain ⟨o, ho, rfl⟩ := List.mem_map.mp hx
    obtain ⟨hSlot, hJob, hGroup⟩ := hSame o
    exact ⟨o, ho, hSlot.symm, hJob.symm, hGroup.symm⟩
  · exact List.mem_map.mpr ⟨o, ho, if_neg fun hSlot => h hs o ho hSlot hK⟩

theorem Stays.poke (s : State) (n : SlotId) {k : Nat} (hk : k < 64 ∧ k ≠ 0x13) (b : Byte) : Stays K s (s.poke (slotAddr n + k) b) := by
  refine ⟨fun m => ?_, id, List.Sublist.refl _, fun x hx => ⟨x, hx, rfl, rfl, rfl⟩, fun _ _ ho _ => ho⟩
  refine Memory.read_write_other _ _ _ _ ?_
  by_cases hm : n = m
  · subst hm
    omega
  · have hFar := slotAddr_far hm (k := 0x13) (by decide)
    omega

theorem Stays.setPhase {s : State} {n : SlotId} {ph : OrderPhase} (h : intakeSound s → ∀ o ∈ s.intake, o.slot = n → ¬ K o.phase) :
    Stays K s (s.setPhase n ph) :=
  (Stays.modOrder (f := fun o => { o with phase := ph }) (fun _ => ⟨rfl, rfl, rfl⟩) h).trans (Stays.poke _ n (k := 0x12) (by decide) _)

theorem Stays.completeSlot {s : State} {n : SlotId} (final : SlotState) (reason : Byte) (kind : List Byte)
    (h : intakeSound s → ∀ o ∈ s.intake, o.slot = n → ¬ K o.phase) : Stays K s (s.completeSlot n final reason kind) := by
  refine ⟨fun m => ?_, (Tabled.completeSlot s n final reason kind).intake, ?_, fun x hx => ?_, fun hs o ho hK => ?_⟩
  · unfold groupByte
    rw [completeSlot_mem]
    by_cases hm : n = m
    · subst hm
      exact completedMemory_kept _ _ _ _ _ (by decide)
    · exact completedMemory_outside _ _ _ _ _ (slotAddr_far hm (by decide))
  · rw [completeSlot_intake]
    exact List.filter_sublist.map _
  · rw [completeSlot_intake] at hx
    exact ⟨x, (List.mem_filter.mp hx).1, rfl, rfl, rfl⟩
  · rw [completeSlot_intake]
    exact List.mem_filter.mpr ⟨ho, decide_eq_true fun hSlot => h hs o ho hSlot hK⟩

theorem Stays.refuseSlot {s : State} {n : SlotId} (why : Reason) (h : intakeSound s → ∀ o ∈ s.intake, o.slot = n → ¬ K o.phase) :
    Stays K s (s.refuseSlot n why) := Stays.completeSlot _ _ _ h

end

/-- In a sound list an order has its slot to itself. -/
theorem alone_slot {K : OrderPhase → Prop} {s : State} {o : Order} (ho : o ∈ s.intake) (hK : ¬ K o.phase) (hs : intakeSound s) :
    ∀ x ∈ s.intake, x.slot = o.slot → ¬ K x.phase := fun _ hx hSlot => by
  rw [hs.only ho hx hSlot]
  exact hK

theorem intakeSound_modified {s : State} {n : SlotId} {f : Order → Order} (hf : ∀ o, (f o).slot = o.slot)
    (h : intakeSound (s.modOrder n f)) : intakeSound s := by
  have hSame (o : Order) : (if o.slot = n then f o else o).slot = o.slot := by
    split_ifs
    · exact hf o
    · rfl
  obtain ⟨hNodup, hTaken⟩ := h
  have hMap : (s.modOrder n f).intake.map (·.slot) = s.intake.map (·.slot) := by
    rw [State.modOrder_intake, List.map_map]
    exact List.map_congr_left fun o _ => hSame o
  rw [hMap] at hNodup
  refine ⟨hNodup, fun o ho => ?_⟩
  have hSlot : s.slots[(if o.slot = n then f o else o).slot] = .taken := hTaken _ (List.mem_map_of_mem ho)
  exact (congrArg (fun m : SlotId => s.slots[m]) (hSame o)).symm.trans hSlot

/-! ### A regroup's operations up to the placing -/

/-- The order does not run. -/
def atRest (p : OrderPhase) : Prop := p ≠ .running

theorem Stays.spotAbandoned {s : State} {o : Order} (ho : o ∈ s.intake) (hRuns : o.phase = .running) :
    Stays atRest s (s.spotAbandoned o) := by
  have hAlone := alone_slot (K := atRest) ho fun h => h hRuns
  obtain ⟨u, hu⟩ : ∃ u, u = (s.poke (slotAddr o.slot + 0x14) (byteOf (o.abandons + 1))).modOrder o.slot
      (fun x => { x with abandons := o.abandons + 1 }) := ⟨_, rfl⟩
  have hCount : Stays atRest s u := by
    rw [hu]
    exact (Stays.poke s o.slot (k := 0x14) (by decide) _).trans (Stays.modOrder (fun _ => ⟨rfl, rfl, rfl⟩) hAlone)
  have hBack : intakeSound u → intakeSound s := fun h => by
    rw [hu] at h
    have hSound := intakeSound_modified (f := fun x => { x with abandons := o.abandons + 1 }) (fun _ => rfl) h
    exact hSound
  have hIntake : u.intake = s.intake.map fun x => if x.slot = o.slot then { x with abandons := o.abandons + 1 } else x := by
    rw [hu]
    rfl
  obtain ⟨v, hv⟩ : ∃ v, v = u.setSeries o.group .none := ⟨_, rfl⟩
  have hFree : Stays atRest u v := hv ▸ Stays.setSeries u o.group .none
  have hAgain : intakeSound v → ∀ x ∈ v.intake, x.slot = o.slot → ¬ atRest x.phase := fun hs x hx hSlot => by
    have hSame : v.intake = u.intake ∧ v.slots = u.slots := by
      rw [hv]
      exact ⟨State.modGroup_intake _ _ _, State.modGroup_slots _ _ _⟩
    have hSoundU : intakeSound u := by
      unfold intakeSound at hs ⊢
      rw [← hSame.1, ← hSame.2]
      exact hs
    rw [hSame.1, hIntake] at hx
    obtain ⟨y, hy, rfl⟩ := List.mem_map.mp hx
    have hPhase : (if y.slot = o.slot then { y with abandons := o.abandons + 1 } else y).phase = y.phase := by split_ifs <;> rfl
    have hSlotY : (if y.slot = o.slot then { y with abandons := o.abandons + 1 } else y).slot = y.slot := by split_ifs <;> rfl
    rw [hPhase]
    exact hAlone (hBack hSoundU) y hy (hSlotY.symm.trans hSlot)
  have hEnd : s.spotAbandoned o = if o.abandons + 1 < 3 then v.setPhase o.slot .waiting else v.refuseSlot o.slot .topology := by
    rw [hv, hu]
    rfl
  rw [hEnd]
  refine (hCount.trans hFree).trans ?_
  split_ifs
  · exact Stays.setPhase hAgain
  · exact Stays.refuseSlot _ hAgain

theorem Stays.abandonGroup (s : State) (l : GroupId) : Stays atRest s (s.abandonGroup l) := by
  have hOwn : Stays atRest s (s.abandonOwn l) := Stays.of_halts (Halts.abandonOwn s l)
  unfold State.abandonGroup
  dsimp only
  generalize s.abandonOwn l = t at hOwn ⊢
  cases hSpot : runningSpot t l with
  | none => exact hOwn
  | some o =>
    have ho := List.mem_of_find?_eq_some hSpot
    have hRuns := List.find?_some hSpot
    simp only [Bool.and_eq_true, decide_eq_true_eq] at hRuns
    have hStop := OnChans.stopInjector t l
    exact hOwn.trans ((Stays.of_chans hStop).trans (Stays.spotAbandoned (hStop.intake ▸ ho) hRuns.1.1))

theorem Stays.evaluateGroup (s : State) (formed : Bool) (l : GroupId) : Stays atRest s (s.evaluateGroup formed l) := by
  unfold State.evaluateGroup
  cases s.groups[l] with
  | none => exact Stays.refl s
  | some g =>
    dsimp only
    have hLost : Stays atRest s (if (decide (chooseInjector s l g ≠ g.injector) && g.injector.isSome) = true then s.abandonGroup l else s) := by
      split_ifs
      · exact Stays.abandonGroup s l
      · exact Stays.refl s
    exact (hLost.trans (Stays.modGroup _ l _)).trans (Stays.of_halts (Halts.settleAfter _ l formed _))

theorem Stays.formGroups (s : State) (fresh : Bool) : Stays atRest s (s.formGroups fresh) := by
  have hAbandon : Stays atRest s (s.abandonChanged fresh (partition s.links)) := Stays.forEach _ _ s fun l _ t => Stays.abandonGroup t l
  exact hAbandon.trans (Stays.of_same rfl rfl rfl)

theorem Stays.inheritCheck (s : State) (l : GroupId) : Stays atRest s (s.inheritCheck l) := by
  unfold State.inheritCheck
  split_ifs
  · exact Stays.setSeries s l .order
  · exact Stays.refl s

/-- What a regroup does between the two placings. -/
theorem Stays.betweenPlacings (s : State) (keeps : GroupId → Bool) (fresh : Bool) (before : Vector (Option Group) 8) : Stays atRest s
    ((((Machine.forEach allNodes (fun l t => t.evaluateGroup (!keeps l) l)
      (Machine.forEach (allNodes.filter fun l => !keeps l) (fun l t => t.inheritCheck l) s)).detachOthers).reorderRotation keeps).noticeTable
        fresh before) := by
  have hInherit : Stays atRest s (Machine.forEach (allNodes.filter fun l => !keeps l) (fun l t => t.inheritCheck l) s) :=
    Stays.forEach _ _ s fun l _ t => Stays.inheritCheck t l
  have hEach (t : State) : Stays atRest t (Machine.forEach allNodes (fun l t => t.evaluateGroup (!keeps l) l) t) :=
    Stays.forEach _ _ t fun l _ t => Stays.evaluateGroup t _ l
  have hReorder (t : State) : Stays atRest t (t.reorderRotation keeps) := by
    unfold State.reorderRotation
    split_ifs
    · exact Stays.of_same rfl rfl rfl
    · exact Stays.refl t
  have hNotice (t : State) : Stays atRest t (t.noticeTable fresh before) := by
    unfold State.noticeTable
    split_ifs
    · exact Stays.of_same rfl rfl rfl
    · exact Stays.refl t
  exact ((((hInherit.trans (hEach _)).trans (Stays.of_chans (OnChans.detachOthers _))).trans (hReorder _)).trans (hNotice _))

end Sys2Proof.Machine
end

section
/-! PROOFS. The orders across a regroup's placings (R127, R130). -/

namespace Sys2Proof.Machine

/-! ### The bytes that a placing writes -/

theorem setOrderGroup_byte (s : State) (n : SlotId) (l : GroupId) : groupByte (s.setOrderGroup n l) n = byteOf l.val :=
  Memory.read_write_same _ _ _

theorem setOrderGroup_byte_other (s : State) {n m : SlotId} (h : n ≠ m) (l : GroupId) : groupByte (s.setOrderGroup n l) m = groupByte s m := by
  have hFar := slotAddr_far h (k := 0x13) (by decide)
  exact Memory.read_write_other _ _ _ _ (by omega)

theorem refuseSlot_byte (s : State) (n m : SlotId) (why : Reason) : groupByte (s.refuseSlot n why) m = groupByte s m :=
  (Stays.refuseSlot (K := fun _ => False) why fun _ _ _ _ h => h).bytes m

theorem intakeSound.nodup {s : State} (hs : intakeSound s) : s.intake.Nodup := List.Nodup.of_map _ hs.1

/-- The step of `placeInFlight` for one order. -/
def passOne (s : State) (o : Order) (t : State) : State := if o.phase = .waiting then t else t.setOrderGroup o.slot (leaderOf s o.group)

theorem passOne_other (s : State) (o : Order) (t : State) {n : SlotId} (h : o.slot ≠ n) : groupByte (passOne s o t) n = groupByte t n := by
  unfold passOne
  split_ifs
  · rfl
  · exact setOrderGroup_byte_other t h _

/-- Each order in flight shows the group it passes to. -/
theorem placeInFlight_byte {s : State} (hs : intakeSound s) {o : Order} (ho : o ∈ s.intake) (hFlight : o.phase ≠ .waiting) :
    groupByte s.placeInFlight o.slot = byteOf (leaderOf s o.group).val := by
  obtain ⟨t, -, -, hLast⟩ := (forEach_own (passOne s) (fun t => groupByte t o.slot) (fun _ => True) o s.intake s hs.nodup trivial
    (fun _ _ _ _ => trivial) fun x hx hOther t _ => passOne_other s x t fun hSlot => hOther (hs.only ho hx hSlot)).2 ho
  refine Eq.trans hLast ?_
  unfold passOne
  rw [if_neg hFlight]
  exact setOrderGroup_byte t o.slot _

/-- The step of `placeWaiting` for one order. -/
def placeOne (s : State) (o : Order) (t : State) : State :=
  if o.phase = .waiting then
    match targetGroup s o with
    | some l => t.setOrderGroup o.slot l
    | none => t.refuseSlot o.slot .badChannel
  else t

theorem placeWaiting_eq (s : State) : s.placeWaiting = forEach s.intake (placeOne s) s := by
  unfold State.placeWaiting placeOne targetGroup
  congr 1
  funext o t
  cases o.job with
  | spot node p => rfl
  | selfcheck c =>
    dsimp only
    cases s.wiring[c].wiredNode <;> rfl

theorem placeOne_other (s : State) (o : Order) (t : State) {n : SlotId} (h : o.slot ≠ n) : groupByte (placeOne s o t) n = groupByte t n := by
  unfold placeOne
  split_ifs
  · split
    · exact setOrderGroup_byte_other t h _
    · exact refuseSlot_byte t _ _ _
  · rfl

theorem placeWaiting_byte {s : State} (hs : intakeSound s) {o : Order} (ho : o ∈ s.intake) :
    (o.phase ≠ .waiting → groupByte s.placeWaiting o.slot = groupByte s o.slot)
    ∧ ∀ l, o.phase = .waiting → targetGroup s o = some l → groupByte s.placeWaiting o.slot = byteOf l.val := by
  obtain ⟨t, -, hBefore, hLast⟩ := (forEach_own (placeOne s) (fun t => groupByte t o.slot) (fun _ => True) o s.intake s hs.nodup trivial
    (fun _ _ _ _ => trivial) fun x hx hOther t _ => placeOne_other s x t fun hSlot => hOther (hs.only ho hx hSlot)).2 ho
  rw [← placeWaiting_eq] at hLast
  refine ⟨fun hFlight => ?_, fun l hWaits hTarget => ?_⟩
  · refine hLast.trans (Eq.trans ?_ hBefore)
    exact congrArg (groupByte · o.slot) (if_neg hFlight)
  · refine hLast.trans ?_
    unfold placeOne
    rw [if_pos hWaits, hTarget]
    exact setOrderGroup_byte t o.slot l

/-! ### A waiting order whose channel is wired to no node -/

/-- The slot's order was refused BAD_CHANNEL. -/
structure Homeless (n : SlotId) (t : State) : Prop where
  gone : ∀ x ∈ t.intake, x.slot ≠ n
  slot : t.slots[n] = .refused
  state : t.mem.read (slotAddr n) = 4
  reason : t.mem.read (slotAddr n + 0x15) = byteOf Reason.badChannel.code
  done : has8 t.news.done n.val = true
  level4 : has8 t.attn.pending 4 = true

theorem Homeless.acts {n : SlotId} {t u : State} (h : Homeless n t) (k : Acts (fun m => m ≠ n) t u) : Homeless n u := by
  have hLeft := k.left
  have hByte {j : Nat} (hj : j < 64) : u.mem.read (slotAddr n + j) = t.mem.read (slotAddr n + j) := (acts_slot k).2 j hj
  exact ⟨intake_acts k h.gone, (acts_slot k).1.trans h.slot, (hByte (j := 0) (by decide)).trans h.state,
    (hByte (j := 0x15) (by decide)).trans h.reason, hLeft.news n.val h.done, hLeft.pending 4 h.level4⟩

theorem refuseSlot_homeless (s : State) (n : SlotId) : Homeless n (s.refuseSlot n .badChannel) := by
  unfold State.refuseSlot
  generalize refusedResult s n = kind
  have hState := completedMemory_state s.mem n .refused (byteOf Reason.badChannel.code) kind
  have hReason := completedMemory_reason s.mem n .refused (byteOf Reason.badChannel.code) kind
  rw [completeSlot_eq]
  generalize completedMemory s.mem n .refused (byteOf Reason.badChannel.code) kind = m at hState hReason ⊢
  refine ⟨fun x hx => of_decide_eq_true (List.mem_filter.mp hx).2, upd_same _ _ _, hState,
    hReason, ?_, ?_⟩
  · show has8 (s.news.done ||| bit8 n.val) n.val = true
    rw [has8_add _ _ _ n.isLt n.isLt]
    simp
  · show has8 (s.attn.pending ||| bit8 4) 4 = true
    rw [has8_add _ _ _ (by decide) (by decide)]
    simp

theorem placeWaiting_homeless {s : State} (hs : intakeSound s) {o : Order} (ho : o ∈ s.intake) (hWaits : o.phase = .waiting)
    (hNone : targetGroup s o = none) : Homeless o.slot s.placeWaiting := by
  obtain ⟨pre, post, hSplit, -, hPost, hPass⟩ := forEach_split (placeOne s) hs.nodup ho s
  have hStep (t : State) : placeOne s o t = t.refuseSlot o.slot .badChannel := by
    unfold placeOne
    rw [if_pos hWaits, hNone]
  rw [placeWaiting_eq, hPass, hStep]
  have hRefused := refuseSlot_homeless (forEach pre (placeOne s) s) o.slot
  refine hRefused.acts (Acts.forEach post _ hRefused.gone fun x hx t _ => ?_)
  have hApart : x.slot ≠ o.slot := fun hSlot => hPost (by
    have hIn : x ∈ s.intake := hSplit ▸ List.mem_append_right _ (List.mem_cons_of_mem _ hx)
    rw [hs.only ho hIn hSlot] at hx
    exact hx)
  unfold placeOne
  split_ifs
  · split
    · exact Acts.setOrderGroup t _ _ hApart
    · exact Acts.refuseSlot t _ _ hApart
  · exact Acts.refl t

/-! ### The orders once a regroup has placed them -/

/-- Every order stands in a group of the table, its slot shows it, and a waiting one stands in that of its target. -/
structure Placed (s : State) : Prop where
  sound : intakeSound s
  table : tableAgrees s
  leads : ∀ o ∈ s.intake, leaderOf s o.group = o.group
  shown : ∀ o ∈ s.intake, groupByte s o.slot = byteOf o.group.val
  targets : ∀ o ∈ s.intake, o.phase = .waiting → targetGroup s o = some o.group

theorem targetGroup_congr {s t : State} (hWiring : t.wiring = s.wiring) (hMembers : sameMembers s t) (o : Order) :
    targetGroup t o = targetGroup s o := by
  unfold targetGroup
  rw [hWiring]
  simp only [leaderOf_members hMembers]

theorem targetGroup_leads {s : State} (hTable : tableAgrees s) {o : Order} {l : GroupId} (h : targetGroup s o = some l) :
    leaderOf s l = l := by
  have hLeader (n : NodeId) : leaderOf s (leaderOf s n) = leaderOf s n := by
    rw [leaderOf_label hTable (leaderOf s n), leaderOf_label hTable n]
    exact (partition_labels s.links).settled n
  unfold targetGroup at h
  cases hJob : o.job with
  | spot node p =>
    rw [hJob] at h
    rw [← Option.some.inj h]
    exact hLeader node
  | selfcheck c =>
    rw [hJob] at h
    obtain ⟨node, -, rfl⟩ := Option.map_eq_some_iff.mp h
    exact hLeader node

/-- What a regroup makes of the orders, up to the requests of the fronts. -/
structure Passed (s t : State) : Prop where
  placed : Placed t
  slots : (t.intake.map (·.slot)).Sublist (s.intake.map (·.slot))
  finishing : ∀ o ∈ s.intake, o.phase = .finishing → { o with group := leaderOf t o.group } ∈ t.intake
  homeless : ∀ o ∈ s.intake, o.phase = .waiting → targetGroup t o = none → Homeless o.slot t

theorem filterMap_slots (s : State) : ∀ list : List Order, ((list.filterMap (placedOrder s)).map (·.slot)).Sublist (list.map (·.slot))
  | [] => List.Sublist.refl _
  | o :: rest => by
    have hRest := filterMap_slots s rest
    rw [List.filterMap_cons]
    cases hPlaced : placedOrder s o with
    | none => exact hRest.cons o.slot
    | some x =>
      dsimp only
      rw [List.map_cons, List.map_cons, (placedOrder_kept hPlaced).1]
      exact hRest.cons_cons o.slot

theorem regroupCore_passed {s : State} (hs : intakeSound s) (fresh : Bool) : Passed s (s.regroupCore fresh) := by
  have hCoreTable := (regroupCore_sound s fresh hs).table
  have hCoreSound := (regroupCore_sound s fresh hs).intake
  have hLinksCore := (Measuring.regroupCore s fresh).links_eq
  have hWiringCore := (Measuring.regroupCore s fresh).wiring_eq
  have hKeeps : s.regroupCore fresh = ((((forEach allNodes (fun l (t : State) => t.evaluateGroup
      (!keepsGroup fresh (partition s.links) s.groups l) l) (forEach (allNodes.filter fun l => !keepsGroup fresh (partition s.links) s.groups l)
        (fun l (t : State) => t.inheritCheck l) (s.formGroups fresh).placeInFlight)).detachOthers).reorderRotation
          (keepsGroup fresh (partition s.links) s.groups)).noticeTable fresh s.groups).placeWaiting := rfl
  have hStays := Stays.betweenPlacings (s.formGroups fresh).placeInFlight (keepsGroup fresh (partition s.links) s.groups) fresh s.groups
  rw [hKeeps] at hCoreTable hCoreSound hLinksCore hWiringCore ⊢
  have hForm := Stays.formGroups s fresh
  have hFormTable := formGroups_agrees s fresh
  have hLinksForm := (Measuring.formGroups s fresh).links_eq
  generalize s.formGroups fresh = f at hStays hForm hFormTable hLinksForm hCoreTable hCoreSound hLinksCore hWiringCore ⊢
  have hSoundF := hForm.sound hs
  have hSoundP : intakeSound f.placeInFlight := (Tabled.placeInFlight f).intake hSoundF
  have hSoundW := hStays.sound hSoundP
  have hListP := placeInFlight_intake hSoundF
  generalize Machine.State.noticeTable _ fresh s.groups = w at hStays hSoundW hCoreTable hCoreSound hLinksCore hWiringCore ⊢
  have hList := placeWaiting_intake hSoundW
  have hMembers : sameMembers w w.placeWaiting := (Tabled.placeWaiting w).members
  have hWiringW : w.placeWaiting.wiring = w.wiring := (Stands.placeWaiting 0 w).measuring.wiring_eq
  have hTarget (o : Order) : targetGroup w.placeWaiting o = targetGroup w o := targetGroup_congr hWiringW hMembers o
  have hLeader {x : State} (hx : tableAgrees x) (hLinks : x.links = s.links) (n : NodeId) : leaderOf x n = (partition s.links)[n] := by
    rw [leaderOf_label hx, hLinks]
  have hSettled := (partition_labels s.links).settled
  -- where an order of the list after the regroup comes from
  have hFrom (o : Order) (ho : o ∈ w.placeWaiting.intake) : (o.phase = .waiting ∧ targetGroup w o = some o.group
      ∧ groupByte w.placeWaiting o.slot = byteOf o.group.val)
      ∨ (o.phase ≠ .waiting ∧ o ∈ w.intake ∧ ∃ y ∈ f.intake, y.phase ≠ .waiting ∧ y.slot = o.slot ∧ o.group = leaderOf f y.group) := by
    rw [hList] at ho
    obtain ⟨y, hy, hPlaced⟩ := List.mem_filterMap.mp ho
    obtain ⟨hSlot, hJob, hPhase, -⟩ := placedOrder_kept hPlaced
    by_cases hWaits : y.phase = .waiting
    · left
      unfold placedOrder at hPlaced
      rw [if_pos hWaits] at hPlaced
      obtain ⟨l, hl, rfl⟩ := Option.map_eq_some_iff.mp hPlaced
      exact ⟨hWaits, hl, (placeWaiting_byte hSoundW hy).2 l hWaits hl⟩
    · right
      unfold placedOrder at hPlaced
      rw [if_neg hWaits] at hPlaced
      obtain rfl := Option.some.inj hPlaced
      obtain ⟨z, hz, hSlotZ, -, hGroupZ⟩ := hStays.orders y hy
      have hFlight : z.phase ≠ .waiting := fun hWait => hWaits (by
        have hKept := hStays.kept hSoundP z hz (by rw [hWait]; exact fun e => nomatch e)
        rw [hSoundW.only hKept hy hSlotZ.symm]
        exact hWait)
      rw [hListP] at hz
      obtain ⟨x, hx, rfl⟩ := List.mem_map.mp hz
      by_cases hWaitX : x.phase = .waiting
      · rw [if_pos hWaitX] at hFlight
        exact absurd hWaitX hFlight
      · rw [if_neg hWaitX] at hSlotZ hGroupZ
        exact ⟨hWaits, hy, x, hx, hWaitX, hSlotZ, hGroupZ.symm⟩
  refine ⟨⟨hCoreSound, hCoreTable, fun o ho => ?_, fun o ho => ?_, fun o ho hWaits => ?_⟩, ?_, fun o ho hPhase => ?_, fun o ho hWaits hNone => ?_⟩
  · obtain ⟨-, hGroup, -⟩ | ⟨-, -, y, -, -, -, hGroup⟩ := hFrom o ho
    · exact targetGroup_leads hCoreTable ((hTarget o).trans hGroup)
    · rw [hLeader hFormTable hLinksForm] at hGroup
      rw [hLeader hCoreTable hLinksCore, hGroup]
      exact hSettled _
  · obtain ⟨-, -, hByte⟩ | ⟨hFlight, hIn, y, hy, hFlightY, hSlot, hGroup⟩ := hFrom o ho
    · exact hByte
    · rw [(placeWaiting_byte hSoundW hIn).1 hFlight, hStays.bytes, ← hSlot, placeInFlight_byte hSoundF hy hFlightY, hGroup]
  · obtain ⟨-, hGroup, -⟩ | ⟨hFlight, -⟩ := hFrom o ho
    · exact (hTarget o).trans hGroup
    · exact absurd hWaits hFlight
  · have hMapP : f.placeInFlight.intake.map (·.slot) = f.intake.map (·.slot) := by
      rw [hListP, List.map_map]
      refine List.map_congr_left fun o _ => ?_
      dsimp only [Function.comp]
      split_ifs <;> rfl
    have hMapW : (w.placeWaiting.intake.map (·.slot)).Sublist (w.intake.map (·.slot)) := by
      rw [hList]
      exact filterMap_slots w w.intake
    exact (hMapW.trans hStays.slots).trans (hMapP ▸ hForm.slots)
  · have hInF := hForm.kept hs o ho (by rw [hPhase]; exact fun e => nomatch e)
    have hInP : { o with group := leaderOf f o.group } ∈ f.placeInFlight.intake := by
      rw [hListP]
      refine List.mem_map.mpr ⟨o, hInF, if_neg ?_⟩
      rw [hPhase]
      exact fun e => nomatch e
    have hInW := hStays.kept hSoundP _ hInP (show atRest o.phase by rw [hPhase]; exact fun e => nomatch e)
    rw [hList, hLeader hCoreTable hLinksCore, ← hLeader hFormTable hLinksForm]
    refine List.mem_filterMap.mpr ⟨_, hInW, if_neg ?_⟩
    show o.phase ≠ .waiting
    rw [hPhase]
    exact fun e => nomatch e
  · have hRest : atRest o.phase := by
      rw [hWaits]
      exact fun e => nomatch e
    have hInF := hForm.kept hs o ho hRest
    have hInP : o ∈ f.placeInFlight.intake := by
      rw [hListP]
      exact List.mem_map.mpr ⟨o, hInF, if_pos hWaits⟩
    exact placeWaiting_homeless hSoundW (hStays.kept hSoundP o hInP hRest) hWaits ((hTarget o).symm.trans hNone)

end Sys2Proof.Machine
end

section
/-! PROOFS. The orders after a regroup's placing: the scheduler grants, starts and refuses, and places anew where a check starts. -/

namespace Sys2Proof.Machine

/-- The order does not wait. -/
def underWay (p : OrderPhase) : Prop := p ≠ .waiting

/-- The orders stand placed, those of a state before are the only ones, and its finishing ones are among them. -/
structure PlacedSince (b u : State) : Prop where
  placed : Placed u
  slots : (u.intake.map (·.slot)).Sublist (b.intake.map (·.slot))
  finishing : ∀ o ∈ b.intake, o.phase = .finishing → o ∈ u.intake

theorem PlacedSince.stays {b u v : State} (h : PlacedSince b u) (m : Measuring u v) (hMembers : sameMembers u v)
    (j : Stays underWay u v) : PlacedSince b v := by
  obtain ⟨⟨hSound, hTable, hLeads, hShown, hTargets⟩, hSlots, hFinishing⟩ := h
  have hLeader (n : NodeId) : leaderOf v n = leaderOf u n := leaderOf_members hMembers n
  have hSoundV := j.sound hSound
  have hTableV : tableAgrees v := fun l => by
    rw [hMembers l, hTable l, m.links_eq]
  refine ⟨⟨hSoundV, hTableV, fun x hx => ?_, fun x hx => ?_, fun x hx hWaits => ?_⟩, j.slots.trans hSlots, fun o ho hPhase => ?_⟩
  · obtain ⟨o, ho, -, -, hGroup⟩ := j.orders x hx
    rw [hLeader, ← hGroup]
    exact hLeads o ho
  · obtain ⟨o, ho, hSlot, -, hGroup⟩ := j.orders x hx
    rw [j.bytes, ← hSlot, ← hGroup]
    exact hShown o ho
  · obtain ⟨o, ho, hSlot, hJob, hGroup⟩ := j.orders x hx
    have hWaitsO : o.phase = .waiting := by
      by_contra hNot
      have hSame := hSoundV.only (j.kept hSound o ho hNot) hx hSlot.symm
      rw [hSame] at hWaits
      exact hNot hWaits
    rw [targetGroup_congr m.wiring_eq hMembers, ← hGroup, ← hTargets o ho hWaitsO]
    unfold targetGroup
    rw [hJob]
  · refine j.kept hSound o (hFinishing o ho hPhase) ?_
    rw [hPhase]
    exact fun e => nomatch e

theorem PlacedSince.stands {b u v : State} (h : PlacedSince b u) (k : Stands 0 u v) (j : Stays underWay u v) : PlacedSince b v :=
  h.stays k.measuring k.members j

theorem PlacedSince.core {b u : State} (h : PlacedSince b u) : PlacedSince b (u.regroupCore false) := by
  have hPassed := regroupCore_passed h.placed.sound false
  refine ⟨hPassed.placed, hPassed.slots.trans h.slots, fun o ho hPhase => ?_⟩
  have hIn := h.finishing o ho hPhase
  have hAfter := hPassed.finishing o hIn hPhase
  have hLeader : leaderOf (u.regroupCore false) o.group = o.group := by
    rw [leaderOf_label hPassed.placed.table, (Measuring.regroupCore u false).links_eq, ← leaderOf_label h.placed.table]
    exact h.placed.leads o hIn
  rw [hLeader] at hAfter
  exact hAfter

theorem Passed.since {s t : State} (h : Passed s t) : PlacedSince t t := ⟨h.placed, List.Sublist.refl _, fun _ ho _ => ho⟩

/-! ### The scheduler's operations -/

theorem Stays.requestStop (s : State) (l : GroupId) : Stays underWay s (s.requestStop l) := by
  unfold State.requestStop
  split
  · exact Stays.refl s
  · split
    · exact Stays.refl s
    · next c _ =>
      split_ifs
      · exact (Stays.of_chans (OnChans.abandonRun s c)).trans (Stays.modGroup _ l _)
      · exact Stays.trans (t := s.setSeq c { s.seqs[c] with stopRequest := true }) (Stays.of_same rfl rfl rfl) (Stays.setSeries _ l _)
      · exact Stays.refl s

theorem waiting_alone {s : State} {o : Order} (ho : o ∈ s.intake) (hWaits : o.phase = .waiting) (hs : intakeSound s) :
    ∀ x ∈ s.intake, x.slot = o.slot → ¬ underWay x.phase := alone_slot ho (fun h => h hWaits) hs

theorem Stays.refuseDispatch {s : State} {o : Order} (ho : o ∈ s.intake) (hWaits : o.phase = .waiting) (why : Reason) :
    Stays underWay s (s.refuseDispatch o why) :=
  ((Stays.refuseSlot why (waiting_alone ho hWaits)).trans (Stays.setSeries _ _ _)).trans (Stays.of_chans (OnChans.detachInjector _ _))

theorem Stays.startSpot {s : State} {o : Order} (ho : o ∈ s.intake) (hWaits : o.phase = .waiting) (plan : PlanId) :
    Stays underWay s (s.startSpot o plan) := by
  unfold State.startSpot
  split
  · split
    · exact ((Stays.setPhase (waiting_alone ho hWaits)).trans (Stays.modGroup _ o.group _)).trans (Stays.of_chans (OnChans.startRun _ _ _ _ _))
    · exact Stays.refuseDispatch ho hWaits _
  · exact Stays.refuseDispatch ho hWaits _

theorem Stays.startOwn (s : State) (l : GroupId) (state : SeriesState) (kind : RunKind) : Stays underWay s (s.startOwn l state kind) := by
  unfold State.startOwn
  split
  · next g p _ _ =>
    split
    · next c _ =>
      have hDetach (t : State) : Stays underWay t (t.detachForTurn c kind) := by
        unfold State.detachForTurn
        split_ifs
        · exact Stays.of_chans (OnChans.detach t c)
        · exact Stays.refl t
      have hOwn : Stays underWay s (s.setOwn l state p) := Stays.modGroup s l _
      exact ((hOwn.trans (hDetach _)).trans (Stays.modGroup _ l _)).trans (Stays.of_chans (OnChans.startRun _ c kind none _))
    · exact Stays.refl s
  · exact Stays.refl s

theorem PlacedSince.startCheck {b s : State} (h : PlacedSince b s) (hMode : s.mode ≠ .safeStop) {o : Order} (ho : o ∈ s.intake)
    (hWaits : o.phase = .waiting) (c : Chan) : PlacedSince b (s.startCheck o c) := by
  unfold State.startCheck
  dsimp only
  have hClear : OnChans s (if s.seqs[c].run = .none then s else s.dropRun c) := by
    split_ifs
    · exact OnChans.refl s
    · exact OnChans.dropRun s c
  have hStands : Stands 0 s (if s.seqs[c].run = .none then s else s.dropRun c) := by
    split_ifs
    · exact Stands.refl 0 s
    · exact (OnChans.dropRun s c).stands (Measuring.dropRun s c) (Tabled.dropRun s c) 0
  have hRun := clearRun_run s c
  generalize (if s.seqs[c].run = .none then s else s.dropRun c) = t at hClear hStands hRun ⊢
  have hT := h.stands hStands (Stays.of_chans hClear)
  have hIn : o ∈ t.intake := hClear.intake ▸ ho
  have hModeT : t.mode ≠ .safeStop := fun hStop => hMode (hStands.measuring.mode.mp hStop)
  generalize hq : (t.setPhase o.slot .running).seqs[c].setUp .selfcheck (some o.slot) _ = q
  have hSetUp : Measuring t (t.setSeq c q) := Measuring.of_seq c q (by
    rw [← hq]
    exact ChanStep.setUp _ _ _ _ _ hModeT fun _ => hRun)
  have hReady : PlacedSince b (t.setSeq c q) := hT.stays hSetUp (fun _ => rfl) (Stays.of_same rfl rfl rfl)
  have hSwap : (t.setPhase o.slot .running).setSeq c q = (t.setSeq c q).setPhase o.slot .running := rfl
  have hInU : o ∈ (t.setSeq c q).intake := hIn
  rw [hSwap]
  generalize t.setSeq c q = u at hReady hInU
  have hStarted : PlacedSince b (u.setPhase o.slot .running) :=
    hReady.stays (Measuring.setPhase u _ _) (fun _ => rfl) (Stays.setPhase (waiting_alone hInU hWaits))
  exact (hStarted.core.stands (Stands.detach 0 _ c) (Stays.of_chans (OnChans.detach _ c))).stands (Stands.tryReference 0 _ c)
    (Stays.of_chans (OnChans.tryReference _ c))

theorem PlacedSince.grant {b s : State} (h : PlacedSince b s) {o : Order} (hGrant : grantable s o = true) : PlacedSince b (s.grant o) := by
  obtain ⟨ho, hWaits⟩ := grantable_waiting hGrant
  have hMode : (s.setSeries o.group .order).mode ≠ .safeStop := by
    unfold State.setSeries
    rw [modGroup_mode]
    exact grantable_mode hGrant
  have hIn : o ∈ (s.setSeries o.group .order).intake := by
    unfold State.setSeries
    rw [State.modGroup_intake]
    exact ho
  have hSeries := h.stands (Stands.setSeries 0 s o.group .order) (Stays.setSeries s o.group .order)
  have hActive := activeCheck_waiting hWaits
  unfold State.grant
  dsimp only
  generalize s.setSeries o.group .order = t at hMode hIn hSeries
  split
  · next node plan hJob =>
    split
    · exact hSeries.stands (Stands.refuseDispatch 0 hIn hActive _) (Stays.refuseDispatch hIn hWaits _)
    · exact hSeries.stands (Stands.startSpot 0 hMode hIn hJob plan) (Stays.startSpot hIn hWaits plan)
  · next c _ =>
    split
    · exact hSeries.stands (Stands.refuseDispatch 0 hIn hActive _) (Stays.refuseDispatch hIn hWaits _)
    · exact hSeries.startCheck hMode hIn hWaits c

theorem PlacedSince.scheduleOne {b s t : State} (h : PlacedSince b s) (hOne : scheduleOne s = some t) : PlacedSince b t := by
  unfold Machine.scheduleOne at hOne
  split at hOne
  · next o ho =>
    rw [← Option.some.inj hOne]
    exact h.grant (List.find?_some (p := fun o => grantable s o) ho)
  · split at hOne
    · next hm =>
      split at hOne
      · obtain ⟨l, -, rfl⟩ := Option.map_eq_some_iff.mp hOne
        exact (h.stands (Stands.startOwn 0 (by rw [hm]; decide) l .turn .triple) (Stays.startOwn s l .turn .triple)).stays
          (Measuring.of_table rfl rfl rfl rfl rfl rfl rfl rfl) (fun _ => rfl) (Stays.of_same rfl rfl rfl)
      · exact nomatch hOne
    · next hm =>
      obtain ⟨l, -, rfl⟩ := Option.map_eq_some_iff.mp hOne
      exact h.stands (Stands.startOwn 0 (by rw [hm]; decide) l _ _) (Stays.startOwn s l _ _)
    · exact nomatch hOne
    · exact nomatch hOne

theorem PlacedSince.scheduleAll {b : State} : ∀ (n : Nat) {s : State}, PlacedSince b s → PlacedSince b (scheduleAll n s)
  | 0, _, h => h
  | n + 1, s, h => by
    unfold Machine.scheduleAll
    dsimp only
    have hAsked := h.stands (Stands.forEach (l := 0) allNodes (fun m t => t.requestStop m) s fun m _ t => Stands.requestStop 0 t m)
      (Stays.forEach (fun m (t : State) => t.requestStop m) allNodes s fun m _ t => Stays.requestStop t m)
    generalize Machine.forEach allNodes (fun m t => t.requestStop m) s = t at hAsked ⊢
    cases hOne : Machine.scheduleOne t with
    | none => exact hAsked
    | some u => exact PlacedSince.scheduleAll n (hAsked.scheduleOne hOne)

theorem PlacedSince.schedule {b s : State} (h : PlacedSince b s) : PlacedSince b s.schedule :=
  (h.scheduleAll scheduleFuel).stands (Stands.detachIdle 0 _) (Stays.of_chans (OnChans.detachIdle _))

theorem Stays.recount (s : State) : Stays underWay s s.recount := by
  have hAll : Stays underWay s (Machine.forEach allNodes (fun l (t : State) => t.abandonOwn l) s) :=
    Stays.forEach _ _ s fun l _ t => Stays.of_halts (Halts.abandonOwn t l)
  unfold State.recount State.changeMode
  dsimp only
  rw [if_pos rfl]
  generalize Machine.forEach allNodes (fun l (t : State) => t.abandonOwn l) s = t at hAll ⊢
  split_ifs
  · exact hAll.trans (Stays.of_same rfl rfl rfl)
  · exact Stays.refl s

/-- What a regroup, with the requests of the fronts, makes of the orders. -/
theorem regroupFrom_passed {s : State} (hs : intakeSound s) (running : Nat) (fresh : Bool) : Passed s (s.regroupFrom running fresh) := by
  have hCore := regroupCore_passed hs fresh
  have hLinks := (Measuring.regroupCore s fresh).links_eq
  have hAfter : PlacedSince (s.regroupCore fresh) (s.regroupFrom running fresh) := by
    unfold State.regroupFrom
    dsimp only
    generalize s.regroupCore fresh = t at hCore
    refine PlacedSince.schedule ?_
    split_ifs
    · exact hCore.since.stands (Stands.recount 0 t) (Stays.recount t)
    · exact hCore.since
  have hWorking := Working.regroupFrom s running fresh
  have hWiring := (Measuring.regroupCore s fresh).wiring_eq
  have hHomeless (o : Order) (ho : o ∈ s.intake) : Homeless o.slot (s.regroupCore fresh) → Homeless o.slot (s.regroupFrom running fresh) := by
    intro h
    refine h.acts ?_
    have hCovers : Covers (fun m => m ≠ o.slot) (s.regroupCore fresh) := h.gone
    unfold State.regroupFrom
    dsimp only
    generalize s.regroupCore fresh = t at hCovers ⊢
    split_ifs
    · exact Acts.andThen (Acts.recount hCovers) hCovers fun hu => Acts.schedule hu
    · exact Acts.schedule hCovers
  have hTables := hAfter.placed.table
  have hLinksT := hWorking.measuring.links_eq
  have hWiringT := hWorking.measuring.wiring_eq
  generalize s.regroupFrom running fresh = t at hAfter hHomeless hTables hLinksT hWiringT ⊢
  generalize s.regroupCore fresh = u at hCore hAfter hHomeless hLinks hWiring ⊢
  have hLeader (n : NodeId) : leaderOf u n = leaderOf t n := by
    rw [leaderOf_label hCore.placed.table, leaderOf_label hTables, hLinks, hLinksT]
  refine ⟨hAfter.placed, hAfter.slots.trans hCore.slots, fun o ho hPhase => ?_, fun o ho hWaits hNone => hHomeless o ho (hCore.homeless o ho hWaits ?_)⟩
  · rw [← hLeader]
    exact hAfter.finishing _ (hCore.finishing o ho hPhase) hPhase
  · rw [← hNone]
    unfold targetGroup
    simp only [hLeader, hWiring, hWiringT]

end Sys2Proof.Machine
end

section
/-! PROOFS. The working copies that a write's end takes (R1 to R5, R139). -/

namespace Sys2Proof.Machine

/-! ### Plans (R5, R180) -/

theorem readPlan_congr {m m' : Memory} {p : PlanId} (h : ∀ k, k < 0x28 → m'.read (planAddr p + k) = m.read (planAddr p + k)) :
    readPlan m' p = readPlan m p := by
  have h16 (k : Nat) (hk : k < 0x27) : m'.read16 (planAddr p + k) = m.read16 (planAddr p + k) :=
    read16_congr (h k (by omega)) (h (k + 1) (by omega))
  have hActions : readActions m' p = readActions m p := by
    unfold readActions
    congr 1
    funext i
    rw [Nat.add_assoc, h (0x20 + i.val) (by omega)]
  unfold readPlan
  dsimp only
  rw [hActions, h 0x01 (by decide), h 0x02 (by decide), h 0x03 (by decide), h16 0x04 (by decide), h16 0x06 (by decide), h16 0x08 (by decide),
    h16 0x0A (by decide), h 0x0C (by decide), h 0x0D (by decide), h16 0x0E (by decide), h 0x10 (by decide), h 0x11 (by decide),
    h16 0x12 (by decide), h16 0x14 (by decide), h16 0x16 (by decide), h 0x18 (by decide), h 0x19 (by decide), h16 0x1A (by decide),
    h16 0x1C (by decide), h 0x1E (by decide)]

/-- The byte is one of a plan's check field. -/
def inCheck (p : PlanId) (a : Nat) : Prop := planAddr p + 0x28 ≤ a ∧ a < planAddr p + 0x2C

theorem takePlan_read (s : State) (p : PlanId) (b : Byte) {a : Nat} (h : ¬ inCheck p a) : (s.takePlan p b).mem.read a = s.mem.read a := by
  unfold State.takePlan
  split_ifs
  · exact Memory.read_writeBytes_other _ _ _ _ (by unfold inCheck at h; show a < planAddr p + 0x28 ∨ planAddr p + 0x28 + 4 ≤ a; omega)
  · rfl

/-- A plan's copy and its check field. -/
def planView (p : PlanId) (s : State) : PlanCopy × (Fin 4 → Byte) := (s.plans[p], fun k => s.mem.read (planAddr p + 0x28 + k.val))

theorem planAddr_apart {p q : PlanId} (h : p ≠ q) {k : Nat} (hk : k < 64) : ¬ inCheck p (planAddr q + k) := by
  have hVal : p.val ≠ q.val := fun e => h (Fin.ext e)
  unfold inCheck planAddr
  omega

/-- One written plan status taken. -/
def takeOne (w : Watch) (p : PlanId) (t : State) : State :=
  if w.plans[p] = none then t else t.takePlan p (w.plans[p].getD 0)

theorem takePlans_eq (s : State) (w : Watch) : s.takePlans w = forEach allPlans (takeOne w) s := by
  unfold State.takePlans
  congr 1
  funext p t
  unfold takeOne
  cases w.plans[p] with
  | none => rfl
  | some b => rfl

theorem takeOne_plan (w : Watch) (p : PlanId) (t : State) : (takeOne w p t).plans[p] =
      (if w.plans[p] = none then t.plans[p] else if w.plans[p] = some 1 then (readPlan t.mem p).1 else { t.plans[p] with ready := false })
    ∧ ∀ k, k < 4 → (takeOne w p t).mem.read (planAddr p + 0x28 + k) =
      if w.plans[p] = some 1 then (le32 (readPlan t.mem p).2).getD k 0 else t.mem.read (planAddr p + 0x28 + k) := by
  unfold takeOne
  cases w.plans[p] with
  | none => exact ⟨rfl, fun k _ => rfl⟩
  | some b =>
    rw [if_neg (fun e => nomatch e), if_neg (fun e => nomatch e), Option.getD_some]
    unfold State.takePlan
    by_cases hb : b = 1
    · rw [if_pos hb, if_pos (congrArg some hb)]
      refine ⟨upd_same _ _ _, fun k hk => ?_⟩
      rw [if_pos (congrArg some hb)]
      exact Memory.read_writeBytes_at _ _ _ hk
    · have hNot : ¬ (some b = some 1) := fun e => hb (Option.some.inj e)
      rw [if_neg hb, if_neg hNot]
      exact ⟨upd_same _ _ _, fun k _ => by rw [if_neg hNot]⟩

/-- What the plan statuses of an end make of the plans, and of the memory. -/
structure PlansTaken (s : State) (w : Watch) (t : State) : Prop where
  frame : t = { s with plans := t.plans, mem := t.mem }
  copies : ∀ p : PlanId, t.plans[p] =
    if w.plans[p] = none then s.plans[p] else if w.plans[p] = some 1 then (readPlan s.mem p).1 else { s.plans[p] with ready := false }
  checks : ∀ (p : PlanId) (k : Nat), k < 4 → t.mem.read (planAddr p + 0x28 + k) =
    if w.plans[p] = some 1 then (le32 (readPlan s.mem p).2).getD k 0 else s.mem.read (planAddr p + 0x28 + k)
  memory : ∀ a, (∀ p, ¬ inCheck p a) → t.mem.read a = s.mem.read a

theorem takePlans_taken (s : State) (w : Watch) : PlansTaken s w (s.takePlans w) := by
  rw [takePlans_eq]
  have hNodup : allPlans.Nodup := by decide
  have hFrameOne (p : PlanId) (t : State) : takeOne w p t = { t with plans := (takeOne w p t).plans, mem := (takeOne w p t).mem } := by
    unfold takeOne
    split_ifs
    · rfl
    · unfold State.takePlan
      split_ifs <;> rfl
  have hReadOne (p : PlanId) (t : State) {a : Nat} (h : ¬ inCheck p a) : (takeOne w p t).mem.read a = t.mem.read a := by
    unfold takeOne
    split_ifs
    · rfl
    · exact takePlan_read t p _ h
  have hMemory : ∀ a, (∀ p, ¬ inCheck p a) → (forEach allPlans (takeOne w) s).mem.read a = s.mem.read a := fun a ha =>
    forEach_keeps (P := fun t => t.mem.read a = s.mem.read a) _ _ s rfl fun p _ t ht => (hReadOne p t (ha p)).trans ht
  have hOwn (p : PlanId) := (forEach_own (takeOne w) (planView p) (fun t => ∀ a, (∀ q, ¬ inCheck q a) → t.mem.read a = s.mem.read a) p
    allPlans s hNodup (fun _ _ => rfl) (fun q _ t ht a ha => (hReadOne q t (ha q)).trans (ht a ha)) fun q _ hq t _ => by
      refine Prod.ext ?_ (funext fun k => ?_)
      · show (takeOne w q t).plans[p] = t.plans[p]
        unfold takeOne
        split_ifs
        · rfl
        · unfold State.takePlan
          split_ifs
          · exact upd_other _ _ _ _ hq
          · exact upd_other _ _ _ _ hq
      · show (takeOne w q t).mem.read _ = t.mem.read _
        rw [Nat.add_assoc]
        exact hReadOne q t (planAddr_apart hq (by omega))).2 (mem_allPlans p)
  have hEach (p : PlanId) : (forEach allPlans (takeOne w) s).plans[p] =
        (if w.plans[p] = none then s.plans[p] else if w.plans[p] = some 1 then (readPlan s.mem p).1 else { s.plans[p] with ready := false })
      ∧ ∀ k, k < 4 → (forEach allPlans (takeOne w) s).mem.read (planAddr p + 0x28 + k) =
        if w.plans[p] = some 1 then (le32 (readPlan s.mem p).2).getD k 0 else s.mem.read (planAddr p + 0x28 + k) := by
    obtain ⟨t, hInv, hBefore, hLast⟩ := hOwn p
    have hRead : readPlan t.mem p = readPlan s.mem p := readPlan_congr fun k hk => hInv _ fun q => by
      by_cases hq : q = p
      · subst hq
        unfold inCheck
        omega
      · exact planAddr_apart hq (by omega)
    have hPlan : t.plans[p] = s.plans[p] := congrArg Prod.fst hBefore
    have hCheck (k : Nat) (hk : k < 4) : t.mem.read (planAddr p + 0x28 + k) = s.mem.read (planAddr p + 0x28 + k) :=
      congrFun (congrArg Prod.snd hBefore) ⟨k, hk⟩
    obtain ⟨hCopy, hBytes⟩ := takeOne_plan w p t
    refine ⟨(congrArg Prod.fst hLast).trans ?_, fun k hk => (congrFun (congrArg Prod.snd hLast) ⟨k, hk⟩).trans ?_⟩
    · show (takeOne w p t).plans[p] = _
      rw [hCopy, hRead, hPlan]
    · show (takeOne w p t).mem.read _ = _
      rw [hBytes k hk, hRead, hCheck k hk]
  refine ⟨forEach_keeps (P := fun t => t = { s with plans := t.plans, mem := t.mem }) _ _ s rfl fun p _ t ht => ?_, fun p => (hEach p).1,
    fun p => (hEach p).2, hMemory⟩
  have hOne := hFrameOne p t
  generalize (takeOne w p t).plans = plans, (takeOne w p t).mem = mem at hOne ⊢
  rw [hOne, ht]

/-! ### Disconnect settings (R139) -/

/-- The disconnect settings of a channel, as its wiring record has them. -/
def ChanSafety.settings (x : ChanSafety) (m : Memory) (c : Chan) : ChanSafety :=
  { x with discMask := readDiscMask m c, discMode := readDiscMode m c }

/-- The part with the disconnect settings of the wiring records written. -/
def State.maskTaken (s : State) (wiring : BitVec 4) : State :=
  { s with safety := Vector.ofFn fun c => if wiring.getLsbD c.val then s.safety[c].settings s.mem c else s.safety[c] }

theorem maskTaken_safety (s : State) (wiring : BitVec 4) (c : Chan) :
    (s.maskTaken wiring).safety[c] = if wiring.getLsbD c.val then s.safety[c].settings s.mem c else s.safety[c] :=
  Vector.getElem_ofFn c.isLt

theorem takeDisconnect_eq (s : State) (w : Watch) :
    s.takeDisconnect w = (s.maskTaken w.wiring).reevaluate (allChans.filter fun c => w.wiring.getLsbD c.val) := by
  obtain ⟨chans, hChans⟩ : ∃ chans, chans = allChans.filter fun c => w.wiring.getLsbD c.val := ⟨_, rfl⟩
  have hNodup : chans.Nodup := hChans ▸ allChans_nodup.filter _
  have hIn (c : Chan) : c ∈ chans ↔ w.wiring.getLsbD c.val = true := by
    rw [hChans, List.mem_filter]
    exact ⟨fun h => h.2, fun h => ⟨mem_allChans c, h⟩⟩
  obtain ⟨step, hStep⟩ : ∃ step : Chan → State → State, step = fun c t => t.setSafety c (t.safety[c].settings t.mem c) := ⟨_, rfl⟩
  have hFrame : forEach chans step s = { s with safety := (forEach chans step s).safety } :=
    forEach_keeps (P := fun t => t = { s with safety := t.safety }) step chans s rfl fun c _ t ht => by
      rw [hStep]
      generalize t.safety = safety at ht
      rw [ht]
      rfl
  have hOwn (c : Chan) := forEach_own step (fun t => t.safety[c]) (fun t => t.mem = s.mem) c chans s hNodup rfl
    (fun d _ t ht => by rw [hStep]; exact ht) fun d _ hd t _ => by
      rw [hStep]
      exact upd_other _ _ _ _ hd
  have hSafety : (forEach chans step s).safety = (s.maskTaken w.wiring).safety := Vector.ext fun i hi => by
    have hTaken := maskTaken_safety s w.wiring ⟨i, hi⟩
    show (forEach chans step s).safety[(⟨i, hi⟩ : Chan)] = (s.maskTaken w.wiring).safety[(⟨i, hi⟩ : Chan)]
    rw [hTaken]
    by_cases hBit : w.wiring.getLsbD i = true
    · obtain ⟨t, hMem, hBefore, hLast⟩ := (hOwn ⟨i, hi⟩).2 ((hIn _).mpr hBit)
      rw [if_pos hBit]
      refine Eq.trans hLast ?_
      rw [hStep]
      refine (upd_same _ _ _).trans ?_
      rw [hMem]
      exact congrArg (fun x : ChanSafety => x.settings s.mem ⟨i, hi⟩) hBefore
    · rw [if_neg hBit]
      exact (hOwn ⟨i, hi⟩).1 fun h => hBit ((hIn _).mp h)
  have hMasks : forEach chans step s = s.maskTaken w.wiring := by
    rw [hFrame, hSafety]
    rfl
  unfold State.takeDisconnect
  dsimp only
  rw [← hChans, ← hMasks, hStep]
  rfl

end Sys2Proof.Machine
end

section
/-! PROOFS. The end of a write of working copies, with its disconnects, its regroup and the orders placed. -/

namespace Sys2Proof.Machine

/-! ### The topology's copies (R1 to R4) -/

theorem linkState_ofByte : ∀ b : Byte, LinkState.ofByte b = (match b.toNat with | 0 => .open_ | 1 => .closed | _ => .unknown) := by
  decide

theorem clampTo_value {lo hi : Nat} (h : lo ≤ hi) (v : Nat) : (clampTo lo hi v).1 = max lo (min hi v) := by
  unfold clampTo
  split_ifs <;> (dsimp only; omega)

theorem readWiring_eq (m : Memory) (c : Chan) : readWiring m c = ⟨decide (m.read (wiringAddr c) = 1), m.read (wiringAddr c + 1),
    max 9000 (min 11000 (m.read16 (wiringAddr c + 2))), max 180000 (min 220000 (m.read32 (wiringAddr c + 4)))⟩ := by
  unfold readWiring
  rw [clampTo_value (by decide), clampTo_value (by decide)]
  rfl

theorem readDiscMode_follow (m : Memory) (c : Chan) : readDiscMode m c = .follow ↔ m.read (wiringAddr c + 9) = 1 := by
  unfold readDiscMode
  split_ifs with h
  · exact ⟨fun _ => h, fun _ => rfl⟩
  · exact ⟨(fun e => nomatch e), fun e => absurd e h⟩

theorem takeTopology_frame (s : State) (w : Watch) : s.takeTopology w = { s with
    nodePlan := (s.takeTopology w).nodePlan, links := (s.takeTopology w).links, wiring := (s.takeTopology w).wiring } := rfl

theorem takeTopology_node (s : State) (w : Watch) (n : NodeId) : (s.takeTopology w).nodePlan[n] =
    if has8 w.nodes n.val then indexOf 16 (s.mem.read (nodeSettingAddr n)) else s.nodePlan[n] := Vector.getElem_ofFn n.isLt

theorem takeTopology_link (s : State) (w : Watch) (i : LinkId) : (s.takeTopology w).links[i] =
    if w.links.getLsbD i.val then readLink s.mem i else s.links[i] := Vector.getElem_ofFn i.isLt

theorem takeTopology_wiring (s : State) (w : Watch) (c : Chan) : (s.takeTopology w).wiring[c] =
    if w.wiring.getLsbD c.val then readWiring s.mem c else s.wiring[c] := Vector.getElem_ofFn c.isLt

/-! ### The steps of the end -/

section
variable {s : State} {w : Watch} {begins ends : Chan → Prop}

/-- The byte is no slot's and no check field's. -/
def copied (a : Nat) : Prop := ¬ inSlots a ∧ ∀ p, ¬ inCheck p a

/-- A write's end up to its regroup, step by step: the plans, the disconnects, and the topology's copies. -/
structure CopySteps (s : State) (w : Watch) (begins ends : Chan → Prop) (p v y : State) : Prop where
  plans : PlansTaken s.endTaken w p
  disconnects : Reevaluated (p.maskTaken w.wiring) begins ends v
  topology : y = v.takeTopology w

theorem CopySteps.sound {p v y : State} (h : CopySteps s w begins ends p v y) : intakeSound y := by
  rw [h.topology]
  exact h.disconnects.table.2.2

theorem PlansTaken.orders {t u : State} (h : PlansTaken t w u) : u.intake = t.intake ∧ u.slots = t.slots ∧ u.seqs = t.seqs
    ∧ u.safety = t.safety ∧ u.news = t.news ∧ u.attn = t.attn ∧ u.lines = t.lines := by
  have hFrame := h.frame
  generalize u.plans = plans, u.mem = mem at hFrame
  rw [hFrame]
  exact ⟨rfl, rfl, rfl, rfl, rfl, rfl, rfl⟩

/-- The steps of an end that wrote plan statuses, node settings, links and wiring. -/
theorem takeCopies_steps (hs : intakeSound s) (hBegins : ∀ c : Chan, begins c ↔ w.wiring.getLsbD c.val = true ∧ s.safety[c].disconnected = false
      ∧ ∃ i, i < 3 ∧ ((s.mem.read (wiringAddr c + 8)).setWidth 3).getLsbD i = true ∧ s.lines.getLsbD i = true)
    (hEnds : ∀ c : Chan, ends c ↔ w.wiring.getLsbD c.val = true ∧ s.safety[c].disconnected = true ∧ s.mem.read (wiringAddr c + 9) = 1
      ∧ ∀ i, i < 3 → ((s.mem.read (wiringAddr c + 8)).setWidth 3).getLsbD i = true → s.lines.getLsbD i = false) :
    ∃ p v y, CopySteps s w begins ends p v y ∧ ((s.endTaken.takePlans w).takeDisconnect w).takeTopology w = y := by
  have hPlans := takePlans_taken s.endTaken w
  rw [takeDisconnect_eq]
  generalize s.endTaken.takePlans w = p at hPlans ⊢
  obtain ⟨hIntake, hSlots, -, hSafety, -, -, hLines⟩ := hPlans.orders
  have hByte (c : Chan) (k : Nat) (hk : k < 16) : p.mem.read (wiringAddr c + k) = s.mem.read (wiringAddr c + k) :=
    hPlans.memory _ fun q => by
      unfold inCheck planAddr wiringAddr
      omega
  have hSettings (c : Chan) (hBit : w.wiring.getLsbD c.val = true) : (p.maskTaken w.wiring).safety[c] =
      { s.safety[c] with discMask := (s.mem.read (wiringAddr c + 8)).setWidth 3, discMode := readDiscMode s.mem c } := by
    rw [maskTaken_safety, if_pos hBit, hSafety]
    unfold ChanSafety.settings readDiscMask readDiscMode
    rw [hByte c 8 (by decide), hByte c 9 (by decide)]
    rfl
  have hLinesX : (p.maskTaken w.wiring).lines = s.lines := hLines
  have hSoundX : intakeSound (p.maskTaken w.wiring) := by
    have hSame : (p.maskTaken w.wiring).intake = s.intake ∧ (p.maskTaken w.wiring).slots = s.slots := ⟨hIntake, hSlots⟩
    unfold intakeSound
    rw [hSame.1, hSame.2]
    exact hs
  have hIn (c : Chan) : (c ∈ allChans.filter fun c => w.wiring.getLsbD c.val) ↔ w.wiring.getLsbD c.val = true := by
    rw [List.mem_filter]
    exact ⟨fun h => h.2, fun h => ⟨mem_allChans c, h⟩⟩
  refine ⟨p, _, _, ⟨hPlans, reevaluate_spec hSoundX (allChans_nodup.filter _) (fun c => ?_) fun c => ?_, rfl⟩, rfl⟩
  · rw [hBegins, hIn]
    refine and_congr_right fun hBit => ?_
    unfold disconnectBegins
    rw [Bool.and_eq_true, Bool.not_eq_true', lineAsserted_iff, hSettings c hBit, hLinesX]
  · rw [hEnds, hIn]
    refine and_congr_right fun hBit => ?_
    unfold disconnectEnds
    rw [Bool.and_eq_true, Bool.and_eq_true, Bool.not_eq_true', decide_eq_true_eq, lineAsserted_eq_false, hSettings c hBit, hLinesX]
    dsimp only
    rw [readDiscMode_follow, and_assoc]

variable {p v y t : State}

theorem CopySteps.bytes (h : CopySteps s w begins ends p v y) {a : Nat} (ha : ¬ inSlots a) : y.mem.read a = p.mem.read a := by
  rw [h.topology]
  exact h.disconnects.bytes ha

theorem CopySteps.copied (h : CopySteps s w begins ends p v y) {a : Nat} (ha : copied a) : v.mem.read a = s.mem.read a :=
  (h.disconnects.bytes ha.1).trans (h.plans.memory a ha.2)

/-- A host byte below the plans is no slot's and no check field's. -/
theorem copied_below {a : Nat} (h : a < 0x128) : Machine.copied a := by
  refine ⟨?_, fun p => ?_⟩
  · unfold inSlots
    omega
  · unfold inCheck planAddr
    omega

/-- The working copies once the topology's are taken (R1 to R4). -/
theorem CopySteps.copies (h : CopySteps s w begins ends p v y) :
    (∀ n : NodeId, y.nodePlan[n] = if has8 w.nodes n.val then indexOf 16 (s.mem.read (nodeSettingAddr n)) else s.nodePlan[n])
    ∧ (∀ i : LinkId, y.links[i] = if w.links.getLsbD i.val then readLink s.mem i else s.links[i])
    ∧ ∀ c : Chan, y.wiring[c] = if w.wiring.getLsbD c.val then readWiring s.mem c else s.wiring[c] := by
  have hByte (a : Nat) (ha : a < 0x128) : v.mem.read a = s.mem.read a := h.copied (copied_below ha)
  have hFixed := h.disconnects.fixed
  have hFrame := h.plans.frame
  have hSame : v.nodePlan = s.nodePlan ∧ v.links = s.links ∧ v.wiring = s.wiring := by
    have hP : p.nodePlan = s.nodePlan ∧ p.links = s.links ∧ p.wiring = s.wiring := by
      generalize p.plans = plans, p.mem = mem at hFrame
      rw [hFrame]
      exact ⟨rfl, rfl, rfl⟩
    exact ⟨(congrArg State.nodePlan hFixed :).trans hP.1, (congrArg State.links hFixed :).trans hP.2.1,
      (congrArg State.wiring hFixed :).trans hP.2.2⟩
  obtain ⟨hNodePlan, hLinks, hWiring⟩ := hSame
  rw [h.topology]
  refine ⟨fun n => ?_, fun i => ?_, fun c => ?_⟩
  · rw [takeTopology_node, hNodePlan, hByte _ (by unfold nodeSettingAddr; omega)]
  · have hEntry : readLink v.mem i = readLink s.mem i := by
      unfold readLink
      rw [hByte _ (by unfold linkAddr; omega), hByte _ (by unfold linkAddr; omega), hByte _ (by unfold linkAddr; omega)]
    rw [takeTopology_link, hLinks, hEntry]
  · have hEntry : readWiring v.mem c = readWiring s.mem c := by
      have hAt (k : Nat) (hk : k < 16) : v.mem.read (wiringAddr c + k) = s.mem.read (wiringAddr c + k) :=
        hByte _ (by unfold wiringAddr; omega)
      have h32 : v.mem.read32 (wiringAddr c + 4) = s.mem.read32 (wiringAddr c + 4) := read32_congr fun k hk => by
        rw [Nat.add_assoc]
        exact hAt (4 + k) (by omega)
      have hFirst : v.mem.read (wiringAddr c) = s.mem.read (wiringAddr c) := hAt 0 (by decide)
      unfold readWiring
      rw [hFirst, hAt 1 (by decide), read16_congr (hAt 2 (by decide)) (hAt 3 (by decide)), h32]
    rw [takeTopology_wiring, hWiring, hEntry]

/-- The orders that a re-evaluation leaves in the list. -/
theorem Reevaluated.orders {x v : State} (h : Reevaluated x begins ends v) : (v.intake.map (·.slot)).Sublist (x.intake.map (·.slot))
    ∧ ∀ o ∈ x.intake, o.phase ≠ .running → o ∈ v.intake := by
  obtain ⟨u, hPass, hSame, -, -⟩ := h.passed
  have hIntake : v.intake = u.intake := by
    generalize v.news.chanSafety = news, v.attn = attn at hSame
    rw [hSame]
  rw [hIntake]
  exact ⟨hPass.orders.map _, hPass.kept⟩

/-- What the end leaves of all else: only the disconnects' news are new. -/
theorem CopySteps.fixed (h : CopySteps s w begins ends p v y) : y.fixed = { s.fixed with
    endPending := false, watch := Watch.empty, nodePlan := y.nodePlan, links := y.links, wiring := y.wiring, plans := y.plans
    news := { s.fixed.news with chanSafety := y.news.chanSafety } } := by
  have hFixedX : (p.maskTaken w.wiring).fixed = p.fixed := rfl
  have hFixedP : p.fixed = { s.fixed with
      endPending := false, watch := Watch.empty, plans := p.plans } := by
    have hFrame := h.plans.frame
    generalize p.plans = plans, p.mem = mem at hFrame
    rw [hFrame]
    rfl
  have hFixedV := h.disconnects.fixed
  rw [hFixedX, hFixedP] at hFixedV
  have hPlansV : v.plans = p.plans := (congrArg State.plans hFixedV :)
  have hFixedY : y.fixed = { v.fixed with
      nodePlan := y.nodePlan, links := y.links, wiring := y.wiring } := by
    rw [h.topology]
    rfl
  have hSameY : y.plans = v.plans ∧ y.news = v.news := by
    rw [h.topology]
    exact ⟨rfl, rfl⟩
  rw [hFixedY, hFixedV, hSameY.1, hSameY.2, hPlansV]

/-- Each channel's disconnect settings after the end. -/
theorem CopySteps.settings (h : CopySteps s w begins ends p v y) (c : Chan) (hBit : w.wiring.getLsbD c.val = true) :
    y.safety[c].discMask = (s.mem.read (wiringAddr c + 8)).setWidth 3
      ∧ (y.safety[c].discMode = .follow ↔ s.mem.read (wiringAddr c + 9) = 1) := by
  have hByte (k : Nat) (hk : k < 16) : p.mem.read (wiringAddr c + k) = s.mem.read (wiringAddr c + k) :=
    h.plans.memory _ (copied_below (by unfold wiringAddr; omega)).2
  have hSafetyY : y.safety = v.safety := by rw [h.topology]; rfl
  obtain ⟨-, hMask, hMode⟩ := h.disconnects.stands c
  rw [maskTaken_safety, if_pos hBit] at hMask hMode
  rw [hSafetyY, hMask, hMode]
  refine ⟨?_, ?_⟩
  · show readDiscMask p.mem c = _
    unfold readDiscMask
    rw [hByte 8 (by decide)]
  · show readDiscMode p.mem c = .follow ↔ _
    rw [readDiscMode_follow, hByte 9 (by decide)]

/-- What a re-evaluation's report says of the state before the settings were taken. -/
theorem CopySteps.reached (h : CopySteps s w begins ends p v y) (running : Nat) : Reached s begins ends (y.regroupFrom running false) := by
  have hSame : y.seqs = v.seqs ∧ y.safety = v.safety ∧ y.news = v.news ∧ y.attn = v.attn := by
    rw [h.topology]
    exact ⟨rfl, rfl, rfl, rfl⟩
  obtain ⟨hBegun, hEnded, hOther, hHealth, hNews, hLevel⟩ := h.disconnects.reached hSame h.sound running
  obtain ⟨-, -, hSeqs, hSafety, hNewsP, hAttn, -⟩ := h.plans.orders
  have hSeqsX : (p.maskTaken w.wiring).seqs = s.seqs := hSeqs
  have hNewsX : (p.maskTaken w.wiring).news = s.news := hNewsP
  have hAttnX : (p.maskTaken w.wiring).attn = s.attn := hAttn
  have hStands (c : Chan) : (p.maskTaken w.wiring).safety[c].disconnected = s.safety[c].disconnected
      ∧ (p.maskTaken w.wiring).safety[c].health = s.safety[c].health := by
    rw [maskTaken_safety, hSafety]
    split_ifs <;> exact ⟨rfl, rfl⟩
  generalize p.maskTaken w.wiring = x at hBegun hOther hHealth hNews hLevel hSeqsX hNewsX hAttnX hStands
  rw [hSeqsX] at hBegun
  rw [hNewsX] at hNews
  rw [hAttnX] at hLevel
  exact ⟨hBegun, hEnded, fun c hb he => (hOther c hb he).trans (hStands c).1, fun c => (hHealth c).trans (hStands c).2, hNews, hLevel⟩

end

theorem allPlans_written {plans : Vector (Option Byte) 16} {p : PlanId} (h : plans[p] ≠ none) :
    (allPlans.any fun q => plans[q].isSome) = true :=
  List.any_eq_true.mpr ⟨p, mem_allPlans p, Option.isSome_iff_ne_none.mpr h⟩

/-- Settles O20: the copies of what was written, the disconnects they bring, one regroup, and every order placed. -/
theorem workingCopiesTaken : Obligations.WorkingCopiesTaken := by
  intro s nodes links wiring plans mask follow begins ends hPending hs hWatch hSome hMask hBegins hEnds
  obtain ⟨w, hw⟩ : ∃ w : Watch, w = { Watch.empty with nodes := nodes, links := links, wiring := wiring, plans := plans } := ⟨_, rfl⟩
  rw [← hw] at hWatch
  have hNodesW : w.nodes = nodes := by rw [hw]
  have hLinksW : w.links = links := by rw [hw]
  have hWiringW : w.wiring = wiring := by rw [hw]
  have hPlansW : w.plans = plans := by rw [hw]
  have hRegroups : w.regroups = true := by
    unfold Watch.regroups
    rw [hNodesW, hLinksW, hWiringW, hPlansW]
    obtain h | h | h | ⟨p, hp⟩ := hSome
    · rw [decide_eq_true h]
      rfl
    · rw [decide_eq_true h, Bool.or_true]
      rfl
    · rw [decide_eq_true h, Bool.or_true]
      rfl
    · rw [allPlans_written hp, Bool.or_true]
  have hHandle := handleEnd_copies (s := s) (by rw [hWatch, hw]; exact empty_slot) (by rw [hWatch, hw]; exact empty_view)
    (by rw [hWatch]; exact hRegroups)
  have hNewsW : s.watch.news = Watch.empty.news := by rw [hWatch, hw]
  rw [hNewsW, clearNews_unwritten, hWatch] at hHandle
  obtain ⟨p, v, y, hSteps, hY⟩ := takeCopies_steps (s := s) (w := w) (begins := begins) (ends := ends) hs
    (fun c => by rw [hBegins, hWiringW, (hMask c).1]) (fun c => by rw [hEnds, hWiringW, (hMask c).1, (hMask c).2])
  rw [hY] at hHandle
  have hPassed := regroupFrom_passed hSteps.sound (runningCount s) false
  have hReached := hSteps.reached (runningCount s)
  obtain ⟨hTable, hInjectors, hAttached, -⟩ := regroupFrom_regrouped hSteps.sound (fun _ => rfl) (runningCount s) false
  have hMeasuring := (Working.regroupFrom y (runningCount s) false).measuring
  obtain ⟨hNodePlan, hLinks, hWiring⟩ := hSteps.copies
  rw [hNodesW] at hNodePlan
  rw [hLinksW] at hLinks
  rw [hWiringW] at hWiring
  refine ⟨_, (exec_writeTransactionEnd hPending).trans (congrArg _ hHandle), ?_⟩
  generalize y.regroupFrom (runningCount s) false = t at hPassed hReached hTable hInjectors hAttached hMeasuring ⊢
  have hBytes {a : Nat} (ha : ¬ inSlots a) : t.mem.read a = p.mem.read a := (hMeasuring.memory a ha).trans (hSteps.bytes ha)
  have hFixed := hMeasuring.fixed.trans hSteps.fixed
  obtain ⟨-, hCopies, hChecks, hMemory⟩ := hSteps.plans
  have hPlansT : t.plans = p.plans := by
    have hPlansY : y.plans = v.plans := by rw [hSteps.topology]; rfl
    exact (hMeasuring.plans_eq.trans hPlansY).trans (congrArg State.plans hSteps.disconnects.fixed :)
  have hOrdersY : (y.intake.map (·.slot)).Sublist (s.intake.map (·.slot)) ∧ ∀ o ∈ s.intake, o.phase ≠ .running → o ∈ y.intake := by
    obtain ⟨hSlots, hKept⟩ := hSteps.disconnects.orders
    have hIntake : (p.maskTaken w.wiring).intake = s.intake := hSteps.plans.orders.1
    rw [hIntake] at hSlots hKept
    rw [hSteps.topology]
    exact ⟨hSlots, hKept⟩
  refine ⟨fun n => ?_, fun i => ?_, fun c => ?_, fun q => ⟨?_, fun k hk => ?_⟩, fun c hBit => ?_, fun c => ?_, hReached.level6, hTable,
    hInjectors, hAttached, fun o ho => ⟨fun hWaits => hPassed.placed.targets o ho hWaits, hPassed.placed.shown o ho⟩,
    fun o ho => ⟨fun hPhase => ?_, fun hWaits hNone => ?_⟩, hPassed.slots.trans hOrdersY.1, fun a ha hNot => ?_, ?_,
    (congrArg (fun u : State => u.news.nodeState) hFixed :), (congrArg (fun u : State => u.news.nodeStale) hFixed :),
    (congrArg (fun u : State => u.news.chanCond) hFixed :)⟩
  · rw [hMeasuring.nodePlan_eq]
    exact hNodePlan n
  · rw [hMeasuring.links_eq, hLinks]
    exact congrArg (fun state : LinkState => if links.getLsbD i.val then LinkCopy.mk (s.mem.read (linkAddr i)) (s.mem.read (linkAddr i + 1)) state
      else s.links[i]) (linkState_ofByte (s.mem.read (linkAddr i + 2)))
  · rw [hMeasuring.wiring_eq, hWiring, readWiring_eq]
  · rw [hPlansT, hCopies, hPlansW]
    cases plans[q] with
    | none => rfl
    | some b =>
      rw [if_neg (fun e => nomatch e)]
      by_cases hb : b = 1
      · subst hb
        rfl
      · rw [if_neg fun e => hb (Option.some.inj e)]
        exact (if_neg hb).symm
  · have hAt : ¬ inSlots (planAddr q + 0x28 + k) := by
      unfold inSlots planAddr
      omega
    rw [hBytes hAt, hChecks q k hk, hPlansW]
    rfl
  · obtain ⟨hMaskY, hModeY⟩ := hSteps.settings c (by rw [hWiringW]; exact hBit)
    rw [(hMeasuring.chan c).discMask, (hMeasuring.chan c).discMode, (hMask c).1, (hMask c).2]
    exact ⟨hMaskY, hModeY⟩
  · exact ⟨fun hc => ⟨(hReached.begun c hc).1, (hReached.begun c hc).2.1, (hReached.begun c hc).2.2.1⟩, hReached.ended c, hReached.other c,
      hReached.health c, hReached.news c⟩
  · exact hPassed.finishing o (hOrdersY.2 o ho (by rw [hPhase]; exact fun e => nomatch e)) hPhase
  · obtain ⟨-, hSlot, hState, hReason, hDone, hLevel4⟩ :=
      hPassed.homeless o (hOrdersY.2 o ho (by rw [hWaits]; exact fun e => nomatch e)) hWaits hNone
    exact ⟨hSlot, hState, hReason, hDone, hLevel4⟩
  · exact (hBytes ha).trans (hMemory a hNot)
  · rw [hFixed, hMeasuring.nodePlan_eq, hMeasuring.links_eq, hMeasuring.wiring_eq, hMeasuring.plans_eq]

end Sys2Proof.Machine
end

section
/-! PROOFS. A SYNC edge shared by a series that stops for its SPOT and a TRIPLE run that shows the slot of that SPOT as its
owner. -/

namespace Sys2Proof.Machine

/-! ### A run whose owner's slot holds an order that waits in another group -/

/-- A series that was asked to stop, in WAIT_SYNC. -/
def stoppingSeries : Seq :=
  { Seq.initial with coupling := .attached, run := .series, phase := .waitSync, ready := some 100, stopRequest := true }

/-- A TRIPLE run in WAIT_SYNC of its third half-period, with slot 0 as its owner. -/
def thirdHalf : Seq :=
  { Seq.initial with
    coupling := .attached, run := .triple, owner := some 0, phase := .waitSync, half := 3, ready := some 100 }

/-- The SPOT in slot 0, waiting in group 0. -/
def waitingSpot : Order := ⟨0, .spot 0 0, .waiting, 0, 0⟩

/-- A measurable group of one node, with the channel of the node's number as its injector. -/
def measuringGroup (members : BitVec 8) (c : Chan) (x : SeriesState) : Group :=
  { Group.formed members with injector := some c, measurable := true, series := x }

/-- In RUN, channel 0 of group 0 stops for the SPOT of slot 0, and channel 1 of group 1 ends a TRIPLE run that names the same
slot as its owner. -/
def ownerAstray : State :=
  { State.reset with
    starting := false, mode := .run, request := .run
    wiring := upd (upd State.reset.wiring 0 ⟨true, 0, 10000, 200000⟩) 1 ⟨true, 1, 10000, 200000⟩
    plans := upd State.reset.plans 0 { PlanCopy.lowest with ready := true }
    groups := upd (upd State.reset.groups 0 (some (measuringGroup 1 0 .stopping))) 1 (some (measuringGroup 2 1 .order))
    seqs := upd (upd State.reset.seqs 0 stoppingSeries) 1 thirdHalf
    safety := Vector.replicate 4 { ChanSafety.initial with verify := none }
    slots := upd State.reset.slots 0 .taken, intake := [waitingSpot] }

theorem ownerAstray_safe : Safe ownerAstray := by
  unfold Safe memoryCanonical referenceApart safeStopQuiet tableAgrees injectorsEligible mayInject attachedInject intakeSound
    startupUnwired
  decide +kernel

/-- No order runs yet, so the owner that channel 1 names constrains nothing. -/
theorem ownerAstray_waits : waitsForEdge ownerAstray (fun c => ownerAstray.seqs[c].ready.getD 0)
    (fun c => ownerAstray.seqs[c].plateau none (ownerAstray.seqs[c].ready.getD 0)) (fun c =>
      historyAfter ownerAstray.seqs[c].history (ownerAstray.seqs[c].plateau none (ownerAstray.seqs[c].ready.getD 0))) :=
  waitsForEdge_plateaus (by decide +kernel)

/-- The intake list that an answer leaves. -/
def intakeAfter (x : Answer) : List Order :=
  match x with
  | .next t => t.intake
  | .fault _ | .refused _ => []

/-- Channel 0's edge grants the SPOT, and channel 1's edge, later at the same SYNC edge, completes it. -/
theorem ownerAstray_edge : intakeAfter (exec .syncEdge ownerAstray) = [{ waitingSpot with phase := .finishing }] := by
  decide +kernel

/-- No triple is handed, so no rotation is due. -/
theorem ownerAstray_hands : handedAt ownerAstray 0 stoppingSeries
    (historyAfter stoppingSeries.history (stoppingSeries.plateau none (stoppingSeries.ready.getD 0))) = [] := rfl

/-- Refutes O39: a TRIPLE run's owner is asked to stand in the run's group only if its order is RUNNING as the SYNC edge comes.
Where the slot holds a SPOT that waits in another group, the stopping series of that group grants it at this very edge; the
third edge of the TRIPLE run, taken after it, then makes the SPOT that has just started FINISHING, where the claim has it
RUNNING. -/
theorem not_syncEdgeEndsEveryWait : ¬ Obligations.SyncEdgeEndsEveryWait := by
  unfold Obligations.SyncEdgeEndsEveryWait
  intro ⟨_, hShared⟩
  have hSole (o : Order) (ho : o ∈ ownerAstray.intake) : o = waitingSpot := List.mem_singleton.mp ho
  obtain ⟨t, hExec, -, -, -, hOwn⟩ := hShared ownerAstray _ _ _ ownerAstray_safe rfl ownerAstray_waits fun o ho _ => by
    rw [hSole o ho]
    exact ⟨by decide +kernel, fun d e => nomatch e⟩
  obtain ⟨-, -, -, hStops, -⟩ := hOwn 0 0 (measuringGroup 1 0 .stopping) stoppingSeries [] (by decide +kernel) (by decide +kernel)
    (by decide +kernel) (by decide +kernel) ownerAstray_hands.symm
  obtain ⟨hRuns, -⟩ := hStops waitingSpot 0 0 rfl rfl rfl (List.mem_singleton.mpr rfl) rfl rfl rfl
    (fun o ho _ hSlot => absurd (congrArg Order.slot (hSole o ho)) hSlot) rfl (fun h => h.2.1 rfl) rfl (by decide +kernel)
    (by decide +kernel) (by decide +kernel) (by decide +kernel)
  have hIntake := ownerAstray_edge
  rw [hExec] at hIntake
  rw [show t.intake = [{ waitingSpot with phase := .finishing }] from hIntake] at hRuns
  exact absurd (congrArg Order.phase (List.mem_singleton.mp hRuns)) (by decide)

end Sys2Proof.Machine
end
